-- ==== Sys2Proof/Word.lean ====
section
/-! DEFINITION. The word types of the XQ-880 (bit 0 is the least significant bit of every field, R7) and their plainest arithmetic. -/

namespace Sys2Proof

abbrev Byte := BitVec 8
abbrev W16 := BitVec 16
abbrev W32 := BitVec 32
abbrev W64 := BitVec 64

/-- A mask over the 32 lanes of a group: bit l belongs to lane l (R7). -/
abbrev Mask := BitVec 32

/-- The contents of a vector register: lane l is entry l (R98). -/
abbrev Lanes := List W32

/-- The 32 lane numbers in ascending order (R4). -/
def laneNumbers : List Nat := List.range 32

end Sys2Proof
end

