-- ==== Sys2Proof/Syntax.lean ====
section
/-! DEFINITION. The instructions and steps of the XQ-880: one constructor of Instr per row of the table of operations and events. Instruction words carry the named fields of the F-form (R39), the P-form half (R51) and the literal words (R48); device, host and management steps carry what distinguishes one occurrence of the step from another. -/

namespace Sys2Proof

/-- Element types of Table 3-4 (R42). -/
inductive ElemType where
  | i32 | n32 | i16 | n16 | i8 | n8 | i64 | n64 | f32 | f16 | bf16 | f64 | df8 | e4m3 | e5m2 | e3m2 | e2m3 | e2m1 | mxi8
  deriving DecidableEq, Repr

/-- The F-form fields of Table 3-2 (R39), named; OP is the constructor. In lane-addressed memory instructions bits [8:7], the low two of BLANE, are SC (R238). -/
structure FForm where
  stall  : BitVec 4 := 0
  pred   : BitVec 3 := 0
  rnd    : BitVec 3 := 0
  d      : BitVec 8 := 0
  a      : BitVec 8 := 0
  b      : BitVec 8 := 0
  lra    : Bool := false
  lrb    : Bool := false
  lrd    : Bool := false
  bsel   : BitVec 2 := 0
  bfirst : Bool := false
  blane  : BitVec 5 := 0
  nega   : Bool := false
  negb   : Bool := false
  xf     : BitVec 5 := 0
  deriving DecidableEq, Repr

/-- The second operand set of Table 3-7 (R48). -/
structure SetLit where
  t1 : BitVec 16 := 0
  t2 : BitVec 16 := 0
  x  : BitVec 8 := 0
  y  : BitVec 8 := 0
  p1 : BitVec 4 := 0
  p2 : BitVec 4 := 0
  deriving DecidableEq, Repr

/-- The P-form operations of Table 3-16 (R67). -/
inductive PairOp where
  | pnop | vadd | vsub | vaddsat | vsubsat | vmul | vmin | vmax | vand | vor | vxor | vandn | vshl | vshr | vsra | vmov
  | vaddImm | vsubImm | vandImm | vshlImm | vshrImm | vsraImm | vmovImm | vfadd | vfsub | vfmul | vfmin | vfmax
  deriving DecidableEq, Repr

/-- One half of a P-form word (Table 3-8, R51). -/
structure PHalf where
  op    : PairOp
  stall : BitVec 2 := 0
  pred  : BitVec 2 := 0
  d     : BitVec 8 := 0
  s     : BitVec 8 := 0
  lrs   : Bool := false
  lrd   : Bool := false
  xf2   : BitVec 2 := 0
  deriving DecidableEq, Repr

/-- The kinds of access a translation is made for (R170, R171). -/
inductive AccessKind where
  | read | write | exec
  deriving DecidableEq, Repr

/-- The phases of a live migration (R316): steps 1, 2, 3 and 4 to 6. -/
inductive MigPhase where
  | start | precopy | quiesce | finish
  deriving DecidableEq, Repr

/-- A peer's access to a page of this device (R247, R383): an atomic names its operator and type code. -/
inductive RemoteAccess where
  | load | store | atomic (op ty : Nat)
  deriving DecidableEq, Repr

/-- Where an access through a virtual function lands (Table 20-1): an offset in BAR0, or a device physical address through BAR2. -/
inductive BarAddr where
  | bar0 (offset : Nat) | bar2 (pa : Nat)
  deriving DecidableEq, Repr

/-- The TDISP states of a virtual function's interface (R399). -/
inductive TdispState where
  | configUnlocked | configLocked | run | error
  deriving DecidableEq, Repr

/-- A management request: the sender (1 host driver, 2 BMC, 3 fabric manager) and the EPOCH it last read (R401). -/
structure MgmtReq where
  sender : BitVec 3
  epoch  : BitVec 32
  deriving DecidableEq, Repr

/-- What a partition creation names (R403, Table 18-10). -/
structure PartSetup where
  vf : Nat
  quads : List Nat
  l2ways : BitVec 16
  resq : BitVec 4
  lend : Bool
  aes : BitVec 256
  kmac : BitVec 256
  pool : List Nat
  ckpool : List Nat
  evring : BitVec 64
  evlog : Nat
  metaFrames : List Nat
  deriving DecidableEq, Repr

/-- What a context creation names (R377, Table 18-11). -/
structure CtxSetup where
  ptroot : BitVec 64
  catbase : BitVec 64
  htbase : BitVec 64
  tvec : BitVec 64
  frec : BitVec 64
  spill : BitVec 64
  save : BitVec 64
  mode : BitVec 64
  iweight : BitVec 8
  quota : BitVec 64
  wdog : BitVec 64
  tokens : BitVec 64
  deriving DecidableEq, Repr

/-- A firmware image as the boot meets it (R409): its measurement index (R410), bytes, security version, and whether its ML-DSA-65 signature is valid. -/
structure BootImage where
  index : Nat
  bytes : List (BitVec 8)
  version : Nat
  signed : Bool
  deriving DecidableEq, Repr

/-- What the fabric brings to an `xcoll` instance that completes (R261, R262, R407): the contributions by their ports in the switch tree, from the top switch down as far as they have been combined, or that the members' calls differ, or that a member's link was lost. -/
structure CollInput where
  parts : List (List Nat × List (BitVec 32)) := []
  mismatch : Bool := false
  lost : Option Nat := none
  deriving DecidableEq, Repr

/-- One constructor per row of the table of operations and events. -/
inductive Instr where
  /-- VADD (R120). Adds two vector registers per active lane and sub-element, wrapping modulo 2^w. -/
  | vadd (f : FForm)
  /-- VADD_IMM8 (R120). Adds a sign-extended imm8 to a vector register per active lane, wrapping. -/
  | vaddImm8 (f : FForm)
  /-- VADD_IMM32 (R120). Adds an imm32 literal to a vector register per active lane, wrapping. -/
  | vaddImm32 (f : FForm) (imm : BitVec 32)
  /-- VSUB (R120). Subtracts vector register B from A per active lane, wrapping. -/
  | vsub (f : FForm)
  /-- VSUB_IMM8 (R120). Subtracts an imm8 from a vector register per active lane, wrapping. -/
  | vsubImm8 (f : FForm)
  /-- VSUB_IMM32 (R120). Subtracts an imm32 literal from a vector register per active lane, wrapping. -/
  | vsubImm32 (f : FForm) (imm : BitVec 32)
  /-- VADDSAT (R120). Adds two vector registers per active lane, clamping to the type's range. -/
  | vaddsat (f : FForm)
  /-- VADDSAT_IMM8 (R120). Saturating add of an imm8 per active lane. -/
  | vaddsatImm8 (f : FForm)
  /-- VADDSAT_IMM32 (R120). Saturating add of an imm32 literal per active lane. -/
  | vaddsatImm32 (f : FForm) (imm : BitVec 32)
  /-- VSUBSAT (R120). Subtracts two vector registers per active lane, clamping to the type's range. -/
  | vsubsat (f : FForm)
  /-- VSUBSAT_IMM8 (R120). Saturating subtract of an imm8 per active lane. -/
  | vsubsatImm8 (f : FForm)
  /-- VSUBSAT_IMM32 (R120). Saturating subtract of an imm32 literal per active lane. -/
  | vsubsatImm32 (f : FForm) (imm : BitVec 32)
  /-- VMUL (R120). Multiplies two vector registers per active lane, keeping the low w bits. -/
  | vmul (f : FForm)
  /-- VMUL_IMM8 (R120). Multiplies a vector register by an imm8 per active lane. -/
  | vmulImm8 (f : FForm)
  /-- VMUL_IMM32 (R120). Multiplies a vector register by an imm32 literal per active lane. -/
  | vmulImm32 (f : FForm) (imm : BitVec 32)
  /-- VMULH (R120). Writes the high half of the exact product of two vector registers per active lane. -/
  | vmulh (f : FForm)
  /-- VMULH_IMM8 (R120). Writes the high half of the product with an imm8 per active lane. -/
  | vmulhImm8 (f : FForm)
  /-- VMULH_IMM32 (R120). Writes the high half of the product with an imm32 literal per active lane. -/
  | vmulhImm32 (f : FForm) (imm : BitVec 32)
  /-- VMAD (R120). Computes a times b plus d per active lane, wrapping. -/
  | vmad (f : FForm)
  /-- VMAD_IMM8 (R120). Computes a times imm8 plus d per active lane. -/
  | vmadImm8 (f : FForm)
  /-- VMAD_IMM32 (R120). Computes a times imm32 plus d per active lane. -/
  | vmadImm32 (f : FForm) (imm : BitVec 32)
  /-- VABSDIFF (R120). Writes the absolute difference of two vector registers per active lane, wrapping. -/
  | vabsdiff (f : FForm)
  /-- VMIN (R120). Writes the lesser of two vector registers per active lane. -/
  | vmin (f : FForm)
  /-- VMIN_IMM8 (R120). Writes the lesser of a vector register and an imm8 per active lane. -/
  | vminImm8 (f : FForm)
  /-- VMIN_IMM32 (R120). Writes the lesser of a vector register and an imm32 per active lane. -/
  | vminImm32 (f : FForm) (imm : BitVec 32)
  /-- VMAX (R120). Writes the greater of two vector registers per active lane. -/
  | vmax (f : FForm)
  /-- VMAX_IMM8 (R120). Writes the greater of a vector register and an imm8 per active lane. -/
  | vmaxImm8 (f : FForm)
  /-- VMAX_IMM32 (R120). Writes the greater of a vector register and an imm32 per active lane. -/
  | vmaxImm32 (f : FForm) (imm : BitVec 32)
  /-- VABS (R120). Writes the wrapping absolute value of a signed vector register per active lane. -/
  | vabs (f : FForm)
  /-- VAND (R121). Bitwise AND of two vector registers per active lane. -/
  | vand (f : FForm)
  /-- VAND_IMM8 (R121). Bitwise AND with a sign-extended imm8 per active lane. -/
  | vandImm8 (f : FForm)
  /-- VAND_IMM32 (R121). Bitwise AND with an imm32 literal per active lane. -/
  | vandImm32 (f : FForm) (imm : BitVec 32)
  /-- VOR (R121). Bitwise OR of two vector registers per active lane. -/
  | vor (f : FForm)
  /-- VOR_IMM8 (R121). Bitwise OR with an imm8 per active lane. -/
  | vorImm8 (f : FForm)
  /-- VOR_IMM32 (R121). Bitwise OR with an imm32 literal per active lane. -/
  | vorImm32 (f : FForm) (imm : BitVec 32)
  /-- VXOR (R121). Bitwise XOR of two vector registers per active lane. -/
  | vxor (f : FForm)
  /-- VXOR_IMM8 (R121). Bitwise XOR with an imm8 per active lane. -/
  | vxorImm8 (f : FForm)
  /-- VXOR_IMM32 (R121). Bitwise XOR with an imm32 literal per active lane. -/
  | vxorImm32 (f : FForm) (imm : BitVec 32)
  /-- VANDN (R121). Bitwise A AND NOT B per active lane. -/
  | vandn (f : FForm)
  /-- VANDN_IMM8 (R121). Bitwise A AND NOT imm8 per active lane. -/
  | vandnImm8 (f : FForm)
  /-- VANDN_IMM32 (R121). Bitwise A AND NOT imm32 per active lane. -/
  | vandnImm32 (f : FForm) (imm : BitVec 32)
  /-- VSHL (R121). Shifts left by a per-lane register count. -/
  | vshl (f : FForm)
  /-- VSHL_IMM8 (R121). Shifts left by an immediate count. -/
  | vshlImm8 (f : FForm)
  /-- VSHR (R121). Shifts right with zero fill by a per-lane register count. -/
  | vshr (f : FForm)
  /-- VSHR_IMM8 (R121). Shifts right with zero fill by an immediate count. -/
  | vshrImm8 (f : FForm)
  /-- VSRA (R121). Shifts right arithmetically by a per-lane register count. -/
  | vsra (f : FForm)
  /-- VSRA_IMM8 (R121). Shifts right arithmetically by an immediate count. -/
  | vsraImm8 (f : FForm)
  /-- VROT (R121). Rotates left by a per-lane register count modulo w. -/
  | vrot (f : FForm)
  /-- VROT_IMM8 (R121). Rotates left by an immediate count modulo w. -/
  | vrotImm8 (f : FForm)
  /-- VBEXT (R122). Extracts a bit field whose pos and len come from a register. -/
  | vbext (f : FForm)
  /-- VBEXT_IMM32 (R122). Extracts a bit field whose pos and len come from an imm32 literal. -/
  | vbextImm32 (f : FForm) (imm : BitVec 32)
  /-- VBINS (R122). Inserts a bit field into D with pos and len from a register. -/
  | vbins (f : FForm)
  /-- VBINS_IMM32 (R122). Inserts a bit field into D with pos and len from an imm32 literal. -/
  | vbinsImm32 (f : FForm) (imm : BitVec 32)
  /-- VPOPC (R123). Counts the one bits of each sub-element. -/
  | vpopc (f : FForm)
  /-- VCLZ (R123). Counts leading zeros of each sub-element. -/
  | vclz (f : FForm)
  /-- VCTZ (R123). Counts trailing zeros of each sub-element. -/
  | vctz (f : FForm)
  /-- VBREV (R123). Reverses the bits of each sub-element. -/
  | vbrev (f : FForm)
  /-- VDOT4 (R124). Adds four 8-bit products into a 32-bit accumulator per lane. -/
  | vdot4 (f : FForm)
  /-- VDOT2 (R124). Adds two 16-bit products into a 32-bit accumulator per lane. -/
  | vdot2 (f : FForm)
  /-- VCMP (R125). Compares two integer vector registers into a whole mask register. -/
  | vcmp (f : FForm)
  /-- VCMP_IMM8 (R125). Compares an integer vector register with an imm8 into a mask. -/
  | vcmpImm8 (f : FForm)
  /-- VCMP_IMM32 (R125). Compares an integer vector register with an imm32 into a mask. -/
  | vcmpImm32 (f : FForm) (imm : BitVec 32)
  /-- VSEL (R126). Selects A or register B per lane by a mask. -/
  | vsel (f : FForm)
  /-- VSEL_IMM8 (R126). Selects A or an imm8 per lane by a mask. -/
  | vselImm8 (f : FForm)
  /-- VSEL_IMM32 (R126). Selects A or an imm32 per lane by a mask. -/
  | vselImm32 (f : FForm) (imm : BitVec 32)
  /-- VWID (R143). Writes a field of each lane's work identifier. -/
  | vwid (f : FForm)
  /-- VSHRINK (R144). Lowers the register allotment and returns released registers and floor reserves. -/
  | vshrink (f : FForm)
  /-- VFADD (R128). Floating-point add per active lane, rounded by RND. -/
  | vfadd (f : FForm)
  /-- VFADD_IMM32 (R128). Floating-point add of an imm32 literal per active lane. -/
  | vfaddImm32 (f : FForm) (imm : BitVec 32)
  /-- VFSUB (R128). Floating-point subtract per active lane. -/
  | vfsub (f : FForm)
  /-- VFSUB_IMM32 (R128). Floating-point subtract of an imm32 literal per active lane. -/
  | vfsubImm32 (f : FForm) (imm : BitVec 32)
  /-- VFMUL (R128). Floating-point multiply per active lane. -/
  | vfmul (f : FForm)
  /-- VFMUL_IMM32 (R128). Floating-point multiply by an imm32 literal per active lane. -/
  | vfmulImm32 (f : FForm) (imm : BitVec 32)
  /-- VFMA (R128). Fused multiply-add a times b plus d rounded once per active lane. -/
  | vfma (f : FForm)
  /-- VFMA_IMM32 (R128). Fused multiply-add with an imm32 literal B per active lane. -/
  | vfmaImm32 (f : FForm) (imm : BitVec 32)
  /-- VFMIN (R128). Writes minimumNumber of two floating-point operands per lane. -/
  | vfmin (f : FForm)
  /-- VFMIN_IMM32 (R128). Writes minimumNumber of an operand and an imm32 literal per lane. -/
  | vfminImm32 (f : FForm) (imm : BitVec 32)
  /-- VFMAX (R128). Writes maximumNumber of two floating-point operands per lane. -/
  | vfmax (f : FForm)
  /-- VFMAX_IMM32 (R128). Writes maximumNumber of an operand and an imm32 literal per lane. -/
  | vfmaxImm32 (f : FForm) (imm : BitVec 32)
  /-- VFABS (R129). Clears the sign bit of every floating-point sub-element. -/
  | vfabs (f : FForm)
  /-- VFCMP (R130). Compares floating-point registers into a mask. -/
  | vfcmp (f : FForm)
  /-- VFCMP_IMM32 (R130). Compares a floating-point register with an imm32 literal into a mask. -/
  | vfcmpImm32 (f : FForm) (imm : BitVec 32)
  /-- VFDIV (R128). Correctly rounded floating-point divide per active lane. -/
  | vfdiv (f : FForm)
  /-- VFSQRT (R128). Correctly rounded square root per active lane. -/
  | vfsqrt (f : FForm)
  /-- VFRCP (R131). Correctly rounded reciprocal per active lane. -/
  | vfrcp (f : FForm)
  /-- VFRSQ (R131). Correctly rounded reciprocal square root per active lane. -/
  | vfrsq (f : FForm)
  /-- VFEXP2 (R131). Correctly rounded 2 to the power a per active lane. -/
  | vfexp2 (f : FForm)
  /-- VFLOG2 (R131). Correctly rounded base-2 logarithm per active lane. -/
  | vflog2 (f : FForm)
  /-- VFSIN (R131). Correctly rounded sine per active lane. -/
  | vfsin (f : FForm)
  /-- VFCOS (R131). Correctly rounded cosine per active lane. -/
  | vfcos (f : FForm)
  /-- VFTANH (R131). Correctly rounded hyperbolic tangent per active lane. -/
  | vftanh (f : FForm)
  /-- VFCLASS (R132). Writes a one-hot class of each floating-point element. -/
  | vfclass (f : FForm)
  /-- VCVT (R133). Converts sub-elements between types with a part index. -/
  | vcvt (f : FForm)
  /-- VPACK (R134). Narrows two registers into one packed register. -/
  | vpack (f : FForm)
  /-- VUNPACK (R135). Widens half of a packed register. -/
  | vunpack (f : FForm)
  /-- VMOV (R136). Copies a register or broadcast into D per active lane. -/
  | vmov (f : FForm)
  /-- VMOV_IMM8 (R136). Writes an imm8 into D per active lane. -/
  | vmovImm8 (f : FForm)
  /-- VMOV_IMM32 (R136). Writes an imm32 literal into D per active lane. -/
  | vmovImm32 (f : FForm) (imm : BitVec 32)
  /-- VMOVK (R137). Splats a control register into every active lane. -/
  | vmovk (f : FForm)
  /-- VPERM (R138). Permutes lanes by per-lane register indices. -/
  | vperm (f : FForm)
  /-- VPERM_IMM8 (R138). Permutes lanes by XOR with an immediate. -/
  | vpermImm8 (f : FForm)
  /-- VSHFL (R138). Shuffles bytes within each lane by register selectors. -/
  | vshfl (f : FForm)
  /-- VSHFL_IMM8 (R138). Shuffles bytes within each lane by immediate selectors. -/
  | vshflImm8 (f : FForm)
  /-- VLROT (R138). Rotates lanes by per-lane register amounts. -/
  | vlrot (f : FForm)
  /-- VLROT_IMM8 (R138). Rotates lanes by an immediate amount. -/
  | vlrotImm8 (f : FForm)
  /-- VSCAN (R139). Inclusive scan of active lanes in ascending order. -/
  | vscan (f : FForm)
  /-- VRED (R139). Reduces active lanes in ascending order and writes the result to each. -/
  | vred (f : FForm)
  /-- VXCHG (R140). Exchanges a register with the paired group at a rendezvous. -/
  | vxchg (f : FForm)
  /-- PAIR_WORD (R52). Issues a P-form word executing two restricted vector operations with reads before writes. -/
  | pairWord (h0 h1 : PHalf)
  /-- VLD (R242). Loads one element per active lane into a vector register. -/
  | vld (f : FForm)
  /-- VLD_OFFSET (R242). Loads one element per active lane with an imm32 displacement. -/
  | vldOffset (f : FForm) (imm : BitVec 32)
  /-- VST (R243). Stores one element per active lane. -/
  | vst (f : FForm)
  /-- VST_OFFSET (R243). Stores one element per active lane with an imm32 displacement. -/
  | vstOffset (f : FForm) (imm : BitVec 32)
  /-- KLD (R244). Loads one element into a control register from the control thread. -/
  | kld (f : FForm)
  /-- KLD_OFFSET (R244). Control-thread load with an imm32 displacement. -/
  | kldOffset (f : FForm) (imm : BitVec 32)
  /-- KST (R244). Stores the low bytes of a control register. -/
  | kst (f : FForm)
  /-- KST_OFFSET (R244). Control-thread store with an imm32 displacement. -/
  | kstOffset (f : FForm) (imm : BitVec 32)
  /-- VATOM (R245). Aggregated atomic read-modify-write returning old values. -/
  | vatom (f : FForm) (l : SetLit)
  /-- VATOMN (R245). Aggregated atomic read-modify-write returning nothing. -/
  | vatomn (f : FForm) (l : SetLit)
  /-- VCAS (R245). Aggregated compare-and-swap returning old values. -/
  | vcas (f : FForm) (l : SetLit)
  /-- ATOMIC_RUN_AT_HOME (R246). A run of lane steps on one element is performed adjacently at its home. -/
  | atomicRunAtHome (uid req : Nat) (elem : Nat)
  /-- FENCE (R250). Orders the group's own accesses as acquire, release or acquire-release. -/
  | fence (f : FForm)
  /-- FACQ_REMOTE (R251). Promotes a victim core's groups to a package-scope fence with the issuer. -/
  | facqRemote (f : FForm)
  /-- PROMOTION_POINT (R252). A victim group takes its promotion point at its next boundary. -/
  | promotionPoint (victim issuer : Nat)
  /-- PROMOTION_DRAIN (R252). After all points, the victim drains and invalidates the context's L1 lines and the issuer resumes. -/
  | promotionDrain (issuer : Nat)
  /-- PREF (R253). Prefetches lines into L2 without faults. -/
  | pref (f : FForm)
  /-- PREF_L1 (R253). Prefetches lines into L2 and the core's L1. -/
  | prefL1 (f : FForm)
  /-- PREF_OFFSET (R253). Prefetch with an imm32 displacement. -/
  | prefOffset (f : FForm) (imm : BitVec 32)
  /-- CWB (R254). Writes back dirty L2 lines of a range to HBM. -/
  | cwb (f : FForm)
  /-- CINV (R255). Invalidates every cached copy of a range without write-back. -/
  | cinv (f : FForm)
  /-- XCOPY (R259). Starts an asynchronous copy counted in COPY. -/
  | xcopy (f : FForm) (l : SetLit)
  /-- XGATH (R260). Starts an asynchronous row gather counted in GATH. -/
  | xgath (f : FForm) (l : SetLit)
  /-- XCOLL (R261). Contributes to a fabric collective counted in COLL. -/
  | xcoll (f : FForm) (l : SetLit)
  /-- XWAIT (R264). Waits until an engine class counter falls to at most n. -/
  | xwait (f : FForm)
  /-- ENGINE_COMPLETION (R228). An engine operation completes and its class counter decrements in issue order. -/
  | engineCompletion (uid op : Nat) (coll : CollInput)
  /-- ASYNC_FAULT_TAKE (R257). The group takes a pending engine or matrix fault at its next instruction boundary. -/
  | asyncFaultTake (uid : Nat)
  /-- ABEG (R279). Opens an atomic region with a checkpoint and fallback. -/
  | abeg (f : FForm) (imm : BitVec 32)
  /-- ACOM (R280). Commits the open region, repairing against fresh values or aborting. -/
  | acom (f : FForm)
  /-- AABT (R281). Aborts the open region with cause EXPLICIT. -/
  | aabt (f : FForm)
  /-- XCAST (R289). Casts a tensor window into a cast tile as a CAST engine operation. -/
  | xcast (f : FForm) (l : SetLit)
  /-- XCAST_T (R289). Casts a transposed tensor window into a cast tile. -/
  | xcastT (f : FForm) (l : SetLit)
  /-- MMA (R291). Adds the product of two cast tiles into an accumulator tile, ganged or alone. -/
  | mma (f : FForm) (l : SetLit)
  /-- MFENCE (R297). Closes the open batch and returns its number. -/
  | mfence (f : FForm)
  /-- MWAIT (R298). Waits until a batch and all earlier batches complete. -/
  | mwait (f : FForm)
  /-- MPOUR (R295). Drains an accumulator tile to memory in a given type. -/
  | mpour (f : FForm) (l : SetLit)
  /-- MZERO (R293). Sets every element of an accumulator tile to +0.0. -/
  | mzero (f : FForm)
  /-- MLOAD (R294). Initialises an accumulator tile from memory. -/
  | mload (f : FForm) (l : SetLit)
  /-- MATRIX_OP_COMPLETE (R284). The matrix unit completes an accepted operation. -/
  | matrixOpComplete (quad : Nat)
  /-- QPOP (R343). Pops further input records into lanes, waiting if empty. -/
  | qpop (f : FForm)
  /-- QPOP_TRY (R343). Pops further input records without waiting. -/
  | qpopTry (f : FForm)
  /-- QPUSH (R342). Makes active lanes' records tentative in an output queue within its reservation. -/
  | qpush (f : FForm)
  /-- QLEN_VB (R344). Reads the core's view of a queue's backlog. -/
  | qlenVb (f : FForm)
  /-- QLEN_VF (R344). Reads the core's view of a queue's free space. -/
  | qlenVf (f : FForm)
  /-- QLEN_B (R344). Reads BACKLOG at the home. -/
  | qlenB (f : FForm)
  /-- QLEN_F (R344). Reads Free at the home. -/
  | qlenF (f : FForm)
  /-- QLEN_H (R344). Reads HELD at the home. -/
  | qlenH (f : FForm)
  /-- QLEN_R (R344). Reads RESV at the home. -/
  | qlenR (f : FForm)
  /-- HPUSH (R336). Pushes a handle, handing it to a waiter or waiting for allowance or room. -/
  | hpush (f : FForm)
  /-- HPOP (R336). Pops a handle into the active lanes, waiting while empty. -/
  | hpop (f : FForm)
  /-- HTRY (R345). Pops a handle without waiting, or returns the empty mark. -/
  | htry (f : FForm)
  /-- HALLOW (R336). Raises a handle queue's send allowance and serves push waiters. -/
  | hallow (f : FForm)
  /-- LAUNCH (R346). Creates an instance of a range-fed stage against the quota and a join. -/
  | launch (f : FForm)
  /-- CONT (R350). Arms a join's continuation, firing at once if the count is zero. -/
  | cont (f : FForm)
  /-- EVPOST (R351). Posts a kind-1 docket to the cluster event queue. -/
  | evpost (f : FForm)
  /-- EVPOP (R352). Takes the oldest cluster docket or returns zeros. -/
  | evpop (f : FForm)
  /-- EVPOP_WAIT (R352). Takes the oldest cluster docket, waiting until one arrives. -/
  | evpopWait (f : FForm)
  /-- KSIG (R353). Posts a kind-9 docket to the host event ring and signals MSI-X. -/
  | ksig (f : FForm)
  /-- TDEF (R360). Defines a tensor catalogue entry from a descriptor. -/
  | tdef (f : FForm) (l : SetLit)
  /-- TPATCH (R361). Sets one field of a catalogue entry and returns the old value. -/
  | tpatch (f : FForm) (l : SetLit)
  /-- TPATCH_ADD (R361). Adds to one field of a catalogue entry and returns the old value. -/
  | tpatchAdd (f : FForm) (l : SetLit)
  /-- TINV (R362). Invalidates a range of catalogue entries. -/
  | tinv (f : FForm) (l : SetLit)
  /-- HNEW_B (R365). Creates a barrier handle owned by the block. -/
  | hnewB (f : FForm)
  /-- HNEW_Q (R365). Creates a handle queue in the block's scratchpad. -/
  | hnewQ (f : FForm)
  /-- HNEW_J (R365). Creates a join handle owned by the context. -/
  | hnewJ (f : FForm)
  /-- HDEL (R366). Frees a handle entry and ends its waiters. -/
  | hdel (f : FForm)
  /-- PRESERVE (R368). Reserves a virtual range, building missing tables. -/
  | preserve (f : FForm)
  /-- PRESERVE_REL (R368). Releases a reserved virtual range. -/
  | preserveRel (f : FForm)
  /-- PCOMMIT (R369). Commits a page with a pool frame or changes its permissions. -/
  | pcommit (f : FForm)
  /-- PFREE (R370). Frees a committed page and waits for its invalidation. -/
  | pfree (f : FForm)
  /-- TLBINV (R372). Invalidates translations of a range and waits. -/
  | tlbinv (f : FForm)
  /-- TLBINV_ALL (R372). Invalidates every translation of the context and waits. -/
  | tlbinvAll (f : FForm)
  /-- HMOVE (R374). Moves the home die of a page and announces it. -/
  | hmove (f : FForm)
  /-- BAR_EXPECT (R393). Adds expected bytes to a barrier's balance. -/
  | barExpect (f : FForm)
  /-- BAR_EXPECT_N (R393). Sets a barrier's arrival count NEED. -/
  | barExpectN (f : FForm)
  /-- BAR_ARRIVE (R393). Arrives on a barrier and returns the phase. -/
  | barArrive (f : FForm)
  /-- BAR_ARRIVE_X (R393). Adds expected bytes, arrives on a barrier and returns the phase. -/
  | barArriveX (f : FForm)
  /-- BAR_WAIT (R393). Waits until a barrier passes the given phase. -/
  | barWait (f : FForm)
  /-- ENGINE_BARRIER_ARRIVAL (R393). An engine operation's byte count arrives at its barrier and is subtracted from BAL. -/
  | engineBarrierArrival (part ctx : Nat) (handle : BitVec 64) (bytes : Nat)
  /-- JWAIT (R395). Waits until a join's count is zero. -/
  | jwait (f : FForm)
  /-- JSTAT (R396). Reads a join's count. -/
  | jstat (f : FForm)
  /-- JSTAT_S (R396). Reads a join's status word. -/
  | jstatS (f : FForm)
  /-- JOIN_DECREMENT (R349). A child block's retirement decrements its join at the join's home. -/
  | joinDecrement (part ctx : Nat) (handle : BitVec 64) (faulted killed : Bool)
  /-- CKPT (R307). Starts a checkpoint of a partition and returns its number. -/
  | ckpt (f : FForm)
  /-- CKSTAT (R310). Returns the status of a checkpoint. -/
  | ckstat (f : FForm)
  /-- CHECKPOINT_COMPLETE (R308). The checkpoint procedure finishes and replaces its predecessor. -/
  | checkpointComplete (part : Nat)
  /-- KADD (R146). Adds two control registers. -/
  | kadd (f : FForm)
  /-- KADD_IMM8 (R146). Adds an imm8 to a control register. -/
  | kaddImm8 (f : FForm)
  /-- KADD_IMM32 (R146). Adds an imm32 literal to a control register. -/
  | kaddImm32 (f : FForm) (imm : BitVec 32)
  /-- KSUB (R146). Subtracts control registers. -/
  | ksub (f : FForm)
  /-- KSUB_IMM8 (R146). Subtracts an imm8 from a control register. -/
  | ksubImm8 (f : FForm)
  /-- KSUB_IMM32 (R146). Subtracts an imm32 literal from a control register. -/
  | ksubImm32 (f : FForm) (imm : BitVec 32)
  /-- KMUL (R146). Multiplies control registers, keeping the low 64 bits. -/
  | kmul (f : FForm)
  /-- KMUL_IMM8 (R146). Multiplies a control register by an imm8. -/
  | kmulImm8 (f : FForm)
  /-- KMUL_IMM32 (R146). Multiplies a control register by an imm32 literal. -/
  | kmulImm32 (f : FForm) (imm : BitVec 32)
  /-- KAND (R146). Bitwise AND of control registers. -/
  | kand (f : FForm)
  /-- KAND_IMM8 (R146). Bitwise AND with an imm8. -/
  | kandImm8 (f : FForm)
  /-- KAND_IMM32 (R146). Bitwise AND with a zero-extended imm32. -/
  | kandImm32 (f : FForm) (imm : BitVec 32)
  /-- KOR (R146). Bitwise OR of control registers. -/
  | kor (f : FForm)
  /-- KOR_IMM8 (R146). Bitwise OR with an imm8. -/
  | korImm8 (f : FForm)
  /-- KOR_IMM32 (R146). Bitwise OR with a zero-extended imm32. -/
  | korImm32 (f : FForm) (imm : BitVec 32)
  /-- KXOR (R146). Bitwise XOR of control registers. -/
  | kxor (f : FForm)
  /-- KXOR_IMM8 (R146). Bitwise XOR with an imm8. -/
  | kxorImm8 (f : FForm)
  /-- KXOR_IMM32 (R146). Bitwise XOR with a zero-extended imm32. -/
  | kxorImm32 (f : FForm) (imm : BitVec 32)
  /-- KSHL (R146). Shifts a control register left by a register count. -/
  | kshl (f : FForm)
  /-- KSHL_IMM8 (R146). Shifts a control register left by an imm8 count. -/
  | kshlImm8 (f : FForm)
  /-- KSHL_IMM32 (R146). Shifts a control register left by an imm32 count. -/
  | kshlImm32 (f : FForm) (imm : BitVec 32)
  /-- KSHR (R146). Shifts a control register right logically by a register count. -/
  | kshr (f : FForm)
  /-- KSHR_IMM8 (R146). Shifts right logically by an imm8 count. -/
  | kshrImm8 (f : FForm)
  /-- KSHR_IMM32 (R146). Shifts right logically by an imm32 count. -/
  | kshrImm32 (f : FForm) (imm : BitVec 32)
  /-- KSRA (R146). Shifts a control register right arithmetically by a register count. -/
  | ksra (f : FForm)
  /-- KSRA_IMM8 (R146). Shifts right arithmetically by an imm8 count. -/
  | ksraImm8 (f : FForm)
  /-- KSRA_IMM32 (R146). Shifts right arithmetically by an imm32 count. -/
  | ksraImm32 (f : FForm) (imm : BitVec 32)
  /-- KMIN (R146). Writes the lesser of two control registers. -/
  | kmin (f : FForm)
  /-- KMIN_IMM8 (R146). Writes the lesser of a control register and an imm8. -/
  | kminImm8 (f : FForm)
  /-- KMIN_IMM32 (R146). Writes the lesser of a control register and an imm32. -/
  | kminImm32 (f : FForm) (imm : BitVec 32)
  /-- KMAX (R146). Writes the greater of two control registers. -/
  | kmax (f : FForm)
  /-- KMAX_IMM8 (R146). Writes the greater of a control register and an imm8. -/
  | kmaxImm8 (f : FForm)
  /-- KMAX_IMM32 (R146). Writes the greater of a control register and an imm32. -/
  | kmaxImm32 (f : FForm) (imm : BitVec 32)
  /-- KMOV (R146). Copies a control register. -/
  | kmov (f : FForm)
  /-- KMOV_IMM8 (R146). Writes a sign-extended imm8 to a control register. -/
  | kmovImm8 (f : FForm)
  /-- KMOV_WIDE (R147). Writes a 60-bit wide immediate to a control register. -/
  | kmovWide (f : FForm) (wide : BitVec 60)
  /-- KCMP (R146). Writes 1 or 0 from a condition on two control registers. -/
  | kcmp (f : FForm)
  /-- KCMP_IMM8 (R146). Writes 1 or 0 from a condition against an imm8. -/
  | kcmpImm8 (f : FForm)
  /-- KCMP_IMM32 (R146). Writes 1 or 0 from a condition against an imm32. -/
  | kcmpImm32 (f : FForm) (imm : BitVec 32)
  /-- NOP (R167). Issues and spaces the next word by its stall count. -/
  | nop (f : FForm)
  /-- BRA (R149). Branches by a signed 24-bit word offset. -/
  | bra (f : FForm)
  /-- CALL (R149). Writes the return address to k31 and branches. -/
  | call (f : FForm)
  /-- RET (R150). Jumps to the address in k31. -/
  | ret (f : FForm)
  /-- JMP (R150). Jumps to the address in a control register. -/
  | jmp (f : FForm)
  /-- JCALL (R150). Writes the return address and jumps through a control register. -/
  | jcall (f : FForm)
  /-- BCC (R149). Branches by an 8-bit offset on a condition of two control registers. -/
  | bcc (f : FForm)
  /-- BCC_LONG (R149). Branches by an imm32 offset on a condition of two control registers. -/
  | bccLong (f : FForm) (imm : BitVec 32)
  /-- BANY (R149). Branches when any active lane is set in a mask. -/
  | bany (f : FForm)
  /-- BALL (R149). Branches when every active lane is set in a mask. -/
  | ball (f : FForm)
  /-- PFORK (R21). Narrows the path and records the remaining lanes as a pending path. -/
  | pfork (f : FForm) (imm : BitVec 32)
  /-- PJOIN (R21). Switches to a pending path of the tag or merges arrived paths. -/
  | pjoin (f : FForm)
  /-- PYIELD (R21). Runs the ageing check and may switch paths. -/
  | pyield (f : FForm)
  /-- MAND (R154). AND of two masks. -/
  | mand (f : FForm)
  /-- MOR (R154). OR of two masks. -/
  | mor (f : FForm)
  /-- MXOR (R154). XOR of two masks. -/
  | mxor (f : FForm)
  /-- MANDN (R154). A AND NOT B of two masks. -/
  | mandn (f : FForm)
  /-- MNOT (R154). NOT of a mask. -/
  | mnot (f : FForm)
  /-- MMOV (R154). Copies a mask. -/
  | mmov (f : FForm)
  /-- MSET (R154). Sets a mask from the low 32 bits of a control register. -/
  | mset (f : FForm)
  /-- MGET (R154). Copies a mask into a control register. -/
  | mget (f : FForm)
  /-- MPOPC (R154). Counts the set bits of a mask. -/
  | mpopc (f : FForm)
  /-- MFIRST (R154). Writes the index of the lowest set bit of a mask, or 32. -/
  | mfirst (f : FForm)
  /-- KGET (R155). Reads one lane of a vector register into a control register. -/
  | kget (f : FForm)
  /-- KTIME (R156). Writes TIME to a control register. -/
  | ktime (f : FForm)
  /-- KMODE (R156). Drains and writes MODE to a control register. -/
  | kmode (f : FForm)
  /-- KWMODE (R157). Drains and writes MODE bits 63:3, reseeding the generators. -/
  | kwmode (f : FForm)
  /-- KWMODE_FLAGS (R157). Drains and writes MODE's sticky flags. -/
  | kwmodeFlags (f : FForm)
  /-- KWMODE_CTL (R157). Drains and writes MODE's control fields. -/
  | kwmodeCtl (f : FForm)
  /-- KGANG (R159). Checks and writes GANG, returning a status. -/
  | kgang (f : FForm)
  /-- KPAIR (R160). Checks and writes PAIR, returning a status. -/
  | kpair (f : FForm)
  /-- KSLEEP (R161). Suspends the group for a number of nanoseconds of TIME. -/
  | ksleep (f : FForm)
  /-- KSLEEP_WAKE (R161). A sleeping group wakes at the first window close at or after its deadline. -/
  | ksleepWake (uid : Nat)
  /-- KWAIT (R162). Waits with acquire reads until a memory word differs from a value. -/
  | kwait (f : FForm)
  /-- KWAIT_WAKE (R162). A write to the watched line or a window close wakes the waiter to read again. -/
  | kwaitWake (uid : Nat)
  /-- TRAP (R163). Raises TRAP_SW with an 8-bit number. -/
  | trap (f : FForm)
  /-- BRK (R163). Raises BREAK. -/
  | brk (f : FForm)
  /-- ERET (R164). Returns from the handler, replaying, skipping or resuming per the fault record. -/
  | eret (f : FForm)
  /-- GEXIT (R165). Ends the current path, or starts the group's retirement wait. -/
  | gexit (f : FForm)
  /-- KSYS (R166). Reads a system register by number. -/
  | ksys (f : FForm)
  /-- KWSYS (R166). Writes a system register by number under supervisor privilege. -/
  | kwsys (f : FForm)
  /-- ASSIST_COMPLETE (R94). The assist routine writes the flagged lanes and resumes the group. -/
  | assistComplete (uid : Nat)
  /-- ISSUE_SELECTION (R35). Each cycle the quadrant chooses up to two words by the deficit counters. -/
  | issueSelection (quad : Nat)
  /-- STALL_ELAPSED (R55). A word's stall count elapses and the group may leave WAIT_STALL. -/
  | stallElapsed (uid : Nat)
  /-- LOAD_RETURN (R58). A variable-latency write lands and ends its interlock. -/
  | loadReturn (uid req gen : Nat)
  /-- PAGE_WALK (R171). The cluster walker translates a missed page or faults it. -/
  | pageWalk (core part ctx : Nat) (va : BitVec 64) (kind : AccessKind)
  /-- INVALIDATION_COMPLETE (R187). An announced translation invalidation completes in every core and lane. -/
  | invalidationComplete (inv : Nat)
  /-- L2_FILL_RETURN (R199). A line fetched from HBM returns unverified to the requesting load. -/
  | l2FillReturn (uid req line : Nat)
  /-- TILE_VERIFICATION (R200). The verifier completes the tag check of a tile and its metadata path. -/
  | tileVerification (tile : Nat)
  /-- TILE_WRITEBACK (R201). A tile is gathered, its version raised, encrypted, tagged and written. -/
  | tileWriteback (tile : Nat)
  /-- COHERENCE_SERVICE (R191). Firmware settles an inter-device page fault and replays the failing lanes. -/
  | coherenceService (part ctx vpn dev : Nat) (write : Bool) (frame : Nat)
  /-- HOST_PAGE_REQUEST_ANSWER (R192). The host's answer to a page request wakes or faults the waiting group. -/
  | hostPageRequestAnswer (uid : Nat) (granted : Bool)
  /-- REMOTE_ACCESS_ARRIVAL (R383). A peer's access arrives at a port and is counted in the hotness table. -/
  | remoteAccessArrival (port src part ctx vpn pa : Nat) (kind : RemoteAccess) (data : List (BitVec 8))
  /-- HOTNESS_DECAY (R385). Every 4,096th window close halves every hotness count. -/
  | hotnessDecay
  /-- SUMMARY_WINDOW_CLOSE (R323). A summary window closes and its messages are applied in global order. -/
  | summaryWindowClose (through : Nat) (overBudget : Bool)
  /-- METERED_REQUEST_ADMIT (R382). A line request at a slice takes its own or a borrowed token, or waits. -/
  | meteredRequestAdmit (slice part ctx : Nat)
  /-- WATCHDOG_FIRE (R315). A context idle on device-internal waits for WDOG sends WATCHDOG to its waiters and a docket. -/
  | watchdogFire (part ctx : Nat)
  /-- SUMMARY_EXCHANGE (R323). Every 16 windows, ports exchange remote queue occupancies with peers. -/
  | summaryExchange (port peer : Nat) (occ : List (Nat × Nat × Nat))
  /-- EMIT_RESERVATION_REQUEST (R326). An output home grants or refuses a launch's EMIT reservation. -/
  | emitReservationRequest (attempt : Nat)
  /-- LAUNCH_POP_REQUEST (R326). The input home pops up to 32 records per group for a confirmed launch. -/
  | launchPopRequest (attempt : Nat)
  /-- RANGE_BLOCK_REQUEST (R327). The range home gives an offered-again or next block number, or answers exhausted. -/
  | rangeBlockRequest (attempt : Nat)
  /-- RESTART_OFFER (R327). A restart's block number is recorded at the range home to be offered again. -/
  | restartOffer (gidx stage inst blockNo : Nat)
  /-- LAUNCH_CONFIRMATION (R326). On the homes' answers the core admits the block or returns the grants. -/
  | launchConfirmation (attempt : Nat) (place : List Nat)
  /-- GROUP_LAUNCH_COMPLETE (R30). A group leaves LAUNCHING for READY once registers, operating point and release allow. -/
  | groupLaunchComplete (uid : Nat)
  /-- QUADRANT_RELEASE (R15). Every 256 core cycles the next quadrant of a cluster is released to issue. -/
  | quadrantRelease (cluster : Nat)
  /-- OPERATING_POINT_CHANGE (R411). A cluster stops issue, changes its clock and starts releasing quadrants. -/
  | operatingPointChange (cluster point : Nat)
  /-- PARK (R33). The youngest group with above-floor registers is spilled and parked. -/
  | park (quad : Nat)
  /-- PARKED_RESTORE (R108). A parked group whose spilled names fit is restored bit-exact. -/
  | parkedRestore (uid : Nat)
  /-- GROUP_RETIREMENT (R165). After its counters, batches and interlocks settle, a group retires and releases registers. -/
  | groupRetirement (uid : Nat)
  /-- BLOCK_RETIREMENT (R32). The last group of a block retires and frees its slots and scratchpad. -/
  | blockRetirement (blk : Nat)
  /-- RECORD_COMMIT (R320). A block's retirement reaches a queue home, committing pushes and releasing pops. -/
  | recordCommit (blk : Nat)
  /-- SHELF_REFILL (R322). The home moves the shelf's head record into a free segment slot. -/
  | shelfRefill (gidx qid : Nat)
  /-- FORWARD_BATCH_SEND (R330). At a send opportunity a port forwards a batch from the best-scoring pair. -/
  | forwardBatchSend (port : Nat)
  /-- FORWARD_BATCH_ARRIVAL (R331). A forwarded batch commits at the remote queue and is acknowledged. -/
  | forwardBatchArrival (gidx qid peer : Nat) (recs : List (List (BitVec 8)))
  /-- FORWARD_ACK (R331). The acknowledgement releases forwarded records held at the local home. -/
  | forwardAck (gidx qid count : Nat)
  /-- CREDIT_GRANT (R331). The remote home grants 32 records of forwarding credit to a pair. -/
  | creditGrant (gidx qid peer : Nat)
  /-- XOFF (R331). A receiving port asks to pause virtual lane 2. -/
  | xoff (port : Nat)
  /-- XON (R331). A receiving port resumes virtual lane 2. -/
  | xon (port : Nat)
  /-- LINK_LOSS (R331). Loss of a link or peer returns unacknowledged records and unused credit and fails collectives. -/
  | linkLoss (port peer : Nat)
  /-- DOORBELL (R398). A 16-byte doorbell write updates a host ring index or is discarded with a docket. -/
  | doorbell (vf : Nat) (bytes : List (BitVec 8))
  /-- RING_RESET (R334). Management resets a halted ring so waiting commits proceed. -/
  | ringReset (q : MgmtReq) (gidx qid : Nat) (index : BitVec 64)
  /-- POOL_FRAME_ARRIVAL (R369, R184). The host adds a pool frame and waiting commits are served in arrival order. `part` numbers the pool: p is the device page pool of partition p, and 64 + p its checkpoint pool. -/
  | poolFrameArrival (part frame : Nat)
  /-- FREED_FRAME_TO_POOL (R371). A freed frame, invalidated, discarded and zeroed, enters the pool or the checkpoint. -/
  | freedFrameToPool (part frame : Nat)
  /-- PREEMPTION (R305). Issue stops at a boundary and the save waits for outstanding work. -/
  | preemption (uid : Nat)
  /-- PREEMPTION_SAVE (R305). Packets and the save record are written and the group becomes PREEMPTED. -/
  | preemptionSave (uid : Nat)
  /-- RESTORE (R306). A saved group is restored, its GEN advanced and packets reissued. -/
  | restore (uid core slot : Nat)
  /-- KILL (R32). A group is retired at once by kill. -/
  | kill (uid : Nat)
  /-- HW_ERROR (R311). A hardware error discards a restartable block and fences the quadrant, or rolls back. -/
  | hwError (quad : Nat)
  /-- LIVE_MIGRATION (R316). Management carries a partition to another device by pre-copy and quiesce. -/
  | liveMigration (q : MgmtReq) (part : Nat) (phase : MigPhase)
  /-- REKEY (R209). The monitor pauses a partition and rewrites every tile under fresh keys. -/
  | rekey (q : MgmtReq) (part : Nat) (aes kmac : BitVec 256)
  /-- L2_WAY_MASK_CHANGE (R182). The partition's L2 ways change, writing back and invalidating removed ways. -/
  | l2WayMaskChange (q : MgmtReq) (part : Nat) (ways : BitVec 16) (resq : BitVec 4)
  /-- HOST_BAR2_ACCESS (R397). A host access through BAR2 is encrypted or verified against the partition's frames. -/
  | hostBar2Access (vf : Nat) (at_ : BarAddr) (write : Bool) (data : List (BitVec 8))
  /-- OWNERSHIP_CLAIM (R401). Claims while unowned are settled at the window, lowest code wins. -/
  | ownershipClaim (claims : List (BitVec 3))
  /-- OWNER_NEXT_WRITE (R401). The owner proposes or cancels a successor. -/
  | ownerNextWrite (q : MgmtReq) (next : BitVec 3)
  /-- HANDOVER_ACK (R401). The proposed successor acknowledges and becomes owner. -/
  | handoverAck (sender : BitVec 3)
  /-- HANDOVER_TIMEOUT (R401). A pending handover lapses after 1 s of TIME. -/
  | handoverTimeout
  /-- OWNER_CHANNEL_LOSS (R401). After 2 s without the owner's channel, ownership is cleared. -/
  | ownerChannelLoss
  /-- CREATE_PARTITION (R403). The monitor assigns and scrubs quadrants, keys frames and binds a VF. -/
  | createPartition (q : MgmtReq) (part : Nat) (setup : PartSetup)
  /-- DESTROY_PARTITION (R403). Kills the partition's groups and frees its resources and key. -/
  | destroyPartition (q : MgmtReq) (part : Nat)
  /-- SET_ISSUE_WEIGHT (R404). Sets a context's issue weight for the next selection. -/
  | setIssueWeight (q : MgmtReq) (part ctx : Nat) (weight : BitVec 8)
  /-- SET_TOKENS (R404). Sets a context's L2 token rate and depth. -/
  | setTokens (q : MgmtReq) (part ctx : Nat) (tokens : BitVec 64)
  /-- SET_LEND (R404). Sets a partition's lending flag. -/
  | setLend (q : MgmtReq) (part : Nat) (lend : Bool)
  /-- SET_QUOTA (R387). Writes a context's block quota. -/
  | setQuota (q : MgmtReq) (part ctx : Nat) (quota : BitVec 64)
  /-- SET_WDOG (R404). Sets a context's watchdog interval. -/
  | setWdog (q : MgmtReq) (part ctx : Nat) (wdog : BitVec 64)
  /-- SET_DEFAULT_MODE (R404). Sets a context's default MODE for later launches. -/
  | setDefaultMode (q : MgmtReq) (part ctx : Nat) (mode : BitVec 64)
  /-- SET_OPERATING_CAP (R411). Sets a cluster's operating-point cap. -/
  | setOperatingCap (q : MgmtReq) (cluster : Nat) (cap : BitVec 3)
  /-- SET_HOTNESS_THRESHOLDS (R384). Sets HOTW and HOTR. -/
  | setHotnessThresholds (q : MgmtReq) (hotw hotr : BitVec 16)
  /-- SET_REPLICA_POLICY (R379). Sets a replica directory entry's POLICY. -/
  | setReplicaPolicy (q : MgmtReq) (part ctx vpn : Nat) (remote : Bool)
  /-- CONFIGURE_COLLECTIVE (R407). Configures a collective id's members and switch tree. -/
  | configureCollective (q : MgmtReq) (coll : BitVec 16) (members : List (Nat × List Nat))
  /-- FIRMWARE_UPDATE (R409). Stages a firmware image to take effect at the next reset. -/
  | firmwareUpdate (q : MgmtReq) (image : BootImage)
  /-- RESET_BOOT (R409). The ROM and monitor verify and measure images before they run. -/
  | resetBoot (images : List BootImage)
  /-- DEVICE_NUMBER_ASSIGN (R405). The fabric manager assigns the device's fabric number when a link trains. -/
  | deviceNumberAssign (port : Nat) (number : BitVec 10)
  /-- IDE_INTEGRITY_FAILURE (R399). An IDE failure or breach moves the VF to ERROR and stops its partition. -/
  | ideIntegrityFailure (vf : Nat)
  /-- GET_VERSION (R410). SPDM request returning supported versions. -/
  | getVersion
  /-- GET_CAPABILITIES (R410). SPDM request returning capabilities. -/
  | getCapabilities
  /-- NEGOTIATE_ALGORITHMS (R410). SPDM request settling ML-DSA-65 and SHA3-384. -/
  | negotiateAlgorithms
  /-- GET_DIGESTS (R410). SPDM request returning certificate digests. -/
  | getDigests
  /-- GET_CERTIFICATE (R410). SPDM request returning a certificate chain. -/
  | getCertificate (slot offset len : Nat)
  /-- CHALLENGE (R410). SPDM challenge signed by the device. -/
  | challenge (slot : Nat) (nonce : BitVec 256)
  /-- GET_MEASUREMENTS (R410). SPDM request returning measurement indices 1 to 7. -/
  | getMeasurements (index : Nat) (vf : Nat) (nonce : BitVec 256)
  /-- KEY_EXCHANGE (R410). SPDM key exchange establishing a session. -/
  | keyExchange (session : Nat) (exchange : List (BitVec 8))
  /-- CREATE_CONTEXT (R377). Management, through the monitor, creates a context or sets its context-table entry (PTROOT, CATBASE, HTBASE, TVEC, FREC, SPILL, SAVE). -/
  | createContext (q : MgmtReq) (part ctx : Nat) (setup : CtxSetup)
  /-- DESTROY_CONTEXT (R402). Management, through the monitor, destroys a context of a partition. -/
  | destroyContext (q : MgmtReq) (part ctx : Nat)
  /-- GRAPH_INSTALL (R375). The host driver installs a graph descriptor, assigning GIDX, queue homes and stores, or refuses it whole. -/
  | graphInstall (part ctx : Nat) (va : BitVec 64) (gidx : Nat) (places : List (Nat × Nat × Nat))
  /-- GRAPH_REMOVE (R375). The host driver removes a graph once every queue is empty and no block is resident. -/
  | graphRemove (gidx : Nat)
  /-- HOST_TLB_SHOOTDOWN (R323). The host interface announces a TLB shootdown requested by the host on the summary network. -/
  | hostTlbShootdown (part ctx : Nat) (start len : BitVec 64)
  /-- STORE_PERFORMED (R250). A store or other write that left the load-store unit is performed at its home slice or bank. -/
  | storePerformed (uid req : Nat) (elem : Nat)
  /-- MIGRATION_PROPOSAL_ACCEPTED (R191). The coherence service accepts a migration or duplication proposal and settles the page as a write fault at the proposed device. -/
  | migrationProposalAccepted (part ctx vpn dev : Nat) (duplicate : Bool) (frame : Nat)
  /-- TDISP_INTERFACE_REQUEST (R399). A TDISP request moves a VF's device interface between CONFIG_UNLOCKED, CONFIG_LOCKED and RUN. -/
  | tdispInterfaceRequest (vf : Nat) (state : TdispState)
  /-- FRAME_HAND_OVER (R198). A frame passes to a partition; the monitor grows its metadata and writes the frame as zero tiles at version 0 under the new keys. -/
  | frameHandOver (part frame : Nat)
  deriving DecidableEq, Repr

end Sys2Proof
end

