-- ==== Sys2Proof/Machine/Elem.lean ====
section
/-! DEFINITION. The element types of Table 3-4 (R42): codes, widths, elements per lane (R115), and their kinds. -/

namespace Sys2Proof.Machine

open Sys2Proof

/-- The type an XF code names (Table 3-4); none for codes 19-31, which raise ILLEGAL_OPCODE. -/
def elemOf (c : Nat) : Option ElemType :=
  [ElemType.i32, .n32, .i16, .n16, .i8, .n8, .i64, .n64, .f32, .f16, .bf16, .f64, .df8, .e4m3, .e5m2, .e3m2, .e2m3, .e2m1, .mxi8][c]?

/-- w(t): the width of an element, containers of the 6-bit types counting 8 (R42, R115). -/
def elemWidth : ElemType → Nat
  | .i64 | .n64 | .f64 => 64
  | .i32 | .n32 | .f32 => 32
  | .i16 | .n16 | .f16 | .bf16 => 16
  | .e2m1 => 4
  | _ => 8

/-- e(t): elements per lane, 1 for a 64-bit type (R115). -/
def elemCount (t : ElemType) : Nat := if elemWidth t = 64 then 1 else 32 / elemWidth t

/-- The types whose vector operands are register pairs (R40, R115). -/
def elemPair (t : ElemType) : Bool := elemWidth t == 64

def elemSigned : ElemType → Bool
  | .i32 | .i16 | .i8 | .i64 => true
  | _ => false

def elemUnsigned : ElemType → Bool
  | .n32 | .n16 | .n8 | .n64 => true
  | _ => false

def elemInt (t : ElemType) : Bool := elemSigned t || elemUnsigned t

/-- The four formats of Table 5-1. -/
def elemIeee : ElemType → Bool
  | .f32 | .f16 | .bf16 | .f64 => true
  | _ => false

/-- The element formats of Table 5-5. -/
def elemMx : ElemType → Bool
  | .e4m3 | .e5m2 | .e3m2 | .e2m3 | .e2m1 | .mxi8 => true
  | _ => false

end Sys2Proof.Machine
end

