-- ==== Sys2Proof/Machine/Shape.lean ====
section
/-! DEFINITION. The field use of every instruction word (Tables 3-11 to 3-16, 7-1, 12-1, 14-4, 17-1, 18-2, 19-4) as one table, and the checks on fields that raise ILLEGAL_OPCODE and ILLEGAL_PAIR when a word executes (R39 to R54, R60). -/

namespace Sys2Proof.Machine

open Sys2Proof

/-- Operand classes of R40: `vec` is as wide as the instruction's type, `plain` always one register, `cvtSrc` as wide as the source type of `vcvt`, `record` the registers of a record (R342). -/
inductive RegClass where
  | vec | plain | cvtSrc | record | mask | ctl | acc
  deriving DecidableEq, Repr

inductive Role where
  | src | dst | both
  deriving DecidableEq, Repr

/-- What a register field holds: nothing (so zero, R40), an immediate, raw offset bits (R66), or a register. -/
inductive Use where
  | unused | imm | raw
  | reg (c : RegClass) (r : Role)
  deriving DecidableEq, Repr

/-- What XF may hold: one of the listed codes, or a scope with one of the listed ordering kinds; `scopes` are the scopes permitted (R44, R9). -/
inductive XfUse where
  | codes (l : List Nat)
  | mem (kinds scopes : List Nat)
  deriving DecidableEq, Repr

/-- The literal word expected (Table 3-6). -/
inductive LitKind where
  | none | imm32 | wide | set
  deriving DecidableEq, Repr

/-- A literal word, read (R48). -/
inductive Literal where
  | none
  | imm32 (v : BitVec 32)
  | wide (v : BitVec 60)
  | set (l : SetLit)
  deriving DecidableEq, Repr

/-- Bits [14:5] of the word: broadcast and negation of vector words (R45, R46), the scaled index of memory words (R238), or `kget`'s required broadcast (R155). -/
inductive MidUse where
  | vector | scaled | kget
  deriving DecidableEq, Repr

/-- Which of NEGA and NEGB the entry accepts. -/
inductive NegUse where
  | no | a | ab
  deriving DecidableEq, Repr

structure Shape where
  op   : Nat
  lit  : LitKind := .none
  d    : Use := .unused
  a    : Use := .unused
  b    : Use := .unused
  pred : Bool := false
  rnd  : List Nat := [0]
  xf   : XfUse := .codes [0]
  neg  : NegUse := .no
  lat  : Nat := 0
  sup  : Bool := false
  mid  : MidUse := .vector
  deriving DecidableEq, Repr

/-- VADD (R120). -/
def shapeVadd : Shape := { op := 0x001, d := (.reg .vec .dst), a := (.reg .vec .src), b := (.reg .vec .src), pred := true, xf := .codes [0,1,2,3,4,5,6,7], neg := .ab, lat := 4 }
/-- VADD_IMM8 (R120). -/
def shapeVaddImm8 : Shape := { op := 0x041, d := (.reg .vec .dst), a := (.reg .vec .src), b := .imm, pred := true, xf := .codes [0,1,2,3,4,5,6,7], neg := .a, lat := 4 }
/-- VADD_IMM32 (R120). -/
def shapeVaddImm32 : Shape := { op := 0x081, lit := .imm32, d := (.reg .vec .dst), a := (.reg .vec .src), pred := true, xf := .codes [0,1,2,3,4,5,6,7], neg := .a, lat := 4 }
/-- VSUB (R120). -/
def shapeVsub : Shape := { op := 0x002, d := (.reg .vec .dst), a := (.reg .vec .src), b := (.reg .vec .src), pred := true, xf := .codes [0,1,2,3,4,5,6,7], neg := .ab, lat := 4 }
/-- VSUB_IMM8 (R120). -/
def shapeVsubImm8 : Shape := { op := 0x042, d := (.reg .vec .dst), a := (.reg .vec .src), b := .imm, pred := true, xf := .codes [0,1,2,3,4,5,6,7], neg := .a, lat := 4 }
/-- VSUB_IMM32 (R120). -/
def shapeVsubImm32 : Shape := { op := 0x082, lit := .imm32, d := (.reg .vec .dst), a := (.reg .vec .src), pred := true, xf := .codes [0,1,2,3,4,5,6,7], neg := .a, lat := 4 }
/-- VADDSAT (R120). -/
def shapeVaddsat : Shape := { op := 0x003, d := (.reg .vec .dst), a := (.reg .vec .src), b := (.reg .vec .src), pred := true, xf := .codes [0,1,2,3,4,5,6,7], neg := .ab, lat := 4 }
/-- VADDSAT_IMM8 (R120). -/
def shapeVaddsatImm8 : Shape := { op := 0x043, d := (.reg .vec .dst), a := (.reg .vec .src), b := .imm, pred := true, xf := .codes [0,1,2,3,4,5,6,7], neg := .a, lat := 4 }
/-- VADDSAT_IMM32 (R120). -/
def shapeVaddsatImm32 : Shape := { op := 0x083, lit := .imm32, d := (.reg .vec .dst), a := (.reg .vec .src), pred := true, xf := .codes [0,1,2,3,4,5,6,7], neg := .a, lat := 4 }
/-- VSUBSAT (R120). -/
def shapeVsubsat : Shape := { op := 0x004, d := (.reg .vec .dst), a := (.reg .vec .src), b := (.reg .vec .src), pred := true, xf := .codes [0,1,2,3,4,5,6,7], neg := .ab, lat := 4 }
/-- VSUBSAT_IMM8 (R120). -/
def shapeVsubsatImm8 : Shape := { op := 0x044, d := (.reg .vec .dst), a := (.reg .vec .src), b := .imm, pred := true, xf := .codes [0,1,2,3,4,5,6,7], neg := .a, lat := 4 }
/-- VSUBSAT_IMM32 (R120). -/
def shapeVsubsatImm32 : Shape := { op := 0x084, lit := .imm32, d := (.reg .vec .dst), a := (.reg .vec .src), pred := true, xf := .codes [0,1,2,3,4,5,6,7], neg := .a, lat := 4 }
/-- VMUL (R120). -/
def shapeVmul : Shape := { op := 0x005, d := (.reg .vec .dst), a := (.reg .vec .src), b := (.reg .vec .src), pred := true, xf := .codes [0,1,2,3,4,5,6,7], neg := .ab, lat := 4 }
/-- VMUL_IMM8 (R120). -/
def shapeVmulImm8 : Shape := { op := 0x045, d := (.reg .vec .dst), a := (.reg .vec .src), b := .imm, pred := true, xf := .codes [0,1,2,3,4,5,6,7], neg := .a, lat := 4 }
/-- VMUL_IMM32 (R120). -/
def shapeVmulImm32 : Shape := { op := 0x085, lit := .imm32, d := (.reg .vec .dst), a := (.reg .vec .src), pred := true, xf := .codes [0,1,2,3,4,5,6,7], neg := .a, lat := 4 }
/-- VMULH (R120). -/
def shapeVmulh : Shape := { op := 0x006, d := (.reg .vec .dst), a := (.reg .vec .src), b := (.reg .vec .src), pred := true, xf := .codes [0,1,2,3,4,5,6,7], neg := .ab, lat := 4 }
/-- VMULH_IMM8 (R120). -/
def shapeVmulhImm8 : Shape := { op := 0x046, d := (.reg .vec .dst), a := (.reg .vec .src), b := .imm, pred := true, xf := .codes [0,1,2,3,4,5,6,7], neg := .a, lat := 4 }
/-- VMULH_IMM32 (R120). -/
def shapeVmulhImm32 : Shape := { op := 0x086, lit := .imm32, d := (.reg .vec .dst), a := (.reg .vec .src), pred := true, xf := .codes [0,1,2,3,4,5,6,7], neg := .a, lat := 4 }
/-- VMAD (R120). -/
def shapeVmad : Shape := { op := 0x007, d := (.reg .vec .both), a := (.reg .vec .src), b := (.reg .vec .src), pred := true, xf := .codes [0,1,2,3,4,5,6,7], neg := .ab, lat := 4 }
/-- VMAD_IMM8 (R120). -/
def shapeVmadImm8 : Shape := { op := 0x047, d := (.reg .vec .both), a := (.reg .vec .src), b := .imm, pred := true, xf := .codes [0,1,2,3,4,5,6,7], neg := .a, lat := 4 }
/-- VMAD_IMM32 (R120). -/
def shapeVmadImm32 : Shape := { op := 0x087, lit := .imm32, d := (.reg .vec .both), a := (.reg .vec .src), pred := true, xf := .codes [0,1,2,3,4,5,6,7], neg := .a, lat := 4 }
/-- VABSDIFF (R120). -/
def shapeVabsdiff : Shape := { op := 0x008, d := (.reg .vec .dst), a := (.reg .vec .src), b := (.reg .vec .src), pred := true, xf := .codes [0,1,2,3,4,5,6,7], neg := .ab, lat := 4 }
/-- VMIN (R120). -/
def shapeVmin : Shape := { op := 0x009, d := (.reg .vec .dst), a := (.reg .vec .src), b := (.reg .vec .src), pred := true, xf := .codes [0,1,2,3,4,5,6,7], neg := .ab, lat := 4 }
/-- VMIN_IMM8 (R120). -/
def shapeVminImm8 : Shape := { op := 0x049, d := (.reg .vec .dst), a := (.reg .vec .src), b := .imm, pred := true, xf := .codes [0,1,2,3,4,5,6,7], neg := .a, lat := 4 }
/-- VMIN_IMM32 (R120). -/
def shapeVminImm32 : Shape := { op := 0x089, lit := .imm32, d := (.reg .vec .dst), a := (.reg .vec .src), pred := true, xf := .codes [0,1,2,3,4,5,6,7], neg := .a, lat := 4 }
/-- VMAX (R120). -/
def shapeVmax : Shape := { op := 0x00A, d := (.reg .vec .dst), a := (.reg .vec .src), b := (.reg .vec .src), pred := true, xf := .codes [0,1,2,3,4,5,6,7], neg := .ab, lat := 4 }
/-- VMAX_IMM8 (R120). -/
def shapeVmaxImm8 : Shape := { op := 0x04A, d := (.reg .vec .dst), a := (.reg .vec .src), b := .imm, pred := true, xf := .codes [0,1,2,3,4,5,6,7], neg := .a, lat := 4 }
/-- VMAX_IMM32 (R120). -/
def shapeVmaxImm32 : Shape := { op := 0x08A, lit := .imm32, d := (.reg .vec .dst), a := (.reg .vec .src), pred := true, xf := .codes [0,1,2,3,4,5,6,7], neg := .a, lat := 4 }
/-- VABS (R120). -/
def shapeVabs : Shape := { op := 0x00B, d := (.reg .vec .dst), a := (.reg .vec .src), pred := true, xf := .codes [0,2,4,6], neg := .a, lat := 4 }
/-- VAND (R121). -/
def shapeVand : Shape := { op := 0x00C, d := (.reg .vec .dst), a := (.reg .vec .src), b := (.reg .vec .src), pred := true, xf := .codes [1,7], lat := 4 }
/-- VAND_IMM8 (R121). -/
def shapeVandImm8 : Shape := { op := 0x04C, d := (.reg .vec .dst), a := (.reg .vec .src), b := .imm, pred := true, xf := .codes [1,7], lat := 4 }
/-- VAND_IMM32 (R121). -/
def shapeVandImm32 : Shape := { op := 0x08C, lit := .imm32, d := (.reg .vec .dst), a := (.reg .vec .src), pred := true, xf := .codes [1,7], lat := 4 }
/-- VOR (R121). -/
def shapeVor : Shape := { op := 0x00D, d := (.reg .vec .dst), a := (.reg .vec .src), b := (.reg .vec .src), pred := true, xf := .codes [1,7], lat := 4 }
/-- VOR_IMM8 (R121). -/
def shapeVorImm8 : Shape := { op := 0x04D, d := (.reg .vec .dst), a := (.reg .vec .src), b := .imm, pred := true, xf := .codes [1,7], lat := 4 }
/-- VOR_IMM32 (R121). -/
def shapeVorImm32 : Shape := { op := 0x08D, lit := .imm32, d := (.reg .vec .dst), a := (.reg .vec .src), pred := true, xf := .codes [1,7], lat := 4 }
/-- VXOR (R121). -/
def shapeVxor : Shape := { op := 0x00E, d := (.reg .vec .dst), a := (.reg .vec .src), b := (.reg .vec .src), pred := true, xf := .codes [1,7], lat := 4 }
/-- VXOR_IMM8 (R121). -/
def shapeVxorImm8 : Shape := { op := 0x04E, d := (.reg .vec .dst), a := (.reg .vec .src), b := .imm, pred := true, xf := .codes [1,7], lat := 4 }
/-- VXOR_IMM32 (R121). -/
def shapeVxorImm32 : Shape := { op := 0x08E, lit := .imm32, d := (.reg .vec .dst), a := (.reg .vec .src), pred := true, xf := .codes [1,7], lat := 4 }
/-- VANDN (R121). -/
def shapeVandn : Shape := { op := 0x00F, d := (.reg .vec .dst), a := (.reg .vec .src), b := (.reg .vec .src), pred := true, xf := .codes [1,7], lat := 4 }
/-- VANDN_IMM8 (R121). -/
def shapeVandnImm8 : Shape := { op := 0x04F, d := (.reg .vec .dst), a := (.reg .vec .src), b := .imm, pred := true, xf := .codes [1,7], lat := 4 }
/-- VANDN_IMM32 (R121). -/
def shapeVandnImm32 : Shape := { op := 0x08F, lit := .imm32, d := (.reg .vec .dst), a := (.reg .vec .src), pred := true, xf := .codes [1,7], lat := 4 }
/-- VSHL (R121). -/
def shapeVshl : Shape := { op := 0x010, d := (.reg .vec .dst), a := (.reg .vec .src), b := (.reg .vec .src), pred := true, xf := .codes [0,1,2,3,4,5,6,7], lat := 4 }
/-- VSHL_IMM8 (R121). -/
def shapeVshlImm8 : Shape := { op := 0x050, d := (.reg .vec .dst), a := (.reg .vec .src), b := .imm, pred := true, xf := .codes [0,1,2,3,4,5,6,7], lat := 4 }
/-- VSHR (R121). -/
def shapeVshr : Shape := { op := 0x011, d := (.reg .vec .dst), a := (.reg .vec .src), b := (.reg .vec .src), pred := true, xf := .codes [0,1,2,3,4,5,6,7], lat := 4 }
/-- VSHR_IMM8 (R121). -/
def shapeVshrImm8 : Shape := { op := 0x051, d := (.reg .vec .dst), a := (.reg .vec .src), b := .imm, pred := true, xf := .codes [0,1,2,3,4,5,6,7], lat := 4 }
/-- VSRA (R121). -/
def shapeVsra : Shape := { op := 0x012, d := (.reg .vec .dst), a := (.reg .vec .src), b := (.reg .vec .src), pred := true, xf := .codes [0,1,2,3,4,5,6,7], lat := 4 }
/-- VSRA_IMM8 (R121). -/
def shapeVsraImm8 : Shape := { op := 0x052, d := (.reg .vec .dst), a := (.reg .vec .src), b := .imm, pred := true, xf := .codes [0,1,2,3,4,5,6,7], lat := 4 }
/-- VROT (R121). -/
def shapeVrot : Shape := { op := 0x013, d := (.reg .vec .dst), a := (.reg .vec .src), b := (.reg .vec .src), pred := true, xf := .codes [0,1,2,3,4,5,6,7], lat := 4 }
/-- VROT_IMM8 (R121). -/
def shapeVrotImm8 : Shape := { op := 0x053, d := (.reg .vec .dst), a := (.reg .vec .src), b := .imm, pred := true, xf := .codes [0,1,2,3,4,5,6,7], lat := 4 }
/-- VBEXT (R122). -/
def shapeVbext : Shape := { op := 0x014, d := (.reg .vec .dst), a := (.reg .vec .src), b := (.reg .plain .src), pred := true, xf := .codes [0,1,6,7], lat := 4 }
/-- VBEXT_IMM32 (R122). -/
def shapeVbextImm32 : Shape := { op := 0x094, lit := .imm32, d := (.reg .vec .dst), a := (.reg .vec .src), pred := true, xf := .codes [0,1,6,7], lat := 4 }
/-- VBINS (R122). -/
def shapeVbins : Shape := { op := 0x015, d := (.reg .vec .both), a := (.reg .vec .src), b := (.reg .plain .src), pred := true, xf := .codes [0,1,6,7], lat := 4 }
/-- VBINS_IMM32 (R122). -/
def shapeVbinsImm32 : Shape := { op := 0x095, lit := .imm32, d := (.reg .vec .both), a := (.reg .vec .src), pred := true, xf := .codes [0,1,6,7], lat := 4 }
/-- VPOPC (R123). -/
def shapeVpopc : Shape := { op := 0x016, d := (.reg .vec .dst), a := (.reg .vec .src), pred := true, xf := .codes [5,3,1,7], lat := 4 }
/-- VCLZ (R123). -/
def shapeVclz : Shape := { op := 0x017, d := (.reg .vec .dst), a := (.reg .vec .src), pred := true, xf := .codes [5,3,1,7], lat := 4 }
/-- VCTZ (R123). -/
def shapeVctz : Shape := { op := 0x018, d := (.reg .vec .dst), a := (.reg .vec .src), pred := true, xf := .codes [5,3,1,7], lat := 4 }
/-- VBREV (R123). -/
def shapeVbrev : Shape := { op := 0x019, d := (.reg .vec .dst), a := (.reg .vec .src), pred := true, xf := .codes [5,3,1,7], lat := 4 }
/-- VDOT4 (R124). -/
def shapeVdot4 : Shape := { op := 0x01A, d := (.reg .plain .both), a := (.reg .vec .src), b := (.reg .vec .src), pred := true, xf := .codes [4,5], neg := .ab, lat := 6 }
/-- VDOT2 (R124). -/
def shapeVdot2 : Shape := { op := 0x01B, d := (.reg .plain .both), a := (.reg .vec .src), b := (.reg .vec .src), pred := true, xf := .codes [2,3], neg := .ab, lat := 6 }
/-- VCMP (R125). -/
def shapeVcmp : Shape := { op := 0x01C, d := (.reg .mask .dst), a := (.reg .vec .src), b := (.reg .vec .src), pred := true, rnd := [0,1,2,3,4,5], xf := .codes [0,1,6,7], neg := .ab, lat := 4 }
/-- VCMP_IMM8 (R125). -/
def shapeVcmpImm8 : Shape := { op := 0x05C, d := (.reg .mask .dst), a := (.reg .vec .src), b := .imm, pred := true, rnd := [0,1,2,3,4,5], xf := .codes [0,1,6,7], neg := .a, lat := 4 }
/-- VCMP_IMM32 (R125). -/
def shapeVcmpImm32 : Shape := { op := 0x09C, lit := .imm32, d := (.reg .mask .dst), a := (.reg .vec .src), pred := true, rnd := [0,1,2,3,4,5], xf := .codes [0,1,6,7], neg := .a, lat := 4 }
/-- VSEL (R126). -/
def shapeVsel : Shape := { op := 0x01D, d := (.reg .vec .dst), a := (.reg .vec .src), b := (.reg .vec .src), pred := true, rnd := [1,2,3,4,5,6,7], xf := .codes [0,1,6,7,8,11], lat := 4 }
/-- VSEL_IMM8 (R126). -/
def shapeVselImm8 : Shape := { op := 0x05D, d := (.reg .vec .dst), a := (.reg .vec .src), b := .imm, pred := true, rnd := [1,2,3,4,5,6,7], xf := .codes [0,1,6,7], lat := 4 }
/-- VSEL_IMM32 (R126). -/
def shapeVselImm32 : Shape := { op := 0x09D, lit := .imm32, d := (.reg .vec .dst), a := (.reg .vec .src), pred := true, rnd := [1,2,3,4,5,6,7], xf := .codes [0,1,6,7,8,11], lat := 4 }
/-- VWID (R143). -/
def shapeVwid : Shape := { op := 0x01E, d := (.reg .vec .dst), pred := true, rnd := [0,1,2,3,4,5,6,7], xf := .codes [1,7], lat := 4 }
/-- VSHRINK (R144). -/
def shapeVshrink : Shape := { op := 0x05F, b := .imm }
/-- VFADD (R128). -/
def shapeVfadd : Shape := { op := 0x101, d := (.reg .vec .dst), a := (.reg .vec .src), b := (.reg .vec .src), pred := true, rnd := [0,1,2,3,4,5,6,7], xf := .codes [8,9,10,11], neg := .ab, lat := 6 }
/-- VFADD_IMM32 (R128). -/
def shapeVfaddImm32 : Shape := { op := 0x181, lit := .imm32, d := (.reg .vec .dst), a := (.reg .vec .src), pred := true, rnd := [0,1,2,3,4,5,6,7], xf := .codes [8,9,10,11], neg := .a, lat := 6 }
/-- VFSUB (R128). -/
def shapeVfsub : Shape := { op := 0x102, d := (.reg .vec .dst), a := (.reg .vec .src), b := (.reg .vec .src), pred := true, rnd := [0,1,2,3,4,5,6,7], xf := .codes [8,9,10,11], neg := .ab, lat := 6 }
/-- VFSUB_IMM32 (R128). -/
def shapeVfsubImm32 : Shape := { op := 0x182, lit := .imm32, d := (.reg .vec .dst), a := (.reg .vec .src), pred := true, rnd := [0,1,2,3,4,5,6,7], xf := .codes [8,9,10,11], neg := .a, lat := 6 }
/-- VFMUL (R128). -/
def shapeVfmul : Shape := { op := 0x103, d := (.reg .vec .dst), a := (.reg .vec .src), b := (.reg .vec .src), pred := true, rnd := [0,1,2,3,4,5,6,7], xf := .codes [8,9,10,11], neg := .ab, lat := 6 }
/-- VFMUL_IMM32 (R128). -/
def shapeVfmulImm32 : Shape := { op := 0x183, lit := .imm32, d := (.reg .vec .dst), a := (.reg .vec .src), pred := true, rnd := [0,1,2,3,4,5,6,7], xf := .codes [8,9,10,11], neg := .a, lat := 6 }
/-- VFMA (R128). -/
def shapeVfma : Shape := { op := 0x104, d := (.reg .vec .both), a := (.reg .vec .src), b := (.reg .vec .src), pred := true, rnd := [0,1,2,3,4,5,6,7], xf := .codes [8,9,10,11], neg := .ab, lat := 6 }
/-- VFMA_IMM32 (R128). -/
def shapeVfmaImm32 : Shape := { op := 0x184, lit := .imm32, d := (.reg .vec .both), a := (.reg .vec .src), pred := true, rnd := [0,1,2,3,4,5,6,7], xf := .codes [8,9,10,11], neg := .a, lat := 6 }
/-- VFMIN (R128). -/
def shapeVfmin : Shape := { op := 0x105, d := (.reg .vec .dst), a := (.reg .vec .src), b := (.reg .vec .src), pred := true, xf := .codes [8,9,10,11], neg := .ab, lat := 6 }
/-- VFMIN_IMM32 (R128). -/
def shapeVfminImm32 : Shape := { op := 0x185, lit := .imm32, d := (.reg .vec .dst), a := (.reg .vec .src), pred := true, xf := .codes [8,9,10,11], neg := .a, lat := 6 }
/-- VFMAX (R128). -/
def shapeVfmax : Shape := { op := 0x106, d := (.reg .vec .dst), a := (.reg .vec .src), b := (.reg .vec .src), pred := true, xf := .codes [8,9,10,11], neg := .ab, lat := 6 }
/-- VFMAX_IMM32 (R128). -/
def shapeVfmaxImm32 : Shape := { op := 0x186, lit := .imm32, d := (.reg .vec .dst), a := (.reg .vec .src), pred := true, xf := .codes [8,9,10,11], neg := .a, lat := 6 }
/-- VFABS (R129). -/
def shapeVfabs : Shape := { op := 0x107, d := (.reg .vec .dst), a := (.reg .vec .src), pred := true, xf := .codes [8,9,10,11], lat := 4 }
/-- VFCMP (R130). -/
def shapeVfcmp : Shape := { op := 0x108, d := (.reg .mask .dst), a := (.reg .vec .src), b := (.reg .vec .src), pred := true, rnd := [0,1,2,3,4,5,6,7], xf := .codes [8,11], neg := .ab, lat := 4 }
/-- VFCMP_IMM32 (R130). -/
def shapeVfcmpImm32 : Shape := { op := 0x188, lit := .imm32, d := (.reg .mask .dst), a := (.reg .vec .src), pred := true, rnd := [0,1,2,3,4,5,6,7], xf := .codes [8,11], neg := .a, lat := 4 }
/-- VFDIV (R128). -/
def shapeVfdiv : Shape := { op := 0x109, d := (.reg .vec .dst), a := (.reg .vec .src), b := (.reg .vec .src), pred := true, rnd := [0,1,2,3,4,5,6,7], xf := .codes [8,9,10,11], neg := .ab, lat := 32 }
/-- VFSQRT (R128). -/
def shapeVfsqrt : Shape := { op := 0x10A, d := (.reg .vec .dst), a := (.reg .vec .src), pred := true, rnd := [0,1,2,3,4,5,6,7], xf := .codes [8,9,10,11], neg := .a, lat := 24 }
/-- VFRCP (R131). -/
def shapeVfrcp : Shape := { op := 0x10B, d := (.reg .vec .dst), a := (.reg .vec .src), pred := true, rnd := [0,1,2,3,4,5,6,7], xf := .codes [8,9,10], neg := .a, lat := 16 }
/-- VFRSQ (R131). -/
def shapeVfrsq : Shape := { op := 0x10C, d := (.reg .vec .dst), a := (.reg .vec .src), pred := true, rnd := [0,1,2,3,4,5,6,7], xf := .codes [8,9,10], neg := .a, lat := 16 }
/-- VFEXP2 (R131). -/
def shapeVfexp2 : Shape := { op := 0x10D, d := (.reg .vec .dst), a := (.reg .vec .src), pred := true, rnd := [0,1,2,3,4,5,6,7], xf := .codes [8,9,10], neg := .a, lat := 16 }
/-- VFLOG2 (R131). -/
def shapeVflog2 : Shape := { op := 0x10E, d := (.reg .vec .dst), a := (.reg .vec .src), pred := true, rnd := [0,1,2,3,4,5,6,7], xf := .codes [8,9,10], neg := .a, lat := 16 }
/-- VFSIN (R131). -/
def shapeVfsin : Shape := { op := 0x10F, d := (.reg .vec .dst), a := (.reg .vec .src), pred := true, rnd := [0,1,2,3,4,5,6,7], xf := .codes [8,9,10], neg := .a, lat := 16 }
/-- VFCOS (R131). -/
def shapeVfcos : Shape := { op := 0x110, d := (.reg .vec .dst), a := (.reg .vec .src), pred := true, rnd := [0,1,2,3,4,5,6,7], xf := .codes [8,9,10], neg := .a, lat := 16 }
/-- VFTANH (R131). -/
def shapeVftanh : Shape := { op := 0x111, d := (.reg .vec .dst), a := (.reg .vec .src), pred := true, rnd := [0,1,2,3,4,5,6,7], xf := .codes [8,9,10], neg := .a, lat := 16 }
/-- VFCLASS (R132). -/
def shapeVfclass : Shape := { op := 0x112, d := (.reg .vec .dst), a := (.reg .vec .src), pred := true, xf := .codes [8,9,10,11], lat := 4 }
/-- VCVT (R133). -/
def shapeVcvt : Shape := { op := 0x153, d := (.reg .vec .dst), a := (.reg .cvtSrc .src), b := .imm, pred := true, rnd := [0,1,2,3,4,5,6,7], xf := .codes [0,1,2,3,4,5,6,7,8,9,10,11,12,13,14,15,16,17,18], neg := .a, lat := 6 }
/-- VPACK (R134). -/
def shapeVpack : Shape := { op := 0x114, d := (.reg .plain .dst), a := (.reg .plain .src), b := (.reg .plain .src), pred := true, rnd := [0,1,2,3,4,5,6,7], xf := .codes [2,3,4,5,9,10], lat := 6 }
/-- VUNPACK (R135). -/
def shapeVunpack : Shape := { op := 0x155, d := (.reg .plain .dst), a := (.reg .plain .src), b := .imm, pred := true, xf := .codes [2,3,4,5,9,10], lat := 6 }
/-- VMOV (R136). -/
def shapeVmov : Shape := { op := 0x116, d := (.reg .vec .dst), b := (.reg .vec .src), pred := true, xf := .codes [0,1,2,3,4,5,6,7,8,9,10,11,12,13,14,15,16,17,18], lat := 4 }
/-- VMOV_IMM8 (R136). -/
def shapeVmovImm8 : Shape := { op := 0x156, d := (.reg .vec .dst), b := .imm, pred := true, xf := .codes [0,1,2,3,4,5,6,7], lat := 4 }
/-- VMOV_IMM32 (R136). -/
def shapeVmovImm32 : Shape := { op := 0x196, lit := .imm32, d := (.reg .vec .dst), pred := true, xf := .codes [0,1,2,3,4,5,6,7,8,9,10,11,12,13,14,15,16,17,18], lat := 4 }
/-- VMOVK (R137). -/
def shapeVmovk : Shape := { op := 0x117, d := (.reg .vec .dst), a := (.reg .ctl .src), pred := true, xf := .codes [1,7], lat := 4 }
/-- VPERM (R138). -/
def shapeVperm : Shape := { op := 0x118, d := (.reg .vec .dst), a := (.reg .vec .src), b := (.reg .plain .src), pred := true, xf := .codes [1,7], lat := 8 }
/-- VPERM_IMM8 (R138). -/
def shapeVpermImm8 : Shape := { op := 0x158, d := (.reg .vec .dst), a := (.reg .vec .src), b := .imm, pred := true, xf := .codes [1,7], lat := 8 }
/-- VSHFL (R138). -/
def shapeVshfl : Shape := { op := 0x119, d := (.reg .vec .dst), a := (.reg .vec .src), b := (.reg .plain .src), pred := true, xf := .codes [1], lat := 8 }
/-- VSHFL_IMM8 (R138). -/
def shapeVshflImm8 : Shape := { op := 0x159, d := (.reg .vec .dst), a := (.reg .vec .src), b := .imm, pred := true, xf := .codes [1], lat := 8 }
/-- VLROT (R138). -/
def shapeVlrot : Shape := { op := 0x11A, d := (.reg .vec .dst), a := (.reg .vec .src), b := (.reg .plain .src), pred := true, xf := .codes [1,7], lat := 8 }
/-- VLROT_IMM8 (R138). -/
def shapeVlrotImm8 : Shape := { op := 0x15A, d := (.reg .vec .dst), a := (.reg .vec .src), b := .imm, pred := true, xf := .codes [1,7], lat := 8 }
/-- VSCAN (R139). -/
def shapeVscan : Shape := { op := 0x15B, d := (.reg .vec .dst), a := (.reg .vec .src), b := .imm, pred := true, rnd := [0,1,2,3,4,5,6,7], xf := .codes [0,1,6,7,8,11], neg := .a, lat := 12 }
/-- VRED (R139). -/
def shapeVred : Shape := { op := 0x15C, d := (.reg .vec .dst), a := (.reg .vec .src), b := .imm, pred := true, rnd := [0,1,2,3,4,5,6,7], xf := .codes [0,1,6,7,8,11], neg := .a, lat := 12 }
/-- VXCHG (R140). -/
def shapeVxchg : Shape := { op := 0x11D, d := (.reg .vec .dst), a := (.reg .vec .src), pred := true, xf := .codes [1,7] }
/-- VLD (R242). -/
def shapeVld : Shape := { op := 0x201, d := (.reg .vec .dst), a := (.reg .ctl .src), b := (.reg .plain .src), pred := true, rnd := [0,1,2,3,4,5,6], xf := .mem [0,1] [0,1,2,3,4,5,6], mid := .scaled }
/-- VLD_OFFSET (R242). -/
def shapeVldOffset : Shape := { op := 0x221, lit := .imm32, d := (.reg .vec .dst), a := (.reg .ctl .src), b := (.reg .plain .src), pred := true, rnd := [0,1,2,3,4,5,6], xf := .mem [0,1] [0,1,2,3,4,5,6], mid := .scaled }
/-- VST (R243). -/
def shapeVst : Shape := { op := 0x202, d := (.reg .vec .src), a := (.reg .ctl .src), b := (.reg .plain .src), pred := true, rnd := [0,1,2,3,4,5,6], xf := .mem [0,2] [0,1,2,3,4,5,6], mid := .scaled }
/-- VST_OFFSET (R243). -/
def shapeVstOffset : Shape := { op := 0x222, lit := .imm32, d := (.reg .vec .src), a := (.reg .ctl .src), b := (.reg .plain .src), pred := true, rnd := [0,1,2,3,4,5,6], xf := .mem [0,2] [0,1,2,3,4,5,6], mid := .scaled }
/-- KLD (R244). -/
def shapeKld : Shape := { op := 0x203, d := (.reg .ctl .dst), a := (.reg .ctl .src), rnd := [0,1,2,3,4,5,6], xf := .mem [0,1] [0,1,2,3,4,5,6] }
/-- KLD_OFFSET (R244). -/
def shapeKldOffset : Shape := { op := 0x223, lit := .imm32, d := (.reg .ctl .dst), a := (.reg .ctl .src), rnd := [0,1,2,3,4,5,6], xf := .mem [0,1] [0,1,2,3,4,5,6] }
/-- KST (R244). -/
def shapeKst : Shape := { op := 0x204, d := (.reg .ctl .src), a := (.reg .ctl .src), rnd := [0,1,2,3,4,5,6], xf := .mem [0,2] [0,1,2,3,4,5,6] }
/-- KST_OFFSET (R244). -/
def shapeKstOffset : Shape := { op := 0x224, lit := .imm32, d := (.reg .ctl .src), a := (.reg .ctl .src), rnd := [0,1,2,3,4,5,6], xf := .mem [0,2] [0,1,2,3,4,5,6] }
/-- VATOM (R245). -/
def shapeVatom : Shape := { op := 0x205, lit := .set, d := (.reg .vec .dst), a := (.reg .ctl .src), b := (.reg .plain .src), pred := true, rnd := [0,1,2,3,4,5,6,7], xf := .mem [0,1,2,3] [0,1,2,3,4,5,6], mid := .scaled }
/-- VATOMN (R245). -/
def shapeVatomn : Shape := { op := 0x206, lit := .set, a := (.reg .ctl .src), b := (.reg .plain .src), pred := true, rnd := [0,1,2,3,4,5,6,7], xf := .mem [0,1,2,3] [0,1,2,3,4,5,6], mid := .scaled }
/-- VCAS (R245). -/
def shapeVcas : Shape := { op := 0x207, lit := .set, d := (.reg .vec .dst), a := (.reg .ctl .src), b := (.reg .plain .src), pred := true, xf := .mem [0,1,2,3] [0,1,2,3,4,5,6], mid := .scaled }
/-- FENCE (R250). -/
def shapeFence : Shape := { op := 0x208, xf := .mem [1,2,3] [0,1,2,3,4,5,6] }
/-- FACQ_REMOTE (R251). -/
def shapeFacqRemote : Shape := { op := 0x209, a := (.reg .ctl .src), xf := .mem [1] [5] }
/-- PREF (R253). -/
def shapePref : Shape := { op := 0x20A, a := (.reg .ctl .src), b := (.reg .plain .src), pred := true, xf := .mem [0] [0,1,2,3,4,5,6], mid := .scaled }
/-- PREF_L1 (R253). -/
def shapePrefL1 : Shape := { op := 0x20A, a := (.reg .ctl .src), b := (.reg .plain .src), pred := true, rnd := [1], xf := .mem [0] [0,1,2,3,4,5,6], mid := .scaled }
/-- PREF_OFFSET (R253). -/
def shapePrefOffset : Shape := { op := 0x22A, lit := .imm32, a := (.reg .ctl .src), b := (.reg .plain .src), pred := true, rnd := [0,1], xf := .mem [0] [0,1,2,3,4,5,6], mid := .scaled }
/-- CWB (R254). -/
def shapeCwb : Shape := { op := 0x20B, a := (.reg .ctl .src), b := (.reg .ctl .src), xf := .mem [0] [5] }
/-- CINV (R255). -/
def shapeCinv : Shape := { op := 0x20C, a := (.reg .ctl .src), b := (.reg .ctl .src), xf := .mem [0] [5] }
/-- XCOPY (R259). -/
def shapeXcopy : Shape := { op := 0x20D, lit := .set, d := (.reg .ctl .src), a := (.reg .ctl .src), b := (.reg .ctl .src), xf := .mem [0] [0,1,2,3,4,5,6] }
/-- XGATH (R260). -/
def shapeXgath : Shape := { op := 0x20E, lit := .set, d := (.reg .ctl .src), a := (.reg .ctl .src), b := (.reg .plain .src), pred := true, xf := .mem [0] [0,1,2,3,4,5,6], mid := .scaled }
/-- XCOLL (R261). -/
def shapeXcoll : Shape := { op := 0x20F, lit := .set, d := (.reg .ctl .src), a := (.reg .ctl .src), b := (.reg .ctl .src), xf := .mem [0] [6] }
/-- XWAIT (R264). -/
def shapeXwait : Shape := { op := 0x210, b := .imm, rnd := [0,1,2,3] }
/-- ABEG (R279). -/
def shapeAbeg : Shape := { op := 0x240, lit := .imm32, xf := .mem [0] [0,1,2,3,4,5] }
/-- ACOM (R280). -/
def shapeAcom : Shape := { op := 0x241, d := (.reg .ctl .dst) }
/-- AABT (R281). -/
def shapeAabt : Shape := { op := 0x242 }
/-- XCAST (R289). -/
def shapeXcast : Shape := { op := 0x250, lit := .set, d := (.reg .ctl .src), a := (.reg .ctl .src), xf := .mem [0] [0,1,2,3,4,5,6] }
/-- XCAST_T (R289). -/
def shapeXcastT : Shape := { op := 0x250, lit := .set, d := (.reg .ctl .src), a := (.reg .ctl .src), rnd := [1], xf := .mem [0] [0,1,2,3,4,5,6] }
/-- MMA (R291). -/
def shapeMma : Shape := { op := 0x251, lit := .set, d := (.reg .acc .both), a := (.reg .ctl .src), b := (.reg .ctl .src), rnd := [0,1,2,3,4,5,6,7] }
/-- MFENCE (R297). -/
def shapeMfence : Shape := { op := 0x252, d := (.reg .ctl .dst), lat := 2 }
/-- MWAIT (R298). -/
def shapeMwait : Shape := { op := 0x253, a := (.reg .ctl .src) }
/-- MPOUR (R295). -/
def shapeMpour : Shape := { op := 0x254, lit := .set, d := (.reg .acc .src), a := (.reg .ctl .src), rnd := [0,1,2,3,4,5,6,7], xf := .codes [8,9,10,12,13,14,15,16,17,18] }
/-- MZERO (R293). -/
def shapeMzero : Shape := { op := 0x255, d := (.reg .acc .dst) }
/-- MLOAD (R294). -/
def shapeMload : Shape := { op := 0x256, lit := .set, d := (.reg .acc .dst), a := (.reg .ctl .src), xf := .mem [0] [0,1,2,3,4,5,6] }
/-- QPOP (R343). -/
def shapeQpop : Shape := { op := 0x260, d := (.reg .record .dst), a := (.reg .ctl .src), b := (.reg .mask .dst), pred := true }
/-- QPOP_TRY (R343). -/
def shapeQpopTry : Shape := { op := 0x260, d := (.reg .record .dst), a := (.reg .ctl .src), b := (.reg .mask .dst), pred := true, rnd := [1] }
/-- QPUSH (R342). -/
def shapeQpush : Shape := { op := 0x261, d := (.reg .record .src), a := (.reg .ctl .src), b := (.reg .ctl .dst), pred := true }
/-- QLEN_VB (R344). -/
def shapeQlenVb : Shape := { op := 0x262, d := (.reg .ctl .dst), a := (.reg .ctl .src), lat := 4 }
/-- QLEN_VF (R344). -/
def shapeQlenVf : Shape := { op := 0x262, d := (.reg .ctl .dst), a := (.reg .ctl .src), rnd := [1], lat := 4 }
/-- QLEN_B (R344). -/
def shapeQlenB : Shape := { op := 0x262, d := (.reg .ctl .dst), a := (.reg .ctl .src), rnd := [2] }
/-- QLEN_F (R344). -/
def shapeQlenF : Shape := { op := 0x262, d := (.reg .ctl .dst), a := (.reg .ctl .src), rnd := [3] }
/-- QLEN_H (R344). -/
def shapeQlenH : Shape := { op := 0x262, d := (.reg .ctl .dst), a := (.reg .ctl .src), rnd := [4] }
/-- QLEN_R (R344). -/
def shapeQlenR : Shape := { op := 0x262, d := (.reg .ctl .dst), a := (.reg .ctl .src), rnd := [5] }
/-- HPUSH (R336). -/
def shapeHpush : Shape := { op := 0x263, a := (.reg .ctl .src), b := (.reg .ctl .src) }
/-- HPOP (R336). -/
def shapeHpop : Shape := { op := 0x264, d := (.reg .plain .dst), a := (.reg .ctl .src), pred := true }
/-- HTRY (R345). -/
def shapeHtry : Shape := { op := 0x265, d := (.reg .ctl .dst), a := (.reg .ctl .src) }
/-- HALLOW (R336). -/
def shapeHallow : Shape := { op := 0x266, a := (.reg .ctl .src), b := (.reg .ctl .src) }
/-- LAUNCH (R346). -/
def shapeLaunch : Shape := { op := 0x267, d := (.reg .ctl .dst), a := (.reg .ctl .src), b := (.reg .ctl .src) }
/-- CONT (R350). -/
def shapeCont : Shape := { op := 0x268, a := (.reg .ctl .src), b := (.reg .ctl .src) }
/-- EVPOST (R351). -/
def shapeEvpost : Shape := { op := 0x269, a := (.reg .ctl .src), b := (.reg .ctl .src) }
/-- EVPOP (R352). -/
def shapeEvpop : Shape := { op := 0x26A, d := (.reg .ctl .dst), sup := true }
/-- EVPOP_WAIT (R352). -/
def shapeEvpopWait : Shape := { op := 0x26A, d := (.reg .ctl .dst), rnd := [1], sup := true }
/-- KSIG (R353). -/
def shapeKsig : Shape := { op := 0x26B, a := (.reg .ctl .src), b := (.reg .ctl .src) }
/-- TDEF (R360). -/
def shapeTdef : Shape := { op := 0x270, lit := .set, d := (.reg .ctl .dst), a := (.reg .ctl .src) }
/-- TPATCH (R361). -/
def shapeTpatch : Shape := { op := 0x271, lit := .set, d := (.reg .ctl .dst), a := (.reg .ctl .src) }
/-- TPATCH_ADD (R361). -/
def shapeTpatchAdd : Shape := { op := 0x271, lit := .set, d := (.reg .ctl .dst), a := (.reg .ctl .src), rnd := [1] }
/-- TINV (R362). -/
def shapeTinv : Shape := { op := 0x272, lit := .set }
/-- HNEW_B (R365). -/
def shapeHnewB : Shape := { op := 0x273, d := (.reg .ctl .dst), rnd := [1] }
/-- HNEW_Q (R365). -/
def shapeHnewQ : Shape := { op := 0x273, d := (.reg .ctl .dst), a := (.reg .ctl .src), b := (.reg .ctl .src), rnd := [2] }
/-- HNEW_J (R365). -/
def shapeHnewJ : Shape := { op := 0x273, d := (.reg .ctl .dst), rnd := [3] }
/-- HDEL (R366). -/
def shapeHdel : Shape := { op := 0x274, a := (.reg .ctl .src) }
/-- PRESERVE (R368). -/
def shapePreserve : Shape := { op := 0x275, d := (.reg .ctl .dst), a := (.reg .ctl .src), b := (.reg .ctl .src) }
/-- PRESERVE_REL (R368). -/
def shapePreserveRel : Shape := { op := 0x275, d := (.reg .ctl .dst), a := (.reg .ctl .src), b := (.reg .ctl .src), rnd := [1] }
/-- PCOMMIT (R369). -/
def shapePcommit : Shape := { op := 0x276, d := (.reg .ctl .dst), a := (.reg .ctl .src), rnd := [1,3,5,7] }
/-- PFREE (R370). -/
def shapePfree : Shape := { op := 0x277, d := (.reg .ctl .dst), a := (.reg .ctl .src) }
/-- TLBINV (R372). -/
def shapeTlbinv : Shape := { op := 0x278, d := (.reg .ctl .src), a := (.reg .ctl .src), b := (.reg .ctl .src), sup := true }
/-- TLBINV_ALL (R372). -/
def shapeTlbinvAll : Shape := { op := 0x278, d := (.reg .ctl .src), rnd := [1], sup := true }
/-- HMOVE (R374). -/
def shapeHmove : Shape := { op := 0x279, d := (.reg .ctl .dst), a := (.reg .ctl .src), b := (.reg .ctl .src) }
/-- BAR_EXPECT (R393). -/
def shapeBarExpect : Shape := { op := 0x280, a := (.reg .ctl .src), b := (.reg .ctl .src) }
/-- BAR_EXPECT_N (R393). -/
def shapeBarExpectN : Shape := { op := 0x280, a := (.reg .ctl .src), b := (.reg .ctl .src), rnd := [1] }
/-- BAR_ARRIVE (R393). -/
def shapeBarArrive : Shape := { op := 0x281, d := (.reg .ctl .dst), a := (.reg .ctl .src) }
/-- BAR_ARRIVE_X (R393). -/
def shapeBarArriveX : Shape := { op := 0x281, d := (.reg .ctl .dst), a := (.reg .ctl .src), b := (.reg .ctl .src), rnd := [1] }
/-- BAR_WAIT (R393). -/
def shapeBarWait : Shape := { op := 0x282, a := (.reg .ctl .src), b := (.reg .ctl .src) }
/-- JWAIT (R395). -/
def shapeJwait : Shape := { op := 0x283, a := (.reg .ctl .src) }
/-- JSTAT (R396). -/
def shapeJstat : Shape := { op := 0x284, d := (.reg .ctl .dst), a := (.reg .ctl .src) }
/-- JSTAT_S (R396). -/
def shapeJstatS : Shape := { op := 0x284, d := (.reg .ctl .dst), a := (.reg .ctl .src), rnd := [1] }
/-- CKPT (R307). -/
def shapeCkpt : Shape := { op := 0x290, d := (.reg .ctl .dst), a := (.reg .ctl .src), lat := 2, sup := true }
/-- CKSTAT (R310). -/
def shapeCkstat : Shape := { op := 0x291, d := (.reg .ctl .dst), a := (.reg .ctl .src), lat := 2, sup := true }
/-- KADD (R146). -/
def shapeKadd : Shape := { op := 0x301, d := (.reg .ctl .dst), a := (.reg .ctl .src), b := (.reg .ctl .src), lat := 2 }
/-- KADD_IMM8 (R146). -/
def shapeKaddImm8 : Shape := { op := 0x341, d := (.reg .ctl .dst), a := (.reg .ctl .src), b := .imm, lat := 2 }
/-- KADD_IMM32 (R146). -/
def shapeKaddImm32 : Shape := { op := 0x381, lit := .imm32, d := (.reg .ctl .dst), a := (.reg .ctl .src), lat := 2 }
/-- KSUB (R146). -/
def shapeKsub : Shape := { op := 0x302, d := (.reg .ctl .dst), a := (.reg .ctl .src), b := (.reg .ctl .src), lat := 2 }
/-- KSUB_IMM8 (R146). -/
def shapeKsubImm8 : Shape := { op := 0x342, d := (.reg .ctl .dst), a := (.reg .ctl .src), b := .imm, lat := 2 }
/-- KSUB_IMM32 (R146). -/
def shapeKsubImm32 : Shape := { op := 0x382, lit := .imm32, d := (.reg .ctl .dst), a := (.reg .ctl .src), lat := 2 }
/-- KMUL (R146). -/
def shapeKmul : Shape := { op := 0x303, d := (.reg .ctl .dst), a := (.reg .ctl .src), b := (.reg .ctl .src), lat := 2 }
/-- KMUL_IMM8 (R146). -/
def shapeKmulImm8 : Shape := { op := 0x343, d := (.reg .ctl .dst), a := (.reg .ctl .src), b := .imm, lat := 2 }
/-- KMUL_IMM32 (R146). -/
def shapeKmulImm32 : Shape := { op := 0x383, lit := .imm32, d := (.reg .ctl .dst), a := (.reg .ctl .src), lat := 2 }
/-- KAND (R146). -/
def shapeKand : Shape := { op := 0x304, d := (.reg .ctl .dst), a := (.reg .ctl .src), b := (.reg .ctl .src), lat := 2 }
/-- KAND_IMM8 (R146). -/
def shapeKandImm8 : Shape := { op := 0x344, d := (.reg .ctl .dst), a := (.reg .ctl .src), b := .imm, lat := 2 }
/-- KAND_IMM32 (R146). -/
def shapeKandImm32 : Shape := { op := 0x384, lit := .imm32, d := (.reg .ctl .dst), a := (.reg .ctl .src), lat := 2 }
/-- KOR (R146). -/
def shapeKor : Shape := { op := 0x305, d := (.reg .ctl .dst), a := (.reg .ctl .src), b := (.reg .ctl .src), lat := 2 }
/-- KOR_IMM8 (R146). -/
def shapeKorImm8 : Shape := { op := 0x345, d := (.reg .ctl .dst), a := (.reg .ctl .src), b := .imm, lat := 2 }
/-- KOR_IMM32 (R146). -/
def shapeKorImm32 : Shape := { op := 0x385, lit := .imm32, d := (.reg .ctl .dst), a := (.reg .ctl .src), lat := 2 }
/-- KXOR (R146). -/
def shapeKxor : Shape := { op := 0x306, d := (.reg .ctl .dst), a := (.reg .ctl .src), b := (.reg .ctl .src), lat := 2 }
/-- KXOR_IMM8 (R146). -/
def shapeKxorImm8 : Shape := { op := 0x346, d := (.reg .ctl .dst), a := (.reg .ctl .src), b := .imm, lat := 2 }
/-- KXOR_IMM32 (R146). -/
def shapeKxorImm32 : Shape := { op := 0x386, lit := .imm32, d := (.reg .ctl .dst), a := (.reg .ctl .src), lat := 2 }
/-- KSHL (R146). -/
def shapeKshl : Shape := { op := 0x307, d := (.reg .ctl .dst), a := (.reg .ctl .src), b := (.reg .ctl .src), lat := 2 }
/-- KSHL_IMM8 (R146). -/
def shapeKshlImm8 : Shape := { op := 0x347, d := (.reg .ctl .dst), a := (.reg .ctl .src), b := .imm, lat := 2 }
/-- KSHL_IMM32 (R146). -/
def shapeKshlImm32 : Shape := { op := 0x387, lit := .imm32, d := (.reg .ctl .dst), a := (.reg .ctl .src), lat := 2 }
/-- KSHR (R146). -/
def shapeKshr : Shape := { op := 0x308, d := (.reg .ctl .dst), a := (.reg .ctl .src), b := (.reg .ctl .src), lat := 2 }
/-- KSHR_IMM8 (R146). -/
def shapeKshrImm8 : Shape := { op := 0x348, d := (.reg .ctl .dst), a := (.reg .ctl .src), b := .imm, lat := 2 }
/-- KSHR_IMM32 (R146). -/
def shapeKshrImm32 : Shape := { op := 0x388, lit := .imm32, d := (.reg .ctl .dst), a := (.reg .ctl .src), lat := 2 }
/-- KSRA (R146). -/
def shapeKsra : Shape := { op := 0x309, d := (.reg .ctl .dst), a := (.reg .ctl .src), b := (.reg .ctl .src), lat := 2 }
/-- KSRA_IMM8 (R146). -/
def shapeKsraImm8 : Shape := { op := 0x349, d := (.reg .ctl .dst), a := (.reg .ctl .src), b := .imm, lat := 2 }
/-- KSRA_IMM32 (R146). -/
def shapeKsraImm32 : Shape := { op := 0x389, lit := .imm32, d := (.reg .ctl .dst), a := (.reg .ctl .src), lat := 2 }
/-- KMIN (R146). -/
def shapeKmin : Shape := { op := 0x30A, d := (.reg .ctl .dst), a := (.reg .ctl .src), b := (.reg .ctl .src), xf := .codes [6,7], lat := 2 }
/-- KMIN_IMM8 (R146). -/
def shapeKminImm8 : Shape := { op := 0x34A, d := (.reg .ctl .dst), a := (.reg .ctl .src), b := .imm, xf := .codes [6,7], lat := 2 }
/-- KMIN_IMM32 (R146). -/
def shapeKminImm32 : Shape := { op := 0x38A, lit := .imm32, d := (.reg .ctl .dst), a := (.reg .ctl .src), xf := .codes [6,7], lat := 2 }
/-- KMAX (R146). -/
def shapeKmax : Shape := { op := 0x30B, d := (.reg .ctl .dst), a := (.reg .ctl .src), b := (.reg .ctl .src), xf := .codes [6,7], lat := 2 }
/-- KMAX_IMM8 (R146). -/
def shapeKmaxImm8 : Shape := { op := 0x34B, d := (.reg .ctl .dst), a := (.reg .ctl .src), b := .imm, xf := .codes [6,7], lat := 2 }
/-- KMAX_IMM32 (R146). -/
def shapeKmaxImm32 : Shape := { op := 0x38B, lit := .imm32, d := (.reg .ctl .dst), a := (.reg .ctl .src), xf := .codes [6,7], lat := 2 }
/-- KMOV (R146). -/
def shapeKmov : Shape := { op := 0x30C, d := (.reg .ctl .dst), b := (.reg .ctl .src), lat := 2 }
/-- KMOV_IMM8 (R146). -/
def shapeKmovImm8 : Shape := { op := 0x34C, d := (.reg .ctl .dst), b := .imm, lat := 2 }
/-- KMOV_WIDE (R147). -/
def shapeKmovWide : Shape := { op := 0x38C, lit := .wide, d := (.reg .ctl .dst), lat := 2 }
/-- KCMP (R146). -/
def shapeKcmp : Shape := { op := 0x30D, d := (.reg .ctl .dst), a := (.reg .ctl .src), b := (.reg .ctl .src), xf := .codes [0,1,2,3,4,5,8,9,10,11], lat := 2 }
/-- KCMP_IMM8 (R146). -/
def shapeKcmpImm8 : Shape := { op := 0x34D, d := (.reg .ctl .dst), a := (.reg .ctl .src), b := .imm, xf := .codes [0,1,2,3,4,5,8,9,10,11], lat := 2 }
/-- KCMP_IMM32 (R146). -/
def shapeKcmpImm32 : Shape := { op := 0x38D, lit := .imm32, d := (.reg .ctl .dst), a := (.reg .ctl .src), xf := .codes [0,1,2,3,4,5,8,9,10,11], lat := 2 }
/-- NOP (R167). -/
def shapeNop : Shape := { op := 0x300 }
/-- BRA (R149). -/
def shapeBra : Shape := { op := 0x3C0, d := .raw, a := .raw, b := .raw }
/-- CALL (R149). -/
def shapeCall : Shape := { op := 0x3C1, d := .raw, a := .raw, b := .raw, lat := 2 }
/-- RET (R150). -/
def shapeRet : Shape := { op := 0x3C2 }
/-- JMP (R150). -/
def shapeJmp : Shape := { op := 0x3C3, a := (.reg .ctl .src) }
/-- JCALL (R150). -/
def shapeJcall : Shape := { op := 0x3C4, d := (.reg .ctl .dst), a := (.reg .ctl .src), lat := 2 }
/-- BCC (R149). -/
def shapeBcc : Shape := { op := 0x3C5, d := .raw, a := (.reg .ctl .src), b := (.reg .ctl .src), xf := .codes [0,1,2,3,4,5,8,9,10,11] }
/-- BCC_LONG (R149). -/
def shapeBccLong : Shape := { op := 0x3C6, lit := .imm32, a := (.reg .ctl .src), b := (.reg .ctl .src), xf := .codes [0,1,2,3,4,5,8,9,10,11] }
/-- BANY (R149). -/
def shapeBany : Shape := { op := 0x3C7, d := .raw, a := (.reg .mask .src), b := .raw }
/-- BALL (R149). -/
def shapeBall : Shape := { op := 0x3C8, d := .raw, a := (.reg .mask .src), b := .raw }
/-- PFORK (R21). -/
def shapePfork : Shape := { op := 0x3D0, lit := .imm32, a := (.reg .mask .src) }
/-- PJOIN (R21). -/
def shapePjoin : Shape := { op := 0x3D1, d := .raw, b := .raw }
/-- PYIELD (R21). -/
def shapePyield : Shape := { op := 0x3D2 }
/-- MAND (R154). -/
def shapeMand : Shape := { op := 0x3D8, d := (.reg .mask .dst), a := (.reg .mask .src), b := (.reg .mask .src), lat := 2 }
/-- MOR (R154). -/
def shapeMor : Shape := { op := 0x3D9, d := (.reg .mask .dst), a := (.reg .mask .src), b := (.reg .mask .src), lat := 2 }
/-- MXOR (R154). -/
def shapeMxor : Shape := { op := 0x3DA, d := (.reg .mask .dst), a := (.reg .mask .src), b := (.reg .mask .src), lat := 2 }
/-- MANDN (R154). -/
def shapeMandn : Shape := { op := 0x3DB, d := (.reg .mask .dst), a := (.reg .mask .src), b := (.reg .mask .src), lat := 2 }
/-- MNOT (R154). -/
def shapeMnot : Shape := { op := 0x3DC, d := (.reg .mask .dst), a := (.reg .mask .src), lat := 2 }
/-- MMOV (R154). -/
def shapeMmov : Shape := { op := 0x3DD, d := (.reg .mask .dst), a := (.reg .mask .src), lat := 2 }
/-- MSET (R154). -/
def shapeMset : Shape := { op := 0x3DE, d := (.reg .mask .dst), a := (.reg .ctl .src), lat := 2 }
/-- MGET (R154). -/
def shapeMget : Shape := { op := 0x3DF, d := (.reg .ctl .dst), a := (.reg .mask .src), lat := 2 }
/-- MPOPC (R154). -/
def shapeMpopc : Shape := { op := 0x3E0, d := (.reg .ctl .dst), a := (.reg .mask .src), lat := 2 }
/-- MFIRST (R154). -/
def shapeMfirst : Shape := { op := 0x3E1, d := (.reg .ctl .dst), a := (.reg .mask .src), lat := 2 }
/-- KGET (R155). -/
def shapeKget : Shape := { op := 0x3E8, d := (.reg .ctl .dst), a := (.reg .vec .src), xf := .codes [0,1,6,7], lat := 4, mid := .kget }
/-- KTIME (R156). -/
def shapeKtime : Shape := { op := 0x3E9, d := (.reg .ctl .dst), lat := 2 }
/-- KMODE (R156). -/
def shapeKmode : Shape := { op := 0x3EA, d := (.reg .ctl .dst), lat := 2 }
/-- KWMODE (R157). -/
def shapeKwmode : Shape := { op := 0x3EB, a := (.reg .ctl .src) }
/-- KWMODE_FLAGS (R157). -/
def shapeKwmodeFlags : Shape := { op := 0x3EB, a := (.reg .ctl .src), rnd := [1] }
/-- KWMODE_CTL (R157). -/
def shapeKwmodeCtl : Shape := { op := 0x3EB, a := (.reg .ctl .src), rnd := [2] }
/-- KGANG (R159). -/
def shapeKgang : Shape := { op := 0x3EC, d := (.reg .ctl .dst), a := (.reg .ctl .src), lat := 2 }
/-- KPAIR (R160). -/
def shapeKpair : Shape := { op := 0x3ED, d := (.reg .ctl .dst), a := (.reg .ctl .src), lat := 2 }
/-- KSLEEP (R161). -/
def shapeKsleep : Shape := { op := 0x3EE, a := (.reg .ctl .src) }
/-- KWAIT (R162). -/
def shapeKwait : Shape := { op := 0x3EF, d := (.reg .ctl .dst), a := (.reg .ctl .src), b := (.reg .ctl .src), xf := .mem [0] [0,1,2,3,4,5,6] }
/-- TRAP (R163). -/
def shapeTrap : Shape := { op := 0x3F0, b := .imm }
/-- BRK (R163). -/
def shapeBrk : Shape := { op := 0x3F1 }
/-- ERET (R164). -/
def shapeEret : Shape := { op := 0x3F2, sup := true }
/-- GEXIT (R165). -/
def shapeGexit : Shape := { op := 0x3F3 }
/-- KSYS (R166). -/
def shapeKsys : Shape := { op := 0x3F8, d := (.reg .ctl .dst), a := .raw, b := .raw, lat := 2 }
/-- KWSYS (R166). -/
def shapeKwsys : Shape := { op := 0x3F9, d := .raw, a := (.reg .ctl .src), b := .raw, sup := true }

/-- The field use of an instruction's F-form word; none for a pair word and for steps that are no instruction. -/
def shape : Instr → Option Shape
  | .vadd _ => some shapeVadd
  | .vaddImm8 _ => some shapeVaddImm8
  | .vaddImm32 _ _ => some shapeVaddImm32
  | .vsub _ => some shapeVsub
  | .vsubImm8 _ => some shapeVsubImm8
  | .vsubImm32 _ _ => some shapeVsubImm32
  | .vaddsat _ => some shapeVaddsat
  | .vaddsatImm8 _ => some shapeVaddsatImm8
  | .vaddsatImm32 _ _ => some shapeVaddsatImm32
  | .vsubsat _ => some shapeVsubsat
  | .vsubsatImm8 _ => some shapeVsubsatImm8
  | .vsubsatImm32 _ _ => some shapeVsubsatImm32
  | .vmul _ => some shapeVmul
  | .vmulImm8 _ => some shapeVmulImm8
  | .vmulImm32 _ _ => some shapeVmulImm32
  | .vmulh _ => some shapeVmulh
  | .vmulhImm8 _ => some shapeVmulhImm8
  | .vmulhImm32 _ _ => some shapeVmulhImm32
  | .vmad _ => some shapeVmad
  | .vmadImm8 _ => some shapeVmadImm8
  | .vmadImm32 _ _ => some shapeVmadImm32
  | .vabsdiff _ => some shapeVabsdiff
  | .vmin _ => some shapeVmin
  | .vminImm8 _ => some shapeVminImm8
  | .vminImm32 _ _ => some shapeVminImm32
  | .vmax _ => some shapeVmax
  | .vmaxImm8 _ => some shapeVmaxImm8
  | .vmaxImm32 _ _ => some shapeVmaxImm32
  | .vabs _ => some shapeVabs
  | .vand _ => some shapeVand
  | .vandImm8 _ => some shapeVandImm8
  | .vandImm32 _ _ => some shapeVandImm32
  | .vor _ => some shapeVor
  | .vorImm8 _ => some shapeVorImm8
  | .vorImm32 _ _ => some shapeVorImm32
  | .vxor _ => some shapeVxor
  | .vxorImm8 _ => some shapeVxorImm8
  | .vxorImm32 _ _ => some shapeVxorImm32
  | .vandn _ => some shapeVandn
  | .vandnImm8 _ => some shapeVandnImm8
  | .vandnImm32 _ _ => some shapeVandnImm32
  | .vshl _ => some shapeVshl
  | .vshlImm8 _ => some shapeVshlImm8
  | .vshr _ => some shapeVshr
  | .vshrImm8 _ => some shapeVshrImm8
  | .vsra _ => some shapeVsra
  | .vsraImm8 _ => some shapeVsraImm8
  | .vrot _ => some shapeVrot
  | .vrotImm8 _ => some shapeVrotImm8
  | .vbext _ => some shapeVbext
  | .vbextImm32 _ _ => some shapeVbextImm32
  | .vbins _ => some shapeVbins
  | .vbinsImm32 _ _ => some shapeVbinsImm32
  | .vpopc _ => some shapeVpopc
  | .vclz _ => some shapeVclz
  | .vctz _ => some shapeVctz
  | .vbrev _ => some shapeVbrev
  | .vdot4 _ => some shapeVdot4
  | .vdot2 _ => some shapeVdot2
  | .vcmp _ => some shapeVcmp
  | .vcmpImm8 _ => some shapeVcmpImm8
  | .vcmpImm32 _ _ => some shapeVcmpImm32
  | .vsel _ => some shapeVsel
  | .vselImm8 _ => some shapeVselImm8
  | .vselImm32 _ _ => some shapeVselImm32
  | .vwid _ => some shapeVwid
  | .vshrink _ => some shapeVshrink
  | .vfadd _ => some shapeVfadd
  | .vfaddImm32 _ _ => some shapeVfaddImm32
  | .vfsub _ => some shapeVfsub
  | .vfsubImm32 _ _ => some shapeVfsubImm32
  | .vfmul _ => some shapeVfmul
  | .vfmulImm32 _ _ => some shapeVfmulImm32
  | .vfma _ => some shapeVfma
  | .vfmaImm32 _ _ => some shapeVfmaImm32
  | .vfmin _ => some shapeVfmin
  | .vfminImm32 _ _ => some shapeVfminImm32
  | .vfmax _ => some shapeVfmax
  | .vfmaxImm32 _ _ => some shapeVfmaxImm32
  | .vfabs _ => some shapeVfabs
  | .vfcmp _ => some shapeVfcmp
  | .vfcmpImm32 _ _ => some shapeVfcmpImm32
  | .vfdiv _ => some shapeVfdiv
  | .vfsqrt _ => some shapeVfsqrt
  | .vfrcp _ => some shapeVfrcp
  | .vfrsq _ => some shapeVfrsq
  | .vfexp2 _ => some shapeVfexp2
  | .vflog2 _ => some shapeVflog2
  | .vfsin _ => some shapeVfsin
  | .vfcos _ => some shapeVfcos
  | .vftanh _ => some shapeVftanh
  | .vfclass _ => some shapeVfclass
  | .vcvt _ => some shapeVcvt
  | .vpack _ => some shapeVpack
  | .vunpack _ => some shapeVunpack
  | .vmov _ => some shapeVmov
  | .vmovImm8 _ => some shapeVmovImm8
  | .vmovImm32 _ _ => some shapeVmovImm32
  | .vmovk _ => some shapeVmovk
  | .vperm _ => some shapeVperm
  | .vpermImm8 _ => some shapeVpermImm8
  | .vshfl _ => some shapeVshfl
  | .vshflImm8 _ => some shapeVshflImm8
  | .vlrot _ => some shapeVlrot
  | .vlrotImm8 _ => some shapeVlrotImm8
  | .vscan _ => some shapeVscan
  | .vred _ => some shapeVred
  | .vxchg _ => some shapeVxchg
  | .vld _ => some shapeVld
  | .vldOffset _ _ => some shapeVldOffset
  | .vst _ => some shapeVst
  | .vstOffset _ _ => some shapeVstOffset
  | .kld _ => some shapeKld
  | .kldOffset _ _ => some shapeKldOffset
  | .kst _ => some shapeKst
  | .kstOffset _ _ => some shapeKstOffset
  | .vatom _ _ => some shapeVatom
  | .vatomn _ _ => some shapeVatomn
  | .vcas _ _ => some shapeVcas
  | .fence _ => some shapeFence
  | .facqRemote _ => some shapeFacqRemote
  | .pref _ => some shapePref
  | .prefL1 _ => some shapePrefL1
  | .prefOffset _ _ => some shapePrefOffset
  | .cwb _ => some shapeCwb
  | .cinv _ => some shapeCinv
  | .xcopy _ _ => some shapeXcopy
  | .xgath _ _ => some shapeXgath
  | .xcoll _ _ => some shapeXcoll
  | .xwait _ => some shapeXwait
  | .abeg _ _ => some shapeAbeg
  | .acom _ => some shapeAcom
  | .aabt _ => some shapeAabt
  | .xcast _ _ => some shapeXcast
  | .xcastT _ _ => some shapeXcastT
  | .mma _ _ => some shapeMma
  | .mfence _ => some shapeMfence
  | .mwait _ => some shapeMwait
  | .mpour _ _ => some shapeMpour
  | .mzero _ => some shapeMzero
  | .mload _ _ => some shapeMload
  | .qpop _ => some shapeQpop
  | .qpopTry _ => some shapeQpopTry
  | .qpush _ => some shapeQpush
  | .qlenVb _ => some shapeQlenVb
  | .qlenVf _ => some shapeQlenVf
  | .qlenB _ => some shapeQlenB
  | .qlenF _ => some shapeQlenF
  | .qlenH _ => some shapeQlenH
  | .qlenR _ => some shapeQlenR
  | .hpush _ => some shapeHpush
  | .hpop _ => some shapeHpop
  | .htry _ => some shapeHtry
  | .hallow _ => some shapeHallow
  | .launch _ => some shapeLaunch
  | .cont _ => some shapeCont
  | .evpost _ => some shapeEvpost
  | .evpop _ => some shapeEvpop
  | .evpopWait _ => some shapeEvpopWait
  | .ksig _ => some shapeKsig
  | .tdef _ _ => some shapeTdef
  | .tpatch _ _ => some shapeTpatch
  | .tpatchAdd _ _ => some shapeTpatchAdd
  | .tinv _ _ => some shapeTinv
  | .hnewB _ => some shapeHnewB
  | .hnewQ _ => some shapeHnewQ
  | .hnewJ _ => some shapeHnewJ
  | .hdel _ => some shapeHdel
  | .preserve _ => some shapePreserve
  | .preserveRel _ => some shapePreserveRel
  | .pcommit _ => some shapePcommit
  | .pfree _ => some shapePfree
  | .tlbinv _ => some shapeTlbinv
  | .tlbinvAll _ => some shapeTlbinvAll
  | .hmove _ => some shapeHmove
  | .barExpect _ => some shapeBarExpect
  | .barExpectN _ => some shapeBarExpectN
  | .barArrive _ => some shapeBarArrive
  | .barArriveX _ => some shapeBarArriveX
  | .barWait _ => some shapeBarWait
  | .jwait _ => some shapeJwait
  | .jstat _ => some shapeJstat
  | .jstatS _ => some shapeJstatS
  | .ckpt _ => some shapeCkpt
  | .ckstat _ => some shapeCkstat
  | .kadd _ => some shapeKadd
  | .kaddImm8 _ => some shapeKaddImm8
  | .kaddImm32 _ _ => some shapeKaddImm32
  | .ksub _ => some shapeKsub
  | .ksubImm8 _ => some shapeKsubImm8
  | .ksubImm32 _ _ => some shapeKsubImm32
  | .kmul _ => some shapeKmul
  | .kmulImm8 _ => some shapeKmulImm8
  | .kmulImm32 _ _ => some shapeKmulImm32
  | .kand _ => some shapeKand
  | .kandImm8 _ => some shapeKandImm8
  | .kandImm32 _ _ => some shapeKandImm32
  | .kor _ => some shapeKor
  | .korImm8 _ => some shapeKorImm8
  | .korImm32 _ _ => some shapeKorImm32
  | .kxor _ => some shapeKxor
  | .kxorImm8 _ => some shapeKxorImm8
  | .kxorImm32 _ _ => some shapeKxorImm32
  | .kshl _ => some shapeKshl
  | .kshlImm8 _ => some shapeKshlImm8
  | .kshlImm32 _ _ => some shapeKshlImm32
  | .kshr _ => some shapeKshr
  | .kshrImm8 _ => some shapeKshrImm8
  | .kshrImm32 _ _ => some shapeKshrImm32
  | .ksra _ => some shapeKsra
  | .ksraImm8 _ => some shapeKsraImm8
  | .ksraImm32 _ _ => some shapeKsraImm32
  | .kmin _ => some shapeKmin
  | .kminImm8 _ => some shapeKminImm8
  | .kminImm32 _ _ => some shapeKminImm32
  | .kmax _ => some shapeKmax
  | .kmaxImm8 _ => some shapeKmaxImm8
  | .kmaxImm32 _ _ => some shapeKmaxImm32
  | .kmov _ => some shapeKmov
  | .kmovImm8 _ => some shapeKmovImm8
  | .kmovWide _ _ => some shapeKmovWide
  | .kcmp _ => some shapeKcmp
  | .kcmpImm8 _ => some shapeKcmpImm8
  | .kcmpImm32 _ _ => some shapeKcmpImm32
  | .nop _ => some shapeNop
  | .bra _ => some shapeBra
  | .call _ => some shapeCall
  | .ret _ => some shapeRet
  | .jmp _ => some shapeJmp
  | .jcall _ => some shapeJcall
  | .bcc _ => some shapeBcc
  | .bccLong _ _ => some shapeBccLong
  | .bany _ => some shapeBany
  | .ball _ => some shapeBall
  | .pfork _ _ => some shapePfork
  | .pjoin _ => some shapePjoin
  | .pyield _ => some shapePyield
  | .mand _ => some shapeMand
  | .mor _ => some shapeMor
  | .mxor _ => some shapeMxor
  | .mandn _ => some shapeMandn
  | .mnot _ => some shapeMnot
  | .mmov _ => some shapeMmov
  | .mset _ => some shapeMset
  | .mget _ => some shapeMget
  | .mpopc _ => some shapeMpopc
  | .mfirst _ => some shapeMfirst
  | .kget _ => some shapeKget
  | .ktime _ => some shapeKtime
  | .kmode _ => some shapeKmode
  | .kwmode _ => some shapeKwmode
  | .kwmodeFlags _ => some shapeKwmodeFlags
  | .kwmodeCtl _ => some shapeKwmodeCtl
  | .kgang _ => some shapeKgang
  | .kpair _ => some shapeKpair
  | .ksleep _ => some shapeKsleep
  | .kwait _ => some shapeKwait
  | .trap _ => some shapeTrap
  | .brk _ => some shapeBrk
  | .eret _ => some shapeEret
  | .gexit _ => some shapeGexit
  | .ksys _ => some shapeKsys
  | .kwsys _ => some shapeKwsys
  | .pairWord _ _ => none
  | .atomicRunAtHome _ _ _ => none
  | .promotionPoint _ _ => none
  | .promotionDrain _ => none
  | .engineCompletion _ _ _ => none
  | .asyncFaultTake _ => none
  | .matrixOpComplete _ => none
  | .engineBarrierArrival _ _ _ _ => none
  | .joinDecrement _ _ _ _ _ => none
  | .checkpointComplete _ => none
  | .ksleepWake _ => none
  | .kwaitWake _ => none
  | .assistComplete _ => none
  | .issueSelection _ => none
  | .stallElapsed _ => none
  | .loadReturn _ _ _ => none
  | .pageWalk _ _ _ _ _ => none
  | .invalidationComplete _ => none
  | .l2FillReturn _ _ _ => none
  | .tileVerification _ => none
  | .tileWriteback _ => none
  | .coherenceService _ _ _ _ _ _ => none
  | .hostPageRequestAnswer _ _ => none
  | .remoteAccessArrival _ _ _ _ _ _ _ _ => none
  | .hotnessDecay => none
  | .summaryWindowClose _ _ => none
  | .meteredRequestAdmit _ _ _ => none
  | .watchdogFire _ _ => none
  | .summaryExchange _ _ _ => none
  | .emitReservationRequest _ => none
  | .launchPopRequest _ => none
  | .rangeBlockRequest _ => none
  | .restartOffer _ _ _ _ => none
  | .launchConfirmation _ _ => none
  | .groupLaunchComplete _ => none
  | .quadrantRelease _ => none
  | .operatingPointChange _ _ => none
  | .park _ => none
  | .parkedRestore _ => none
  | .groupRetirement _ => none
  | .blockRetirement _ => none
  | .recordCommit _ => none
  | .shelfRefill _ _ => none
  | .forwardBatchSend _ => none
  | .forwardBatchArrival _ _ _ _ => none
  | .forwardAck _ _ _ => none
  | .creditGrant _ _ _ => none
  | .xoff _ => none
  | .xon _ => none
  | .linkLoss _ _ => none
  | .doorbell _ _ => none
  | .ringReset _ _ _ _ => none
  | .poolFrameArrival _ _ => none
  | .freedFrameToPool _ _ => none
  | .preemption _ => none
  | .preemptionSave _ => none
  | .restore _ _ _ => none
  | .kill _ => none
  | .hwError _ => none
  | .liveMigration _ _ _ => none
  | .rekey _ _ _ _ => none
  | .l2WayMaskChange _ _ _ _ => none
  | .hostBar2Access _ _ _ _ => none
  | .ownershipClaim _ => none
  | .ownerNextWrite _ _ => none
  | .handoverAck _ => none
  | .handoverTimeout => none
  | .ownerChannelLoss => none
  | .createPartition _ _ _ => none
  | .destroyPartition _ _ => none
  | .setIssueWeight _ _ _ _ => none
  | .setTokens _ _ _ _ => none
  | .setLend _ _ _ => none
  | .setQuota _ _ _ _ => none
  | .setWdog _ _ _ _ => none
  | .setDefaultMode _ _ _ _ => none
  | .setOperatingCap _ _ _ => none
  | .setHotnessThresholds _ _ _ => none
  | .setReplicaPolicy _ _ _ _ _ => none
  | .configureCollective _ _ _ => none
  | .firmwareUpdate _ _ => none
  | .resetBoot _ => none
  | .deviceNumberAssign _ _ => none
  | .ideIntegrityFailure _ => none
  | .getVersion => none
  | .getCapabilities => none
  | .negotiateAlgorithms => none
  | .getDigests => none
  | .getCertificate _ _ _ => none
  | .challenge _ _ => none
  | .getMeasurements _ _ _ => none
  | .keyExchange _ _ => none
  | .createContext _ _ _ _ => none
  | .destroyContext _ _ _ => none
  | .graphInstall _ _ _ _ _ => none
  | .graphRemove _ => none
  | .hostTlbShootdown _ _ _ _ => none
  | .storePerformed _ _ _ => none
  | .migrationProposalAccepted _ _ _ _ _ _ => none
  | .tdispInterfaceRequest _ _ => none
  | .frameHandOver _ _ => none

/-- The F-form fields of an instruction word. -/
def fieldsOf : Instr → FForm
  | .vadd f => f
  | .vaddImm8 f => f
  | .vaddImm32 f _ => f
  | .vsub f => f
  | .vsubImm8 f => f
  | .vsubImm32 f _ => f
  | .vaddsat f => f
  | .vaddsatImm8 f => f
  | .vaddsatImm32 f _ => f
  | .vsubsat f => f
  | .vsubsatImm8 f => f
  | .vsubsatImm32 f _ => f
  | .vmul f => f
  | .vmulImm8 f => f
  | .vmulImm32 f _ => f
  | .vmulh f => f
  | .vmulhImm8 f => f
  | .vmulhImm32 f _ => f
  | .vmad f => f
  | .vmadImm8 f => f
  | .vmadImm32 f _ => f
  | .vabsdiff f => f
  | .vmin f => f
  | .vminImm8 f => f
  | .vminImm32 f _ => f
  | .vmax f => f
  | .vmaxImm8 f => f
  | .vmaxImm32 f _ => f
  | .vabs f => f
  | .vand f => f
  | .vandImm8 f => f
  | .vandImm32 f _ => f
  | .vor f => f
  | .vorImm8 f => f
  | .vorImm32 f _ => f
  | .vxor f => f
  | .vxorImm8 f => f
  | .vxorImm32 f _ => f
  | .vandn f => f
  | .vandnImm8 f => f
  | .vandnImm32 f _ => f
  | .vshl f => f
  | .vshlImm8 f => f
  | .vshr f => f
  | .vshrImm8 f => f
  | .vsra f => f
  | .vsraImm8 f => f
  | .vrot f => f
  | .vrotImm8 f => f
  | .vbext f => f
  | .vbextImm32 f _ => f
  | .vbins f => f
  | .vbinsImm32 f _ => f
  | .vpopc f => f
  | .vclz f => f
  | .vctz f => f
  | .vbrev f => f
  | .vdot4 f => f
  | .vdot2 f => f
  | .vcmp f => f
  | .vcmpImm8 f => f
  | .vcmpImm32 f _ => f
  | .vsel f => f
  | .vselImm8 f => f
  | .vselImm32 f _ => f
  | .vwid f => f
  | .vshrink f => f
  | .vfadd f => f
  | .vfaddImm32 f _ => f
  | .vfsub f => f
  | .vfsubImm32 f _ => f
  | .vfmul f => f
  | .vfmulImm32 f _ => f
  | .vfma f => f
  | .vfmaImm32 f _ => f
  | .vfmin f => f
  | .vfminImm32 f _ => f
  | .vfmax f => f
  | .vfmaxImm32 f _ => f
  | .vfabs f => f
  | .vfcmp f => f
  | .vfcmpImm32 f _ => f
  | .vfdiv f => f
  | .vfsqrt f => f
  | .vfrcp f => f
  | .vfrsq f => f
  | .vfexp2 f => f
  | .vflog2 f => f
  | .vfsin f => f
  | .vfcos f => f
  | .vftanh f => f
  | .vfclass f => f
  | .vcvt f => f
  | .vpack f => f
  | .vunpack f => f
  | .vmov f => f
  | .vmovImm8 f => f
  | .vmovImm32 f _ => f
  | .vmovk f => f
  | .vperm f => f
  | .vpermImm8 f => f
  | .vshfl f => f
  | .vshflImm8 f => f
  | .vlrot f => f
  | .vlrotImm8 f => f
  | .vscan f => f
  | .vred f => f
  | .vxchg f => f
  | .vld f => f
  | .vldOffset f _ => f
  | .vst f => f
  | .vstOffset f _ => f
  | .kld f => f
  | .kldOffset f _ => f
  | .kst f => f
  | .kstOffset f _ => f
  | .vatom f _ => f
  | .vatomn f _ => f
  | .vcas f _ => f
  | .fence f => f
  | .facqRemote f => f
  | .pref f => f
  | .prefL1 f => f
  | .prefOffset f _ => f
  | .cwb f => f
  | .cinv f => f
  | .xcopy f _ => f
  | .xgath f _ => f
  | .xcoll f _ => f
  | .xwait f => f
  | .abeg f _ => f
  | .acom f => f
  | .aabt f => f
  | .xcast f _ => f
  | .xcastT f _ => f
  | .mma f _ => f
  | .mfence f => f
  | .mwait f => f
  | .mpour f _ => f
  | .mzero f => f
  | .mload f _ => f
  | .qpop f => f
  | .qpopTry f => f
  | .qpush f => f
  | .qlenVb f => f
  | .qlenVf f => f
  | .qlenB f => f
  | .qlenF f => f
  | .qlenH f => f
  | .qlenR f => f
  | .hpush f => f
  | .hpop f => f
  | .htry f => f
  | .hallow f => f
  | .launch f => f
  | .cont f => f
  | .evpost f => f
  | .evpop f => f
  | .evpopWait f => f
  | .ksig f => f
  | .tdef f _ => f
  | .tpatch f _ => f
  | .tpatchAdd f _ => f
  | .tinv f _ => f
  | .hnewB f => f
  | .hnewQ f => f
  | .hnewJ f => f
  | .hdel f => f
  | .preserve f => f
  | .preserveRel f => f
  | .pcommit f => f
  | .pfree f => f
  | .tlbinv f => f
  | .tlbinvAll f => f
  | .hmove f => f
  | .barExpect f => f
  | .barExpectN f => f
  | .barArrive f => f
  | .barArriveX f => f
  | .barWait f => f
  | .jwait f => f
  | .jstat f => f
  | .jstatS f => f
  | .ckpt f => f
  | .ckstat f => f
  | .kadd f => f
  | .kaddImm8 f => f
  | .kaddImm32 f _ => f
  | .ksub f => f
  | .ksubImm8 f => f
  | .ksubImm32 f _ => f
  | .kmul f => f
  | .kmulImm8 f => f
  | .kmulImm32 f _ => f
  | .kand f => f
  | .kandImm8 f => f
  | .kandImm32 f _ => f
  | .kor f => f
  | .korImm8 f => f
  | .korImm32 f _ => f
  | .kxor f => f
  | .kxorImm8 f => f
  | .kxorImm32 f _ => f
  | .kshl f => f
  | .kshlImm8 f => f
  | .kshlImm32 f _ => f
  | .kshr f => f
  | .kshrImm8 f => f
  | .kshrImm32 f _ => f
  | .ksra f => f
  | .ksraImm8 f => f
  | .ksraImm32 f _ => f
  | .kmin f => f
  | .kminImm8 f => f
  | .kminImm32 f _ => f
  | .kmax f => f
  | .kmaxImm8 f => f
  | .kmaxImm32 f _ => f
  | .kmov f => f
  | .kmovImm8 f => f
  | .kmovWide f _ => f
  | .kcmp f => f
  | .kcmpImm8 f => f
  | .kcmpImm32 f _ => f
  | .nop f => f
  | .bra f => f
  | .call f => f
  | .ret f => f
  | .jmp f => f
  | .jcall f => f
  | .bcc f => f
  | .bccLong f _ => f
  | .bany f => f
  | .ball f => f
  | .pfork f _ => f
  | .pjoin f => f
  | .pyield f => f
  | .mand f => f
  | .mor f => f
  | .mxor f => f
  | .mandn f => f
  | .mnot f => f
  | .mmov f => f
  | .mset f => f
  | .mget f => f
  | .mpopc f => f
  | .mfirst f => f
  | .kget f => f
  | .ktime f => f
  | .kmode f => f
  | .kwmode f => f
  | .kwmodeFlags f => f
  | .kwmodeCtl f => f
  | .kgang f => f
  | .kpair f => f
  | .ksleep f => f
  | .kwait f => f
  | .trap f => f
  | .brk f => f
  | .eret f => f
  | .gexit f => f
  | .ksys f => f
  | .kwsys f => f
  | .pairWord _ _ => {}
  | .atomicRunAtHome _ _ _ => {}
  | .promotionPoint _ _ => {}
  | .promotionDrain _ => {}
  | .engineCompletion _ _ _ => {}
  | .asyncFaultTake _ => {}
  | .matrixOpComplete _ => {}
  | .engineBarrierArrival _ _ _ _ => {}
  | .joinDecrement _ _ _ _ _ => {}
  | .checkpointComplete _ => {}
  | .ksleepWake _ => {}
  | .kwaitWake _ => {}
  | .assistComplete _ => {}
  | .issueSelection _ => {}
  | .stallElapsed _ => {}
  | .loadReturn _ _ _ => {}
  | .pageWalk _ _ _ _ _ => {}
  | .invalidationComplete _ => {}
  | .l2FillReturn _ _ _ => {}
  | .tileVerification _ => {}
  | .tileWriteback _ => {}
  | .coherenceService _ _ _ _ _ _ => {}
  | .hostPageRequestAnswer _ _ => {}
  | .remoteAccessArrival _ _ _ _ _ _ _ _ => {}
  | .hotnessDecay => {}
  | .summaryWindowClose _ _ => {}
  | .meteredRequestAdmit _ _ _ => {}
  | .watchdogFire _ _ => {}
  | .summaryExchange _ _ _ => {}
  | .emitReservationRequest _ => {}
  | .launchPopRequest _ => {}
  | .rangeBlockRequest _ => {}
  | .restartOffer _ _ _ _ => {}
  | .launchConfirmation _ _ => {}
  | .groupLaunchComplete _ => {}
  | .quadrantRelease _ => {}
  | .operatingPointChange _ _ => {}
  | .park _ => {}
  | .parkedRestore _ => {}
  | .groupRetirement _ => {}
  | .blockRetirement _ => {}
  | .recordCommit _ => {}
  | .shelfRefill _ _ => {}
  | .forwardBatchSend _ => {}
  | .forwardBatchArrival _ _ _ _ => {}
  | .forwardAck _ _ _ => {}
  | .creditGrant _ _ _ => {}
  | .xoff _ => {}
  | .xon _ => {}
  | .linkLoss _ _ => {}
  | .doorbell _ _ => {}
  | .ringReset _ _ _ _ => {}
  | .poolFrameArrival _ _ => {}
  | .freedFrameToPool _ _ => {}
  | .preemption _ => {}
  | .preemptionSave _ => {}
  | .restore _ _ _ => {}
  | .kill _ => {}
  | .hwError _ => {}
  | .liveMigration _ _ _ => {}
  | .rekey _ _ _ _ => {}
  | .l2WayMaskChange _ _ _ _ => {}
  | .hostBar2Access _ _ _ _ => {}
  | .ownershipClaim _ => {}
  | .ownerNextWrite _ _ => {}
  | .handoverAck _ => {}
  | .handoverTimeout => {}
  | .ownerChannelLoss => {}
  | .createPartition _ _ _ => {}
  | .destroyPartition _ _ => {}
  | .setIssueWeight _ _ _ _ => {}
  | .setTokens _ _ _ _ => {}
  | .setLend _ _ _ => {}
  | .setQuota _ _ _ _ => {}
  | .setWdog _ _ _ _ => {}
  | .setDefaultMode _ _ _ _ => {}
  | .setOperatingCap _ _ _ => {}
  | .setHotnessThresholds _ _ _ => {}
  | .setReplicaPolicy _ _ _ _ _ => {}
  | .configureCollective _ _ _ => {}
  | .firmwareUpdate _ _ => {}
  | .resetBoot _ => {}
  | .deviceNumberAssign _ _ => {}
  | .ideIntegrityFailure _ => {}
  | .getVersion => {}
  | .getCapabilities => {}
  | .negotiateAlgorithms => {}
  | .getDigests => {}
  | .getCertificate _ _ _ => {}
  | .challenge _ _ => {}
  | .getMeasurements _ _ _ => {}
  | .keyExchange _ _ => {}
  | .createContext _ _ _ _ => {}
  | .destroyContext _ _ _ => {}
  | .graphInstall _ _ _ _ _ => {}
  | .graphRemove _ => {}
  | .hostTlbShootdown _ _ _ _ => {}
  | .storePerformed _ _ _ => {}
  | .migrationProposalAccepted _ _ _ _ _ _ => {}
  | .tdispInterfaceRequest _ _ => {}
  | .frameHandOver _ _ => {}

/-- The literal word of an instruction. -/
def literalOf : Instr → Literal
  | .vadd _ => .none
  | .vaddImm8 _ => .none
  | .vaddImm32 _ v => .imm32 v
  | .vsub _ => .none
  | .vsubImm8 _ => .none
  | .vsubImm32 _ v => .imm32 v
  | .vaddsat _ => .none
  | .vaddsatImm8 _ => .none
  | .vaddsatImm32 _ v => .imm32 v
  | .vsubsat _ => .none
  | .vsubsatImm8 _ => .none
  | .vsubsatImm32 _ v => .imm32 v
  | .vmul _ => .none
  | .vmulImm8 _ => .none
  | .vmulImm32 _ v => .imm32 v
  | .vmulh _ => .none
  | .vmulhImm8 _ => .none
  | .vmulhImm32 _ v => .imm32 v
  | .vmad _ => .none
  | .vmadImm8 _ => .none
  | .vmadImm32 _ v => .imm32 v
  | .vabsdiff _ => .none
  | .vmin _ => .none
  | .vminImm8 _ => .none
  | .vminImm32 _ v => .imm32 v
  | .vmax _ => .none
  | .vmaxImm8 _ => .none
  | .vmaxImm32 _ v => .imm32 v
  | .vabs _ => .none
  | .vand _ => .none
  | .vandImm8 _ => .none
  | .vandImm32 _ v => .imm32 v
  | .vor _ => .none
  | .vorImm8 _ => .none
  | .vorImm32 _ v => .imm32 v
  | .vxor _ => .none
  | .vxorImm8 _ => .none
  | .vxorImm32 _ v => .imm32 v
  | .vandn _ => .none
  | .vandnImm8 _ => .none
  | .vandnImm32 _ v => .imm32 v
  | .vshl _ => .none
  | .vshlImm8 _ => .none
  | .vshr _ => .none
  | .vshrImm8 _ => .none
  | .vsra _ => .none
  | .vsraImm8 _ => .none
  | .vrot _ => .none
  | .vrotImm8 _ => .none
  | .vbext _ => .none
  | .vbextImm32 _ v => .imm32 v
  | .vbins _ => .none
  | .vbinsImm32 _ v => .imm32 v
  | .vpopc _ => .none
  | .vclz _ => .none
  | .vctz _ => .none
  | .vbrev _ => .none
  | .vdot4 _ => .none
  | .vdot2 _ => .none
  | .vcmp _ => .none
  | .vcmpImm8 _ => .none
  | .vcmpImm32 _ v => .imm32 v
  | .vsel _ => .none
  | .vselImm8 _ => .none
  | .vselImm32 _ v => .imm32 v
  | .vwid _ => .none
  | .vshrink _ => .none
  | .vfadd _ => .none
  | .vfaddImm32 _ v => .imm32 v
  | .vfsub _ => .none
  | .vfsubImm32 _ v => .imm32 v
  | .vfmul _ => .none
  | .vfmulImm32 _ v => .imm32 v
  | .vfma _ => .none
  | .vfmaImm32 _ v => .imm32 v
  | .vfmin _ => .none
  | .vfminImm32 _ v => .imm32 v
  | .vfmax _ => .none
  | .vfmaxImm32 _ v => .imm32 v
  | .vfabs _ => .none
  | .vfcmp _ => .none
  | .vfcmpImm32 _ v => .imm32 v
  | .vfdiv _ => .none
  | .vfsqrt _ => .none
  | .vfrcp _ => .none
  | .vfrsq _ => .none
  | .vfexp2 _ => .none
  | .vflog2 _ => .none
  | .vfsin _ => .none
  | .vfcos _ => .none
  | .vftanh _ => .none
  | .vfclass _ => .none
  | .vcvt _ => .none
  | .vpack _ => .none
  | .vunpack _ => .none
  | .vmov _ => .none
  | .vmovImm8 _ => .none
  | .vmovImm32 _ v => .imm32 v
  | .vmovk _ => .none
  | .vperm _ => .none
  | .vpermImm8 _ => .none
  | .vshfl _ => .none
  | .vshflImm8 _ => .none
  | .vlrot _ => .none
  | .vlrotImm8 _ => .none
  | .vscan _ => .none
  | .vred _ => .none
  | .vxchg _ => .none
  | .vld _ => .none
  | .vldOffset _ v => .imm32 v
  | .vst _ => .none
  | .vstOffset _ v => .imm32 v
  | .kld _ => .none
  | .kldOffset _ v => .imm32 v
  | .kst _ => .none
  | .kstOffset _ v => .imm32 v
  | .vatom _ l => .set l
  | .vatomn _ l => .set l
  | .vcas _ l => .set l
  | .fence _ => .none
  | .facqRemote _ => .none
  | .pref _ => .none
  | .prefL1 _ => .none
  | .prefOffset _ v => .imm32 v
  | .cwb _ => .none
  | .cinv _ => .none
  | .xcopy _ l => .set l
  | .xgath _ l => .set l
  | .xcoll _ l => .set l
  | .xwait _ => .none
  | .abeg _ v => .imm32 v
  | .acom _ => .none
  | .aabt _ => .none
  | .xcast _ l => .set l
  | .xcastT _ l => .set l
  | .mma _ l => .set l
  | .mfence _ => .none
  | .mwait _ => .none
  | .mpour _ l => .set l
  | .mzero _ => .none
  | .mload _ l => .set l
  | .qpop _ => .none
  | .qpopTry _ => .none
  | .qpush _ => .none
  | .qlenVb _ => .none
  | .qlenVf _ => .none
  | .qlenB _ => .none
  | .qlenF _ => .none
  | .qlenH _ => .none
  | .qlenR _ => .none
  | .hpush _ => .none
  | .hpop _ => .none
  | .htry _ => .none
  | .hallow _ => .none
  | .launch _ => .none
  | .cont _ => .none
  | .evpost _ => .none
  | .evpop _ => .none
  | .evpopWait _ => .none
  | .ksig _ => .none
  | .tdef _ l => .set l
  | .tpatch _ l => .set l
  | .tpatchAdd _ l => .set l
  | .tinv _ l => .set l
  | .hnewB _ => .none
  | .hnewQ _ => .none
  | .hnewJ _ => .none
  | .hdel _ => .none
  | .preserve _ => .none
  | .preserveRel _ => .none
  | .pcommit _ => .none
  | .pfree _ => .none
  | .tlbinv _ => .none
  | .tlbinvAll _ => .none
  | .hmove _ => .none
  | .barExpect _ => .none
  | .barExpectN _ => .none
  | .barArrive _ => .none
  | .barArriveX _ => .none
  | .barWait _ => .none
  | .jwait _ => .none
  | .jstat _ => .none
  | .jstatS _ => .none
  | .ckpt _ => .none
  | .ckstat _ => .none
  | .kadd _ => .none
  | .kaddImm8 _ => .none
  | .kaddImm32 _ v => .imm32 v
  | .ksub _ => .none
  | .ksubImm8 _ => .none
  | .ksubImm32 _ v => .imm32 v
  | .kmul _ => .none
  | .kmulImm8 _ => .none
  | .kmulImm32 _ v => .imm32 v
  | .kand _ => .none
  | .kandImm8 _ => .none
  | .kandImm32 _ v => .imm32 v
  | .kor _ => .none
  | .korImm8 _ => .none
  | .korImm32 _ v => .imm32 v
  | .kxor _ => .none
  | .kxorImm8 _ => .none
  | .kxorImm32 _ v => .imm32 v
  | .kshl _ => .none
  | .kshlImm8 _ => .none
  | .kshlImm32 _ v => .imm32 v
  | .kshr _ => .none
  | .kshrImm8 _ => .none
  | .kshrImm32 _ v => .imm32 v
  | .ksra _ => .none
  | .ksraImm8 _ => .none
  | .ksraImm32 _ v => .imm32 v
  | .kmin _ => .none
  | .kminImm8 _ => .none
  | .kminImm32 _ v => .imm32 v
  | .kmax _ => .none
  | .kmaxImm8 _ => .none
  | .kmaxImm32 _ v => .imm32 v
  | .kmov _ => .none
  | .kmovImm8 _ => .none
  | .kmovWide _ v => .wide v
  | .kcmp _ => .none
  | .kcmpImm8 _ => .none
  | .kcmpImm32 _ v => .imm32 v
  | .nop _ => .none
  | .bra _ => .none
  | .call _ => .none
  | .ret _ => .none
  | .jmp _ => .none
  | .jcall _ => .none
  | .bcc _ => .none
  | .bccLong _ v => .imm32 v
  | .bany _ => .none
  | .ball _ => .none
  | .pfork _ v => .imm32 v
  | .pjoin _ => .none
  | .pyield _ => .none
  | .mand _ => .none
  | .mor _ => .none
  | .mxor _ => .none
  | .mandn _ => .none
  | .mnot _ => .none
  | .mmov _ => .none
  | .mset _ => .none
  | .mget _ => .none
  | .mpopc _ => .none
  | .mfirst _ => .none
  | .kget _ => .none
  | .ktime _ => .none
  | .kmode _ => .none
  | .kwmode _ => .none
  | .kwmodeFlags _ => .none
  | .kwmodeCtl _ => .none
  | .kgang _ => .none
  | .kpair _ => .none
  | .ksleep _ => .none
  | .kwait _ => .none
  | .trap _ => .none
  | .brk _ => .none
  | .eret _ => .none
  | .gexit _ => .none
  | .ksys _ => .none
  | .kwsys _ => .none
  | .pairWord _ _ => .none
  | .atomicRunAtHome _ _ _ => .none
  | .promotionPoint _ _ => .none
  | .promotionDrain _ => .none
  | .engineCompletion _ _ _ => .none
  | .asyncFaultTake _ => .none
  | .matrixOpComplete _ => .none
  | .engineBarrierArrival _ _ _ _ => .none
  | .joinDecrement _ _ _ _ _ => .none
  | .checkpointComplete _ => .none
  | .ksleepWake _ => .none
  | .kwaitWake _ => .none
  | .assistComplete _ => .none
  | .issueSelection _ => .none
  | .stallElapsed _ => .none
  | .loadReturn _ _ _ => .none
  | .pageWalk _ _ _ _ _ => .none
  | .invalidationComplete _ => .none
  | .l2FillReturn _ _ _ => .none
  | .tileVerification _ => .none
  | .tileWriteback _ => .none
  | .coherenceService _ _ _ _ _ _ => .none
  | .hostPageRequestAnswer _ _ => .none
  | .remoteAccessArrival _ _ _ _ _ _ _ _ => .none
  | .hotnessDecay => .none
  | .summaryWindowClose _ _ => .none
  | .meteredRequestAdmit _ _ _ => .none
  | .watchdogFire _ _ => .none
  | .summaryExchange _ _ _ => .none
  | .emitReservationRequest _ => .none
  | .launchPopRequest _ => .none
  | .rangeBlockRequest _ => .none
  | .restartOffer _ _ _ _ => .none
  | .launchConfirmation _ _ => .none
  | .groupLaunchComplete _ => .none
  | .quadrantRelease _ => .none
  | .operatingPointChange _ _ => .none
  | .park _ => .none
  | .parkedRestore _ => .none
  | .groupRetirement _ => .none
  | .blockRetirement _ => .none
  | .recordCommit _ => .none
  | .shelfRefill _ _ => .none
  | .forwardBatchSend _ => .none
  | .forwardBatchArrival _ _ _ _ => .none
  | .forwardAck _ _ _ => .none
  | .creditGrant _ _ _ => .none
  | .xoff _ => .none
  | .xon _ => .none
  | .linkLoss _ _ => .none
  | .doorbell _ _ => .none
  | .ringReset _ _ _ _ => .none
  | .poolFrameArrival _ _ => .none
  | .freedFrameToPool _ _ => .none
  | .preemption _ => .none
  | .preemptionSave _ => .none
  | .restore _ _ _ => .none
  | .kill _ => .none
  | .hwError _ => .none
  | .liveMigration _ _ _ => .none
  | .rekey _ _ _ _ => .none
  | .l2WayMaskChange _ _ _ _ => .none
  | .hostBar2Access _ _ _ _ => .none
  | .ownershipClaim _ => .none
  | .ownerNextWrite _ _ => .none
  | .handoverAck _ => .none
  | .handoverTimeout => .none
  | .ownerChannelLoss => .none
  | .createPartition _ _ _ => .none
  | .destroyPartition _ _ => .none
  | .setIssueWeight _ _ _ _ => .none
  | .setTokens _ _ _ _ => .none
  | .setLend _ _ _ => .none
  | .setQuota _ _ _ _ => .none
  | .setWdog _ _ _ _ => .none
  | .setDefaultMode _ _ _ _ => .none
  | .setOperatingCap _ _ _ => .none
  | .setHotnessThresholds _ _ _ => .none
  | .setReplicaPolicy _ _ _ _ _ => .none
  | .configureCollective _ _ _ => .none
  | .firmwareUpdate _ _ => .none
  | .resetBoot _ => .none
  | .deviceNumberAssign _ _ => .none
  | .ideIntegrityFailure _ => .none
  | .getVersion => .none
  | .getCapabilities => .none
  | .negotiateAlgorithms => .none
  | .getDigests => .none
  | .getCertificate _ _ _ => .none
  | .challenge _ _ => .none
  | .getMeasurements _ _ _ => .none
  | .keyExchange _ _ => .none
  | .createContext _ _ _ _ => .none
  | .destroyContext _ _ _ => .none
  | .graphInstall _ _ _ _ _ => .none
  | .graphRemove _ => .none
  | .hostTlbShootdown _ _ _ _ => .none
  | .storePerformed _ _ _ => .none
  | .migrationProposalAccepted _ _ _ _ _ _ => .none
  | .tdispInterfaceRequest _ _ => .none
  | .frameHandOver _ _ => .none

/-! ### Checks on one word -/

/-- The bit-width rule of a register field that the entry does not use (R40). -/
def unusedOk (u : Use) (v : BitVec 8) : Bool :=
  match u with
  | .unused => v == 0
  | _ => true

/-- A 64-bit operand names an even register, or 255 (R40). -/
def evenOk (n : BitVec 8) : Bool := n == 255 || n.toNat % 2 == 0

/-- Is the type code of a vector word a 64-bit type? -/
def codePair (c : Nat) : Bool := c == 6 || c == 7 || c == 11

/-- The operand type of an atomic: T1[4:0] of its literal (Table 12-4). -/
def atomType (l : SetLit) : Nat := l.t1.toNat % 32

/-- Is a `vec` operand of this word a register pair (R40, R115)? By size code in loads and stores (Table 12-2), by the literal's type in atomics, by XF elsewhere. -/
def vecPair (s : Shape) (f : FForm) (l : Literal) : Bool :=
  match s.mid, l with
  | .scaled, .set l => codePair (atomType l)
  | .scaled, _ => f.rnd == 6
  | _, _ => codePair f.xf.toNat

/-- Is the operand of class `c` a register pair? -/
def classPair (s : Shape) (f : FForm) (l : Literal) (c : RegClass) : Bool :=
  match c with
  | .vec => vecPair s f l
  | .cvtSrc => codePair (f.b.toNat % 32)
  | _ => false

/-- The class of a vector register that a field reads; none for other fields. -/
def vecSrc (u : Use) : Option RegClass :=
  match u with
  | .reg .vec .src => some .vec
  | .reg .vec .both => some .vec
  | .reg .plain .src => some .plain
  | .reg .plain .both => some .plain
  | .reg .cvtSrc .src => some .cvtSrc
  | .reg .record .src => some .record
  | _ => none

def fieldEven (s : Shape) (f : FForm) (l : Literal) (u : Use) (v : BitVec 8) : Bool :=
  match u with
  | .reg c _ => !classPair s f l c || evenOk v
  | _ => true

/-- A last-read bit on A or B: only on a vector register read, and not on 255 (R47). -/
def lastReadOk (bit : Bool) (u : Use) (v : BitVec 8) : Bool :=
  !bit || ((vecSrc u).isSome && v != 255)

/-- LRD: only where D is read and not written (R47). -/
def lastReadDOk (bit : Bool) (u : Use) (v : BitVec 8) : Bool :=
  !bit || (match u with
    | .reg _ .src => (vecSrc u).isSome && v != 255
    | _ => false)

/-- The broadcast rules of R45, and bits [14:5] of memory words (Table 12-1). -/
def midOk (s : Shape) (f : FForm) : Bool :=
  match s.mid with
  | .scaled => f.bsel == 0 && !f.bfirst && f.blane.toNat < 4
  | .kget => f.bsel == 1 && (!f.bfirst || f.blane == 0)
  | .vector =>
    match f.bsel.toNat with
    | 0 => !f.bfirst && f.blane == 0
    | 1 => (vecSrc s.a).isSome && (!f.bfirst || f.blane == 0)
    | 2 => (vecSrc s.b).isSome && (!f.bfirst || f.blane == 0)
    | _ => false

/-- Types that negation accepts: signed integers and floating point (R46). -/
def negType (c : Nat) : Bool :=
  match elemOf c with
  | some t => elemSigned t || elemIeee t
  | none => false

/-- NEGA and NEGB (R46); `vcvt` negates its source type (R133). -/
def negOk (s : Shape) (f : FForm) : Bool :=
  let ty := if s.a = .reg .cvtSrc .src then f.b.toNat % 32 else f.xf.toNat
  match s.neg with
  | .no => !f.nega && !f.negb
  | .a => !f.negb && (!f.nega || negType ty)
  | .ab => (!f.nega && !f.negb) || negType ty

def xfOk (u : XfUse) (xf : BitVec 5) : Bool :=
  match u with
  | .codes l => l.contains xf.toNat
  | .mem kinds _ => kinds.contains (xf.toNat / 8)

/-- The checks common to all F-form words (R39 to R47). -/
def formOk (s : Shape) (f : FForm) (l : Literal) : Bool :=
  unusedOk s.d f.d && unusedOk s.a f.a && unusedOk s.b f.b && (s.pred || f.pred == 0) && s.rnd.contains f.rnd.toNat && xfOk s.xf f.xf
    && fieldEven s f l s.d f.d && fieldEven s f l s.a f.a && fieldEven s f l s.b f.b
    && lastReadOk f.lra s.a f.a && lastReadOk f.lrb s.b f.b && lastReadDOk f.lrd s.d f.d && midOk s f && negOk s f

/-- The bits of an imm32 above a narrow element (R50). -/
def imm32Ok (code : Nat) (v : BitVec 32) : Bool :=
  match elemOf code with
  | some .i16 => v == (v.truncate 16).signExtend 32
  | some .i8 => v == (v.truncate 8).signExtend 32
  | some .n16 | some .f16 | some .bf16 => v.toNat < 2 ^ 16
  | some .n8 | some .df8 | some .e4m3 | some .e5m2 | some .mxi8 => v.toNat < 2 ^ 8
  | some .e3m2 | some .e2m3 => v.toNat < 2 ^ 6
  | some .e2m1 => v.toNat < 2 ^ 4
  | some _ => true
  | none => false

/-- The part index h of a conversion lies below max(es, ed) / n (R133). -/
def cvtOk (f : FForm) : Bool :=
  match elemOf f.xf.toNat, elemOf (f.b.toNat % 32) with
  | some dt, some st =>
    let es := elemCount st
    let ed := elemCount dt
    dt != st && f.b.toNat / 32 < max es ed / min es ed
  | _, _ => false

/-- Operator and rounding field of `vscan` and `vred` (R139). -/
def scanOk (f : FForm) : Bool :=
  let fp := f.xf == 8 || f.xf == 11
  f.b.toNat ≤ 5 && (!fp || f.b.toNat ≤ 2) && ((fp && f.b == 0) || f.rnd == 0)

/-- The literal of an atomic (Tables 12-4 and 12-5). -/
def atomOk (cas : Bool) (f : FForm) (l : SetLit) : Bool :=
  let ty := atomType l
  let fp := ty == 8 || ty == 11
  l.t1.toNat < 32 && l.p2 == 0 && (!codePair ty || evenOk l.x)
    && (if cas then [0, 1, 6, 7].contains ty && l.p1 == 0 && (!codePair ty || evenOk l.y)
        else l.y == 0 && l.p1.toNat ≤ 6 && [0, 1, 6, 7, 8, 11].contains ty && (!fp || l.p1.toNat < 3 || l.p1 == 6)
          && ((fp && l.p1 == 0) || f.rnd == 0))

/-- The literal fields an entry does not use are zero (R48). -/
def litZero (l : SetLit) (t2 x y p1 p2 : Bool) : Bool :=
  (!t2 || l.t2 == 0) && (!x || l.x == 0) && (!y || l.y == 0) && (!p1 || l.p1 == 0) && (!p2 || l.p2 == 0)

/-- The checks of single entries that raise ILLEGAL_OPCODE. -/
def entryOk (i : Instr) : Bool :=
  match i with
  | .vaddImm32 f v | .vsubImm32 f v | .vaddsatImm32 f v | .vsubsatImm32 f v | .vmulImm32 f v | .vmulhImm32 f v | .vmadImm32 f v
  | .vminImm32 f v | .vmaxImm32 f v | .vandImm32 f v | .vorImm32 f v | .vxorImm32 f v | .vandnImm32 f v | .vcmpImm32 f v | .vselImm32 f v
  | .vfaddImm32 f v | .vfsubImm32 f v | .vfmulImm32 f v | .vfmaImm32 f v | .vfminImm32 f v | .vfmaxImm32 f v | .vfcmpImm32 f v
  | .vmovImm32 f v => imm32Ok f.xf.toNat v
  | .vbextImm32 _ v | .vbinsImm32 _ v => v.toNat < 2 ^ 16
  | .vcvt f => cvtOk f
  | .vpack f => f.rnd == 0 || f.xf == 9 || f.xf == 10
  | .vunpack f => f.b.toNat ≤ 1
  | .vpermImm8 f | .vlrotImm8 f => f.b.toNat < 32
  | .vscan f | .vred f => scanOk f
  | .vatom f l | .vatomn f l => atomOk false f l
  | .vcas f l => atomOk true f l
  | .xcopy _ l => litZero l false false true true true
  | .xgath _ l => litZero l false false true false true && l.p1.toNat ≤ 9
  | .xcoll _ l => litZero l (l.p1 != 4) false true false false && l.p1.toNat ≤ 4 && l.p2.toNat ≤ 1 && !(l.p1 == 3 && l.p2 == 1)
  | .xcast _ l | .xcastT _ l => litZero l false false true true true
  | .mma _ l => litZero l false true true false false
  | .mpour f l => litZero l false true true false false && l.p2.toNat ≤ 1 && l.p1.toNat ≤ 1 && (l.p1 == 0 || 13 ≤ f.xf.toNat)
  | .mload _ l => litZero l true true true true true
  | .tdef _ l => litZero l true true true true true
  | .tpatch _ l | .tpatchAdd _ l => litZero l true true true false true && l.p1.toNat ≤ 10
  | .tinv _ l => litZero l false true true true true
  | _ => true

/-! ### Pair words -/

/-- S is an imm8 (Table 3-16). -/
def pairImm : PairOp → Bool
  | .vaddImm | .vsubImm | .vandImm | .vshlImm | .vshrImm | .vsraImm | .vmovImm => true
  | _ => false

/-- Does a half read D as its first source? A `vmov` half does not (R53). -/
def pairReadsD : PairOp → Bool
  | .pnop | .vmov | .vmovImm => false
  | _ => true

/-- XF2 values of a half (R52). The shifts count among the integer arithmetic and logic operations (R52 against R121; DEDUCED, log 70). -/
def pairXfOk (op : PairOp) (x : BitVec 2) : Bool :=
  match op with
  | .vand | .vor | .vxor | .vandn | .vandImm | .vmov | .vmovImm => x == 0
  | .vfadd | .vfsub | .vfmul | .vfmin | .vfmax => x != 3
  | _ => true

/-- One half of a P-form word (R51, R52, R67). -/
def halfOk (h : PHalf) : Bool :=
  if h.op = .pnop then h.pred == 0 && h.d == 0 && h.s == 0 && !h.lrs && !h.lrd && h.xf2 == 0
  else pairXfOk h.op h.xf2 && !h.lrd && (!h.lrs || (!pairImm h.op && h.s != 255))

/-- The registers that a half reads, for the bank rule of R53. -/
def halfReads (h : PHalf) : List (BitVec 8) :=
  ((if pairReadsD h.op then [h.d] else []) ++ (if h.op = .pnop || pairImm h.op then [] else [h.s])).filter (· != 255)

/-- R53: H1 does not name H0's destination, and no two distinct registers read lie in one bank. -/
def pairOk (h0 h1 : PHalf) : Bool :=
  let named := if h1.op = .pnop then [] else h1.d :: (if pairImm h1.op then [] else [h1.s])
  let reads := halfReads h0 ++ halfReads h1
  (h0.op = .pnop || h0.d == 255 || !named.contains h0.d)
    && reads.all fun x => reads.all fun y => x == y || x.toNat % 4 != y.toNat % 4

/-! ### The whole check -/

/-- Does the instruction obey every rule whose breach is ILLEGAL_OPCODE (order 3 of Table 3-10)? -/
def opcodeOk (i : Instr) : Bool :=
  match i with
  | .pairWord h0 h1 => halfOk h0 && halfOk h1
  | i => match shape i with
    | some s => formOk s (fieldsOf i) (literalOf i) && entryOk i
    | none => true

/-- Does the instruction obey R53 (order 4)? -/
def pairRuleOk (i : Instr) : Bool :=
  match i with
  | .pairWord h0 h1 => pairOk h0 h1
  | _ => true

/-- Is this constructor an instruction word, and not a device, host or management step? -/
def isWord (i : Instr) : Bool :=
  match i with
  | .pairWord _ _ => true
  | i => (shape i).isSome

/-- The words of an instruction: 2 with a literal (R38), 0 for a step that is no instruction. -/
def wordCount (i : Instr) : Nat :=
  match i with
  | .pairWord _ _ => 1
  | i => match shape i with
    | some s => if s.lit = .none then 1 else 2
    | none => 0

end Sys2Proof.Machine
end

