-- ==== Sys2Proof/WellFormed.lean ====
section
/-! DEFINITION. The well-formed instructions: those whose fields obey every rule the decoder enforces (R60 orders 3 and 4). -/

namespace Sys2Proof

/-- An instruction whose words execute without ILLEGAL_OPCODE or ILLEGAL_PAIR. -/
def Instr.wellFormed (i : Instr) : Bool := Machine.opcodeOk i && Machine.pairRuleOk i

end Sys2Proof
end

