-- ==== Sys2Proof/Decode.lean ====
section
/-! DEFINITION. From bits to instructions and back: the decoder of R37 to R67, total on any words and rejecting by name, and after it the encoder, written from the same tables. -/

namespace Sys2Proof

open Sys2Proof.Machine

/-- Why words are no instruction (Table 3-10, orders 2 to 4). -/
inductive DecodeError where
  | illegalWord | illegalOpcode | illegalPair
  deriving DecidableEq, Repr

/-! ### Fields -/

def bitsOf (w : W64) (lo len : Nat) : BitVec len := w.extractLsb' lo len

/-- The fields of an F-form word (Table 3-2). -/
def fformOf (w : W64) : FForm :=
  { stall := bitsOf w 48 4, pred := bitsOf w 45 3, rnd := bitsOf w 42 3, d := bitsOf w 34 8, a := bitsOf w 26 8, b := bitsOf w 18 8,
    lra := w.getLsbD 17, lrb := w.getLsbD 16, lrd := w.getLsbD 15, bsel := bitsOf w 13 2, bfirst := w.getLsbD 12, blane := bitsOf w 7 5,
    nega := w.getLsbD 6, negb := w.getLsbD 5, xf := bitsOf w 0 5 }

/-- The second operand set of a literal word (Table 3-7). -/
def setLitOf (w : W64) : SetLit :=
  { t1 := bitsOf w 44 16, t2 := bitsOf w 28 16, x := bitsOf w 16 8, y := bitsOf w 8 8, p1 := bitsOf w 4 4, p2 := bitsOf w 0 4 }

/-- Table 3-16. -/
def pairOpOf (c : Nat) : Option PairOp :=
  match c with
  | 0x00 => some .pnop
  | 0x01 => some .vadd
  | 0x02 => some .vsub
  | 0x03 => some .vaddsat
  | 0x04 => some .vsubsat
  | 0x05 => some .vmul
  | 0x06 => some .vmin
  | 0x07 => some .vmax
  | 0x08 => some .vand
  | 0x09 => some .vor
  | 0x0A => some .vxor
  | 0x0B => some .vandn
  | 0x0C => some .vshl
  | 0x0D => some .vshr
  | 0x0E => some .vsra
  | 0x0F => some .vmov
  | 0x11 => some .vaddImm
  | 0x12 => some .vsubImm
  | 0x18 => some .vandImm
  | 0x1C => some .vshlImm
  | 0x1D => some .vshrImm
  | 0x1E => some .vsraImm
  | 0x1F => some .vmovImm
  | 0x21 => some .vfadd
  | 0x22 => some .vfsub
  | 0x23 => some .vfmul
  | 0x25 => some .vfmin
  | 0x26 => some .vfmax
  | _ => none

/-- One half of a P-form word, its bits starting at `lo` (Table 3-8). -/
def halfOf (w : W64) (lo : Nat) : Option PHalf :=
  (pairOpOf (bitsOf w (lo + 24) 7).toNat).map fun op =>
    { op := op, stall := bitsOf w (lo + 22) 2, pred := bitsOf w (lo + 20) 2, d := bitsOf w (lo + 12) 8, s := bitsOf w (lo + 4) 8,
      lrs := w.getLsbD (lo + 3), lrd := w.getLsbD (lo + 2), xf2 := bitsOf w lo 2 }

/-! ### The opcode map

Lean's runtime has no object for a constructor numbered above 244 that carries fields, and Instr has one constructor for each of the 364 rows: the definitions that build an Instr are evaluated by the kernel only, hence the section. -/

noncomputable section

/-- Class 0b00 (Table 3-11). -/
def build0 (op : Nat) (f : FForm) (l : Literal) : Option Instr :=
  match op, l with
  | 0x001, .none => some (.vadd f)
  | 0x002, .none => some (.vsub f)
  | 0x003, .none => some (.vaddsat f)
  | 0x004, .none => some (.vsubsat f)
  | 0x005, .none => some (.vmul f)
  | 0x006, .none => some (.vmulh f)
  | 0x007, .none => some (.vmad f)
  | 0x008, .none => some (.vabsdiff f)
  | 0x009, .none => some (.vmin f)
  | 0x00A, .none => some (.vmax f)
  | 0x00B, .none => some (.vabs f)
  | 0x00C, .none => some (.vand f)
  | 0x00D, .none => some (.vor f)
  | 0x00E, .none => some (.vxor f)
  | 0x00F, .none => some (.vandn f)
  | 0x010, .none => some (.vshl f)
  | 0x011, .none => some (.vshr f)
  | 0x012, .none => some (.vsra f)
  | 0x013, .none => some (.vrot f)
  | 0x014, .none => some (.vbext f)
  | 0x015, .none => some (.vbins f)
  | 0x016, .none => some (.vpopc f)
  | 0x017, .none => some (.vclz f)
  | 0x018, .none => some (.vctz f)
  | 0x019, .none => some (.vbrev f)
  | 0x01A, .none => some (.vdot4 f)
  | 0x01B, .none => some (.vdot2 f)
  | 0x01C, .none => some (.vcmp f)
  | 0x01D, .none => some (.vsel f)
  | 0x01E, .none => some (.vwid f)
  | 0x041, .none => some (.vaddImm8 f)
  | 0x042, .none => some (.vsubImm8 f)
  | 0x043, .none => some (.vaddsatImm8 f)
  | 0x044, .none => some (.vsubsatImm8 f)
  | 0x045, .none => some (.vmulImm8 f)
  | 0x046, .none => some (.vmulhImm8 f)
  | 0x047, .none => some (.vmadImm8 f)
  | 0x049, .none => some (.vminImm8 f)
  | 0x04A, .none => some (.vmaxImm8 f)
  | 0x04C, .none => some (.vandImm8 f)
  | 0x04D, .none => some (.vorImm8 f)
  | 0x04E, .none => some (.vxorImm8 f)
  | 0x04F, .none => some (.vandnImm8 f)
  | 0x050, .none => some (.vshlImm8 f)
  | 0x051, .none => some (.vshrImm8 f)
  | 0x052, .none => some (.vsraImm8 f)
  | 0x053, .none => some (.vrotImm8 f)
  | 0x05C, .none => some (.vcmpImm8 f)
  | 0x05D, .none => some (.vselImm8 f)
  | 0x05F, .none => some (.vshrink f)
  | 0x081, .imm32 v => some (.vaddImm32 f v)
  | 0x082, .imm32 v => some (.vsubImm32 f v)
  | 0x083, .imm32 v => some (.vaddsatImm32 f v)
  | 0x084, .imm32 v => some (.vsubsatImm32 f v)
  | 0x085, .imm32 v => some (.vmulImm32 f v)
  | 0x086, .imm32 v => some (.vmulhImm32 f v)
  | 0x087, .imm32 v => some (.vmadImm32 f v)
  | 0x089, .imm32 v => some (.vminImm32 f v)
  | 0x08A, .imm32 v => some (.vmaxImm32 f v)
  | 0x08C, .imm32 v => some (.vandImm32 f v)
  | 0x08D, .imm32 v => some (.vorImm32 f v)
  | 0x08E, .imm32 v => some (.vxorImm32 f v)
  | 0x08F, .imm32 v => some (.vandnImm32 f v)
  | 0x094, .imm32 v => some (.vbextImm32 f v)
  | 0x095, .imm32 v => some (.vbinsImm32 f v)
  | 0x09C, .imm32 v => some (.vcmpImm32 f v)
  | 0x09D, .imm32 v => some (.vselImm32 f v)
  | _, _ => none

/-- Class 0b01 (Table 3-12). -/
def build1 (op : Nat) (f : FForm) (l : Literal) : Option Instr :=
  match op, l with
  | 0x101, .none => some (.vfadd f)
  | 0x102, .none => some (.vfsub f)
  | 0x103, .none => some (.vfmul f)
  | 0x104, .none => some (.vfma f)
  | 0x105, .none => some (.vfmin f)
  | 0x106, .none => some (.vfmax f)
  | 0x107, .none => some (.vfabs f)
  | 0x108, .none => some (.vfcmp f)
  | 0x109, .none => some (.vfdiv f)
  | 0x10A, .none => some (.vfsqrt f)
  | 0x10B, .none => some (.vfrcp f)
  | 0x10C, .none => some (.vfrsq f)
  | 0x10D, .none => some (.vfexp2 f)
  | 0x10E, .none => some (.vflog2 f)
  | 0x10F, .none => some (.vfsin f)
  | 0x110, .none => some (.vfcos f)
  | 0x111, .none => some (.vftanh f)
  | 0x112, .none => some (.vfclass f)
  | 0x114, .none => some (.vpack f)
  | 0x116, .none => some (.vmov f)
  | 0x117, .none => some (.vmovk f)
  | 0x118, .none => some (.vperm f)
  | 0x119, .none => some (.vshfl f)
  | 0x11A, .none => some (.vlrot f)
  | 0x11D, .none => some (.vxchg f)
  | 0x153, .none => some (.vcvt f)
  | 0x155, .none => some (.vunpack f)
  | 0x156, .none => some (.vmovImm8 f)
  | 0x158, .none => some (.vpermImm8 f)
  | 0x159, .none => some (.vshflImm8 f)
  | 0x15A, .none => some (.vlrotImm8 f)
  | 0x15B, .none => some (.vscan f)
  | 0x15C, .none => some (.vred f)
  | 0x181, .imm32 v => some (.vfaddImm32 f v)
  | 0x182, .imm32 v => some (.vfsubImm32 f v)
  | 0x183, .imm32 v => some (.vfmulImm32 f v)
  | 0x184, .imm32 v => some (.vfmaImm32 f v)
  | 0x185, .imm32 v => some (.vfminImm32 f v)
  | 0x186, .imm32 v => some (.vfmaxImm32 f v)
  | 0x188, .imm32 v => some (.vfcmpImm32 f v)
  | 0x196, .imm32 v => some (.vmovImm32 f v)
  | _, _ => none

/-- Class 0b10 (Table 3-13). -/
def build2 (op : Nat) (f : FForm) (l : Literal) : Option Instr :=
  match op, l with
  | 0x201, .none => some (.vld f)
  | 0x202, .none => some (.vst f)
  | 0x203, .none => some (.kld f)
  | 0x204, .none => some (.kst f)
  | 0x205, .set v => some (.vatom f v)
  | 0x206, .set v => some (.vatomn f v)
  | 0x207, .set v => some (.vcas f v)
  | 0x208, .none => some (.fence f)
  | 0x209, .none => some (.facqRemote f)
  | 0x20A, .none => match f.rnd.toNat with | 0 => some (.pref f) | 1 => some (.prefL1 f) | _ => none
  | 0x20B, .none => some (.cwb f)
  | 0x20C, .none => some (.cinv f)
  | 0x20D, .set v => some (.xcopy f v)
  | 0x20E, .set v => some (.xgath f v)
  | 0x20F, .set v => some (.xcoll f v)
  | 0x210, .none => some (.xwait f)
  | 0x221, .imm32 v => some (.vldOffset f v)
  | 0x222, .imm32 v => some (.vstOffset f v)
  | 0x223, .imm32 v => some (.kldOffset f v)
  | 0x224, .imm32 v => some (.kstOffset f v)
  | 0x22A, .imm32 v => some (.prefOffset f v)
  | 0x240, .imm32 v => some (.abeg f v)
  | 0x241, .none => some (.acom f)
  | 0x242, .none => some (.aabt f)
  | 0x250, .set v => match f.rnd.toNat with | 0 => some (.xcast f v) | 1 => some (.xcastT f v) | _ => none
  | 0x251, .set v => some (.mma f v)
  | 0x252, .none => some (.mfence f)
  | 0x253, .none => some (.mwait f)
  | 0x254, .set v => some (.mpour f v)
  | 0x255, .none => some (.mzero f)
  | 0x256, .set v => some (.mload f v)
  | 0x260, .none => match f.rnd.toNat with | 0 => some (.qpop f) | 1 => some (.qpopTry f) | _ => none
  | 0x261, .none => some (.qpush f)
  | 0x262, .none => match f.rnd.toNat with | 0 => some (.qlenVb f) | 1 => some (.qlenVf f) | 2 => some (.qlenB f) | 3 => some (.qlenF f) | 4 => some (.qlenH f) | 5 => some (.qlenR f) | _ => none
  | 0x263, .none => some (.hpush f)
  | 0x264, .none => some (.hpop f)
  | 0x265, .none => some (.htry f)
  | 0x266, .none => some (.hallow f)
  | 0x267, .none => some (.launch f)
  | 0x268, .none => some (.cont f)
  | 0x269, .none => some (.evpost f)
  | 0x26A, .none => match f.rnd.toNat with | 0 => some (.evpop f) | 1 => some (.evpopWait f) | _ => none
  | 0x26B, .none => some (.ksig f)
  | 0x270, .set v => some (.tdef f v)
  | 0x271, .set v => match f.rnd.toNat with | 0 => some (.tpatch f v) | 1 => some (.tpatchAdd f v) | _ => none
  | 0x272, .set v => some (.tinv f v)
  | 0x273, .none => match f.rnd.toNat with | 1 => some (.hnewB f) | 2 => some (.hnewQ f) | 3 => some (.hnewJ f) | _ => none
  | 0x274, .none => some (.hdel f)
  | 0x275, .none => match f.rnd.toNat with | 0 => some (.preserve f) | 1 => some (.preserveRel f) | _ => none
  | 0x276, .none => some (.pcommit f)
  | 0x277, .none => some (.pfree f)
  | 0x278, .none => match f.rnd.toNat with | 0 => some (.tlbinv f) | 1 => some (.tlbinvAll f) | _ => none
  | 0x279, .none => some (.hmove f)
  | 0x280, .none => match f.rnd.toNat with | 0 => some (.barExpect f) | 1 => some (.barExpectN f) | _ => none
  | 0x281, .none => match f.rnd.toNat with | 0 => some (.barArrive f) | 1 => some (.barArriveX f) | _ => none
  | 0x282, .none => some (.barWait f)
  | 0x283, .none => some (.jwait f)
  | 0x284, .none => match f.rnd.toNat with | 0 => some (.jstat f) | 1 => some (.jstatS f) | _ => none
  | 0x290, .none => some (.ckpt f)
  | 0x291, .none => some (.ckstat f)
  | _, _ => none

/-- Class 0b11 (Table 3-14 and 3-15). -/
def build3 (op : Nat) (f : FForm) (l : Literal) : Option Instr :=
  match op, l with
  | 0x300, .none => some (.nop f)
  | 0x301, .none => some (.kadd f)
  | 0x302, .none => some (.ksub f)
  | 0x303, .none => some (.kmul f)
  | 0x304, .none => some (.kand f)
  | 0x305, .none => some (.kor f)
  | 0x306, .none => some (.kxor f)
  | 0x307, .none => some (.kshl f)
  | 0x308, .none => some (.kshr f)
  | 0x309, .none => some (.ksra f)
  | 0x30A, .none => some (.kmin f)
  | 0x30B, .none => some (.kmax f)
  | 0x30C, .none => some (.kmov f)
  | 0x30D, .none => some (.kcmp f)
  | 0x341, .none => some (.kaddImm8 f)
  | 0x342, .none => some (.ksubImm8 f)
  | 0x343, .none => some (.kmulImm8 f)
  | 0x344, .none => some (.kandImm8 f)
  | 0x345, .none => some (.korImm8 f)
  | 0x346, .none => some (.kxorImm8 f)
  | 0x347, .none => some (.kshlImm8 f)
  | 0x348, .none => some (.kshrImm8 f)
  | 0x349, .none => some (.ksraImm8 f)
  | 0x34A, .none => some (.kminImm8 f)
  | 0x34B, .none => some (.kmaxImm8 f)
  | 0x34C, .none => some (.kmovImm8 f)
  | 0x34D, .none => some (.kcmpImm8 f)
  | 0x381, .imm32 v => some (.kaddImm32 f v)
  | 0x382, .imm32 v => some (.ksubImm32 f v)
  | 0x383, .imm32 v => some (.kmulImm32 f v)
  | 0x384, .imm32 v => some (.kandImm32 f v)
  | 0x385, .imm32 v => some (.korImm32 f v)
  | 0x386, .imm32 v => some (.kxorImm32 f v)
  | 0x387, .imm32 v => some (.kshlImm32 f v)
  | 0x388, .imm32 v => some (.kshrImm32 f v)
  | 0x389, .imm32 v => some (.ksraImm32 f v)
  | 0x38A, .imm32 v => some (.kminImm32 f v)
  | 0x38B, .imm32 v => some (.kmaxImm32 f v)
  | 0x38C, .wide v => some (.kmovWide f v)
  | 0x38D, .imm32 v => some (.kcmpImm32 f v)
  | 0x3C0, .none => some (.bra f)
  | 0x3C1, .none => some (.call f)
  | 0x3C2, .none => some (.ret f)
  | 0x3C3, .none => some (.jmp f)
  | 0x3C4, .none => some (.jcall f)
  | 0x3C5, .none => some (.bcc f)
  | 0x3C6, .imm32 v => some (.bccLong f v)
  | 0x3C7, .none => some (.bany f)
  | 0x3C8, .none => some (.ball f)
  | 0x3D0, .imm32 v => some (.pfork f v)
  | 0x3D1, .none => some (.pjoin f)
  | 0x3D2, .none => some (.pyield f)
  | 0x3D8, .none => some (.mand f)
  | 0x3D9, .none => some (.mor f)
  | 0x3DA, .none => some (.mxor f)
  | 0x3DB, .none => some (.mandn f)
  | 0x3DC, .none => some (.mnot f)
  | 0x3DD, .none => some (.mmov f)
  | 0x3DE, .none => some (.mset f)
  | 0x3DF, .none => some (.mget f)
  | 0x3E0, .none => some (.mpopc f)
  | 0x3E1, .none => some (.mfirst f)
  | 0x3E8, .none => some (.kget f)
  | 0x3E9, .none => some (.ktime f)
  | 0x3EA, .none => some (.kmode f)
  | 0x3EB, .none => match f.rnd.toNat with | 0 => some (.kwmode f) | 1 => some (.kwmodeFlags f) | 2 => some (.kwmodeCtl f) | _ => none
  | 0x3EC, .none => some (.kgang f)
  | 0x3ED, .none => some (.kpair f)
  | 0x3EE, .none => some (.ksleep f)
  | 0x3EF, .none => some (.kwait f)
  | 0x3F0, .none => some (.trap f)
  | 0x3F1, .none => some (.brk f)
  | 0x3F2, .none => some (.eret f)
  | 0x3F3, .none => some (.gexit f)
  | 0x3F8, .none => some (.ksys f)
  | 0x3F9, .none => some (.kwsys f)
  | _, _ => none

/-- The literal word each opcode expects (R49); none where the opcode is unassigned (R61). -/
def litKindOf (op : Nat) : Option LitKind :=
  if [0x081, 0x082, 0x083, 0x084, 0x085, 0x086, 0x087, 0x089, 0x08A, 0x08C, 0x08D, 0x08E, 0x08F, 0x094, 0x095, 0x09C, 0x09D, 0x181, 0x182, 0x183, 0x184, 0x185, 0x186, 0x188, 0x196, 0x221, 0x222, 0x223, 0x224, 0x22A, 0x240, 0x381, 0x382, 0x383, 0x384, 0x385, 0x386, 0x387, 0x388, 0x389, 0x38A, 0x38B, 0x38D, 0x3C6, 0x3D0].contains op then some .imm32
  else if [0x38C].contains op then some .wide
  else if [0x205, 0x206, 0x207, 0x20D, 0x20E, 0x20F, 0x250, 0x251, 0x254, 0x256, 0x270, 0x271, 0x272].contains op then some .set
  else if [0x001, 0x002, 0x003, 0x004, 0x005, 0x006, 0x007, 0x008, 0x009, 0x00A, 0x00B, 0x00C, 0x00D, 0x00E, 0x00F, 0x010, 0x011, 0x012, 0x013, 0x014, 0x015, 0x016, 0x017, 0x018, 0x019, 0x01A, 0x01B, 0x01C, 0x01D, 0x01E, 0x041, 0x042, 0x043, 0x044, 0x045, 0x046, 0x047, 0x049, 0x04A, 0x04C, 0x04D, 0x04E, 0x04F, 0x050, 0x051, 0x052, 0x053, 0x05C, 0x05D, 0x05F, 0x101, 0x102, 0x103, 0x104, 0x105, 0x106, 0x107, 0x108, 0x109, 0x10A, 0x10B, 0x10C, 0x10D, 0x10E, 0x10F, 0x110, 0x111, 0x112, 0x114, 0x116, 0x117, 0x118, 0x119, 0x11A, 0x11D, 0x153, 0x155, 0x156, 0x158, 0x159, 0x15A, 0x15B, 0x15C, 0x201, 0x202, 0x203, 0x204, 0x208, 0x209, 0x20A, 0x20B, 0x20C, 0x210, 0x241, 0x242, 0x252, 0x253, 0x255, 0x260, 0x261, 0x262, 0x263, 0x264, 0x265, 0x266, 0x267, 0x268, 0x269, 0x26A, 0x26B, 0x273, 0x274, 0x275, 0x276, 0x277, 0x278, 0x279, 0x280, 0x281, 0x282, 0x283, 0x284, 0x290, 0x291, 0x300, 0x301, 0x302, 0x303, 0x304, 0x305, 0x306, 0x307, 0x308, 0x309, 0x30A, 0x30B, 0x30C, 0x30D, 0x341, 0x342, 0x343, 0x344, 0x345, 0x346, 0x347, 0x348, 0x349, 0x34A, 0x34B, 0x34C, 0x34D, 0x3C0, 0x3C1, 0x3C2, 0x3C3, 0x3C4, 0x3C5, 0x3C7, 0x3C8, 0x3D1, 0x3D2, 0x3D8, 0x3D9, 0x3DA, 0x3DB, 0x3DC, 0x3DD, 0x3DE, 0x3DF, 0x3E0, 0x3E1, 0x3E8, 0x3E9, 0x3EA, 0x3EB, 0x3EC, 0x3ED, 0x3EE, 0x3EF, 0x3F0, 0x3F1, 0x3F2, 0x3F3, 0x3F8, 0x3F9].contains op then some .none
  else none


/-- The instruction an opcode names, its fields and literal read (R61). -/
def buildInstr (op : Nat) (f : FForm) (l : Literal) : Option Instr :=
  match op / 256 with
  | 0 => build0 op f l
  | 1 => build1 op f l
  | 2 => build2 op f l
  | _ => build3 op f l

end

/-- Is this word a literal of the type expected (Table 3-6, R49)? -/
def literalFits (k : LitKind) (w : W64) : Bool :=
  bitsOf w 62 2 == 2 && (match k with
    | .none => false
    | .imm32 => bitsOf w 60 2 == 0
    | .wide => bitsOf w 60 2 == 1
    | .set => bitsOf w 60 2 == 2)

/-- The reserved bits of a literal word are zero (R48, R3). -/
def literalClean (k : LitKind) (w : W64) : Bool :=
  match k with
  | .imm32 => bitsOf w 32 28 == 0
  | .set => bitsOf w 24 4 == 0
  | _ => true

def literalRead (k : LitKind) (w : W64) : Literal :=
  match k with
  | .none => .none
  | .imm32 => .imm32 (bitsOf w 0 32)
  | .wide => .wide (bitsOf w 0 60)
  | .set => .set (setLitOf w)

/-- The literal word that the word `w` expects after it; `.none` where it expects none. -/
def wantsLiteral (w : W64) : LitKind :=
  if bitsOf w 62 2 == 0 then (litKindOf (bitsOf w 52 10).toNat).getD .none else .none

/-- An instruction that breaks none of the rules of orders 3 and 4. -/
def checked (i : Instr) : Except DecodeError Instr :=
  if !opcodeOk i then .error .illegalOpcode
  else if !pairRuleOk i then .error .illegalPair
  else .ok i

noncomputable section

/-- Decodes an F-form word with the word after it (R38, R49). -/
def decodeFull (w0 w1 : W64) : Except DecodeError Instr :=
  let op := (bitsOf w0 52 10).toNat
  match litKindOf op with
  | none => .error .illegalOpcode
  | some k =>
    if k != .none && !literalFits k w1 then .error .illegalWord
    else if !literalClean k w1 then .error .illegalOpcode
    else match buildInstr op (fformOf w0) (literalRead k w1) with
      | none => .error .illegalOpcode
      | some i => checked i

/-- Decodes the instruction that starts with `w0`; `w1` is the word at the next address, read only where `w0` expects a literal. -/
def decode (w0 w1 : W64) : Except DecodeError Instr :=
  match (bitsOf w0 62 2).toNat with
  | 0 => decodeFull w0 w1
  | 1 => match halfOf w0 31, halfOf w0 0 with
    | some h0, some h1 => checked (.pairWord h0 h1)
    | _, _ => .error .illegalOpcode
  | _ => .error .illegalWord

end

/-- A little-endian 8-byte word (R7) at the head of a byte list; bytes past the end read as zero. -/
def wordOfBytes (bs : List Byte) : W64 :=
  BitVec.ofNat 64 ((bs.take 8).foldr (fun b n => b.toNat + 256 * n) 0)

noncomputable section

/-- Decoding bytes: the instruction and the bytes after it. -/
def decodeBytes (bs : List Byte) : Except DecodeError (Instr × List Byte) :=
  match decode (wordOfBytes bs) (wordOfBytes (bs.drop 8)) with
  | .ok i => .ok (i, bs.drop (8 * wordCount i))
  | .error e => .error e

end

/-- The 8 bytes of a word, lowest address first. -/
def bytesOfWord (w : W64) : List Byte := (List.range 8).map fun k => bitsOf w (8 * k) 8

/-! ### The encoder -/

/-- An F-form word (Table 3-2). -/
def fformWord (op : Nat) (f : FForm) : W64 :=
  (0#2 ++ BitVec.ofNat 10 op ++ f.stall ++ f.pred ++ f.rnd ++ f.d ++ f.a ++ f.b ++ BitVec.ofBool f.lra ++ BitVec.ofBool f.lrb
    ++ BitVec.ofBool f.lrd ++ f.bsel ++ BitVec.ofBool f.bfirst ++ f.blane ++ BitVec.ofBool f.nega ++ BitVec.ofBool f.negb ++ f.xf : BitVec 64)

/-- A literal word (Tables 3-6 and 3-7). -/
def literalWord : Literal → List W64
  | .none => []
  | .imm32 v => [(2#2 ++ 0#2 ++ 0#28 ++ v : BitVec 64)]
  | .wide v => [(2#2 ++ 1#2 ++ v : BitVec 64)]
  | .set l => [(2#2 ++ 2#2 ++ l.t1 ++ l.t2 ++ 0#4 ++ l.x ++ l.y ++ l.p1 ++ l.p2 : BitVec 64)]

/-- Table 3-16, the other way. -/
def pairCode : PairOp → BitVec 7
  | .pnop => 0x00
  | .vadd => 0x01
  | .vsub => 0x02
  | .vaddsat => 0x03
  | .vsubsat => 0x04
  | .vmul => 0x05
  | .vmin => 0x06
  | .vmax => 0x07
  | .vand => 0x08
  | .vor => 0x09
  | .vxor => 0x0A
  | .vandn => 0x0B
  | .vshl => 0x0C
  | .vshr => 0x0D
  | .vsra => 0x0E
  | .vmov => 0x0F
  | .vaddImm => 0x11
  | .vsubImm => 0x12
  | .vandImm => 0x18
  | .vshlImm => 0x1C
  | .vshrImm => 0x1D
  | .vsraImm => 0x1E
  | .vmovImm => 0x1F
  | .vfadd => 0x21
  | .vfsub => 0x22
  | .vfmul => 0x23
  | .vfmin => 0x25
  | .vfmax => 0x26

def halfBits (h : PHalf) : BitVec 31 :=
  pairCode h.op ++ h.stall ++ h.pred ++ h.d ++ h.s ++ BitVec.ofBool h.lrs ++ BitVec.ofBool h.lrd ++ h.xf2

/-- The words of an instruction, the first at the lower address; none for a step that is no instruction. -/
def encode (i : Instr) : List W64 :=
  match i with
  | .pairWord h0 h1 => [(1#2 ++ halfBits h0 ++ halfBits h1 : BitVec 64)]
  | i => match shape i with
    | some s => fformWord s.op (fieldsOf i) :: literalWord (literalOf i)
    | none => []

/-! ### Table words -/

noncomputable section

/-- The instruction the decoder reads from `nbits` bits of `w`, bit 0 of the first word being bit 0; the bits above are zero. -/
def decodeTableWord (nbits w : Nat) : Option Instr :=
  let v := w % 2 ^ nbits
  match decode (BitVec.ofNat 64 v) (BitVec.ofNat 64 (v / 2 ^ 64)) with
  | .ok i => some i
  | .error _ => none

end

end Sys2Proof
end

