-- ==== Sys2Proof/Config.lean ====
section
/-! DEFINITION. What the spec fixes for the whole device (Tables 1-1, 1-2, R168, R183) and the free values: opaque constants that no proof can evaluate. -/

namespace Sys2Proof.Config

/-- FREE VALUE: the n-th value the spec leaves open and the machine still goes on with (log 6). -/
opaque freeWord : Nat → BitVec 64

/-- FREE VALUE: the n-th byte of a string whose contents the spec leaves open, such as a certificate or a signature of R410 (log 6). -/
opaque freeByte : Nat → BitVec 8

/-- FREE VALUE: stands for a correctly rounded transcendental that the model's enclosures did not separate (log 15); `code` numbers the function and `a` is the operand's encoding. -/
opaque freeRounding : (code : Nat) → (a : Nat) → BitVec 64

/-- FREE VALUE: does the host's translation service translate a host frame before any page request for it (R192, log 81)? -/
opaque hostTranslates : (frame : Nat) → Bool

/-- FREE VALUE: the WEIGHT of a stage of a peer, by the peer's number and the queue that feeds the stage: its header is the peer's (R330; log 92). -/
opaque remoteWeight : (peer queue : Nat) → Nat

/-- FREE VALUE: how word 3 of a barrier's entry names the group at the head of its waiter list (R389; log 99). -/
opaque waiterHead : (uid : Nat) → BitVec 64

/-- FREE VALUE: the bytes of the device's certificate chain, which the spec leaves to its maker (R410; log 18). -/
opaque certificate : List (BitVec 8)

/-- FREE VALUE: the on-die location of the root of a partition's metadata (R378; log 93). -/
opaque rootAt : (partition : Nat) → BitVec 64

/-- FREE VALUE: the fused minimum of an image's security version (R409; log 94). -/
opaque fusedMinimum : Nat

def lanes : Nat := 32
def cores : Nat := 128
def quadrants : Nat := 512
def clusters : Nat := 16
def groupSlotsPerCore : Nat := 192
def groupSlotsPerQuadrant : Nat := 48
def blockSlotsPerCore : Nat := 32
def bankRegisters : Nat := 512
def accTilesPerQuadrant : Nat := 8
def tlbEntries : Nat := 2048
def l1Lines : Nat := 2048
/-- R12: the sets of an L2 slice, and their ways. -/
def l2Sets : Nat := 1536
def l2Ways : Nat := 16
/-- R11: the instruction cache of a core, 128 KiB, in lines. -/
def icacheLines : Nat := 1024
/-- R10: the UFL ports of the package. -/
def ports : Nat := 18
def partitions : Nat := 40
def contexts : Nat := 8

/-- R183: local HBM occupies 0 to 0x0060_0000_0000 - 1. -/
def hbmBytes : Nat := 0x6000000000
/-- R183: the first 192 GiB lie on FD0. -/
def dieBytes : Nat := 0x3000000000
/-- R168: a 64 KiB page, and a 32 MiB large page. -/
def pageBytes : Nat := 0x10000
def largePageBytes : Nat := 0x2000000
/-- R168: a context's virtual space. -/
def vaBytes : Nat := 2 ^ 56
/-- R178, R193: the cache line and the protection tile. -/
def lineBytes : Nat := 128
def tileBytes : Nat := 4096
/-- R174: a core's scratchpad, and the region of one of its quadrants. -/
def spadBytes : Nat := 786432
def spadRegion : Nat := 196608
/-- R172: the window of one core in the on-chip map. -/
def coreWindow : Nat := 0x1000000
/-- R176: the scratchpad aperture. -/
def apertureBase : Nat := 0x00FF000000000000
def apertureEnd : Nat := 0x00FF000000800000
/-- R283: the bytes of a cast tile. -/
def castTileBytes : Nat := 16640
/-- R323: a window is 32 network cycles, which is 16 ns. -/
def windowNs : Nat := 16
/-- R207: the reserve of tile versions begins here. -/
def versionReserve : Nat := 2 ^ 48 - 2 ^ 20
/-- R358, R363: the bytes of a context's catalogue and of its handle table. -/
def catalogueBytes : Nat := 262144
def handleTableBytes : Nat := 32768
/-- R303: the bytes of a group save record. -/
def saveRecordBytes : Nat := 212992
/-- R338: dockets of a cluster event queue. -/
def eventQueueDepth : Nat := 1024

end Sys2Proof.Config
end

