-- ==== Sys2Proof/Machine/Num.lean ====
section
/-! DEFINITION. Number formats (R78 to R93): exact values, the one rounding rule of R80 and R81 over every format, NaN results, and the flags of R83. -/

namespace Sys2Proof.Machine

open Sys2Proof

/-! ### MODE fields (Table 6-2) and sticky flags -/

def modeSat (m : W64) : Bool := m.getLsbD 6
def modeNan (m : W64) : Bool := m.getLsbD 7
def modeFlush (m : W64) : Bool := m.getLsbD 8
def modeSchk (m : W64) : Bool := m.getLsbD 9
def modeUtrap (m : W64) : Bool := m.getLsbD 10
def modeRnd (m : W64) : Nat := (m.extractLsb' 3 3).toNat
def modeAge (m : W64) : Nat := (m.extractLsb' 16 16).toNat
def modeSeed (m : W64) : W32 := m.extractLsb' 32 32

def flagNV : W64 := 0x8000
def flagDZ : W64 := 0x4000
def flagOF : W64 := 0x2000
def flagUF : W64 := 0x1000
def flagNX : W64 := 0x0800

/-- R41: RND 0 reads MODE.RND, and a MODE.RND of 0 means nearest, ties to even. -/
def roundingMode (rnd : Nat) (mode : W64) : Nat :=
  if rnd ≠ 0 then rnd else if modeRnd mode = 0 then 1 else modeRnd mode

/-! ### Exact magnitudes -/

/-- A nonnegative rational num / den, not reduced; den is never 0. -/
structure Mag where
  num : Nat
  den : Nat := 1
  deriving DecidableEq, Repr

def Mag.lt (x y : Mag) : Bool := x.num * y.den < y.num * x.den
def Mag.le (x y : Mag) : Bool := x.num * y.den ≤ y.num * x.den
def Mag.mul (x y : Mag) : Mag := ⟨x.num * y.num, x.den * y.den⟩
def Mag.div (x y : Mag) : Mag := ⟨x.num * y.den, x.den * y.num⟩

/-- m × 2^e. -/
def Mag.scale (x : Mag) (e : Int) : Mag :=
  if 0 ≤ e then ⟨x.num <<< e.toNat, x.den⟩ else ⟨x.num, x.den <<< (-e).toNat⟩

/-- floor(log2 x) of a nonzero magnitude. -/
def Mag.log2 (x : Mag) : Int :=
  let k : Int := (x.num.log2 : Int) - (x.den.log2 : Int)
  let ge : Bool := if 0 ≤ k then x.den <<< k.toNat ≤ x.num else x.den ≤ x.num <<< (-k).toNat
  if ge then k else k - 1

/-- A signed exact value. -/
structure Real where
  neg : Bool
  mag : Mag
  deriving DecidableEq, Repr

def Real.isZero (x : Real) : Bool := x.mag.num == 0
def Real.mul (x y : Real) : Real := ⟨x.neg != y.neg, x.mag.mul y.mag⟩
def Real.neg' (x : Real) : Real := ⟨!x.neg, x.mag⟩

/-- The value as a signed numerator over `mag.den`. -/
def Real.signed (x : Real) : Int := if x.neg then -(x.mag.num : Int) else x.mag.num

/-- Exact sum; a zero sum is given the sign of R80: that of two zeros of one sign, else + (− toward −∞). -/
def Real.add (rm : Nat) (x y : Real) : Real :=
  let n : Int := x.signed * y.mag.den + y.signed * x.mag.den
  if n = 0 then
    ⟨if x.isZero && y.isZero && x.neg == y.neg then x.neg else rm == 4, ⟨0, 1⟩⟩
  else ⟨n < 0, ⟨n.natAbs, x.mag.den * y.mag.den⟩⟩

def Real.lt (x y : Real) : Bool := x.signed * y.mag.den < y.signed * x.mag.den

/-- The exact value of an integer. -/
def Real.ofInt (z : Int) : Real := ⟨z < 0, ⟨z.natAbs, 1⟩⟩

/-! ### Formats -/

/-- A binary format: exponent and fraction bits, the code of the largest finite magnitude, and whether the code after it is an infinity. -/
structure BinFmt where
  eb : Nat
  mb : Nat
  top : Nat
  inf : Bool := false
  deriving DecidableEq, Repr

/-- Tables 5-1 and 5-5. -/
def binFmt : ElemType → Option BinFmt
  | .f64 => some ⟨11, 52, 0x7FEFFFFFFFFFFFFF, true⟩
  | .f32 => some ⟨8, 23, 0x7F7FFFFF, true⟩
  | .f16 => some ⟨5, 10, 0x7BFF, true⟩
  | .bf16 => some ⟨8, 7, 0x7F7F, true⟩
  | .e4m3 => some ⟨4, 3, 0x7E, false⟩
  | .e5m2 => some ⟨5, 2, 0x7B, true⟩
  | .e3m2 => some ⟨3, 2, 0x1F, false⟩
  | .e2m3 => some ⟨2, 3, 0x1F, false⟩
  | .e2m1 => some ⟨2, 1, 0x7, false⟩
  | _ => none

def BinFmt.bias (f : BinFmt) : Nat := 2 ^ (f.eb - 1) - 1
/-- The exponent of the smallest normal. -/
def BinFmt.emin (f : BinFmt) : Int := 1 - (f.bias : Int)
def BinFmt.signBit (f : BinFmt) : Nat := 2 ^ (f.eb + f.mb)
/-- The code of +∞. -/
def BinFmt.infCode (f : BinFmt) : Nat := f.top + 1
/-- The canonical NaN (Table 5-1; R90 for the MX formats that have one). -/
def BinFmt.nanCode (f : BinFmt) : Nat := if f.inf then f.infCode + 2 ^ (f.mb - 1) else f.top + 1

/-- The magnitude that a magnitude code stands for (Table 5-1). -/
def BinFmt.value (f : BinFmt) (code : Nat) : Mag :=
  let e := code / 2 ^ f.mb
  let m := code % 2 ^ f.mb
  if e = 0 then (⟨m, 1⟩ : Mag).scale (f.emin - f.mb) else (⟨m + 2 ^ f.mb, 1⟩ : Mag).scale ((e : Int) - f.bias - f.mb)

/-- The run length of the low `k` bits of a DF8 code, from bit `k - 1` down, of bits equal to `v` (R86). -/
def df8Run (b : Nat) (v : Nat) : Nat → Nat
  | 0 => 0
  | k + 1 => if b / 2 ^ k % 2 = v then 1 + df8Run b v k else 0

/-- The magnitude of DF8 codes 0x01 to 0x7E (R86). -/
def df8Value (code : Nat) : Mag :=
  let b := code % 128
  let v := b / 64
  let n := min 6 (df8Run b v 7)
  let fb := 6 - n
  let m := 2 ^ fb + 9 * (b % 2 ^ fb)
  if b = 0 then ⟨0, 1⟩ else if v = 1 then ⟨m * 10 ^ (n - 1), 2 ^ fb⟩ else ⟨m, 2 ^ fb * 10 ^ n⟩

/-- The greatest DF8 code at or below `k` whose magnitude does not exceed x. -/
def df8Floor (x : Mag) : Nat → Nat
  | 0 => 0
  | k + 1 => if (df8Value (k + 1)).le x then k + 1 else df8Floor x k

/-- Where x lies in the ordered codes of a format, exponents unbounded above: at `code + rem / den`. -/
structure Place where
  code : Nat
  rem : Nat
  den : Nat
  deriving DecidableEq, Repr

/-- The place of a magnitude among the codes of a format (R80). A `.mxi8` code is the integer value × 2^6 (R90). -/
def placeOf (t : ElemType) (x : Mag) : Place :=
  if x.num = 0 then ⟨0, 0, 1⟩
  else match binFmt t with
    | some f =>
      let e := max x.log2 f.emin
      let y := x.scale ((f.mb : Int) - e)
      ⟨(e - f.emin).toNat * 2 ^ f.mb + y.num / y.den, y.num % y.den, y.den⟩
    | none =>
      if t = .df8 then
        let c := df8Floor x 0x7E
        if c = 0x7E then ⟨c, if x.le (df8Value c) then 0 else 1, 2⟩
        else
          let lo := df8Value c
          let hi := df8Value (c + 1)
          -- (x - lo) / (hi - lo), over the common denominator x.den * lo.den * hi.den
          ⟨c, (x.num * lo.den - lo.num * x.den) * hi.den, (hi.num * lo.den - lo.num * hi.den) * x.den⟩
      else ⟨x.num * 64 / x.den, x.num * 64 % x.den, x.den⟩

/-- The code of the largest finite magnitude. -/
def topCode (t : ElemType) : Nat :=
  match binFmt t with
  | some f => f.top
  | none => if t = .df8 then 0x7E else 127

/-- The encoding of a sign and magnitude code; DF8 has no negative zero (R80), `.mxi8` is two's complement. -/
def encodeMag (t : ElemType) (neg : Bool) (code : Nat) : Nat :=
  match binFmt t with
  | some f => if neg then code + f.signBit else code
  | none => if t = .df8 then (if code = 0 then 0 else if neg then code + 128 else code)
            else if neg then (256 - code) % 256 else code

/-- Table 5-2: is hi chosen over lo? `sticky` says that the exact value lies a little above the place. -/
def takeHi (rm : Nat) (neg : Bool) (p : Place) (sticky : Bool) (g : Nat) : Bool :=
  let above := p.den < 2 * p.rem || (p.den == 2 * p.rem && sticky)
  let tie := p.den == 2 * p.rem && !sticky
  match rm with
  | 1 => above || (tie && p.code % 2 == 1)
  | 2 => false
  | 3 => !neg
  | 4 => neg
  | 5 => above || tie
  | 6 => g * p.den < p.rem <<< 32 || (sticky && g * p.den == p.rem <<< 32)
  | _ => p.code % 2 == 0

/-- A rounded element: its encoding, the flags raised, and whether the exact result was tiny (R83). -/
structure FRes where
  bits : Nat
  flags : W64 := 0
  tiny : Bool := false
  deriving DecidableEq, Repr

/-- R81, R90: the result of an overflow. -/
def overflowCode (t : ElemType) (neg : Bool) (rm : Nat) (mode : W64) : Nat :=
  let top := encodeMag t neg (topCode t)
  match t with
  | .e3m2 | .e2m3 | .e2m1 | .mxi8 => top
  | .e4m3 => if modeSat mode then top else if modeNan mode then 0x7F else if neg then 0xFF else 0x7F
  | .df8 => if modeSat mode then top else if neg then 0xFF else 0x7F
  | _ =>
    if modeSat mode then top
    else if rm == 1 || rm == 5 || rm == 6 || (rm == 3 && !neg) || (rm == 4 && neg) then encodeMag t neg (topCode t + 1)
    else top

/-- R83, R87: is a nonzero magnitude below the smallest normal of the format? -/
def isTiny (t : ElemType) (x : Mag) : Bool :=
  x.num != 0 && (match binFmt t with
    | some f => x.log2 < f.emin
    | none => t == .df8 && x.lt ⟨1, 1000000⟩)

/-- R80, R81, R83: rounds an exact value to a format. `g` is the lane's draw in mode 6. -/
def roundTo (t : ElemType) (x : Real) (sticky : Bool) (rm g : Nat) (mode : W64) : FRes :=
  if x.mag.num = 0 && !sticky then ⟨encodeMag t x.neg 0, 0, false⟩
  else
    let p := placeOf t x.mag
    let inexact := p.rem != 0 || sticky
    let hi := inexact && takeHi rm x.neg p sticky g
    let tiny := isTiny t x.mag || (x.mag.num == 0 && sticky)
    if topCode t < p.code || (p.code == topCode t && inexact && (t == .df8 || hi)) then
      ⟨overflowCode t x.neg rm mode, flagOF ||| flagNX, false⟩
    else if inexact then
      ⟨encodeMag t x.neg (if hi then p.code + 1 else p.code), if tiny then flagUF ||| flagNX else flagNX, tiny⟩
    else ⟨encodeMag t x.neg p.code, 0, tiny⟩

/-! ### Reading encodings -/

/-- What an encoding stands for. `frac` is the fraction field of a NaN. -/
inductive FVal where
  | nan (signalling neg : Bool) (frac : Nat)
  | inf (neg : Bool)
  | fin (x : Real)
  deriving DecidableEq, Repr

/-- The datum of a floating-point, DF8 or MX encoding (R79, R86, R88, R42). -/
def readFp (t : ElemType) (bits : Nat) : FVal :=
  match binFmt t with
  | some f =>
    let mag := bits % f.signBit
    let neg := bits / f.signBit % 2 == 1
    if mag ≤ f.top then .fin ⟨neg, f.value mag⟩
    else if f.inf && mag == f.infCode then .inf neg
    else .nan (f.inf && mag / 2 ^ (f.mb - 1) % 2 == 0) neg (mag % 2 ^ f.mb)
  | none =>
    if t = .df8 then
      let b := bits % 256
      if b = 0x80 then .nan false false 0
      else if b % 128 = 0x7F then .inf (b == 0xFF)
      else .fin ⟨128 ≤ b, df8Value b⟩
    else
      let b := bits % 256
      .fin ⟨128 ≤ b, ⟨if 128 ≤ b then 256 - b else b, 64⟩⟩

/-- FP32 and FP64 alone flush or take the assist (R93). -/
def wideFp (t : ElemType) : Bool := t == .f32 || t == .f64

/-- Reads an operand under MODE.WSUB: FLUSH reads FP32 and FP64 subnormals as zero of their sign (R93). -/
def readMode (t : ElemType) (mode : W64) (bits : Nat) : FVal :=
  match readFp t bits with
  | .fin x => if modeFlush mode && wideFp t && isTiny t x.mag then .fin ⟨x.neg, ⟨0, 1⟩⟩ else .fin x
  | v => v

def FVal.isNan : FVal → Bool
  | .nan .. => true
  | _ => false

def FVal.isSnan : FVal → Bool
  | .nan s .. => s
  | _ => false

def FVal.isInf : FVal → Bool
  | .inf _ => true
  | _ => false

def FVal.isZero : FVal → Bool
  | .fin x => x.isZero
  | _ => false

def FVal.sign : FVal → Bool
  | .nan _ n _ => n
  | .inf n => n
  | .fin x => x.neg

/-- The encoding of an infinity in an IEEE format. -/
def infBits (t : ElemType) (neg : Bool) : Nat :=
  match binFmt t with
  | some f => encodeMag t neg f.infCode
  | none => 0

/-- The canonical NaN of a format; formats without a NaN take +0 (R90). -/
def canonNan (t : ElemType) : Nat :=
  match t with
  | .df8 => 0x80
  | .e3m2 | .e2m3 | .e2m1 | .mxi8 => 0
  | _ => match binFmt t with
    | some f => f.nanCode
    | none => 0

/-- R82: the NaN that results from operands, in the order A, B, D, each with its own format. Under MODE.NAN = 0 it is the positive canonical NaN of the result format, for the DF8 formats as for those R87 names (DESIGN CHOICE, log 101). -/
def nanResult (t : ElemType) (mode : W64) (ops : List (ElemType × FVal)) : Nat :=
  match ops.find? (fun o => o.2.isNan) with
  | some (st, .nan _ neg frac) =>
    if modeNan mode || t == .df8 || st == .df8 || canonNan t == 0 then canonNan t
    else match binFmt t, binFmt st with
      | some f, some sf =>
        if t == .e4m3 then (if neg then 0xFF else 0x7F)
        else
          let p := if sf.mb ≤ f.mb then frac * 2 ^ (f.mb - sf.mb) else frac / 2 ^ (sf.mb - f.mb)
          encodeMag t neg (f.infCode + (p ||| 2 ^ (f.mb - 1)))
      | _, _ => canonNan t
  | _ => canonNan t

/-- An invalid operation on `ops` (R82, R83). -/
def invalid (t : ElemType) (mode : W64) (ops : List FVal) : FRes :=
  ⟨nanResult t mode (ops.map fun v => (t, v)), flagNV, false⟩

/-- The result where some operand is a NaN: invalid if one is signalling. -/
def nanOut (t : ElemType) (mode : W64) (ops : List FVal) : FRes :=
  ⟨nanResult t mode (ops.map fun v => (t, v)), if ops.any FVal.isSnan then flagNV else 0, false⟩

/-- The rounding path of R128 for an exact finite result: FLUSH zeroes a tiny FP32 or FP64 result, otherwise Round; `tiny` is what ASSIST acts on. -/
def finishFp (t : ElemType) (x : Real) (sticky : Bool) (rm g : Nat) (mode : W64) : FRes :=
  let tiny := wideFp t && (isTiny t x.mag || (x.mag.num == 0 && sticky))
  if tiny && modeFlush mode then ⟨encodeMag t x.neg 0, flagUF ||| flagNX, false⟩
  else { roundTo t x sticky rm g mode with tiny := tiny }

/-! ### Arithmetic (R127 to R129) -/

def fpNegate : FVal → FVal
  | .nan s n f => .nan s n f
  | .inf n => .inf (!n)
  | .fin x => .fin x.neg'

/-- Exact a + b. -/
def fpAdd (t : ElemType) (rm g : Nat) (mode : W64) (ops : List FVal) (a b : FVal) : FRes :=
  match a, b with
  | .inf x, .inf y => if x == y then ⟨infBits t x, 0, false⟩ else invalid t mode ops
  | .inf x, _ => ⟨infBits t x, 0, false⟩
  | _, .inf y => ⟨infBits t y, 0, false⟩
  | .fin x, .fin y => finishFp t (Real.add rm x y) false rm g mode
  | _, _ => nanOut t mode ops

/-- Exact a × b, an infinity included. -/
def fpProduct (a b : FVal) : FVal :=
  match a, b with
  | .fin x, .fin y => .fin (x.mul y)
  | a, b => .inf (a.sign != b.sign)

def zeroTimesInf (a b : FVal) : Bool := (a.isZero && b.isInf) || (a.isInf && b.isZero)

/-- Integer square root by bisection on the bits, from bit `k` down. -/
def isqrtFrom (n : Nat) : Nat → Nat → Nat
  | 0, r => r
  | k + 1, r => let r' := r + 2 ^ k; isqrtFrom n k (if r' * r' ≤ n then r' else r)

def isqrt (n : Nat) : Nat := isqrtFrom n (n.log2 / 2 + 1) 0

/-- √x to 64 bits or more below the last bit of any format, with whether it is inexact. -/
def sqrtMag (x : Mag) : Mag × Bool :=
  -- √(n/d) = √(n·d) / d, scaled by 2^k
  let m := x.num * x.den
  let k := 160 + x.den.log2
  let s := m <<< (2 * k)
  let r := isqrt s
  (⟨r, x.den <<< k⟩, r * r != s)

/-- The operations of Table 7-5 that round. -/
inductive FOp where
  | add | sub | mul | fma | div | sqrt
  deriving DecidableEq, Repr

/-- One element of a rounding instruction (R128); `d` is read by `fma` only. -/
def fpOp (op : FOp) (t : ElemType) (rm g : Nat) (mode : W64) (ab bb db : Nat) : FRes :=
  let a := readMode t mode ab
  let b := readMode t mode bb
  let d := readMode t mode db
  match op with
  | .add => if a.isNan || b.isNan then nanOut t mode [a, b] else fpAdd t rm g mode [a, b] a b
  | .sub => if a.isNan || b.isNan then nanOut t mode [a, b] else fpAdd t rm g mode [a, b] a (fpNegate b)
  | .mul =>
    if a.isNan || b.isNan then nanOut t mode [a, b]
    else if zeroTimesInf a b then invalid t mode [a, b]
    else match fpProduct a b with
      | .fin x => finishFp t x false rm g mode
      | v => ⟨infBits t v.sign, 0, false⟩
  | .fma =>
    if a.isNan || b.isNan || d.isNan then
      let r := nanOut t mode [a, b, d]
      if zeroTimesInf a b then { r with flags := r.flags ||| flagNV } else r
    else if zeroTimesInf a b then invalid t mode [a, b, d]
    else fpAdd t rm g mode [a, b, d] (fpProduct a b) d
  | .div =>
    if a.isNan || b.isNan then nanOut t mode [a, b]
    else
      let neg := a.sign != b.sign
      match a, b with
      | .inf _, .inf _ => invalid t mode [a, b]
      | .inf _, _ => ⟨infBits t neg, 0, false⟩
      | _, .inf _ => ⟨encodeMag t neg 0, 0, false⟩
      | .fin x, .fin y =>
        if y.isZero then (if x.isZero then invalid t mode [a, b] else ⟨infBits t neg, flagDZ, false⟩)
        else finishFp t ⟨neg, x.mag.div y.mag⟩ false rm g mode
      | _, _ => nanOut t mode [a, b]
  | .sqrt =>
    match a with
    | .nan .. => nanOut t mode [a]
    | .inf n => if n then invalid t mode [a] else ⟨infBits t false, 0, false⟩
    | .fin x =>
      if x.isZero then ⟨encodeMag t x.neg 0, 0, false⟩
      else if x.neg then invalid t mode [a]
      else let (r, s) := sqrtMag x.mag; finishFp t ⟨false, r⟩ s rm g mode

/-- minimumNumber and maximumNumber (R128): −0 below +0, one NaN gives the other operand. -/
def fpMinMax (isMax : Bool) (t : ElemType) (mode : W64) (ab bb : Nat) : FRes :=
  let a := readMode t mode ab
  let b := readMode t mode bb
  let flags := if a.isSnan || b.isSnan then flagNV else 0
  if a.isNan && b.isNan then nanOut t mode [a, b]
  else
    let less : Bool := match a, b with
      | .inf n, .inf m => n && !m
      | .inf n, .fin _ => n
      | .fin _, .inf m => !m
      | .fin x, .fin y => x.lt y || (x.isZero && y.isZero && x.neg && !y.neg)
      | _, _ => false
    let same : Bool := match a, b with
      | .inf n, .inf m => n == m
      | .fin x, .fin y => !x.lt y && !y.lt x && (!x.isZero || x.neg == y.neg)
      | _, _ => false
    let pickB := a.isNan || (!b.isNan && !same && (if isMax then less else !less))
    let v := if pickB then b else a
    let raw := if pickB then bb else ab
    match v with
    | .fin x => ⟨if x.isZero then encodeMag t x.neg 0 else raw % 2 ^ elemWidth t, flags, wideFp t && isTiny t x.mag⟩
    | _ => ⟨raw % 2 ^ elemWidth t, flags, false⟩

/-- R129: `vfabs`. -/
def fpAbs (t : ElemType) (mode : W64) (ab : Nat) : FRes :=
  match readMode t mode ab with
  | .fin x => ⟨if x.isZero then 0 else ab % 2 ^ (elemWidth t - 1), 0, wideFp t && isTiny t x.mag⟩
  | _ => ⟨ab % 2 ^ (elemWidth t - 1), 0, false⟩

/-- R43, R130: a floating-point condition and its flags. -/
def fpCompare (c : Nat) (t : ElemType) (mode : W64) (ab bb : Nat) : Bool × W64 :=
  let a := readMode t mode ab
  let b := readMode t mode bb
  let nan := a.isNan || b.isNan
  let flags := if a.isSnan || b.isSnan || (nan && 2 ≤ c && c ≤ 5) then flagNV else 0
  let lt (x y : FVal) : Bool := match x, y with
    | .inf n, .inf m => n && !m
    | .inf n, _ => n
    | _, .inf m => !m
    | .fin x, .fin y => x.lt y
    | _, _ => false
  let r := match c with
    | 0 => !nan && !lt a b && !lt b a
    | 1 => nan || lt a b || lt b a
    | 2 => !nan && lt a b
    | 3 => !nan && !lt b a
    | 4 => !nan && lt b a
    | 5 => !nan && !lt a b
    | 6 => !nan
    | _ => nan
  (r, flags)

/-- R132: the class bit, read from the encoding. -/
def fpClass (t : ElemType) (ab : Nat) : Nat :=
  match readFp t ab with
  | .nan s _ _ => if s then 2 ^ 0 else 2 ^ 1
  | .inf n => if n then 2 ^ 2 else 2 ^ 9
  | .fin x =>
    if x.isZero then (if x.neg then 2 ^ 5 else 2 ^ 6)
    else if isTiny t x.mag then (if x.neg then 2 ^ 4 else 2 ^ 7)
    else if x.neg then 2 ^ 3 else 2 ^ 8

/-! ### Integers and conversions (R78, R84, R87, R90, Table 7-8) -/

/-- MIN(t) and MAX(t). -/
def intMin (t : ElemType) : Int := if elemSigned t then -(2 ^ (elemWidth t - 1) : Nat) else 0
def intMax (t : ElemType) : Int := if elemSigned t then (2 ^ (elemWidth t - 1) : Nat) - 1 else (2 ^ elemWidth t : Nat) - 1

/-- The integer a `w`-bit pattern stands for under the signedness of t. -/
def intOf (t : ElemType) (bits : Nat) : Int :=
  let b := bits % 2 ^ elemWidth t
  if elemSigned t && 2 ^ (elemWidth t - 1) ≤ b then (b : Int) - (2 ^ elemWidth t : Nat) else b

/-- The low w bits of the two's-complement form. -/
def intBits (t : ElemType) (x : Int) : Nat := (x % (2 ^ elemWidth t : Nat)).toNat

def clampInt (t : ElemType) (x : Int) : Int := min (max x (intMin t)) (intMax t)

/-- R78: a conversion between integer types. -/
def intConvert (dt st : ElemType) (mode : W64) (bits : Nat) : Nat :=
  let v := intOf st bits
  intBits dt (if modeSat mode then clampInt dt v else v)

/-- R84: a finite value to an integer type. -/
def toIntType (dt : ElemType) (x : Real) (rm g : Nat) : FRes :=
  let p : Place := ⟨x.mag.num / x.mag.den, x.mag.num % x.mag.den, x.mag.den⟩
  let m := if p.rem ≠ 0 && takeHi rm x.neg p false g then p.code + 1 else p.code
  let v : Int := if x.neg then -(m : Int) else m
  if v < intMin dt then ⟨intBits dt (intMin dt), flagNV, false⟩
  else if intMax dt < v then ⟨intBits dt (intMax dt), flagNV, false⟩
  else ⟨intBits dt v, if p.rem ≠ 0 then flagNX else 0, false⟩

/-- R87, R90: an infinity converted to a format. -/
def infConvert (dt : ElemType) (neg : Bool) (mode : W64) : FRes :=
  match dt with
  | .df8 => ⟨if neg then 0xFF else 0x7F, 0, false⟩
  | .e4m3 => ⟨if modeSat mode then encodeMag dt neg 0x7E else if modeNan mode then 0x7F else encodeMag dt neg 0x7F, flagNV, false⟩
  | .e3m2 | .e2m3 | .e2m1 | .mxi8 => ⟨encodeMag dt neg (topCode dt), flagNV, false⟩
  | _ => ⟨infBits dt neg, 0, false⟩

/-- Table 7-8: one element from type st to type dt. -/
def convertElem (dt st : ElemType) (rm g : Nat) (mode : W64) (bits : Nat) : FRes :=
  if elemInt st then
    if elemInt dt then ⟨intConvert dt st mode bits, 0, false⟩
    else finishFp dt (Real.ofInt (intOf st bits)) false rm g mode
  else
    match readMode st mode bits with
    | .fin x =>
      if elemInt dt then toIntType dt x rm g
      else finishFp dt x false rm g mode
    | .inf n =>
      if elemInt dt then ⟨intBits dt (if n then intMin dt else intMax dt), flagNV, false⟩
      else infConvert dt n mode
    | .nan s n f =>
      if elemInt dt then ⟨0, flagNV, false⟩
      else match dt with
        | .e3m2 | .e2m3 | .e2m1 | .mxi8 => ⟨0, flagNV, false⟩
        | _ => ⟨nanResult dt mode [(st, .nan s n f)], if s then flagNV else 0, false⟩

/-- R50: an FP32 encoding converted exactly to FP64, bit for bit where it is a NaN. -/
def widenF32 (b : Nat) : Nat :=
  let neg := b / 2 ^ 31 % 2 == 1
  let mag := b % 2 ^ 31
  if 0x7F800000 ≤ mag then encodeMag .f64 neg (0x7FF0000000000000 + mag % 2 ^ 23 * 2 ^ 29)
  else match readFp .f32 b with
    | .fin x => (roundTo .f64 x false 1 0 0).bits
    | _ => 0

end Sys2Proof.Machine
end

