-- ==== Sys2Proof/Machine/Tbl.lean ====
section
/-! DEFINITION. The two plain-data containers of the state: sparse tables, and byte memory as a list of cells in one canonical form. -/

namespace Sys2Proof.Machine

open Sys2Proof

/-! ### Sparse tables -/

/-- A table from numbers to values that lists only entries unlike the default. -/
abbrev Tbl (α : Type) := List (Nat × α)

/-- The entry of key k; `d` where none is listed. -/
def tget {α : Type} (d : α) : Tbl α → Nat → α
  | [], _ => d
  | (j, v) :: r, k => if j = k then v else tget d r k

/-- Puts an entry in its place in rising key order, replacing an equal key. -/
def tput {α : Type} : Tbl α → Nat → α → Tbl α
  | [], k, v => [(k, v)]
  | (j, w) :: r, k, v => if j = k then (k, v) :: r else if k < j then (k, v) :: (j, w) :: r else (j, w) :: tput r k v

def tdel {α : Type} (t : Tbl α) (k : Nat) : Tbl α := t.filter fun e => e.1 != k

/-- Sets an entry; setting the default removes it. -/
def tset {α : Type} [DecidableEq α] (d : α) (t : Tbl α) (k : Nat) (v : α) : Tbl α := if v = d then tdel t k else tput t k v

def thas {α : Type} (t : Tbl α) (k : Nat) : Bool := t.any fun e => e.1 == k

/-! ### Byte memory -/

/-- Bytes by address. An unlisted address reads as 0 (log 3). -/
abbrev Memory := List Host.Cell

/-- The one canonical form: addresses strictly rising, and no entry equal to what an unlisted address reads as. -/
def Memory.wf : Memory → Bool
  | [] => true
  | (a, v) :: r => v != 0 && (match r with
    | [] => true
    | (b, _) :: _ => a < b) && Memory.wf r

/-- What an unlisted address reads as. -/
def unlisted : Byte := 0

def mget (m : Memory) (a : Nat) : Byte := tget unlisted m a

/-- Writes one byte, keeping the canonical form. -/
def mset (m : Memory) (a : Nat) (v : Byte) : Memory := if v = unlisted then tdel m a else tput m a v

/-- The bytes at a, a+1, …, a+n-1. -/
def mbytes (m : Memory) (a n : Nat) : List Byte := (List.range n).map fun i => mget m (a + i)

def msetBytes (m : Memory) (a : Nat) : List Byte → Memory
  | [] => m
  | b :: r => msetBytes (mset m a b) (a + 1) r

/-- A little-endian number of n bytes (R7). -/
def leNat (bs : List Byte) : Nat := bs.foldr (fun b n => b.toNat + 256 * n) 0

/-- The n bytes of a number, lowest address first (R7). -/
def leBytes (n x : Nat) : List Byte := (List.range n).map fun i => BitVec.ofNat 8 (x / 256 ^ i)

def mnat (m : Memory) (a n : Nat) : Nat := leNat (mbytes m a n)
def msetNat (m : Memory) (a n x : Nat) : Memory := msetBytes m a (leBytes n x)

/-- Clears the bytes from lo to hi - 1 to zero. -/
def mclear (m : Memory) (lo hi : Nat) : Memory := m.filter fun c => c.1 < lo || hi ≤ c.1

/-- Puts the bytes lo to hi - 1 of `src` over those of m. -/
def mcopyRange (m src : Memory) (lo hi : Nat) : Memory :=
  (src.filter fun c => lo ≤ c.1 && c.1 < hi).foldl (fun m c => mset m c.1 c.2) (mclear m lo hi)

/-! ### Lists -/

def setNth {α : Type} (l : List α) (n : Nat) (v : α) : List α := l.set n v

/-- The lanes of a mask, ascending (R4). -/
def lanesOf (m : Mask) : List Nat := laneNumbers.filter fun l => m.getLsbD l

/-- The mask of the lanes that satisfy p. -/
def maskOf (p : Nat → Bool) : Mask := BitVec.ofNat 32 (laneNumbers.foldl (fun acc l => if p l then acc + 2 ^ l else acc) 0)

/-- The number of ones. -/
def popcount {w : Nat} (x : BitVec w) : Nat := (List.range w).foldl (fun acc i => if x.getLsbD i then acc + 1 else acc) 0

/-- The lowest set bit, or w when x = 0. -/
def lowest {w : Nat} (x : BitVec w) : Nat := ((List.range w).find? fun i => x.getLsbD i).getD w

end Sys2Proof.Machine
end

