-- ==== Sys2Proof/Machine/State.lean ====
section
/-! DEFINITION. The state of the machine: plain data, holding every piece of state the spec gives (INVENTORY.md, State), the reasons a step can stop, and the state after reset. -/

namespace Sys2Proof.Machine

open Sys2Proof

/-! ### Reasons to stop -/

/-- Why the machine stops with a fault of the model. -/
inductive Fault where
  /-- An access of the model met a local frame beyond 0x0060_0000_0000, which R183 says does not exist: raised by the memory operations. Safe: no memory stands there. -/
  | outsideHbm (addr : Nat)
  deriving DecidableEq, Repr

/-- Why an instruction has no meaning. -/
inductive Refusal where
  /-- No meaning has been written for the instruction: raised by a dispatch arm only. Safe. -/
  | notModelled (mnemonic : String)
  deriving DecidableEq, Repr

/-! ### Registers of a group -/

/-- A fixed-latency write that may not be ready yet (R56): the issue distance from which it is ready, and the lanes and bits it writes. -/
structure PendV where
  ready : Nat
  mask  : Mask
  bits  : W32
  vals  : Lanes
  deriving DecidableEq, Repr

/-- What the rename map gives for a vector name (R106): whether a physical register is held, whether it came from the quadrant pool or the floor reserve (R107), whether no write to it is ready yet (R109), whether the open region allocated it beside a register that its checkpoint keeps (R278), its contents, and its writes in issue order. -/
structure VReg where
  alloc  : Bool := false
  pooled : Bool := false
  fresh  : Bool := true
  shadow : Bool := false
  base   : Lanes := []
  pend   : List PendV := []
  deriving DecidableEq, Repr

/-- A control register: its value and its fixed-latency writes in issue order (R56). -/
structure KReg where
  base : W64 := 0
  pend : List (Nat × W64) := []
  deriving DecidableEq, Repr

/-- A mask register. -/
structure MReg where
  base : Mask := 0
  pend : List (Nat × Mask) := []
  deriving DecidableEq, Repr

/-- A path table entry (Table 2-1). -/
structure PathEnt where
  valid   : Bool := false
  arrived : Bool := false
  pc      : W64 := 0
  mask    : Mask := 0
  tag     : W16 := 0
  age     : W16 := 0
  deriving DecidableEq, Repr

/-- A last-page register (Table 9-7); a TLB entry holds the same, with its context. -/
structure Leaf where
  vpn    : Nat
  frame  : Nat
  target : Nat
  peer   : Nat
  r      : Bool
  w      : Bool
  x      : Bool
  repl   : Bool
  large  : Bool
  deriving DecidableEq, Repr

/-- The states of a group slot (Table 2-4). -/
inductive SlotState where
  | free | launching | ready | handler | waitStall | waitCounter | waitBatch | waitQueue | waitBarrier | waitGang | waitPair | waitJoin
  | waitAlloc | waitExt | parked | preempted | retired
  deriving DecidableEq, Repr

/-! ### Memory requests -/

/-- The scope versions of a context on a core (R178), and how often one of them has passed from 15 to 0 (R179), which tells a fill of an earlier round from a current one. -/
structure Vers where
  l : BitVec 4 := 0
  d : BitVec 4 := 0
  p : BitVec 4 := 0
  s : BitVec 4 := 0
  era : Nat := 0
  deriving DecidableEq, Repr

/-- The memories of R212. -/
inductive Space where
  | hbm | host
  | peer (device : Nat)
  | spad (core : Nat)
  | acc (quad tile : Nat)
  | regs (core slot : Nat)
  deriving DecidableEq, Repr

/-- A location: a memory and a byte address in it. -/
structure Loc where
  space : Space
  addr  : Nat
  deriving DecidableEq, Repr

/-- One element of a request: its lane, location, size and virtual address, the datum of a store or operand of an atomic, the compare value, whether it has been performed, the value it read, the value drawn for its rounding, the flags it raised, and whether its location stands (one that a restore finds without a translation has none until its page has one). -/
structure Elem where
  lane : Nat
  loc  : Loc
  size : Nat
  va   : Nat := 0
  x    : Nat := 0
  y    : Nat := 0
  done : Bool := false
  val  : Nat := 0
  draw : Nat := 0
  flags : W64 := 0
  placed : Bool := true
  deriving DecidableEq, Repr

/-- What an outstanding request does (R303). -/
inductive ReqKind where
  | load | store | atomic
  /-- a delivery of an exchange (R141) -/
  | exchange
  deriving DecidableEq, Repr

/-- Where a result lands: a vector name (with its pair), a control register, or nowhere. -/
inductive Dest where
  | none
  | vec (n : Nat) (pair : Bool)
  | ctl (n : Nat)
  deriving DecidableEq, Repr

/-- An outstanding request of a group, in issue order. -/
structure Req where
  id    : Nat
  gen   : BitVec 6
  kind  : ReqKind
  scope : Nat
  acq   : Bool
  rel   : Bool
  code  : Nat           -- size code of a load (Table 12-2), operator of an atomic (Table 12-5; 7 is `vcas`)
  ty    : Nat           -- type code of an atomic
  rm    : Nat           -- rounding mode of an atomic
  dest  : Dest
  epoch : Nat           -- merging joins issued before it (R217 item 7)
  elems : List Elem
  stamp : Option Vers := none   -- the versions that its fills left the L1 with (R178); none until they leave
  moment : Nat := 0             -- the latest moment of MemState.clock whose memory one of its elements has returned (R223)
  deriving DecidableEq, Repr

/-- The condition that a word held at issue waits for (R32). -/
inductive HeldBy where
  /-- an interlocked write of one of these vector names or control registers (R58) -/
  | regs (v k : List Nat)
  /-- any interlocked write (R279) -/
  | landed
  /-- a load that has not returned (R250) -/
  | returned
  /-- an access that has not been performed -/
  | performed
  /-- GSTAT.UNVER (R203) -/
  | verified
  /-- an access that has not been performed, or GSTAT.UNVER -/
  | released
  /-- a 17th request that a save would carry (R304) -/
  | packets
  /-- flags of an atomic under way (R158) -/
  | flags
  /-- the matrix operations that a group may have accepted (R284) -/
  | matrix
  /-- room among the pending tiles for these (R202) -/
  | tiles (ts : List Nat)
  /-- the earlier accesses that order these elements of a request not yet made, or a register window that holds unverified data (R173, R217) -/
  | order (r : Req) (es : List Elem)
  /-- UNVER of the partner that waits in `vxchg` (R203) -/
  | partner (uid : Nat)
  deriving DecidableEq, Repr

/-- What a waiting group waits for. -/
inductive Wait where
  /-- nothing -/
  | none
  /-- its stall count (R55) -/
  | stall
  /-- a hold at issue: the word at PC issues again (R32) -/
  | hold
  /-- a hold at issue until this condition ends: the word at PC issues again then (R32) -/
  | until_ (c : HeldBy)
  /-- the assist routine (R94) -/
  | assist
  /-- the lanes of one instruction that did not fail, before its fault is taken (R188); `req` is their request -/
  | faultAfter (req code : Nat) (replay : Mask) (addr : W64)
  /-- an engine counter at most n (R264), or below its limit (R256) -/
  | counter (cls n : Nat)
  /-- the retirement wait of `gexit` (R165) -/
  | retire
  | batch (b : Nat)
  /-- a place in a queue's list of waiting pops (R343): graph, queue, the active lanes, the first record register and the mask register -/
  | pop (gidx qid : Nat) (act : Mask) (d m : Nat)
  /-- a place in a list of waiting pops of a handle queue, its descriptor named by core and offset: the lanes and the register (R336) -/
  | hpop (core off : Nat) (act : Mask) (d : Nat)
  /-- a place in a list of waiting pushes of a handle queue (R336) -/
  | hpush (core off : Nat)
  /-- a barrier, by the physical address of its handle table entry, and the phase named (R393) -/
  | barrier (entry phase : Nat)
  /-- a join, by the physical address of its entry (R395) -/
  | join (entry : Nat)
  | gang | pair
  /-- registers for these names (R107); the claim stands until the word issues -/
  | alloc (names : List Nat)
  /-- `ksleep` until this TIME (R161) -/
  | sleep (deadline : W64)
  /-- `kwait`, and whether the watchdog counts it as external (R162) -/
  | kwait (external : Bool)
  /-- `evpost` on a full cluster event queue (R351) -/
  | evpost
  /-- `evpop.wait` on an empty one, with its first register (R352) -/
  | evpop (d : Nat)
  /-- `ksig` on a full host event ring (R353) -/
  | ksig
  /-- an empty device page pool (R369) -/
  | pool
  /-- the answer to a host page request (R192) -/
  | hostPage (frame : Nat)
  /-- the coherence service (R191) -/
  | coherence (vpn : Nat)
  /-- an escalated fault (R302) -/
  | escalated
  /-- the invalidation numbered n (R187) -/
  | inval (n : Nat)
  /-- the promotion of a victim core (R252) -/
  | promote (victim : Nat)
  /-- the registers of a parked or pre-empted group, reached through their window (R173) -/
  | other
  deriving DecidableEq, Repr

/-- An engine or matrix fault that waits for an instruction boundary (R257, R299), and the contents of a fault record (Table 15-2). -/
structure FaultRec where
  code   : Nat
  async  : Bool
  replay : Mask
  pc     : W64
  word0  : W64
  word1  : W64
  lit    : Bool
  addr   : W64
  done   : Nat
  deriving DecidableEq, Repr

/-- A catalogue entry, read whole at the issue of the instruction that names it (Table 18-3, R359). -/
structure Tensor where
  base   : Nat
  sbase  : Nat
  dims   : List Nat
  strs   : List Int
  fmt    : Nat
  planar : Bool
  baxis  : Nat
  rank   : Nat
  planes : Nat
  reuse  : Nat
  deriving DecidableEq, Repr

/-- An engine operation (R256, R289): its class, the operands read at issue, what it has completed, and how it ended. -/
structure EngineOp where
  seq    : Nat                -- its place in the group's issue order
  cls    : Nat                -- 0 copy, 1 cast, 2 gath, 3 coll (R264)
  scope  : Nat
  after  : Nat                -- requests of the group with a lower number were issued before it (R227)
  dst    : Nat
  src    : Nat                -- an origin for a cast
  count  : Nat                -- bytes in all
  rows   : List (Nat × Nat) := []  -- byte offset and source address of the rows of `xgath`
  unit   : Nat                -- bytes of one step (R257)
  dstT   : Option Tensor := none
  srcT   : Option Tensor := none
  tile   : Nat := 0           -- destination tile of a cast
  transp : Bool := false
  coll   : Nat := 0           -- collective, operator, type, V, root and instance number (R261)
  op     : Nat := 0
  ty     : Nat := 0
  v      : Nat := 0
  root   : Nat := 0
  inst   : Nat := 0
  bar    : Option W64 := none -- barrier handle
  bytes  : Nat := 0           -- bytes completed
  ended  : Bool := false
  fault  : Option FaultRec := none
  awaits : Option Nat := none -- the host frame whose answer it waits for (R192)
  asked  : Nat := 0           -- the address for which it waits
  word0  : W64
  word1  : W64
  deriving DecidableEq, Repr

/-- The arrival of an `mma` at the gang latch (R286): what the latch compares, and the group's own slice. -/
structure Arrival where
  ta   : Nat
  ka   : W64
  pa   : Nat
  pb   : Nat
  rnd  : Nat
  a    : Nat
  b    : Nat
  z    : Nat
  word0 : W64
  word1 : W64
  deriving DecidableEq, Repr

/-- What the completed operations of a batch leave for its completion (R285): flags, and faults by issue order. -/
structure BatchOut where
  batch : Nat
  flags : W64
  faults : List (Nat × FaultRec)
  deriving DecidableEq, Repr

/-! ### Regions (Table 13-1) -/

inductive TagKey where
  | lane (n l : Nat) | pair (n l : Nat) | ctl (n : Nat)
  deriving DecidableEq, Repr

/-- A tag {j, width, extension}; `ext` is the size code of the load. -/
structure Tag where
  j     : Nat
  width : Nat
  ext   : Nat
  deriving DecidableEq, Repr

structure ReadEnt where
  loc      : Loc
  size     : Nat
  old      : Nat
  concrete : Bool
  conflict : Bool      -- another agent has written its line since it was registered (R272)
  deriving DecidableEq, Repr

structure ConEnt where
  j       : Nat
  c       : Nat
  cond    : Nat
  signed  : Bool
  width   : Nat
  ext     : Nat
  k       : Nat
  outcome : Bool
  deriving DecidableEq, Repr

structure StoreEnt where
  loc  : Loc
  size : Nat
  sym  : Option (Nat × Nat × Nat × Nat)   -- j, c, width, extension
  data : Nat
  deriving DecidableEq, Repr

/-- A tag as it stood on a register before a fixed-latency write that changed it: the distance from which that write is read (R56), and the tag before it. -/
structure OldTag where
  key   : TagKey
  ready : Nat
  tag   : Option Tag
  deriving DecidableEq, Repr

structure Region where
  scope    : Nat
  fallback : W64
  opened   : W64          -- the address of `abeg`
  reads    : List ReadEnt
  words    : List Loc
  pages    : List Nat     -- virtual pages of the word set (R276)
  cons     : List ConEnt
  stores   : List StoreEnt
  tags     : List (TagKey × Tag)
  v        : Tbl VReg
  k        : Tbl KReg
  m        : Tbl MReg
  mode     : W64
  gens     : List W32
  count    : Nat
  now      : Nat := 0            -- the issue distance of the word under way
  older    : List OldTag := []   -- tags that early reads still meet, newest change first
  deriving DecidableEq, Repr

/-- A vector register write: its latency, name, lanes, bits of a lane, and values. -/
structure RegWrite where
  lat  : Nat
  n    : Nat
  mask : Mask
  bits : W32
  vals : Lanes
  deriving DecidableEq, Repr

/-- The part of an instruction the assist routine still has to write (R94). -/
structure Assist where
  mask  : Mask
  vs    : List RegWrite
  flags : W64
  gens  : List W32
  deriving DecidableEq, Repr

/-- How a word that an agent completes while the group waits goes on: the next word's address, the spacing, and the names it releases. -/
structure Resume where
  next  : W64
  space : Nat
  rel   : List Nat
  deriving DecidableEq, Repr

/-- The restriction of a replayed word (R164): the lanes, and the m0 that comes back after it. -/
structure Replay where
  lanes : Mask
  back  : Mask
  deriving DecidableEq, Repr

/-- The arrival of a `vxchg` (R140): the type, the value read from A at issue, the destination and the active lanes. -/
structure Sent where
  ty     : Nat
  vals   : List Nat
  d      : Nat
  active : Mask
  deriving DecidableEq, Repr

/-! ### Groups -/

/-- A group and its control thread, or a cluster control core (`ccc`). -/
structure Group where
  uid   : Nat := 0
  ccc   : Bool := false
  part  : Nat := 0
  ctx   : Nat := 0
  core  : Nat := 0
  slot  : Nat := 0
  blk   : Nat := 0
  idx   : Nat := 0
  st    : SlotState := .free
  left  : SlotState := .ready
  wait  : Wait := .none
  pc    : W64 := 0
  m0    : Mask := 0
  v     : Tbl VReg := []
  k     : Tbl KReg := []
  m     : Tbl MReg := []
  mode  : W64 := 0
  gens  : List W32 := []
  gen   : BitVec 6 := 0
  acause : BitVec 4 := 0
  uninit : Bool := false
  sup    : Bool := false
  gang  : W64 := 0
  pair  : W64 := 0
  wid   : W64 := 0
  hdr   : W64 := 0
  frec  : W64 := 0
  regs  : Nat := 0
  floor : Nat := 0
  tiles : List Nat := []       -- physical accumulator tiles of the quadrant, z0 first
  paths : List PathEnt := List.replicate 8 {}
  dist  : Nat := 0
  stall : Nat := 0
  gage  : Nat := 0
  lastSpace : Nat := 1         -- spacing of the last word issued, for fault entry (R56)
  word0 : W64 := 0             -- the last word issued or held, and its literal, for records (Table 15-2)
  word1 : Option W64 := none
  resume : Option Resume := none
  lastPage : Tbl (Option Leaf) := []
  reqs  : List Req := []
  nextReq : Nat := 0
  epoch : Nat := 0
  ops   : List EngineOp := []   -- engine operations whose counter has not fallen, in issue order
  nextOp : Nat := 0             -- engine and matrix operations issued
  batch : Nat := 1              -- the open batch
  lastBatch : Nat := 0
  matOps : List (Nat × Nat) := []   -- matrix operations accepted and not complete: issue order and batch
  batchOut : List BatchOut := []
  arrival : Option Arrival := none  -- at the gang latch
  pendTiles : List Nat := []
  pendFaults : List (Nat × FaultRec) := []   -- by issue order
  region : Option Region := none
  replay : Option Replay := none
  assist : Option Assist := none
  record : List (Nat × Lanes) := []  -- record registers still to be allocated at launch (R30)
  refused : List Nat := []      -- host pages whose requests were refused, for the word that asked (R192)
  hint  : Nat := 0              -- operating point that holds the group in LAUNCHING (R31)
  stopping : Bool := false      -- a pre-emption has stopped its issue and the save is under way (R305)
  accSave : List Memory := []   -- its accumulator tiles while it is pre-empted, z0 first (R303)
  saveAt : Option Nat := none   -- its save record: the index in the save area (R303)
  promote : List (Nat × Bool) := []   -- promotions whose drain has not completed (R252): the issuer, and whether this group has taken its point
  sent  : Option Sent := none   -- the arrival of a waiting `vxchg`
  took  : List Nat := []        -- names that the waiting word took registers for, given up if the word ends in a fault or issues again (R110)
  watch : Option Loc := none    -- the line whose writes wake a `kwait` (R162)
  frecAt : W64 := 0             -- the address of the record with which the group entered its handler (R166)
  seen : Nat := 0               -- the latest moment of MemState.clock whose memory a load of the group has returned (R223)
  notBefore : Nat := 0          -- loads at scopes other than G and C meet no L1 line filled before this moment (R223)
  spillAt : W64 := 0            -- SPILLBASE as the parking of the group found it (R166)
  deriving DecidableEq, Repr

/-- GSTAT.INREG. -/
def Group.inreg (g : Group) : Bool := g.region.isSome
/-- GSTAT.UNVER: 1 until every tile that the group has consumed unverified is verified (R202). -/
def Group.unver (g : Group) : Bool := !g.pendTiles.isEmpty
/-- The quadrant of a group, 0-3 in its core (R101). -/
def Group.qd (g : Group) : Nat := g.slot / 48
/-- The quadrant of a group, 0-511 in the device. -/
def Group.quad (g : Group) : Nat := 4 * g.core + g.slot / 48
/-- The engine counter of a class (Table 19-1). -/
def Group.counter (g : Group) (cls : Nat) : Nat := (g.ops.filter fun o => o.cls == cls).length
def Group.cluster (g : Group) : Nat := g.core / 8

/-! ### Memory -/

/-- A line present in L2 (R180 to R182, R199), in a way of its set; `copy` is the home's directory entry: the other die's L2 holds a read copy (R190). -/
structure L2Line where
  way   : Nat := 0
  copy  : Bool := false
  dirty : Bool := false
  verified : Bool := true
  rank  : Nat := 2
  prot  : Bool := false
  part  : Nat := 0
  deriving DecidableEq, Repr

/-- The metadata entry of a tile, data or metadata (Table 10-2); `tag` none is the tag that the tile was handed over with: that of zeros, or of the entries of tiles handed over, at version 0 (R198). The entries of a partition's top level are its root. -/
structure Tile where
  ver : Nat := 0
  tag : Option (BitVec 80) := none
  exhausted : Bool := false
  deriving DecidableEq, Repr

/-- A line of a core's L1, or of its instruction cache (R178, R189). -/
structure CacheLine where
  core  : Nat
  part  : Nat
  ctx   : Nat
  line  : Nat
  bytes : List Byte
  stamp : Vers := {}
  fill  : Nat := 0             -- the moment of MemState.clock at which it was filled
  last  : Nat := 0             -- the moment of the last write that it took from its own core since
  phys  : Option Loc := none   -- where an instruction cache line comes from
  deriving DecidableEq, Repr

structure TlbEnt where
  core : Nat
  part : Nat
  ctx  : Nat
  leaf : Leaf
  deriving DecidableEq, Repr

/-- An announced invalidation not yet complete (R187), in announcement order, and the group that waits for it. -/
structure Inval where
  id   : Nat
  part : Nat
  ctx  : Nat
  lo   : Nat            -- first page
  hi   : Nat            -- page after the last
  free : List Nat       -- frames freed when it completes (R371)
  send : Option (Nat × Nat × Nat) := none  -- a page that then goes to another device: the device, the frame here and the frame there (R191)
  seen : Bool := false  -- its announcement has been applied at every interface (R323)
  deriving DecidableEq, Repr

/-- What a step can meet that stops a partition: a tag mismatch at a tile and level (R205), or a hardware error that strikes a partition (R311). -/
inductive Alarm where
  | integrity (part tile level : Nat)
  | hwError (part : Nat) (quad : Option Nat)
  deriving DecidableEq, Repr

structure MemState where
  hbm   : Memory := []            -- the home's view: L2 where a line is present, else HBM
  img   : Memory := []            -- what the last write-backs left off chip, as plaintext
  l2    : Tbl L2Line := []
  tiles : Tbl Tile := []
  metas : Tbl Bool := []          -- metadata tiles in the on-die cache, and whether an entry of theirs has changed (R201)
  host  : Memory := []
  peers : Tbl Memory := []
  spad  : Tbl Memory := []
  acc   : Tbl Memory := []        -- by quadrant, laid out as Table 9-4
  l1    : List CacheLine := []
  icache : List CacheLine := []
  vers  : Tbl Vers := []
  clock : Nat := 0                -- writes performed at homes so far: the place of a read in their one order (R223)
  tlb   : List TlbEnt := []
  invals : List Inval := []
  nextInval : Nat := 1
  moving : List (Nat × Nat) := []  -- frames whose home move is announced, and the window (R190)
  home  : Tbl Nat := []           -- home die of a frame where it differs from the frame's HBM die (R373)
  hqs   : List (Nat × Nat) := []  -- handle queue descriptors: core and scratchpad offset, 272 bytes each (R335)
  hostHeld : List Nat := []       -- host frames that a page request has been granted for (R192)
  dirtyMap : List Nat := []       -- pages written since the bitmap was last read (R316)
  withheld : List Nat := []       -- frames from whose pages the walker withholds W (R207)
  stirred : List (Loc × Nat) := []  -- writes of this step, by place and bytes; they wake `kwait`s at its end (R162)
  alarms : List Alarm := []        -- integrity and hardware errors met by this step, taken at its end (R205, R311)
  bad   : Option Fault := none    -- an access beyond local HBM (log 7)
  deriving DecidableEq, Repr

/-! ### Tables -/

/-- A saved queue, handle or memory state of a checkpoint is a whole value of these types. -/
inductive PartStatus where
  | free | active | paused | lost
  deriving DecidableEq, Repr

/-- A partition table entry (Table 18-10) with its pools, key-table entry (R378) and partition clock. -/
structure Partition where
  st     : PartStatus := .free
  lend   : Bool := false
  lendSet : Option Bool := none     -- takes effect at the next window close (R404)
  l2ways : W16 := 0
  resq   : BitVec 4 := 0
  waysSet : Option (W16 × BitVec 4) := none  -- L2WAYS and RESQ that the next window sees (R404)
  vf     : Nat := 0
  quads  : List Nat := []
  ckpt   : Nat := 0
  pool   : List Nat := []
  ckpool : List Nat := []
  evring : W64 := 0
  evlog  : Nat := 0
  evw    : W64 := 0
  evr    : W64 := 0
  evhalt : Bool := false
  evheld : List (List Byte) := []   -- dockets held for a full or halted ring (R339)
  frames : List Nat := []           -- frames of local HBM that belong to the partition (R193)
  metaFrames : List Nat := []       -- frames that hold the partition's metadata (R198)
  metas : List (List Nat) := []     -- the metadata tiles of each off-chip level, by index (R197)
  poolWait : List Nat := []         -- groups waiting on the empty pool, in arrival order
  slices : List Nat := []           -- 8 KiB slices of pool frames kept for page tables, not yet used (R368)
  freeing : List Nat := []          -- frames freed and not yet in a pool (R371)
  aes    : BitVec 256 := 0
  kmac   : BitVec 256 := 0
  levels : Nat := 0
  root   : W64 := 0                 -- ROOT, the on-die location of the root (R378)
  keySt  : Nat := 0
  rekeying : Option (BitVec 256 × BitVec 256 × PartStatus) := none  -- the fresh keys, and the status that the re-keying found (R209)
  time   : W64 := 0
  resuming : List Nat := []         -- saved groups whose restore ends the pause of a rollback or migration (R312, R316, R317)
  ckNext : Nat := 1                 -- number of the next checkpoint (R307)
  deriving DecidableEq, Repr

/-- A context table entry (Table 18-11), with its watchdog, quota and retirement counts. -/
structure Context where
  st      : Nat := 0
  ptroot  : W64 := 0
  catbase : W64 := 0
  htbase  : W64 := 0
  tvec    : W64 := 0                -- the register, copied from the default at creation (R377)
  tvecDef : W64 := 0                -- the entry's default TVEC
  frec    : W64 := 0
  spill   : W64 := 0                -- the register SPILLBASE
  spillDef : W64 := 0               -- the entry's default SPILLBASE
  save    : W64 := 0
  mode    : W64 := 0x0000000010000000
  iweight : BitVec 8 := 1
  iweightSet : Option (BitVec 8) := none  -- management values that the next window sees (R404)
  modeSet : Option W64 := none
  quota   : W64 := 0
  quotaSet : Option W64 := none     -- a management value that waits (R387)
  quotaWait : List (Nat × Nat × Nat × Nat) := []  -- continuations that wait for quota (R350): graph, stage, RANGE, L
  tokensSet : Option W64 := none    -- management values that take effect at the next window close (R404)
  wdogSet : Option W64 := none
  debt    : Nat := 0                -- retirements that restore no quota, after a lowered setting (R387)
  wdog    : W64 := 0
  wdogCnt : W64 := 0
  progress : Bool := false          -- progress since the last window (R314)
  tokens  : W64 := 0
  deriving DecidableEq, Repr

/-- A stage entry of an installed graph (Table 18-9). -/
structure StageEnt where
  hdr   : W64
  stage : Nat
  inq   : Nat
  launched : Nat := 0        -- blocks launched so far (R25)
  clusters : List Nat := []  -- clusters that have had a block of it (R31)
  home : Nat := 0            -- its range home: the slice of the line of this entry in the graph descriptor (R327)
  deriving DecidableEq, Repr

/-- A queue entry of an installed graph (Table 18-9). -/
structure QueueEnt where
  qid : Nat
  kind : Nat
  rsize : Nat
  segcap : Nat
  home : Nat
  ringlog : Nat
  shelfcap : Nat
  peer : Nat
  rqid : Nat
  store : Nat
  deriving DecidableEq, Repr

structure Graph where
  gidx : Nat
  part : Nat
  ctx : Nat
  st : Nat
  stages : List StageEnt
  queues : List QueueEnt
  deriving DecidableEq, Repr

/-- A replica directory entry (Table 18-12). -/
structure Replica where
  part : Nat
  ctx : Nat
  vpn : Nat
  shared : Bool
  remote : Bool
  owner : Nat
  holders : List Nat
  deriving DecidableEq, Repr

structure TableState where
  parts  : Tbl Partition := []
  ctxs   : Tbl Context := []         -- 8 × partition + context
  graphs : List Graph := []
  replicas : List Replica := []
  deriving DecidableEq, Repr

/-! ### Work -/

/-- A launch header, read (Table 2-3). -/
structure Header where
  entry : W64
  regs : Nat
  floor : Nat
  acc : Nat
  flags : Nat
  spad : Nat
  widths : List Nat        -- w1 to w5
  blvl : Nat
  stage : Nat
  weight : Nat
  span : Nat
  gangn : Nat
  recv : Nat
  recw : Nat
  inq : Nat
  nout : Nat
  range : Nat
  outq : List Nat
  emit : List Nat
  deriving DecidableEq, Repr

/-- A record with its accession number (R319). -/
structure Rec where
  acc : Nat
  data : List Byte
  shelf : Bool := false
  place : Nat := 0          -- its place on the shelf (R322)
  fails : Nat := 0          -- times it has met HW_ERROR (R311)
  deriving DecidableEq, Repr

/-- The state of a record queue at its home (Table 16-1), with its records. -/
structure Queue where
  gidx : Nat := 0
  qid  : Nat := 0
  nextAcc : Nat := 0
  ringPop : Nat := 0        -- the next index an input ring pops (R332)
  resv : Nat := 0
  held : Nat := 0
  heldSeg : Nat := 0        -- held records that occupy segment slots
  halted : Bool := false
  recs : List Rec := []     -- committed and not popped, head first
  w : W64 := 0
  r : W64 := 0
  waitCommit : List Rec := []   -- commits that wait for a halted ring (R334)
  popWait : List Nat := []      -- groups waiting in `qpop`, in arrival order (R343)
  cred : Nat := 0
  sent : List Rec := []         -- forwarded and not acknowledged (R331)
  remoteB : Nat := 0
  remoteF : Nat := 0
  remoteSent : Nat := 0
  granted : Tbl Nat := []       -- credit granted to forwarding pairs and not used; a pair is the peer's local queue, above the 10 bits of its device (R331)
  changed : Bool := false       -- its values changed in this window (R323)
  deriving DecidableEq, Repr

/-- An instance of a stage's range (R327). -/
structure RangeInst where
  id : Nat
  range : Nat
  l : Nat
  next : Nat
  join : Option W64
  deriving DecidableEq, Repr

structure RangeState where
  gidx : Nat
  stage : Nat
  insts : List RangeInst
  offered : List (Nat × Nat × Nat)   -- instance, block number, failures
  nextId : Nat
  changed : Bool
  deriving DecidableEq, Repr

/-- A block and what it holds (R24 to R30, R320). -/
structure Block where
  id : Nat
  gidx : Nat
  stage : Nat
  part : Nat
  ctx : Nat
  inst : Nat
  number : Nat
  cores : List Nat
  slots : List Nat            -- block slot on each spanned core
  spad : List Nat             -- base of its run on each spanned core
  hdr : Header
  hdrAddr : W64
  groups : List Nat           -- uids, by block group index
  resv : List (Nat × Nat)     -- queue and space still reserved
  tent : List (Nat × List Byte)  -- tentative records in push order
  heldRecs : List (Nat × Rec)
  join : Option W64
  fails : Nat
  faulted : Bool := false     -- a group of it retired by a supervisor `gexit` (R165)
  killed : Bool := false      -- a group of it was killed
  quotaOf : Nat := 1          -- quota its retirement returns
  deriving DecidableEq, Repr

/-- A launch under confirmation (R326). -/
structure Attempt where
  id : Nat
  core : Nat
  slot : Nat
  gidx : Nat
  stage : Nat
  phase : Nat                 -- outputs reserved so far
  granted : List (Nat × Nat × Nat) := []  -- what their homes granted: queue, places and window
  taken : Nat := 0            -- the window in which the input's home gave the records or the block number (R324)
  popped : Option (List Rec)
  block : Option (Nat × Nat × Nat)  -- instance, block number, failures
  refused : Bool
  deriving DecidableEq, Repr

/-- What every core holds of a queue or range as of the last window closed (R324, R327). -/
structure View where
  gidx : Nat
  key : Nat                   -- queue id, or 65536 + stage id
  b : Nat
  f : Nat
  deriving DecidableEq, Repr

/-- What one core adds for its own launches and retirements, in the window in which they were (R324). -/
structure Corr where
  core : Nat
  gidx : Nat
  key : Nat
  window : Nat
  db : Int
  df : Int
  deriving DecidableEq, Repr

/-- A summary message (Table 16-4). -/
inductive MsgKind where
  | occupancy (gidx qid b f : Nat)
  | remainder (gidx stage left : Nat)
  | homeMove (frame : Nat)
  | exhausted (tile : Nat)
  | invalidation (id : Nat)
  /-- a restart offer: graph, stage, instance, block number and failures (R311, R327) -/
  | restart (gidx stage inst blockNo fails : Nat)
  /-- a doorbell that the host interface accepted (R398) -/
  | doorbell (part gidx qid : Nat) (x : W64)
  /-- BACKLOG and Free of a peer's queue, from a summary exchange (R323) -/
  | remote (peer rqid b f : Nat)
  deriving DecidableEq, Repr

structure Msg where
  window : Nat
  src : Nat
  kind : MsgKind
  deriving DecidableEq, Repr

/-- A place in a handle queue's waiter lists (R336). -/
structure HqWait where
  core : Nat
  off : Nat
  uid : Nat
  push : Bool
  item : W32
  deriving DecidableEq, Repr

structure WorkState where
  blocks : List Block := []
  nextBlk : Nat := 1
  nextUid : Nat := 1
  queues : List Queue := []
  ranges : List RangeState := []
  attempts : List Attempt := []
  nextAttempt : Nat := 1
  evalWait : List (Nat × Nat) := []   -- free block slots whose evaluation waits for the core's launch under confirmation: core and slot (log 23)
  views : List View := []
  corr : List Corr := []
  msgs : List Msg := []
  hqWait : List HqWait := []
  pending : List (Nat × Nat × Nat × Nat × Nat) := []  -- restart offers that have reached their range homes: graph, stage, instance, block number, failures
  deriving DecidableEq, Repr

/-! ### Units -/

/-- One group's part of a matrix operation: its accumulator tile, the B tile of an `mma` (scratchpad offset, planes), rounding and MODE as read at issue, and its place in the group's issue order and batches. -/
structure Slice where
  uid   : Nat
  seq   : Nat
  batch : Nat
  after : Nat
  z     : Nat
  b     : Nat := 0
  pb    : Nat := 0
  rm    : Nat := 0
  mode  : W64 := 0
  word0 : W64
  word1 : W64
  deriving DecidableEq, Repr

/-- A matrix operation the unit has accepted (R284): 0 `mma`, 1 `mzero`, 2 `mload`, 3 `mpour`; one slice for each member of a gang. -/
structure MatOp where
  kind   : Nat
  core   : Nat
  slices : List Slice
  a      : Nat := 0            -- A tile of an `mma`: scratchpad offset and planes
  pa     : Nat := 0
  origin : W64 := 0
  tel    : Option Tensor := none   -- source of `mload`, destination of `mpour`
  tsc    : Option Tensor := none
  axis   : Nat := 0
  clr    : Bool := false
  ty     : Nat := 8
  awaits : Option Nat := none      -- the host frame whose answer it waits for (R192)
  refused : List Nat := []         -- host frames whose requests were refused
  deriving DecidableEq, Repr

structure Quadrant where
  def_ : Tbl Int := []         -- DEF(c) by context (R35)
  released : Bool := false     -- R15
  fenced : Bool := false
  mat : List MatOp := []
  deriving DecidableEq, Repr

structure UnitState where
  quads : Tbl Quadrant := []
  events : Tbl (List (List Byte)) := []    -- dockets of a cluster's event queue (R338)
  evHeld : Tbl (List (List Byte)) := []    -- dockets held for a full queue (R339)
  evWait : List Nat := []                  -- groups waiting in `evpop.wait`, in arrival order
  spadRuns : List (Nat × Nat × Nat × Nat) := []  -- the last holder of scratchpad runs (R175): core, first byte, byte after, context
  slotGen : Tbl Nat := []                  -- generation last taken by 192 × core + slot (R306)
  tokens : Tbl Nat := []                   -- token buckets by 320 × slice + 8 × partition + context (R382)
  metered : List (Nat × Nat × Nat) := []   -- waiting requests: slice, partition, context
  collSeq : Tbl Nat := []                  -- calls made of each collective (R261)
  arrivals : List (Nat × Nat × W64 × Nat) := []         -- engine arrivals on their way to a barrier: partition, context, handle, bytes
  decrements : List (Nat × Nat × W64 × Bool × Bool) := []  -- join decrements on their way: partition, context, handle, faulted, killed
  deriving DecidableEq, Repr

/-! ### Platform -/

structure Cluster where
  point : Nat := 0
  cap : Nat := 7
  hint : Nat := 0
  deriving DecidableEq, Repr

/-- A hotness table entry (R383). -/
structure Hot where
  part : Nat
  ctx : Nat
  vpn : Nat
  dev : Nat
  reads : Nat
  writes : Nat
  deriving DecidableEq, Repr

structure Port where
  xoff : Bool := false
  down : Bool := false
  hot : List Hot := []
  deriving DecidableEq, Repr

/-- The state of queues, ranges, blocks and groups that a checkpoint holds (R308). -/
structure Checkpoint where
  part : Nat
  num : Nat
  status : Nat                 -- 1 in progress, 2 standing, 3 replaced, 4 abandoned (R310)
  groups : List Group
  blocks : List Block
  queues : List Queue
  ranges : List RangeState
  graphs : List Graph
  ctxs : List (Nat × Context)
  pool : List Nat               -- the device page pool, the slices kept for page tables, and the frames on their way to it
  slices : List Nat
  freeing : List Nat
  cow : List (Nat × Nat × Nat)  -- pages copied since: leaf address, the checkpoint's frame, the new frame
  tables : List Nat             -- frames of page tables not written since
  copies : List Nat             -- frames that keep what it needs of the frames of page tables written since
  freed : List Nat              -- frames freed while it stands
  hbm : Memory                  -- page tables and handle tables
  hqs : List (Nat × Nat × List Byte)  -- handle queue descriptors: core, offset, bytes
  deriving DecidableEq, Repr

/-- A partition on its way to another device (R316, steps 4 and 5): its table entry with keys and TIME, its groups, work and tables as a checkpoint records them, and its tiles with their tags and versions. -/
structure Migrant where
  part  : Nat
  entry : Partition
  saved : Checkpoint
  img   : Memory
  tiles : Tbl Tile
  deriving DecidableEq, Repr

structure PlatState where
  clusters : Tbl Cluster := []
  ports : Tbl Port := []
  hotw : W16 := 256
  hotr : W16 := 1024
  colls : List (Nat × List (Nat × List Nat)) := []   -- collective: members as device and ports in the switch tree, from the top switch down (R407)
  device : Option (BitVec 10) := none
  epoch : W32 := 0
  ownerNext : BitVec 3 := 0
  owner : BitVec 3 := 0
  handover : Option Nat := none     -- window of the OWNER_NEXT write (R401)
  tdisp : Tbl TdispState := []
  measures : Tbl (List Byte) := []  -- measurement registers (R410)
  assistOk : Bool := false          -- the assist routine is present and verified (R95)
  staged : List BootImage := []     -- firmware updates that wait for the next reset
  booted : Bool := false
  stuck : Bool := false             -- the monitor failed its check: the device stays in reset (R409)
  refusals : List (BitVec 3) := []  -- managers answered NOT_OWNER, oldest first (R401)
  spdm : List Nat := []             -- SPDM requests answered in this session
  replies : List (List Byte) := []
  session : Option (Nat × List Byte) := none
  msix : List (Nat × Nat) := []     -- MSI-X messages sent: function and vector
  ckpts : List Checkpoint := []
  migrating : Option (Nat × Nat) := none  -- partition and phase
  transit : List Migrant := []      -- partitions handed over by one device and not yet taken up by another (R316)
  flits : List (Nat × Nat × Nat × Nat) := []  -- what the last summary exchange sent to peers: graph, queue, BACKLOG and Free (R323)
  overBudget : Bool := false
  decayDue : Bool := false          -- a 4,096th window has closed (R385)
  deriving DecidableEq, Repr

/-! ### The machine -/

structure SchedState where
  agenda : List Instr := []      -- the order in which hardware and outside steps come (log 1)
  sel    : List Nat := []        -- groups selected for issue, in order (R35)
  window : Nat := 0              -- the window under way, counted from package reset (R323)
  closed : Nat := 0              -- windows below this number are closed at the interfaces (R323)
  free   : Nat := 0              -- free values taken (log 6)
  cycle  : Nat := 0              -- issue selections since the last window close, which pace the windows of the default order (log 1)
  deriving DecidableEq, Repr

structure State where
  sched  : SchedState := {}
  g      : Group := {}           -- the group whose word issues, apart from the others (log 8)
  groups : List Group := []
  mem    : MemState := {}
  tabs   : TableState := {}
  work   : WorkState := {}
  units  : UnitState := {}
  plat   : PlatState := {}
  deriving DecidableEq, Repr

/-- The machine right after package reset: no partition, no group, every field as INVENTORY.md names it. -/
def State.reset : State := {}

end Sys2Proof.Machine
end

