-- ==== Sys2Proof/Machine/Group.lean ====
section
/-! DEFINITION. The registers of one group: reads that return the last ready write (R56), the marks of R109, allocation and release (R106, R107), writes, masks, and the stochastic generators (R85). -/

namespace Sys2Proof.Machine

open Sys2Proof

def zeroLanes : Lanes := List.replicate 32 0
def laneAt (v : Lanes) (l : Nat) : W32 := v.getD l 0

/-! ### Vector registers -/

/-- One write laid over a register: only its lanes and bits change (R112). -/
def overlay (base : Lanes) (p : PendV) : Lanes :=
  laneNumbers.map fun l =>
    if p.mask.getLsbD l then (laneAt base l &&& ~~~p.bits) ||| (laneAt p.vals l &&& p.bits) else laneAt base l

/-- The contents a read returns at issue distance `dist`: every ready write, in issue order, over the base (R56). -/
def VReg.value (r : VReg) (dist : Nat) : Lanes :=
  (r.pend.filter fun p => p.ready ≤ dist).foldl overlay (if r.base.isEmpty then zeroLanes else r.base)

/-- Is the name unwritten for a read at this distance (R109): without a register, or read before its first writes are ready? -/
def VReg.unwritten (r : VReg) (dist : Nat) : Bool := !r.alloc || (r.fresh && !r.pend.isEmpty && !r.pend.any fun p => p.ready ≤ dist)

/-- Moves the leading ready writes into the base. -/
def VReg.settle (r : VReg) (dist : Nat) : VReg :=
  let done := r.pend.takeWhile fun p => p.ready ≤ dist
  if done.isEmpty then r
  else { r with base := done.foldl overlay (if r.base.isEmpty then zeroLanes else r.base), fresh := false, pend := r.pend.drop done.length }

def Group.vreg (g : Group) (n : Nat) : VReg := tget {} g.v n
def Group.setVreg (g : Group) (n : Nat) (r : VReg) : Group := { g with v := tset {} g.v n r }

/-- The 32 lanes of a vector name; 255 reads zero (R40), an unwritten name reads zero (R109). -/
def Group.readV (g : Group) (n : Nat) : Lanes :=
  if n = 255 then zeroLanes
  else if (g.vreg n).unwritten g.dist then zeroLanes else (g.vreg n).value g.dist

/-- Does a read of the name count as a read of an unwritten name? -/
def Group.unwrittenV (g : Group) (n : Nat) : Bool := n != 255 && (g.vreg n).unwritten g.dist

/-- The lanes of an operand, as numbers: one register, or a pair (R40). -/
def Group.readOp (g : Group) (n : Nat) (pair : Bool) : List Nat :=
  if pair then
    if n = 255 then laneNumbers.map fun _ => 0
    else
      let lo := g.readV n
      let hi := g.readV (n + 1)
      laneNumbers.map fun l => (laneAt lo l).toNat + 2 ^ 32 * (laneAt hi l).toNat
  else (g.readV n).map BitVec.toNat

/-- Writes lanes of a name with a fixed latency; 0 is ready at once. 255 discards (R40). -/
def Group.writeV (g : Group) (lat n : Nat) (mask : Mask) (bits : W32) (vals : Lanes) : Group :=
  if n = 255 then g
  else
    let r := (g.vreg n).settle g.dist
    let w : PendV := ⟨if lat = 0 then 0 else g.dist + lat, mask, bits, vals⟩
    g.setVreg n (VReg.settle { r with pend := r.pend ++ [w] } g.dist)

/-- Writes an operand of one register or a pair. -/
def Group.writeOp (g : Group) (lat n : Nat) (pair : Bool) (mask : Mask) (vals : List Nat) : Group :=
  if n = 255 then g
  else
    let g := g.writeV lat n mask 0xFFFFFFFF (vals.map (BitVec.ofNat 32))
    if pair then g.writeV lat (n + 1) mask 0xFFFFFFFF (vals.map fun x => BitVec.ofNat 32 (x / 2 ^ 32)) else g

/-- Is a fixed-latency write of the name not yet ready (R57)? -/
def Group.lateV (g : Group) (n : Nat) : Bool := n != 255 && (g.vreg n).pend.any fun p => g.dist < p.ready

/-- Marks a name unwritten and drops its register (R47). -/
def Group.releaseV (g : Group) (n : Nat) : Group := if n = 255 then g else { g with v := tdel g.v n }

/-! ### Masks and control registers -/

def Group.readM (g : Group) (n : Nat) : Mask :=
  if n = 0 then g.m0
  else
    let r := tget ({} : MReg) g.m n
    ((r.pend.filter fun p => p.1 ≤ g.dist).getLast?.map Prod.snd).getD r.base

def Group.writeM (g : Group) (lat n : Nat) (x : Mask) : Group :=
  let r := tget ({} : MReg) g.m n
  let base := ((r.pend.takeWhile fun p => p.1 ≤ g.dist).getLast?.map Prod.snd).getD r.base
  let rest := r.pend.dropWhile fun p => p.1 ≤ g.dist
  let r' : MReg := if lat = 0 && rest.isEmpty then ⟨x, []⟩ else ⟨base, rest ++ [(if lat = 0 then 0 else g.dist + lat, x)]⟩
  { g with m := tset {} g.m n r' }

def Group.lateM (g : Group) (n : Nat) : Bool := n != 0 && (tget ({} : MReg) g.m n).pend.any fun p => g.dist < p.1

def Group.readK (g : Group) (n : Nat) : W64 :=
  if n = 0 then 0
  else
    let r := tget ({} : KReg) g.k n
    ((r.pend.filter fun p => p.1 ≤ g.dist).getLast?.map Prod.snd).getD r.base

/-- Writes a control register; a write to k0 is discarded (R98). A tag on it goes (R269). -/
def Group.writeK (g : Group) (lat n : Nat) (x : W64) : Group :=
  if n = 0 then g
  else
    let r := tget ({} : KReg) g.k n
    let base := ((r.pend.takeWhile fun p => p.1 ≤ g.dist).getLast?.map Prod.snd).getD r.base
    let rest := r.pend.dropWhile fun p => p.1 ≤ g.dist
    let r' : KReg := if lat = 0 && rest.isEmpty then ⟨x, []⟩ else ⟨base, rest ++ [(if lat = 0 then 0 else g.dist + lat, x)]⟩
    { g with k := tset {} g.k n r' }

def Group.lateK (g : Group) (n : Nat) : Bool := n != 0 && (tget ({} : KReg) g.k n).pend.any fun p => g.dist < p.1

/-! ### Active lanes, MODE flags, generators -/

/-- Active() (R5, R18). -/
def Group.active (g : Group) (pred : Nat) : Mask := if pred = 0 then g.m0 else g.m0 &&& g.readM pred

/-- Sets sticky flags (R83). -/
def Group.setFlags (g : Group) (flags : W64) : Group := { g with mode := g.mode ||| (flags &&& 0xF800) }

/-- One step of a generator (R85); the new state is the drawn value. -/
def drawNext (x : W32) : W32 :=
  let x := x ^^^ (x <<< 13)
  let x := x ^^^ (x >>> 17)
  x ^^^ (x <<< 5)

/-- R85: the 32 states seeded from MODE.SEED. -/
def seedGens (seed : W32) : List W32 :=
  laneNumbers.map fun l =>
    let s := seed ^^^ BitVec.ofNat 32 ((l + 1) * 0x9E3779B9)
    if s = 0 then 0x9E3779B9 else s

def genAt (gens : List W32) (l : Nat) : W32 := gens.getD l 0

/-! ### Renaming and the pools (R106, R107, R278) -/

/-- Is the name a floor name of this group? -/
def Group.isFloor (g : Group) (n : Nat) : Bool := n < g.floor

/-- Is the floor register of a name free for it: below FLOOR, and not kept by an open region's checkpoint? -/
def Group.reserveFree (g : Group) (n : Nat) : Bool :=
  g.isFloor n && (match g.region with
    | some r => !((tget ({} : VReg) r.v n).alloc && !(tget ({} : VReg) r.v n).pooled)
    | none => true)

/-- Must a write of this name take a physical register: an unwritten name, or in a region a name that still holds its pre-region register? -/
def Group.needsReg (g : Group) (n : Nat) : Bool := n != 255 && (!(g.vreg n).alloc || (g.inreg && !(g.vreg n).shadow && (match g.region with
  | some r => (tget ({} : VReg) r.v n).alloc
  | none => false)))

/-- Of the names written, those that must come from the quadrant pool. -/
def Group.poolNames (g : Group) (ns : List Nat) : List Nat :=
  (ns.filter fun n => g.needsReg n && !(!(g.vreg n).alloc && g.reserveFree n)).eraseDups

/-- Gives a name its physical register: it reads 0 where the allocating instruction does not write (R106); inside a region the earlier contents are kept beside the checkpoint (R278). -/
def Group.allocV (g : Group) (n : Nat) : Group :=
  if !g.needsReg n then g
  else if (g.vreg n).alloc then g.setVreg n { g.vreg n with shadow := true, pooled := true }
  else g.setVreg n { alloc := true, pooled := !g.reserveFree n, fresh := true, shadow := g.inreg, base := [], pend := [] }

def Group.allocAll (g : Group) (ns : List Nat) : Group := ns.foldl Group.allocV g

/-- Registers of bank b that a group holds from the pool, those of a region's checkpoint included. -/
def Group.pooledIn (g : Group) (b : Nat) : Nat :=
  (g.v.filter fun e => e.2.alloc && e.2.pooled && e.1 % 4 == b).length
    + (match g.region with
      | some r => (r.v.filter fun e => e.2.alloc && e.2.pooled && e.1 % 4 == b && ((g.vreg e.1).shadow || !(g.vreg e.1).alloc)).length
      | none => 0)

/-- Floor names of bank b: the reserve a group holds (R107). -/
def Group.floorIn (g : Group) (b : Nat) : Nat := ((List.range g.floor).filter fun n => n % 4 == b).length

/-! ### Paths (R20, R21) -/

/-- The slot of the PEND entry with the greatest AGE that satisfies p, ties to the lower slot. -/
def oldestPend (ps : List PathEnt) (p : PathEnt → Bool) : Option Nat :=
  (List.range 8).foldl (fun best i =>
    let e := ps.getD i {}
    if e.valid && !e.arrived && p e then
      match best with
      | none => some i
      | some j => if (ps.getD j {}).age.toNat < e.age.toNat then some i else best
    else best) none

/-- The lowest free slot. -/
def freePath (ps : List PathEnt) : Option Nat := (List.range 8).find? fun i => !(ps.getD i {}).valid

/-- Every PEND entry that existed before the word ages by 1, saturating (R21). -/
def agePaths (ps : List PathEnt) : List PathEnt :=
  ps.map fun e => if e.valid && !e.arrived && e.age.toNat < 65535 then { e with age := e.age + 1 } else e

/-- The ageing switch of R21: if a pending path has reached MODE.AGE, the path whose next word is at `next` is set aside in its place. -/
def Group.ageSwitch (g : Group) (next : W64) : Option Group :=
  let lim := (g.mode.extractLsb' 16 16).toNat
  match oldestPend g.paths fun e => lim ≤ e.age.toNat with
  | some i =>
    let e := g.paths.getD i {}
    some { g with paths := g.paths.set i { e with pc := next, mask := g.m0, age := 0 }, m0 := e.mask, pc := e.pc }
  | none => none

/-- Bits [63:56] and [2:0] of an address register are reserved and read zero (Table 6-6). -/
def pcBits (x : W64) : W64 := x &&& 0x00FFFFFFFFFFFFF8

end Sys2Proof.Machine
end

