-- ==== Sys2Proof/Machine/World.lean ====
section
/-! DEFINITION. Finding and replacing the parts of the state by number: groups, partitions, contexts, blocks, queues and graphs. -/

namespace Sys2Proof.Machine

open Sys2Proof

/-! ### Groups -/

/-- Every group, the issuing one first. -/
def State.allGroups (s : State) : List Group := (if s.g.st = .free then [] else [s.g]) ++ s.groups

def State.group? (s : State) (uid : Nat) : Option Group := s.allGroups.find? fun h => h.uid == uid

/-- Puts a group back under its uid. -/
def State.putGroup (s : State) (h : Group) : State :=
  if s.g.uid = h.uid then { s with g := h } else { s with groups := s.groups.map fun x => if x.uid = h.uid then h else x }

/-- Applies f to the groups that satisfy p. -/
def State.mapGroups (s : State) (p : Group → Bool) (f : Group → Group) : State :=
  { s with g := if s.g.st != .free && p s.g then f s.g else s.g, groups := s.groups.map fun x => if p x then f x else x }

/-- Makes the group with this uid the issuing one (log 8). -/
def State.checkout (s : State) (uid : Nat) : State :=
  if s.g.uid = uid then s
  else match s.groups.find? fun h => h.uid == uid with
    | some h => { s with g := h, groups := (if s.g.st = .free then [] else [s.g]) ++ s.groups.filter fun x => x.uid != uid }
    | none => s

def State.addGroup (s : State) (h : Group) : State := { s with groups := s.groups ++ [h] }

/-- Takes a group out of the machine (R32). -/
def State.dropGroup (s : State) (uid : Nat) : State :=
  if s.g.uid = uid then { s with g := {} } else { s with groups := s.groups.filter fun x => x.uid != uid }

/-- Does the group occupy its slot (Table 2-4)? A pre-empted group has left it (R305). A RETIRED group, whose slot its block still keeps (R32), is none that `kgang` and `kpair` find there (DESIGN CHOICE, log 102). -/
def Group.resident (h : Group) : Bool := h.st != .free && h.st != .retired && h.st != .preempted && !h.ccc

/-- The group in a core slot. -/
def State.groupAt (s : State) (core slot : Nat) : Option Group := s.allGroups.find? fun h => h.resident && h.core == core && h.slot == slot

/-- The groups of a context that have not retired. -/
def State.ctxGroups (s : State) (p c : Nat) : List Group :=
  s.allGroups.filter fun h => h.part == p && h.ctx == c && !h.ccc && h.st != .retired

/-! ### Tables -/

def State.part (s : State) (p : Nat) : Partition := tget {} s.tabs.parts p
def State.setPart (s : State) (p : Nat) (x : Partition) : State := { s with tabs := { s.tabs with parts := tset {} s.tabs.parts p x } }

/-- A context's number in the package. -/
def ctxKey (p c : Nat) : Nat := 8 * p + c

def State.ctx (s : State) (p c : Nat) : Context := tget {} s.tabs.ctxs (ctxKey p c)
def State.setCtx (s : State) (p c : Nat) (x : Context) : State := { s with tabs := { s.tabs with ctxs := tset {} s.tabs.ctxs (ctxKey p c) x } }

/-- The partition that owns a quadrant. -/
def State.quadOwner (s : State) (q : Nat) : Option Nat := (s.tabs.parts.find? fun e => e.2.quads.contains q).map Prod.fst

/-- The partition whose frame this is (R193). -/
def State.frameOwner (s : State) (frame : Nat) : Option Nat := (s.tabs.parts.find? fun e => e.2.frames.contains frame).map Prod.fst

/-- QOWN of a core: bit q set when the partition owns quadrant q of it (Table 6-8). -/
def State.qown (s : State) (p core : Nat) : Nat :=
  (List.range 4).foldl (fun acc q => if (s.part p).quads.contains (4 * core + q) then acc + 2 ^ q else acc) 0

def State.quad (s : State) (q : Nat) : Quadrant := tget {} s.units.quads q
def State.setQuad (s : State) (q : Nat) (x : Quadrant) : State := { s with units := { s.units with quads := tset {} s.units.quads q x } }

def State.block? (s : State) (id : Nat) : Option Block := s.work.blocks.find? fun b => b.id == id
def State.putBlock (s : State) (b : Block) : State := { s with work := { s.work with blocks := s.work.blocks.map fun x => if x.id = b.id then b else x } }

def State.queue? (s : State) (gidx qid : Nat) : Option Queue := s.work.queues.find? fun q => q.gidx == gidx && q.qid == qid
def State.putQueue (s : State) (q : Queue) : State :=
  { s with work := { s.work with queues := s.work.queues.map fun x => if x.gidx = q.gidx && x.qid = q.qid then q else x } }

def State.graph? (s : State) (gidx : Nat) : Option Graph := s.tabs.graphs.find? fun g => g.gidx == gidx
def Graph.stage? (g : Graph) (stage : Nat) : Option StageEnt := g.stages.find? fun e => e.stage == stage
def Graph.queue? (g : Graph) (qid : Nat) : Option QueueEnt := g.queues.find? fun e => e.qid == qid

def State.cluster (s : State) (c : Nat) : Cluster := tget {} s.plat.clusters c
def State.setCluster (s : State) (c : Nat) (x : Cluster) : State := { s with plat := { s.plat with clusters := tset {} s.plat.clusters c x } }
def State.port (s : State) (p : Nat) : Port := tget {} s.plat.ports p
def State.setPort (s : State) (p : Nat) (x : Port) : State := { s with plat := { s.plat with ports := tset {} s.plat.ports p x } }

/-! ### Alarms and faults of the model -/

def State.alarm (s : State) (a : Alarm) : State := { s with mem := { s.mem with alarms := s.mem.alarms ++ [a] } }
def State.setBad (s : State) (f : Fault) : State := { s with mem := { s.mem with bad := some (s.mem.bad.getD f) } }

/-- Takes the next free value (log 6). -/
def State.freeValue (s : State) : W64 × State := (Config.freeWord s.sched.free, { s with sched := { s.sched with free := s.sched.free + 1 } })

/-- Marks that the context made progress (R314). -/
def State.progress (s : State) (p c : Nat) : State := s.setCtx p c { s.ctx p c with progress := true }

end Sys2Proof.Machine
end

