-- ==== Sys2Proof/Machine/Flags.lean ====
section
/-! DEFINITION. Conditions (Table 3-5), integer comparison and the sticky flags of MODE (Table 6-2). -/

namespace Sys2Proof.Machine

open Sys2Proof

/-- The number a w-bit pattern stands for, signed or not. -/
def patternInt (signed : Bool) (w x : Nat) : Int :=
  let x := x % 2 ^ w
  if signed && 2 ^ (w - 1) ≤ x then (x : Int) - 2 ^ w else x

/-- The w-bit pattern of an exact integer, by wrap. -/
def intPattern (w : Nat) (x : Int) : Nat := (x % 2 ^ w).toNat

/-- Conditions 0-5 and 8-11 of Table 3-5 on integers; 8-11 are 2-5 unsigned, and the caller reads the operands so. -/
def condInt (c : Nat) (a b : Int) : Bool :=
  match c with
  | 0 => a == b
  | 1 => a != b
  | 2 | 8 => decide (a < b)
  | 3 | 9 => decide (a ≤ b)
  | 4 | 10 => decide (b < a)
  | 5 | 11 => decide (b ≤ a)
  | _ => false

/-- A condition on 64-bit values as `bcc` and `kcmp` read it (R43). -/
def condWord (c : Nat) (a b : W64) : Bool :=
  if 8 ≤ c then condInt c a.toNat b.toNat else condInt c a.toInt b.toInt

/-- The condition with its operands exchanged (R270). -/
def mirrorCond (c : Nat) : Nat :=
  match c with
  | 2 => 4
  | 3 => 5
  | 4 => 2
  | 5 => 3
  | 8 => 10
  | 9 => 11
  | 10 => 8
  | 11 => 9
  | c => c

end Sys2Proof.Machine
end

