-- ==== Sys2Proof/Machine/Crypto.lean ====
section
/-! DEFINITION. The protection of off-chip tiles: AES-256 in counter mode (R195) and the KMAC256 tag (R196). AES is FIPS 197 and KMAC256 is SP 800-185, which the rules name. -/

namespace Sys2Proof.Machine

open Sys2Proof

/-! ### AES-256 -/

/-- The AES substitution table, by row of 16. -/
def sboxRows : List (List Nat) :=
  [
    [0x63, 0x7C, 0x77, 0x7B, 0xF2, 0x6B, 0x6F, 0xC5, 0x30, 0x01, 0x67, 0x2B, 0xFE, 0xD7, 0xAB, 0x76],
    [0xCA, 0x82, 0xC9, 0x7D, 0xFA, 0x59, 0x47, 0xF0, 0xAD, 0xD4, 0xA2, 0xAF, 0x9C, 0xA4, 0x72, 0xC0],
    [0xB7, 0xFD, 0x93, 0x26, 0x36, 0x3F, 0xF7, 0xCC, 0x34, 0xA5, 0xE5, 0xF1, 0x71, 0xD8, 0x31, 0x15],
    [0x04, 0xC7, 0x23, 0xC3, 0x18, 0x96, 0x05, 0x9A, 0x07, 0x12, 0x80, 0xE2, 0xEB, 0x27, 0xB2, 0x75],
    [0x09, 0x83, 0x2C, 0x1A, 0x1B, 0x6E, 0x5A, 0xA0, 0x52, 0x3B, 0xD6, 0xB3, 0x29, 0xE3, 0x2F, 0x84],
    [0x53, 0xD1, 0x00, 0xED, 0x20, 0xFC, 0xB1, 0x5B, 0x6A, 0xCB, 0xBE, 0x39, 0x4A, 0x4C, 0x58, 0xCF],
    [0xD0, 0xEF, 0xAA, 0xFB, 0x43, 0x4D, 0x33, 0x85, 0x45, 0xF9, 0x02, 0x7F, 0x50, 0x3C, 0x9F, 0xA8],
    [0x51, 0xA3, 0x40, 0x8F, 0x92, 0x9D, 0x38, 0xF5, 0xBC, 0xB6, 0xDA, 0x21, 0x10, 0xFF, 0xF3, 0xD2]] ++ [
    [0xCD, 0x0C, 0x13, 0xEC, 0x5F, 0x97, 0x44, 0x17, 0xC4, 0xA7, 0x7E, 0x3D, 0x64, 0x5D, 0x19, 0x73],
    [0x60, 0x81, 0x4F, 0xDC, 0x22, 0x2A, 0x90, 0x88, 0x46, 0xEE, 0xB8, 0x14, 0xDE, 0x5E, 0x0B, 0xDB],
    [0xE0, 0x32, 0x3A, 0x0A, 0x49, 0x06, 0x24, 0x5C, 0xC2, 0xD3, 0xAC, 0x62, 0x91, 0x95, 0xE4, 0x79],
    [0xE7, 0xC8, 0x37, 0x6D, 0x8D, 0xD5, 0x4E, 0xA9, 0x6C, 0x56, 0xF4, 0xEA, 0x65, 0x7A, 0xAE, 0x08],
    [0xBA, 0x78, 0x25, 0x2E, 0x1C, 0xA6, 0xB4, 0xC6, 0xE8, 0xDD, 0x74, 0x1F, 0x4B, 0xBD, 0x8B, 0x8A],
    [0x70, 0x3E, 0xB5, 0x66, 0x48, 0x03, 0xF6, 0x0E, 0x61, 0x35, 0x57, 0xB9, 0x86, 0xC1, 0x1D, 0x9E],
    [0xE1, 0xF8, 0x98, 0x11, 0x69, 0xD9, 0x8E, 0x94, 0x9B, 0x1E, 0x87, 0xE9, 0xCE, 0x55, 0x28, 0xDF],
    [0x8C, 0xA1, 0x89, 0x0D, 0xBF, 0xE6, 0x42, 0x68, 0x41, 0x99, 0x2D, 0x0F, 0xB0, 0x54, 0xBB, 0x16]]

def subByte (b : Byte) : Byte := BitVec.ofNat 8 ((sboxRows.getD (b.toNat / 16) []).getD (b.toNat % 16) 0)

/-- Multiplication by x in the AES field. -/
def xtime (b : Byte) : Byte := (b <<< 1) ^^^ (if b.getLsbD 7 then 0x1B else 0)

def xorBytes (a b : List Byte) : List Byte := List.zipWith (fun x y => x ^^^ y) a b

/-- A 16-byte state, column by column; MixColumns of one column. -/
def mixColumn (c : List Byte) : List Byte :=
  let a := c.getD 0 0
  let b := c.getD 1 0
  let d := c.getD 2 0
  let e := c.getD 3 0
  [xtime a ^^^ xtime b ^^^ b ^^^ d ^^^ e, a ^^^ xtime b ^^^ xtime d ^^^ d ^^^ e, a ^^^ b ^^^ xtime d ^^^ xtime e ^^^ e, xtime a ^^^ a ^^^ b ^^^ d ^^^ xtime e]

def mixColumns (s : List Byte) : List Byte :=
  mixColumn (s.take 4) ++ mixColumn ((s.drop 4).take 4) ++ mixColumn ((s.drop 8).take 4) ++ mixColumn (s.drop 12)

/-- SubBytes and ShiftRows. -/
def subShift (s : List Byte) : List Byte := (List.range 16).map fun i => subByte (s.getD ((i + 4 * (i % 4)) % 16) 0)

/-- The 15 round keys: `n` words still to make, the words so far from last to first. -/
def expandKey : (n : Nat) → (i : Nat) → (rcon : Byte) → List (List Byte) → List (List Byte)
  | 0, _, _, ws => ws
  | n + 1, i, rcon, ws =>
    let prev := ws.headD []
    let base := ws.getD 7 []
    let t := if i % 8 = 0 then
        let r := (prev.drop 1 ++ prev.take 1).map subByte
        (r.headD 0 ^^^ rcon) :: r.drop 1
      else if i % 8 = 4 then prev.map subByte
      else prev
    expandKey n (i + 1) (if i % 8 = 0 then xtime rcon else rcon) (xorBytes base t :: ws)

/-- The round keys of a 256-bit key, whose first byte is its most significant. -/
def roundKeys (key : BitVec 256) : List (List Byte) :=
  let ks := ((leBytes 32 key.toNat).reverse)
  let first := (List.range 8).map fun i => (ks.drop (4 * i)).take 4
  let ws := (expandKey 52 8 1 first.reverse).reverse
  (List.range 15).map fun r => ((ws.drop (4 * r)).take 4).flatten

def aesRounds : List (List Byte) → List Byte → List Byte
  | [], s => s
  | [k], s => xorBytes (subShift s) k
  | k :: ks, s => aesRounds ks (xorBytes (mixColumns (subShift s)) k)

/-- AES-256 of one block. -/
def aesBlock (rks : List (List Byte)) (block : List Byte) : List Byte := aesRounds (rks.drop 1) (xorBytes block (rks.headD []))

/-- Counter block of Table 10-1, bits [127:120] first. -/
def counterBlock (tile ver sub : Nat) : List Byte := (leBytes 16 (tile % 2 ^ 40 * 2 ^ 88 + ver % 2 ^ 48 * 2 ^ 40 + sub % 256)).reverse

/-- Encrypts, and so also decrypts, the 4,096 bytes of a tile (R195). -/
def tileCipher (key : BitVec 256) (tile ver : Nat) (bytes : List Byte) : List Byte :=
  let rks := roundKeys key
  (List.range 256).flatMap fun s => xorBytes ((bytes.drop (16 * s)).take 16) (aesBlock rks (counterBlock tile ver s))

/-! ### KMAC256 -/

/-- A plane of the sponge: its five 64-bit words. The sponge is its five planes, and word i of the byte order is word i mod 5 of plane i / 5. -/
abbrev Plane := List W64

def Plane.at (p : Plane) (x : Nat) : W64 := p.getD (x % 5) 0
def Plane.xor (p q : Plane) : Plane := List.zipWith (fun u v => u ^^^ v) p q
def Plane.zero : Plane := List.replicate 5 0

/-- Every word takes in the parities of the column before it and, turned by one bit, of the column after it. -/
def thetaStep (ps : List Plane) : List Plane :=
  let parity := ps.foldl Plane.xor .zero
  ps.map (Plane.xor ((List.range 5).map fun x => parity.at (x + 4) ^^^ (parity.at (x + 1)).rotateLeft 1))

/-- Puts a word in its place and gives the word that stood there. -/
def swapWord (ps : List Plane) (x y : Nat) (v : W64) : W64 × List Plane :=
  ((ps.getD y []).at x, ps.set y ((ps.getD y []).set x v))

/-- The walk of `n` steps on from place (x, y): each step carries a word to the next place, turned by the triangular number of its step. -/
def walkWords : (n : Nat) → (step x y : Nat) → (carried : W64) → List Plane → List Plane
  | 0, _, _, _, _, ps => ps
  | n + 1, step, x, y, carried, ps =>
    let here := swapWord ps y ((2 * x + 3 * y) % 5) (carried.rotateLeft (step * (step + 1) / 2 % 64))
    walkWords n (step + 1) y ((2 * x + 3 * y) % 5) here.1 here.2

/-- The one nonlinear step, on each plane alone. -/
def chiStep (ps : List Plane) : List Plane := ps.map fun p => (List.range 5).map fun x => p.at x ^^^ (~~~(p.at (x + 1)) &&& p.at (x + 2))

/-- The register from which the round constants come, a step on. -/
def roundShift (r : Byte) : Byte := (r <<< 1) ^^^ (if r.getLsbD 7 then 0x71 else 0)

/-- The constant of a round, its bits at 2^j - 1 shifted out of the register one by one, and the register after it. -/
def roundConstant (r : Byte) : W64 × Byte :=
  (List.range 7).foldl (fun (acc : W64 × Byte) j => (if acc.2.getLsbD 0 then acc.1 ^^^ (BitVec.ofNat 64 (2 ^ (2 ^ j - 1))) else acc.1, roundShift acc.2)) (0, r)

/-- `n` rounds of the permutation. -/
def permuteRounds : (n : Nat) → Byte → List Plane → List Plane
  | 0, _, ps => ps
  | n + 1, r, ps =>
    let t := thetaStep ps
    let c := chiStep (walkWords 24 1 1 0 ((t.getD 0 []).at 1) t)
    let k := roundConstant r
    permuteRounds n k.2 (match c with
      | p :: rest => (match p with
        | w :: ws => (w ^^^ k.1) :: ws
        | [] => []) :: rest
      | [] => [])

/-- The five planes of one block of `rate` bytes; the capacity part is zero. -/
def blockPlanes (rate : Nat) (bs : List Byte) : List Plane :=
  (List.range 5).map fun y => (List.range 5).map fun x => BitVec.ofNat 64 (leNat ((bs.drop (40 * y + 8 * x)).take (if 5 * y + x < rate / 8 then 8 else 0)))

/-- Takes in `n` blocks, each followed by the 24 rounds. -/
def absorbBlocks (rate : Nat) : (n : Nat) → List Plane → List Byte → List Plane
  | 0, ps, _ => ps
  | n + 1, ps, bs => absorbBlocks rate n (permuteRounds 24 1 (List.zipWith Plane.xor ps (blockPlanes rate bs))) (bs.drop rate)

/-- Pads with zeros to a multiple of the rate. -/
def padRate (rate : Nat) (bs : List Byte) : List Byte := bs ++ List.replicate ((rate - bs.length % rate) % rate) 0

/-- The first `len` bytes, at most a block, of the sponge of a rate over a message with domain byte `dom`. -/
def sponge (rate len : Nat) (dom : Byte) (msg : List Byte) : List Byte :=
  let p := padRate rate (msg ++ [dom])
  let p := p.take (p.length - 1) ++ [(p.getLastD 0) ^^^ 0x80]
  ((absorbBlocks rate (p.length / rate) (List.replicate 5 .zero) p).flatten.flatMap fun w => leBytes 8 w.toNat).take len

/-- The first 32 bytes at the rate of SHAKE256 and KMAC256. -/
def sponge256 (dom : Byte) (msg : List Byte) : List Byte := sponge 136 32 dom msg

/-- SHA3-384. -/
def sha3_384 (msg : List Byte) : List Byte := sponge 104 48 0x06 msg

/-- left_encode and right_encode of a number below 65,536, as SP 800-185 writes them. -/
def leftEncode (n : Nat) : List Byte := if n < 256 then [1, BitVec.ofNat 8 n] else [2, BitVec.ofNat 8 (n / 256), BitVec.ofNat 8 n]
def rightEncode (n : Nat) : List Byte := if n < 256 then [BitVec.ofNat 8 n, 1] else [BitVec.ofNat 8 (n / 256), BitVec.ofNat 8 n, 2]
def encodeString (s : List Byte) : List Byte := leftEncode (8 * s.length) ++ s
def bytepad (s : List Byte) : List Byte := padRate 136 (leftEncode 136 ++ s)

/-- KMAC256 with a 256-bit output. -/
def kmac256 (key custom msg : List Byte) : List Byte :=
  let kmac : List Byte := [0x4B, 0x4D, 0x41, 0x43]
  sponge256 0x04 (bytepad (encodeString kmac ++ encodeString custom) ++ bytepad (encodeString key) ++ msg ++ rightEncode 256)

/-- The 10 bytes `XQ880 TILE`. -/
def tileCustom : List Byte := [0x58, 0x51, 0x38, 0x38, 0x30, 0x20, 0x54, 0x49, 0x4C, 0x45]

/-- The tag of a tile's ciphertext (R196); output byte 0 lies in tag bits [7:0]. -/
def tileTag (key : BitVec 256) (tile ver : Nat) (ct : List Byte) : BitVec 80 :=
  BitVec.ofNat 80 (leNat ((kmac256 ((leBytes 32 key.toNat).reverse) tileCustom (ct ++ leBytes 8 (4096 * tile) ++ leBytes 8 ver)).take 10))

end Sys2Proof.Machine
end

