-- ==== Sys2Proof/Machine/Mem.lean ====
section
/-! DEFINITION. Memory: reading and writing a location, the L2 line table, tile verification and write-back, the L1 and its versions (R172 to R183, R190, R193 to R208). -/

namespace Sys2Proof.Machine

open Sys2Proof

/-- For whom an access is made: the partition, context and core, the reuse class of its line (Table 9-5; 1 is REUSE), the host pages whose requests were refused (R192), and the moment before which no L1 line it meets may have been filled (R223). -/
structure Who where
  part : Nat
  ctx  : Nat
  core : Nat
  cls  : Nat := 1
  refused : List Nat := []
  notBefore : Nat := 0
  deriving DecidableEq, Repr

def Group.who (g : Group) : Who := { part := g.part, ctx := g.ctx, core := g.core, refused := g.refused, notBefore := g.notBefore }

/-! ### Bytes of a location -/

/-- Is a tile of a quadrant's accumulator memory allocated (R173)? -/
def State.tileHolder (s : State) (quad tile : Nat) : Option Group :=
  s.allGroups.find? fun h => h.resident && h.quad == quad && h.tiles.contains tile

/-- Byte a of a register window of a group: 128 bytes a name, 4 a lane (Table 9-4). Names at or above the allotment and unwritten names read zero (R173). -/
def regByte (h : Group) (a : Nat) : Byte :=
  let n := a / 128
  if h.regs ≤ n then 0 else BitVec.ofNat 8 ((laneAt (h.readV n) (a % 128 / 4)).toNat / 256 ^ (a % 4))

/-- The n bytes at a location. -/
def State.peek (s : State) (l : Loc) (n : Nat) : List Byte :=
  match l.space with
  | .hbm => mbytes s.mem.hbm l.addr n
  | .host => mbytes s.mem.host l.addr n
  | .peer d => mbytes (tget [] s.mem.peers d) l.addr n
  | .spad c => mbytes (tget [] s.mem.spad c) l.addr n
  | .acc q t => mbytes (tget [] s.mem.acc q) (0x4000 * t + l.addr) n
  | .regs c k => match s.groupAt c k with
    | some h => (List.range n).map fun i => regByte h (l.addr + i)
    | none => List.replicate n 0

/-- Writes one register lane of a group through its window (R173): an unwritten name discards it. -/
def pokeLane (h : Group) (a : Nat) (n : Nat) (v : Nat) : Group :=
  let nm := a / 128
  let lane := a % 128 / 4
  if h.regs ≤ nm || (h.vreg nm).unwritten h.dist then h
  else
    let bits : W32 := BitVec.ofNat 32 ((256 ^ n - 1) * 256 ^ (a % 4))
    h.writeV 0 nm (BitVec.ofNat 32 (2 ^ lane)) bits (laneNumbers.map fun _ => BitVec.ofNat 32 (v * 256 ^ (a % 4)))

/-- Puts bytes at a location, with no other effect. An address beyond local HBM is the model's fault (log 7). -/
def State.poke (s : State) (l : Loc) (bs : List Byte) : State :=
  match l.space with
  | .hbm => if Config.hbmBytes < l.addr + bs.length then s.setBad (.outsideHbm l.addr) else { s with mem := { s.mem with hbm := msetBytes s.mem.hbm l.addr bs } }
  | .host => { s with mem := { s.mem with host := msetBytes s.mem.host l.addr bs } }
  | .peer d => { s with mem := { s.mem with peers := tset [] s.mem.peers d (msetBytes (tget [] s.mem.peers d) l.addr bs) } }
  | .spad c => { s with mem := { s.mem with spad := tset [] s.mem.spad c (msetBytes (tget [] s.mem.spad c) l.addr bs) } }
  | .acc q t => if (s.tileHolder q t).isNone then s
      else { s with mem := { s.mem with acc := tset [] s.mem.acc q (msetBytes (tget [] s.mem.acc q) (0x4000 * t + l.addr) bs) } }
  | .regs c k => match s.groupAt c k with
    | some h =>
      if bs.length = 8 then s.putGroup (pokeLane (pokeLane h l.addr 4 (leNat (bs.take 4))) (l.addr + 4) 4 (leNat (bs.drop 4)))
      else s.putGroup (pokeLane h l.addr bs.length (leNat bs))
    | none => s

/-! ### L2 lines (R10, R12, R180) -/

/-- The die on whose stacks a frame lies (R183), and its home die (R190, R373). -/
def frameDie (frame : Nat) : Nat := 65536 * frame / Config.dieBytes

def State.homeDie (s : State) (frame : Nat) : Nat := tget (frameDie frame) s.mem.home frame

/-- The slice of a line: the 64 slices of the home die in rotation. The spec leaves the function open, and it affects only timing (DESIGN CHOICE, log 79). -/
def State.lineSlice (s : State) (line : Nat) : Nat := 64 * s.homeDie (line / 512) + line % 64

/-- Do two lines lie in one set of one slice (log 79)? -/
def State.sameSet (s : State) (a b : Nat) : Bool := a % 64 == b % 64 && a / 64 % Config.l2Sets == b / 64 % Config.l2Sets && s.homeDie (a / 512) == s.homeDie (b / 512)

/-- Is the tile verified: any of its lines present and checked (R199)? -/
def MemState.tileVerified (m : MemState) (tile : Nat) : Bool := m.l2.any fun e => e.1 / 32 == tile && e.2.verified

/-! ### Tiles and their metadata (R193 to R197) -/

/-- The partition under whose keys a tile lies. -/
def State.tileOwner (s : State) (tile : Nat) : Nat := (s.frameOwner (tile / 16)).getD 0

/-- The metadata tiles above entry i of a level, bottom up, with their levels: 256 entries a tile (R197). -/
def metaAbove : (level i : Nat) → List (List Nat) → List (Nat × Nat)
  | _, _, [] => []
  | k, i, ms :: rest => ((ms[i / 256]?).toList.map fun t => (k, t)) ++ metaAbove (k + 1) (i / 256) rest

/-- The level, from 0, and the index of a metadata tile. -/
def Partition.metaPlace (p : Partition) (tile : Nat) : Option (Nat × Nat) :=
  (List.range p.metas.length).findSome? fun k => ((p.metas.getD k []).idxOf? tile).map fun i => (k, i)

/-- The metadata path of a tile of the partition, from level 1 or the level above its own up to the top level, whose entries are the root on die. Data tiles count in the order in which their frames joined the partition (log 80). -/
def Partition.path (p : Partition) (tile : Nat) : List (Nat × Nat) :=
  match p.metaPlace tile with
  | some (k, i) => metaAbove (k + 2) i (p.metas.drop (k + 1))
  | none => metaAbove 1 (16 * p.frames.idxOf (tile / 16) + tile % 16) p.metas

/-- The metadata path of a tile. -/
def State.path (s : State) (tile : Nat) : List (Nat × Nat) :=
  match s.frameOwner (tile / 16) with
  | some p => (s.part p).path tile
  | none => []

/-- The tiles whose entries a metadata tile holds. -/
def Partition.beneath (p : Partition) (tile : Nat) : List Nat :=
  match p.metaPlace tile with
  | some (0, i) => ((p.frames.drop (16 * i)).take 16).flatMap fun f => (List.range 16).map fun j => 16 * f + j
  | some (k + 1, i) => ((p.metas.getD k []).drop (256 * i)).take 256
  | none => []

/-- The ciphertext that HBM holds for a tile (R195). -/
def State.ciphertext (s : State) (tile : Nat) : List Byte :=
  tileCipher (s.part (s.tileOwner tile)).aes tile (tget {} s.mem.tiles tile).ver (mbytes s.mem.img (4096 * tile) 4096)

/-- Does the tile's tag agree with its ciphertext, address and version (R196)? The tag it was handed over with is kept as `none`. -/
def State.tagOk (s : State) (tile : Nat) : Bool :=
  let t := tget ({} : Tile) s.mem.tiles tile
  match t.tag with
  | none => t.ver == 0 && !s.mem.img.any fun c => c.1 / 4096 == tile
  | some tag => tag == tileTag (s.part (s.tileOwner tile)).kmac tile t.ver (s.ciphertext tile)

/-- The metadata tiles of a path up to the first that is verified on die, bottom up. -/
def State.pathToRead (s : State) (tile : Nat) : List (Nat × Nat) := (s.path tile).takeWhile fun m => !thas s.mem.metas m.2

/-- The tile and level at which the check of a metadata path fails, from the top down (R199, step 2). -/
def State.pathFault (s : State) (tile : Nat) : Option (Nat × Nat) := ((s.pathToRead tile).reverse.find? fun m => !s.tagOk m.2).map fun m => (m.2, m.1)

/-- The metadata path of a tile is checked and comes on die, or an integrity alarm tells the tile and level that failed (R205). -/
def State.checkPath (s : State) (tile : Nat) : Bool × State :=
  match s.pathFault tile with
  | some (t, level) => (false, s.alarm (.integrity (s.tileOwner t) t level))
  | none => (true, { s with mem := { s.mem with metas := (s.pathToRead tile).foldl (fun c m => tput c m.2 false) s.mem.metas } })

/-- The check of a tile and its path; a tile that counts as verified is not read again. -/
def State.checkTile (s : State) (tile : Nat) : Bool × State :=
  let c := s.checkPath tile
  if !c.1 || c.2.mem.tileVerified tile || c.2.tagOk tile then c else (false, c.2.alarm (.integrity (c.2.tileOwner tile) tile 0))

/-- Has the step met an alarm? What it would still do for the partition struck is undone at its end (R205). -/
def State.alarmed (s : State) : Bool := !s.mem.alarms.isEmpty

/-! ### Write-back (R201, R207, R208) -/

/-- Can no write raise the version of a tile? -/
def State.tileSpent (s : State) (tile : Nat) : Bool := decide (2 ^ 48 ≤ (tget ({} : Tile) s.mem.tiles tile).ver + 1)

/-- Is a tile exhausted, itself or by a metadata tile above it (R207)? -/
def State.tileExhausted (s : State) (tile : Nat) : Bool :=
  (tget ({} : Tile) s.mem.tiles tile).exhausted || (s.mem.tiles.any fun e => e.2.exhausted) && (s.path tile).any fun m => (tget ({} : Tile) s.mem.tiles m.2).exhausted

/-- Writes a tile off chip, with `img` as what HBM holds from then on: its version rises, its tag is made new, and its entry changes on die. A version that enters the reserve is announced, by the slice of the tile's first line (R201, R207; log 79). -/
def State.putTile (s : State) (tile : Nat) (img : Memory) : State :=
  if s.tileSpent tile then s.alarm (.hwError (s.tileOwner tile) none)
  else
    let t := tget ({} : Tile) s.mem.tiles tile
    let p := s.part (s.tileOwner tile)
    let ver := t.ver + 1
    let ex := Config.versionReserve ≤ ver
    let e : Tile := { ver := ver, tag := some (tileTag p.kmac tile ver (tileCipher p.aes tile ver (mbytes img (4096 * tile) 4096))), exhausted := t.exhausted || ex }
    let metas := match (s.path tile).head? with
      | some m => tput s.mem.metas m.2 true
      | none => s.mem.metas
    let s := { s with mem := { s.mem with img := img, tiles := tset {} s.mem.tiles tile e, metas := metas } }
    if ex && !t.exhausted then { s with work := { s.work with msgs := s.work.msgs ++ [⟨s.sched.window, 144 + s.lineSlice (32 * tile), .exhausted tile⟩] } } else s

/-- Write-back of a tile (R201): it and its path are checked, and its lines are clean. A tile that fails its check is not written. -/
def State.writeback (s : State) (tile : Nat) : State :=
  let c := s.checkTile tile
  if !c.1 then c.2
  else if c.2.tileSpent tile then c.2.alarm (.hwError (c.2.tileOwner tile) none)
  else
    let s := c.2
    let m := { s.mem with l2 := s.mem.l2.map fun e => if e.1 / 32 = tile then (e.1, { e.2 with dirty := false }) else e }
    { s with mem := m }.putTile tile (mcopyRange m.img m.hbm (4096 * tile) (4096 * tile + 4096))

/-- Writes back the tile if any line of it is dirty. -/
def State.cleanTile (s : State) (tile : Nat) : State :=
  if s.mem.l2.any fun e => e.1 / 32 == tile && e.2.dirty then s.writeback tile else s

/-- A metadata entry (Table 10-2). -/
def State.entryBytes (s : State) (tile : Nat) : List Byte :=
  let t := tget ({} : Tile) s.mem.tiles tile
  let p := s.part (s.tileOwner tile)
  let tag := t.tag.getD (tileTag p.kmac tile 0 (tileCipher p.aes tile 0 (List.replicate 4096 0)))
  leBytes 10 tag.toNat ++ leBytes 6 t.ver

/-- The contents of a metadata tile, from the entries that stand on die. -/
def State.metaBytes (s : State) (tile : Nat) : List Byte := ((s.part (s.tileOwner tile)).beneath tile).flatMap s.entryBytes

/-- A metadata tile leaves the on-die cache: one with a changed entry is written back by the rule of any tile, its own version rising then (R201, step 5). -/
def State.dropMeta (s : State) (tile : Nat) : State :=
  if tget false s.mem.metas tile then
    let c := s.checkPath tile
    if !c.1 then c.2
    else
      let s := c.2.putTile tile (msetBytes (mclear c.2.mem.img (4096 * tile) (4096 * tile + 4096)) (4096 * tile) (c.2.metaBytes tile))
      { s with mem := { s.mem with metas := tdel s.mem.metas tile } }
  else { s with mem := { s.mem with metas := tdel s.mem.metas tile } }

/-! ### Replacement and verification in L2 (R181, R199) -/

/-- A line leaves L2; its tile is written back first where it is dirty. -/
def State.evict (s : State) (line : Nat) (e : L2Line) : State :=
  let s := if e.dirty then s.writeback (line / 32) else s
  { s with mem := { s.mem with l2 := tdel s.mem.l2 line } }

/-- Puts a line into a way of the mask (R181): the lowest invalid one, else that of the lowest unprotected line of rank 3, every unprotected line's rank having been raised until there is one. Where every way is protected the line is not held (log 13). -/
def State.insertLine (s : State) (line : Nat) (mask : W16) (e : L2Line) : State :=
  let ways := (List.range Config.l2Ways).filter fun w => mask.getLsbD w
  let held := s.mem.l2.filter fun x => s.sameSet x.1 line && ways.contains x.2.way
  match ways.find? fun w => !held.any fun x => x.2.way == w with
  | some w => { s with mem := { s.mem with l2 := tput s.mem.l2 line { e with way := w } } }
  | none =>
    let free := held.filter fun x => !x.2.prot
    let up := 3 - free.foldl (fun m x => max m x.2.rank) 0
    match ways.findSome? fun w => free.find? fun x => x.2.way == w && x.2.rank + up == 3 with
    | none => s
    | some x =>
      let raised := free.foldl (fun t y => tput t y.1 { y.2 with rank := y.2.rank + up }) s.mem.l2
      let s := { s with mem := { s.mem with l2 := raised } }.evict x.1 x.2
      { s with mem := { s.mem with l2 := tput s.mem.l2 line { e with way := x.2.way } } }

/-- Lies a core on the other die than the home of a line (Table 1-1)? -/
def State.farFrom (s : State) (core line : Nat) : Bool := core < Config.cores && core / 64 != s.homeDie (line / 512)

/-- A line of the partition used at L2: a hit promotes it, a miss inserts it unless the way mask is empty (Table 9-5). Use by a core of the other die leaves a read copy there, which the directory records (R190). -/
def State.touch (s : State) (w : Who) (line : Nat) : State :=
  let far := s.farFrom w.core line
  match s.mem.l2.find? fun e => e.1 == line with
  | some (_, e) => { s with mem := { s.mem with l2 := tput s.mem.l2 line { e with rank := if w.cls = 0 then 2 else 0, copy := e.copy || far } } }
  | none =>
    let p := s.part w.part
    if p.l2ways = 0 then s
    else
      let held := if w.cls = 2 then (s.mem.l2.filter fun e => e.2.prot && e.2.part == w.part && s.sameSet e.1 line).length else 0
      let prot := w.cls == 2 && held < min p.resq.toNat (popcount p.l2ways - 1)
      s.insertLine line p.l2ways { verified := s.mem.tileVerified (line / 32), rank := if w.cls = 0 then 3 else if prot then 0 else 2, prot := prot, part := w.part, copy := far }

/-- Inserts the lines of a verified tile that are absent, at rank 3, and marks the others verified (R199). -/
def State.installTile (s : State) (tile part : Nat) : State :=
  (List.range 32).foldl (fun s i =>
    let line := 32 * tile + i
    match s.mem.l2.find? fun e => e.1 == line with
    | some (_, e) => { s with mem := { s.mem with l2 := tput s.mem.l2 line { e with verified := true } } }
    | none => s.insertLine line (s.part part).l2ways { rank := 3, part := part }) s

/-- The check of a tile and its path completes (R200): its lines count as verified, and groups that consumed it no longer wait for it (R202); a mismatch is an integrity alarm (R205). -/
def State.verifyTile (s : State) (part tile : Nat) : State :=
  let c := s.checkTile tile
  if c.1 then
    let s := if (c.2.part part).l2ways = 0 then c.2 else c.2.installTile tile part
    s.mapGroups (fun h => h.pendTiles.contains tile) fun h => { h with pendTiles := h.pendTiles.filter fun t => t != tile }
  else c.2

/-- Waits at the home for verification, for the operations that act only on verified lines (R199). -/
def State.needVerified (s : State) (part tile : Nat) : State := if s.mem.tileVerified tile then s else s.verifyTile part tile

/-! ### Writes by the hardware -/

/-- Marks open regions that have read one of the bytes lo to hi - 1 of local HBM (R272). -/
def State.conflictRange (s : State) (lo hi : Nat) : State :=
  s.mapGroups (fun h => h.region.isSome) fun h =>
    { h with region := h.region.map fun r => { r with reads := r.reads.map fun (e : ReadEnt) =>
        if e.loc.space = .hbm && lo / 128 ≤ e.loc.addr / 128 && e.loc.addr < hi then { e with conflict := true } else e } }

/-- One line that hardware has written is dirty in L2, its read copies gone. `whole`: every line of its tile is written with it, so that none has to be read. -/
def State.dirtyLine (s : State) (p line : Nat) (whole : Bool) : State :=
  match s.mem.l2.find? fun e => e.1 == line with
  | some (_, e) => { s with mem := { s.mem with l2 := tput s.mem.l2 line { e with dirty := true, copy := false, verified := e.verified || whole } } }
  | none =>
    let s := s.insertLine line (s.part p).l2ways { dirty := true, part := p, verified := whole || s.mem.tileVerified (line / 32) }
    if thas s.mem.l2 line then s else s.writeback (line / 32)

/-- The lines lo to hi - 1, which hardware has written, are dirty in L2, or their tiles are written back where the way mask is empty (R182). -/
def State.dirtyLines (s : State) (p lo hi : Nat) : State :=
  let lines := (List.range (hi - lo)).map fun i => lo + i
  if (s.part p).l2ways = 0 then ((lines.map fun l => l / 32).eraseDups).foldl State.writeback s
  else lines.foldl (fun s l => s.dirtyLine p l (lo ≤ l / 32 * 32 && l / 32 * 32 + 32 ≤ hi)) s

/-- Notes a write for the `kwait`s that watch its line (R162). -/
def MemState.stir (m : MemState) (l : Loc) (n : Nat) : MemState := { m with stirred := m.stirred ++ [(l, n)] }

/-- A hardware write of n bytes from a, a multiple of 128: the cells given, by their distance from a, and zeros. -/
def State.bulkStore (s : State) (p a n : Nat) (cells : Memory) : State :=
  if Config.hbmBytes < a + n then s.setBad (.outsideHbm a)
  else
    let m := s.mem
    let pages := (List.range ((a % 65536 + n + 65535) / 65536)).map fun i => a / 65536 + i
    let m := { m with
      hbm := cells.foldl (fun h (c : Host.Cell) => mset h (a + c.1) c.2) (mclear m.hbm a (a + n))
      l1 := m.l1.filter fun c => c.line < a / 128 || (a + n + 127) / 128 ≤ c.line
      dirtyMap := if s.plat.migrating.isNone then m.dirtyMap else (m.dirtyMap.filter fun x => !pages.contains x) ++ pages }
    let s := { s with mem := m.stir ⟨.hbm, a⟩ n }.conflictRange a (a + n)
    s.dirtyLines p (a / 128) (a / 128 + (n + 127) / 128)

/-- Writes every tile of a frame as zeros under a new version, its lines gone from L2 and L1 (R201, R207, R371). -/
def State.zeroFrame (s : State) (frame : Nat) : State :=
  let lo := 65536 * frame
  let m := s.mem
  let s := { s with mem := { m with
    hbm := mclear m.hbm lo (lo + 65536)
    l2 := m.l2.filter fun e => e.1 / 512 != frame
    l1 := m.l1.filter fun c => c.line / 512 != frame } }
  (List.range 16).foldl (fun s i =>
    let tile := 16 * frame + i
    let c := s.checkPath tile
    if c.1 then c.2.putTile tile (mclear c.2.mem.img (4096 * tile) (4096 * tile + 4096)) else c.2) s

/-- Discards a line without write-back: its locations go back to what was last written back (R235, R255). -/
def MemState.discardLine (m : MemState) (line : Nat) : MemState :=
  { m with
    hbm := mcopyRange m.hbm m.img (128 * line) (128 * line + 128)
    l2 := tdel m.l2 line
    l1 := m.l1.filter fun c => c.line != line }

/-! ### L1 (R178, R179) -/

def versKey (w : Who) : Nat := 320 * w.core + ctxKey w.part w.ctx
def State.vers (s : State) (w : Who) : Vers := tget {} s.mem.vers (versKey w)

/-- The line a load at this scope may hit: any line of the context at scopes G and C (0 and 2), else one with current stamps (R178) that is not older than what an earlier access of the group, ordered before the load, has returned (R223). -/
def State.l1Hit (s : State) (w : Who) (scope line : Nat) : Option CacheLine :=
  s.mem.l1.find? fun c => c.core == w.core && c.part == w.part && c.ctx == w.ctx && c.line == line
    && (scope == 0 || scope == 2 || (c.stamp == s.vers w && w.notBefore ≤ c.fill))

/-- Does a line of the L1 belong to the context that the access is made for? -/
def CacheLine.mine (c : CacheLine) (w : Who) : Bool := c.core == w.core && c.part == w.part && c.ctx == w.ctx

/-- The context's copy of a line leaves the L1: a read has gone past it (R221). -/
def MemState.dropL1 (m : MemState) (w : Who) (line : Nat) : MemState := { m with l1 := m.l1.filter fun c => !(c.mine w && c.line == line) }

/-- Installs a line of the home's view, with the stamps that its fill left with; the core's oldest line leaves when its 2,048 are full (log 13). -/
def State.l1Install (s : State) (w : Who) (stamp : Vers) (line : Nat) : State :=
  let rest := (s.mem.dropL1 w line).l1
  let mine := rest.filter fun c => c.core == w.core
  let rest := if mine.length < Config.l1Lines then rest else
    match mine.head? with
    | some o => rest.erase o
    | none => rest
  { s with mem := { s.mem with l1 := rest ++ [{ core := w.core, part := w.part, ctx := w.ctx, line := line, bytes := mbytes s.mem.hbm (128 * line) 128, stamp := stamp, fill := s.mem.clock, last := s.mem.clock }] } }

/-- Every line of the context leaves the core's L1. -/
def State.freshen (s : State) (w : Who) : State := { s with mem := { s.mem with l1 := s.mem.l1.filter fun c => !c.mine w } }

/-- The version that an acquire at a scope raises; scope B (1) counts as L (R178). -/
def Vers.at (v : Vers) (scope : Nat) : BitVec 4 := if scope = 1 || scope = 3 then v.l else if scope = 4 then v.d else if scope = 5 then v.p else v.s

/-- VER of a scope raised by 1; from 15 it goes to 0, and a new round begins (R179). -/
def Vers.raise (v : Vers) (scope : Nat) : Vers :=
  let v' := if scope = 1 || scope = 3 then { v with l := v.l + 1 } else if scope = 4 then { v with d := v.d + 1 }
    else if scope = 5 then { v with p := v.p + 1 } else { v with s := v.s + 1 }
  if v.at scope = 15 then { v' with era := v.era + 1 } else v'

/-- Adds 1 to the version of a scope other than G and C; a change from 15 to 0 drops every line of the context (R179, steps 2 and 3). -/
def State.bumpVersion (s : State) (w : Who) (scope : Nat) : State :=
  let v := s.vers w
  let s := if v.at scope = 15 then s.freshen w else s
  { s with mem := { s.mem with vers := tset {} s.mem.vers (versKey w) (v.raise scope) } }

/-! ### Performing accesses -/

/-- Marks open regions of other groups that have read the line of a location (R272). -/
def markConflicts (s : State) (uid : Option Nat) (l : Loc) : State :=
  s.mapGroups (fun h => h.region.isSome && uid != some h.uid) fun h =>
    { h with region := h.region.map fun r => { r with reads := r.reads.map fun e =>
        if e.loc.space = l.space && e.loc.addr / 128 = l.addr / 128 then { e with conflict := true } else e } }

/-- One more write in the performance order (R223). -/
def MemState.tick (m : MemState) : MemState := { m with clock := m.clock + 1 }

/-- What a write of a core's agent does to the L1 lines of that core that it touches: a plain store updates lines of its context, anything else drops them (R178). -/
def MemState.l1Write (m : MemState) (w : Who) (plain : Bool) (a : Nat) (bs : List Byte) : MemState :=
  { m with l1 := m.l1.filterMap fun c =>
      if c.core == w.core && c.line == a / 128 then
        if plain && c.part == w.part && c.ctx == w.ctx then some { c with last := m.clock, bytes := c.bytes.take (a % 128) ++ bs ++ c.bytes.drop (a % 128 + bs.length) } else none
      else some c }

/-- Marks the page of a completed write in the dirty bitmap while a migration has it enabled (R316). -/
def State.markDirty (s : State) (a : Nat) : State :=
  match s.plat.migrating with
  | none => s
  | some _ => { s with mem := { s.mem with dirtyMap := (s.mem.dirtyMap.filter fun p => p != a / 65536) ++ [a / 65536] } }

/-- Bytes of a handle queue's descriptor, which only the queue instructions change (R335). -/
def State.inDescriptor (s : State) (l : Loc) : Bool :=
  match l.space with
  | .spad c => s.mem.hqs.any fun q => q.1 == c && q.2 ≤ l.addr && l.addr < q.2 + 272
  | _ => false

/-- Puts bytes of a store, leaving handle queue descriptors alone. -/
def State.pokeStore (s : State) (l : Loc) (bs : List Byte) : State :=
  match l.space with
  | .spad _ =>
    if s.mem.hqs.isEmpty then s.poke l bs
    else (List.range bs.length).foldl (fun s i => if s.inDescriptor ⟨l.space, l.addr + i⟩ then s else s.poke ⟨l.space, l.addr + i⟩ [bs.getD i 0]) s
  | _ => s.poke l bs

/-- A write performed at the home of its line, in L2 or, where L2 does not hold the line, as with an empty way mask, in HBM (R182, R190). Read copies of the line go first. `plain` is a store of a group. -/
def State.storeAt (s : State) (w : Who) (uid : Option Nat) (plain : Bool) (l : Loc) (bs : List Byte) : State :=
  let s1 := s.pokeStore l bs
  let s1 := { s1 with mem := s1.mem.stir l bs.length }
  match l.space with
  | .hbm =>
    let line := l.addr / 128
    let s1 := { s1 with mem := s1.mem.tick.l1Write w plain l.addr bs }
    let s1 := (markConflicts (s1.markDirty l.addr) uid l).touch w line
    if !thas s1.mem.l2 line then s1.writeback (line / 32)
    else { s1 with mem := { s1.mem with l2 := s1.mem.l2.map fun e => if e.1 = line then (e.1, { e.2 with dirty := true, copy := false }) else e } }
  | .spad _ => markConflicts s1 uid l
  | _ => s1

/-- A read performed at the home on verified lines only (R199). Where the check fails an alarm stands, and the reader goes no further. -/
def State.loadVerified (s : State) (w : Who) (l : Loc) (n : Nat) : List Byte × State :=
  match l.space with
  | .hbm =>
    if Config.hbmBytes < l.addr + n then (List.replicate n 0, s.setBad (.outsideHbm l.addr))
    else
      let s := (s.needVerified w.part (l.addr / 4096)).touch w (l.addr / 128)
      (s.peek l n, { s with mem := s.mem.dropL1 w (l.addr / 128) })
  | _ => (s.peek l n, s)

/-- A load performed at the home slice or bank, never from L1 (R267): the bytes, and the tile it consumed unverified. -/
def State.loadHome (s : State) (w : Who) (l : Loc) (n : Nat) : List Byte × Option Nat × State :=
  match l.space with
  | .hbm =>
    if Config.hbmBytes < l.addr + n then (List.replicate n 0, none, s.setBad (.outsideHbm l.addr))
    else
      let s := s.touch w (l.addr / 128)
      (s.peek l n, if s.mem.tileVerified (l.addr / 4096) then none else some (l.addr / 4096), { s with mem := s.mem.dropL1 w (l.addr / 128) })
  | _ => (s.peek l n, none, s)

/-- The moment of the memory that a load at this scope would return: a line's fill or the last write it took, else now (R223). -/
def State.momentAt (s : State) (w : Who) (scope : Nat) (l : Loc) : Nat :=
  match l.space with
  | .hbm => match s.l1Hit w scope (l.addr / 128) with
    | some c => max c.fill c.last
    | none => s.mem.clock
  | _ => s.mem.clock

/-- A load of a group at a scope: the bytes, and the tile it consumed unverified, if any (R178, R199, R202). `stamp` is what its fill left the L1 with. -/
def State.loadAt (s : State) (w : Who) (scope : Nat) (stamp : Vers) (l : Loc) (n : Nat) : List Byte × Option Nat × State :=
  match l.space with
  | .hbm =>
    if Config.hbmBytes < l.addr + n then (List.replicate n 0, none, s.setBad (.outsideHbm l.addr))
    else
      let line := l.addr / 128
      match s.l1Hit w scope line with
      | some c => ((c.bytes.drop (l.addr % 128)).take n, none, s)
      | none =>
        let s := s.touch w line
        if s.mem.tileVerified (line / 32) then
          let s := s.l1Install w stamp line
          (s.peek l n, none, s)
        else (s.peek l n, some (line / 32), { s with mem := s.mem.dropL1 w line })
  | _ => (s.peek l n, none, s)

/-- A read-modify-write at the element's home (R222): `f` gives the new value from the old. -/
def State.rmwAt (s : State) (w : Who) (uid : Option Nat) (l : Loc) (n : Nat) (f : Nat → Nat) : Nat × State :=
  let r := s.loadVerified w l n
  let old := leNat r.1
  (old, r.2.storeAt w uid false l (leBytes n (f old)))

/-! ### Byte ranges in local HBM, for tables and records written by the hardware -/

/-- A verified read of local HBM. -/
def State.hbmNat (s : State) (w : Who) (a n : Nat) : Nat × State :=
  let r := s.loadVerified w ⟨.hbm, a⟩ n
  (leNat r.1, r.2)

/-- Splits a byte list into the pieces that lie in single lines. -/
def linePieces : (fuel : Nat) → (a : Nat) → List Byte → List (Nat × List Byte)
  | 0, _, _ => []
  | _, _, [] => []
  | n + 1, a, b :: r => let k := 128 - a % 128; (a, (b :: r).take k) :: linePieces n (a + k) ((b :: r).drop k)

/-- A hardware write of a run of bytes to one memory. -/
def State.storeRun (s : State) (w : Who) (l : Loc) (bs : List Byte) : State :=
  (linePieces (bs.length / 128 + 2) l.addr bs).foldl (fun s p => s.storeAt w none false ⟨l.space, p.1⟩ p.2) s

end Sys2Proof.Machine
end

