-- ==== Sys2Proof/Machine/Docket.lean ====
section
/-! DEFINITION. Dockets, the cluster event queues and the host event rings (R338, R339, R332 to R334). -/

namespace Sys2Proof.Machine

open Sys2Proof

/-- A docket (Table 16-8). -/
def docketBytes (kind code src part ctx qid : Nat) (time : W64) (payload : List Byte) : List Byte :=
  [BitVec.ofNat 8 kind, BitVec.ofNat 8 code] ++ leBytes 2 src ++ [BitVec.ofNat 8 part, BitVec.ofNat 8 ctx] ++ leBytes 2 qid
    ++ leBytes 8 time.toNat ++ (payload ++ List.replicate 16 0).take 16

/-- The memory a ring lies in: device memory below 0x60_0000_0000, host memory from there (log 19). -/
def ringLoc (a : Nat) : Loc := if a < Config.hbmBytes then ⟨.hbm, a⟩ else ⟨.host, a⟩

/-- For hardware accesses made for a partition as a whole. -/
def partWho (p : Nat) : Who := { part := p, ctx := 0, core := 128 }

/-- The host pages of a DMA access of the device: their translations are asked for before it, and held (R399, R192; DEDUCED, log 95). -/
def State.translated (s : State) (a n : Nat) : State :=
  if a < Config.hbmBytes then s
  else
    let frames := ([a / 65536, (a + (n - 1)) / 65536].eraseDups).filter fun f => !s.mem.hostHeld.contains f
    { s with mem := { s.mem with hostHeld := s.mem.hostHeld ++ frames } }

/-- Writes bytes of a ring or its control block. -/
def State.ringStore (s : State) (p a : Nat) (bs : List Byte) : State := (s.translated a bs.length).storeRun (partWho p) (ringLoc a) bs

/-- Entries in use of a host event ring. -/
def Partition.evUsed (p : Partition) : Nat := p.evw.toNat - p.evr.toNat

/-- Can the ring take a docket? -/
def Partition.evRoom (p : Partition) : Bool := !p.evhalt && p.evUsed < 2 ^ p.evlog

/-- A docket as it is posted, with the time of that moment (R338). -/
def State.stamped (s : State) (pn : Nat) (d : List Byte) : List Byte := d.take 8 ++ leBytes 8 (s.part pn).time.toNat ++ d.drop 16

/-- Writes one docket to a ring that has room, publishes w in its control block (R333) and signals MSI-X vector 0 of an active partition (Table 20-1, R397). -/
def State.evWrite (s : State) (pn : Nat) (d : List Byte) : State :=
  let p := s.part pn
  let s := s.ringStore pn (p.evring.toNat + 32 * (p.evw.toNat % 2 ^ p.evlog)) (s.stamped pn d)
  let s := s.setPart pn { s.part pn with evw := p.evw + 1 }
  let s := s.ringStore pn (p.evring.toNat - 64) (leBytes 8 (p.evw + 1).toNat)
  if p.st = .active then { s with plat := { s.plat with msix := s.plat.msix ++ [(p.vf, 0)] } } else s

/-- Posts held dockets in order while the ring has room (R339). -/
def State.evDrain : (fuel : Nat) → State → Nat → State
  | 0, s, _ => s
  | n + 1, s, pn =>
    let p := s.part pn
    match p.evheld with
    | d :: r => if p.evRoom then State.evDrain n ((s.setPart pn { p with evheld := r }).evWrite pn d) pn else s
    | [] => s

/-- Posts a docket to a partition's host event ring, holding it when the ring is full or halted (R339). -/
def State.postDocket (s : State) (pn : Nat) (d : List Byte) : State :=
  let p := s.part pn
  let s := s.setPart pn { p with evheld := p.evheld ++ [d] }
  s.evDrain (p.evheld.length + 1) pn

/-- A docket to the partition's ring, with the partition's time. -/
def State.docket (s : State) (kind code src pn c : Nat) (payload : List Byte) : State :=
  s.postDocket pn (docketBytes kind code src pn c 0 (s.part pn).time payload)

def State.evQueue (s : State) (cl : Nat) : List (List Byte) := tget [] s.units.events cl
def State.setEvQueue (s : State) (cl : Nat) (q : List (List Byte)) : State := { s with units := { s.units with events := tset [] s.units.events cl q } }

/-- A word of a table, written at its home by hardware. -/
def State.putWord (s : State) (p a v : Nat) : State := s.storeRun (partWho p) ⟨.hbm, a⟩ (leBytes 8 v)

/-- Word 3 of a barrier's entry: the head of its waiter list, `late` being a group that comes to wait (R389). How the word names a group is free (DESIGN CHOICE, log 99). -/
def State.putHead (s : State) (p e : Nat) (late : Option Nat) : State :=
  let waiters := s.allGroups.filter fun h => match h.wait with
    | .barrier e' _ => e' == e
    | _ => false
  s.putWord p (e + 24) ((waiters.map Group.uid ++ late.toList).head?.elim 0 fun u => (Config.waiterHead u).toNat)

/-- Has a cluster's event queue room for a docket (R338)? -/
def State.evqRoom (s : State) (cl : Nat) : Bool := (s.evQueue cl).length < Config.eventQueueDepth && (tget [] s.units.evHeld cl).isEmpty

/-- A hardware producer posts to a cluster event queue, holding the docket when it is full. -/
def State.evqPost (s : State) (cl : Nat) (d : List Byte) : State :=
  if s.evqRoom cl then s.setEvQueue cl (s.evQueue cl ++ [d])
  else { s with units := { s.units with evHeld := tset [] s.units.evHeld cl (tget [] s.units.evHeld cl ++ [d]) } }

/-- After an entry frees, the oldest held docket takes it. -/
def State.evqRefill (s : State) (cl : Nat) : State :=
  match tget [] s.units.evHeld cl with
  | d :: r =>
    if (s.evQueue cl).length < Config.eventQueueDepth then
      { s with units := { s.units with evHeld := tset [] s.units.evHeld cl r, events := tset [] s.units.events cl (s.evQueue cl ++ [s.stamped (d.getD 4 0).toNat d]) } }
    else s
  | [] => s

end Sys2Proof.Machine
end

