-- ==== Sys2Proof/Machine/Translate.lean ====
section
/-! DEFINITION. Address translation: the aperture, last-page registers, the TLB, the walker, copy-on-write, and the on-chip map (R168 to R176, R185 to R192, R309). -/

namespace Sys2Proof.Machine

open Sys2Proof

/-- What a translation answers: a location with the leaf it came through, a fault code of Table 15-1, or a wait. -/
inductive Trans where
  | ok (loc : Loc) (leaf : Option Leaf)
  | fault (code : Nat)
  /-- the register window of a group that is parked or pre-empted (R173) -/
  | residency
  /-- the coherence service (R191) -/
  | coherence (vpn : Nat)
  /-- an answer of the host's translation service (R192) -/
  | hostPage (frame : Nat)
  /-- a hardware error, raised as an alarm -/
  | hardware
  deriving DecidableEq, Repr

/-! ### Page tables -/

def bitsAt (x hi lo : Nat) : Nat := x / 2 ^ lo % 2 ^ (hi + 1 - lo)

/-- Level indexes of Table 9-1, levels 1 to 4. -/
def vaIndex (va level : Nat) : Nat := va / 2 ^ (56 - 10 * level) % 1024

def vpnOf (va : Nat) : Nat := va % 2 ^ 56 / 65536

/-- The table an entry of levels 1 to 3 points to (Table 9-2). -/
def nextTable (e : Nat) : Nat := bitsAt e 51 13 * 2 ^ 13

/-- The address of the level-4 table of a virtual address, or none where an entry has V = 0. `levels` lists the levels still to walk. -/
def State.walkTable (s : State) (w : Who) (va : Nat) : (levels : List Nat) → (table : Nat) → Option Nat × State
  | [], t => (some t, s)
  | k :: ks, t =>
    let r := s.hbmNat w (t + 8 * vaIndex va k) 8
    if r.1 % 2 = 0 then (none, r.2) else State.walkTable r.2 w va ks (nextTable r.1)

/-- The root table of a context. -/
def State.root (s : State) (w : Who) : Nat := (s.ctx w.part w.ctx).ptroot.toNat

/-- A level-4 entry found by the walker: its address, its value, and whether it is a large page's. -/
structure LeafEnt where
  at_   : Nat
  val   : Nat
  large : Bool
  deriving DecidableEq, Repr

def LeafEnt.target (e : LeafEnt) : Nat := bitsAt e.val 53 52
def LeafEnt.cow (e : LeafEnt) : Bool := e.val.testBit 9

/-- The leaf of a virtual address, valid or not; none without a table (R171). -/
def State.findLeaf (s : State) (w : Who) (va : Nat) : Option LeafEnt × State :=
  match s.walkTable w va [1, 2, 3] (s.root w) with
  | (none, s) => (none, s)
  | (some t, s) =>
    let a0 := t + 8 * (vaIndex va 4 / 512 * 512)
    let r0 := s.hbmNat w a0 8
    if r0.1.testBit 0 && r0.1.testBit 11 then (some ⟨a0, r0.1, true⟩, r0.2)
    else
      let a := t + 8 * vaIndex va 4
      let r := r0.2.hbmNat w a 8
      (some ⟨a, r.1, false⟩, r.2)

/-- The leaf as the last-page registers and the TLB hold it (Table 9-7): write permission only with D set and no copy pending. -/
def LeafEnt.leaf (e : LeafEnt) (va : Nat) (withheld : Bool) : Leaf :=
  { vpn := vpnOf va
    frame := if e.large then bitsAt e.val 51 25 * 512 + va / 65536 % 512 else bitsAt e.val 51 16
    target := e.target, peer := bitsAt e.val 63 54
    r := e.val.testBit 4, w := e.val.testBit 5 && e.val.testBit 8 && !e.cow && !withheld && !e.val.testBit 10, x := e.val.testBit 6
    repl := e.val.testBit 10, large := e.large }

/-- Is a leaf good for this kind of access? -/
def Leaf.permits (l : Leaf) (k : AccessKind) : Bool :=
  match k with
  | .read => l.r
  | .write => l.w
  | .exec => l.x

/-- Does the held leaf match a page? -/
def Leaf.covers (l : Leaf) (vpn : Nat) : Bool := if l.large then l.vpn / 512 == vpn / 512 else l.vpn == vpn

/-- The leaf for the page of a large run that an access touches. -/
def Leaf.at (l : Leaf) (vpn : Nat) : Leaf := if l.large then { l with vpn := vpn, frame := l.frame / 512 * 512 + vpn % 512 } else l

/-! ### Checkpoint frames (R309) -/

/-- Writes a page table entry at its home, with no check for a checkpoint. -/
def State.writeEntry (s : State) (w : Who) (a v : Nat) : State := s.storeRun w ⟨.hbm, a⟩ (leBytes 8 v)

/-- Copies one 64 KiB frame to another, its tiles checked first. -/
def State.copyFrame (s : State) (p src dst : Nat) : State :=
  let lo := 65536 * src
  let s := (List.range 16).foldl (fun s i => (s.checkTile (16 * src + i)).2) s
  if s.alarmed then s
  else s.bulkStore p (65536 * dst) 65536 ((s.mem.hbm.filter fun c => lo ≤ c.1 && c.1 < lo + 65536).map fun (c : Host.Cell) => (c.1 - lo, c.2))

/-- Sends a page of this device to a frame of another, its tiles checked first (R191, R199). -/
def State.sendPage (s : State) (dev src dst : Nat) : State :=
  let lo := 65536 * src
  let s := (List.range 16).foldl (fun s i => (s.checkTile (16 * src + i)).2) s
  if s.alarmed then s
  else
    let m := mclear (tget [] s.mem.peers dev) (65536 * dst) (65536 * dst + 65536)
    let m := (s.mem.hbm.filter fun c => lo ≤ c.1 && c.1 < lo + 65536).foldl (fun m c => mset m (65536 * dst + (c.1 - lo)) c.2) m
    { s with mem := { s.mem with peers := tset [] s.mem.peers dev m } }

/-- Every 8-byte entry of a table that is not zero: its index and value. -/
def State.tableEntries (s : State) (t : Nat) : List (Nat × Nat) :=
  let idx := ((s.mem.hbm.filter fun c => t ≤ c.1 && c.1 < t + 8192).map fun c => (c.1 - t) / 8).eraseDups
  idx.map fun i => (i, mnat s.mem.hbm (t + 8 * i) 8)

/-- The valid tables one level down. -/
def State.subTables (s : State) (ts : List Nat) : List Nat :=
  ts.flatMap fun t => (s.tableEntries t).filterMap fun e => if e.2 % 2 = 1 then some (nextTable e.2) else none

/-- Every listed level-4 entry of a context: address and value. -/
def State.leaves (s : State) (p c : Nat) : List (Nat × Nat) :=
  let t4 := s.subTables (s.subTables (s.subTables [(s.ctx p c).ptroot.toNat]))
  t4.flatMap fun t => (s.tableEntries t).map fun e => (t + 8 * e.1, e.2)

/-- The contexts of a partition that are in use. -/
def State.liveCtxs (s : State) (p : Nat) : List Nat := (List.range 8).filter fun c => (s.ctx p c).st != 0

/-- Clears COW in every leaf of the partition. -/
def State.clearCow (s : State) (p : Nat) : State :=
  (s.liveCtxs p).foldl (fun s c => (s.leaves p c).foldl (fun s e => if e.2.testBit 9 then s.writeEntry (partWho p) e.1 (e.2 - 512) else s) s) s

/-- The standing checkpoint of a partition. -/
def State.standing (s : State) (p : Nat) : Option Checkpoint := s.plat.ckpts.find? fun k => k.part == p && k.status == 2

def State.putCkpt (s : State) (k : Checkpoint) : State :=
  { s with plat := { s.plat with ckpts := s.plat.ckpts.map fun x => if x.part = k.part && x.num = k.num then k else x } }

/-- A checkpoint ends, replaced or abandoned: its superseded frames go back to the checkpoint pool and the frames freed under it to the page pool, zeroed (R308, R309). -/
def State.endCheckpoint (s : State) (k : Checkpoint) (status : Nat) : State :=
  let s := s.putCkpt { k with status := status, groups := [], blocks := [], queues := [], ranges := [], graphs := [], ctxs := [], pool := [], slices := [], freeing := [], cow := [], tables := [], copies := [], freed := [], hbm := [], hqs := [] }
  let p := s.part k.part
  let s := s.setPart k.part { p with ckpool := p.ckpool ++ k.cow.map (fun c => c.2.1) ++ k.copies, pool := p.pool ++ k.freed }
  k.freed.foldl State.zeroFrame s

/-- R309: the checkpoint pool is empty, so the standing checkpoint is abandoned with a docket. -/
def State.abandonCheckpoint (s : State) (p : Nat) : State :=
  match s.standing p with
  | none => s.clearCow p
  | some k =>
    let s := (s.endCheckpoint k 4).clearCow p
    let s := s.setPart p { s.part p with ckpt := 0 }
    s.docket 8 0 291 p 0 (leBytes 8 k.num)

/-- The first write after a checkpoint to a frame of page tables (R308, R309): a frame of the checkpoint pool takes what the checkpoint keeps of it. The tables stay where they stand, since no leaf maps them (DESIGN CHOICE, log 86). -/
def State.breakTable (s : State) (p frame : Nat) : State :=
  match s.standing p with
  | none => s
  | some k =>
    if !k.tables.contains frame then s
    else match (s.part p).ckpool with
      | f :: rest =>
        let s := (s.setPart p { s.part p with ckpool := rest }).copyFrame p frame f
        s.putCkpt { k with tables := k.tables.erase frame, copies := k.copies ++ [f] }
      | [] => s.abandonCheckpoint p

/-- Writes a page table entry at its home. -/
def State.setEntry (s : State) (w : Who) (a v : Nat) : State := (s.breakTable w.part (a / 65536)).writeEntry w a v

/-- Splits a large page that a checkpoint marked COW into 512 entries (log 20). -/
def State.splitLarge (s : State) (w : Who) (e : LeafEnt) : State :=
  (List.range 512).foldl (fun s i => s.setEntry w (e.at_ + 8 * i) (e.val - 2 ^ 11 + i * 65536)) s

/-- The first write to a COW page (R309): the page is copied to a frame of the checkpoint pool and the leaf points at the copy. Translations that other cores hold of the old frame stay as they are (DESIGN CHOICE, log 107). -/
def State.copyOnWrite (s : State) (w : Who) (e : LeafEnt) : State :=
  let p := s.part w.part
  match p.ckpool, s.standing w.part with
  | f :: rest, some k =>
    let old := bitsAt e.val 51 16
    let s := (s.setPart w.part { p with ckpool := rest }).copyFrame w.part old f
    (s.putCkpt { k with cow := k.cow ++ [(e.at_, old, f)] }).writeEntry w e.at_ (e.val - 512 - old * 65536 + f * 65536)
  | _, _ => s.abandonCheckpoint w.part

/-! ### The walker (R171) -/

/-- The on-chip physical map: the location of an address, checked for ownership (R172, R173). -/
def State.onChip (s : State) (w : Who) (pa : Nat) : Trans :=
  let core := pa / Config.coreWindow
  let off := pa % Config.coreWindow
  let owns := fun q => (s.part w.part).quads.contains q
  if Config.cores ≤ core then .fault 0x0A
  else if off < Config.spadBytes then
    if owns (4 * core + off / Config.spadRegion) then .ok ⟨.spad core, off⟩ none else .fault 0x0A
  else if 0x100000 ≤ off && off < 0x180000 then
    let q := 4 * core + (off - 0x100000) / 0x20000
    let t := (off - 0x100000) / 0x4000 % 8
    if !owns q then .fault 0x0A
    else match s.tileHolder q t with
      | some h => if h.part = w.part && h.ctx = w.ctx then .ok ⟨.acc q t, off % 0x4000⟩ none else .fault 0x0A
      | none => .ok ⟨.acc q t, off % 0x4000⟩ none
  else if 0x800000 ≤ off && off < 0xE00000 then
    let slot := (off - 0x800000) / 0x8000
    let mine := fun (h : Group) => h.part == w.part && h.ctx == w.ctx
    if !owns (4 * core + slot / 48) then .fault 0x0A
    else match s.groupAt core slot with
      | some h => if !mine h then .fault 0x0A else if h.st = .parked then .residency else .ok ⟨.regs core slot, off % 0x8000⟩ none
      | none => if s.allGroups.any fun h => h.st == .preempted && h.core == core && h.slot == slot && mine h then .residency else .fault 0x0A
  else .fault 0x0A

/-- The place a leaf sends an address to. -/
def State.place (s : State) (w : Who) (l : Leaf) (va : Nat) : Trans :=
  let a := 65536 * l.frame + va % 65536
  match l.target with
  | 0 => .ok ⟨.hbm, a⟩ (some l)
  | 1 => if w.refused.contains l.frame then .fault 0x09 else if s.mem.hostHeld.contains l.frame || Config.hostTranslates l.frame then .ok ⟨.host, a⟩ (some l) else .hostPage l.frame
  | 2 => .ok ⟨.peer l.peer, a⟩ (some l)
  | _ => match s.onChip w a with
    | .ok loc _ => .ok loc (some l)
    | t => t

/-- Is an absent page one that another device holds, so that the coherence service serves it (R191, log 21)? -/
def State.interDevice (s : State) (w : Who) (va : Nat) (e : Option LeafEnt) : Bool :=
  (match e with
    | some e => e.target == 2
    | none => false)
  || s.tabs.replicas.any fun r => r.part == w.part && r.ctx == w.ctx && r.vpn == vpnOf va && s.plat.device != some (BitVec.ofNat 10 r.owner)

/-- The copy that the first write to a COW page asks for (R309), its table's frame first where it stands as the checkpoint found it; a large page is split first. -/
def State.breakCow (s : State) (w : Who) (va : Nat) (e : LeafEnt) : State :=
  let s := s.breakTable w.part (e.at_ / 65536)
  let s := if e.large && (s.standing w.part).isSome then s.splitLarge w e else s
  match s.findLeaf w va with
  | (some e', s) => if e'.cow then s.copyOnWrite w e' else s
  | (none, s) => s

/-- A core's TLB takes a leaf for a context; the oldest entry leaves a full one (log 13). -/
def MemState.tlbInstall (m : MemState) (w : Who) (l : Leaf) : MemState :=
  let rest := m.tlb.filter fun t => !(t.core == w.core && t.part == w.part && t.ctx == w.ctx && t.leaf.covers l.vpn)
  let mine := rest.filter fun t => t.core == w.core
  let rest := if mine.length < Config.tlbEntries then rest else
    match mine.head? with
    | some o => rest.erase o
    | none => rest
  { m with tlb := rest ++ [{ core := w.core, part := w.part, ctx := w.ctx, leaf := l }] }

/-- Is W withheld from the pages of a leaf: one of them has been announced as holding an exhausted tile, or holds one (R207, R208)? -/
def State.withholds (s : State) (e : LeafEnt) : Bool :=
  let lo := if e.large then bitsAt e.val 51 25 * 512 else bitsAt e.val 51 16
  let n := if e.large then 512 else 1
  e.target == 0 && ((s.mem.withheld.any fun f => lo ≤ f && f < lo + n)
    || (s.mem.tiles.any fun t => t.2.exhausted) && (List.range (16 * n)).any fun i => s.tileExhausted (16 * lo + i))

/-- A, and for a write D, are set in the leaf, and the TLB takes it (R171); a store whose tile is exhausted fails (R208). -/
def State.takeLeaf (s : State) (w : Who) (write : Bool) (va : Nat) : Trans × State :=
  match s.findLeaf w va with
  | (none, s) => (if s.alarmed then .hardware else .fault 0x09, s)
  | (some e, s) =>
    if s.alarmed then (.hardware, s)
    else if write && e.target = 0 && s.tileExhausted (16 * (e.leaf va false).frame + va % 65536 / 4096) then (.fault 0x0D, s)
    else
    let need := 128 + (if write then 256 else 0)
    let val := e.val ||| need
    let s := if val = e.val then s else ((s.breakTable w.part (e.at_ / 65536)).rmwAt w none ⟨.hbm, e.at_⟩ 8 fun x => x ||| need).2
    let l := { e with val := val }.leaf va (s.withholds e)
    let s := { s with mem := s.mem.tlbInstall w l }
    (s.place w l va, s)

/-- One walk, with its effects on A, D, copy-on-write and the TLB; `quiet` walks change nothing (R189, R253). -/
def State.walk (s : State) (w : Who) (kind : AccessKind) (quiet : Bool) (va : Nat) : Trans × State :=
  match s.findLeaf w va with
  | (none, s) => (if s.interDevice w va none then .coherence (vpnOf va) else .fault 0x09, s)
  | (some e, s) =>
    if !e.val.testBit 0 then (if s.interDevice w va (some e) then .coherence (vpnOf va) else .fault 0x09, s)
    else if e.large && bitsAt e.val 24 16 != 0 then (.hardware, s.alarm (.hwError w.part none))
    else
      let l := e.leaf va false
      let write := kind == .write
      let ok := match kind with
        | .read => e.val.testBit 4
        | .write => e.val.testBit 5
        | .exec => e.val.testBit 6
      if l.target = 0 && (s.tabs.parts.any fun p => p.2.metaFrames.contains l.frame) then (.fault 0x0A, s)
      else if write && l.repl then (.coherence l.vpn, s)
      else if !ok then (.fault 0x0A, s)
      else if quiet then (s.place w l va, s)
      else
        (if write && e.cow && l.target = 0 then s.breakCow w va e else s).takeLeaf w write va

/-- A walk that meets an alarm answers no place (R199). -/
def Trans.unless (t : Trans) (s : State) : Trans := if s.alarmed then .hardware else t

/-- Steps 3 and 4 of R186: the core's TLB, then the walker. -/
def State.lookup (s : State) (w : Who) (kind : AccessKind) (va : Nat) : Trans × State :=
  if va ≥ Config.vaBytes then (.fault 0x0A, s)
  else match s.mem.tlb.find? fun t => t.core == w.core && t.part == w.part && t.ctx == w.ctx && t.leaf.covers (vpnOf va) && t.leaf.permits kind with
    | some t => (s.place w (t.leaf.at (vpnOf va)) va, s)
    | none =>
      let r := s.walk w kind false va
      (r.1.unless r.2, r.2)

/-! ### The aperture (R176) -/

def inAperture (va : Nat) : Bool := Config.apertureBase ≤ va && va < Config.apertureEnd

/-- The scratchpad byte an aperture address names for a group's block. -/
def State.aperture (s : State) (g : Group) (va : Nat) : Trans :=
  let k := (va - Config.apertureBase) / 0x100000
  let o := (va - Config.apertureBase) % 0x100000
  match s.block? g.blk with
  | none => .fault 0x0A
  | some b =>
    if b.cores.length ≤ k || b.hdr.spad ≤ o then .fault 0x0A else .ok ⟨.spad (b.cores.getD k 0), b.spad.getD k 0 + o⟩ none

/-- Translates one address of a group without a last-page register: control-thread accesses, engines, records. -/
def State.translate (s : State) (g : Group) (kind : AccessKind) (va : Nat) : Trans × State :=
  if inAperture va then (s.aperture g va, s) else s.lookup g.who kind va

/-- Translates the address of one lane of the issuing group (R186), and loads its last-page register. -/
def State.translateLane (s : State) (kind : AccessKind) (lane va : Nat) : Trans × State :=
  if inAperture va then (s.aperture s.g va, s)
  else
    let hit := match tget none s.g.lastPage lane with
      | some l => if va < Config.vaBytes && l.vpn = vpnOf va && l.permits kind then some l else none
      | none => none
    match hit with
    | some l => (s.place s.g.who l va, s)
    | none =>
      let r := s.lookup s.g.who kind va
      match r.1 with
      | .ok _ (some l) => (r.1, { r.2 with g := { r.2.g with lastPage := tset none r.2.g.lastPage lane (some { l with large := false }) } })
      | _ => r

/-! ### Invalidation (R187) -/

/-- Does page range [lo, hi) hold the page of a leaf? -/
def Leaf.inRange (l : Leaf) (lo hi : Nat) : Bool := lo ≤ l.vpn && l.vpn < hi || (l.large && l.vpn / 512 * 512 < hi && lo < l.vpn / 512 * 512 + 512)

/-- The pages a context maps: virtual page and level-4 entry, a large page as its 512 pages. -/
def State.mappedPages (s : State) (p c : Nat) : List (Nat × Nat) :=
  let down := fun (ts : List (Nat × Nat)) => ts.flatMap fun t => (s.tableEntries t.2).filterMap fun e => if e.2 % 2 = 1 then some (1024 * t.1 + e.1, nextTable e.2) else none
  let t4 := down (down (down [(0, (s.ctx p c).ptroot.toNat)]))
  t4.flatMap fun t =>
    let es := s.tableEntries t.2
    let big := fun i => es.any fun e => e.1 == i / 512 * 512 && e.2.testBit 0 && e.2.testBit 11
    es.flatMap fun e =>
      if e.2.testBit 0 && e.1 % 512 == 0 && e.2.testBit 11 then (List.range 512).map fun i => (1024 * t.1 + e.1 + i, e.2 + 65536 * i)
      else if big e.1 then []
      else [(1024 * t.1 + e.1, e.2)]

/-- A frame of a memory. -/
def Loc.frame (l : Loc) : Space × Nat := (l.space, l.addr / 65536)

/-- The frames of the pages lo to hi - 1 of a context: those its TLB entries, instruction cache lines and page tables give. -/
def State.affected (s : State) (p c lo hi : Nat) : List (Space × Nat) :=
  let space := fun (target peer : Nat) => if target = 1 then Space.host else if target = 2 then .peer peer else .hbm
  ((s.mem.tlb.filter fun t => t.part == p && t.ctx == c && t.leaf.inRange lo hi).map fun t => (space t.leaf.target t.leaf.peer, t.leaf.frame))
    ++ (s.mem.icache.filter fun x => x.part == p && x.ctx == c && lo ≤ x.line / 512 && x.line / 512 < hi).filterMap (fun x => x.phys.map Loc.frame)
    ++ ((s.mappedPages p c).filter fun e => lo ≤ e.1 && e.1 < hi).map fun e => (space (bitsAt e.2 53 52) (bitsAt e.2 63 54), bitsAt e.2 51 16)

/-- Is an instruction cache line one that an invalidation of pages lo to hi - 1 takes: of such a page, or of an affected frame under another address? -/
def CacheLine.sweeps (x : CacheLine) (p c lo hi : Nat) (frames : List (Space × Nat)) : Bool :=
  x.part == p && x.ctx == c && (lo ≤ x.line / 512 && x.line / 512 < hi || x.phys.any fun l => frames.contains l.frame)

/-- Sweeps TLB entries, last-page registers, instruction cache lines and L1 lines of the pages lo to hi - 1 of a context. Every L1 line of the context goes, which covers the affected frames and changes no value a load may return; `freed` are frames that the pages have lost. -/
def State.sweep (s : State) (p c lo hi : Nat) (freed : List Nat := []) : State :=
  let frames := if s.mem.icache.any fun x => x.part == p && x.ctx == c then s.affected p c lo hi ++ freed.map fun f => (Space.hbm, f) else []
  let s := { s with mem := { s.mem with
    tlb := s.mem.tlb.filter fun t => !(t.part == p && t.ctx == c && t.leaf.inRange lo hi)
    l1 := s.mem.l1.filter fun x => !(x.part == p && x.ctx == c)
    icache := s.mem.icache.filter fun x => !x.sweeps p c lo hi frames } }
  s.mapGroups (fun h => h.part == p && h.ctx == c) fun h =>
    { h with lastPage := h.lastPage.filter fun e => match e.2 with
        | some l => !l.inRange lo hi
        | none => false }

end Sys2Proof.Machine
end

