-- ==== Sys2Proof/Machine/Region.lean ====
section
/-! DEFINITION. The state of an atomic region: tags, the concrete marks, constraints, the abort (R265 to R278). -/

namespace Sys2Proof.Machine

open Sys2Proof

/-- An element of a load, extended by its size code (Table 12-2) to w bits. -/
def extendCode (code w x : Nat) : Nat :=
  match code with
  | 1 => intPattern w (patternInt true 8 x)
  | 3 => intPattern w (patternInt true 16 x)
  | 5 => intPattern w (patternInt true 32 x)
  | _ => x % 2 ^ w

/-- The bytes of a size code (Table 12-2). -/
def codeBytes (code : Nat) : Nat := if code < 2 then 1 else if code < 4 then 2 else if code < 6 then 4 else 8

/-! ### Tags -/

/-- The tags that reads meet at distance `now`: a change whose write is not yet ready is undone, newest first, unless a later change of the same register is ready (R56; DEDUCED, log 73). `settled` holds the registers of which a ready change has been met. -/
def tagsSeen (now : Nat) : List OldTag → (settled : List TagKey) → List (TagKey × Tag) → List (TagKey × Tag)
  | [], _, ts => ts
  | o :: os, settled, ts =>
    if settled.contains o.key then tagsSeen now os settled ts
    else if o.ready ≤ now then tagsSeen now os (o.key :: settled) ts
    else tagsSeen now os settled ((ts.filter fun t => t.1 != o.key) ++ (match o.tag with
      | some t => [(o.key, t)]
      | none => []))

/-- The tags that the word under way meets. -/
def Region.seen (r : Region) : List (TagKey × Tag) := if r.older.isEmpty then r.tags else tagsSeen r.now r.older [] r.tags

/-- The tags on lane l of name n: its own, and that of a pair that holds it. -/
def Region.tagsAt (r : Region) (n l : Nat) : List (TagKey × Tag) :=
  r.seen.filter fun t => match t.1 with
    | .lane m k => m == n && k == l
    | .pair m k => (m == n || m + 1 == n) && k == l
    | .ctl _ => false

def Region.tag? (r : Region) (k : TagKey) : Option Tag := (r.seen.find? fun t => t.1 == k).map Prod.snd

/-- Notes the tags that a write of latency `lat` changes. -/
def Region.noting (r : Region) (lat : Nat) (was : List (TagKey × Option Tag)) : Region :=
  let old := if r.older.any fun o => r.now < o.ready then r.older else []
  if lat = 0 && old.isEmpty then { r with older := [] }
  else { r with older := was.map (fun x => ⟨x.1, if lat = 0 then 0 else r.now + lat, x.2⟩) ++ old }

/-- Marks the load of index j concrete. -/
def Region.concrete (r : Region) (j : Nat) : Region :=
  { r with reads := (List.range r.reads.length).map fun i => let e := r.reads.getD i ⟨⟨.hbm, 0⟩, 0, 0, false, false⟩; if i = j then { e with concrete := true } else e }

def Region.concreteTags (r : Region) (ts : List (TagKey × Tag)) : Region := ts.foldl (fun r t => r.concrete t.2.j) r

/-- Writing or releasing lanes of names removes their tags there. A pair of which only one name goes keeps half a value that no tag describes, so its load becomes concrete (R275). -/
def Region.untag (r : Region) (ns : List Nat) (mask : Mask) (lat : Nat := 0) : Region :=
  let gone := fun (k : TagKey) => match k with
    | .lane m l => ns.contains m && mask.getLsbD l
    | .pair m l => (ns.contains m || ns.contains (m + 1)) && mask.getLsbD l
    | .ctl _ => false
  let split := fun (k : TagKey) => match k with
    | .pair m l => mask.getLsbD l && (ns.contains m != ns.contains (m + 1))
    | _ => false
  let r' := r.concreteTags (r.tags.filter fun t => split t.1)
  { (r'.noting lat ((r.tags.filter fun t => gone t.1).map fun t => (t.1, some t.2))) with tags := r.tags.filter fun t => !gone t.1 }

def Region.untagK (r : Region) (n : Nat) (lat : Nat := 0) : Region :=
  { (r.noting lat ((r.tags.filter fun t => t.1 == .ctl n).map fun t => (t.1, some t.2))) with tags := r.tags.filter fun t => t.1 != .ctl n }

/-- Puts a tag on a register whose tag before has gone. -/
def Region.addTag (r : Region) (k : TagKey) (t : Tag) (lat : Nat := 0) : Region :=
  { (r.noting lat [(k, none)]) with tags := (r.tags.filter fun e => e.1 != k) ++ [(k, t)] }

/-- The original value of load j. -/
def Region.orig (r : Region) (j : Nat) : Nat := ((r.reads[j]?).map ReadEnt.old).getD 0

/-- c of a tagged value v: (v − ext(o(j))) mod 2^width (R266). -/
def Region.offset (r : Region) (t : Tag) (v : Nat) : Nat := intPattern t.width ((v : Int) - extendCode t.ext t.width (r.orig t.j))

/-- Adds a constraint, dropping an identical one (R270); none when the buffer is full. -/
def Region.constrain (r : Region) (e : ConEnt) : Option Region :=
  if r.cons.contains e then some r else if 64 ≤ r.cons.length then none else some { r with cons := r.cons ++ [e] }

/-- Adds the words an access touches; none when a 65th would be needed (R266). -/
def Region.addWord (r : Region) (loc : Loc) : Option Region :=
  let w : Loc := ⟨loc.space, loc.addr / 8 * 8⟩
  if r.words.contains w then some r else if 64 ≤ r.words.length then none else some { r with words := r.words ++ [w] }

/-- Appends a store entry, replacing one with the same address and size in place (R271); none when a 65th would be needed. -/
def Region.addStore (r : Region) (e : StoreEnt) : Option Region :=
  if r.stores.any fun x => x.loc == e.loc && x.size == e.size then
    some { r with stores := r.stores.map fun x => if x.loc == e.loc && x.size == e.size then e else x }
  else if 64 ≤ r.stores.length then none
  else some { r with stores := r.stores ++ [e] }

/-! ### The abort (R277) -/

/-- Registers, masks, MODE and generators come back from the checkpoint, a delivery of the region still outstanding is dropped, and PC is the fallback; the spacing and the ageing check of a transfer are the caller's. -/
def Group.abortRegion (g : Group) (cause : Nat) : Group :=
  match g.region with
  | none => g
  | some r => { g with v := r.v, k := r.k, m := r.m, mode := r.mode, gens := r.gens, reqs := g.reqs.filter fun (q : Req) => q.kind != .exchange
                       region := none, acause := BitVec.ofNat 4 cause, pc := r.fallback, assist := none, took := [] }

/-- Does an ageing check follow the abort: the fallback at or below the `abeg`? -/
def Group.abortChecks (g : Group) : Bool :=
  match g.region with
  | none => false
  | some r => r.fallback.toNat ≤ r.opened.toNat

/-- An abort by an outside event, at an instruction boundary (R278). -/
def Group.abortNow (g : Group) (cause : Nat) : Group :=
  if g.inreg then
    let h := g.abortRegion cause
    let h := { h with dist := h.dist + (max 3 h.lastSpace - h.lastSpace), lastSpace := max 3 h.lastSpace }
    if g.abortChecks then (h.ageSwitch h.pc).getD h else h
  else g

end Sys2Proof.Machine
end

