-- ==== Sys2Proof/Machine/Ops.lean ====
section
/-! DEFINITION. What every instruction word shares: its operand names and the checks of R60, interlocks (R58), allocation (R106, R107), taking a fault (R302) and returning from one (R164), and the end of a word (R55, R56, R21, R47). -/

namespace Sys2Proof.Machine

open Sys2Proof

abbrev Answer := Host.Outcome State Fault Refusal

/-- Answers with a state; an access beyond local HBM is the model's fault (log 7). -/
def answer (s : State) : Answer :=
  match s.mem.bad with
  | some b => .fault b
  | none => .next s

/-! ### Words and their names -/

/-- An instruction word as it issues: its field use, fields and literal, its stall count, and its bits. -/
structure Word where
  sh    : Shape
  f     : FForm
  lit   : Literal := .none
  stall : Nat
  w0    : W64
  w1    : Option W64
  deriving DecidableEq, Repr

def mkWord (sh : Shape) (f : FForm) (lit : Literal := .none) : Word :=
  { sh := sh, f := f, lit := lit, stall := f.stall.toNat, w0 := fformWord sh.op f, w1 := (literalWord lit).head? }

/-- The word after the instruction (R38). -/
def Word.next (w : Word) (pc : W64) : W64 := pcBits (pc + (if w.w1.isSome then 16 else 8))

/-- Register names: vector, mask, control. -/
structure Names where
  v : List Nat := []
  m : List Nat := []
  k : List Nat := []
  deriving DecidableEq, Repr

def Names.append (a b : Names) : Names := ⟨a.v ++ b.v, a.m ++ b.m, a.k ++ b.k⟩

/-- The vector names of an operand; 255 names nothing (R40). -/
def vecNames (n : Nat) (pair : Bool) : List Nat := if n = 255 then [] else if pair then [n, n + 1] else [n]

def Word.pair (w : Word) (c : RegClass) : Bool := classPair w.sh w.f w.lit c

/-- The names a register field stands for. -/
def Word.fieldNames (w : Word) (c : RegClass) (n : BitVec 8) : Names :=
  match c with
  | .vec | .plain | .cvtSrc => { v := vecNames n.toNat (w.pair c) }
  | .mask => { m := [n.toNat] }
  | .ctl => { k := [n.toNat] }
  | .record | .acc => {}

def Word.useNames (w : Word) (src : Bool) (u : Use) (n : BitVec 8) : Names :=
  match u with
  | .reg c .src => if src then w.fieldNames c n else {}
  | .reg c .dst => if src then {} else w.fieldNames c n
  | .reg c .both => w.fieldNames c n
  | _ => {}

/-- The operand set's registers that an instruction reads: X and Y of atomics, the barrier register of engine operations. -/
def Word.litNames (w : Word) : Names :=
  match w.lit with
  | .set l =>
    if w.sh.op = 0x205 || w.sh.op = 0x206 then { v := vecNames l.x.toNat (w.pair .vec) }
    else if w.sh.op = 0x207 then { v := vecNames l.x.toNat (w.pair .vec) ++ vecNames l.y.toNat (w.pair .vec) }
    else if w.sh.op = 0x20D || w.sh.op = 0x20E || w.sh.op = 0x20F || w.sh.op = 0x250 then { k := [l.x.toNat] }
    else {}
  | _ => {}

def isSelect (op : Nat) : Bool := op == 0x01D || op == 0x05D || op == 0x09D

/-- The names a word reads (R109: fields A, B, D as a source, and any read its entry names). -/
def Word.reads (w : Word) : Names :=
  ((w.useNames true w.sh.a w.f.a).append (w.useNames true w.sh.b w.f.b)).append
    (((w.useNames true w.sh.d w.f.d).append w.litNames).append
      { m := (if w.f.pred = 0 then [] else [w.f.pred.toNat]) ++ (if isSelect w.sh.op then [w.f.rnd.toNat] else [])
        k := if w.sh.op = 0x3C2 then [31] else [] })

/-- The names a word writes. -/
def Word.writes (w : Word) : Names :=
  ((w.useNames false w.sh.a w.f.a).append (w.useNames false w.sh.b w.f.b)).append
    ((w.useNames false w.sh.d w.f.d).append { k := if w.sh.op = 0x3C1 then [31] else [] })

/-- Names a word reads or writes beyond its fields (records, the halves of a pair word), whether they lie in range, whether it needs the supervisor (R105), and names it releases beside those of its own last-read bits. -/
structure Extra where
  r   : Names := {}
  w   : Names := {}
  ok  : Bool := true
  priv : Bool := false
  denied : Bool := false    -- PRIVILEGE at any level: a register that `kwsys` cannot write (R105)
  rel : List Nat := []
  illegal : Bool := false   -- a field use or place the entry calls ILLEGAL_OPCODE, which decoding alone cannot see
  deriving DecidableEq, Repr

/-! ### Checks 5 to 9 of R60 -/

def fieldInRange (g : Group) (w : Word) (u : Use) (n : BitVec 8) : Bool :=
  let n := n.toNat
  match u with
  | .reg c r => match c with
    | .vec | .plain | .cvtSrc => n == 255 || (if w.pair c then n != 254 && n + 1 < g.regs else n < g.regs)
    | .record => true
    | .mask => n < 8 && (r == .src || n != 0)
    | .ctl => n < 32
    | .acc => n < g.tiles.length
  | _ => true

def literalInRange (g : Group) (w : Word) : Bool :=
  w.litNames.k.all (· < 32) && (match w.lit with
    | .set l =>
      let vec := fun (n : Nat) => n == 255 || (if w.pair .vec then n != 254 && n + 1 < g.regs else n < g.regs)
      if w.sh.op = 0x205 || w.sh.op = 0x206 then vec l.x.toNat else if w.sh.op = 0x207 then vec l.x.toNat && vec l.y.toNat else true
    | _ => true)

def scopeOk (w : Word) : Bool :=
  match w.sh.xf with
  | .mem _ scopes => scopes.contains (w.f.xf.toNat % 8)
  | .codes _ => true

def Group.schk (g : Group) : Bool := g.mode.getLsbD 9
def Group.utrap (g : Group) : Bool := g.mode.getLsbD 10

/-- With BFIRST and no active lane no vector name is read (R45, R155); the mask that says so is. -/
def Word.readsOf (w : Word) (g : Group) : Names :=
  if w.f.bfirst && g.active w.f.pred.toNat = 0 then { w.reads with v := [] } else w.reads

/-! ### Interlocks (R58, R304) -/

/-- The names with an interlocked write outstanding. -/
def Group.locked (g : Group) : Names :=
  { v := g.reqs.flatMap fun r => match r.dest with
      | .vec n p => vecNames n p
      | _ => []
    k := g.reqs.flatMap fun r => match r.dest with
      | .ctl n => [n]
      | _ => [] }

def Group.interlocked (g : Group) (ns : Names) : Bool :=
  let l := g.locked
  ns.v.any (fun n => n != 255 && l.v.contains n) || ns.k.any (fun n => n != 0 && l.k.contains n)

/-- What a word reads and writes. -/
def Word.allReads (w : Word) (g : Group) (ex : Extra) : Names := (w.readsOf g).append ex.r
def Word.allWrites (w : Word) (ex : Extra) : Names := w.writes.append ex.w

/-- The first of ILLEGAL_OPCODE where the issuer decides it, PRIVILEGE, SCOPE_INVALID, OPERAND_RANGE, STALL_SHORT and UNINIT_READ that the word raises (R60). A word that an interlock still holds has not read its registers, so the last two wait until the writes have landed (R58). -/
def issueFault (g : Group) (w : Word) (ex : Extra) : Option Nat :=
  let rd := w.allReads g ex
  if ex.illegal then some 0x02
  else if ex.denied || (w.sh.sup || ex.priv) && !(g.sup || g.ccc) then some 0x07
  else if !scopeOk w then some 0x16
  else if !(fieldInRange g w w.sh.d w.f.d && fieldInRange g w w.sh.a w.f.a && fieldInRange g w w.sh.b w.f.b && literalInRange g w && ex.ok) then some 0x04
  else if g.interlocked (rd.append (w.allWrites ex)) then none
  else if g.schk && (rd.v.any g.lateV || rd.m.any g.lateM || rd.k.any g.lateK) then some 0x05
  else if g.utrap && rd.v.any g.unwrittenV then some 0x06
  else none

/-- Requests a save would carry as packets (R304). -/
def Group.packets (g : Group) : Nat := (g.reqs.filter fun r => r.kind != .store || g.unver).length

/-- Is no interlocked write outstanding? -/
def Group.landed (g : Group) : Bool := g.reqs.all fun r => r.dest == .none

/-! ### Pools (R106, R107) -/

/-- Is the name spilled by a parking: a name above the floor with a register from the pool (R108)? -/
def Group.spills (g : Group) (n : Nat) (r : VReg) : Bool := r.alloc && r.pooled && !g.isFloor n

/-- Registers of bank b that a parked group has spilled. -/
def Group.spilledIn (g : Group) (b : Nat) : Nat := (g.v.filter fun e => g.spills e.1 e.2 && e.1 % 4 == b).length

/-- Groups that hold registers of a quadrant. -/
def State.quadGroups (s : State) (q : Nat) : List Group := s.allGroups.filter fun h => h.resident && h.quad == q

/-- FLOORHELD of bank b (Table 6-8). -/
def State.floorHeld (s : State) (q b : Nat) : Nat := ((s.quadGroups q).map fun h => h.floorIn b).sum

/-- Free registers of the pool of bank b: 512 − FLOORHELD − above-floor registers allocated. -/
def State.poolFree (s : State) (q b : Nat) : Nat :=
  Config.bankRegisters - s.floorHeld q b - ((s.quadGroups q).map fun h => h.pooledIn b - if h.st = .parked then h.spilledIn b else 0).sum

def inBank (ns : List Nat) (b : Nat) : Nat := (ns.filter fun n => n % 4 == b).length

/-- Has the group been granted the registers it waited for? It holds its claim to them until its word issues (R107). -/
def Group.granted (h : Group) : Bool := (h.st == .ready || h.st == .handler) && (match h.wait with
  | .alloc _ => true
  | _ => false)

/-- Registers of a bank that are not for the group with this uid: those granted to others, and those that older groups wait for (R107). A parked group claims nothing until its restore (R33, R108). -/
def State.claimed (s : State) (q uid b : Nat) : Nat :=
  ((s.quadGroups q).map fun h => if h.uid != uid && (h.uid < uid || h.granted) && h.st != .parked then match h.wait with
    | .alloc ns => inBank (h.poolNames ns) b
    | _ => 0
  else 0).sum

/-- Can a group take registers for these names now, every older claim met first? -/
def State.canAlloc (s : State) (h : Group) (ns : List Nat) : Bool :=
  let need := h.poolNames ns
  (List.range 4).all fun b => inBank need b = 0 || inBank need b + s.claimed h.quad h.uid b ≤ s.poolFree h.quad b

/-- Where a woken group goes (R32). -/
def Group.awake (g : Group) : SlotState := if g.sup then .handler else .ready

/-- Does the group wait for registers that it could take now? -/
def State.servable (s : State) (h : Group) : Bool :=
  h.st == .waitAlloc && h.resident && (match h.wait with
    | .alloc ns => s.canAlloc h ns
    | _ => false)

/-- Freed registers go to waiting groups of the quadrant, oldest first, as far as they suffice (R107); a register granted is no other group's, whatever its age, until the word that waited for it issues. -/
def State.grant (s : State) (q : Nat) : State :=
  let woken := s.allGroups.filter fun h => h.quad == q && s.servable h
  (woken.foldl (fun s h => s.progress h.part h.ctx) s).mapGroups (fun h => h.quad == q && s.servable h) fun h => { h with st := h.awake }

/-! ### Taking a fault (R302) -/

/-- A path table entry as 16 bytes (Table 2-1). -/
def pathBytes (e : PathEnt) : List Byte :=
  let lo : W64 := if e.valid then 0x8000000000000000 ||| (if e.arrived then 0x4000000000000000 else 0) ||| pcBits e.pc else 0
  let hi : Nat := if e.valid then e.mask.toNat + 2 ^ 32 * e.tag.toNat + 2 ^ 48 * e.age.toNat else 0
  leBytes 8 lo.toNat ++ leBytes 8 hi

def pathOfBytes (bs : List Byte) : PathEnt :=
  let lo : W64 := BitVec.ofNat 64 (leNat (bs.take 8))
  let hi := leNat (bs.drop 8)
  if lo.getLsbD 63 then
    { valid := true, arrived := lo.getLsbD 62, pc := pcBits (lo &&& 0x00FFFFFFFFFFFFF8), mask := BitVec.ofNat 32 hi, tag := BitVec.ofNat 16 (hi / 2 ^ 32), age := BitVec.ofNat 16 (hi / 2 ^ 48) }
  else {}

/-- The fault record (Table 15-2). -/
def recordBytes (g : Group) (r : FaultRec) (time : W64) : List Byte :=
  [BitVec.ofNat 8 r.code, (if r.async then 1 else 0) + (if r.lit then 2 else 0), BitVec.ofNat 8 (if r.replay = 0 then 0 else lowest r.replay), 0]
    ++ leBytes 4 r.replay.toNat ++ leBytes 4 g.m0.toNat ++ leBytes 4 0 ++ leBytes 8 r.pc.toNat ++ leBytes 8 r.word0.toNat ++ leBytes 8 r.word1.toNat
    ++ leBytes 8 r.addr.toNat ++ leBytes 8 r.done ++ leBytes 8 time.toNat ++ g.paths.flatMap pathBytes ++ List.replicate 64 0

/-- A fault in HANDLER, or a fault entry that fails: the group waits and a docket of kind 2 is posted; nothing else of it changes. A fault in HANDLER counts its block as faulted (R349). -/
def State.escalate (s : State) (r : FaultRec) : State :=
  let g := s.g
  let s := { s with g := { g with st := .waitExt, wait := .escalated, resume := none } }
  let s := if g.sup then { s with work := { s.work with blocks := s.work.blocks.map fun (b : Block) => if b.id = g.blk then { b with faulted := true } else b } } else s
  s.docket 2 r.code g.core g.part g.ctx (leBytes 8 g.frec.toNat ++ leBytes 8 r.pc.toNat)

/-- Tests that every byte of the record can be written: one translation for each 64-byte quarter. -/
def State.recordPlaces (s : State) : (quarters : List Nat) → List Loc → Option (List Loc) × State
  | [], ls => (some ls, s)
  | q :: qs, ls =>
    let r := s.translate s.g .write (s.g.frec.toNat + 64 * q)
    match r.1 with
    | .ok l _ => State.recordPlaces r.2 qs (ls ++ [l])
    | _ => (none, r.2)

/-- The handler address for a code, if its entry can be read and is well formed (R376). -/
def State.vector (s : State) (code : Nat) : Option W64 × State :=
  let r := s.translate s.g .read ((s.ctx s.g.part s.g.ctx).tvec.toNat + 8 * code)
  match r.1 with
  | .ok l _ =>
    let e := r.2.loadVerified s.g.who l 8
    let v : W64 := BitVec.ofNat 64 (leNat e.1)
    (if v = 0 || pcBits v != v then none else some v, e.2)
  | _ => (none, r.2)

/-- Fault entry of the issuing group (R302), and whether it entered HANDLER. -/
def State.enterHandler (s : State) (r : FaultRec) : State × Bool :=
  if s.g.sup || s.g.ccc then (s.escalate r, false)
  else match s.recordPlaces [0, 1, 2, 3] [] with
    | (none, s') => (s'.escalate r, false)
    | (some ls, s') => match s'.vector r.code with
      | (none, s'') => (s''.escalate r, false)
      | (some entry, s'') =>
        let g := s''.g
        let bs := recordBytes g r (s''.part g.part).time
        let s3 := (List.range 4).foldl (fun s q => s.storeRun g.who (ls.getD q ⟨.hbm, 0⟩) ((bs.drop (64 * q)).take 64)) s''
        ({ s3 with g := { s3.g with
            sup := true, frecAt := g.frec, m0 := if r.replay = 0 then g.m0 else r.replay, pc := entry, st := .handler, wait := .none, resume := none, stall := 0 } }, true)

/-- The restriction of a replay ends with its word (R164). -/
def Group.endReplay (g : Group) : Group :=
  match g.replay with
  | some r => { g with m0 := r.back, replay := none }
  | none => g

/-- The word that waits ends without its effect: the registers taken for it go back (R110). -/
def Group.untake (g : Group) : Group := { g with v := g.took.foldl (fun v n => tdel v n) g.v, took := [] }

/-- A fault raised by the word at PC of the issuing group: inside a region an abort with cause FAULT (R277), else fault entry. The distance to the next word is a transfer's (R56). An asynchronous fault that strikes a group in an open region aborts it so too, and is spent (DESIGN CHOICE, log 105). The second component says whether the group entered HANDLER. -/
def State.trapRec (s : State) (r : FaultRec) (space : Nat) : State × Bool :=
  let g := s.g.untake.endReplay
  let g := { g with dist := g.dist + space, lastSpace := space, word0 := r.word0, word1 := if r.lit then some r.word1 else none
                    sent := none, arrival := none, resume := none, assist := none, refused := [] }
  if g.inreg then
    let h := { g.abortRegion 9 with st := g.awake, wait := .none }
    ({ s with g := if g.abortChecks then (h.ageSwitch h.pc).getD h else h }, false)
  else State.enterHandler { s with g := g } r

/-! ### Waits that a fault, retirement or kill of another group breaks (R141, R287) -/

/-- Does the PAIR of h name this core and slot? -/
def Group.pairNames (h : Group) (core slot : Nat) : Bool :=
  h.pair.getLsbD 15 && (h.pair.extractLsb' 8 7).toNat == core && (h.pair.extractLsb' 0 8).toNat == slot

/-- The size of a gang, and the quadrant slots GANG lists (Table 6-4). -/
def gangSize (gang : W64) : Nat := (gang.extractLsb' 0 3).toNat
def gangSlots (gang : W64) : List Nat := (List.range (min 6 (gangSize gang))).map fun i => (gang.extractLsb' (8 * i + 8) 8).toNat

/-- The fault code and replay mask with which the waiting group h meets the end of the group x. -/
def brokenBy (x h : Group) : Option (Nat × Mask) :=
  if h.uid = x.uid || h.part != x.part || h.ctx != x.ctx || h.st = .preempted || h.stopping then none
  else if h.wait = .pair && h.pairNames x.core x.slot then some (0x11, h.m0)
  else if h.wait = .gang && h.blk == x.blk && h.quad == x.quad && (gangSlots h.gang).contains (x.slot % 48) then some (0x0F, 1)
  else none

/-- A parked group that takes a fault goes where the fault sends it at its restore (R108). -/
def Group.stayParked (g : Group) (was : SlotState) : Group := if was = .parked then { g with st := .parked, left := g.st } else g

/-- The fault of a group that waits in its word. -/
def State.faultWaiter (s : State) (uid code : Nat) (replay : Mask) : State × Bool :=
  let own := s.g.uid
  let s1 := s.checkout uid
  let g := s1.g
  let r := s1.trapRec { code := code, async := false, replay := replay, pc := g.pc, word0 := g.word0, word1 := g.word1.getD 0, lit := g.word1.isSome, addr := 0, done := 0 } (max 3 (g.stall + 1))
  (State.checkout { r.1 with g := r.1.g.stayParked g.st } own, r.2)

/-- Breaks the waits that the groups of the list end, and those that the groups so broken end in turn. -/
def State.breakWaits : (fuel : Nat) → List Group → State → State
  | 0, _, s => s
  | _, [], s => s
  | n + 1, x :: xs, s =>
    let r := s.allGroups.foldl (fun (acc : State × List Group) h => match brokenBy x h with
      | some (code, replay) =>
        let q := acc.1.faultWaiter h.uid code replay
        (q.1, if q.2 then acc.2 ++ [h] else acc.2)
      | none => acc) (s, [])
    State.breakWaits n (xs ++ r.2) r.1

/-- The end of a group, or its entry into HANDLER, as its partners and gangs meet it. -/
def State.broken (s : State) (x : Group) : State := s.breakWaits (s.allGroups.length + 1) [x]

/-- Fault entry of the issuing group, with the waits it breaks. -/
def State.enterFault (s : State) (r : FaultRec) : State :=
  let q := s.enterHandler r
  if q.2 then q.1.broken q.1.g else q.1

/-- Records an issued word as progress (R314). -/
def State.issued (s : State) : State := if s.g.ccc then s else s.progress s.g.part s.g.ctx

/-- The record of a fault that the word at PC raises. -/
def Word.fault (w : Word) (g : Group) (code : Nat) (replay : Mask) (addr : W64) : FaultRec :=
  { code := code, async := false, replay := replay, pc := g.pc, word0 := w.w0, word1 := w.w1.getD 0, lit := w.w1.isSome, addr := addr, done := 0 }

/-- A fault raised by the word that issues. -/
def State.trap (s : State) (w : Word) (code : Nat) (replay : Mask) (addr : W64) : State :=
  let s := { s with g := { s.g with gage := 0 } }
  let q := s.trapRec (w.fault s.g code replay addr) (max 3 (w.stall + 1))
  (if q.2 then q.1.broken q.1.g else q.1).issued

/-! ### Returning from a fault (R164) -/

/-- What `eret` reads: the record that the fault entry wrote, since a write of FREC since then takes effect at the next entry alone (R166), or the answer that stops its read (DEDUCED, log 72). -/
def State.readRecord (s : State) : (Except Trans (List Byte)) × State :=
  (List.range 4).foldl (fun acc q => match acc with
    | (.error t, s) => (.error t, s)
    | (.ok bs, s) =>
      let r := s.translate s.g .read (s.g.frecAt.toNat + 64 * q)
      match r.1 with
      | .ok l _ => let e := r.2.loadVerified s.g.who l 64; (.ok (bs ++ e.1), e.2)
      | t => (.error t, r.2)) (.ok [], s)

/-- The return: path table and m0 come back, SUP is cleared, and PC is the resume PC, the next instruction, or the instruction to replay with the replay mask (log 16). A replayed word that transfers control keeps its transfer, as it is replayed in full (DEDUCED, log 74). -/
def Group.returnFrom (g : Group) (bs : List Byte) : Group :=
  let nat := fun a n => leNat ((bs.drop a).take n)
  let pmask : Mask := BitVec.ofNat 32 (nat 8 4)
  let pc : W64 := pcBits (BitVec.ofNat 64 (nat 0x10 8))
  let flags := nat 1 1
  let replay : Mask := BitVec.ofNat 32 (nat 4 4)
  let g := { g with paths := (List.range 8).map fun i => pathOfBytes ((bs.drop (0x40 + 16 * i)).take 16), m0 := pmask, sup := false, st := .ready }
  if flags % 2 = 1 then { g with pc := pc }
  else if replay = 0 then { g with pc := pcBits (pc + (if flags / 2 % 2 = 1 then 16 else 8)) }
  else { g with pc := pc, replay := some { lanes := replay, back := pmask } }

/-- Does the word act on lanes, so that a replay restricts it (R164)? -/
def Word.acts (w : Word) : Bool := w.sh.pred

/-- A replayed word begins: a word that acts on lanes runs with m0 restricted to them, any other word runs in full. -/
def Group.enterReplay (g : Group) (w : Word) : Group :=
  match g.replay with
  | none => g
  | some r => if w.acts then { g with m0 := r.lanes &&& r.back } else { g with replay := none }

/-- Does the replay mask leave no lane, so that the word is skipped? -/
def Group.skipsReplay (g : Group) (w : Word) : Bool :=
  match g.replay with
  | none => false
  | some r => w.acts && r.lanes &&& r.back == 0

/-! ### Running a word -/

/-- How a word ends. -/
inductive Flow where
  | done
  /-- a transfer to t; `check` asks for the ageing check of R151 when t is at or below the word -/
  | goto (t : W64) (check : Bool)
  /-- the ageing check of `pyield` (R21) -/
  | yield
  | trap (code : Nat) (addr : W64)
  /-- lanes that failed while the others complete (R188); `req` is the request of those others -/
  | lanes (req : Option Nat) (code : Nat) (replay : Mask) (addr : W64)
  /-- held at issue: the word has had no effect and issues again when the group wakes (R32) -/
  | hold (st : SlotState) (w : Wait)
  /-- held, but effects so far stand; the word issues again when the group wakes -/
  | retry (st : SlotState) (w : Wait)
  /-- `eret`: the group is already where it returns to -/
  | returned
  /-- `gexit`: the group has retired -/
  | retired
  /-- the group waits and an agent completes the word; effects so far stand -/
  | wait (st : SlotState) (w : Wait)
  /-- the assist routine completes the word (R94) -/
  | assist
  /-- an open region aborts (R277) -/
  | abort (cause : Nat)
  deriving DecidableEq, Repr

/-- Names that last-read bits release when the word completes (R47). -/
def Word.releases (w : Word) (ex : Extra) : List Nat :=
  let a := if w.f.lra then (w.useNames true w.sh.a w.f.a).v else []
  let b := if w.f.lrb then (w.useNames true w.sh.b w.f.b).v else []
  let d := if w.f.lrd then (w.useNames true w.sh.d w.f.d).v ++ ex.r.v else []
  let keep := w.writes.v ++ ex.w.v
  ((a ++ b ++ ex.rel).filter fun n => !keep.contains n) ++ d

/-- Releases names, and their tags. -/
def Group.releaseAll (g : Group) (ns : List Nat) : Group :=
  ns.foldl Group.releaseV { g with region := g.region.map fun r => r.untag ns 0xFFFFFFFF }

/-- The names a group gives up; freed registers go to waiting groups. -/
def State.releaseNames (s : State) (ns : List Nat) : State :=
  if ns.isEmpty then s
  else State.grant { s with g := s.g.releaseAll ns } s.g.quad

/-- Moves the issuing group past its word. -/
def Group.advance (g : Group) (w : Word) (pc : W64) (space : Nat) : Group :=
  { g with pc := pc, dist := g.dist + space, lastSpace := space, gage := 0, wait := if w.stall = 0 then .none else .stall, resume := none, refused := []
           stall := w.stall, st := if w.stall = 0 then g.awake else .waitStall, word0 := w.w0, word1 := w.w1 }

/-- The end of a word that completes: releases, PC and spacing (R55), the end of a replay, and the ageing check. -/
def State.finish (s : State) (w : Word) (rel : List Nat) (pc : W64) (space : Nat) (check : Bool) : State :=
  let s := (s.releaseNames rel).issued
  let own := s.g.pc
  let g := s.g.endReplay.advance w pc space
  let g := if check && !g.inreg && pc.toNat ≤ own.toNat then (g.ageSwitch pc).getD g else g
  { s with g := g }

/-- The group g after a word that has not issued, which found it as g0: paths have not aged, no register is taken, no read counts, and no instruction of an open region is counted (R21, R106, R266). -/
def Group.unissued (g g0 : Group) : Group :=
  { g with paths := g0.paths, v := g0.v, uninit := g0.uninit, region := g.region.map fun r => { r with count := (g0.region.map Region.count).getD r.count } }

/-- The registers that the word took for names it has not written, given back (R110): `g0` is the group before the word. -/
def Group.giveBack (g g0 : Group) (ns : List Nat) : Group :=
  ns.foldl (fun g n => if !(g0.vreg n).alloc && (g.vreg n).fresh && (g.vreg n).pend.isEmpty then { g with v := tdel g.v n } else g) g

/-- The end of a word by its flow; `s0` is the state before the word. A word that faults has not issued for R21: no pending path ages by it (DESIGN CHOICE, log 69). -/
def State.conclude (s0 : State) (w : Word) (ex : Extra) (r : State × Flow) : State :=
  let s := r.1
  let next := w.next s0.g.pc
  let spT := max 3 (w.stall + 1)
  match r.2 with
  | .done => s.finish w (w.releases ex) next (w.stall + 1) false
  | .goto t check => s.finish w (w.releases ex) (pcBits t) spT check
  | .yield =>
    match (if s.g.inreg then none else s.g.ageSwitch next) with
    | some h => let s := s.finish w [] h.pc spT false; { s with g := { s.g with m0 := h.m0, paths := h.paths } }
    | none => s.finish w [] next (w.stall + 1) false
  | .trap code addr => s0.trap w code 0 addr
  | .lanes req code replay addr =>
    let busy := match req with
      | some id => s.g.reqs.any fun q => q.id == id
      | none => false
    if busy && !s.g.inreg then
      { s with g := { s.g with st := .waitStall, wait := .faultAfter (req.getD 0) code replay addr, word0 := w.w0, word1 := w.w1, gage := 0, paths := s0.g.paths } }
    else State.trap { s with g := { (if req.isNone then s.g.giveBack s0.g (w.allWrites ex).v else s.g) with paths := s0.g.paths } } w code replay addr
  | .hold st wt => { s0 with g := { s0.g with st := st, wait := wt, word0 := w.w0, word1 := w.w1 } }
  | .retry st wt => { s with g := { (s.g.unissued s0.g) with st := st, wait := wt, word0 := w.w0, word1 := w.w1 } }
  | .retired => s.progress s0.g.part s0.g.ctx
  | .returned => let s := s.issued; { s with g := s.g.advance w s.g.pc spT }
  | .wait st wt =>
    State.issued { s with g := { s.g with st := st, wait := wt, word0 := w.w0, word1 := w.w1, gage := 0, stall := w.stall, resume := some ⟨next, w.stall + 1, w.releases ex⟩
                                          took := (w.allWrites ex).v.filter fun n => n != 255 && !(s0.g.vreg n).alloc } }
  | .assist =>
    State.issued { s with g := { s.g with st := .waitStall, wait := .assist, word0 := w.w0, word1 := w.w1, gage := 0, stall := w.stall, resume := some ⟨next, w.stall + 1, w.releases ex⟩ } }
  | .abort cause =>
    let g := { s0.g.endReplay with paths := agePaths s0.g.paths }
    let h := { (g.abortRegion cause) with dist := g.dist + spT, lastSpace := spT, gage := 0, st := g.awake, wait := .none, word0 := w.w0, word1 := w.w1 }
    let h := if g.abortChecks then (h.ageSwitch h.pc).getD h else h
    State.issued (State.grant { s with g := { h with lastPage := s.g.lastPage } } h.quad)

/-- A wait of a group ends: it is READY, or HANDLER when it waited in supervisor code; a parked or pre-empted group goes there at its restore (R108, R34). -/
def Group.rouse (h : Group) : Group :=
  if h.st = .parked || h.st = .preempted then { h with left := h.awake, wait := .none } else { h with st := h.awake, wait := .none }

/-- An agent completes the word the group with this uid waits in: what `finish` does, at that moment. -/
def State.completeWait (s : State) (uid : Nat) : State :=
  match s.group? uid with
  | none => s
  | some h =>
    match h.resume with
    | none => (s.putGroup h.rouse).progress h.part h.ctx
    | some r =>
      let h := h.releaseAll r.rel
      let h := { h.endReplay with pc := pcBits r.next, dist := h.dist + r.space, lastSpace := r.space, resume := none, assist := none, took := [] }
      State.grant ((s.putGroup h.rouse).progress h.part h.ctx) h.quad

/-- Is the wait one that a word may only find again: its condition is tested when the word issues once more? Leaving it is no progress (R314). -/
def Wait.again : Wait → Bool
  | .kwait _ | .stall | .hold | .until_ _ => true
  | _ => false

/-- The group with this uid leaves a retry wait: its word issues again (R32). -/
def State.wake (s : State) (uid : Nat) : State :=
  match s.group? uid with
  | none => s
  | some h =>
    let s' := s.putGroup h.rouse
    if h.wait.again then s' else s'.progress h.part h.ctx

/-! ### Regions at issue (R266, R267, R153) -/

/-- Instructions that abort an open region before they execute. -/
def forbiddenInRegion (op : Nat) : Bool :=
  (op / 256 == 2 && !(([0x201, 0x202, 0x203, 0x204, 0x221, 0x222, 0x223, 0x224, 0x20A, 0x22A, 0x241, 0x242] : List Nat).contains op))
    || [0x3D0, 0x3D1, 0x3F3, 0x3EF, 0x3EE, 0x3EB, 0x3EC, 0x3ED, 0x3F9].contains op

/-- `acom` and `aabt` are not counted (R266). -/
def countedInRegion (op : Nat) : Bool := op != 0x241 && op != 0x242

/-- The cause with which the word aborts an open region at issue. -/
def regionBar (g : Group) (w : Word) : Option Nat :=
  match g.region with
  | none => none
  | some r => if forbiddenInRegion w.sh.op then some 10 else if countedInRegion w.sh.op && 256 ≤ r.count then some 8 else none

def Group.countInRegion (g : Group) (w : Word) : Group :=
  { g with region := g.region.map fun r => { r with now := g.dist, count := if countedInRegion w.sh.op then r.count + 1 else r.count } }

/-- The group as the body of its word finds it: registers taken for the names it writes (R106), the word counted in an open region (R266), pending paths aged (R21), and reads of unwritten names noted (R109). -/
def Group.begin (g : Group) (w : Word) (ex : Extra) : Group :=
  let h := (g.allocAll (w.allWrites ex).v).countInRegion w
  { h with paths := agePaths h.paths, uninit := h.uninit || (w.allReads g ex).v.any g.unwrittenV, wait := .none }

/-- Every word: what an open region forbids before the word executes (R267), the checks of R60 from PRIVILEGE on, the interlock, the allocation, then the body. -/
def issueWord (w : Word) (ex : Extra) (body : State → State × Flow) (s : State) : State :=
  match regionBar s.g w with
  | some cause => s.conclude w ex (s, .abort cause)
  | none => match issueFault s.g w ex with
    | some code => s.trap w code 0 0
    | none =>
      let wr := (w.allWrites ex).v
      let ns := (w.allReads s.g ex).append (w.allWrites ex)
      if s.g.interlocked ns then s.conclude w ex (s, .hold .waitStall (.until_ (.regs ns.v ns.k)))
      else if !s.canAlloc s.g wr then
        if s.g.inreg then s.conclude w ex (s, .abort 13) else s.conclude w ex (s, .hold .waitAlloc (.alloc (s.g.poolNames wr)))
      else s.conclude w ex (body { s with g := s.g.begin w ex })

/-- A word, or the replay of one (R164). -/
def runWord (w : Word) (ex : Extra) (body : State → State × Flow) (s : State) : Answer :=
  answer <|
    if s.g.skipsReplay w then { s with g := { s.g.endReplay with pc := w.next s.g.pc } }
    else issueWord w ex body { s with g := s.g.enterReplay w }

end Sys2Proof.Machine
end

