-- ==== Sys2Proof/Machine/Operands.lean ====
section
/-! DEFINITION. Operand forms of the vector instructions (R40 to R50, R115, R116), the use of symbolic tags (R269, R270), and the writing of vector results with the subnormal assist (R94). -/

namespace Sys2Proof.Machine

open Sys2Proof

/-! ### Elements -/

/-- Sub-element i of width w. -/
def subElem (w i x : Nat) : Nat := x / 2 ^ (w * i) % 2 ^ w

/-- Joins sub-elements of width w, the first lowest. -/
def joinElems (w : Nat) (xs : List Nat) : Nat := xs.foldr (fun x acc => x % 2 ^ w + 2 ^ w * acc) 0

/-- The same element in every sub-element of a lane of type t. -/
def splat (t : ElemType) (x : Nat) : Nat := joinElems (elemWidth t) (List.replicate (elemCount t) x)

/-- R46: negation of every sub-element. -/
def negElems (t : ElemType) (x : Nat) : Nat :=
  let w := elemWidth t
  joinElems w ((List.range (elemCount t)).map fun i =>
    let e := subElem w i x
    if elemIeee t then (if e < 2 ^ (w - 1) then e + 2 ^ (w - 1) else e - 2 ^ (w - 1)) else (2 ^ w - e) % 2 ^ w)

/-- R50: an imm32 as an operand of type t. -/
def imm32Operand (t : ElemType) (v : W32) : Nat :=
  match t with
  | .i64 => (v.signExtend 64).toNat
  | .n64 => v.toNat
  | .f64 => widenF32 v.toNat
  | .e3m2 | .e2m3 => splat t (v.toNat % 64)
  | _ => splat t v.toNat

/-- R115: an imm8, sign-extended to the element width, in every sub-element. -/
def imm8Operand (t : ElemType) (b : BitVec 8) : Nat := splat t (b.signExtend 64).toNat

/-! ### Sources -/

/-- The lane a source is read from (R45): `which` is 1 for A and 2 for B. -/
def Word.srcLane (w : Word) (act : Mask) (which l : Nat) : Nat :=
  if w.f.bsel.toNat = which then (if w.f.bfirst then lowest act else w.f.blane.toNat) else l

/-- A register operand in every lane, after broadcast and negation. -/
def Word.source (w : Word) (g : Group) (act : Mask) (which : Nat) (t : ElemType) : List Nat :=
  let u := if which = 1 then w.sh.a else w.sh.b
  let n := if which = 1 then w.f.a else w.f.b
  let neg := if which = 1 then w.f.nega else w.f.negb
  let vals := match u with
    | .reg c _ => g.readOp n.toNat (w.pair c)
    | _ => []
  laneNumbers.map fun l =>
    let x := vals.getD (w.srcLane act which l) 0
    if neg then negElems t x else x

/-- Operand B by its form: a register, an imm8 or an imm32. -/
def Word.operandB (w : Word) (g : Group) (act : Mask) (t : ElemType) : List Nat :=
  match w.lit with
  | .imm32 v => List.replicate 32 (imm32Operand t v)
  | _ => match w.sh.b with
    | .imm => List.replicate 32 (imm8Operand t w.f.b)
    | _ => w.source g act 2 t

/-- D as a source. -/
def Word.operandD (w : Word) (g : Group) : List Nat :=
  match w.sh.d with
  | .reg c _ => g.readOp w.f.d.toNat (w.pair c)
  | _ => []

/-- The type XF names. -/
def Word.type (w : Word) : ElemType := (elemOf w.f.xf.toNat).getD .n32

/-- The latency of a word's result: Table 7-2 gives 8 for the 64-bit multiplies and the FP64 row. -/
def Word.lat (w : Word) : Nat :=
  let idx := w.sh.op % 64
  if w.sh.op < 0x100 && 5 ≤ idx && idx ≤ 7 && codePair w.f.xf.toNat then 8
  else if 0x100 ≤ w.sh.op && w.sh.op < 0x200 && 1 ≤ idx && idx ≤ 6 && w.f.xf = 11 then 8
  else w.sh.lat

/-! ### Tags of sources (R118, R269) -/

/-- The vector names of source A or B. -/
def Word.srcNames (w : Word) (which : Nat) : List Nat :=
  if which = 1 then (w.useNames true w.sh.a w.f.a).v else (w.useNames true w.sh.b w.f.b).v

/-- The tags met when lane l reads a source. -/
def Word.tagsRead (w : Word) (r : Region) (act : Mask) (which l : Nat) : List (TagKey × Tag) :=
  ((w.srcNames which).flatMap fun n => r.tagsAt n (w.srcLane act which l)).eraseDups

/-- Marks the loads of every tagged source of the active lanes, of D as a source, and of every tagged control source concrete. -/
def Group.concreteReads (g : Group) (w : Word) (act : Mask) : Group :=
  { g with region := g.region.map fun r =>
      let vs := (lanesOf act).flatMap fun l =>
        w.tagsRead r act 1 l ++ w.tagsRead r act 2 l ++ ((w.useNames true w.sh.d w.f.d).v.flatMap fun n => r.tagsAt n l)
      let ks := w.reads.k.filterMap fun n => (r.tag? (.ctl n)).map fun t => (TagKey.ctl n, t)
      r.concreteTags (vs ++ ks) }

/-- Marks tagged values read from one register in the given lanes concrete. -/
def Group.concreteLanes (g : Group) (ns lanes : List Nat) : Group :=
  { g with region := g.region.map fun r => r.concreteTags (ns.flatMap fun n => lanes.flatMap fun l => r.tagsAt n l) }

def Group.concreteK (g : Group) (n : Nat) : Group :=
  { g with region := g.region.map fun r => match r.tag? (.ctl n) with
      | some t => r.concrete t.j
      | none => r }

def Group.untagV (g : Group) (ns : List Nat) (mask : Mask) (lat : Nat := 0) : Group :=
  { g with region := g.region.map fun r => r.untag ns mask lat }

/-- The one tag of a source in a lane, if it is tagged whole: a lane of a 32-bit type, a pair of a 64-bit type. -/
def wholeTag (t : ElemType) (n : Nat) (ts : List (TagKey × Tag)) : Option Tag :=
  match ts with
  | [(.lane m _, tag)] => if m = n && tag.width = elemWidth t then some tag else none
  | [(.pair m _, tag)] => if m = n && tag.width = elemWidth t then some tag else none
  | _ => none

/-- `vadd` and `vsub` (Table 13-2): the tag an active lane of D takes, and the tags whose loads become concrete. -/
def addTag (w : Word) (r : Region) (t : ElemType) (act : Mask) (sub : Bool) (l : Nat) : Option Tag × List (TagKey × Tag) :=
  let ta := w.tagsRead r act 1 l
  let tb := w.tagsRead r act 2 l
  let typeOk := elemWidth t == 32 || elemWidth t == 64
  let plainA := !w.f.nega && w.f.bsel != 1
  let plainB := !w.f.negb && w.f.bsel != 2
  if ta.isEmpty && tb.isEmpty then (none, [])
  else if typeOk && tb.isEmpty && plainA then
    match wholeTag t w.f.a.toNat ta with
    | some x => (some x, [])
    | none => (none, ta)
  else if typeOk && ta.isEmpty && plainB && !sub then
    match wholeTag t w.f.b.toNat tb with
    | some x => (some x, [])
    | none => (none, tb)
  else (none, ta ++ tb)

/-- The tags after a `vadd` or `vsub` of the active lanes. -/
def Group.addTags (g : Group) (w : Word) (t : ElemType) (act : Mask) (sub : Bool) : Group :=
  { g with region := g.region.map fun r =>
      let res := (lanesOf act).map fun l => (l, addTag w r t act sub l)
      let r' := r.concreteTags (res.flatMap fun x => x.2.2)
      let r' := r'.untag w.writes.v act w.lat
      if w.f.d = 255 then r'
      else res.foldl (fun q x => match x.2.1 with
        | some tag => q.addTag (if elemPair t then .pair w.f.d.toNat x.1 else .lane w.f.d.toNat x.1) tag w.lat
        | none => q) r' }

/-- The constraint of a compare with one tagged operand (R270); none of it is recorded unless the widths agree. -/
def compareEntry (r : Region) (t : Tag) (v : Nat) (left signed : Bool) (cond k : Nat) (outcome : Bool) : ConEnt :=
  { j := t.j, c := r.offset t v, cond := if left then cond else mirrorCond cond, signed := signed, width := t.width, ext := t.ext, k := k, outcome := outcome }

/-! ### Results -/

/-- What a lane produces: its operand-wide value, flags, generator, and whether it is left for the assist. -/
structure LaneOut where
  lane  : Nat
  val   : Nat
  flags : W64 := 0
  gen   : W32
  tiny  : Bool := false
  deriving DecidableEq, Repr

/-- A vector result: a name, its width, the bits of each lane that are written, the lanes, and the latency. -/
structure VecRes where
  n    : Nat
  pair : Bool
  bits : Nat
  outs : List LaneOut
  lat  : Nat := 0
  deriving DecidableEq, Repr

def outMask (os : List LaneOut) : Mask := maskOf fun l => os.any fun o => o.lane == l
def outVals (os : List LaneOut) : List Nat := laneNumbers.map fun l => ((os.find? fun o => o.lane == l).map LaneOut.val).getD 0
def outFlags (os : List LaneOut) : W64 := os.foldl (fun acc o => acc ||| o.flags) 0
def outGens (gens : List W32) (os : List LaneOut) : List W32 :=
  laneNumbers.map fun l => match os.find? fun o => o.lane == l with
    | some o => o.gen
    | none => genAt gens l

/-- The register writes of a result, restricted to the lanes of `mask`. -/
def VecRes.writes (r : VecRes) (mask : Mask) : List RegWrite :=
  let m := outMask r.outs &&& mask
  let vals := outVals r.outs
  if r.n = 255 then []
  else ⟨r.lat, r.n, m, BitVec.ofNat 32 r.bits, vals.map (BitVec.ofNat 32)⟩
    :: (if r.pair then [⟨r.lat, r.n + 1, m, BitVec.ofNat 32 (r.bits / 2 ^ 32), vals.map fun x => BitVec.ofNat 32 (x / 2 ^ 32)⟩] else [])

def Group.putWrites (g : Group) (ws : List RegWrite) : Group :=
  ws.foldl (fun g x => (g.writeV x.lat x.n x.mask x.bits x.vals).untagV ((ws.filter fun y => y.mask == x.mask).map RegWrite.n) x.mask x.lat) g

/-- Registers written by the assist routine, whose tags the word itself has settled. -/
def Group.putValues (g : Group) (ws : List RegWrite) : Group := ws.foldl (fun g x => g.writeV x.lat x.n x.mask x.bits x.vals) g

/-- The names a result writes lose their tags in the lanes of the mask. -/
def Group.untagResults (g : Group) (rs : List VecRes) (mask : Mask) : Group :=
  rs.foldl (fun g r => g.untagV (vecNames r.n r.pair) mask r.lat) g

/-- Writes the results of a word. Lanes flagged tiny in any result are left to the assist routine, or fault where it is absent (R94, R95); no result of a flagged lane is written. -/
def putResults (s : State) (rs : List VecRes) : State × Flow :=
  let outs := rs.flatMap VecRes.outs
  let tiny := maskOf fun l => outs.any fun o => o.lane == l && o.tiny
  let clean := outs.filter fun o => !tiny.getLsbD o.lane
  let late := outs.filter fun o => tiny.getLsbD o.lane
  let gens := rs.foldl (fun gs r => outGens gs r.outs) s.g.gens
  let ws := rs.flatMap fun r => r.writes (~~~tiny)
  let g := (s.g.putWrites (if tiny = 0 || s.plat.assistOk then ws else ws.filter fun x => x.mask != 0)).setFlags (outFlags clean)
  if tiny = 0 then ({ s with g := { g with gens := gens } }, .done)
  else if s.plat.assistOk then
    let g := g.untagResults rs tiny
    ({ s with g := { g with assist := some { mask := tiny, vs := rs.flatMap fun r => r.writes tiny, flags := outFlags late, gens := gens } } }, .assist)
  else
    ({ s with g := { g with gens := laneNumbers.map fun l => if tiny.getLsbD l then genAt g.gens l else genAt gens l } }, .lanes none 0x0E tiny 0)

/-- The assist routine finishes (R94): the flagged lanes, flags and draws of the word take effect. -/
def Group.finishAssist (g : Group) : Group :=
  match g.assist with
  | none => g
  | some a => { ((g.putValues a.vs).setFlags a.flags) with gens := a.gens, assist := none }

/-- One lane: its elements in ascending order, each drawing once in mode 6 when the entry rounds (R85). Element k is written at position `pos k` of width w. -/
def laneOut (l w n pos : Nat) (draws : Bool) (gen : W32) (f : Nat → Nat → FRes) : LaneOut :=
  (List.range n).foldl (fun o i =>
    let gen := if draws then drawNext o.gen else o.gen
    let r := f i gen.toNat
    { o with val := o.val + r.bits % 2 ^ w * 2 ^ (w * (pos + i)), flags := o.flags ||| r.flags, gen := gen, tiny := o.tiny || r.tiny })
    { lane := l, val := 0, gen := gen }

/-- Bits of n elements of width w from position pos. -/
def elemBits (w n pos : Nat) : Nat := (2 ^ (w * n) - 1) * 2 ^ (w * pos)

/-- Every element of every active lane by one function of the elements of A, B and D (R120, R128). -/
def elementwise (w : Word) (g : Group) (act : Mask) (t : ElemType) (a b d : List Nat) (draws : Bool) (f : Nat → Nat → Nat → Nat → FRes) : VecRes :=
  let wd := elemWidth t
  let n := elemCount t
  { n := w.f.d.toNat, pair := elemPair t, bits := elemBits wd n 0
    outs := (lanesOf act).map fun l =>
      laneOut l wd n 0 draws (genAt g.gens l) fun i x =>
        f x (subElem wd i (a.getD l 0)) (subElem wd i (b.getD l 0)) (subElem wd i (d.getD l 0)) }

/-- A result that leaves some bits of its lanes keeps what a tagged value had there, so the loads of those tags become concrete (R275). -/
def Group.concreteKept (g : Group) (r : VecRes) : Group :=
  if r.bits + 1 = 2 ^ (if r.pair then 64 else 32) then g else g.concreteLanes (vecNames r.n r.pair) (r.outs.map LaneOut.lane)

/-- A vector word whose body gives one result from the group and its active lanes; tagged sources become concrete. -/
def runVector (w : Word) (body : Group → Mask → VecRes) (s : State) : Answer :=
  runWord w {} (fun s =>
    let act := s.g.active w.f.pred.toNat
    let g := s.g.concreteReads w act
    let r := body g act
    putResults { s with g := g.concreteKept r } [{ r with lat := w.lat }]) s

/-- The effective rounding mode of a word (R41). -/
def Word.rm (w : Word) (g : Group) : Nat := roundingMode w.f.rnd.toNat g.mode

end Sys2Proof.Machine
end

