-- ==== Sys2Proof/Machine/Control.lean ====
section
/-! DEFINITION. Control-thread instructions: control-register arithmetic, branches, masks, MODE, gang and pair setup, traps, the return from a fault, and the system registers (R145 to R151, R154 to R160, R163, R164, R166, R167). -/

namespace Sys2Proof.Machine

open Sys2Proof

/-! ### Control registers -/

/-- Writes a control register; a tag on it goes (R269), for the reads that meet the new value (log 73). -/
def Group.setK (g : Group) (lat n : Nat) (x : W64) : Group :=
  { (g.writeK lat n x) with region := g.region.map fun r => r.untagK n lat }

/-- Marks the loads of every tagged control source concrete. -/
def Group.concreteKs (g : Group) (w : Word) : Group := w.reads.k.foldl Group.concreteK g

/-- How an immediate of control-register arithmetic is extended (R147). -/
inductive KImm where
  | signed | logic | shift
  deriving DecidableEq, Repr

/-- Operand b: a register, an imm8, an imm32 or the wide immediate (R146, R147). -/
def Word.kOperand (w : Word) (g : Group) (e : KImm) : W64 :=
  match w.lit with
  | .imm32 v => if e = .signed then v.signExtend 64 else v.zeroExtend 64
  | .wide v => v.signExtend 64
  | _ => match w.sh.b with
    | .imm => if e = .shift then w.f.b.zeroExtend 64 else w.f.b.signExtend 64
    | _ => g.readK w.f.b.toNat

/-- Control-register arithmetic that passes no tag: k(D) := f(k(A), b), latency 2. -/
def runK (e : KImm) (f : W64 → W64 → W64) (w : Word) (s : State) : Answer :=
  runWord w {} (fun s =>
    let x := f (s.g.readK w.f.a.toNat) (w.kOperand s.g e)
    ({ s with g := (s.g.concreteKs w).setK w.lat w.f.d.toNat x }, .done)) s

/-- The tag D takes from `kadd` or `ksub` (R148, Table 13-2), with the region after the concrete marks. -/
def kTag (sub : Bool) (w : Word) (r : Region) : Option Tag × Region :=
  let ta := if w.f.a = 0 then none else r.tag? (.ctl w.f.a.toNat)
  let tb := match w.sh.b with
    | .reg .ctl _ => if w.f.b = 0 then none else r.tag? (.ctl w.f.b.toNat)
    | _ => none
  match ta, tb with
  | some x, none => (some x, r)
  | none, some y => if sub then (none, r.concrete y.j) else (some y, r)
  | some x, some y => (none, (r.concrete x.j).concrete y.j)
  | none, none => (none, r)

/-- `kadd` and `ksub`. The tag of the result goes with its value: reads that come before it is ready meet the old tag (DEDUCED, log 73). -/
def runKAdd (sub : Bool) (w : Word) (s : State) : Answer :=
  runWord w {} (fun s =>
    let a := s.g.readK w.f.a.toNat
    let b := w.kOperand s.g .signed
    let g := s.g.setK w.lat w.f.d.toNat (if sub then a - b else a + b)
    let reg := s.g.region.map fun r =>
      let q := kTag sub w r
      let r' := q.2.untagK w.f.d.toNat w.lat
      match q.1 with
      | some t => if w.f.d = 0 then r' else r'.addTag (.ctl w.f.d.toNat) t w.lat
      | none => r'
    ({ s with g := { g with region := reg } }, .done)) s

def kShl (a b : W64) : W64 := if 64 ≤ b.toNat then 0 else a <<< b.toNat
def kShr (a b : W64) : W64 := if 64 ≤ b.toNat then 0 else a >>> b.toNat
def kSra (a b : W64) : W64 := a.sshiftRight (min b.toNat 63)

/-- `kmin` and `kmax`, signed for `.i64` and unsigned for `.n64`. -/
def kMinMax (isMax signed : Bool) (a b : W64) : W64 :=
  let less := if signed then a.slt b else a.ult b
  if less != isMax then a else b

/-- A compare of two control registers or a branch on it: the region's constraint (R270). None when a 65th is needed. -/
def kConstraint (w : Word) (a b : W64) (outcome : Bool) (r : Region) : Option Region :=
  let ta := if w.f.a = 0 then none else r.tag? (.ctl w.f.a.toNat)
  let tb := match w.sh.b with
    | .reg .ctl _ => if w.f.b = 0 then none else r.tag? (.ctl w.f.b.toNat)
    | _ => none
  let c := w.f.xf.toNat
  match ta, tb with
  | some t, none => r.constrain (compareEntry r t a.toNat true (c < 8) c b.toNat outcome)
  | none, some t => r.constrain (compareEntry r t b.toNat false (c < 8) c a.toNat outcome)
  | some x, some y => some ((r.concrete x.j).concrete y.j)
  | none, none => some r

/-- Records a constraint in the open region, if any. -/
def Group.recordK (g : Group) (w : Word) (a b : W64) (outcome : Bool) : Option Group :=
  match g.region with
  | none => some g
  | some r => (kConstraint w a b outcome r).map fun r' => { g with region := some r' }

/-- `kcmp` (R146, R148). -/
def runKCompare (w : Word) (s : State) : Answer :=
  runWord w {} (fun s =>
    let a := s.g.readK w.f.a.toNat
    let b := w.kOperand s.g .signed
    let hit := condWord w.f.xf.toNat a b
    match s.g.recordK w a b hit with
    | some g => ({ s with g := g.setK w.lat w.f.d.toNat (if hit then 1 else 0) }, .done)
    | none => (s, .abort 6)) s

/-- `kadd` (R146). -/
def execKadd (f : FForm) (s : State) : Answer := runKAdd false (mkWord shapeKadd f) s

/-- `kadd` with an imm8 (R146, R147). -/
def execKaddImm8 (f : FForm) (s : State) : Answer := runKAdd false (mkWord shapeKaddImm8 f) s

/-- `kadd` with an imm32 (R146, R147). -/
def execKaddImm32 (f : FForm) (imm : BitVec 32) (s : State) : Answer := runKAdd false (mkWord shapeKaddImm32 f (.imm32 imm)) s

/-- `ksub` (R146). -/
def execKsub (f : FForm) (s : State) : Answer := runKAdd true (mkWord shapeKsub f) s

/-- `ksub` with an imm8 (R146, R147). -/
def execKsubImm8 (f : FForm) (s : State) : Answer := runKAdd true (mkWord shapeKsubImm8 f) s

/-- `ksub` with an imm32 (R146, R147). -/
def execKsubImm32 (f : FForm) (imm : BitVec 32) (s : State) : Answer := runKAdd true (mkWord shapeKsubImm32 f (.imm32 imm)) s

/-- `kmul` (R146). -/
def execKmul (f : FForm) (s : State) : Answer := runK .signed (fun a b => a * b) (mkWord shapeKmul f) s

/-- `kmul` with an imm8 (R146, R147). -/
def execKmulImm8 (f : FForm) (s : State) : Answer := runK .signed (fun a b => a * b) (mkWord shapeKmulImm8 f) s

/-- `kmul` with an imm32 (R146, R147). -/
def execKmulImm32 (f : FForm) (imm : BitVec 32) (s : State) : Answer := runK .signed (fun a b => a * b) (mkWord shapeKmulImm32 f (.imm32 imm)) s

/-- `kand` (R146). -/
def execKand (f : FForm) (s : State) : Answer := runK .logic (fun a b => a &&& b) (mkWord shapeKand f) s

/-- `kand` with an imm8 (R146, R147). -/
def execKandImm8 (f : FForm) (s : State) : Answer := runK .logic (fun a b => a &&& b) (mkWord shapeKandImm8 f) s

/-- `kand` with an imm32 (R146, R147). -/
def execKandImm32 (f : FForm) (imm : BitVec 32) (s : State) : Answer := runK .logic (fun a b => a &&& b) (mkWord shapeKandImm32 f (.imm32 imm)) s

/-- `kor` (R146). -/
def execKor (f : FForm) (s : State) : Answer := runK .logic (fun a b => a ||| b) (mkWord shapeKor f) s

/-- `kor` with an imm8 (R146, R147). -/
def execKorImm8 (f : FForm) (s : State) : Answer := runK .logic (fun a b => a ||| b) (mkWord shapeKorImm8 f) s

/-- `kor` with an imm32 (R146, R147). -/
def execKorImm32 (f : FForm) (imm : BitVec 32) (s : State) : Answer := runK .logic (fun a b => a ||| b) (mkWord shapeKorImm32 f (.imm32 imm)) s

/-- `kxor` (R146). -/
def execKxor (f : FForm) (s : State) : Answer := runK .logic (fun a b => a ^^^ b) (mkWord shapeKxor f) s

/-- `kxor` with an imm8 (R146, R147). -/
def execKxorImm8 (f : FForm) (s : State) : Answer := runK .logic (fun a b => a ^^^ b) (mkWord shapeKxorImm8 f) s

/-- `kxor` with an imm32 (R146, R147). -/
def execKxorImm32 (f : FForm) (imm : BitVec 32) (s : State) : Answer := runK .logic (fun a b => a ^^^ b) (mkWord shapeKxorImm32 f (.imm32 imm)) s

/-- `kshl` (R146). -/
def execKshl (f : FForm) (s : State) : Answer := runK .shift kShl (mkWord shapeKshl f) s

/-- `kshl` with an imm8 (R146, R147). -/
def execKshlImm8 (f : FForm) (s : State) : Answer := runK .shift kShl (mkWord shapeKshlImm8 f) s

/-- `kshl` with an imm32 (R146, R147). -/
def execKshlImm32 (f : FForm) (imm : BitVec 32) (s : State) : Answer := runK .shift kShl (mkWord shapeKshlImm32 f (.imm32 imm)) s

/-- `kshr` (R146). -/
def execKshr (f : FForm) (s : State) : Answer := runK .shift kShr (mkWord shapeKshr f) s

/-- `kshr` with an imm8 (R146, R147). -/
def execKshrImm8 (f : FForm) (s : State) : Answer := runK .shift kShr (mkWord shapeKshrImm8 f) s

/-- `kshr` with an imm32 (R146, R147). -/
def execKshrImm32 (f : FForm) (imm : BitVec 32) (s : State) : Answer := runK .shift kShr (mkWord shapeKshrImm32 f (.imm32 imm)) s

/-- `ksra` (R146). -/
def execKsra (f : FForm) (s : State) : Answer := runK .shift kSra (mkWord shapeKsra f) s

/-- `ksra` with an imm8 (R146, R147). -/
def execKsraImm8 (f : FForm) (s : State) : Answer := runK .shift kSra (mkWord shapeKsraImm8 f) s

/-- `ksra` with an imm32 (R146, R147). -/
def execKsraImm32 (f : FForm) (imm : BitVec 32) (s : State) : Answer := runK .shift kSra (mkWord shapeKsraImm32 f (.imm32 imm)) s

/-- `kmin` (R146). -/
def execKmin (f : FForm) (s : State) : Answer := runK .signed (kMinMax false (f.xf == 6)) (mkWord shapeKmin f) s

/-- `kmin` with an imm8 (R146, R147). -/
def execKminImm8 (f : FForm) (s : State) : Answer := runK .signed (kMinMax false (f.xf == 6)) (mkWord shapeKminImm8 f) s

/-- `kmin` with an imm32 (R146, R147). -/
def execKminImm32 (f : FForm) (imm : BitVec 32) (s : State) : Answer := runK .signed (kMinMax false (f.xf == 6)) (mkWord shapeKminImm32 f (.imm32 imm)) s

/-- `kmax` (R146). -/
def execKmax (f : FForm) (s : State) : Answer := runK .signed (kMinMax true (f.xf == 6)) (mkWord shapeKmax f) s

/-- `kmax` with an imm8 (R146, R147). -/
def execKmaxImm8 (f : FForm) (s : State) : Answer := runK .signed (kMinMax true (f.xf == 6)) (mkWord shapeKmaxImm8 f) s

/-- `kmax` with an imm32 (R146, R147). -/
def execKmaxImm32 (f : FForm) (imm : BitVec 32) (s : State) : Answer := runK .signed (kMinMax true (f.xf == 6)) (mkWord shapeKmaxImm32 f (.imm32 imm)) s

/-- `kcmp` (R146). -/
def execKcmp (f : FForm) (s : State) : Answer := runKCompare (mkWord shapeKcmp f) s

/-- `kcmp` with an imm8 (R146, R147). -/
def execKcmpImm8 (f : FForm) (s : State) : Answer := runKCompare (mkWord shapeKcmpImm8 f) s

/-- `kcmp` with an imm32 (R146, R147). -/
def execKcmpImm32 (f : FForm) (imm : BitVec 32) (s : State) : Answer := runKCompare (mkWord shapeKcmpImm32 f (.imm32 imm)) s

/-- `kmov` (R146). -/
def execKmov (f : FForm) (s : State) : Answer := runK .signed (fun _ b => b) (mkWord shapeKmov f) s

/-- `kmov` with an imm8. -/
def execKmovImm8 (f : FForm) (s : State) : Answer := runK .signed (fun _ b => b) (mkWord shapeKmovImm8 f) s

/-- `kmov` with the wide immediate, sign-extended from 60 bits (Table 3-6). -/
def execKmovWide (f : FForm) (wide : BitVec 60) (s : State) : Answer := runK .signed (fun _ b => b) (mkWord shapeKmovWide f (.wide wide)) s

/-- `nop` (R167): it spaces the next word and changes nothing. -/
def execNop (f : FForm) (s : State) : Answer := runWord (mkWord shapeNop f) {} (fun s => (s, .done)) s

/-! ### Branches, calls and jumps (R149 to R151) -/

/-- PC + 8 × offset mod 2^56. -/
def branchTarget (pc : W64) (offset : W64) : W64 := pcBits (pc + 8 * offset)

/-- `bra` (R149). -/
def execBra (f : FForm) (s : State) : Answer :=
  runWord (mkWord shapeBra f) {} (fun s => (s, .goto (branchTarget s.g.pc ((f.d ++ f.a ++ f.b).signExtend 64)) true)) s

/-- `call`: k31 := PC + 8. -/
def execCall (f : FForm) (s : State) : Answer :=
  let w := mkWord shapeCall f
  runWord w {} (fun s => ({ s with g := s.g.setK w.lat 31 (s.g.pc + 8) }, .goto (branchTarget s.g.pc ((f.d ++ f.a ++ f.b).signExtend 64)) true)) s

/-- A jump through a register: a target with reserved bits set raises ALIGN and writes nothing (R150). -/
def jumpTo (t : W64) (s : State) : State × Flow := if pcBits t = t then (s, .goto t true) else (s, .trap 0x08 t)

/-- `ret`. -/
def execRet (f : FForm) (s : State) : Answer :=
  let w := mkWord shapeRet f
  runWord w {} (fun s => jumpTo (s.g.readK 31) { s with g := s.g.concreteKs w }) s

/-- `jmp`. -/
def execJmp (f : FForm) (s : State) : Answer :=
  let w := mkWord shapeJmp f
  runWord w {} (fun s => jumpTo (s.g.readK f.a.toNat) { s with g := s.g.concreteKs w }) s

/-- `jcall`: k(D) := PC + 8; the jump uses the old value when D = A. -/
def execJcall (f : FForm) (s : State) : Answer :=
  let w := mkWord shapeJcall f
  runWord w {} (fun s => jumpTo (s.g.readK f.a.toNat) { s with g := (s.g.concreteKs w).setK w.lat f.d.toNat (s.g.pc + 8) }) s

/-- A conditional branch. -/
def branchIf (taken : Bool) (offset : W64) (s : State) : State × Flow :=
  if taken then (s, .goto (branchTarget s.g.pc offset) true) else (s, .done)

/-- `bcc` in either form: the comparison of two control registers (R43). -/
def runBcc (offset : W64) (w : Word) (s : State) : Answer :=
  runWord w {} (fun s =>
    let a := s.g.readK w.f.a.toNat
    let b := s.g.readK w.f.b.toNat
    let taken := condWord w.f.xf.toNat a b
    match s.g.recordK w a b taken with
    | some g => branchIf taken offset { s with g := g }
    | none => (s, .abort 6)) s

/-- `bcc`, short form: D is the offset. -/
def execBcc (f : FForm) (s : State) : Answer := runBcc (f.d.signExtend 64) (mkWord shapeBcc f) s

/-- `bcc`, long form: the imm32 is the offset. -/
def execBccLong (f : FForm) (imm : BitVec 32) (s : State) : Answer := runBcc (imm.signExtend 64) (mkWord shapeBccLong f (.imm32 imm)) s

/-- `bany`: taken when some current lane is in the mask. -/
def execBany (f : FForm) (s : State) : Answer :=
  runWord (mkWord shapeBany f) {} (fun s => branchIf (s.g.readM f.a.toNat &&& s.g.m0 != 0) ((f.d ++ f.b).signExtend 64) s) s

/-- `ball`: taken when every current lane is in the mask. -/
def execBall (f : FForm) (s : State) : Answer :=
  runWord (mkWord shapeBall f) {} (fun s => branchIf (s.g.readM f.a.toNat &&& s.g.m0 == s.g.m0) ((f.d ++ f.b).signExtend 64) s) s

/-! ### Masks (R154) -/

def runMask (op : Mask → Mask → Mask) (w : Word) (s : State) : Answer :=
  runWord w {} (fun s => ({ s with g := s.g.writeM w.lat w.f.d.toNat (op (s.g.readM w.f.a.toNat) (s.g.readM w.f.b.toNat)) }, .done)) s

/-- `mand`. -/
def execMand (f : FForm) (s : State) : Answer := runMask (fun a b => a &&& b) (mkWord shapeMand f) s
/-- `mor`. -/
def execMor (f : FForm) (s : State) : Answer := runMask (fun a b => a ||| b) (mkWord shapeMor f) s
/-- `mxor`. -/
def execMxor (f : FForm) (s : State) : Answer := runMask (fun a b => a ^^^ b) (mkWord shapeMxor f) s
/-- `mandn`. -/
def execMandn (f : FForm) (s : State) : Answer := runMask (fun a b => a &&& ~~~b) (mkWord shapeMandn f) s
/-- `mnot`. -/
def execMnot (f : FForm) (s : State) : Answer := runMask (fun a _ => ~~~a) (mkWord shapeMnot f) s
/-- `mmov`. -/
def execMmov (f : FForm) (s : State) : Answer := runMask (fun a _ => a) (mkWord shapeMmov f) s

/-- `mset`: the low 32 bits of a control register. -/
def execMset (f : FForm) (s : State) : Answer :=
  let w := mkWord shapeMset f
  runWord w {} (fun s => ({ s with g := (s.g.concreteKs w).writeM w.lat f.d.toNat ((s.g.readK f.a.toNat).truncate 32) }, .done)) s

/-- A control register from a mask. -/
def runMaskToK (op : Mask → Nat) (w : Word) (s : State) : Answer :=
  runWord w {} (fun s => ({ s with g := s.g.setK w.lat w.f.d.toNat (BitVec.ofNat 64 (op (s.g.readM w.f.a.toNat))) }, .done)) s

/-- `mget`. -/
def execMget (f : FForm) (s : State) : Answer := runMaskToK BitVec.toNat (mkWord shapeMget f) s
/-- `mpopc`. -/
def execMpopc (f : FForm) (s : State) : Answer := runMaskToK popcount (mkWord shapeMpopc f) s
/-- `mfirst`: 32 for an empty mask. -/
def execMfirst (f : FForm) (s : State) : Answer := runMaskToK lowest (mkWord shapeMfirst f) s

/-! ### Lanes, time and MODE (R155 to R158) -/

/-- `kget` (R155). -/
def execKget (f : FForm) (s : State) : Answer :=
  let w := mkWord shapeKget f
  runWord w {} (fun s =>
    let g := s.g
    let none_ := f.bfirst && g.m0 == 0
    let lane := if f.bfirst then lowest g.m0 else f.blane.toNat
    let x := (g.readOp f.a.toNat (w.pair .vec)).getD lane 0
    let v : W64 := if none_ then 0 else if f.xf = 0 then (BitVec.ofNat 32 x).signExtend 64 else BitVec.ofNat 64 x
    let g' := if none_ then g else g.concreteLanes (w.srcNames 1) [lane]
    ({ s with g := g'.setK w.lat f.d.toNat v }, .done)) s

/-- The partition time a group sees (Table 6-6). -/
def State.time (s : State) : W64 := (s.part s.g.part).time

/-- `ktime`. -/
def execKtime (f : FForm) (s : State) : Answer :=
  let w := mkWord shapeKtime f
  runWord w {} (fun s => ({ s with g := s.g.setK w.lat f.d.toNat s.time }, .done)) s

/-- Has an earlier word still to set its flags (R158): a floating-point atomic under way? -/
def Group.flagsOut (g : Group) : Bool := g.reqs.any fun r => r.kind == .atomic && (r.ty == 8 || r.ty == 11)

/-- `kmode`: MODE after the drain. -/
def execKmode (f : FForm) (s : State) : Answer :=
  let w := mkWord shapeKmode f
  runWord w {} (fun s => if s.g.flagsOut then (s, .hold .waitStall (.until_ .flags)) else ({ s with g := s.g.setK w.lat f.d.toNat s.g.mode }, .done)) s

/-- The bits of Table 8-6 that a `kwmode` writes. -/
def runKwmode (bits : W64) (reseed : Bool) (w : Word) (s : State) : Answer :=
  runWord w {} (fun s =>
    if s.g.flagsOut then (s, .hold .waitStall (.until_ .flags))
    else
      let mode := (s.g.mode &&& ~~~bits) ||| (s.g.readK w.f.a.toNat &&& bits)
      ({ s with g := { s.g with mode := mode, gens := if reseed then seedGens (mode.extractLsb' 32 32) else s.g.gens } }, .done)) s

/-- `kwmode`: every writable bit, and new generator states (R85). -/
def execKwmode (f : FForm) (s : State) : Answer := runKwmode 0xFFFFFFFFFFFFFFF8 true (mkWord shapeKwmode f) s
/-- `kwmode.flags`. -/
def execKwmodeFlags (f : FForm) (s : State) : Answer := runKwmode 0x000000000000F800 false (mkWord shapeKwmodeFlags f) s
/-- `kwmode.ctl`. -/
def execKwmodeCtl (f : FForm) (s : State) : Answer := runKwmode 0x00000000FFFF07F8 false (mkWord shapeKwmodeCtl f) s

/-! ### Gang and pair setup (R159, R160) -/

/-- Does the core slot hold a group of the context? -/
def State.holdsMember (s : State) (part ctx core slot : Nat) : Bool :=
  match s.groupAt core slot with
  | some h => h.part == part && h.ctx == ctx
  | none => false

/-- The status of Table 8-7. -/
def kgangStatus (s : State) (x : W64) : Nat :=
  let n := gangSize x
  let es := gangSlots x
  if n = 1 || n = 7 then 1
  else if es.any (47 < ·) then 2
  else if !es.Nodup then 3
  else if 2 ≤ n && !es.contains (s.g.slot % 48) then 4
  else if es.any fun e => !s.holdsMember s.g.part s.g.ctx s.g.core (48 * s.g.qd + e) then 5
  else 0

/-- `kgang`. -/
def execKgang (f : FForm) (s : State) : Answer :=
  let w := mkWord shapeKgang f
  runWord w {} (fun s =>
    let x := s.g.readK f.a.toNat
    let st := kgangStatus s x
    let g := if st = 0 then { s.g with gang := x &&& 0x00FFFFFFFFFFFF07 } else s.g
    ({ s with g := g.setK w.lat f.d.toNat (BitVec.ofNat 64 st) }, .done)) s

/-- The status of R160. -/
def kpairStatus (s : State) (x : W64) : Nat :=
  if !x.getLsbD 15 then 0
  else if 191 < (x.extractLsb' 0 8).toNat then 2
  else if !s.holdsMember s.g.part s.g.ctx (x.extractLsb' 8 7).toNat (x.extractLsb' 0 8).toNat then 1
  else 0

/-- `kpair`. -/
def execKpair (f : FForm) (s : State) : Answer :=
  let w := mkWord shapeKpair f
  runWord w {} (fun s =>
    let x := s.g.readK f.a.toNat
    let st := kpairStatus s x
    let g := if st = 0 then { s.g with pair := if x.getLsbD 15 then x &&& 0xFFFF else 0 } else s.g
    ({ s with g := g.setK w.lat f.d.toNat (BitVec.ofNat 64 st) }, .done)) s

/-! ### Traps and the return (R163, R164) -/

/-- `trap`: TRAP_SW; the number stands in the recorded word. -/
def execTrap (f : FForm) (s : State) : Answer := runWord (mkWord shapeTrap f) {} (fun s => (s, .trap 0x1B 0)) s

/-- `brk`: BREAK. -/
def execBrk (f : FForm) (s : State) : Answer := runWord (mkWord shapeBrk f) {} (fun s => (s, .trap 0x1A 0)) s

/-- Where a translation that gives no location leaves a word of the control thread. -/
def Trans.flow (t : Trans) (addr : W64) : Flow :=
  match t with
  | .ok _ _ => .done
  | .fault code => .trap code addr
  | .residency => .hold .waitExt .other
  | .coherence vpn => .hold .waitExt (.coherence vpn)
  | .hostPage f => .hold .waitExt (.hostPage f)
  | .hardware => .hold .waitStall .hold

/-- `eret` (R164). A cluster control core has no record to return to: ILLEGAL_OPCODE. -/
def execEret (f : FForm) (s : State) : Answer :=
  runWord (mkWord shapeEret f) { illegal := s.g.ccc } (fun s =>
    let q := s.readRecord
    match q.1 with
    | .ok bs => ({ q.2 with g := q.2.g.returnFrom bs }, .returned)
    | .error t => (q.2, t.flow s.g.frecAt)) s

/-! ### System registers (R105, R166) -/

/-- GSTAT (Table 6-3). -/
def Group.gstat (g : Group) : W64 :=
  let b := fun (x : Bool) (i : Nat) => if x then 2 ^ i else 0
  BitVec.ofNat 64 (2 ^ 42 * g.gen.toNat + 2 ^ 34 * g.slot + 2 ^ 27 * g.core + 2 ^ 25 * g.qd + 2 ^ 12 * g.acause.toNat
    + b g.inreg 11 + b g.unver 10 + b g.uninit 1 + b g.sup 0)

/-- Four 16-bit counts, bank 0 lowest. -/
def packBanks (f : Nat → Nat) : W64 := BitVec.ofNat 64 ((List.range 4).foldl (fun acc b => acc + 2 ^ (16 * b) * (f b % 65536)) 0)

/-- A system register as it is read (Tables 6-7 and 6-8); none where the number is not listed. -/
def State.sysReg (s : State) (n : Nat) : Option W64 :=
  let g := s.g
  let p := s.part g.part
  let c := s.ctx g.part g.ctx
  match n with
  | 0x000 => some g.pc
  | 0x001 => some g.mode
  | 0x002 => some g.gstat
  | 0x003 => some g.gang
  | 0x004 => some g.pair
  | 0x005 => some g.wid
  | 0x006 => some g.hdr
  | 0x007 => some g.frec
  | 0x008 => some s.time
  | 0x100 => some (BitVec.ofNat 64 (64 * g.ctx + g.part))
  | 0x101 => some (BitVec.ofNat 64 (s.qown g.part g.core))
  | 0x102 => some (p.l2ways.zeroExtend 64)
  | 0x103 => some (p.resq.zeroExtend 64)
  | 0x104 => some c.spill
  | 0x105 => some (packBanks fun b => s.poolFree g.quad b)
  | 0x106 => some (packBanks fun b => s.floorHeld g.quad b)
  | 0x107 => some c.tvec
  | 0x108 => some (c.iweight.zeroExtend 64)
  | 0x109 => some (BitVec.ofNat 64 ((tget 0 (s.quad g.quad).def_ (ctxKey g.part g.ctx)) % 65536).toNat)
  | _ => none

/-- A number that Table 6-7 lists. -/
def sysListed (n : Nat) : Bool := n ≤ 0x008 || (0x100 ≤ n && n ≤ 0x109)

/-- `ksys`: numbers above 0x008 need the supervisor or a cluster control core, and then must be listed (R105). -/
def execKsys (f : FForm) (s : State) : Answer :=
  let w := mkWord shapeKsys f
  let n := (f.a ++ f.b).toNat
  runWord w { priv := 0x008 < n, ok := sysListed n } (fun s => ({ s with g := s.g.setK w.lat f.d.toNat ((s.sysReg n).getD 0) }, .done)) s

/-- A listed number whose Write entry in Table 6-7 is No or names another instruction. -/
def sysReadOnly (n : Nat) : Bool := sysListed n && !(n == 0x002 || n == 0x007 || n == 0x104 || n == 0x107)

/-- `kwsys`: GSTAT acts as W1C on UNINIT; FREC, SPILLBASE and TVEC are written in their address fields; any other listed number raises PRIVILEGE. FREC takes effect at the next fault entry: the return of the handler under way reads the record that its entry wrote (R166). -/
def execKwsys (f : FForm) (s : State) : Answer :=
  let n := (f.d ++ f.b).toNat
  runWord (mkWord shapeKwsys f) { denied := sysReadOnly n, ok := sysListed n } (fun s =>
    let x := s.g.readK f.a.toNat
    let c := s.ctx s.g.part s.g.ctx
    match n with
    | 0x002 => ({ s with g := { s.g with uninit := s.g.uninit && !x.getLsbD 1 } }, .done)
    | 0x007 => ({ s with g := { s.g with frec := x &&& 0x00FFFFFFFFFFFFC0 } }, .done)
    | 0x104 => (s.setCtx s.g.part s.g.ctx { c with spill := x &&& 0x00FFFFFFFFFF8000 }, .done)
    | 0x107 => (s.setCtx s.g.part s.g.ctx { c with tvec := x &&& 0x00FFFFFFFFFFF000 }, .done)
    | _ => (s, .done)) s

end Sys2Proof.Machine
end

