-- ==== Sys2Proof/Machine/Paths.lean ====
section
/-! DEFINITION. Path instructions, sleep, and the end of a group (R20 to R23, R152, R153, R161, R165). -/

namespace Sys2Proof.Machine

open Sys2Proof

/-! ### pfork, pjoin, pyield (R21) -/

/-- `pfork`: the lanes outside the mask are set aside as a pending path. -/
def execPfork (f : FForm) (imm : BitVec 32) (s : State) : Answer :=
  runWord (mkWord shapePfork f (.imm32 imm)) {} (fun s =>
    let g := s.g
    let m := g.readM f.a.toNat
    let n := g.m0 &&& m
    let q := g.m0 &&& ~~~m
    let target := branchTarget g.pc ((imm.extractLsb' 0 16).signExtend 64)
    if q = 0 then (s, .done)
    else if n = 0 then (s, .goto target true)
    else match freePath g.paths with
      | none => (s, .trap 0x12 0)
      | some i =>
        let e : PathEnt := { valid := true, arrived := false, pc := target, mask := q, tag := imm.extractLsb' 16 16, age := 0 }
        ({ s with g := { g with paths := g.paths.set i e, m0 := n } }, .done)) s

/-- Merges the ARRIVED entries with a tag into m0 and frees them. -/
def Group.mergeArrived (g : Group) (tag : W16) : Group :=
  let hit := fun (e : PathEnt) => e.valid && e.arrived && e.tag == tag
  if g.paths.any hit then
    { g with m0 := g.paths.foldl (fun m e => if hit e then m ||| e.mask else m) g.m0
             paths := g.paths.map fun e => if hit e then {} else e }
  else g

/-- Later loads at scopes wider than a core's meet nothing older than what the group's earlier loads have returned (R223). -/
def Group.orderReads (g : Group) : Group := { g with notBefore := max g.notBefore g.seen }

/-- `pjoin`. A merge orders the paths' earlier accesses before later ones (R22). -/
def execPjoin (f : FForm) (s : State) : Answer :=
  let w := mkWord shapePjoin f
  runWord w {} (fun s =>
    let g := s.g
    let tag : W16 := f.d ++ f.b
    match oldestPend g.paths fun e => e.tag == tag with
    | some i =>
      let e := g.paths.getD i {}
      let here : PathEnt := { valid := true, arrived := true, pc := w.next g.pc, mask := g.m0, tag := tag, age := 0 }
      ({ s with g := { g with paths := g.paths.set i here, m0 := e.mask } }, .goto e.pc false)
    | none =>
      let h := g.mergeArrived tag
      if h.paths = g.paths then (s, .done) else ({ s with g := { h.orderReads with epoch := g.epoch + 1 } }, .done)) s

/-- `pyield`: the ageing check. -/
def execPyield (f : FForm) (s : State) : Answer := runWord (mkWord shapePyield f) {} (fun s => (s, .yield)) s

/-! ### Sleep (R161) -/

/-- `ksleep`: waits until TIME reaches the deadline. -/
def execKsleep (f : FForm) (s : State) : Answer :=
  runWord (mkWord shapeKsleep f) {} (fun s =>
    let n := s.g.readK f.a.toNat
    let sum := s.time.toNat + n.toNat
    if n = 0 then (s, .done) else (s, .wait .waitExt (.sleep (BitVec.ofNat 64 (min sum (2 ^ 64 - 1)))))) s

/-- The end of a `ksleep` whose deadline has passed. -/
def execKsleepWake (uid : Nat) (s : State) : Answer :=
  answer <| match s.group? uid with
    | some h => match h.wait with
      | .sleep d => if d ≤ (s.part h.part).time then s.completeWait uid else s
      | _ => s
    | none => s

/-! ### Batches (R285) -/

/-- Flags of an engine or a batch reach MODE, and the MODE an open region would bring back. -/
def Group.lateFlags (g : Group) (flags : W64) : Group :=
  { (g.setFlags flags) with region := g.region.map fun r => { r with mode := r.mode ||| (flags &&& 0xF800) } }

/-- Adds a pending fault in its place by issue order (R257, R299). -/
def insertFault (f : Nat × FaultRec) : List (Nat × FaultRec) → List (Nat × FaultRec)
  | [] => [f]
  | e :: es => if f.1 < e.1 then f :: e :: es else e :: insertFault f es

/-- Completes the next closed batches of which no operation is left: flags go to MODE and faults become pending. -/
def Group.settleBatches : (fuel : Nat) → Group → Group
  | 0, g => g
  | n + 1, g =>
    let b := g.lastBatch + 1
    if b < g.batch && !(g.matOps.any fun o => o.2 ≤ b) then
      let outs := g.batchOut.filter fun o => o.batch == b
      let g1 := outs.foldl (fun g o => g.lateFlags o.flags) g
      let faults := outs.foldl (fun fs o => o.faults.foldl (fun fs f => insertFault f fs) fs) g.pendFaults
      Group.settleBatches n { g1 with lastBatch := b, batchOut := g.batchOut.filter fun o => o.batch != b, pendFaults := faults }
    else g

/-- Closes the open batch. -/
def Group.closeBatch (g : Group) : Group :=
  let g := { g with batch := g.batch + 1 }
  g.settleBatches (g.batch - g.lastBatch)

/-! ### The end of a group (R165, R32) -/

/-- Is the retirement wait settled: counters 0, batches complete, interlocked writes landed, nothing unverified (R203), and no fault still to be taken? -/
def Group.retireReady (g : Group) : Bool :=
  g.ops.isEmpty && g.matOps.isEmpty && g.landed && !g.unver && (g.sup || g.pendFaults.isEmpty)

/-- Accumulator tiles given up hold zero for their next group (R30). -/
def State.clearTiles (s : State) (quad : Nat) (tiles : List Nat) : State :=
  if tiles.isEmpty then s
  else
    let m := tiles.foldl (fun m t => mclear m (0x4000 * t) (0x4000 * t + 0x4000)) (tget [] s.mem.acc quad)
    { s with mem := { s.mem with acc := tset [] s.mem.acc quad m } }

/-- The group with this uid retires: registers, floors and tiles are released, and waits on it break. Its slot is freed at block retirement. -/
def State.retire (s : State) (uid : Nat) (faulted killed : Bool) : State :=
  match s.group? uid with
  | none => s
  | some h =>
    let s := s.clearTiles h.quad h.tiles
    let s := s.putGroup { h with st := .retired, wait := .none, resume := none, v := [], floor := 0, tiles := [], region := none, sent := none, arrival := none
                                 assist := none, replay := none, paths := List.replicate 8 {} }
    let s := match s.block? h.blk with
      | some b => s.putBlock { b with faulted := b.faulted || faulted, killed := b.killed || killed }
      | none => s
    (s.broken h).grant h.quad

/-- `gexit` (R165): the current path ends; with none left, or in the supervisor handler, the group retires once its wait is settled. -/
def execGexit (f : FForm) (s : State) : Answer :=
  runWord (mkWord shapeGexit f) {} (fun s =>
    let g := s.g
    let open_ := g.matOps.any (fun o => o.2 == g.batch) || g.batchOut.any fun o => o.batch == g.batch
    let s1 := if open_ then { s with g := g.closeBatch } else s
    let leave := if s1.g.retireReady then (s1.retire g.uid g.sup false, Flow.retired) else (s1, .retry .waitCounter .retire)
    if g.sup then leave
    else match oldestPend g.paths fun _ => true with
      | some i =>
        let e := g.paths.getD i {}
        ({ s with g := { g with paths := g.paths.set i {}, m0 := e.mask } }, .goto e.pc false)
      | none => match g.paths.find? fun e => e.valid && e.arrived with
        | some e => ({ s with g := Group.mergeArrived { g with m0 := 0 } e.tag }, .goto e.pc false)
        | none => leave) s

/-- The retirement wait of a `gexit` is settled. -/
def execGroupRetirement (uid : Nat) (s : State) : Answer :=
  answer <| match s.group? uid with
    | some h => if h.st = .waitCounter && h.wait = .retire && h.retireReady then s.retire uid h.sup false else s
    | none => s

end Sys2Proof.Machine
end

