-- ==== Sys2Proof/Machine/Trans.lean ====
section
/-! DEFINITION. The transcendentals of R131: each returns the correctly rounded value of the exact function. The exact value is enclosed between two fixed-point integers; where both ends of the enclosure round alike that is the result, otherwise a finer enclosure is taken. Should the finest not decide, the result is a free value (log 15). -/

namespace Sys2Proof.Machine

open Sys2Proof

/-- An enclosure: the value lies between lo and hi, both in units of 2^-p for the precision p in use. -/
structure Encl where
  lo : Int
  hi : Int
  deriving DecidableEq, Repr

def shr (x : Int) (p : Nat) : Int := x / (2 ^ p : Nat)
def shrUp (x : Int) (p : Nat) : Int := -((-x) / (2 ^ p : Nat))

namespace Encl

def ofMag (p : Nat) (x : Mag) : Encl :=
  ⟨((x.num <<< p) / x.den : Nat), ((x.num <<< p) / x.den + 1 : Nat)⟩

def add (x y : Encl) : Encl := ⟨x.lo + y.lo, x.hi + y.hi⟩
def neg (x : Encl) : Encl := ⟨-x.hi, -x.lo⟩
def sub (x y : Encl) : Encl := x.add y.neg
def widen (x : Encl) (e : Int) : Encl := ⟨x.lo - e, x.hi + e⟩
def int (p : Nat) (k : Int) : Encl := ⟨k * (2 ^ p : Nat), k * (2 ^ p : Nat)⟩
def scaleInt (x : Encl) (k : Nat) : Encl := ⟨x.lo * k, x.hi * k⟩
def divNat (x : Encl) (k : Nat) : Encl := ⟨x.lo / k, -((-x.hi) / (k : Int))⟩

def mul (p : Nat) (x y : Encl) : Encl :=
  let a := x.lo * y.lo
  let b := x.lo * y.hi
  let c := x.hi * y.lo
  let d := x.hi * y.hi
  ⟨shr (min (min a b) (min c d)) p, shrUp (max (max a b) (max c d)) p⟩

/-- Quotient of two enclosures of positive values; a numerator's lower end below zero counts as zero. -/
def divPos (p : Nat) (x y : Encl) : Encl :=
  ⟨(max x.lo 0) * (2 ^ p : Nat) / y.hi, x.hi * (2 ^ p : Nat) / y.lo + 1⟩

end Encl

/-- Σ 1 / ((2k+1) q^(2k+1)), signs alternating if `alt`: atan(1/q) or atanh(1/q), `n` terms, each rounded down by less than one unit. `t` is 2^p / q^(2k+1). -/
def arcSeries (alt : Bool) (q2 : Nat) : Nat → Nat → Nat → Bool → Int → Int
  | 0, _, _, _, acc => acc
  | n + 1, t, k, pos, acc =>
    let term : Int := (t / (2 * k + 1) : Nat)
    arcSeries alt q2 n (t / q2) (k + 1) (if alt then !pos else pos) (if pos then acc + term else acc - term)

/-- An enclosure of atan(1/q) or atanh(1/q) with p bits; n ≥ p / log2(q²) terms leave less than n + 2 units of error. -/
def arcEncl (alt : Bool) (p q : Nat) : Encl :=
  let n := p / (2 * q.log2) + 2
  let s := arcSeries alt (q * q) n (2 ^ p / q) 0 true 0
  (⟨s, s⟩ : Encl).widen (2 * n + 4)

/-- π = 16 atan(1/5) − 4 atan(1/239). -/
def piEncl (p : Nat) : Encl := ((arcEncl true p 5).scaleInt 16).sub ((arcEncl true p 239).scaleInt 4)

/-- ln 2 = 18 atanh(1/26) − 2 atanh(1/4801) + 8 atanh(1/8749). -/
def ln2Encl (p : Nat) : Encl :=
  (((arcEncl false p 26).scaleInt 18).sub ((arcEncl false p 4801).scaleInt 2)).add ((arcEncl false p 8749).scaleInt 8)

/-- Taylor terms of exp: term k+1 is term k × x / (k+1). -/
def expTerms (p : Nat) (x : Encl) : Nat → Nat → Encl → Encl → Encl
  | 0, _, t, acc => (acc.add t).widen (2 * max t.hi (-t.lo) + 2)
  | n + 1, k, t, acc => expTerms p x n (k + 1) ((t.mul p x).divNat (k + 1)) (acc.add t)

/-- e^x for 0 ≤ x ≤ 1. -/
def expEncl (p : Nat) (x : Encl) : Encl := expTerms p x (p / 4) 0 (Encl.int p 1) (Encl.int p 0)

/-- Taylor terms of sin (k odd) and cos (k even): the next term is −term × x² / ((k+1)(k+2)). -/
def trigTerms (p : Nat) (x2 : Encl) : Nat → Nat → Encl → Encl → Encl
  | 0, _, t, acc => (acc.add t).widen (2 * max t.hi (-t.lo) + 2)
  | n + 1, k, t, acc => trigTerms p x2 n (k + 2) ((t.mul p x2).divNat ((k + 1) * (k + 2))).neg (acc.add t)

def sinSeries (p : Nat) (x : Encl) : Encl := trigTerms p (x.mul p x) (p / 8) 1 x (Encl.int p 0)
def cosSeries (p : Nat) (x : Encl) : Encl := trigTerms p (x.mul p x) (p / 8) 0 (Encl.int p 1) (Encl.int p 0)

/-- 2 atanh(z) for 0 ≤ z ≤ 1/3: Σ 2 z^(2k+1) / (2k+1). -/
def atanhTerms (p : Nat) (z2 : Encl) : Nat → Nat → Encl → Encl → Encl
  | 0, _, t, acc => (acc.add t).widen (2 * max t.hi (-t.lo) + 2)
  | n + 1, k, t, acc => atanhTerms p z2 n (k + 1) (t.mul p z2) (acc.add (t.divNat (2 * k + 1)))

/-- ln m for 1 ≤ m ≤ 2. -/
def lnEncl (p : Nat) (m : Encl) : Encl :=
  let z := (m.sub (Encl.int p 1)).divPos p (m.add (Encl.int p 1))
  (atanhTerms p (z.mul p z) (p / 3 + 4) 0 z (Encl.int p 0)).scaleInt 2

/-- The functions of Table 7-6. -/
inductive TOp where
  | rcp | rsq | exp2 | log2 | sin | cos | tanh
  deriving DecidableEq, Repr

def TOp.code : TOp → Nat
  | .rcp => 0
  | .rsq => 1
  | .exp2 => 2
  | .log2 => 3
  | .sin => 4
  | .cos => 5
  | .tanh => 6

/-- An enclosure of f(a) in units of 2^-p, for finite nonzero a where Table 7-7 gives no special result. -/
def transEncl (op : TOp) (p : Nat) (a : Real) : Encl :=
  match op with
  | .exp2 =>
    -- beyond ±200 every value of the formats overflows or is far below the smallest subnormal
    if (⟨200, 1⟩ : Mag).lt a.mag then (if a.neg then ⟨2 ^ (p - 200), 2 ^ (p - 200) + 1⟩ else ⟨2 ^ (p + 200), 2 ^ (p + 200) + 1⟩)
    else
      let i : Int := a.signed / a.mag.den
      let f : Mag := ⟨(a.signed % a.mag.den).toNat, a.mag.den⟩
      let e := expEncl p ((Encl.ofMag p f).mul p (ln2Encl p))
      if 0 ≤ i then ⟨e.lo <<< i.toNat, e.hi <<< i.toNat⟩ else ⟨shr e.lo (-i).toNat, shrUp e.hi (-i).toNat⟩
  | .log2 =>
    let k := a.mag.log2
    let l := (lnEncl p (Encl.ofMag p (a.mag.scale (-k)))).divPos p (ln2Encl p)
    l.add (Encl.int p k)
  | .tanh =>
    let t : Encl :=
      if (⟨100, 1⟩ : Mag).lt a.mag then ⟨2 ^ p - 2 ^ (p - 200), 2 ^ p - 2 ^ (p - 201)⟩
      else
        let e0 := expEncl p (Encl.ofMag p ⟨a.mag.num, a.mag.den * 128⟩)
        let e := (List.range 8).foldl (fun e _ => e.mul p e) e0
        (e.sub (Encl.int p 1)).divPos p (e.add (Encl.int p 1))
    if a.neg then t.neg else t
  | .sin | .cos =>
    let q := p + 160
    let pi := piEncl q
    -- the multiple of π/2 next below |a|
    let n : Nat := (2 * a.mag.num <<< q) / (a.mag.den * pi.hi.toNat)
    let r := (Encl.ofMag q a.mag).sub ((pi.scaleInt n).divNat 2)
    let x : Encl := ⟨shr r.lo 160, shrUp r.hi 160⟩
    let s := sinSeries p x
    let c := cosSeries p x
    if op = .sin then
      let v := match n % 4 with
        | 0 => s
        | 1 => c
        | 2 => s.neg
        | _ => c.neg
      if a.neg then v.neg else v
    else
      match n % 4 with
      | 0 => c
      | 1 => s.neg
      | 2 => c.neg
      | _ => s
  | .rcp | .rsq => ⟨0, 0⟩

/-- The result that both ends of an enclosure round to; none where they differ, or where the sign is open. -/
def agreed (t : ElemType) (p rm g : Nat) (mode : W64) (e : Encl) : Option FRes :=
  let end_ (x : Int) : FRes := finishFp t ⟨x < 0, ⟨x.natAbs, 2 ^ p⟩⟩ true rm g mode
  if (0 < e.lo || e.hi < 0) && end_ e.lo == end_ e.hi then
    -- below zero the magnitude of the value lies below that of lo: the two ends agreed, so the cell is the same
    some (end_ e.lo)
  else none

/-- The correctly rounded irrational value f(a): enclosures of 640, 1280 and 2560 bits are tried in turn. -/
def transIrrational (op : TOp) (t : ElemType) (rm g : Nat) (mode : W64) (bits : Nat) (a : Real) : FRes :=
  match agreed t 640 rm g mode (transEncl op 640 a) with
  | some r => r
  | none => match agreed t 1280 rm g mode (transEncl op 1280 a) with
    | some r => r
    | none => match agreed t 2560 rm g mode (transEncl op 2560 a) with
      | some r => r
      | none => ⟨(Config.freeRounding op.code bits).toNat % 2 ^ elemWidth t, flagNX, false⟩

/-- Is a magnitude a power of two? -/
def Mag.isPow2 (x : Mag) : Bool := x.num != 0 && x.num * 2 ^ x.den.log2 == 2 ^ x.num.log2 * x.den

/-- f(a) for a finite nonzero operand outside Table 7-7's rows: the exact cases of Table 7-6, else the irrational value. -/
def transFinite (op : TOp) (t : ElemType) (rm g : Nat) (mode : W64) (bits : Nat) (a : Real) : FRes :=
  match op with
  | .rcp =>
    let r := finishFp t ⟨a.neg, ⟨a.mag.den, a.mag.num⟩⟩ false rm g mode
    -- Table 7-6: an exact power of two below the normal numbers is not one of the cases that leave NX clear; the assist sets the flags of IEEE 754 (R94; log 25)
    if !wideFp t && isTiny t ⟨a.mag.den, a.mag.num⟩ then { r with flags := r.flags ||| flagUF ||| flagNX } else r
  | .rsq => let (r, s) := sqrtMag ⟨a.mag.den, a.mag.num⟩; finishFp t ⟨false, r⟩ s rm g mode
  | .exp2 =>
    if a.mag.num % a.mag.den = 0 && a.mag.le ⟨1000, 1⟩ then
      let k : Int := a.signed / a.mag.den
      finishFp t ⟨false, (⟨1, 1⟩ : Mag).scale k⟩ false rm g mode
    else transIrrational op t rm g mode bits a
  | .log2 =>
    if a.mag.isPow2 then finishFp t (Real.ofInt a.mag.log2) false rm g mode
    else transIrrational op t rm g mode bits a
  | _ => transIrrational op t rm g mode bits a

/-- One element of a transcendental (R131), with the special operands of Table 7-7. -/
def transOp (op : TOp) (t : ElemType) (rm g : Nat) (mode : W64) (bits : Nat) : FRes :=
  let v := readMode t mode bits
  let one : FRes := ⟨(roundTo t ⟨false, ⟨1, 1⟩⟩ false 1 0 0).bits, 0, false⟩
  match v with
  | .nan .. => nanOut t mode [v]
  | .inf n =>
    match op with
    | .rcp => ⟨encodeMag t n 0, 0, false⟩
    | .rsq => if n then invalid t mode [v] else ⟨0, 0, false⟩
    | .exp2 => if n then ⟨0, 0, false⟩ else ⟨infBits t false, 0, false⟩
    | .log2 => if n then invalid t mode [v] else ⟨infBits t false, 0, false⟩
    | .sin | .cos => invalid t mode [v]
    | .tanh => if n then ⟨encodeMag t true one.bits, 0, false⟩ else one
  | .fin a =>
    if a.isZero then
      match op with
      | .rcp | .rsq => ⟨infBits t a.neg, flagDZ, false⟩
      | .exp2 | .cos => one
      | .log2 => ⟨infBits t true, flagDZ, false⟩
      | .sin | .tanh => ⟨encodeMag t a.neg 0, 0, false⟩
    else if a.neg && (op = .rsq || op = .log2) then invalid t mode [v]
    else transFinite op t rm g mode bits a

end Sys2Proof.Machine
end

