-- ==== Sys2Proof/Machine/VecFloat.lean ====
section
/-! DEFINITION. Vector floating point, transcendentals, classification and conversions (R127 to R135). -/

namespace Sys2Proof.Machine

open Sys2Proof

/-- Does a word draw from the generators: its effective rounding mode is stochastic (R85)? -/
def Word.draws (w : Word) (g : Group) : Bool := w.rm g == 6

/-- The rounding instructions of Table 7-5. -/
def fpResult (op : FOp) (w : Word) (g : Group) (act : Mask) : VecRes :=
  let t := w.type
  elementwise w g act t (w.source g act 1 t) (w.operandB g act t) (w.operandD g) (w.draws g) fun x a b d => fpOp op t (w.rm g) x g.mode a b d

def runFp (op : FOp) (w : Word) (s : State) : Answer := runVector w (fpResult op w) s

def minMaxResult (isMax : Bool) (w : Word) (g : Group) (act : Mask) : VecRes :=
  let t := w.type
  elementwise w g act t (w.source g act 1 t) (w.operandB g act t) [] false fun _ a b _ => fpMinMax isMax t g.mode a b

def runFpMinMax (isMax : Bool) (w : Word) (s : State) : Answer := runVector w (minMaxResult isMax w) s

def absResult (w : Word) (g : Group) (act : Mask) : VecRes :=
  elementwise w g act w.type (w.source g act 1 w.type) [] [] false fun _ a _ _ => fpAbs w.type g.mode a

/-- `vfabs` (R129). -/
def execVfabs (f : FForm) (s : State) : Answer := runVector (mkWord shapeVfabs f) (absResult (mkWord shapeVfabs f)) s

def classResult (w : Word) (g : Group) (act : Mask) : VecRes :=
  elementwise w g act w.type (w.source g act 1 w.type) [] [] false fun _ a _ _ => { bits := fpClass w.type a }

/-- `vfclass` (R132). -/
def execVfclass (f : FForm) (s : State) : Answer := runVector (mkWord shapeVfclass f) (classResult (mkWord shapeVfclass f)) s

/-- `vfcmp` (R130): the whole mask is written, and the flags of every active lane are set. -/
def runFpCompare (w : Word) (s : State) : Answer :=
  runWord w {} (fun s =>
    let act := s.g.active w.f.pred.toNat
    let t := w.type
    let a := w.source s.g act 1 t
    let b := w.operandB s.g act t
    let cmp := fun l => fpCompare w.f.rnd.toNat t s.g.mode (a.getD l 0) (b.getD l 0)
    let g := (s.g.concreteReads w act).writeM w.lat w.f.d.toNat (maskOf fun l => act.getLsbD l && (cmp l).1)
    ({ s with g := g.setFlags ((lanesOf act).foldl (fun acc l => acc ||| (cmp l).2) 0) }, .done)) s

def transResult (op : TOp) (w : Word) (g : Group) (act : Mask) : VecRes :=
  let t := w.type
  elementwise w g act t (w.source g act 1 t) [] [] (w.draws g) fun x a _ _ => transOp op t (w.rm g) x g.mode a

def runTrans (op : TOp) (w : Word) (s : State) : Answer := runVector w (transResult op w) s

/-- `vfadd` (R128). -/
def execVfadd (f : FForm) (s : State) : Answer := runFp .add (mkWord shapeVfadd f) s

/-- `vfadd` with an imm32 (R128). -/
def execVfaddImm32 (f : FForm) (imm : BitVec 32) (s : State) : Answer := runFp .add (mkWord shapeVfaddImm32 f (.imm32 imm)) s

/-- `vfsub` (R128). -/
def execVfsub (f : FForm) (s : State) : Answer := runFp .sub (mkWord shapeVfsub f) s

/-- `vfsub` with an imm32 (R128). -/
def execVfsubImm32 (f : FForm) (imm : BitVec 32) (s : State) : Answer := runFp .sub (mkWord shapeVfsubImm32 f (.imm32 imm)) s

/-- `vfmul` (R128). -/
def execVfmul (f : FForm) (s : State) : Answer := runFp .mul (mkWord shapeVfmul f) s

/-- `vfmul` with an imm32 (R128). -/
def execVfmulImm32 (f : FForm) (imm : BitVec 32) (s : State) : Answer := runFp .mul (mkWord shapeVfmulImm32 f (.imm32 imm)) s

/-- `vfma` (R128). -/
def execVfma (f : FForm) (s : State) : Answer := runFp .fma (mkWord shapeVfma f) s

/-- `vfma` with an imm32 (R128). -/
def execVfmaImm32 (f : FForm) (imm : BitVec 32) (s : State) : Answer := runFp .fma (mkWord shapeVfmaImm32 f (.imm32 imm)) s

/-- `vfdiv` (R128). -/
def execVfdiv (f : FForm) (s : State) : Answer := runFp .div (mkWord shapeVfdiv f) s

/-- `vfsqrt` (R128). -/
def execVfsqrt (f : FForm) (s : State) : Answer := runFp .sqrt (mkWord shapeVfsqrt f) s

/-- `vfmin` (R128). -/
def execVfmin (f : FForm) (s : State) : Answer := runFpMinMax false (mkWord shapeVfmin f) s

/-- `vfmin` with an imm32 (R128). -/
def execVfminImm32 (f : FForm) (imm : BitVec 32) (s : State) : Answer := runFpMinMax false (mkWord shapeVfminImm32 f (.imm32 imm)) s

/-- `vfmax` (R128). -/
def execVfmax (f : FForm) (s : State) : Answer := runFpMinMax true (mkWord shapeVfmax f) s

/-- `vfmax` with an imm32 (R128). -/
def execVfmaxImm32 (f : FForm) (imm : BitVec 32) (s : State) : Answer := runFpMinMax true (mkWord shapeVfmaxImm32 f (.imm32 imm)) s

/-- `vfcmp` (R130). -/
def execVfcmp (f : FForm) (s : State) : Answer := runFpCompare (mkWord shapeVfcmp f) s

/-- `vfcmp` with an imm32 (R130). -/
def execVfcmpImm32 (f : FForm) (imm : BitVec 32) (s : State) : Answer := runFpCompare (mkWord shapeVfcmpImm32 f (.imm32 imm)) s

/-- `vfrcp` (R131). -/
def execVfrcp (f : FForm) (s : State) : Answer := runTrans .rcp (mkWord shapeVfrcp f) s

/-- `vfrsq` (R131). -/
def execVfrsq (f : FForm) (s : State) : Answer := runTrans .rsq (mkWord shapeVfrsq f) s

/-- `vfexp2` (R131). -/
def execVfexp2 (f : FForm) (s : State) : Answer := runTrans .exp2 (mkWord shapeVfexp2 f) s

/-- `vflog2` (R131). -/
def execVflog2 (f : FForm) (s : State) : Answer := runTrans .log2 (mkWord shapeVflog2 f) s

/-- `vfsin` (R131). -/
def execVfsin (f : FForm) (s : State) : Answer := runTrans .sin (mkWord shapeVfsin f) s

/-- `vfcos` (R131). -/
def execVfcos (f : FForm) (s : State) : Answer := runTrans .cos (mkWord shapeVfcos f) s

/-- `vftanh` (R131). -/
def execVftanh (f : FForm) (s : State) : Answer := runTrans .tanh (mkWord shapeVftanh f) s

/-! ### Conversions -/

/-- n elements from part h of the wider side; the elements of D that are not reached are kept. -/
def cvtResult (w : Word) (g : Group) (act : Mask) : VecRes :=
  let dt := w.type
  let st := (elemOf (w.f.b.toNat % 32)).getD .n32
  let h := w.f.b.toNat / 32
  let es := elemCount st
  let ed := elemCount dt
  let n := min es ed
  let sb := if ed < es then h * n else 0
  let db := if es < ed then h * n else 0
  let a := w.source g act 1 st
  { n := w.f.d.toNat, pair := elemPair dt, bits := elemBits (elemWidth dt) n db
    outs := (lanesOf act).map fun l =>
      laneOut l (elemWidth dt) n db (w.draws g) (genAt g.gens l) fun j x => convertElem dt st (w.rm g) x g.mode (subElem (elemWidth st) (sb + j) (a.getD l 0)) }

/-- `vcvt` (R133). -/
def execVcvt (f : FForm) (s : State) : Answer := runVector (mkWord shapeVcvt f) (cvtResult (mkWord shapeVcvt f)) s

/-- The type of the sources of `vpack`: 32-bit, or 16-bit for the byte types. -/
def packSource : ElemType → ElemType
  | .i16 => .i32
  | .n16 => .n32
  | .i8 => .i16
  | .n8 => .n16
  | _ => .f32

/-- The lower half of D from A and the upper from B. The integer types never draw (R85). -/
def packResult (w : Word) (g : Group) (act : Mask) : VecRes :=
  let dt := w.type
  let st := packSource dt
  let a := w.source g act 1 st
  let b := w.source g act 2 st
  let half := elemCount st
  { n := w.f.d.toNat, pair := false, bits := 2 ^ 32 - 1
    outs := (lanesOf act).map fun l =>
      laneOut l (elemWidth dt) (2 * half) 0 (elemIeee dt && w.draws g) (genAt g.gens l) fun j x =>
        let src := if j < half then subElem (elemWidth st) j (a.getD l 0) else subElem (elemWidth st) (j - half) (b.getD l 0)
        convertElem dt st (w.rm g) x g.mode src }

/-- `vpack` (R134). -/
def execVpack (f : FForm) (s : State) : Answer := runVector (mkWord shapeVpack f) (packResult (mkWord shapeVpack f)) s

/-- The type of the results of `vunpack`. -/
def unpackDest : ElemType → ElemType
  | .i16 => .i32
  | .n16 => .n32
  | .i8 => .i16
  | .n8 => .n16
  | _ => .f32

/-- Half h of the register, widened exactly; no rounding mode is taken and nothing is drawn. -/
def unpackResult (w : Word) (g : Group) (act : Mask) : VecRes :=
  let st := w.type
  let dt := unpackDest st
  let a := w.source g act 1 st
  { n := w.f.d.toNat, pair := false, bits := 2 ^ 32 - 1
    outs := (lanesOf act).map fun l =>
      laneOut l (elemWidth dt) (elemCount dt) 0 false (genAt g.gens l) fun j x =>
        convertElem dt st 1 x g.mode (subElem (elemWidth st) (w.f.b.toNat * elemCount dt + j) (a.getD l 0)) }

/-- `vunpack` (R135). -/
def execVunpack (f : FForm) (s : State) : Answer := runVector (mkWord shapeVunpack f) (unpackResult (mkWord shapeVunpack f)) s

end Sys2Proof.Machine
end

