-- ==== Sys2Proof/Machine/VecInt.lean ====
section
/-! DEFINITION. Vector integer arithmetic, logic, shifts, bit fields, counts, dot products, compare, select, work identifiers and the allotment (R119 to R126, R143, R144). -/

namespace Sys2Proof.Machine

open Sys2Proof

/-- The operations of Tables 7-3 and 7-4 and of R123. -/
inductive IntOp where
  | add | sub | addsat | subsat | mul | mulh | mad | absdiff | min | max | abs | and | or | xor | andn | shl | shr | sra | rot | popc | clz | ctz | brev
  deriving DecidableEq, Repr

/-- Is B of the operation a count, zero-extended from an imm8? -/
def IntOp.shift : IntOp → Bool
  | .shl | .shr | .sra | .rot => true
  | _ => false

/-- x with bit j moved to bit w − 1 − j. -/
def reverseBits (w x : Nat) : Nat := (List.range w).foldl (fun acc j => if x.testBit j then acc + 2 ^ (w - 1 - j) else acc) 0

def onesOf (w x : Nat) : Nat := ((List.range w).filter fun j => x.testBit j).length

/-- One element: the exact result of the tables, and for saturating operations the clamp, reduced to the element's width (R120 to R123). -/
def intElem (op : IntOp) (t : ElemType) (a b d : Nat) : Nat :=
  let w := elemWidth t
  let x := intOf t a
  let y := intOf t b
  match op with
  | .add => intBits t (x + y)
  | .sub => intBits t (x - y)
  | .addsat => intBits t (clampInt t (x + y))
  | .subsat => intBits t (clampInt t (x - y))
  | .mul => intBits t (x * y)
  | .mulh => intBits t (x * y / (2 ^ w : Nat))
  | .mad => intBits t (x * y + intOf t d)
  | .absdiff => intBits t (if x < y then y - x else x - y)
  | .min => intBits t (min x y)
  | .max => intBits t (max x y)
  | .abs => intBits t (if x < 0 then -x else x)
  | .and => a &&& b
  | .or => a ||| b
  | .xor => a ^^^ b
  | .andn => a &&& (b ^^^ (2 ^ w - 1))
  | .shl => if w ≤ b then 0 else a * 2 ^ b % 2 ^ w
  | .shr => if w ≤ b then 0 else a / 2 ^ b
  | .sra => intPattern w (patternInt true w a / (2 ^ min b w : Nat))
  | .rot => let c := b % w; (a * 2 ^ c + a / 2 ^ (w - c)) % 2 ^ w
  | .popc => onesOf w a
  | .clz => if a = 0 then w else w - 1 - a.log2
  | .ctz => ((List.range w).find? fun j => a.testBit j).getD w
  | .brev => reverseBits w a

/-- B of an integer operation: a shift takes its imm8 as a count. -/
def intOperandB (op : IntOp) (w : Word) (g : Group) (act : Mask) (t : ElemType) : List Nat :=
  if op.shift && w.sh.b = .imm then List.replicate 32 (splat t w.f.b.toNat) else w.operandB g act t

def intResult (op : IntOp) (w : Word) (g : Group) (act : Mask) : VecRes :=
  let t := w.type
  elementwise w g act t (w.source g act 1 t) (intOperandB op w g act t) (w.operandD g) false fun _ a b d => { bits := intElem op t a b d }

/-- Integer and logic instructions other than `vadd` and `vsub`. -/
def runInt (op : IntOp) (w : Word) (s : State) : Answer := runVector w (intResult op w) s

/-- `vadd` and `vsub`: as `runInt`, but a tag of one source may pass to D (Table 13-2). -/
def runAdd (sub : Bool) (w : Word) (s : State) : Answer :=
  runWord w {} (fun s =>
    let act := s.g.active w.f.pred.toNat
    let r := putResults s [{ intResult (if sub then .sub else .add) w s.g act with lat := w.lat }]
    let tagged := s.g.addTags w w.type act sub
    ({ r.1 with g := { r.1.g with region := tagged.region } }, r.2)) s

/-- `vadd` (R120). -/
def execVadd (f : FForm) (s : State) : Answer := runAdd false (mkWord shapeVadd f) s

/-- `vadd` with an imm8 (R120). -/
def execVaddImm8 (f : FForm) (s : State) : Answer := runAdd false (mkWord shapeVaddImm8 f) s

/-- `vadd` with an imm32 (R120). -/
def execVaddImm32 (f : FForm) (imm : BitVec 32) (s : State) : Answer := runAdd false (mkWord shapeVaddImm32 f (.imm32 imm)) s

/-- `vsub` (R120). -/
def execVsub (f : FForm) (s : State) : Answer := runAdd true (mkWord shapeVsub f) s

/-- `vsub` with an imm8 (R120). -/
def execVsubImm8 (f : FForm) (s : State) : Answer := runAdd true (mkWord shapeVsubImm8 f) s

/-- `vsub` with an imm32 (R120). -/
def execVsubImm32 (f : FForm) (imm : BitVec 32) (s : State) : Answer := runAdd true (mkWord shapeVsubImm32 f (.imm32 imm)) s

/-- `vaddsat` (R120). -/
def execVaddsat (f : FForm) (s : State) : Answer := runInt .addsat (mkWord shapeVaddsat f) s

/-- `vaddsat` with an imm8 (R120). -/
def execVaddsatImm8 (f : FForm) (s : State) : Answer := runInt .addsat (mkWord shapeVaddsatImm8 f) s

/-- `vaddsat` with an imm32 (R120). -/
def execVaddsatImm32 (f : FForm) (imm : BitVec 32) (s : State) : Answer := runInt .addsat (mkWord shapeVaddsatImm32 f (.imm32 imm)) s

/-- `vsubsat` (R120). -/
def execVsubsat (f : FForm) (s : State) : Answer := runInt .subsat (mkWord shapeVsubsat f) s

/-- `vsubsat` with an imm8 (R120). -/
def execVsubsatImm8 (f : FForm) (s : State) : Answer := runInt .subsat (mkWord shapeVsubsatImm8 f) s

/-- `vsubsat` with an imm32 (R120). -/
def execVsubsatImm32 (f : FForm) (imm : BitVec 32) (s : State) : Answer := runInt .subsat (mkWord shapeVsubsatImm32 f (.imm32 imm)) s

/-- `vmul` (R120). -/
def execVmul (f : FForm) (s : State) : Answer := runInt .mul (mkWord shapeVmul f) s

/-- `vmul` with an imm8 (R120). -/
def execVmulImm8 (f : FForm) (s : State) : Answer := runInt .mul (mkWord shapeVmulImm8 f) s

/-- `vmul` with an imm32 (R120). -/
def execVmulImm32 (f : FForm) (imm : BitVec 32) (s : State) : Answer := runInt .mul (mkWord shapeVmulImm32 f (.imm32 imm)) s

/-- `vmulh` (R120). -/
def execVmulh (f : FForm) (s : State) : Answer := runInt .mulh (mkWord shapeVmulh f) s

/-- `vmulh` with an imm8 (R120). -/
def execVmulhImm8 (f : FForm) (s : State) : Answer := runInt .mulh (mkWord shapeVmulhImm8 f) s

/-- `vmulh` with an imm32 (R120). -/
def execVmulhImm32 (f : FForm) (imm : BitVec 32) (s : State) : Answer := runInt .mulh (mkWord shapeVmulhImm32 f (.imm32 imm)) s

/-- `vmad` (R120). -/
def execVmad (f : FForm) (s : State) : Answer := runInt .mad (mkWord shapeVmad f) s

/-- `vmad` with an imm8 (R120). -/
def execVmadImm8 (f : FForm) (s : State) : Answer := runInt .mad (mkWord shapeVmadImm8 f) s

/-- `vmad` with an imm32 (R120). -/
def execVmadImm32 (f : FForm) (imm : BitVec 32) (s : State) : Answer := runInt .mad (mkWord shapeVmadImm32 f (.imm32 imm)) s

/-- `vabsdiff` (R120). -/
def execVabsdiff (f : FForm) (s : State) : Answer := runInt .absdiff (mkWord shapeVabsdiff f) s

/-- `vmin` (R120). -/
def execVmin (f : FForm) (s : State) : Answer := runInt .min (mkWord shapeVmin f) s

/-- `vmin` with an imm8 (R120). -/
def execVminImm8 (f : FForm) (s : State) : Answer := runInt .min (mkWord shapeVminImm8 f) s

/-- `vmin` with an imm32 (R120). -/
def execVminImm32 (f : FForm) (imm : BitVec 32) (s : State) : Answer := runInt .min (mkWord shapeVminImm32 f (.imm32 imm)) s

/-- `vmax` (R120). -/
def execVmax (f : FForm) (s : State) : Answer := runInt .max (mkWord shapeVmax f) s

/-- `vmax` with an imm8 (R120). -/
def execVmaxImm8 (f : FForm) (s : State) : Answer := runInt .max (mkWord shapeVmaxImm8 f) s

/-- `vmax` with an imm32 (R120). -/
def execVmaxImm32 (f : FForm) (imm : BitVec 32) (s : State) : Answer := runInt .max (mkWord shapeVmaxImm32 f (.imm32 imm)) s

/-- `vabs` (R120). -/
def execVabs (f : FForm) (s : State) : Answer := runInt .abs (mkWord shapeVabs f) s

/-- `vand` (R121). -/
def execVand (f : FForm) (s : State) : Answer := runInt .and (mkWord shapeVand f) s

/-- `vand` with an imm8 (R121). -/
def execVandImm8 (f : FForm) (s : State) : Answer := runInt .and (mkWord shapeVandImm8 f) s

/-- `vand` with an imm32 (R121). -/
def execVandImm32 (f : FForm) (imm : BitVec 32) (s : State) : Answer := runInt .and (mkWord shapeVandImm32 f (.imm32 imm)) s

/-- `vor` (R121). -/
def execVor (f : FForm) (s : State) : Answer := runInt .or (mkWord shapeVor f) s

/-- `vor` with an imm8 (R121). -/
def execVorImm8 (f : FForm) (s : State) : Answer := runInt .or (mkWord shapeVorImm8 f) s

/-- `vor` with an imm32 (R121). -/
def execVorImm32 (f : FForm) (imm : BitVec 32) (s : State) : Answer := runInt .or (mkWord shapeVorImm32 f (.imm32 imm)) s

/-- `vxor` (R121). -/
def execVxor (f : FForm) (s : State) : Answer := runInt .xor (mkWord shapeVxor f) s

/-- `vxor` with an imm8 (R121). -/
def execVxorImm8 (f : FForm) (s : State) : Answer := runInt .xor (mkWord shapeVxorImm8 f) s

/-- `vxor` with an imm32 (R121). -/
def execVxorImm32 (f : FForm) (imm : BitVec 32) (s : State) : Answer := runInt .xor (mkWord shapeVxorImm32 f (.imm32 imm)) s

/-- `vandn` (R121). -/
def execVandn (f : FForm) (s : State) : Answer := runInt .andn (mkWord shapeVandn f) s

/-- `vandn` with an imm8 (R121). -/
def execVandnImm8 (f : FForm) (s : State) : Answer := runInt .andn (mkWord shapeVandnImm8 f) s

/-- `vandn` with an imm32 (R121). -/
def execVandnImm32 (f : FForm) (imm : BitVec 32) (s : State) : Answer := runInt .andn (mkWord shapeVandnImm32 f (.imm32 imm)) s

/-- `vshl` (R121). -/
def execVshl (f : FForm) (s : State) : Answer := runInt .shl (mkWord shapeVshl f) s

/-- `vshl` with an imm8 (R121). -/
def execVshlImm8 (f : FForm) (s : State) : Answer := runInt .shl (mkWord shapeVshlImm8 f) s

/-- `vshr` (R121). -/
def execVshr (f : FForm) (s : State) : Answer := runInt .shr (mkWord shapeVshr f) s

/-- `vshr` with an imm8 (R121). -/
def execVshrImm8 (f : FForm) (s : State) : Answer := runInt .shr (mkWord shapeVshrImm8 f) s

/-- `vsra` (R121). -/
def execVsra (f : FForm) (s : State) : Answer := runInt .sra (mkWord shapeVsra f) s

/-- `vsra` with an imm8 (R121). -/
def execVsraImm8 (f : FForm) (s : State) : Answer := runInt .sra (mkWord shapeVsraImm8 f) s

/-- `vrot` (R121). -/
def execVrot (f : FForm) (s : State) : Answer := runInt .rot (mkWord shapeVrot f) s

/-- `vrot` with an imm8 (R121). -/
def execVrotImm8 (f : FForm) (s : State) : Answer := runInt .rot (mkWord shapeVrotImm8 f) s

/-- `vpopc` (R123). -/
def execVpopc (f : FForm) (s : State) : Answer := runInt .popc (mkWord shapeVpopc f) s

/-- `vclz` (R123). -/
def execVclz (f : FForm) (s : State) : Answer := runInt .clz (mkWord shapeVclz f) s

/-- `vctz` (R123). -/
def execVctz (f : FForm) (s : State) : Answer := runInt .ctz (mkWord shapeVctz f) s

/-- `vbrev` (R123). -/
def execVbrev (f : FForm) (s : State) : Answer := runInt .brev (mkWord shapeVbrev f) s

/-! ### Bit fields (R122) -/

/-- The field that position and length bits of B select. -/
def bitExtract (t : ElemType) (a b : Nat) : Nat :=
  let w := elemWidth t
  let pos := b % 256
  let len := min (b / 256 % 256) w
  if w ≤ pos || len = 0 then 0
  else
    let f := a / 2 ^ pos % 2 ^ len
    if elemSigned t && 2 ^ (len - 1) ≤ f then intPattern w ((f : Int) - 2 ^ len) else f

/-- D with the field replaced by the low bits of a. -/
def bitInsert (t : ElemType) (a b d : Nat) : Nat :=
  let w := elemWidth t
  let pos := b % 256
  let len := min (b / 256 % 256) w
  if w ≤ pos || len = 0 then d
  else
    let n := min len (w - pos)
    let m := (2 ^ n - 1) * 2 ^ pos
    (d &&& (m ^^^ (2 ^ w - 1))) ||| (a % 2 ^ n * 2 ^ pos)

/-- B of a bit-field instruction: a plain register, or the imm32. -/
def fieldOperandB (w : Word) (g : Group) (act : Mask) : List Nat :=
  match w.lit with
  | .imm32 v => List.replicate 32 v.toNat
  | _ => w.source g act 2 .n32

def fieldResult (ins : Bool) (w : Word) (g : Group) (act : Mask) : VecRes :=
  let t := w.type
  let a := w.source g act 1 t
  let b := fieldOperandB w g act
  let d := w.operandD g
  { n := w.f.d.toNat, pair := elemPair t, bits := 2 ^ elemWidth t - 1
    outs := (lanesOf act).map fun l =>
      { lane := l, gen := genAt g.gens l
        val := if ins then bitInsert t (a.getD l 0) (b.getD l 0) (d.getD l 0) else bitExtract t (a.getD l 0) (b.getD l 0) } }

def runField (ins : Bool) (w : Word) (s : State) : Answer := runVector w (fieldResult ins w) s

/-- `vbext` (R122). -/
def execVbext (f : FForm) (s : State) : Answer := runField false (mkWord shapeVbext f) s
/-- `vbext` with an imm32 (R122). -/
def execVbextImm32 (f : FForm) (imm : BitVec 32) (s : State) : Answer := runField false (mkWord shapeVbextImm32 f (.imm32 imm)) s
/-- `vbins` (R122). -/
def execVbins (f : FForm) (s : State) : Answer := runField true (mkWord shapeVbins f) s
/-- `vbins` with an imm32 (R122). -/
def execVbinsImm32 (f : FForm) (imm : BitVec 32) (s : State) : Answer := runField true (mkWord shapeVbinsImm32 f (.imm32 imm)) s

/-! ### Dot products (R124) -/

/-- D plus the products of the elements, modulo 2^32. -/
def dotLane (t : ElemType) (a b d : Nat) : Nat :=
  let w := elemWidth t
  intPattern 32 ((List.range (elemCount t)).foldl (fun acc i => acc + intOf t (subElem w i a) * intOf t (subElem w i b)) (patternInt (elemSigned t) 32 d))

def dotResult (w : Word) (g : Group) (act : Mask) : VecRes :=
  let t := w.type
  let a := w.source g act 1 t
  let b := w.operandB g act t
  let d := w.operandD g
  { n := w.f.d.toNat, pair := false, bits := 2 ^ 32 - 1
    outs := (lanesOf act).map fun l => { lane := l, gen := genAt g.gens l, val := dotLane t (a.getD l 0) (b.getD l 0) (d.getD l 0) } }

def runDot (w : Word) (s : State) : Answer := runVector w (dotResult w) s

/-- `vdot4` (R124). -/
def execVdot4 (f : FForm) (s : State) : Answer := runDot (mkWord shapeVdot4 f) s
/-- `vdot2` (R124). -/
def execVdot2 (f : FForm) (s : State) : Answer := runDot (mkWord shapeVdot2 f) s

/-! ### Compare (R125) -/

/-- The lanes in which the condition holds. -/
def compareMask (w : Word) (act : Mask) (t : ElemType) (a b : List Nat) : Mask :=
  maskOf fun l => act.getLsbD l && condInt w.f.rnd.toNat (intOf t (a.getD l 0)) (intOf t (b.getD l 0))

/-- Constraints of the lanes of a compare (R270); none when a 65th would be needed. -/
def compareLanes (w : Word) (t : ElemType) (act res : Mask) (a b : List Nat) : List Nat → Region → Option Region
  | [], r => some r
  | l :: ls, r =>
    let ta := w.tagsRead r act 1 l
    let tb := w.tagsRead r act 2 l
    let record := fun (left : Bool) (tag : Tag) =>
      r.constrain (compareEntry r tag ((if left then a else b).getD l 0) left (elemSigned t) w.f.rnd.toNat ((if left then b else a).getD l 0) (res.getLsbD l))
    let plainA := !w.f.nega && w.f.bsel != 1
    let plainB := !w.f.negb && w.f.bsel != 2
    let r' := if ta.isEmpty && tb.isEmpty then some r
      else match (if tb.isEmpty && plainA then wholeTag t w.f.a.toNat ta else none), (if ta.isEmpty && plainB then wholeTag t w.f.b.toNat tb else none) with
        | some x, _ => record true x
        | _, some x => record false x
        | none, none => some (r.concreteTags (ta ++ tb))
    match r' with
    | some r' => compareLanes w t act res a b ls r'
    | none => none

/-- `vcmp`: the whole mask is written, with 0 outside Active() (R99, R125). -/
def runCompare (w : Word) (s : State) : Answer :=
  runWord w {} (fun s =>
    let act := s.g.active w.f.pred.toNat
    let t := w.type
    let a := w.source s.g act 1 t
    let b := w.operandB s.g act t
    let res := compareMask w act t a b
    let g := s.g.writeM w.lat w.f.d.toNat res
    match s.g.region with
    | none => ({ s with g := g }, .done)
    | some r => match compareLanes w t act res a b (lanesOf act) r with
      | some r' => ({ s with g := { g with region := some r' } }, .done)
      | none => (s, .abort 6)) s

/-- `vcmp` (R125). -/
def execVcmp (f : FForm) (s : State) : Answer := runCompare (mkWord shapeVcmp f) s
/-- `vcmp` with an imm8 (R125). -/
def execVcmpImm8 (f : FForm) (s : State) : Answer := runCompare (mkWord shapeVcmpImm8 f) s
/-- `vcmp` with an imm32 (R125). -/
def execVcmpImm32 (f : FForm) (imm : BitVec 32) (s : State) : Answer := runCompare (mkWord shapeVcmpImm32 f (.imm32 imm)) s

/-! ### Select (R126) -/

def selectResult (w : Word) (g : Group) (act : Mask) : VecRes :=
  let t := w.type
  let a := w.source g act 1 t
  let b := w.operandB g act t
  let m := g.readM w.f.rnd.toNat
  { n := w.f.d.toNat, pair := elemPair t, bits := 2 ^ elemWidth t - 1
    outs := (lanesOf act).map fun l => { lane := l, gen := genAt g.gens l, val := if m.getLsbD l then a.getD l 0 else b.getD l 0 } }

def runSelect (w : Word) (s : State) : Answer := runVector w (selectResult w) s

/-- `vsel` (R126). -/
def execVsel (f : FForm) (s : State) : Answer := runSelect (mkWord shapeVsel f) s
/-- `vsel` with an imm8 (R126). -/
def execVselImm8 (f : FForm) (s : State) : Answer := runSelect (mkWord shapeVselImm8 f) s
/-- `vsel` with an imm32 (R126). -/
def execVselImm32 (f : FForm) (imm : BitVec 32) (s : State) : Answer := runSelect (mkWord shapeVselImm32 f (.imm32 imm)) s

/-! ### Work identifiers (R24, R143) -/

/-- Width of field Fi; F0 is 5 bits wide. -/
def fieldWidth (h : Header) (i : Nat) : Nat := if i = 0 then 5 else h.widths.getD (i - 1) 0

/-- Bits below field Fi. -/
def fieldBase (h : Header) (i : Nat) : Nat := ((List.range i).map (fieldWidth h)).sum

/-- L, the lanes of a block as a power of two. -/
def blockBits (h : Header) : Nat := fieldBase h h.blvl

/-- The selection f of Table 7-13 from one lane's WID. -/
def widField (h : Header) (f wid : Nat) : Nat :=
  if f < 6 then wid / 2 ^ fieldBase h f % 2 ^ fieldWidth h f
  else if f = 6 then wid / 2 ^ blockBits h
  else wid % 2 ^ blockBits h

/-- The header of a group's block. -/
def State.header (s : State) (g : Group) : Header :=
  match s.block? g.blk with
  | some b => b.hdr
  | none => { entry := 0, regs := 0, floor := 0, acc := 0, flags := 0, spad := 0, widths := [], blvl := 1, stage := 0, weight := 0, span := 1, gangn := 0
              recv := 0, recw := 0, inq := 0, nout := 0, range := 0, outq := [], emit := [] }

def widResult (h : Header) (w : Word) (g : Group) (act : Mask) : VecRes :=
  { n := w.f.d.toNat, pair := elemPair w.type, bits := 2 ^ elemWidth w.type - 1
    outs := (lanesOf act).map fun l =>
      { lane := l, gen := genAt g.gens l, val := widField h w.f.rnd.toNat ((g.wid.toNat + l) % 2 ^ 64) % 2 ^ elemWidth w.type } }

/-- `vwid` (R143). -/
def execVwid (f : FForm) (s : State) : Answer := runVector (mkWord shapeVwid f) (widResult (s.header s.g) (mkWord shapeVwid f)) s

/-! ### The allotment (R144) -/

/-- `vshrink` (R144): releases the names from n upward and lowers the allotment and the floor. -/
def execVshrink (f : FForm) (s : State) : Answer :=
  let w := mkWord shapeVshrink f
  let n := f.b.toNat
  runWord w {} (fun s =>
    if s.g.inreg then (s, .trap 0x02 0)
    else if s.g.locked.v.any fun m => n ≤ m && m != 255 then (s, .hold .waitStall (.until_ (.regs (s.g.locked.v.filter fun m => n ≤ m && m != 255) [])))
    else if n = 0 || s.g.regs < n then (s, .trap 0x04 0)
    else
      let names := (List.range s.g.regs).filter fun m => n ≤ m
      let g := names.foldl Group.releaseV s.g
      (State.grant { s with g := { g with regs := n, floor := min g.floor n } } g.quad, .done)) s

end Sys2Proof.Machine
end

