-- ==== Sys2Proof/Machine/VecMove.lean ====
section
/-! DEFINITION. Moves, lane permutes, scans and reductions, the exchange of paired groups, and the pair word (R136 to R142, R51 to R54). -/

namespace Sys2Proof.Machine

open Sys2Proof

/-! ### Moves (R136, R137) -/

/-- One value for each active lane, with no flags and no draws. -/
def plainResult (w : Word) (g : Group) (act : Mask) (pair : Bool) (f : Nat → Nat) : VecRes :=
  { n := w.f.d.toNat, pair := pair, bits := if pair then 2 ^ 64 - 1 else 2 ^ 32 - 1
    outs := (lanesOf act).map fun l => { lane := l, val := f l, gen := genAt g.gens l } }

def movResult (w : Word) (g : Group) (act : Mask) : VecRes :=
  let b := w.operandB g act w.type
  plainResult w g act (elemPair w.type) fun l => b.getD l 0

def runMov (w : Word) (s : State) : Answer := runVector w (movResult w) s

/-- `vmov` (R136). -/
def execVmov (f : FForm) (s : State) : Answer := runMov (mkWord shapeVmov f) s

/-- `vmov` with an imm8 (R136). -/
def execVmovImm8 (f : FForm) (s : State) : Answer := runMov (mkWord shapeVmovImm8 f) s

/-- `vmov` with an imm32 (R136). -/
def execVmovImm32 (f : FForm) (imm : BitVec 32) (s : State) : Answer := runMov (mkWord shapeVmovImm32 f (.imm32 imm)) s

def movkResult (w : Word) (g : Group) (act : Mask) : VecRes :=
  let x := (g.readK w.f.a.toNat).toNat
  plainResult w g act (elemPair w.type) fun _ => x

/-- `vmovk` (R137). -/
def execVmovk (f : FForm) (s : State) : Answer := runVector (mkWord shapeVmovk f) (movkResult (mkWord shapeVmovk f)) s

/-! ### Lane permutes (R138) -/

/-- B of a permute: a count or selection in each lane. -/
def permB (w : Word) (g : Group) (act : Mask) : List Nat := if w.sh.b = .imm then List.replicate 32 w.f.b.toNat else w.source g act 2 .n32

def permResult (w : Word) (f : List Nat → Nat → Nat → Nat) (g : Group) (act : Mask) : VecRes :=
  let a := w.source g act 1 w.type
  let b := permB w g act
  plainResult w g act (elemPair w.type) fun l => f a l (b.getD l 0)

/-- A permute: what lane l receives, from the lanes of A and B's value in that lane. Tagged values of the lanes read become concrete. -/
def runPermute (w : Word) (lanesRead : Nat → Nat → List Nat) (f : List Nat → Nat → Nat → Nat) (s : State) : Answer :=
  runWord w {} (fun s =>
    let act := s.g.active w.f.pred.toNat
    let b := permB w s.g act
    let g := s.g.concreteLanes (w.srcNames 1) ((lanesOf act).flatMap fun l => (lanesRead l (b.getD l 0)).map (w.srcLane act 1))
    let g := g.concreteLanes (w.srcNames 2) ((lanesOf act).map (w.srcLane act 2))
    putResults { s with g := g } [{ permResult w f g act with lat := w.lat }]) s

/-- The register form of `vperm`: A lane B[4:0], or 0 when bit 31 of B is set. -/
def permLane (a : List Nat) (_l b : Nat) : Nat := if b.testBit 31 then 0 else a.getD (b % 32) 0

/-- `vperm` (Table 7-10). -/
def execVperm (f : FForm) (s : State) : Answer :=
  runPermute (mkWord shapeVperm f) (fun _ b => if b.testBit 31 then [] else [b % 32]) permLane s

/-- Lane l XOR imm[4:0]. -/
def xorLane (a : List Nat) (l b : Nat) : Nat := a.getD (l ^^^ (b % 32)) 0

/-- `vperm` with an imm8. -/
def execVpermImm8 (f : FForm) (s : State) : Answer := runPermute (mkWord shapeVpermImm8 f) (fun l b => [l ^^^ (b % 32)]) xorLane s

/-- A lane (l + B[4:0]) mod 32. -/
def rotLane (a : List Nat) (l b : Nat) : Nat := a.getD ((l + b % 32) % 32) 0

/-- `vlrot` (Table 7-10). -/
def execVlrot (f : FForm) (s : State) : Answer := runPermute (mkWord shapeVlrot f) (fun l b => [(l + b % 32) % 32]) rotLane s

/-- `vlrot` with an imm8. -/
def execVlrotImm8 (f : FForm) (s : State) : Answer := runPermute (mkWord shapeVlrotImm8 f) (fun l b => [(l + b % 32) % 32]) rotLane s

/-- Byte selection within a lane. -/
def shuffleBytes (a b : Nat) : Nat :=
  joinElems 8 ((List.range 4).map fun j => let sel := subElem 8 j b; if sel.testBit 7 then 0 else subElem 8 (sel % 4) a)

/-- Each byte of B selects a byte of A in the lane, or 0. -/
def shflLane (a : List Nat) (l b : Nat) : Nat := shuffleBytes (a.getD l 0) b

/-- Byte j is byte imm[2j+1:2j] of the lane. -/
def shflImmLane (a : List Nat) (l b : Nat) : Nat := joinElems 8 ((List.range 4).map fun j => subElem 8 (subElem 2 j b) (a.getD l 0))

/-- `vshfl` (Table 7-10). -/
def execVshfl (f : FForm) (s : State) : Answer := runPermute (mkWord shapeVshfl f) (fun l _ => [l]) shflLane s

/-- `vshfl` with an imm8. -/
def execVshflImm8 (f : FForm) (s : State) : Answer := runPermute (mkWord shapeVshflImm8 f) (fun l _ => [l]) shflImmLane s

/-! ### Scans and reductions (R139) -/

/-- The state of a chain over the active lanes. -/
structure Chain where
  first : Bool := true
  acc   : Nat := 0
  flags : W64 := 0
  tiny  : Bool := false
  gens  : List W32
  outs  : List (Nat × Nat) := []
  deriving DecidableEq, Repr

/-- One step of the chain: operator k on the accumulated value and v. -/
def chainStep (k : Nat) (t : ElemType) (rm x : Nat) (mode : W64) (acc v : Nat) : FRes :=
  if elemIeee t then
    match k with
    | 0 => fpOp .add t rm x mode acc v 0
    | 1 => fpMinMax false t mode acc v
    | _ => fpMinMax true t mode acc v
  else
    { bits := match k with
      | 0 => intElem .add t acc v 0
      | 1 => intElem .min t acc v 0
      | 2 => intElem .max t acc v 0
      | 3 => acc &&& v
      | 4 => acc ||| v
      | _ => acc ^^^ v }

/-- A subnormal value under FLUSH, as it is read (R87). -/
def flushed (t : ElemType) (mode : W64) (v : Nat) : Nat :=
  if elemIeee t && !(readFp t v).isZero && (readMode t mode v).isZero then (if (readFp t v).sign then 2 ^ (elemWidth t - 1) else 0) else v

/-- The chain over the active lanes in ascending order; a stochastic float add draws from the generator of the lane whose value it adds. -/
def chain (k : Nat) (t : ElemType) (rm : Nat) (g : Group) (vals : List Nat) (lanes : List Nat) : Chain :=
  lanes.foldl (fun c l =>
    let v := vals.getD l 0
    if c.first then { c with first := false, acc := flushed t g.mode v, outs := [(l, flushed t g.mode v)] }
    else
      let draw := elemIeee t && k == 0 && rm == 6
      let x := if draw then drawNext (genAt c.gens l) else genAt c.gens l
      let r := chainStep k t rm x.toNat g.mode c.acc v
      { c with acc := r.bits, flags := c.flags ||| r.flags, tiny := c.tiny || r.tiny
               gens := c.gens.set l x, outs := c.outs ++ [(l, r.bits)] }) { gens := laneNumbers.map (genAt g.gens) }

def chainResult (red : Bool) (w : Word) (g : Group) (act : Mask) : VecRes :=
  let t := w.type
  let c := chain w.f.b.toNat t (w.rm g) g (w.source g act 1 t) (lanesOf act)
  { n := w.f.d.toNat, pair := elemPair t, bits := elemBits (elemWidth t) 1 0
    outs := c.outs.map fun o => { lane := o.1, val := if red then c.acc else o.2, flags := c.flags, gen := genAt c.gens o.1, tiny := c.tiny } }

/-- `vscan` (R139). -/
def execVscan (f : FForm) (s : State) : Answer := let w := mkWord shapeVscan f; runVector w (chainResult false w) s

/-- `vred` (R139). -/
def execVred (f : FForm) (s : State) : Answer := let w := mkWord shapeVred f; runVector w (chainResult true w) s

/-! ### Cross-cluster exchange (R140, R141) -/

/-- Gives a group its partner's value: an interlocked delivery for the lanes of its own Active(). -/
def Group.deliver (h : Group) (mine : Sent) (vals : List Nat) : Group :=
  let pair := codePair mine.ty
  let elems := (lanesOf mine.active).map fun l =>
    ({ lane := l, loc := ⟨.regs h.core h.slot, 0⟩, size := if pair then 8 else 4, x := vals.getD l 0, done := true, val := vals.getD l 0 } : Elem)
  if mine.d = 255 then h
  else { h with
    reqs := h.reqs ++ [{ id := h.nextReq, gen := h.gen, kind := .exchange, scope := 0, acq := false, rel := false, code := if pair then 6 else 4, ty := mine.ty, rm := 0
                         dest := .vec mine.d pair, epoch := h.epoch, elems := elems }]
    nextReq := h.nextReq + 1 }

/-- The partner of a group: the group of its context in the slot that PAIR names, whose own PAIR names the group in turn; a resident one, else one that a pre-emption has taken from that slot (Table 7-12). -/
def State.partner (s : State) (g : Group) : Option Group :=
  let core := (g.pair.extractLsb' 8 7).toNat
  let slot := (g.pair.extractLsb' 0 8).toNat
  let good := fun (h : Group) => h.part == g.part && h.ctx == g.ctx && h.pairNames g.core g.slot
  if !g.pair.getLsbD 15 then none
  else ((s.groupAt core slot).filter good).or (s.allGroups.find? fun h => h.st == .preempted && h.core == core && h.slot == slot && good h)

/-- The lanes of A that an exchange reads: all 32, or the one that is broadcast. -/
def Word.sentLanes (w : Word) (act : Mask) : List Nat := (laneNumbers.map (w.srcLane act 1)).eraseDups

/-- `vxchg` (R140): the first of the two to arrive waits; the second completes the rendezvous, or breaks it when the types differ. A value is sent only while neither group holds unverified data (R203). -/
def execVxchg (f : FForm) (s : State) : Answer :=
  let w := mkWord shapeVxchg f
  runWord w {} (fun s =>
    let g := s.g
    match s.partner g with
    | none => (s, .trap 0x11 0)
    | some h =>
      if g.unver then (s, .hold .waitStall (.until_ .verified))
      else if 16 ≤ g.packets then (s, .hold .waitStall (.until_ .packets))
      else
        let act := g.active f.pred.toNat
        let mine : Sent := { ty := f.xf.toNat, vals := w.source g act 1 w.type, d := f.d.toNat, active := act }
        let g := (g.concreteLanes (w.srcNames 1) (w.sentLanes act)).untagV w.writes.v act
        match (if h.wait = .pair then h.sent else none) with
        | none => ({ s with g := { g with sent := some mine } }, .wait .waitPair .pair)
        | some theirs =>
          if h.unver then (s, .hold .waitStall (.until_ (.partner h.uid)))
          else if theirs.ty = mine.ty then
            let s := { s with g := g.deliver mine theirs.vals }
            let s := s.putGroup { h.deliver theirs mine.vals with sent := none }
            (s.completeWait h.uid, .done)
          else
            let q := s.faultWaiter h.uid 0x11 h.m0
            (if q.2 then q.1.breakWaits (s.allGroups.length + 1) [h] else q.1, .lanes none 0x11 g.m0 0)) s

/-! ### The pair word (R51 to R54, R67) -/

/-- The F-form operation a half stands for: its field use, and an integer operation where it is one. -/
def pairShape : PairOp → Option (Shape × Option IntOp)
  | .pnop => none
  | .vadd => some (shapeVadd, some .add)
  | .vsub => some (shapeVsub, some .sub)
  | .vaddsat => some (shapeVaddsat, some .addsat)
  | .vsubsat => some (shapeVsubsat, some .subsat)
  | .vmul => some (shapeVmul, some .mul)
  | .vmin => some (shapeVmin, some .min)
  | .vmax => some (shapeVmax, some .max)
  | .vand => some (shapeVand, some .and)
  | .vor => some (shapeVor, some .or)
  | .vxor => some (shapeVxor, some .xor)
  | .vandn => some (shapeVandn, some .andn)
  | .vshl => some (shapeVshl, some .shl)
  | .vshr => some (shapeVshr, some .shr)
  | .vsra => some (shapeVsra, some .sra)
  | .vmov => some (shapeVmov, none)
  | .vaddImm => some (shapeVaddImm8, some .add)
  | .vsubImm => some (shapeVsubImm8, some .sub)
  | .vandImm => some (shapeVandImm8, some .and)
  | .vshlImm => some (shapeVshlImm8, some .shl)
  | .vshrImm => some (shapeVshrImm8, some .shr)
  | .vsraImm => some (shapeVsraImm8, some .sra)
  | .vmovImm => some (shapeVmovImm8, none)
  | .vfadd => some (shapeVfadd, none)
  | .vfsub => some (shapeVfsub, none)
  | .vfmul => some (shapeVfmul, none)
  | .vfmin => some (shapeVfmin, none)
  | .vfmax => some (shapeVfmax, none)

/-- The type code of a half (R52): logic and moves act on 32-bit lanes. -/
def pairType (h : PHalf) : Nat :=
  match h.op with
  | .vand | .vor | .vxor | .vandn | .vandImm => 1
  | .vmov | .vmovImm => 0
  | .vfadd | .vfsub | .vfmul | .vfmin | .vfmax => 8 + h.xf2.toNat
  | _ => h.xf2.toNat

/-- A half as the F-form word of R52: D is the destination and source A, S is source B. -/
def halfWord (h : PHalf) : Option (Word × Option IntOp) :=
  (pairShape h.op).map fun p =>
    (mkWord p.1 { pred := BitVec.ofNat 3 h.pred.toNat, d := h.d, a := if pairReadsD h.op then h.d else 0, b := h.s, lrb := h.lrs, xf := BitVec.ofNat 5 (pairType h) }, p.2)

/-- The result of one half, with the generators it starts from. -/
def halfResult (h : PHalf) (g : Group) : Option VecRes :=
  (halfWord h).map fun p =>
    let w := p.1
    let act := g.active w.f.pred.toNat
    let t := w.type
    match p.2 with
    | some op => intResult op w g act
    | none =>
      let fp := fun (op : FOp) => elementwise w g act t (w.source g act 1 t) (w.operandB g act t) [] (w.draws g) fun x a b d => fpOp op t (w.rm g) x g.mode a b d
      match h.op with
      | .vfadd => fp .add
      | .vfsub => fp .sub
      | .vfmul => fp .mul
      | .vfmin => elementwise w g act t (w.source g act 1 t) (w.operandB g act t) [] false fun _ a b _ => fpMinMax false t g.mode a b
      | .vfmax => elementwise w g act t (w.source g act 1 t) (w.operandB g act t) [] false fun _ a b _ => fpMinMax true t g.mode a b
      | _ => let b := w.operandB g act t; plainResult w g act false fun l => b.getD l 0

/-- The tags a half leaves. -/
def halfTags (h : PHalf) (g : Group) : Group :=
  match halfWord h with
  | none => g
  | some p =>
    let act := g.active p.1.f.pred.toNat
    match h.op with
    | .vadd | .vaddImm => g.addTags p.1 p.1.type act false
    | .vsub | .vsubImm => g.addTags p.1 p.1.type act true
    | _ => (g.concreteReads p.1 act).untagV p.1.writes.v act p.1.lat

/-- The latency of a half's result. -/
def halfLat (h : PHalf) : Nat := ((halfWord h).map fun p => p.1.lat).getD 0

/-- The field use of the pair word itself: it acts on lanes, and its names are those of its halves. -/
def shapePair : Shape := { op := 0x000, pred := true }

/-- The pair as one word (R54). -/
def pairAsWord (h0 h1 : PHalf) : Word :=
  { sh := shapePair, f := {}, stall := h0.stall.toNat + h1.stall.toNat, w0 := 1#2 ++ halfBits h0 ++ halfBits h1, w1 := none }

/-- The names of both halves, whether they lie in range, and what their last-read bits release. -/
def pairExtra (g : Group) (h0 h1 : PHalf) : Extra :=
  let ws := ([h0, h1].filterMap halfWord).map Prod.fst
  { r := ws.foldl (fun n w => n.append (w.readsOf g)) {}
    w := ws.foldl (fun n w => n.append w.writes) {}
    ok := ws.all fun w => fieldInRange g w w.sh.d w.f.d && fieldInRange g w w.sh.a w.f.a && fieldInRange g w w.sh.b w.f.b
    rel := ws.flatMap fun w => w.releases {} }

/-- A pair word (R52): both halves read before either writes; H1's draws follow H0's; a lane with a subnormal result in either half is flagged for both. Each half has its own latency. -/
def execPairWord (h0 h1 : PHalf) (s : State) : Answer :=
  runWord (pairAsWord h0 h1) (pairExtra s.g h0 h1) (fun s =>
    let g := s.g
    let r0 := halfResult h0 g
    let g1 := { g with gens := match r0 with
      | some r => outGens g.gens r.outs
      | none => g.gens }
    let r1 := halfResult h1 g1
    let tagged := halfTags h1 (halfTags h0 g)
    let q := putResults s ((r0.toList.map fun r => { r with lat := halfLat h0 }) ++ r1.toList.map fun r => { r with lat := halfLat h1 })
    ({ q.1 with g := { q.1.g with region := tagged.region } }, q.2)) s

end Sys2Proof.Machine
end

