-- ==== Sys2Proof/Machine/Memory.lean ====
section
/-! DEFINITION. Memory instructions of lanes and of the control thread: addresses, requests and when they may be performed, region loads and stores, atomics, fences, promotion, prefetch and cache maintenance, `kwait` (R162, R211 to R236, R238 to R255, R268, R271). -/

namespace Sys2Proof.Machine

open Sys2Proof

/-! ### Fields and addresses (R44, R238 to R240) -/

def Word.scope (w : Word) : Nat := w.f.xf.toNat % 8

/-- Ordering kinds: 1 acquire, 2 release, 3 both. -/
def Word.acq (w : Word) : Bool := w.f.xf.toNat / 8 % 2 == 1
def Word.rel (w : Word) : Bool := w.f.xf.toNat / 8 / 2 == 1

/-- The displacement of the form. -/
def Word.disp (w : Word) : Int :=
  match w.lit with
  | .imm32 v => v.toInt
  | .set l => if w.sh.op = 0x205 || w.sh.op = 0x206 || w.sh.op = 0x207 then l.t2.toInt else 0
  | _ => 0

def wrap64 (x : Int) : Nat := (x % 2 ^ 64).toNat

/-- The element address of each active lane, in ascending lane order (R240). -/
def Word.addresses (w : Word) (g : Group) (act : Mask) : List (Nat × Nat) :=
  let base := (g.readK w.f.a.toNat).toNat
  let idx := g.readV w.f.b.toNat
  (lanesOf act).map fun l => (l, wrap64 (base + (laneAt idx l).toInt * 2 ^ (w.f.blane.toNat % 4) + w.disp))

/-- The control thread's address: k(A) plus the displacement. -/
def Word.kAddress (w : Word) (g : Group) : Nat := wrap64 ((g.readK w.f.a.toNat).toNat + w.disp)

/-- The lowest lane whose address is not a multiple of the size. -/
def misaligned (size : Nat) (as : List (Nat × Nat)) : Option (Nat × Nat) := as.find? fun x => x.2 % size != 0

/-! ### Translating the lanes of one instruction (R186, R188) -/

/-- The lanes that translated, with location and TARGET; the lanes that failed, with address and code; a lane whose translation waits; and the address of every lane. -/
structure Reach where
  ok   : List (Nat × Loc × Nat) := []
  bad  : List (Nat × Nat × Nat) := []
  stop : Option (Nat × Trans) := none
  vas  : List (Nat × Nat) := []
  deriving DecidableEq, Repr

/-- Adds what one translation answered. -/
def Reach.add (r : Reach) (lane va : Nat) (t : Trans) : Reach :=
  match t with
  | .ok loc leaf => { r with ok := r.ok ++ [(lane, loc, (leaf.map Leaf.target).getD 0)] }
  | .fault c => { r with bad := r.bad ++ [(lane, va, c)] }
  | t => { r with stop := some (va, t) }

def State.reach (s : State) (kind : AccessKind) (as : List (Nat × Nat)) : Reach × State :=
  as.foldl (fun acc x => let q := acc.2.translateLane kind x.1 x.2; (acc.1.add x.1 x.2 q.1, q.2)) ({ vas := as }, s)

/-- The control thread's access, as lane 0 (R244). -/
def State.reachK (s : State) (kind : AccessKind) (va : Nat) : Reach × State :=
  let q := s.translate s.g kind va
  (Reach.add { vas := [(0, va)] } 0 va q.1, q.2)

/-- The lanes that failed, as a fault after the others have completed. -/
def Reach.flow (r : Reach) (req : Option Nat) : Flow :=
  match r.bad with
  | [] => .done
  | b :: _ => .lanes req b.2.2 (maskOf fun l => r.bad.any fun x => x.1 == l) (BitVec.ofNat 64 b.2.1)

/-- A wait of the translation: what the walks did stands, and the word issues again. -/
def Trans.retry (t : Trans) : Flow :=
  match t with
  | .coherence vpn => .retry .waitExt (.coherence vpn)
  | .hostPage f => .retry .waitExt (.hostPage f)
  | .residency => .retry .waitExt .other
  | _ => .retry .waitStall .hold

/-! ### When an access may be performed (R217, R203) -/

def Elem.overlaps (a b : Elem) : Bool := a.loc.space == b.loc.space && a.loc.addr < b.loc.addr + b.size && b.loc.addr < a.loc.addr + a.size

/-- Is an element of the earlier request q ordered before one of r: an acquire, a release, a merging join between, or one location (R217), which of an element that waits for a translation is not known? -/
def Req.before (q r : Req) (f e : Elem) : Bool := q.acq || r.rel || q.epoch < r.epoch || f.overlaps e || !f.placed

/-- Is an element of the group one that later accesses need not wait for: performed, or failed at a restore and under repair by the handler, whose accesses come before its replay (R236)? -/
def Group.past (g : Group) (f : Elem) : Bool := f.done || (!f.placed && g.sup)

/-- Is it memory of a peer, while this device has no number and sends no request (R405)? -/
def State.unlinked (s : State) (l : Loc) : Bool :=
  match l.space with
  | .peer _ => s.plat.device.isNone
  | _ => false

/-- Is it a place that no access reaches now: the window of a register of a group that holds unverified data (R203), or memory of a peer that no request reaches yet? -/
def State.windowHeld (s : State) (l : Loc) : Bool :=
  match l.space with
  | .peer _ => s.unlinked l
  | .regs c k => ((s.groupAt c k).map Group.unver).getD false
  | _ => false

/-- May an element of a request be performed now? -/
def Group.canPerform (g : Group) (r : Req) (e : Elem) : Bool :=
  g.st != .preempted && !(g.promote.any Prod.snd) && (r.kind == .load || !g.unver)
    && ((g.reqs.takeWhile fun q => q.id != r.id).all fun q => q.elems.all fun f => g.past f || !q.before r f e)
    && (r.kind == .load || ((r.elems.takeWhile fun f => f != e).all fun f => f.done || !f.overlaps e))

/-- Has every access of the group been performed? -/
def Group.allPerformed (g : Group) : Bool := g.reqs.all fun r => r.elems.all g.past

def Req.performed (r : Req) : Bool := r.elems.all fun e => e.done

/-- Puts a changed request of a group back. -/
def State.putReq (s : State) (uid : Nat) (r : Req) : State :=
  s.mapGroups (fun h => h.uid == uid) fun h => { h with reqs := h.reqs.map fun q => if q.id = r.id then r else q }

/-- Adds a tile to those a group has consumed unverified (R202). -/
def Group.consume (g : Group) (tile : Option Nat) : Group :=
  match tile with
  | some t => if g.pendTiles.contains t then g else { g with pendTiles := g.pendTiles ++ [t] }
  | none => g

/-- Would a load need a 65th pending tile (R202)? -/
def Group.tilesFull (g : Group) (tile : Option Nat) : Bool :=
  match tile with
  | some t => !g.pendTiles.contains t && 64 ≤ g.pendTiles.length
  | none => false

/-! ### Atomic steps (Table 12-5) -/

/-- Old value e, operand x, compare value y; operator 7 is `vcas`. Floating point takes e as A and x as B, exact in subnormals (R246). -/
def atomStep (op : Nat) (t : ElemType) (rm draw : Nat) (mode : W64) (e x y : Nat) : FRes :=
  let mode := mode &&& ~~~0x100
  match op with
  | 0 => if elemIeee t then fpOp .add t rm draw mode e x 0 else { bits := intPattern (elemWidth t) (e + x) }
  | 1 => if elemIeee t then fpMinMax false t mode e x else { bits := if intOf t e < intOf t x then e else x }
  | 2 => if elemIeee t then fpMinMax true t mode e x else { bits := if intOf t x < intOf t e then e else x }
  | 3 => { bits := e &&& x }
  | 4 => { bits := e ||| x }
  | 5 => { bits := e ^^^ x }
  | 6 => { bits := x }
  | _ => { bits := if e = y then x else e }

/-- The steps of a run in ascending lane order: the last value, and the elements with their old values and flags. -/
def atomRun (op : Nat) (t : ElemType) (rm : Nat) (mode : W64) : Nat → List Elem → Nat × List Elem
  | v, [] => (v, [])
  | v, e :: es =>
    let r := atomStep op t rm e.draw mode v e.x e.y
    let q := atomRun op t rm mode r.bits es
    (q.1, { e with done := true, val := v, flags := r.flags } :: q.2)

/-- Is the element the last of its request that has not been performed? -/
def Req.isLast (r : Req) (i : Nat) : Bool := (List.range r.elems.length).all fun j => j == i || (r.elems[j]?).any Elem.done

/-- A read of the group has returned memory of a moment (R223). -/
def Group.sees (g : Group) (moment : Nat) : Group := { g with seen := max g.seen moment }

/-- Would a group that comes to hold unverified data hold more requests than a save can carry (R304)? -/
def Group.overPackets (h : Group) : Bool := !h.unver && 16 < h.reqs.length + (if h.sent.isSome then 1 else 0)

/-- A load finds no room for a 65th tile: its group waits in WAIT_STALL until one of them is verified (R202). -/
def Group.tileStall (g : Group) (tile : Option Nat) : Group :=
  if g.st = .ready || g.st = .handler then { g with st := .waitStall, wait := .until_ (.tiles tile.toList) } else g

/-- The element of a load, read as `q`, lands in its request: the group sees the moment of its memory, and a load issued before a merging join orders what it has seen before later reads (R217 item 7, R223). -/
def State.loaded (h : Group) (r : Req) (i : Nat) (e : Elem) (moment : Nat) (q : List Byte × Option Nat × State) : State :=
  let r' := { r with moment := max r.moment moment, elems := r.elems.set i { e with done := true, val := leNat q.1 } }
  let late := if r.epoch < h.epoch && r.isLast i then r'.moment else 0
  let s := q.2.2.mapGroups (fun x => x.uid == h.uid) fun x => { ((x.consume q.2.1).sees moment) with notBefore := max x.notBefore late }
  s.putReq h.uid r'

/-- Reads a load's element: at the L1 or the home. A tile that it would consume unverified is verified first where the group's requests would then be more than a save can carry (R304), or where it may not wait for room among the pending tiles. `tokens` are the buckets once its line request has taken its token (R382). -/
def State.readElem (s : State) (wait : Bool) (tokens : Tbl Nat) (h : Group) (r : Req) (i : Nat) (e : Elem) : State :=
  let paid := fun (x : State) => { x with units := { x.units with tokens := tokens } }
  let q := s.loadAt h.who r.scope (r.stamp.getD (s.vers h.who)) e.loc e.size
  if h.tilesFull q.2.1 && wait then s.mapGroups (fun x => x.uid == h.uid) fun x => x.tileStall q.2.1
  else if q.2.1.isSome && (h.overPackets || h.tilesFull q.2.1) then
    let v := s.loadVerified h.who e.loc e.size
    if v.2.alarmed then v.2 else paid (State.loaded h r i e v.2.mem.clock (v.1, none, v.2))
  else paid (State.loaded h r i e (s.momentAt h.who r.scope e.loc) q)

/-- Has the load left the L1 and not returned: a fill in flight (R179)? -/
def Group.inFlight (h : Group) (r : Req) (e : Elem) : Bool := r.kind == .load && !r.acq && r.stamp.isSome && !e.done && e.loc.space == .hbm && h.canPerform r e

/-- Every fill of a context that a core has in flight lands (R179, step 1). -/
def State.landFills (s : State) (w : Who) : State :=
  (s.allGroups.filter fun h => h.core == w.core && h.part == w.part && h.ctx == w.ctx).foldl (fun s h0 =>
    h0.reqs.foldl (fun s r0 => (List.range r0.elems.length).foldl (fun s i =>
      match (s.group? h0.uid).bind fun h => (h.reqs.find? fun r => r.id == r0.id).bind fun r => (r.elems[i]?).map fun e => (h, r, e) with
      | some (h, r, e) => if h.inFlight r e && !s.alarmed then s.readElem false s.units.tokens h r i e else s
      | none => s) s) s) s

/-- What an acquire does to the core's L1 before later accesses of the group are performed (R178). At scopes G and C it changes no version. A change from 15 to 0 first lets every fill in flight land, and no access of the context comes between its steps (R179). -/
def State.raiseVersion (s : State) (w : Who) (scope : Nat) : State :=
  if scope = 0 || scope = 2 then s else (if (s.vers w).at scope = 15 then s.landFills w else s).bumpVersion w scope

/-- An acquire of a group whose reads reach the memory of a moment: at scopes G and C, which change no version, later loads at wider scopes meet nothing older (R178, R223; DEDUCED, log 109). -/
def State.acquire (s : State) (h : Group) (scope moment : Nat) : State :=
  if scope = 0 || scope = 2 then s.mapGroups (fun x => x.uid == h.uid) fun x => { x with notBefore := max x.notBefore moment } else s.raiseVersion h.who scope

/-- The end of an access: an acquire whose last element it is acts before any later access of the group (R178). -/
def State.readDone (s : State) (h : Group) (r : Req) (last : Bool) (moment : Nat) : State :=
  if r.acq && last then s.acquire h r.scope (max r.moment moment) else s

/-- Performs a load's element, and the acquire that ends with it. -/
def State.performLoad (s : State) (tokens : Tbl Nat) (h : Group) (r : Req) (i : Nat) (e : Elem) : State :=
  let s' := s.readElem true tokens h r i e
  let done := (s'.group? h.uid).any fun x => x.reqs.any fun q => q.id == r.id && q.performed
  if r.acq && done then s'.readDone h r true (s.momentAt h.who r.scope e.loc) else s'

/-- Performs the run of an atomic at the home of its element: every lane of the element, in ascending order. -/
def State.performRun (s : State) (h : Group) (r : Req) (e : Elem) : State :=
  let mine := fun (f : Elem) => f.loc == e.loc && !f.done
  let q := s.loadVerified h.who e.loc e.size
  if q.2.alarmed then q.2
  else
    let run := atomRun r.code ((elemOf r.ty).getD .n32) r.rm h.mode (leNat q.1) (r.elems.filter mine)
    let s := q.2.storeAt h.who (some h.uid) false e.loc (leBytes e.size run.1)
    let elems := r.elems.map fun f => if mine f then (run.2.find? fun x => x.lane == f.lane).getD f else f
    let s := s.mapGroups (fun x => x.uid == h.uid) fun x => x.sees s.mem.clock
    (s.putReq h.uid { r with elems := elems, moment := s.mem.clock }).readDone h r (elems.all Elem.done) s.mem.clock

/-- The pending fault of an access that a saved group has still to make and whose page has no translation for it: asynchronous, under the number of its request, with the address of the element (R371; log 82). -/
def Req.pageFault (q : Req) (code va : Nat) : Nat × FaultRec :=
  (q.id, { code := code, async := true, replay := 0, pc := 0, word0 := 0, word1 := 0, lit := false, addr := BitVec.ofNat 64 va, done := 0 })

/-- An element that a restored group has still to make, under the translation that stands now: its location, or none where its address has none, with the fault that this raises unless one is pending (R187, R371; log 82). A page whose answer the host owes keeps its frame in the location. -/
def State.placeElem (s : State) (uid : Nat) (q : Req) (e : Elem) : Elem × State :=
  match s.group? uid with
  | none => (e, s)
  | some h =>
    let r := s.translate h (if q.kind = .load then .read else .write) e.va
    match r.1 with
    | .ok l _ => ({ e with loc := l, placed := true }, r.2)
    | .fault code => ({ e with placed := false }, r.2.mapGroups (fun x => x.uid == uid) fun x =>
        if x.sup || x.pendFaults.any fun f => f.1 == q.id && f.2.word0 == 0 then x else { x with pendFaults := insertFault (q.pageFault code e.va) x.pendFaults })
    | .hostPage f => ({ e with placed := false, loc := ⟨.host, 65536 * f⟩ }, r.2)
    | _ => ({ e with placed := false }, r.2)

/-! ### Token buckets (R381, R382) -/

def Context.rate (c : Context) : Nat := (c.tokens.extractLsb' 0 16).toNat
def Context.depth (c : Context) : Nat := (c.tokens.extractLsb' 16 16).toNat

def bucketKey (slice key : Nat) : Nat := 320 * slice + key

/-- The tokens of a context's bucket at a slice; a bucket that is not listed is full. -/
def State.bucket (s : State) (slice key : Nat) : Nat := tget ((tget {} s.tabs.ctxs key).depth) s.units.tokens (bucketKey slice key)

def State.setBucket (s : State) (slice key n : Nat) : State :=
  { s with units := { s.units with tokens := if n = (tget {} s.tabs.ctxs key).depth then tdel s.units.tokens (bucketKey slice key) else tput s.units.tokens (bucketKey slice key) n } }

/-- The lender of R382: another context of the partition with the most tokens, else a full bucket of a lending partition. -/
def State.lender (s : State) (slice p c : Nat) : Option Nat :=
  let metered := s.tabs.ctxs.filter fun e => e.2.st != 0 && e.2.rate != 0
  let most := fun (ks : List Nat) => ks.foldl (fun (best : Option Nat) k => match best with
    | some b => if s.bucket slice b < s.bucket slice k then some k else some b
    | none => some k) none
  match most ((metered.filter fun e => e.1 / 8 == p && e.1 != ctxKey p c && 0 < s.bucket slice e.1).map Prod.fst) with
  | some k => some k
  | none => most ((metered.filter fun e => e.1 / 8 != p && (s.part (e.1 / 8)).lend && 0 < s.bucket slice e.1 && s.bucket slice e.1 == e.2.depth).map Prod.fst)

/-- Takes a token for a request, the context's own or a borrowed one. An unmetered context needs none. -/
def State.takeToken (s : State) (slice p c : Nat) : Option State :=
  let key := ctxKey p c
  if (s.ctx p c).rate = 0 then some s
  else if 0 < s.bucket slice key then some (s.setBucket slice key (s.bucket slice key - 1))
  else (s.lender slice p c).map fun k => s.setBucket slice k (s.bucket slice k - 1)

/-- Is the performing of an element a line request at an L2 slice: its line in HBM is one that the request has not asked for and that no L1 line of a load serves? -/
def State.asksLine (s : State) (h : Group) (r : Req) (e : Elem) : Bool :=
  let line := e.loc.addr / 128
  e.loc.space == .hbm && !(r.elems.any fun f => f.done && f.loc.space == .hbm && f.loc.addr / 128 == line)
    && !(r.kind == .load && (s.l1Hit h.who r.scope line).isSome)

/-- The token that performing an element takes, where it asks for a line (R382); none where the request waits at the slice: no bucket has a token for it, or requests of its context wait before it. -/
def State.lineToken (s : State) (h : Group) (r : Req) (e : Elem) : Option State :=
  let slice := s.lineSlice (e.loc.addr / 128)
  if !s.asksLine h r e then some s
  else if (s.ctx h.part h.ctx).rate != 0 && s.units.metered.contains (slice, h.part, h.ctx) then none
  else s.takeToken slice h.part h.ctx

/-- Does an access of the group wait for a token at a slice (R382)? -/
def State.awaitsToken (s : State) (h : Group) : Bool :=
  h.reqs.any fun r => r.elems.any fun e => !e.done && e.placed && h.canPerform r e && (s.lineToken h r e).isNone

/-- Performs element i of a request of a group, if it may be performed now and its line request finds a token: a load reads, a store writes, an atomic runs every lane of its element. -/
def State.performElem (s : State) (uid rid i : Nat) : State :=
  match s.group? uid with
  | none => s
  | some h => match h.reqs.find? fun r => r.id == rid with
    | none => s
    | some r => match r.elems[i]? with
      | none => s
      | some e =>
        if !e.placed && !e.done then
          let q := s.placeElem uid r e
          if q.1 = e && (q.2.group? uid).map Group.pendFaults == some h.pendFaults then s else q.2.putReq uid { r with elems := r.elems.set i q.1 }
        else if e.done || !h.canPerform r e || s.windowHeld e.loc then s
        else match s.lineToken h r e with
          | none => s
          | some c => match r.kind with
            | .load => s.performLoad c.units.tokens h r i e
            | .store => (c.storeAt h.who (some uid) true e.loc (leBytes e.size e.x)).putReq uid { r with elems := r.elems.set i { e with done := true } }
            | .atomic => c.performRun h r e
            | .exchange => s

/-- The elements of a request that satisfy p, performed in lane order. -/
def State.performAll (s : State) (uid rid n : Nat) (p : Elem → Bool) : State :=
  (List.range n).foldl (fun s i => match (s.group? uid).bind fun h => (h.reqs.find? fun r => r.id == rid).bind fun r => r.elems[i]? with
    | some e => if p e then s.performElem uid rid i else s
    | none => s) s

/-- The value a lane of a load takes: extended by its size code (Table 12-2). -/
def Req.extended (r : Req) (w : Nat) (e : Elem) : Nat := if r.kind = .load then extendCode r.code w e.val else e.val

/-- A request whose every element has been performed writes its destination and its flags, and is gone. -/
def Group.land (g : Group) (r : Req) : Group :=
  let g := { g with reqs := g.reqs.filter fun q => q.id != r.id }
  let g := g.setFlags (r.elems.foldl (fun acc e => acc ||| e.flags) 0)
  match r.dest with
  | .none => g
  | .vec n pair =>
    let w := if pair then 64 else 32
    g.writeOp 0 n pair (maskOf fun l => r.elems.any fun e => e.lane == l) (laneNumbers.map fun l => ((r.elems.find? fun e => e.lane == l).map (r.extended w)).getD 0)
  | .ctl n => g.setK 0 n (BitVec.ofNat 64 ((r.elems.head?.map (r.extended 64)).getD 0))

def State.landReq (s : State) (uid rid : Nat) : State :=
  s.mapGroups (fun h => h.uid == uid) fun h => match h.reqs.find? fun r => r.id == rid with
    | some r => if r.performed then h.land r else h
    | none => h

/-! ### Events of outstanding requests -/

/-- The load path returns a request: what is not yet performed is performed, and the destination is written. A return for an older generation is dropped (R101). -/
def execLoadReturn (uid req gen : Nat) (s : State) : Answer :=
  answer <| match (s.group? uid).bind fun h => (h.reqs.find? fun r => r.id == req).map fun r => (h, r) with
    | some (h, r) =>
      if r.gen.toNat != gen || h.st = .preempted then s
      else
        let s := if r.kind = .load then s.performAll uid req r.elems.length fun _ => true else s
        if r.kind = .store then s else s.landReq uid req
    | none => s

/-- An L2 fill answers the elements of one line. -/
def execL2FillReturn (uid req line : Nat) (s : State) : Answer :=
  answer <| match (s.group? uid).bind fun h => h.reqs.find? fun r => r.id == req with
    | some r => if r.kind = .load then s.performAll uid req r.elems.length fun e => e.loc.space == .hbm && e.loc.addr / 128 == line else s
    | none => s

/-- One element of a store is performed at its home. -/
def execStorePerformed (uid req elem : Nat) (s : State) : Answer :=
  answer <| match (s.group? uid).bind fun h => h.reqs.find? fun r => r.id == req with
    | some r => if r.kind = .store then (s.performElem uid req elem).landReq uid req else s
    | none => s

/-- The run of one element of an atomic at its home. -/
def execAtomicRunAtHome (uid req elem : Nat) (s : State) : Answer :=
  answer <| match (s.group? uid).bind fun h => h.reqs.find? fun r => r.id == req with
    | some r => if r.kind = .atomic then s.performElem uid req elem else s
    | none => s

/-! ### Issuing a request -/

/-- The elements of the lanes that translated. -/
def Reach.elems (r : Reach) (size : Nat) (x y : Nat → Nat) : List Elem :=
  r.ok.map fun o => { lane := o.1, loc := o.2.1, size := size, va := ((r.vas.find? fun a => a.1 == o.1).map Prod.snd).getD 0, x := x o.1 % 2 ^ (8 * size), y := y o.1 % 2 ^ (8 * size) }

/-- Adds a request. Elements on the on-chip map are resolved and performed at once (R173, log 22), so the word waits until they may be. -/
def issueRequest (s0 s : State) (reach : Reach) (r : Req) : State × Flow :=
  let id := s.g.nextReq
  let r := { r with id := id, gen := s.g.gen, epoch := s.g.epoch }
  let leaves := r.kind == .load && !r.acq && r.elems.all fun e => s.g.canPerform r e
  let r := { r with stamp := if leaves then some (s.vers s.g.who) else none }
  let onMap := reach.ok.filter fun o => o.2.2 == 3
  let held := r.kind != .load && s.g.unver
  if r.elems.isEmpty then (s, reach.flow none)
  else if 16 ≤ s.g.packets && (r.kind != .store || held) then (s, .retry .waitStall (.until_ .packets))
  else if !onMap.isEmpty && r.elems.any fun e => !s.g.canPerform r e || s.windowHeld e.loc then (s0, .hold .waitStall (.until_ (.order r r.elems)))
  else
    let uid := s.g.uid
    let s := { s with g := { s.g with reqs := s.g.reqs ++ [r], nextReq := id + 1 } }
    let s := if onMap.isEmpty then s else s.performAll uid id r.elems.length fun e => onMap.any fun o => o.2.1 == e.loc
    let s := if onMap.isEmpty then s else s.landReq uid id
    (s, reach.flow (some id))

/-- A request with the fields of the word. -/
def Word.request (w : Word) (kind : ReqKind) (dest : Dest) (elems : List Elem) : Req :=
  { id := 0, gen := 0, kind := kind, scope := w.scope, acq := w.acq, rel := w.rel, code := w.f.rnd.toNat, ty := 0, rm := 0, dest := dest, epoch := 0, elems := elems }

/-! ### Region loads and stores (R268, R271) -/

/-- The pages of a region's accesses, for R276. -/
def Region.touchPages (r : Region) (as : List (Nat × Nat)) : Region := { r with pages := (r.pages ++ as.map fun a => vpnOf a.2).eraseDups }

/-- Does a store entry cover byte i of the element at loc? -/
def StoreEnt.covers (e : StoreEnt) (l : Loc) (i : Nat) : Bool := e.loc.space == l.space && e.loc.addr ≤ l.addr + i && l.addr + i < e.loc.addr + e.size

/-- The latest store entry that covers a byte. -/
def Region.lastCover (r : Region) (l : Loc) (i : Nat) : Option StoreEnt := (r.stores.filter fun e => e.covers l i).getLast?

/-- The load index of an element, registering it with what memory holds; none when a 65th would be needed (R266). -/
def Region.element (r : Region) (l : Loc) (size old : Nat) : Option (Nat × Region) :=
  match (List.range r.reads.length).find? fun i => match r.reads[i]? with
    | some e => e.loc == l && e.size == size
    | none => false with
  | some j => some (j, r)
  | none =>
    if 64 ≤ r.reads.length then none
    else
      let late := r.reads.any fun e => e.loc.space == l.space && e.loc.addr / 128 == l.addr / 128 && e.conflict
      some (r.reads.length, { r with reads := r.reads ++ [{ loc := l, size := size, old := old, concrete := false, conflict := late }] })

/-- Do store entries cover every byte of an element? -/
def Region.holds (r : Region) (l : Loc) (size : Nat) : Bool := (List.range size).all fun i => (r.lastCover l i).isSome

/-- The runs of bytes that no store entry covers: offset and length. -/
def openRuns : (i : Nat) → List Bool → List (Nat × Nat)
  | _, [] => []
  | i, true :: cs => openRuns (i + 1) cs
  | i, false :: cs => match openRuns (i + 1) cs with
    | (j, n) :: rs => if j = i + 1 then (i, n + 1) :: rs else (i, 1) :: (j, n) :: rs
    | [] => [(i, 1)]

/-- The entry that a load forwards whole with its tag: the latest entry covering it, of the same address and size, symbolic, and as wide as the destination (R268; log 76). -/
def StoreEnt.exact (e : StoreEnt) (l : Loc) (size width : Nat) : Option Tag :=
  if e.loc = l ∧ e.size = size ∧ 8 * size = width then e.sym.bind fun x => if x.2.2.1 = width then some ⟨x.1, x.2.2.1, x.2.2.2⟩ else none else none

/-- One element of a region load: its value and the tag it takes. Where store entries and memory are merged, each run of memory bytes enters the read set as an element of its own, marked concrete (log 76). None when a limit of R266 is passed. -/
def Region.load (r : Region) (l : Loc) (size mem width ext : Nat) : Option (Nat × Option Tag × Region) := do
  let r ← r.addWord l
  let cover := (List.range size).map fun i => r.lastCover l i
  match (r.stores.filter fun e => (List.range size).any fun i => e.covers l i).getLast? with
  | none =>
    let q ← r.element l size mem
    pure (mem, some ⟨q.1, width, ext⟩, q.2)
  | some e =>
    match e.exact l size width with
    | some t => pure (e.data, some t, r)
    | none =>
      let byte := fun (i : Nat) => match r.lastCover l i with
        | some c => c.data / 256 ^ (l.addr + i - c.loc.addr) % 256
        | none => mem / 256 ^ i % 256
      let v := (List.range size).foldl (fun acc i => acc + 256 ^ i * byte i) 0
      let r' := r.stores.foldl (fun q c => match c.sym with
        | some x => if cover.contains (some c) then q.concrete x.1 else q
        | none => q) r
      let q ← (openRuns 0 (cover.map Option.isSome)).foldlM (fun (q : Region) run => do
        let e ← q.element ⟨l.space, l.addr + run.1⟩ run.2 (mem / 256 ^ run.1 % 256 ^ run.2)
        pure (e.2.concrete e.1)) r'
      pure (v, none, q)

/-- What a region load reads at the home (log 10); nothing where store entries hold all of it. A tile is verified first where the group's requests would else be more than a save can carry (R304). -/
def State.regionRead (s : State) (r : Region) (loc : Loc) (size : Nat) : Nat × State :=
  if r.holds loc size then (0, s)
  else
    let q := s.loadHome s.g.who loc size
    if q.2.1.isSome && s.g.overPackets then
      let v := s.loadVerified s.g.who loc size
      (leNat v.1, { v.2 with g := v.2.g.sees v.2.mem.clock })
    else (leNat q.1, { q.2.2 with g := (q.2.2.g.consume q.2.1).sees q.2.2.mem.clock })

/-- A region load of the lanes that translated: values by lane. None aborts with cause WORDS. -/
def regionLoads (width code size : Nat) (key : Nat → TagKey) : List (Nat × Loc × Nat) → Region → State → Option (List (Nat × Nat) × Region × State)
  | [], r, s => some ([], r, s)
  | (lane, loc, _) :: rest, r, s => do
    let q := s.regionRead r loc size
    let x ← r.load loc size q.1 width code
    let r := match x.2.1 with
      | some t => x.2.2.addTag (key lane) t
      | none => x.2.2
    let y ← regionLoads width code size key rest r q.2
    pure ((lane, extendCode code width x.1) :: y.1, y.2)

/-- The tiles that a region load would come to hold pending (R202). -/
def State.regionTiles (s : State) (r : Region) (size : Nat) (ok : List (Nat × Loc × Nat)) : List Nat :=
  let new := (ok.filter fun o => o.2.1.space == .hbm && !r.holds o.2.1 size).map fun o => o.2.1.addr / 4096
  new.eraseDups.filter fun t => !s.mem.tileVerified t && !s.g.pendTiles.contains t

/-- Why a region access stops before it acts: a lane that failed is a fault, and a lane that reaches host, peer or on-chip-map memory aborts with cause TARGET (R267). -/
def Reach.regionStop (r : Reach) : Option Flow :=
  if !r.bad.isEmpty then some (r.flow none)
  else if r.ok.any fun o => o.2.2 != 0 then some (.abort 12)
  else none

/-- The elements that a region load reads, and the request they make, for what orders them. -/
def regionElems (size : Nat) (ok : List (Nat × Loc × Nat)) : List Elem := ok.map fun o => { lane := o.1, loc := o.2.1, size := size }
def Group.regionReq (g : Group) (w : Word) : Req := { w.request .load .none [] with id := g.nextReq, epoch := g.epoch }

/-- What a region load of these locations waits for: the group's own earlier accesses (R217), and room among the pending tiles for those that it would consume unverified (R202). -/
def State.regionHold (s : State) (w : Word) (r : Region) (size : Nat) (ok : List (Nat × Loc × Nat)) : Option HeldBy :=
  let es := regionElems size ok
  if es.any fun e => !s.g.canPerform (s.g.regionReq w) e then some (.order (s.g.regionReq w) es)
  else
    let ts := s.regionTiles r size ok
    if 64 < s.g.pendTiles.length + ts.length && !ts.isEmpty then some (.tiles ts) else none

/-! ### Vector loads and stores (R242, R243) -/

def runVld (w : Word) (s : State) : Answer :=
  runWord w {} (fun s =>
    let act := s.g.active w.f.pred.toNat
    let as := w.addresses s.g act
    let code := w.f.rnd.toNat
    let size := codeBytes code
    let pair := code == 6
    match misaligned size as with
    | some x => (s, .trap 0x08 (BitVec.ofNat 64 x.2))
    | none =>
      let q := s.reach .read as
      match q.1.stop with
      | some x => (q.2, x.2.retry)
      | none =>
        match s.g.region with
        | none => issueRequest s q.2 q.1 (w.request .load (if w.f.d = 255 then .none else .vec w.f.d.toNat pair) (q.1.elems size (fun _ => 0) fun _ => 0))
        | some r0 => match q.1.regionStop with
          | some f => (q.2, f)
          | none =>
            match s.regionHold w r0 size q.1.ok with
            | some c => (s, .hold .waitStall (.until_ c))
            | none =>
              let g := ((q.2.g.concreteKs w).concreteLanes (vecNames w.f.b.toNat false) (lanesOf act)).untagV w.writes.v act
              match g.region with
              | none => (s, .done)
              | some r =>
                let n := w.f.d.toNat
                match regionLoads (if pair then 64 else 32) code size (fun l => if pair then .pair n l else .lane n l) q.1.ok (r.touchPages as) { q.2 with g := g } with
                | none => (q.2, .abort 5)
                | some (vals, r, s2) =>
                  let r := if n = 255 then { r with tags := r.tags.filter fun t => match t.1 with
                    | .lane m _ => m != 255
                    | .pair m _ => m != 255
                    | .ctl _ => true } else r
                  let g := s2.g.writeOp 0 n pair act (laneNumbers.map fun l => ((vals.find? fun v => v.1 == l).map Prod.snd).getD 0)
                  ({ s2 with g := { g with region := some r } }, .done)) s

/-- `vld`. -/
def execVld (f : FForm) (s : State) : Answer := runVld (mkWord shapeVld f) s
/-- `vld` with an imm32 displacement. -/
def execVldOffset (f : FForm) (imm : BitVec 32) (s : State) : Answer := runVld (mkWord shapeVldOffset f (.imm32 imm)) s

/-- The store entry of one region lane: symbolic when its data carries a tag (R271). -/
def regionEntry (r : Region) (loc : Loc) (size data : Nat) (tag : Option Tag) : StoreEnt :=
  { loc := loc, size := size, data := data % 2 ^ (8 * size), sym := tag.map fun t => (t.j, r.offset t data, t.width, t.ext) }

/-- Adds the entries of a region store; the abort cause when a limit is passed. -/
def regionStores (size : Nat) : List (Nat × Loc × Nat × Option Tag) → Region → Except Nat Region
  | [], r => .ok r
  | (_, loc, data, tag) :: rest, r =>
    match r.addWord loc with
    | none => .error 5
    | some r => match r.addStore (regionEntry r loc size data tag) with
      | none => .error 7
      | some r => regionStores size rest r

/-- The whole tag of data read from lane l of a name or pair; data that carries only part of a tagged value makes its load concrete. -/
def dataTag (r : Region) (n : Nat) (pair : Bool) (l : Nat) : Option Tag :=
  r.tag? (if pair then .pair n l else .lane n l)

/-- Does the base or the index of a region store carry a tag (R271)? -/
def Group.storeTagged (g : Group) (w : Word) (control : Bool) (act : Mask) : Bool :=
  match g.region with
  | none => false
  | some r => (w.f.a != 0 && (r.tag? (.ctl w.f.a.toNat)).isSome) || (!control && w.f.b != 255 && (lanesOf act).any fun l => !(r.tagsAt w.f.b.toNat l).isEmpty)

/-- What a region store of vector lanes adds to the buffer: for each lane its location, data and tag; the region in which loads of which only a part is stored are concrete. -/
def Region.vectorData (r : Region) (w : Word) (data : List Nat) (act : Mask) (ok : List (Nat × Loc × Nat)) : Region × List (Nat × Loc × Nat × Option Tag) :=
  let n := w.f.d.toNat
  let pair := w.pair .vec
  let r1 := r.concreteTags ((lanesOf act).flatMap fun l => if n = 255 then [] else
    ((vecNames n pair).flatMap fun m => r.tagsAt m l).filter fun t => t.1 != (if pair then .pair n l else .lane n l))
  (r1, ok.map fun o => (o.1, o.2.1, data.getD o.1 0, if n = 255 then none else dataTag r1 n pair o.1))

/-- The same for the control thread's one element. -/
def Region.controlData (r : Region) (w : Word) (data : Nat) (ok : List (Nat × Loc × Nat)) : Region × List (Nat × Loc × Nat × Option Tag) :=
  (r, ok.map fun o => (o.1, o.2.1, data, if w.f.d = 0 then none else r.tag? (.ctl w.f.d.toNat)))

def runVst (w : Word) (s : State) : Answer :=
  runWord w {} (fun s =>
    let act := s.g.active w.f.pred.toNat
    let as := w.addresses s.g act
    let code := w.f.rnd.toNat
    let size := codeBytes code
    let data := w.operandD s.g
    if s.g.storeTagged w false act then (s, .abort 4)
    else match misaligned size as with
    | some x => (s, .trap 0x08 (BitVec.ofNat 64 x.2))
    | none =>
      let q := s.reach .write as
      match q.1.stop with
      | some x => (q.2, x.2.retry)
      | none => match s.g.region with
        | none => issueRequest s q.2 q.1 (w.request .store .none (q.1.elems size (fun l => data.getD l 0) fun _ => 0))
        | some r => match q.1.regionStop with
          | some f => (q.2, f)
          | none =>
            let x := (q.2.g.region.getD r).vectorData w data act q.1.ok
            match regionStores size x.2 (x.1.touchPages as) with
            | .error c => (q.2, .abort c)
            | .ok r2 => ({ q.2 with g := { q.2.g with region := some r2 } }, .done)) s

/-- `vst`. -/
def execVst (f : FForm) (s : State) : Answer := runVst (mkWord shapeVst f) s
/-- `vst` with an imm32 displacement. -/
def execVstOffset (f : FForm) (imm : BitVec 32) (s : State) : Answer := runVst (mkWord shapeVstOffset f (.imm32 imm)) s

/-! ### Control-thread loads and stores (R244) -/

def runKld (w : Word) (s : State) : Answer :=
  runWord w {} (fun s =>
    let a := w.kAddress s.g
    let code := w.f.rnd.toNat
    let size := codeBytes code
    if a % size != 0 then (s, .trap 0x08 (BitVec.ofNat 64 a))
    else
      let q := s.reachK .read a
      match q.1.stop with
      | some x => (q.2, x.2.retry)
      | none => match s.g.region with
        | none => issueRequest s q.2 q.1 (w.request .load (if w.f.d = 0 then .none else .ctl w.f.d.toNat) (q.1.elems size (fun _ => 0) fun _ => 0))
        | some r0 => match q.1.regionStop with
          | some f => (q.2, f)
          | none =>
            match s.regionHold w r0 size q.1.ok with
            | some c => (s, .hold .waitStall (.until_ c))
            | none =>
              let g := q.2.g.concreteKs w
              match g.region with
              | none => (s, .done)
              | some r => match regionLoads 64 code size (fun _ => .ctl w.f.d.toNat) q.1.ok ((r.touchPages [(0, a)]).untagK w.f.d.toNat) { q.2 with g := g } with
                | none => (q.2, .abort 5)
                | some (vals, r, s2) =>
                  let g := s2.g.writeK 0 w.f.d.toNat (BitVec.ofNat 64 ((vals.head?.map Prod.snd).getD 0))
                  ({ s2 with g := { g with region := some (if w.f.d = 0 then r.untagK 0 else r) } }, .done)) s

/-- `kld`. -/
def execKld (f : FForm) (s : State) : Answer := runKld (mkWord shapeKld f) s
/-- `kld` with an imm32 displacement. -/
def execKldOffset (f : FForm) (imm : BitVec 32) (s : State) : Answer := runKld (mkWord shapeKldOffset f (.imm32 imm)) s

def runKst (w : Word) (s : State) : Answer :=
  runWord w {} (fun s =>
    let a := w.kAddress s.g
    let size := codeBytes w.f.rnd.toNat
    let data := (s.g.readK w.f.d.toNat).toNat
    if s.g.storeTagged w true 0 then (s, .abort 4)
    else if a % size != 0 then (s, .trap 0x08 (BitVec.ofNat 64 a))
    else
      let q := s.reachK .write a
      match q.1.stop with
      | some x => (q.2, x.2.retry)
      | none => match s.g.region with
        | none => issueRequest s q.2 q.1 (w.request .store .none (q.1.elems size (fun _ => data) fun _ => 0))
        | some r => match q.1.regionStop with
          | some f => (q.2, f)
          | none =>
            let x := (q.2.g.region.getD r).controlData w data q.1.ok
            match regionStores size x.2 (x.1.touchPages [(0, a)]) with
            | .error c => (q.2, .abort c)
            | .ok r2 => ({ q.2 with g := { q.2.g with region := some r2 } }, .done)) s

/-- `kst`. -/
def execKst (f : FForm) (s : State) : Answer := runKst (mkWord shapeKst f) s
/-- `kst` with an imm32 displacement. -/
def execKstOffset (f : FForm) (imm : BitVec 32) (s : State) : Answer := runKst (mkWord shapeKstOffset f (.imm32 imm)) s

/-! ### Atomics (R245 to R248) -/

/-- Can a run be sent over PCIe as one AtomicOp (R247)? -/
def hostRunOk (op : Nat) (t : ElemType) (run : Nat) : Bool := (op == 0 && elemInt t) || op == 6 || (op == 7 && run == 1)

/-- The lanes whose target takes no atomic of this kind fail with PAGE_PERM (R247). -/
def Reach.atomTargets (r : Reach) (op : Nat) (t : ElemType) (as : List (Nat × Nat)) : Reach :=
  let refuse := fun (o : Nat × Loc × Nat) => o.2.2 == 3 || (o.2.2 == 1 && !hostRunOk op t (r.ok.filter fun p => p.2.1 == o.2.1).length)
  let no := r.ok.filter refuse
  let bad := r.bad ++ no.map fun o => (o.1, ((as.find? fun a => a.1 == o.1).map Prod.snd).getD 0, 0x0A)
  { r with ok := r.ok.filter fun o => !refuse o, bad := as.filterMap fun a => bad.find? fun b => b.1 == a.1 }

/-- An atomic: operator op (7 is `vcas`) on the type of T1, with the destination of the old values. Under MODE.RND 6 the float `add` alone draws: min and max round nothing (R85, R245 against R246; DESIGN CHOICE, log 71). Its lanes translate as writes, and need W alone (DESIGN CHOICE, log 103). -/
def runAtomic (op : Nat) (l : SetLit) (dest : Bool) (w : Word) (s : State) : Answer :=
  runWord w {} (fun s =>
    let g := s.g
    let act := g.active w.f.pred.toNat
    let as := w.addresses g act
    let ty := l.t1.toNat % 32
    let t := (elemOf ty).getD .n32
    let pair := elemPair t
    let size := elemWidth t / 8
    match misaligned size as with
    | some x => (s, .trap 0x08 (BitVec.ofNat 64 x.2))
    | none =>
      let q := s.reach .write as
      match q.1.stop with
      | some x => (q.2, x.2.retry)
      | none =>
        let reach := q.1.atomTargets op t as
        let xs := g.readOp l.x.toNat pair
        let ys := if op = 7 then g.readOp l.y.toNat pair else []
        let rm := w.rm g
        let draw := elemIeee t && op == 0 && rm == 6
        let s1 := q.2
        let gens := if draw then reach.ok.foldl (fun gs o => gs.set o.1 (drawNext (genAt gs o.1))) (laneNumbers.map (genAt s1.g.gens)) else s1.g.gens
        let elems := (reach.elems size (fun i => xs.getD i 0) fun i => ys.getD i 0).map fun e => { e with draw := (genAt gens e.lane).toNat }
        let r := { w.request .atomic (if dest && w.f.d != 255 then .vec w.f.d.toNat pair else .none) elems with code := op, ty := ty, rm := rm }
        let res := issueRequest s s1 reach r
        match res.2 with
        | .done | .lanes _ _ _ _ => ({ res.1 with g := { res.1.g with gens := gens } }, res.2)
        | f => (res.1, f)) s

/-- `vatom`. -/
def execVatom (f : FForm) (l : SetLit) (s : State) : Answer := runAtomic l.p1.toNat l true (mkWord shapeVatom f (.set l)) s
/-- `vatomn`: no old value is returned. -/
def execVatomn (f : FForm) (l : SetLit) (s : State) : Answer := runAtomic l.p1.toNat l false (mkWord shapeVatomn f (.set l)) s
/-- `vcas`. -/
def execVcas (f : FForm) (l : SetLit) (s : State) : Answer := runAtomic 7 l true (mkWord shapeVcas f (.set l)) s

/-! ### Fences and promotion (R250 to R252) -/

/-- Has every earlier load of the group returned? -/
def Group.loadsReturned (g : Group) : Bool := g.reqs.all fun r => r.kind == .store || r.kind == .exchange || (g.sup && r.elems.any fun e => !e.placed)

/-- `fence`: it issues once its conditions are met; a release fence is held while UNVER is 1 (R203). -/
def execFence (f : FForm) (s : State) : Answer :=
  let w := mkWord shapeFence f
  runWord w {} (fun s =>
    if w.acq && !s.g.loadsReturned then (s, .hold .waitStall (.until_ .returned))
    else if w.rel && (!s.g.allPerformed || s.g.unver) then (s, .hold .waitStall (.until_ .released))
    else (if w.acq then s.acquire s.g w.scope s.g.seen else s, .done)) s

/-- The groups a promotion aimed at core v waits for: those of the context there that have not been pre-empted. -/
def State.victims (s : State) (issuer : Group) (v : Nat) : List Group :=
  s.allGroups.filter fun h => h.resident && h.core == v && h.part == issuer.part && h.ctx == issuer.ctx && h.uid != issuer.uid

/-- `facq.remote` (R251, R252). -/
def execFacqRemote (f : FForm) (s : State) : Answer :=
  let w := mkWord shapeFacqRemote f
  runWord w {} (fun s =>
    let v := (s.g.readK f.a.toNat).toNat
    if 127 < v then (s, .trap 0x04 0)
    else if !s.g.loadsReturned then (s, .hold .waitStall (.until_ .returned))
    else if !s.g.allPerformed || s.g.unver then (s, .hold .waitStall (.until_ .released))
    else if s.qown s.g.part v = 0 then (s.raiseVersion s.g.who 5, .done)
    else
      let me := s.g.uid
      let hit := (s.victims s.g v).map Group.uid
      (s.mapGroups (fun h => hit.contains h.uid) fun h => { h with promote := h.promote ++ [(me, false)] }, .wait .waitStall (.promote v))) s

/-- A victim takes its promotion point, between two of its instructions: its accesses so far are performed, and an open region is over. -/
def execPromotionPoint (victim issuer : Nat) (s : State) : Answer :=
  answer <| match s.group? victim with
    | some h => if h.inreg || !h.allPerformed then s
      else s.putGroup { h with promote := h.promote.map fun p => if p.1 = issuer then (issuer, true) else p }
    | none => s

/-- Every group of the victim core has taken its point: the core's lines of the context go, and the fence takes effect on both sides (R232). -/
def execPromotionDrain (issuer : Nat) (s : State) : Answer :=
  answer <| match s.group? issuer with
    | some g => match g.wait with
      | .promote v =>
        if s.allGroups.any fun h => h.st != .preempted && h.st != .retired && h.promote.contains (issuer, false) then s
        else
          let s := { s with mem := { s.mem with l1 := s.mem.l1.filter fun c => !(c.core == v && c.part == g.part && c.ctx == g.ctx) } }
          let s := (s.raiseVersion { g.who with core := v } 5).raiseVersion g.who 5
          let s := s.mapGroups (fun _ => true) fun h => { h with promote := h.promote.filter fun p => p.1 != issuer }
          s.completeWait issuer
      | _ => s
    | none => s

/-! ### Prefetch (R253) -/

/-- Fetches the line of an address silently: into L2, and into the L1 when its tile is verified. -/
def State.prefetch (s : State) (l1 : Bool) (va : Nat) : State :=
  if inAperture va then s
  else
    let leaf := (s.mem.tlb.find? fun t => t.core == s.g.core && t.part == s.g.part && t.ctx == s.g.ctx && t.leaf.covers (vpnOf va) && t.leaf.permits .read).map fun t => t.leaf.at (vpnOf va)
    let t := match leaf with
      | some l => if va < Config.vaBytes then s.place s.g.who l va else .fault 0x0A
      | none => if va < Config.vaBytes then (s.walk s.g.who .read true va).1 else .fault 0x0A
    match t with
    | .ok ⟨.hbm, a⟩ _ =>
      let s := s.touch s.g.who (a / 128)
      if l1 && s.mem.tileVerified (a / 4096) then s.l1Install s.g.who (s.vers s.g.who) (a / 128) else s
    | _ => s

/-- `pref`: no effect inside a region. -/
def runPref (w : Word) (s : State) : Answer :=
  runWord w {} (fun s =>
    if s.g.inreg then (s, .done)
    else ((w.addresses s.g (s.g.active w.f.pred.toNat)).foldl (fun s x => s.prefetch (w.f.rnd == 1) x.2) s, .done)) s

/-- `pref`, filling L2. -/
def execPref (f : FForm) (s : State) : Answer := runPref (mkWord shapePref f) s
/-- `pref.l1`. -/
def execPrefL1 (f : FForm) (s : State) : Answer := runPref (mkWord shapePrefL1 f) s
/-- `pref` with an imm32 displacement, in either sub-operation. -/
def execPrefOffset (f : FForm) (imm : BitVec 32) (s : State) : Answer := runPref (mkWord shapePrefOffset f (.imm32 imm)) s

/-! ### Cache maintenance (R254, R255) -/

/-- The committed pages of local HBM that a range of virtual addresses touches. -/
def State.localPages (s : State) (p c lo hi : Nat) : List (Nat × Nat) :=
  (s.mappedPages p c).filter fun e => e.2.testBit 0 && bitsAt e.2 53 52 == 0 && e.1 * 65536 < hi && lo < (e.1 + 1) * 65536 && !inAperture (e.1 * 65536)

/-- The lines of a page that lie in the range. -/
def pageLines (e : Nat × Nat) (lo hi : Nat) : List Nat :=
  ((List.range 512).filter fun i => lo ≤ e.1 * 65536 + 128 * i && e.1 * 65536 + 128 * i < hi).map fun i => bitsAt e.2 51 16 * 512 + i

/-- `cwb` and `cinv`: the range checks, then an action on every line of the range on the pages that satisfy `page`. -/
def runMaintain (w : Word) (held : Group → Bool) (page : Nat → Bool) (act : State → Nat → State) (s : State) : Answer :=
  runWord w {} (fun s =>
    let a := (s.g.readK w.f.a.toNat).toNat
    let n := (s.g.readK w.f.b.toNat).toNat
    if a % 128 != 0 || n % 128 != 0 then (s, .trap 0x08 (BitVec.ofNat 64 (if a % 128 != 0 then a else n)))
    else if Config.vaBytes < a + n then (s, .trap 0x04 0)
    else if n = 0 then (s, .done)
    else if held s.g then (s, .hold .waitStall (.until_ .released))
    else
      let pages := (s.localPages s.g.part s.g.ctx a (a + n)).filter fun e => page e.2
      (pages.foldl (fun s e => (pageLines e a (a + n)).foldl act s) s, .done)) s

/-- `cwb`: dirty lines are written back and marked clean. It waits for the group's own earlier stores. -/
def execCwb (f : FForm) (s : State) : Answer :=
  runMaintain (mkWord shapeCwb f) (fun g => !g.allPerformed) (fun _ => true)
    (fun s line => if (s.mem.l2.any fun e => e.1 == line && e.2.dirty) then s.cleanTile (line / 32) else s) s

/-- `cinv`: every copy of a line goes without write-back; pages without W and replicas are skipped, and it is held while UNVER is 1. -/
def execCinv (f : FForm) (s : State) : Answer :=
  runMaintain (mkWord shapeCinv f) (fun g => !g.allPerformed || g.unver) (fun e => e.testBit 5 && !e.testBit 10)
    (fun s line =>
      let s := { s with mem := { s.mem with l1 := s.mem.l1.filter fun c => c.line != line } }
      let s := if thas s.mem.l2 line then { s with mem := s.mem.discardLine line } else s
      let s := { s with mem := (s.mem.stir ⟨.hbm, 128 * line⟩ 128).tick }
      markConflicts s none ⟨.hbm, 128 * line⟩) s

/-! ### kwait (R162) -/

/-- Is a `kwait` of this scope an external wait: system scope, or EXTWAIT in the stage's header? -/
def State.kwaitExternal (s : State) (scope : Nat) : Bool :=
  scope == 6 || ((s.block? s.g.blk).map fun b => b.hdr.flags.testBit 2).getD false

/-- `kwait`: an acquire load at the scope named, made again on each wake until the word differs from k(B). -/
def execKwait (f : FForm) (s : State) : Answer :=
  let w := mkWord shapeKwait f
  runWord w {} (fun s =>
    let a := (s.g.readK f.a.toNat).toNat
    if a % 8 != 0 then (s, .trap 0x08 (BitVec.ofNat 64 a))
    else
      let q := s.reachK .read a
      match q.1.stop, q.1.ok with
      | some x, _ => (q.2, x.2.retry)
      | none, [] => (q.2, q.1.flow none)
      | none, o :: _ =>
        let r := { w.request .load .none [] with id := s.g.nextReq, acq := true, epoch := s.g.epoch }
        let e : Elem := { lane := 0, loc := o.2.1, size := 8 }
        if !s.g.canPerform r e || s.windowHeld e.loc then (s, .hold .waitStall (.until_ (.order r [e])))
        else
          let s1 := q.2.raiseVersion q.2.g.who w.scope
          let now := s1.momentAt s1.g.who w.scope e.loc
          let v := s1.loadAt s1.g.who w.scope (s1.vers s1.g.who) e.loc 8
          if s1.g.tilesFull v.2.1 then (s, .hold .waitStall (.until_ (.tiles v.2.1.toList)))
          else
            let v := if v.2.1.isSome && s1.g.overPackets then let y := s1.loadVerified s1.g.who e.loc 8; (y.1, none, y.2) else v
            let s2 := { v.2.2 with g := { ((v.2.2.g.consume v.2.1).sees now) with notBefore := max v.2.2.g.notBefore now } }
            let x : W64 := BitVec.ofNat 64 (leNat v.1)
            if x = s.g.readK f.b.toNat then ({ s2 with g := { s2.g with watch := some e.loc, gage := 0 } }, .retry .waitExt (.kwait (s.kwaitExternal w.scope)))
            else ({ s2 with g := s2.g.setK 0 f.d.toNat x }, .done)) s

/-- Does a write of n bytes at l touch the 128-byte line of w? -/
def lineTouched (w l : Loc) (n : Nat) : Bool := w.space == l.space && w.addr / 128 * 128 < l.addr + n && l.addr < w.addr / 128 * 128 + 128

/-- The writes of a step have the `kwait`s that watch their lines read again (R162). -/
def State.stirWakes (s : State) : State :=
  if s.mem.stirred.isEmpty then s
  else
    let hit := s.allGroups.filter fun h => (match h.wait with
      | .kwait _ => true
      | _ => false) && h.watch.any fun w => s.mem.stirred.any fun x => lineTouched w x.1 x.2
    let s := hit.foldl (fun s h => s.wake h.uid) s
    { s with mem := { s.mem with stirred := [] } }

/-- A write to the line, or a window's end, has the waiting read made again. -/
def execKwaitWake (uid : Nat) (s : State) : Answer :=
  answer <| match s.group? uid with
    | some h => match h.wait with
      | .kwait _ => s.wake uid
      | _ => s
    | none => s

end Sys2Proof.Machine
end

