-- ==== Sys2Proof/Machine/Atomic.lean ====
section
/-! DEFINITION. Opening, committing and aborting an atomic region (R272 to R281). -/

namespace Sys2Proof.Machine

open Sys2Proof

/-- `abeg` (R279): the checkpoint is recorded once every interlocked write has landed. -/
def execAbeg (f : FForm) (imm : BitVec 32) (s : State) : Answer :=
  let w := mkWord shapeAbeg f (.imm32 imm)
  runWord w { illegal := s.g.sup || s.g.ccc } (fun s =>
    let g := s.g
    if !g.landed then (s, .hold .waitStall (.until_ .landed))
    else
      let r : Region := { scope := w.scope, fallback := branchTarget g.pc (imm.signExtend 64), opened := g.pc, reads := [], words := [], pages := [], cons := [], stores := []
                          tags := [], v := g.v, k := g.k, m := g.m, mode := g.mode, gens := g.gens, count := 0 }
      ({ s with g := { g with region := some r } }, .done)) s

/-- `aabt` (R281). -/
def execAabt (f : FForm) (s : State) : Answer :=
  runWord (mkWord shapeAabt f) { illegal := !s.g.inreg } (fun s => (s, .abort 1)) s

/-! ### The commit engine (R273) -/

/-- The fresh values of the read set: memory's for an element in conflict, the original otherwise (verified, R199). -/
def freshValues : List ReadEnt → State → List Nat × State
  | [], s => ([], s)
  | e :: es, s =>
    if e.conflict then
      let q := s.loadVerified s.g.who e.loc e.size
      let rest := freshValues es q.2
      (leNat q.1 :: rest.1, rest.2)
    else
      let rest := freshValues es s
      (e.old :: rest.1, rest.2)

/-- The tiles that the stores of a commit write to, verified first (R199). -/
def verifyStores (es : List StoreEnt) (s : State) : State :=
  es.foldl (fun s e => if e.loc.space == .hbm then s.needVerified s.g.part (e.loc.addr / 4096) else s) s

/-- Does a concrete load's fresh value differ? -/
def concreteBroken : List ReadEnt → List Nat → Bool
  | e :: es, x :: xs => (e.concrete && x != e.old) || concreteBroken es xs
  | _, _ => false

/-- Does a constraint fail against the fresh values? -/
def ConEnt.broken (c : ConEnt) (fresh : List Nat) : Bool :=
  let x := intPattern c.width ((extendCode c.ext c.width (fresh.getD c.j 0) : Int) + c.c)
  let a := patternInt c.signed c.width x
  let b := patternInt c.signed c.width c.k
  condInt c.cond a b != c.outcome

/-- The bytes a store entry writes after repair. -/
def StoreEnt.data' (e : StoreEnt) (fresh : List Nat) : Nat :=
  match e.sym with
  | some (j, c, width, ext) => (extendCode ext width (fresh.getD j 0) + c) % 2 ^ (8 * e.size)
  | none => e.data

/-- The contents of a name with every write done. -/
def VReg.final (r : VReg) : Lanes := r.pend.foldl overlay (if r.base.isEmpty then zeroLanes else r.base)
def KReg.final (r : KReg) : W64 := (r.pend.getLast?.map Prod.snd).getD r.base

/-- The repaired value of a tagged value v (R273): v moves as the load's value moved. -/
def repaired (r : Region) (fresh : List Nat) (t : Tag) (v : Nat) : Nat :=
  intPattern t.width ((extendCode t.ext t.width (fresh.getD t.j 0) : Int) + r.offset t v)

/-- Repairs one tagged register. -/
def Group.repair (g : Group) (r : Region) (fresh : List Nat) (e : TagKey × Tag) : Group :=
  match e.1 with
  | .lane n l =>
    let x := repaired r fresh e.2 (laneAt (g.vreg n).final l).toNat
    g.writeV 0 n (BitVec.ofNat 32 (2 ^ l)) 0xFFFFFFFF (laneNumbers.map fun _ => BitVec.ofNat 32 x)
  | .pair n l =>
    let v := (laneAt (g.vreg n).final l).toNat + 2 ^ 32 * (laneAt (g.vreg (n + 1)).final l).toNat
    let x := repaired r fresh e.2 v
    g.writeOp 0 n true (BitVec.ofNat 32 (2 ^ l)) (laneNumbers.map fun _ => x)
  | .ctl n => g.writeK 0 n (BitVec.ofNat 64 (repaired r fresh e.2 (tget ({} : KReg) g.k n).final.toNat))

/-- `acom` (R280): the whole commit is one step. It waits while UNVER is 1 and until the group's earlier accesses have been performed. Where a re-read or a store meets a tile that fails its check, nothing is stored (R278, R199). -/
def execAcom (f : FForm) (s : State) : Answer :=
  runWord (mkWord shapeAcom f) { illegal := !s.g.inreg } (fun s =>
    match s.g.region with
    | none => (s, .trap 0x02 0)
    | some r =>
      if s.g.unver || !s.g.allPerformed then (s, .hold .waitStall (.until_ .released))
      else
        let q := freshValues r.reads s
        let fresh := q.1
        let s1 := verifyStores r.stores q.2
        if s1.alarmed then (s1, .retry .waitStall .hold)
        else if concreteBroken r.reads fresh then (s1, .abort 3)
        else if r.cons.any fun c => c.broken fresh then (s1, .abort 2)
        else
          let s2 := r.stores.foldl (fun s e => s.storeAt s.g.who (some s.g.uid) false e.loc (leBytes e.size (e.data' fresh))) s1
          let s2 := s2.acquire s2.g r.scope s1.mem.clock
          let g := r.tags.foldl (fun g e => g.repair r fresh e) s2.g
          let g := { g with region := none, v := g.v.map fun (e : Nat × VReg) => (e.1, { e.2 with shadow := false }) }
          let repaired := r.reads.any fun e => e.conflict
          let s3 := { s2 with g := g.setK 0 f.d.toNat (if repaired then 1 else 0) }
          (s3.grant g.quad, .done)) s

end Sys2Proof.Machine
end

