-- ==== Sys2Proof/Machine/Catalogue.lean ====
section
/-! DEFINITION. Reading the tables of a context at their homes: catalogue entries (R358, R359) and handle table entries (R363, R364). -/

namespace Sys2Proof.Machine

open Sys2Proof

/-! ### Catalogue entries -/

/-- The number of `n` bytes at offset `a` of a byte list. -/
def natAt (bs : List Byte) (a n : Nat) : Nat := leNat ((bs.drop a).take n)

def signed64 (x : Nat) : Int := (BitVec.ofNat 64 x).toInt

/-- The fields of 64 bytes laid out as Table 18-3. -/
def tensorOf (bs : List Byte) : Tensor :=
  let shape := natAt bs 0x39 1
  { base := natAt bs 0 8, sbase := natAt bs 8 8
    dims := (List.range 4).map fun i => natAt bs (0x10 + 4 * i) 4
    strs := (List.range 3).map fun i => signed64 (natAt bs (0x20 + 8 * i) 8)
    fmt := natAt bs 0x38 1, planar := shape.testBit 6, baxis := shape / 16 % 4, rank := shape % 8
    planes := natAt bs 0x3A 1, reuse := natAt bs 0x3B 1 }

/-- VALID of an entry. -/
def entryValid (bs : List Byte) : Bool := (natAt bs 0x39 1).testBit 7

/-- The element size in bytes that addresses are multiples of; 1 for the types of a byte or less (Table 18-3). -/
def alignOf (fmt : Nat) : Nat := match elemOf fmt with
  | some t => max 1 (elemWidth t / 8)
  | none => 1

/-- Do 64 bytes hold an entry that R358 allows, VALID apart? -/
def tensorOk (bs : List Byte) : Bool :=
  let t := tensorOf bs
  let size := alignOf t.fmt
  t.fmt ≤ 19 && t.base < 2 ^ 56 && t.sbase < 2 ^ 56 && t.base % (if t.planar then 128 else size) == 0
    && 1 ≤ t.rank && t.rank ≤ 4 && t.baxis < t.rank && !(natAt bs 0x39 1).testBit 3
    && (t.dims.drop t.rank).all (· == 0) && t.planes ≤ 15 && t.reuse ≤ 2 && natAt bs 0x3C 4 == 0
    && (if t.planar then t.fmt == 8 && t.rank == 2 && inAperture t.base && 1 ≤ t.planes
        else t.strs.all fun x => x % size == 0)
    && t.strs.all fun x => x.natAbs < 2 ^ 56

/-- The address of an entry in its partition frame. -/
def State.entryAddr (s : State) (p c tid : Nat) : Nat := (s.ctx p c).catbase.toNat + 64 * tid

/-- The bytes of an entry as a core of the group reads them: from a cached line, which obeys R178 as an L1 line at package scope, else from the home, verified, whence the core caches the line (R359). -/
def State.readEntry (s : State) (g : Group) (tid : Nat) : List Byte × State :=
  let a := s.entryAddr g.part g.ctx tid
  match s.l1Hit g.who 5 (a / 128) with
  | some c => ((c.bytes.drop (a % 128)).take 64, s)
  | none =>
    let r := s.loadVerified g.who ⟨.hbm, a⟩ 64
    (r.1, r.2.l1Install g.who (s.vers g.who) (a / 128))

/-- An entry as an instruction of the group reads it: none when the id is above 4,095 or the entry not valid. -/
def State.tensor (s : State) (g : Group) (tid : Nat) : Option Tensor × State :=
  if 4095 < tid then (none, s)
  else
    let r := s.readEntry g tid
    (if entryValid r.1 then some (tensorOf r.1) else none, r.2)

/-- An optional tensor id: 0xFFFF names none (R256). The outer answer is none for an id that names no valid entry. -/
def State.tensorOpt (s : State) (g : Group) (tid : Nat) : Option (Option Tensor) × State :=
  if tid = 0xFFFF then (some none, s)
  else
    let r := s.tensor g tid
    (r.1.map some, r.2)

/-- Element width of a format in bits; 8 for the E8M0 scales. -/
def fmtWidth (fmt : Nat) : Nat := match elemOf fmt with
  | some t => elemWidth t
  | none => 8

def Tensor.dim (t : Tensor) (i : Nat) : Nat := t.dims.getD i 0

/-- The byte address of the element with these indexes, innermost first (R358), modulo 2^64. -/
def Tensor.addr (t : Tensor) (idx : List Nat) : Nat :=
  let i0 := idx.getD 0 0
  let off : Int := (List.range 3).foldl (fun (acc : Int) i => acc + (idx.getD (i + 1) 0 : Int) * t.strs.getD i 0) (i0 * fmtWidth t.fmt / 8 : Nat)
  wrap64 (t.base + off)

/-- The address of the scale of an element of an MX tensor. -/
def Tensor.scaleAddr (t : Tensor) (idx : List Nat) : Nat :=
  let dims := (List.range t.rank).map fun i => if i = t.baxis then (t.dim i + 31) / 32 else t.dim i
  let at_ := (List.range t.rank).map fun i => if i = t.baxis then idx.getD i 0 / 32 else idx.getD i 0
  let n := ((List.range t.rank).foldl (fun (acc : Nat × Nat) i => (acc.1 + acc.2 * at_.getD i 0, acc.2 * dims.getD i 0)) (0, 1)).1
  t.sbase + n

/-! ### Handles -/

/-- INDEX and GEN of a handle. -/
def handleIndex (h : W64) : Nat := (h.extractLsb' 0 10).toNat
def handleGen (h : W64) : Nat := (h.extractLsb' 16 16).toNat

/-- The address of an entry of the handle table. -/
def State.handleAddr (s : State) (p c i : Nat) : Nat := (s.ctx p c).htbase.toNat + 32 * i

/-- Is word 0 of an entry that of a valid object of this kind and generation? -/
def handleMatches (w0 kind gen : Nat) : Bool := w0.testBit 63 && bitsAt w0 62 61 == kind && bitsAt w0 31 16 == gen

/-- The owner fields of word 0 for a block: the core of its first group and its block slot. -/
def Block.owner (b : Block) : Nat := b.cores.getD 0 0 * 2 ^ 45 + b.slots.getD 0 0 * 2 ^ 40

/-- Does word 0 name this block as owner? -/
def ownedBy (w0 : Nat) (b : Block) : Bool := bitsAt w0 51 45 == b.cores.getD 0 0 && bitsAt w0 44 40 == b.slots.getD 0 0

/-- The entry a handle names for a context: its address and word 0, if it is valid and of the kind asked. -/
def State.handle (s : State) (p c : Nat) (h : W64) (kind : Nat) : Option (Nat × Nat) × State :=
  let a := s.handleAddr p c (handleIndex h)
  let r := s.hbmNat (partWho p) a 8
  let shaped := h.extractLsb' 10 6 == 0 && h.extractLsb' 32 32 == 0
  (if shaped && handleMatches r.1 kind (handleGen h) then some (a, r.1) else none, r.2)

/-- A handle as a group uses it: a barrier or handle queue must be of its own block (R364). -/
def State.handleOf (s : State) (g : Group) (h : W64) (kind : Nat) : Option (Nat × Nat) × State :=
  let r := s.handle g.part g.ctx h kind
  match r.1, s.block? g.blk with
  | some e, some b => (if kind = 3 || ownedBy e.2 b then some e else none, r.2)
  | some e, none => (if kind = 3 then some e else none, r.2)
  | none, _ => (none, r.2)

end Sys2Proof.Machine
end

