-- ==== Sys2Proof/Machine/Engines.lean ====
section
/-! DEFINITION. Engine operations: copies, row gathers, collectives and casts, their completion, the wait on their counters, and the taking of their faults (R227, R228, R256 to R264, R289, R91). An operation acts as one step when it completes (log 9). -/

namespace Sys2Proof.Machine

open Sys2Proof

/-! ### Issue (R256) -/

/-- The barrier a literal's X names: none for k0. The outer answer is none for a handle that names no barrier of the block. -/
def State.barrierOf (s : State) (l : SetLit) : Option (Option W64) × State :=
  if l.x = 0 then (some none, s)
  else
    let h := s.g.readK l.x.toNat
    let r := s.handleOf s.g h 1
    (r.1.map fun _ => some h, r.2)

/-- The operations of a class that leave it: every ended one that no operation before it keeps (R228). -/
def splitEnded (cls : Nat) : List EngineOp → List EngineOp × List EngineOp
  | [] => ([], [])
  | o :: os =>
    if o.cls = cls then
      if o.ended then let r := splitEnded cls os; (r.1, o :: r.2) else (o :: os, [])
    else let r := splitEnded cls os; (o :: r.1, r.2)

/-- The counter of a class falls in issue order, and faults become pending. -/
def Group.drainOps (g : Group) (cls : Nat) : Group :=
  let r := splitEnded cls g.ops
  { g with ops := r.1, pendFaults := r.2.foldl (fun fs o => match o.fault with
      | some f => insertFault (o.seq, f) fs
      | none => fs) g.pendFaults }

/-- A completed operation arrives on the barrier its literal names, with its whole byte count. -/
def State.arriveBar (s : State) (h : Group) (o : EngineOp) : State :=
  match o.bar with
  | some b => { s with units := { s.units with arrivals := s.units.arrivals ++ [(h.part, h.ctx, b, o.count)] } }
  | none => s

/-- The operation joins its class, or waits while the counter stands at 32 (Table 19-1). An operation without bytes completes at once, and its counter falls in its turn. -/
def issueEngine (s : State) (o : EngineOp) : State × Flow :=
  if 32 ≤ s.g.counter o.cls then (s, .hold .waitCounter (.counter o.cls 31))
  else
    let o := { o with seq := s.g.nextOp, after := s.g.nextReq }
    let s := { s with g := { s.g with ops := s.g.ops ++ [o], nextOp := s.g.nextOp + 1 } }
    if o.ended then (State.arriveBar { s with g := s.g.drainOps o.cls } s.g o, .done) else (s, .done)

/-- Do two ranges of n bytes meet? -/
def rangesMeet (a b n m : Nat) : Bool := a < b + m && b < a + n

/-- `xcopy` (R259). -/
def execXcopy (f : FForm) (l : SetLit) (s : State) : Answer :=
  let w := mkWord shapeXcopy f (.set l)
  runWord w {} (fun s =>
    let dst := (s.g.readK f.d.toNat).toNat
    let src := (s.g.readK f.a.toNat).toNat
    let n := (s.g.readK f.b.toNat).toNat
    match [dst, src, n].find? fun x => x % 16 != 0 with
    | some x => (s, .trap 0x08 (BitVec.ofNat 64 x))
    | none =>
      if 2 ^ 40 ≤ n || rangesMeet src dst n n then (s, .trap 0x04 0)
      else
        let t1 := s.tensorOpt s.g l.t1.toNat
        let t2 := t1.2.tensorOpt s.g l.t2.toNat
        let br := t2.2.barrierOf l
        match t1.1, t2.1, br.1 with
        | some d, some c, some bar =>
          issueEngine br.2 { seq := 0, cls := 0, scope := w.scope, after := 0, dst := dst, src := src, count := n, unit := 16, dstT := d, srcT := c, bar := bar, ended := n == 0
                             word0 := w.w0, word1 := w.w1.getD 0 }
        | some _, some _, none => (s, .trap 0x15 0)
        | _, _, _ => (s, .trap 0x14 0)) s

/-- `xgath` (R260). -/
def execXgath (f : FForm) (l : SetLit) (s : State) : Answer :=
  let w := mkWord shapeXgath f (.set l)
  runWord w {} (fun s =>
    let act := s.g.active f.pred.toNat
    let as := w.addresses s.g act
    let dst := (s.g.readK f.d.toNat).toNat
    let size := 16 * 2 ^ l.p1.toNat
    match (if as.isEmpty then [] else as.map Prod.snd ++ [dst]).find? fun x => x % 16 != 0 with
    | some x => (s, .trap 0x08 (BitVec.ofNat 64 x))
    | none =>
      if as.any fun x => rangesMeet x.2 dst size (32 * size) then (s, .trap 0x04 0)
      else
        let t1 := s.tensorOpt s.g l.t1.toNat
        let t2 := t1.2.tensorOpt s.g l.t2.toNat
        let br := t2.2.barrierOf l
        match t1.1, t2.1, br.1 with
        | some d, some c, some bar =>
          issueEngine br.2 { seq := 0, cls := 2, scope := w.scope, after := 0, dst := dst, src := 0, count := size * as.length, rows := as.map fun x => (size * x.1, x.2)
                             unit := size, dstT := d, srcT := c, bar := bar, ended := as.isEmpty, word0 := w.w0, word1 := w.w1.getD 0 }
        | some _, some _, none => (s, .trap 0x15 0)
        | _, _, _ => (s, .trap 0x14 0)) s

/-- The members of a collective: device and ports in the switch tree. -/
def State.collMembers (s : State) (coll : Nat) : List (Nat × List Nat) := ((s.plat.colls.find? fun c => c.1 == coll).map Prod.snd).getD []

/-- This device's place among the members. -/
def State.collPort (s : State) (coll : Nat) : Option (Nat × List Nat) :=
  (s.collMembers coll).find? fun m => s.plat.device == some (BitVec.ofNat 10 m.1)

/-- `xcoll` (R261). -/
def execXcoll (f : FForm) (l : SetLit) (s : State) : Answer :=
  let w := mkWord shapeXcoll f (.set l)
  runWord w {} (fun s =>
    let dst := (s.g.readK f.d.toNat).toNat
    let src := (s.g.readK f.a.toNat).toNat
    let x := s.g.readK f.b.toNat
    let n := (x.extractLsb' 0 32).toNat
    let v := (x.extractLsb' 32 16).toNat
    let lse := l.p1 == 3
    let unit := if lse then 4 * (v + 2) else 4
    let coll := l.t1.toNat
    let isRoot := (s.collPort coll).any fun m => m.1 == l.t2.toNat
    let reads := l.p1 != 4 || isRoot
    if dst % 4 != 0 then (s, .trap 0x08 (BitVec.ofNat 64 dst))
    else if reads && src % 4 != 0 then (s, .trap 0x08 (BitVec.ofNat 64 src))
    else if x.extractLsb' 48 16 != 0 || (if lse then v = 0 || 4096 < v else v != 0) || (reads && rangesMeet src dst (unit * n) (unit * n)) then (s, .trap 0x04 0)
    else if (s.collPort coll).isNone then (s, .trap 0x15 0)
    else
      let br := s.barrierOf l
      match br.1 with
      | none => (s, .trap 0x15 0)
      | some bar =>
        let inst := tget 0 s.units.collSeq coll + 1
        let r := issueEngine br.2 { seq := 0, cls := 3, scope := w.scope, after := 0, dst := dst, src := src, count := unit * n, unit := unit, coll := coll, op := l.p1.toNat, ty := l.p2.toNat
                                    v := v, root := l.t2.toNat, inst := inst, bar := bar, word0 := w.w0, word1 := w.w1.getD 0 }
        match r.2 with
        | .done => ({ r.1 with units := { r.1.units with collSeq := tput r.1.units.collSeq coll inst } }, .done)
        | fl => (r.1, fl)) s

/-! ### Cast tiles (R282, R283) -/

/-- The place of a cast tile of a planar tensor: its core and scratchpad offset, its row tile and its K-tile. None for an index or bytes out of range. -/
def State.castTile (s : State) (g : Group) (t : Tensor) (k : Nat) : Option (Nat × Nat × Nat × Nat) :=
  let kts := (t.dim 0 + 127) / 128
  let rts := (t.dim 1 + 63) / 64
  let va := t.base + Config.castTileBytes * k
  let slot := (va - Config.apertureBase) / 0x100000
  let off := (va - Config.apertureBase) % 0x100000
  match s.block? g.blk with
  | none => none
  | some b =>
    if rts * kts ≤ k || b.cores.length ≤ slot || b.hdr.spad < off + Config.castTileBytes then none
    else some (b.cores.getD slot 0, b.spad.getD slot 0 + off, k / kts, k % kts)

/-- `xcast` (R289). -/
def runXcast (transp : Bool) (l : SetLit) (w : Word) (s : State) : Answer :=
  runWord w {} (fun s =>
    let t1 := s.tensor s.g l.t1.toNat
    let t2 := t1.2.tensor s.g l.t2.toNat
    match t1.1, t2.1 with
    | some d, some c =>
      if !d.planar || c.planar || 18 < c.fmt then (s, .trap 0x14 0)
      else
        let k := (s.g.readK w.f.d.toNat).toNat
        match t2.2.castTile s.g d k with
        | none => (s, .trap 0x04 0)
        | some _ =>
          let br := t2.2.barrierOf l
          match br.1 with
          | none => (s, .trap 0x15 0)
          | some bar =>
            issueEngine br.2 { seq := 0, cls := 1, scope := w.scope, after := 0, dst := d.base + Config.castTileBytes * k, src := (s.g.readK w.f.a.toNat).toNat
                               count := Config.castTileBytes, unit := Config.castTileBytes, dstT := some d, srcT := some c, tile := k, transp := transp, bar := bar
                               word0 := w.w0, word1 := w.w1.getD 0 }
    | _, _ => (s, .trap 0x14 0)) s

/-- `xcast`. -/
def execXcast (f : FForm) (l : SetLit) (s : State) : Answer := runXcast false l (mkWord shapeXcast f (.set l)) s
/-- `xcast.t`. -/
def execXcastT (f : FForm) (l : SetLit) (s : State) : Answer := runXcast true l (mkWord shapeXcastT f (.set l)) s

/-- No later load of the group at scopes other than G and C meets a line of the L1 filled before now. -/
def State.fresh (s : State) : State := { s with g := { s.g with notBefore := max s.g.notBefore s.mem.clock } }

/-- `xwait` (R264). No later load meets a line of the L1 older than what the operations read (R228). -/
def execXwait (f : FForm) (s : State) : Answer :=
  runWord (mkWord shapeXwait f) {} (fun s =>
    let cls := f.rnd.toNat
    if s.g.counter cls ≤ f.b.toNat then (s.fresh, .done) else (s, .hold .waitCounter (.counter cls f.b.toNat))) s

/-! ### Places and moves -/

/-- The places of a list of addresses, or the first translation that gives none, with its address. A window that R203 holds counts as a wait. -/
def State.runPlaces (s : State) (h : Group) (kind : AccessKind) : List Nat → Except (Nat × Trans) (List Loc) × State
  | [] => (.ok [], s)
  | va :: rest =>
    let r := s.translate h kind va
    match r.1 with
    | .ok l _ =>
      if (kind == .read && r.2.windowHeld l) || r.2.unlinked l then (.error (va, .residency), r.2)
      else
        let q := State.runPlaces r.2 h kind rest
        match q.1 with
        | .ok ls => (.ok (l :: ls), q.2)
        | .error e => (.error e, q.2)
    | t => (.error (va, t), r.2)

/-- The reuse class of a tensor's lines (R181). -/
def reuseOf (t : Option Tensor) : Nat := (t.map Tensor.reuse).getD 1

/-- One relaxed load and one relaxed store for each 8-byte element; nothing is stored once a tile has failed its check. The writes are an outside agent's to an open region of the group itself (R272). -/
def State.moveElems (s : State) (h : Group) (o : EngineOp) : List (Loc × Loc) → State
  | [] => s
  | (a, b) :: rest =>
    let move := fun (s : State) (i : Nat) =>
      let r := s.loadVerified { h.who with cls := reuseOf o.srcT } ⟨a.space, a.addr + i⟩ 8
      if r.2.alarmed then r.2 else r.2.storeAt { h.who with cls := reuseOf o.dstT } none false ⟨b.space, b.addr + i⟩ r.1
    State.moveElems (move (move s 0) 8) h o rest

/-- The 16-byte units of a run. -/
def unitsOf (a n : Nat) : List Nat := (List.range (n / 16)).map fun (i : Nat) => wrap64 (a + 16 * i)

/-- How an operation stands after its steps: the bytes completed, and the address and answer that stopped it. -/
structure Progress where
  bytes : Nat
  stop  : Option (Nat × Trans) := none
  lost  : Bool := false
  deriving DecidableEq, Repr

/-- The steps of a copy or gather from the byte reached on: destination offset and source of each step. -/
def State.moveSteps (h : Group) (o : EngineOp) : List (Nat × Nat) → Nat → State → Progress × State
  | [], done, s => ({ bytes := done }, s)
  | (off, src) :: rest, done, s =>
    let a := s.runPlaces h .read (unitsOf src o.unit)
    match a.1 with
    | .error e => ({ bytes := done, stop := some e }, a.2)
    | .ok as =>
      let b := a.2.runPlaces h .write (unitsOf (o.dst + off) o.unit)
      match b.1 with
      | .error e => ({ bytes := done, stop := some e }, b.2)
      | .ok bs =>
        let s := b.2.moveElems h o (as.zip bs)
        if s.alarmed then ({ bytes := done, stop := some (0, .hardware) }, s) else State.moveSteps h o rest (done + o.unit) s

/-- The steps of an operation, in order. -/
def EngineOp.steps (o : EngineOp) : List (Nat × Nat) :=
  if o.cls = 2 then o.rows else (List.range (o.count / 16)).map fun i => (16 * i, o.src + 16 * i)

/-! ### Collectives (R262, R263) -/

/-- FP32 combining: to nearest even, subnormals exact, NaN results canonical. -/
def collMode : W64 := 0x80

def fval32 (x : Nat) : FVal := readFp .f32 x

/-- One element of `add`, `max` or `min`. -/
def collWord (op ty a b : Nat) : Nat :=
  if ty = 1 then
    let x := intOf .i32 a
    let y := intOf .i32 b
    intBits .i32 (if op = 0 then x + y else if op = 1 then max x y else min x y)
  else if op = 0 then (fpOp .add .f32 1 0 collMode a b 0).bits
  else (fpMinMax (op == 1) .f32 collMode a b).bits

/-- The factor of a record with maximum x beside the combined maximum m. -/
def lseFactor (x m : FVal) : FVal :=
  match x, m with
  | .inf true, _ => .fin ⟨false, ⟨0, 1⟩⟩
  | .inf false, _ => .fin ⟨false, ⟨1, 1⟩⟩
  | _, .inf false => .fin ⟨false, ⟨0, 1⟩⟩
  | .fin a, .fin b => fval32 (transFinite .exp2 .f32 1 0 collMode 0 (Real.add 1 a b.neg')).bits
  | _, _ => .fin ⟨false, ⟨0, 1⟩⟩

/-- x1·a1 + x2·a2, rounded once; a factor of 0 contributes exactly 0. -/
def lseTerm (a1 a2 : FVal) (x1 x2 : Nat) : Nat :=
  let term := fun (a : FVal) (x : Nat) => if a.isZero then FVal.fin ⟨false, ⟨0, 1⟩⟩ else match fval32 x with
    | .nan s n f => .nan s n f
    | v => fpProduct v a
  if (term a1 x1).isNan || (term a2 x2).isNan then 0x7FC00000 else (fpAdd .f32 1 0 collMode [term a1 x1, term a2 x2] (term a1 x1) (term a2 x2)).bits

/-- Two `lse3` records. -/
def lseCombine (r1 r2 : List Nat) : List Nat :=
  let m1 := fval32 (r1.getD 0 0)
  let m2 := fval32 (r2.getD 0 0)
  if m1.isNan || m2.isNan then r1.map fun _ => 0x7FC00000
  else
    let m := (fpMinMax true .f32 collMode (r1.getD 0 0) (r2.getD 0 0)).bits
    let a1 := lseFactor m1 (fval32 m)
    let a2 := lseFactor m2 (fval32 m)
    m :: (r1.drop 1).zipWith (lseTerm a1 a2) (r2.drop 1)

/-- Combines two contributions of one unit: an element, or a record. -/
def EngineOp.combine (o : EngineOp) (a b : List Nat) : List Nat :=
  if o.op = 3 then lseCombine a b else a.zipWith (collWord o.op o.ty) b

/-- Adjacent pairs, an odd last one passing up. -/
def pairUp (f : List Nat → List Nat → List Nat) : List (List Nat) → List (List Nat)
  | a :: b :: r => f a b :: pairUp f r
  | l => l

def combineTree (f : List Nat → List Nat → List Nat) : (fuel : Nat) → List (List Nat) → List Nat
  | _, [] => []
  | _, [a] => a
  | 0, a :: _ => a
  | n + 1, l => combineTree f n (pairUp f l)

/-- Inserts a port in rising order. -/
def insertPort (x : Nat) : List Nat → List Nat
  | [] => [x]
  | y :: ys => if x ≤ y then x :: y :: ys else y :: insertPort x ys

/-- The ports on which contributions arrive at a switch, ascending. -/
def portsOf (cs : List (List Nat × List Nat)) : List Nat := ((cs.filterMap fun c => c.1.head?).eraseDups).foldr insertPort []

/-- The result of a switch (R262): the contributions in order of their ports, where that of a port with a downstream switch is that switch's own result. -/
def switchResult (f : List Nat → List Nat → List Nat) : (depth : Nat) → List (List Nat × List Nat) → List Nat
  | 0, cs => (cs.head?.map Prod.snd).getD []
  | n + 1, cs =>
    let behind := fun (p : Nat) => (cs.filter fun c => c.1.head? == some p).map fun (c : List Nat × List Nat) => (c.1.drop 1, c.2)
    let results := (portsOf cs).map fun p => match (behind p).find? fun c => c.1.isEmpty with
      | some c => c.2
      | none => switchResult f n (behind p)
    combineTree f results.length results

/-- Switches from a member up to the top, at most. -/
def treeDepth (cs : List (List Nat × List Nat)) : Nat := cs.foldl (fun n c => max n c.1.length) 0

/-- Has every other member joined the instance, alone or in the result of a switch between it and the place where it meets this device's contribution? -/
def State.collComplete (s : State) (o : EngineOp) (c : CollInput) : Bool :=
  match s.collPort o.coll with
  | none => false
  | some me => (s.collMembers o.coll).all fun m => m.1 == me.1 || c.parts.any fun p => p.1.isPrefixOf m.2 && !p.1.isPrefixOf me.2

/-- The result of the unit at byte offset `off` from this device's words and the other contributions, by the switch tree (R262, R407). A `bcast` whose root is no member has no datum to deliver: nothing is written (DESIGN CHOICE, log 75). -/
def State.collUnit (s : State) (o : EngineOp) (c : CollInput) (off : Nat) (own : List Nat) : List Nat :=
  let words := o.unit / 4
  let parts := c.parts.map fun p => (p.1, ((p.2.drop (off / 4)).take words).map BitVec.toNat)
  match s.collPort o.coll with
  | none => []
  | some me =>
    if o.op = 4 then
      if me.1 = o.root then own
      else match (s.collMembers o.coll).find? fun m => m.1 == o.root with
        | none => []
        | some root => ((parts.find? fun p => p.1.isPrefixOf root.2 && !p.1.isPrefixOf me.2).map Prod.snd).getD []
    else
      let cs := (me.2, own) :: parts.filter fun p => !p.1.isPrefixOf me.2
      switchResult o.combine (treeDepth cs + 1) cs

/-- The steps of a collective from offset `off` on, up to `limit` bytes. -/
def State.collSteps (h : Group) (o : EngineOp) (c : CollInput) (limit : Nat) : (fuel : Nat) → Nat → State → Progress × State
  | 0, off, s => ({ bytes := off }, s)
  | n + 1, off, s =>
    if o.count ≤ off then ({ bytes := off }, s)
    else if limit < off + o.unit then ({ bytes := off, lost := true }, s)
    else
      let addrs := fun (a : Nat) => (List.range (o.unit / 4)).map fun (i : Nat) => wrap64 (a + off + 4 * i)
      let reads := o.op != 4 || (s.collPort o.coll).any fun m => m.1 == o.root
      let a := if reads then s.runPlaces h .read (addrs o.src) else (.ok [], s)
      match a.1 with
      | .error e => ({ bytes := off, stop := some e }, a.2)
      | .ok as =>
        let b := a.2.runPlaces h .write (addrs o.dst)
        match b.1 with
        | .error e => ({ bytes := off, stop := some e }, b.2)
        | .ok bs =>
          let own := as.foldl (fun (acc : List Nat × State) l => let r := acc.2.loadVerified h.who l 4; (acc.1 ++ [leNat r.1], r.2)) ([], b.2)
          let res := own.2.collUnit o c off own.1
          if own.2.alarmed then ({ bytes := off, stop := some (0, .hardware) }, own.2)
          else
          let s := (bs.zip res).foldl (fun s x => s.storeAt h.who none false x.1 (leBytes 4 x.2)) own.2
          State.collSteps h o c limit n (off + o.unit) s

/-! ### Casts (R91, R289) -/

/-- A row-block of a cast tile: its scale code, and the sign and magnitude of each element. -/
structure RowBlock where
  code : Nat
  els  : List (Bool × Nat)
  deriving DecidableEq, Repr

/-- q of an element at block exponent e, and whether it is inexact. -/
def castQ (e : Int) (x : Mag) : Nat × Bool :=
  let y := x.scale (14 - e)
  let q := y.num / y.den
  let r := y.num % y.den
  let q' := if y.den < 2 * r || (y.den == 2 * r && q % 2 == 1) then q + 1 else q
  (min q' 32767, r != 0 || 32767 < q')

/-- The cast of a row-block (R91), with its flags. -/
def castBlock (xs : List FVal) : RowBlock × W64 :=
  if xs.any fun x => x.isNan || x.isInf then (⟨0xFF, xs.map fun _ => (false, 0)⟩, flagNV)
  else
    let mags := xs.filterMap fun x => match x with
      | .fin r => if r.isZero then none else some r.mag
      | _ => none
    match mags with
    | [] => (⟨0, xs.map fun _ => (false, 0)⟩, 0)
    | m :: ms =>
      let top : Int := ms.foldl (fun e x => max e x.log2) m.log2
      let e := min (max top (-127)) 127
      let qs := xs.map fun x => match x with
        | .fin r => if r.isZero then ((false, 0), false) else let q := castQ e r.mag; ((r.neg, q.1), q.2)
        | _ => ((false, 0), false)
      (⟨(e + 127).toNat, qs.map Prod.fst⟩, (if qs.any Prod.snd then flagNX else 0) ||| (if 127 < top then flagOF else 0))

/-- A word with bit k set where p holds of entry k. -/
def bitsWhere {α : Type} (p : α → Bool) (l : List α) : Nat := l.foldr (fun x acc => (if p x then 1 else 0) + 2 * acc) 0

/-- The bytes of a cast tile (Table 14-1) from its 64 rows of 4 blocks. -/
def castBytes (rows : List (List RowBlock)) : List Byte :=
  let plane := fun (p : Nat) => rows.flatMap fun r => r.flatMap fun b => leBytes 4 (bitsWhere (fun (e : Bool × Nat) => if p = 15 then e.1 else e.2.testBit p) b.els)
  ((List.range 16).flatMap plane) ++ rows.flatMap fun r => r.map fun b => BitVec.ofNat 8 b.code

/-- The datum of an element, its block scale apart. -/
def elemValue (t : ElemType) (bits : Nat) : FVal := if elemInt t then .fin (Real.ofInt (intOf t bits)) else readFp t bits

/-- A datum times its block scale: 0xFF makes it a NaN. -/
def scaled (v : FVal) (code : Nat) : FVal :=
  if code = 0xFF then .nan false false 0
  else match v with
    | .fin r => .fin ⟨r.neg, r.mag.scale ((code : Int) - 127)⟩
    | v => v

/-- The indexes of row r, column c of a tensor viewed as a matrix (R289); none outside it. -/
def Tensor.cell (t : Tensor) (r c : Nat) : Option (List Nat) :=
  let outer := (List.range t.rank).drop 1
  let rows := outer.foldl (fun acc i => acc * t.dim i) 1
  if t.dim 0 ≤ c || rows ≤ r then none
  else some (c :: (outer.foldl (fun (acc : List Nat × Nat) i => (acc.1 ++ [acc.2 % t.dim i], acc.2 / t.dim i)) ([], r)).1)

/-- One byte run read for an operation. -/
def State.engineRead (s : State) (h : Group) (cls va n : Nat) : Except (Nat × Trans) Nat × State :=
  let r := s.runPlaces h .read [va]
  match r.1 with
  | .error e => (.error e, r.2)
  | .ok ls =>
    let q := r.2.loadVerified { h.who with cls := cls } (ls.headD ⟨.hbm, 0⟩) n
    (.ok (leNat q.1), q.2)

/-- The exact value of a source element of a cast; 0 outside the source. -/
def State.sourceElem (s : State) (h : Group) (t : Tensor) (r c : Nat) : Except (Nat × Trans) FVal × State :=
  match t.cell r c, elemOf t.fmt with
  | some idx, some ty =>
    let w := elemWidth ty
    let e := s.engineRead h t.reuse (t.addr idx) (max 1 (w / 8))
    match e.1 with
    | .error x => (.error x, e.2)
    | .ok b =>
      let v := elemValue ty (if w = 4 then b / 16 ^ (c % 2) % 16 else b)
      if elemMx ty then
        let k := e.2.engineRead h t.reuse (t.scaleAddr idx) 1
        match k.1 with
        | .error x => (.error x, k.2)
        | .ok code => (.ok (scaled v code), k.2)
      else (.ok v, e.2)
  | _, _ => (.ok (.fin ⟨false, ⟨0, 1⟩⟩), s)

/-- The sources of a row-block. Elements beyond ROWS and KDIM of the destination are zeros (R282). -/
def State.castRow (h : Group) (o : EngineOp) (src dst : Tensor) (rt kt i b : Nat) : List Nat → State → Except (Nat × Trans) (List FVal) × State
  | [], s => (.ok [], s)
  | k0 :: ks, s =>
    let k := 32 * b + k0
    let row0 := o.src % 2 ^ 32
    let col0 := o.src / 2 ^ 32
    let here := if dst.dim 1 ≤ 64 * rt + i || dst.dim 0 ≤ 128 * kt + k then (.ok (.fin ⟨false, ⟨0, 1⟩⟩), s)
      else if o.transp then s.sourceElem h src (row0 + 128 * kt + k) (col0 + i)
      else s.sourceElem h src (row0 + i) (col0 + 128 * kt + k)
    match here.1 with
    | .error e => (.error e, here.2)
    | .ok v =>
      let q := State.castRow h o src dst rt kt i b ks here.2
      match q.1 with
      | .error e => (.error e, q.2)
      | .ok vs => (.ok (v :: vs), q.2)

/-- Every row-block of the tile, row by row, with the flags. -/
def State.castAll (h : Group) (o : EngineOp) (src dst : Tensor) (rt kt : Nat) : List (Nat × Nat) → State → Except (Nat × Trans) (List RowBlock × W64) × State
  | [], s => (.ok ([], 0), s)
  | (i, b) :: rest, s =>
    let r := State.castRow h o src dst rt kt i b laneNumbers s
    match r.1 with
    | .error e => (.error e, r.2)
    | .ok xs =>
      let q := State.castAll h o src dst rt kt rest r.2
      match q.1 with
      | .error e => (.error e, q.2)
      | .ok (bs, fl) =>
        let c := castBlock xs
        (.ok (c.1 :: bs, c.2 ||| fl), q.2)

/-- Lists of four. -/
def fours {α : Type} : List α → List (List α)
  | a :: b :: c :: d :: r => [a, b, c, d] :: fours r
  | _ => []

/-- A whole cast: every read, then the tile and the flags. -/
def State.castStep (s : State) (h : Group) (o : EngineOp) : Progress × State :=
  match o.srcT, o.dstT with
  | some src, some dst =>
    match s.castTile h dst o.tile with
    | none => ({ bytes := 0, stop := some (o.dst, .fault 0x0A) }, s)
    | some (core, off, rt, kt) =>
      let r := State.castAll h o src dst rt kt ((List.range 64).flatMap fun i => (List.range 4).map fun b => (i, b)) s
      match r.1 with
      | .error e => ({ bytes := 0, stop := some e }, r.2)
      | .ok (bs, fl) =>
        if r.2.alarmed then ({ bytes := 0, stop := some (0, .hardware) }, r.2)
        else
        let s := r.2.storeRun h.who ⟨.spad core, off⟩ (castBytes (fours bs))
        ({ bytes := o.count }, s.mapGroups (fun x => x.uid == h.uid) fun x => x.lateFlags fl)
  | _, _ => ({ bytes := o.count }, s)

/-! ### Completion (R227, R228, R257) -/

/-- Have the accesses issued before request number n been performed? -/
def Group.earlierDone (g : Group) (n : Nat) : Bool := g.reqs.all fun r => n ≤ r.id || r.elems.all fun e => e.done

/-- Ends a wait of the group with this uid that the counters or batches now satisfy. -/
def State.settleWaits (s : State) (uid : Nat) : State :=
  match s.group? uid with
  | some h => match h.wait with
    | .counter cls n => if h.counter cls ≤ n then s.wake uid else s
    | .batch b => if b ≤ h.lastBatch then s.wake uid else s
    | _ => s
  | none => s

/-- The asynchronous fault of an operation; the resume PC is known when it is taken. -/
def EngineOp.faultRec (o : EngineOp) (code addr bytes : Nat) : FaultRec :=
  { code := code, async := true, replay := 0, pc := 0, word0 := o.word0, word1 := o.word1, lit := true, addr := BitVec.ofNat 64 addr, done := bytes }

/-- Puts an operation back and lets its class drain. -/
def State.putOp (s : State) (uid : Nat) (o : EngineOp) : State :=
  let s := s.mapGroups (fun h => h.uid == uid) fun h => Group.drainOps { h with ops := h.ops.map fun x => if x.seq = o.seq then o else x } o.cls
  s.settleWaits uid

/-- What stopped an operation: a fault ends it, a wait leaves it to go on later. -/
def EngineOp.stopped (o : EngineOp) (p : Progress) : EngineOp :=
  match p.stop with
  | some (va, .fault code) => { o with bytes := p.bytes, ended := true, fault := some (o.faultRec code va p.bytes) }
  | some (va, .hostPage f) => { o with bytes := p.bytes, awaits := some f, asked := va }
  | some _ => { o with bytes := p.bytes, awaits := none }
  | none =>
    if p.lost then { o with bytes := p.bytes, ended := true, fault := some (o.faultRec 0x15 0 p.bytes) }
    else { o with bytes := p.bytes, ended := true, awaits := none }

/-- The steps of an operation that are left, run. -/
def State.runOp (s : State) (h : Group) (o : EngineOp) (c : CollInput) : Progress × State :=
  match o.cls with
  | 1 => s.castStep h o
  | 3 =>
    if c.mismatch then ({ bytes := 0, lost := true }, s)
    else if s.collComplete o c then
      let r := State.collSteps h o c (match c.lost with
        | some n => min n o.count
        | none => o.count) (o.count / 4 + 1) o.bytes s
      ({ r.1 with lost := r.1.lost || c.lost.isSome }, r.2)
    else if c.lost.isSome then ({ bytes := o.bytes, lost := true }, s)
    else ({ bytes := o.bytes, stop := some (0, .residency) }, s)
  | _ => State.moveSteps h o (o.steps.drop (o.bytes / o.unit)) o.bytes s

/-- An engine operation completes: its accesses are made, its counter falls in its turn, and it arrives on its barrier. It runs once the group's earlier accesses are performed and UNVER is 0; a pre-empted or parked group's operation runs on (R258). -/
def execEngineCompletion (uid op : Nat) (coll : CollInput) (s : State) : Answer :=
  answer <| match (s.group? uid).bind fun h => (h.ops.find? fun o => o.seq == op && !o.ended).map fun o => (h, o) with
    | some (h, o) =>
      if h.unver || !h.earlierDone o.after then s
      else
        let r := s.runOp h o coll
        let o' := o.stopped r.1
        let s1 := r.2.putOp uid o'
        let s1 := if o'.ended then s1.progress h.part h.ctx else s1
        if o'.ended && o'.fault.isNone then s1.arriveBar h o else s1
    | none => s

/-! ### Leaving a wait (R257, R305, R315) -/

/-- A group leaves the lists in which it waits, and a promotion that it asked for is over; a word that an agent was to complete will issue again. -/
def State.withdraw (s : State) (uid : Nat) : State :=
  let others := fun (l : List Nat) => l.filter fun x => x != uid
  let work := { s.work with queues := s.work.queues.map fun q => { q with popWait := others q.popWait }
                            hqWait := s.work.hqWait.filter fun x => x.uid != uid }
  let parts := s.tabs.parts.map fun (e : Nat × Partition) => (e.1, { e.2 with poolWait := others e.2.poolWait })
  let s := { s with work := work, tabs := { s.tabs with parts := parts }, units := { s.units with evWait := others s.units.evWait } }
  let s := s.mapGroups (fun h => h.promote.any fun p => p.1 == uid) fun h => { h with promote := h.promote.filter fun p => p.1 != uid }
  let was := s.group? uid
  let s := s.mapGroups (fun h => h.uid == uid) fun h => { h.untake with sent := none, arrival := none, resume := none, assist := none, wait := .none }
  match was with
  | none => s
  | some h => match h.wait with
    | .barrier e _ => s.putHead h.part e none
    | _ => s

/-- An asynchronous fault at an instruction boundary of the group with this uid: the resume PC is its PC. -/
def State.takeAsync (s : State) (uid : Nat) (r : FaultRec) : State :=
  let own := s.g.uid
  let s1 := (s.withdraw uid).checkout uid
  let g := s1.g
  let sp := max 3 g.lastSpace
  let q := s1.trapRec { r with pc := g.pc } (sp - g.lastSpace)
  let s2 := { q.1 with g := { q.1.g with lastSpace := sp } }
  (if q.2 then s2.broken s2.g else s2).checkout own

/-- Does the group stand at an instruction boundary where a pending fault is taken? A word under way at an agent, a rendezvous, and a replayed word are not one. -/
def Group.atBoundary (g : Group) : Bool :=
  !g.sup && !g.inreg && g.replay.isNone && !(g.promote.any Prod.snd)
    && !([SlotState.free, .launching, .parked, .preempted, .retired, .waitGang, .waitPair] : List SlotState).contains g.st
    && (match g.wait with
      | .assist | .faultAfter _ _ _ _ | .inval _ | .promote _ | .escalated => false
      | _ => true)

/-- The group takes its oldest pending engine or matrix fault (R257, R299). -/
def execAsyncFaultTake (uid : Nat) (s : State) : Answer :=
  answer <| match s.group? uid with
    | some h => match h.pendFaults with
      | f :: fs => if h.atBoundary then (s.putGroup { h with pendFaults := fs }).takeAsync uid f.2 else s
      | [] => s
    | none => s

end Sys2Proof.Machine
end

