-- ==== Sys2Proof/Machine/Matrix.lean ====
section
/-! DEFINITION. The matrix unit: the gang latch, the acceptance and completion of operations, batches, accumulation, loading and pouring of accumulator tiles (R284 to R288, R291 to R299, R89, R96). -/

namespace Sys2Proof.Machine

open Sys2Proof

/-! ### Acceptance (R284, R285) -/

/-- A slice of a group in its open batch. -/
def Group.slice (g : Group) (z : Nat) (word0 word1 : W64) : Slice :=
  { uid := g.uid, seq := g.nextOp, batch := g.batch, after := g.nextReq, z := z, mode := g.mode, word0 := word0, word1 := word1 }

/-- The group has an operation more, in its open batch. -/
def Group.joinBatch (g : Group) : Group := { g with nextOp := g.nextOp + 1, matOps := g.matOps ++ [(g.nextOp, g.batch)], arrival := none }

/-- The unit of a quadrant accepts an operation. -/
def State.accept (s : State) (quad : Nat) (o : MatOp) : State :=
  let q := s.quad quad
  s.setQuad quad { q with mat := q.mat ++ [o] }

/-- Does the group have 16 operations not complete? -/
def Group.matFull (g : Group) : Bool := 16 ≤ g.matOps.length

/-- An operation of one group is accepted at issue. -/
def issueMat (s : State) (o : MatOp) : State × Flow :=
  if s.g.matFull then (s, .hold .waitStall (.until_ .matrix))
  else ({ s.accept s.g.quad o with g := s.g.joinBatch }, .done)

/-! ### mma and the gang latch (R286, R287, R291) -/

/-- A tile in the aperture slot of the group's own core, as a scratchpad offset. -/
def State.ownTile (s : State) (t : Tensor) (k : W64) : Option Nat :=
  match s.castTile s.g t k.toNat with
  | some (core, off, _, _) => if core = s.g.core then some off else none
  | none => none

/-- The groups in the listed quadrant slots of a group. -/
def State.listed (s : State) (g : Group) : List (Option Group) := (gangSlots g.gang).map fun e => s.groupAt g.core (48 * g.qd + e)

/-- Has a group arrived at the latch? -/
def Group.arrived (h : Group) : Bool := h.arrival.isSome

/-- Is a listed slot without a group of the context and block? -/
def State.gangHole (s : State) (g : Group) : Bool :=
  (s.listed g).any fun m => match m with
    | some h => h.part != g.part || h.ctx != g.ctx || h.blk != g.blk
    | none => true

/-- The groups of its own block and context in the slots that a group lists. -/
def State.fellows (s : State) (g : Group) : List Group := ((s.listed g).filterMap id).filter fun h => h.part == g.part && h.ctx == g.ctx && h.blk == g.blk

/-- The arrived members of a group's gang. -/
def State.arrivedListed (s : State) (g : Group) : List Group := (s.fellows g).filter Group.arrived

/-- What the latch compares (R286): N and the set of members, A tensor and tile, planes, RND. -/
def sameArrival (x y : Group) : Bool :=
  match x.arrival, y.arrival with
  | some a, some b =>
    let m := gangSlots x.gang
    let n := gangSlots y.gang
    gangSize x.gang == gangSize y.gang && m.all (fun e => n.contains e) && n.all (fun e => m.contains e)
      && a.ta == b.ta && a.ka == b.ka && a.pa == b.pa && a.pb == b.pb && a.rnd == b.rnd
  | _, _ => false

/-- The members of a rendezvous that lists the arriving group and in which every listed group has arrived, in GANG order. -/
def State.rendezvous (s : State) (g : Group) : Option (List Group) :=
  let full := fun (x : Group) =>
    let ms := s.fellows x
    ms.length == (gangSlots x.gang).length && ms.all Group.arrived && ms.any fun m => m.uid == g.uid
  ((g :: s.groups.filter fun h => h.arrived && h.quad == g.quad && h.part == g.part && h.ctx == g.ctx && h.blk == g.blk).find? full).map s.fellows

/-- The slice of an arrived member. -/
def Group.gangSlice (g : Group) : Option Slice :=
  g.arrival.map fun a => { (g.slice a.z a.word0 a.word1) with b := a.b, pb := a.pb, rm := roundingMode a.rnd g.mode }

/-- The members' arrivals become one operation: each joins its open batch, and the waiting ones go on. -/
def State.acceptGang (s : State) (members : List Group) : State :=
  let a := (s.g.arrival.map fun a => (a.a, a.pa)).getD (0, 1)
  let s1 := s.accept s.g.quad { kind := 0, core := s.g.core, slices := members.filterMap Group.gangSlice, a := a.1, pa := a.2 }
  members.foldl (fun s m =>
    let s := s.mapGroups (fun h => h.uid == m.uid) Group.joinBatch
    if m.uid = s.g.uid then s else s.completeWait m.uid) s1

/-- Waiting members leave the latch with a fault each. -/
def State.breakGang (s : State) (code : Nat) (uids : List Nat) : State :=
  let r := uids.foldl (fun (acc : State × List Nat) u => let q := acc.1.faultWaiter u code 1; (q.1, if q.2 then acc.2 ++ [u] else acc.2)) (s, [])
  r.2.foldl (fun s u => match s.group? u with
    | some h => s.broken h
    | none => s) r.1

/-- An arrival at the latch. -/
def State.arrive (s : State) : State × Flow :=
  let me := s.g.uid
  if s.gangHole s.g then
    let others := ((s.arrivedListed s.g).map Group.uid).filter fun u => u != me
    (s.breakGang 0x0F others, .lanes none 0x0F 1 0)
  else match s.rendezvous s.g with
    | none => (s, .wait .waitGang .gang)
    | some ms =>
      if ms.all fun m => sameArrival s.g m then (s.acceptGang ms, .done)
      else (s.breakGang 0x10 ((ms.map Group.uid).filter fun u => u != me), .lanes none 0x10 1 0)

/-- `mma` (R291). -/
def execMma (f : FForm) (l : SetLit) (s : State) : Answer :=
  let w := mkWord shapeMma f (.set l)
  runWord w {} (fun s =>
    let t1 := s.tensor s.g l.t1.toNat
    let t2 := t1.2.tensor s.g l.t2.toNat
    match t1.1, t2.1 with
    | some ta, some tb =>
      if !ta.planar || !tb.planar then (s, .trap 0x14 0)
      else
        let ka := s.g.readK f.a.toNat
        let pa := if l.p1 = 0 then ta.planes else l.p1.toNat
        let pb := if l.p2 = 0 then tb.planes else l.p2.toNat
        match t2.2.ownTile ta ka, t2.2.ownTile tb (s.g.readK f.b.toNat) with
        | some a, some b =>
          if pa = 0 || 15 < pa || pb = 0 || 15 < pb then (s, .trap 0x04 0)
          else if s.g.matFull then (s, .hold .waitStall (.until_ .matrix))
          else
            let arr : Arrival := { ta := l.t1.toNat, ka := ka, pa := pa, pb := pb, rnd := f.rnd.toNat, a := a, b := b, z := f.d.toNat, word0 := w.w0, word1 := w.w1.getD 0 }
            let s1 := { t2.2 with g := { t2.2.g with arrival := some arr } }
            if gangSize s.g.gang < 2 then (s1.acceptGang [s1.g], .done) else s1.arrive
        | _, _ => (s, .trap 0x04 0)
    | _, _ => (s, .trap 0x14 0)) s

/-- `mzero` (R293). -/
def execMzero (f : FForm) (s : State) : Answer :=
  let w := mkWord shapeMzero f
  runWord w {} (fun s => issueMat s { kind := 1, core := s.g.core, slices := [s.g.slice f.d.toNat w.w0 0] }) s

/-- `mload` (R294). -/
def execMload (f : FForm) (l : SetLit) (s : State) : Answer :=
  let w := mkWord shapeMload f (.set l)
  runWord w {} (fun s =>
    let t := s.tensor s.g l.t1.toNat
    match t.1 with
    | some x =>
      if x.planar || x.fmt != 8 || x.rank != 2 then (s, .trap 0x14 0)
      else issueMat t.2 { kind := 2, core := s.g.core, slices := [s.g.slice f.d.toNat w.w0 (w.w1.getD 0)], origin := s.g.readK f.a.toNat, tel := some x }
    | none => (s, .trap 0x14 0)) s

/-- `mpour` (R295). -/
def execMpour (f : FForm) (l : SetLit) (s : State) : Answer :=
  let w := mkWord shapeMpour f (.set l)
  runWord w {} (fun s =>
    let ty := f.xf.toNat
    let mx := 13 ≤ ty
    let t1 := s.tensor s.g l.t1.toNat
    let t2 := t1.2.tensorOpt s.g l.t2.toNat
    let org := s.g.readK f.a.toNat
    match t1.1, t2.1 with
    | some tel, some tsc =>
      let scaleOk := match tsc with
        | some x => mx && !x.planar && x.fmt == 19 && x.rank == 2
        | none => !mx
      if tel.planar || tel.fmt != ty || tel.rank != 2 || !scaleOk then (s, .trap 0x14 0)
      else if mx && (if l.p1 = 1 then org.toNat % 2 ^ 32 else org.toNat / 2 ^ 32) % 32 != 0 then (s, .trap 0x08 0)
      else
        let sl := { (s.g.slice f.d.toNat w.w0 (w.w1.getD 0)) with rm := roundingMode f.rnd.toNat s.g.mode }
        issueMat t2.2 { kind := 3, core := s.g.core, slices := [sl], origin := org, tel := some tel, tsc := tsc, axis := l.p1.toNat, clr := l.p2 == 1, ty := ty }
    | _, _ => (s, .trap 0x14 0)) s

/-- `mfence` (R297). -/
def execMfence (f : FForm) (s : State) : Answer :=
  let w := mkWord shapeMfence f
  runWord w {} (fun s => ({ s with g := (s.g.setK w.lat f.d.toNat (BitVec.ofNat 64 s.g.batch)).closeBatch }, .done)) s

/-- `mwait` (R298). No later load meets a line of the L1 older than what the operations read (R229). -/
def execMwait (f : FForm) (s : State) : Answer :=
  runWord (mkWord shapeMwait f) {} (fun s =>
    let b := (s.g.readK f.a.toNat).toNat
    if s.g.batch ≤ b then (s, .trap 0x04 0)
    else if b ≤ s.g.lastBatch then (s.fresh, .done)
    else (s, .hold .waitBatch (.batch b))) s

/-! ### Accumulator tiles (Table 9-4) -/

/-- The 4,096 elements of a tile, row by row. -/
def State.accTile (s : State) (quad tile : Nat) : List Nat :=
  let m := tget [] s.mem.acc quad
  (List.range 4096).map fun n => mnat m (0x4000 * tile + 4 * n) 4

def State.setAccTile (s : State) (quad tile : Nat) (xs : List Nat) : State :=
  let m := msetBytes (tget [] s.mem.acc quad) (0x4000 * tile) (xs.flatMap (leBytes 4))
  { s with mem := { s.mem with acc := tset [] s.mem.acc quad m } }

/-- The physical tile of an accumulator name. -/
def Group.tileOf (g : Group) (z : Nat) : Nat := g.tiles.getD z 0

/-! ### Accumulation (R92, R96) -/

/-- A cast tile read at p planes: for each row and block, the scale code and the signed truncated q of its 32 elements. -/
def State.readCast (s : State) (core off p : Nat) : List (List (Nat × List Int)) :=
  let m := tget [] s.mem.spad core
  (List.range 64).map fun i => (List.range 4).map fun b =>
    let word := fun n => mnat m (off + 1024 * n + 16 * i + 4 * b) 4
    let planes := ((List.range 15).filter fun n => 15 - p ≤ n).map fun n => (n, word n)
    let sign := word 15
    (mnat m (off + 16384 + 4 * i + b) 1, laneNumbers.map fun k =>
      let q := planes.foldl (fun acc x => if x.2.testBit k then acc + 2 ^ x.1 else acc) 0
      if sign.testBit k then -(q : Int) else q)

def dot (xs ys : List Int) : Int := (xs.zipWith (fun x y => x * y) ys).foldl (fun acc x => acc + x) 0

/-- A slice under way: generators, flags, and the number of steps taken; `stop` where an absent assist ended it (R299). -/
structure MmaRun where
  gens  : List W32
  flags : W64 := 0
  steps : Nat := 0
  stop  : Bool := false
  deriving DecidableEq, Repr

/-- One step of R96 on element value x of column j. -/
def mmaStep (assist : Bool) (sl : Slice) (a b : Nat × List Int) (j : Nat) (x : Nat) (r : MmaRun) : Nat × MmaRun :=
  if r.stop then (x, r)
  else
    let l := j % 32
    let next := if sl.rm = 6 then drawNext (genAt r.gens l) else genAt r.gens l
    let gens := if sl.rm = 6 then r.gens.set l next else r.gens
    let done := { r with gens := gens, steps := r.steps + 1 }
    if a.1 = 0xFF || b.1 = 0xFF then (0x7FC00000, { done with flags := r.flags ||| flagNV })
    else
      let sum := dot a.2 b.2
      if sum = 0 then (x, done)
      else
        let acc := readMode .f32 sl.mode x
        let term : Real := ⟨sum < 0, (⟨sum.natAbs, 1⟩ : Mag).scale ((a.1 : Int) + b.1 - 282)⟩
        let res := fpAdd .f32 sl.rm next.toNat sl.mode [acc] acc (.fin term)
        if res.tiny && !assist then (x, { r with stop := true })
        else (res.bits, { done with flags := r.flags ||| res.flags })

/-- The steps of one K-block over the elements of a tile, n onward. -/
def mmaBlock (assist : Bool) (sl : Slice) (as bs : List (Nat × List Int)) : (n : Nat) → List Nat → MmaRun → List Nat × MmaRun
  | _, [], r => ([], r)
  | n, x :: xs, r =>
    let q := mmaStep assist sl (as.getD (n / 64) (0, [])) (bs.getD (n % 64) (0, [])) (n % 64) x r
    let t := mmaBlock assist sl as bs (n + 1) xs q.2
    (q.1 :: t.1, t.2)

/-- A whole slice: K-blocks 0 to 3 in order. -/
def mmaSlice (assist : Bool) (sl : Slice) (ta tb : List (List (Nat × List Int))) (acc : List Nat) (gens : List W32) : List Nat × MmaRun :=
  (List.range 4).foldl (fun (st : List Nat × MmaRun) b =>
    mmaBlock assist sl (ta.map fun r => r.getD b (0, [])) (tb.map fun r => r.getD b (0, [])) 0 st.1 st.2) (acc, { gens := gens })

/-! ### Completion (R284, R285, R299) -/

/-- The asynchronous fault of a matrix operation. -/
def Slice.faultRec (sl : Slice) (code addr done : Nat) (lit : Bool) : FaultRec :=
  { code := code, async := true, replay := 0, pc := 0, word0 := sl.word0, word1 := sl.word1, lit := lit, addr := BitVec.ofNat 64 addr, done := done }

/-- The operation of a slice has ended in its group: its flags and fault wait for the batch. -/
def State.endSlice (s : State) (sl : Slice) (flags : W64) (fault : Option FaultRec) : State :=
  let out : BatchOut := { batch := sl.batch, flags := flags, faults := (fault.map fun f => (sl.seq, f)).toList }
  let s1 := s.mapGroups (fun h => h.uid == sl.uid) fun h =>
    let h := { h with matOps := h.matOps.filter fun o => o.1 != sl.seq, batchOut := h.batchOut ++ [out] }
    h.settleBatches (h.batch - h.lastBatch)
  match s1.group? sl.uid with
  | some h => (s1.settleWaits sl.uid).progress h.part h.ctx
  | none => s1

/-- The slice of an `mma` acts on its tile. Its stochastic draws come from the generators of its group at this moment, when the operation completes (R291 gives their order within the operation alone; DESIGN CHOICE, log 77). -/
def State.runSlice (o : MatOp) (s : State) (sl : Slice) : State :=
  match s.group? sl.uid with
  | none => s
  | some h =>
    let tile := h.tileOf sl.z
    let r := mmaSlice s.plat.assistOk sl (s.readCast o.core o.a o.pa) (s.readCast o.core sl.b sl.pb) (s.accTile h.quad tile) h.gens
    let s := (s.setAccTile h.quad tile r.1).mapGroups (fun x => x.uid == h.uid) fun x => { x with gens := r.2.gens }
    s.endSlice sl r.2.flags (if r.2.stop then some (sl.faultRec 0x0E 0 r.2.steps true) else none)

/-- Reads the elements of an `mload`; 0 outside the source. -/
def State.loadTile (h : Group) (o : MatOp) (t : Tensor) : List Nat → State → Except (Nat × Trans) (List Nat) × State
  | [], s => (.ok [], s)
  | n :: ns, s =>
    let e := match t.cell (o.origin.toNat % 2 ^ 32 + n / 64) (o.origin.toNat / 2 ^ 32 + n % 64) with
      | some idx => s.engineRead h t.reuse (t.addr idx) 4
      | none => (.ok 0, s)
    match e.1 with
    | .error x => (.error x, e.2)
    | .ok v =>
      let q := State.loadTile h o t ns e.2
      match q.1 with
      | .error x => (.error x, q.2)
      | .ok vs => (.ok (v :: vs), q.2)

/-! ### Pouring (R89, R295) -/

/-- emax of an MX element type (Table 5-5). -/
def emaxOf : ElemType → Int
  | .e4m3 => 8
  | .e5m2 => 15
  | .e3m2 => 4
  | .e2m3 | .e2m1 => 2
  | _ => 0

/-- The blocks of a pour in loop order, each as the cells (i, j) of its 32 values, with the tile rows complete before it. -/
def pourBlocks (axis : Nat) : List (Nat × List (Nat × Nat)) :=
  if axis = 1 then (List.range 2).flatMap fun o => (List.range 64).map fun n => (32 * o, laneNumbers.map fun k => (32 * o + k, n))
  else (List.range 64).flatMap fun o => (List.range 2).map fun n => (o, laneNumbers.map fun k => (o, 32 * n + k))

/-- The draws of 32 elements, one from G(j mod 32) each, in order; an element beyond the tensor's edge, which is not written, draws as well (R295 against R85; DESIGN CHOICE, log 78). -/
def pourDraws (rm : Nat) : List (Nat × Nat) → List W32 → List Nat × List W32
  | [], gens => ([], gens)
  | (_, j) :: cs, gens =>
    let x := if rm = 6 then drawNext (genAt gens (j % 32)) else 0
    let q := pourDraws rm cs (if rm = 6 then gens.set (j % 32) x else gens)
    (x.toNat :: q.1, q.2)

/-- The scale code and elements of an MX block (R89). -/
def mxBlock (t : ElemType) (rm : Nat) (vals draws : List Nat) : Nat × List Nat × W64 :=
  let vs := vals.map (readFp .f32)
  if vs.any fun v => v.isNan || v.isInf then (0xFF, vals.map fun _ => 0, flagNV)
  else
    let logs := vs.filterMap fun v => match v with
      | .fin r => if r.isZero then none else some r.mag.log2
      | _ => none
    let x : Int := match logs with
      | [] => 0
      | e :: es => min (max (es.foldl max e - emaxOf t) (-127)) 127
    let els := vs.zipWith (fun v g => match v with
      | .fin r => roundTo t ⟨r.neg, r.mag.scale (-x)⟩ false rm g 0x40
      | _ => { bits := 0 }) draws
    (if logs.isEmpty then 0 else (x + 127).toNat, els.map FRes.bits, els.foldl (fun acc r => acc ||| (r.flags &&& ~~~flagOF)) 0)

/-- The elements of a block of a type that is not MX; `.f32` copies bit for bit. -/
def plainBlock (t : ElemType) (rm : Nat) (mode : W64) (vals draws : List Nat) : List Nat × W64 :=
  if t = .f32 then (vals, 0)
  else
    let rs := vals.zipWith (fun v g => convertElem t .f32 rm g mode v) draws
    (rs.map FRes.bits, rs.foldl (fun acc r => acc ||| r.flags) 0)

/-- One write of a pour: its address, its bytes, the half of a byte it fills if it is a nibble, and its value. -/
structure PourWrite where
  addr : Nat
  size : Nat
  half : Option Nat
  val  : Nat
  deriving DecidableEq, Repr

/-- The write of one element into a tensor; none outside it. -/
def pourCell (t : Tensor) (r c v : Nat) : Option PourWrite :=
  (t.cell r c).map fun idx =>
    let w := fmtWidth t.fmt
    { addr := t.addr idx, size := max 1 (w / 8), half := if w = 4 then some (c % 2) else none, val := v }

def State.pourWrite (s : State) (h : Group) (cls : Nat) (x : Loc × PourWrite) : State :=
  let w := { h.who with cls := cls }
  match x.2.half with
  | none => s.storeAt w none false x.1 (leBytes x.2.size x.2.val)
  | some k =>
    let r := s.loadVerified w x.1 1
    let old := leNat r.1
    if r.2.alarmed then r.2
    else r.2.storeAt w none false x.1 (leBytes x.2.size (if k = 0 then old / 16 * 16 + x.2.val % 16 else old % 16 + 16 * (x.2.val % 16)))

/-- A pour under way. -/
structure PourRun where
  gens  : List W32
  flags : W64 := 0
  stop  : Option (Nat × Nat × Trans) := none   -- rows complete, address, answer
  deriving DecidableEq, Repr

/-- The blocks of a pour, in order, up to the first whose places do not translate. The flags of all 32 values of a block count, those beyond the edge of the tensor too (DESIGN CHOICE, log 106). -/
def State.pourAll (h : Group) (o : MatOp) (sl : Slice) (tel : Tensor) (acc : List Nat) : List (Nat × List (Nat × Nat)) → PourRun → State → PourRun × State
  | [], r, s => (r, s)
  | (rows, cells) :: rest, r, s =>
    let ty := (elemOf o.ty).getD .f32
    let row0 := o.origin.toNat % 2 ^ 32
    let col0 := o.origin.toNat / 2 ^ 32
    let d := pourDraws sl.rm cells r.gens
    let vals := cells.map fun c => acc.getD (64 * c.1 + c.2) 0
    let els := match o.tsc with
      | some _ => mxBlock ty sl.rm vals d.1
      | none => let q := plainBlock ty sl.rm sl.mode vals d.1; (0, q.1, q.2)
    let c0 := cells.headD (0, 0)
    let scale := match o.tsc with
      | some t => (if o.axis = 1 then pourCell t (row0 / 32 + c0.1 / 32) (col0 + c0.2) els.1 else pourCell t (row0 + c0.1) (col0 / 32 + c0.2 / 32) els.1).toList
      | none => []
    let ws := scale ++ (cells.zip els.2.1).filterMap fun x => pourCell tel (row0 + x.1.1) (col0 + x.1.2) x.2
    let p := s.runPlaces h .write (ws.map PourWrite.addr)
    match p.1 with
    | .error e => ({ r with stop := some (rows, e.1, e.2) }, p.2)
    | .ok ls =>
      let s := (ls.zip ws).foldl (fun s x => s.pourWrite h tel.reuse x) p.2
      State.pourAll h o sl tel acc rest { gens := d.2, flags := r.flags ||| els.2.2 } s

/-- The first operation of a quadrant's unit leaves it. -/
def State.popMat (s : State) (quad : Nat) : State :=
  let q := s.quad quad
  s.setQuad quad { q with mat := q.mat.drop 1 }

/-- The first operation stays, waiting for a translation. -/
def State.holdMat (s : State) (quad : Nat) (t : Trans) : State :=
  let q := s.quad quad
  let awaits := match t with
    | .hostPage f => some f
    | _ => none
  s.setQuad quad { q with mat := match q.mat with
    | o :: os => { o with awaits := awaits } :: os
    | [] => [] }

/-- An operation of one group runs: `mzero`, `mload` or `mpour`. A host page that was refused to it is absent (R192). -/
def State.runMat (s : State) (quad : Nat) (h : Group) (o : MatOp) (sl : Slice) : State :=
  let h := { h with refused := o.refused }
  let tile := h.tileOf sl.z
  match o.kind, o.tel with
  | 2, some t =>
    let r := State.loadTile h o t (List.range 4096) s
    match r.1 with
    | .ok vs => if r.2.alarmed then r.2 else (r.2.popMat quad |>.setAccTile quad tile vs).endSlice sl 0 none
    | .error (va, .fault code) => (r.2.popMat quad).endSlice sl 0 (some (sl.faultRec code va 0 true))
    | .error (_, t) => r.2.holdMat quad t
  | 3, some t =>
    let r := State.pourAll h o sl t (s.accTile quad tile) (pourBlocks o.axis) { gens := h.gens } s
    let keep := fun (s : State) => s.mapGroups (fun x => x.uid == h.uid) fun x => { x with gens := r.1.gens }
    match r.1.stop with
    | none =>
      let s1 := keep r.2
      let s2 := if o.clr then s1.setAccTile quad tile (List.replicate 4096 0) else s1
      (s2.popMat quad).endSlice sl r.1.flags none
    | some (rows, va, .fault code) => ((keep r.2).popMat quad).endSlice sl r.1.flags (some (sl.faultRec code va rows true))
    | some (_, _, t) => s.holdMat quad t
  | _, _ => ((s.popMat quad).setAccTile quad tile (List.replicate 4096 0)).endSlice sl 0 none

/-- The matrix unit of a quadrant completes its oldest operation. It runs once the members' earlier accesses are performed (R227), a pour only while UNVER is 0 (R203); slices of a group that is gone are dropped (R299). -/
def execMatrixOpComplete (quad : Nat) (s : State) : Answer :=
  answer <| match (s.quad quad).mat with
    | [] => s
    | o :: _ =>
      let live := o.slices.filter fun sl => (s.group? sl.uid).any fun h => h.matOps.any fun x => x.1 == sl.seq
      let ready := live.all fun sl => (s.group? sl.uid).all fun h => h.earlierDone sl.after && (o.kind != 3 || !h.unver)
      if !ready then s
      else if o.kind = 0 then live.foldl (State.runSlice o) (s.popMat quad)
      else match live.head?.bind fun sl => (s.group? sl.uid).map fun h => (sl, h) with
        | some (sl, h) => s.runMat quad h o sl
        | none => s.popMat quad

end Sys2Proof.Machine
end

