-- ==== Sys2Proof/Machine/Queues.lean ====
section
/-! DEFINITION. Record queues and host rings at their homes: counters, commits, pops, waiting pops, re-queueing, ring states and forwarding (R318 to R322, R330 to R334, R343). -/

namespace Sys2Proof.Machine

open Sys2Proof

/-! ### Counters (R319, R332) -/

/-- CAP of a queue. -/
def QueueEnt.cap (e : QueueEnt) : Nat := if e.kind = 1 || e.kind = 2 then 2 ^ e.ringlog else e.segcap + e.shelfcap

/-- The queue entry of an installed graph. -/
def State.queueEnt (s : State) (gidx qid : Nat) : Option QueueEnt := (s.graph? gidx).bind fun g => g.queue? qid

/-- BACKLOG: committed records not yet popped; of a host ring, w − r (R332). -/
def Queue.backlog (q : Queue) (e : QueueEnt) : Nat := if e.kind = 1 || e.kind = 2 then q.w.toNat - q.r.toNat else q.recs.length

/-- What a pop may take now: of an input ring, what is re-queued and what the host has filled beyond the last pop; nothing while a ring is halted (R334). -/
def Queue.available (q : Queue) (e : QueueEnt) : Nat :=
  if q.halted then 0 else if e.kind = 1 then q.recs.length + (q.w.toNat - q.ringPop) else q.backlog e

/-- Free(q) (R319). -/
def Queue.free (q : Queue) (e : QueueEnt) : Nat := e.cap - q.backlog e - q.resv - q.held

/-- SEGUSED: segment slots that hold committed or held records. -/
def Queue.segUsed (q : Queue) : Nat := (q.recs.filter fun r => !r.shelf).length + q.heldSeg

/-- NEXTACC: the accession number that the next record receives; of a host ring, the index of its next entry. -/
def Queue.nextNumber (q : Queue) (e : QueueEnt) : Nat := if e.kind = 1 || e.kind = 2 then q.w.toNat else q.nextAcc

/-- HEADACC: the accession number of the oldest committed record not yet popped. -/
def Queue.headAcc (q : Queue) (e : QueueEnt) : Nat :=
  if e.kind = 2 then q.r.toNat else (q.recs.head?.map Rec.acc).getD (if e.kind = 1 then q.ringPop else q.nextAcc)

/-- Changes one queue, whose values its home then announces at the window's end (R323). -/
def State.onQueue (s : State) (gidx qid : Nat) (f : Queue → Queue) : State :=
  match s.queue? gidx qid with
  | some q => s.putQueue { f q with changed := true }
  | none => s

/-! ### Host rings (R332 to R334) -/

/-- A verified read of n bytes from an address of a ring. -/
def State.ringLoad (s : State) (p a n : Nat) : List Byte × State :=
  (linePieces (n / 128 + 2) a (List.replicate n 0)).foldl (fun (acc : List Byte × State) x =>
    let r := acc.2.loadVerified (partWho p) (ringLoc x.1) x.2.length
    (acc.1 ++ r.1, r.2)) ([], s.translated a n)

def State.graphPart (s : State) (gidx : Nat) : Nat := ((s.graph? gidx).map Graph.part).getD 0
def State.graphCtx (s : State) (gidx : Nat) : Nat := ((s.graph? gidx).map Graph.ctx).getD 0

/-- The check of a ring at a doorbell and at every change of an index (R334): an inconsistent ring halts, says so in its control block, and a docket goes to the host event ring. -/
def State.ringCheck (s : State) (gidx qid : Nat) : State :=
  match s.queue? gidx qid, s.queueEnt gidx qid with
  | some q, some e =>
    if q.halted || !(e.kind == 1 || e.kind == 2) then s
    else if q.r.toNat ≤ q.w.toNat && q.w.toNat - q.r.toNat ≤ e.cap then s
    else
      let p := s.graphPart gidx
      let s := s.putQueue { q with halted := true, changed := true }
      let s := s.ringStore p (e.store - 48) [1]
      s.postDocket p (docketBytes 3 0x13 gidx p (s.graphCtx gidx) qid (s.part p).time (leBytes 8 q.w.toNat ++ leBytes 8 q.r.toNat))
  | _, _ => s

/-- Publishes an index of a ring in its control block (R333). -/
def State.ringPublish (s : State) (gidx : Nat) (e : QueueEnt) (off : Nat) (x : W64) : State := s.ringStore (s.graphPart gidx) (e.store - 64 + off) (leBytes 8 x.toNat)

/-! ### Commit (R320 to R322) -/

/-- The address of a place on the shelf, which is a run of SHELFCAP places (R318). -/
def QueueEnt.shelfPlace (e : QueueEnt) (place : Nat) : Nat := e.store + e.rsize * place

/-- The shelf places that committed records of a queue take, and records that blocks, launches under confirmation and forwarding hold: a record popped from the shelf keeps its place until it is released (R322). -/
def State.shelfUsed (s : State) (q : Queue) : List Nat :=
  let blocks := s.work.blocks.flatMap fun b => if b.gidx = q.gidx then (b.heldRecs.filter fun r => r.1 == q.qid).map Prod.snd else []
  let inq := fun (a : Attempt) => ((s.graph? a.gidx).bind fun g => g.stage? a.stage).any fun t => t.inq == q.qid
  let confirming := (s.work.attempts.filter fun a => a.gidx == q.gidx && inq a).flatMap fun a => a.popped.getD []
  ((q.recs ++ blocks ++ confirming ++ q.sent).filter Rec.shelf).map Rec.place

/-- The lowest free place of the shelf (DESIGN CHOICE, log 88). -/
def State.shelfFree (s : State) (q : Queue) (e : QueueEnt) : Option Nat :=
  let used := s.shelfUsed q
  (List.range e.shelfcap).find? fun i => !used.contains i

/-- Reads the shelf records of a list from their places, each verified (R318): a tag failure is an integrity alarm. -/
def State.readShelf (s : State) (gidx : Nat) (e : QueueEnt) : List Rec → List Rec × State
  | [] => ([], s)
  | r :: rs =>
    if r.shelf then
      let x := s.ringLoad (s.graphPart gidx) (e.shelfPlace r.place) e.rsize
      let q := State.readShelf x.2 gidx e rs
      ({ r with data := x.1 } :: q.1, q.2)
    else
      let q := State.readShelf s gidx e rs
      (r :: q.1, q.2)

/-- The first record of the shelf moves to the segment with what its place holds. -/
def unshelve (data : List Byte) : List Rec → List Rec
  | [] => []
  | r :: rs => if r.shelf then { r with shelf := false, data := data } :: rs else r :: unshelve data rs

/-- The home moves the shelf's head record to a free slot of the segment (R322), from its place in protected memory. -/
def State.refillShelf (s : State) (gidx qid : Nat) : State :=
  match s.queue? gidx qid, s.queueEnt gidx qid with
  | some q, some e =>
    if (e.kind == 0 || e.kind == 3) && q.segUsed < e.segcap && q.recs.any Rec.shelf then
      let r := s.readShelf gidx e ((q.recs.find? Rec.shelf).toList)
      let data := (r.1.head?.map Rec.data).getD []
      r.2.putQueue { q with recs := unshelve data q.recs }
    else s
  | _, _ => s

/-- A shelf without a free place refills the segment first; its capacity counts the segment's slots too (R319). -/
def State.roomOnShelf (s : State) (gidx qid : Nat) : State :=
  match s.queue? gidx qid, s.queueEnt gidx qid with
  | some q, some e => if e.kind != 2 && (s.shelfFree q e).isNone then s.refillShelf gidx qid else s
  | _, _ => s

/-- One record commits: to the segment or to a free place of the shelf, which is then written as protected memory (R318), or as an entry of an output ring; on a halted ring it waits. One of the queue's reservations is used up. -/
def State.commitRec (s : State) (gidx qid : Nat) (r : Rec) : State :=
  let s := s.roomOnShelf gidx qid
  match s.queue? gidx qid, s.queueEnt gidx qid with
  | some q, some e =>
    if e.kind = 2 then
      if q.halted then s.putQueue { q with waitCommit := q.waitCommit ++ [r] }
      else
        let s := s.ringStore (s.graphPart gidx) (e.store + e.rsize * (q.w.toNat % e.cap)) r.data
        let s := s.putQueue { q with w := q.w + 1, nextAcc := q.nextAcc + 1, resv := q.resv - 1, changed := true }
        (s.ringPublish gidx e 0 (q.w + 1)).ringCheck gidx qid
    else
      let place := if (q.recs.any Rec.shelf) || e.segcap ≤ q.segUsed then s.shelfFree q e else none
      let s := match place with
        | some i => s.ringStore (s.graphPart gidx) (e.shelfPlace i) r.data
        | none => s
      s.putQueue { q with recs := q.recs ++ [{ r with acc := q.nextAcc, shelf := place.isSome, place := place.getD 0 }], nextAcc := q.nextAcc + 1, resv := q.resv - 1, changed := true }
  | _, _ => s

/-! ### Pops -/

/-- The entries i, i+1, … of an input ring. -/
def State.ringEntries (s : State) (p : Nat) (e : QueueEnt) : (n i : Nat) → List Rec × State
  | 0, _ => ([], s)
  | n + 1, i =>
    let r := s.ringLoad p (e.store + e.rsize * (i % e.cap)) e.rsize
    let q := State.ringEntries r.2 p e n (i + 1)
    ({ acc := i, data := r.1 } :: q.1, q.2)

/-- Pops up to n head records in accession order; they are held (R320). -/
def State.popRecs (s : State) (gidx qid n : Nat) : List Rec × State :=
  match s.queue? gidx qid, s.queueEnt gidx qid with
  | some q, some e =>
    let k := min n (q.available e)
    let old := q.recs.take k
    let fresh := k - old.length
    let shelf := if e.kind = 1 then (old, s) else s.readShelf gidx e old
    let old := shelf.1
    let s := shelf.2
    let r := s.ringEntries (s.graphPart gidx) e (if e.kind = 1 then fresh else 0) q.ringPop
    let s := r.2.putQueue { q with recs := q.recs.drop k, ringPop := q.ringPop + r.1.length, held := q.held + k
                                   heldSeg := q.heldSeg + (if e.kind = 1 then 0 else (old.filter fun x => !x.shelf).length), changed := true }
    (old ++ r.1, s)
  | _, _ => ([], s)

/-- Puts a record in its place by accession number. -/
def insertRec (r : Rec) : List Rec → List Rec
  | [] => [r]
  | x :: xs => if r.acc < x.acc then r :: x :: xs else x :: insertRec r xs

/-- Held records no longer count as held. -/
def Queue.unhold (q : Queue) (e : QueueEnt) (rs : List Rec) : Queue :=
  { q with held := q.held - rs.length, heldSeg := q.heldSeg - (if e.kind = 1 then 0 else (rs.filter fun x => !x.shelf).length), changed := true }

/-- Returns held records to the head, with their accession numbers (R320, R321). -/
def State.requeue (s : State) (gidx qid : Nat) (rs : List Rec) : State :=
  match s.queue? gidx qid, s.queueEnt gidx qid with
  | some q, some e => s.putQueue { (q.unhold e rs) with recs := rs.foldl (fun l r => insertRec r l) q.recs }
  | _, _ => s

/-- Releases held records. An input ring's r advances by them and is published; a record popped before the ring was reset (marked by `shelf`) moves no index. -/
def State.releaseRecs (s : State) (gidx qid : Nat) (rs : List Rec) : State :=
  match s.queue? gidx qid, s.queueEnt gidx qid with
  | some q, some e =>
    let s := s.putQueue (q.unhold e rs)
    let n := (rs.filter fun r => !r.shelf).length
    if e.kind = 1 && 0 < n then
      let r := q.r + BitVec.ofNat 64 n
      ((s.onQueue gidx qid fun q => { q with r := r }).ringPublish gidx e 8 r).ringCheck gidx qid
    else s
  | _, _ => s

/-! ### Waiting pops (R343) -/

/-- Word w of a record. -/
def recWord (bs : List Byte) (w : Nat) : W32 := BitVec.ofNat 32 (natAt bs (4 * w) 4)

/-- The i-th record goes to the i-th active lane: registers d on, and the mask of the lanes that received one. -/
def Group.takeRecords (h : Group) (act : Mask) (d m words : Nat) (rs : List Rec) : Group :=
  let got := (lanesOf act).zip rs
  let mask := maskOf fun l => got.any fun x => x.1 == l
  let h := (List.range words).foldl (fun h w =>
    h.writeV 0 (d + w) mask 0xFFFFFFFF (laneNumbers.map fun l => ((got.find? fun x => x.1 == l).map fun x => recWord x.2.data w).getD 0)) h
  h.writeM 0 m mask

/-- The records a block holds. -/
def State.holdRecs (s : State) (blk qid : Nat) (rs : List Rec) : State :=
  match s.block? blk with
  | some b => s.putBlock { b with heldRecs := b.heldRecs ++ rs.map fun r => (qid, r) }
  | none => s

/-- An effect of a core's own launches and retirements on its view, in the window in which it reached the home (R324, R327); a window closed at the core has it in its values already. -/
def State.correctAt (s : State) (window core gidx key : Nat) (db df : Int) : State :=
  if window < s.sched.closed then s
  else { s with work := { s.work with corr := s.work.corr ++ [{ core := core, gidx := gidx, key := key, window := window, db := db, df := df }] } }

/-- The same, in the window under way. -/
def State.correct (s : State) (core gidx key : Nat) (db df : Int) : State := s.correctAt s.sched.window core gidx key db df

/-- A group pops: records, registers and view. The pop is an acquire at package scope, at system scope for a host ring or a queue that peers forward into (Table 11-3). -/
def State.popInto (s : State) (uid gidx qid : Nat) (act : Mask) (d m : Nat) : State :=
  match s.group? uid, s.queueEnt gidx qid with
  | some h, some e =>
    let r := s.popRecs gidx qid (popcount act)
    let s := ((r.2.holdRecs h.blk qid r.1).correct h.core gidx qid (-(r.1.length : Int)) 0).raiseVersion h.who 5
    let wide := e.kind == 1 || (s.queue? gidx qid).any fun q => !q.granted.isEmpty
    let s := if wide then s.raiseVersion h.who 6 else s
    s.mapGroups (fun x => x.uid == uid) fun x => x.takeRecords act d m (e.rsize / 4) r.1
  | _, _ => s

/-- Serves the waiting pops, oldest first, while there are records. -/
def State.servePops : (fuel : Nat) → (gidx qid : Nat) → State → State
  | 0, _, _, s => s
  | n + 1, gidx, qid, s =>
    match s.queue? gidx qid, s.queueEnt gidx qid with
    | some q, some e => match q.popWait with
      | u :: rest =>
        if q.available e = 0 then s
        else
          let s := s.putQueue { q with popWait := rest }
          let s := match (s.group? u).map Group.wait with
            | some (.pop g k act d m) => (s.popInto u g k act d m).completeWait u
            | _ => s
          State.servePops n gidx qid s
      | [] => s
    | _, _ => s

/-- Records have come to a queue: its waiting pops are served first. -/
def State.served (s : State) (gidx qid : Nat) : State := s.servePops (((s.queue? gidx qid).map fun q => q.popWait.length).getD 0 + 1) gidx qid

/-- Waiting commits of a ring that runs again go ahead, in order. -/
def State.commitWaiting (s : State) (gidx qid : Nat) : State :=
  match s.queue? gidx qid with
  | some q => q.waitCommit.foldl (fun s r => s.commitRec gidx qid r) (s.putQueue { q with waitCommit := [] })
  | none => s

/-! ### Shelf refill and forwarding -/

/-- `SHELF_REFILL`. -/
def execShelfRefill (gidx qid : Nat) (s : State) : Answer := answer (s.refillShelf gidx qid)

/-- A batch returns to the local head when its link or peer is lost, in order, and its unused credit is void (R331). -/
def State.returnSent (s : State) (gidx qid : Nat) : State :=
  match s.queue? gidx qid with
  | some q => ((s.putQueue { q with sent := [], cred := 0, remoteSent := 0 }).requeue gidx qid q.sent).served gidx qid
  | none => s

/-- A batch from a peer commits at its queue with the next accession numbers; the credit it used leaves RESV (R331). -/
def execForwardBatchArrival (gidx qid peer : Nat) (recs : List (List (BitVec 8))) (s : State) : Answer :=
  answer <| match s.queue? gidx qid, s.queueEnt gidx qid with
    | some q, some e =>
      if e.kind != 0 || tget 0 q.granted peer < recs.length || recs.any (fun r => r.length != e.rsize) then s
      else
        let s := s.putQueue { q with granted := tput q.granted peer (tget 0 q.granted peer - recs.length) }
        let s := recs.foldl (fun s r => s.commitRec gidx qid { acc := 0, data := r }) s
        (s.served gidx qid).progress (s.graphPart gidx) (s.graphCtx gidx)
    | _, _ => s

/-- The remote home acknowledges the oldest `count` records forwarded, which are then released (R331). -/
def execForwardAck (gidx qid count : Nat) (s : State) : Answer :=
  answer <| match s.queue? gidx qid with
    | some q =>
      let done := q.sent.take count
      (s.putQueue { q with sent := q.sent.drop count }).releaseRecs gidx qid done
    | none => s

/-- Credit of 32 records: granted by this home to a forwarding pair of a peer while its Free is at least 32 and the pair holds less than 64, or received by the local port of a forwarding pair (R331). `peer` names the device in its low 10 bits, and above them the peer's local queue (DESIGN CHOICE, log 90). -/
def execCreditGrant (gidx qid peer : Nat) (s : State) : Answer :=
  answer <| match s.queue? gidx qid, s.queueEnt gidx qid with
    | some q, some e =>
      if e.kind = 3 then (if e.peer = peer % 1024 then s.putQueue { q with cred := q.cred + 32 } else s)
      else if e.kind = 0 && 32 ≤ q.free e && tget 0 q.granted peer < 64 then
        s.putQueue { q with granted := tput q.granted peer (tget 0 q.granted peer + 32), resv := q.resv + 32, changed := true }
      else s
    | _, _ => s

/-- Virtual lane 2 of a port stops and starts (R331). -/
def execXoff (port : Nat) (s : State) : Answer := answer (if Config.ports ≤ port || s.plat.stuck then s else s.setPort port { s.port port with xoff := true })
def execXon (port : Nat) (s : State) : Answer := answer (if Config.ports ≤ port || s.plat.stuck then s else s.setPort port { s.port port with xoff := false })

/-! ### Doorbells and resets (R334, R398) -/

/-- A host event ring's new r, checked like any output ring's; an overrun halts it and its docket is held (R338, R339). -/
def State.eventRingIndex (s : State) (pn : Nat) (r : W64) : State :=
  let p := s.part pn
  if p.st = .free || p.evhalt then s
  else
    let s := s.setPart pn { p with evr := r }
    if r.toNat ≤ p.evw.toNat && p.evw.toNat - r.toNat ≤ 2 ^ p.evlog then
      let s := s.evDrain (p.evheld.length + 1) pn
      -- groups that wait in `ksig` for room issue their word again
      (s.allGroups.filter fun h => h.part == pn && h.wait == .ksig).foldl (fun s h => s.wake h.uid) s
    else
      let s := s.setPart pn { s.part pn with evhalt := true }
      let s := s.ringStore pn (p.evring.toNat - 48) [1]
      let s := s.postDocket pn (docketBytes 3 0x13 0xFFFF pn 0 0xFFFF (s.part pn).time (leBytes 8 p.evw.toNat ++ leBytes 8 r.toNat))
      -- no group waits for a halted ring (R353)
      (s.allGroups.filter fun h => h.part == pn && h.wait == .ksig).foldl (fun s h => s.wake h.uid) s

/-- A checked index of a host ring of a graph: the host's w of an input ring, its r of an output ring. A halted ring ignores it. -/
def State.ringIndex (s : State) (gidx qid : Nat) (x : W64) : State :=
  match s.queue? gidx qid, s.queueEnt gidx qid with
  | some q, some e =>
    if q.halted then s
    else
      let s := s.putQueue { (if e.kind = 1 then { q with w := x } else { q with r := x }) with changed := true }
      (s.ringCheck gidx qid).served gidx qid
  | _, _ => s

/-- The active partition that a virtual function serves (R397). -/
def State.vfPart (s : State) (vf : Nat) : Option Nat := (s.tabs.parts.find? fun e => e.2.vf == vf && vf != 0 && e.2.st == .active).map Prod.fst

/-- An accepted doorbell takes effect at the homes (R334). -/
def State.ringBell (s : State) (pn gidx qid : Nat) (x : W64) : State := if gidx = 0xFFFF then s.eventRingIndex pn x else s.ringIndex gidx qid x

/-- A write to the doorbell of a virtual function (R398): one that is accepted goes out as a summary message of the host interface. -/
def execDoorbell (vf : Nat) (bytes : List (BitVec 8)) (s : State) : Answer :=
  answer <| match s.vfPart vf with
    | none => s
    | some pn =>
      let gidx := natAt bytes 0 2
      let qid := natAt bytes 2 2
      let x := natAt bytes 8 8
      let mine := (s.graph? gidx).any fun g => g.part == pn && (g.queue? qid).any fun e => e.kind == 1 || e.kind == 2
      let refuse := s.postDocket pn (docketBytes 3 0x13 gidx pn 0 qid (s.part pn).time (leBytes 8 x ++ leBytes 8 0))
      if bytes.length != 16 || natAt bytes 4 4 != 0 || !(gidx == 0xFFFF && qid == 0xFFFF || mine) then refuse
      else { s with work := { s.work with msgs := s.work.msgs ++ [⟨s.sched.window, 290, .doorbell pn gidx qid (BitVec.ofNat 64 x)⟩] } }

/-- A halted ring runs again with w = r as management gives them (R334). Records that a restart had put back at its head go with the old indices, and records that blocks still hold move no index any more (DESIGN CHOICE, log 91). -/
def State.resetRing (s : State) (gidx qid : Nat) (x : W64) : State :=
  match s.queue? gidx qid, s.queueEnt gidx qid with
  | some q, some e =>
    if !q.halted then s
    else
      let p := s.graphPart gidx
      let s := s.putQueue { q with halted := false, w := x, r := x, ringPop := x.toNat, recs := [], changed := true }
      let stale := fun (h : Nat × Rec) => if h.1 = qid then (h.1, { h.2 with shelf := true }) else h
      let blocks := s.work.blocks.map fun (b : Block) => if b.gidx = gidx then { b with heldRecs := b.heldRecs.map stale } else b
      let s := { s with work := { s.work with blocks := blocks } }
      let s := (s.ringStore p (e.store - 48) [0]).ringPublish gidx e (if e.kind = 1 then 8 else 0) x
      (s.commitWaiting gidx qid).served gidx qid
  | _, _ => s

/-- The same for a partition's host event ring; the held dockets follow. -/
def State.resetEventRing (s : State) (pn : Nat) (x : W64) : State :=
  let p := s.part pn
  if !p.evhalt then s
  else
    let s := s.setPart pn { p with evhalt := false, evw := x, evr := x }
    let s := (s.ringStore pn (p.evring.toNat - 48) [0]).ringStore pn (p.evring.toNat - 64) (leBytes 8 x.toNat)
    let s := s.evDrain (p.evheld.length + 1) pn
    (s.allGroups.filter fun h => h.part == pn && h.wait == .ksig).foldl (fun s h => s.wake h.uid) s

end Sys2Proof.Machine
end

