-- ==== Sys2Proof/Machine/QueueInstr.lean ====
section
/-! DEFINITION. Instructions on record queues, handle queues, event queues and the host event ring (R324, R335 to R345, R351 to R353). -/

namespace Sys2Proof.Machine

open Sys2Proof

/-! ### The queue an instruction names (R341) -/

/-- The graph of the issuing group's stage. -/
def State.groupGraph (s : State) (g : Group) : Option (Block × Graph) :=
  (s.block? g.blk).bind fun b => (s.graph? b.gidx).map fun gr => (b, gr)

/-- The queue k(n)[15:0] names, with the block. -/
def State.namedQueue (s : State) (g : Group) (n : Nat) : Option (Block × Graph × QueueEnt) :=
  (s.groupGraph g).bind fun x => (x.2.queue? ((g.readK n).extractLsb' 0 16).toNat).map fun e => (x.1, x.2, e)

/-- The record registers D to D + RW - 1, when the queue names them below the allotment. -/
def recordNames (g : Group) (d rsize : Nat) : Option (List Nat) :=
  let rw := rsize / 4
  if d = 255 || g.regs < d + rw then none else some ((List.range rw).map fun i => d + i)

/-! ### Views (R324, R327) -/

/-- A core's view of a queue or range: the table as of the last closed window, and the core's own effects since. -/
def State.view (s : State) (core gidx key : Nat) : Int × Int :=
  let base := s.work.views.find? fun v => v.gidx == gidx && v.key == key
  let own := s.work.corr.filter fun c => c.core == core && c.gidx == gidx && c.key == key && s.sched.closed ≤ c.window
  (own.foldl (fun x c => x + c.db) (((base.map View.b).getD 0 : Nat) : Int), own.foldl (fun x c => x + c.df) (((base.map View.f).getD 0 : Nat) : Int))

/-! ### qpush (R342) -/

/-- Records of a block already tentative in a queue. -/
def Block.tentIn (b : Block) (qid : Nat) : Nat := (b.tent.filter fun t => t.1 == qid).length

/-- Space a block has reserved in a queue. -/
def Block.resvIn (b : Block) (qid : Nat) : Nat := ((b.resv.filter fun t => t.1 == qid).map Prod.snd).sum

/-- The bytes of lane l's record. -/
def laneRecord (g : Group) (names : List Nat) (l : Nat) : List Byte := names.flatMap fun n => leBytes 4 (laneAt (g.readV n) l).toNat

/-- The record registers that D names for the queue, and whether they lie below the allotment (R60, order 7). While k(A) awaits a write the queue is not known, and the word is held first (R58). -/
def Word.record (w : Word) (g : Group) (q : Option (Block × Graph × QueueEnt)) : List Nat × Bool :=
  match q.map fun x => recordNames g w.f.d.toNat x.2.2.rsize with
  | some (some ns) => (ns, true)
  | some none => ([], g.interlocked { k := [w.f.a.toNat] })
  | none => ([], true)

def execQpush (f : FForm) (s : State) : Answer :=
  let w := mkWord shapeQpush f
  let q := s.namedQueue s.g f.a.toNat
  let names := (w.record s.g q).1
  runWord w { r := { v := names }, ok := (w.record s.g q).2 } (fun s =>
    match q with
    | none => (s, .trap 0x04 0)
    | some (b, _, e) =>
      if !(b.hdr.outq.take b.hdr.nout).contains e.qid || (recordNames s.g f.d.toNat e.rsize).isNone then (s, .trap 0x04 0)
      else
        let act := s.g.active f.pred.toNat
        if act = 0 then ({ s with g := s.g.setK 0 f.b.toNat 0 }, .done)
        else if s.g.unver then (s, .hold .waitStall (.until_ .verified))
        else
          let lanes := (lanesOf act).take (b.resvIn e.qid - b.tentIn e.qid)
          let s1 := s.putBlock { b with tent := b.tent ++ lanes.map fun l => (e.qid, laneRecord s.g names l) }
          ({ s1 with g := s1.g.setK 0 f.b.toNat (BitVec.ofNat 64 lanes.length) }, .done)) s

/-! ### qpop (R343) -/

def runQpop (wait : Bool) (w : Word) (s : State) : Answer :=
  let q := s.namedQueue s.g w.f.a.toNat
  let names := (w.record s.g q).1
  runWord w { w := { v := names }, ok := (w.record s.g q).2 } (fun s =>
    match q with
    | none => (s, .trap 0x04 0)
    | some (b, gr, e) =>
      if b.hdr.inq != e.qid || b.hdr.inq = 0xFFFF || (recordNames s.g w.f.d.toNat e.rsize).isNone then (s, .trap 0x04 0)
      else
        let act := s.g.active w.f.pred.toNat
        let m := w.f.b.toNat
        if act = 0 then ({ s with g := s.g.writeM 0 m 0 }, .done)
        else match s.queue? gr.gidx e.qid with
          | none => (s, .trap 0x04 0)
          | some qu =>
            if qu.available e = 0 then
              if wait then (s.putQueue { qu with popWait := qu.popWait ++ [s.g.uid] }, .wait .waitQueue (.pop gr.gidx e.qid act w.f.d.toNat m))
              else ({ s with g := s.g.writeM 0 m 0 }, .done)
            else (s.popInto s.g.uid gr.gidx e.qid act w.f.d.toNat m, .done)) s

/-- `qpop`. -/
def execQpop (f : FForm) (s : State) : Answer := runQpop true (mkWord shapeQpop f) s
/-- `qpop.try`. -/
def execQpopTry (f : FForm) (s : State) : Answer := runQpop false (mkWord shapeQpopTry f) s

/-! ### qlen (R344) -/

/-- `qlen`: one quantity of a queue. The range source names no queue of the table. -/
def runQlen (pick : State → Group → Graph → QueueEnt → Queue → W64) (w : Word) (s : State) : Answer :=
  runWord w {} (fun s =>
    match s.namedQueue s.g w.f.a.toNat with
    | none => (s, .trap 0x04 0)
    | some (_, gr, e) => match s.queue? gr.gidx e.qid with
      | none => (s, .trap 0x04 0)
      | some q => ({ s with g := s.g.setK w.lat w.f.d.toNat (pick s s.g gr e q) }, .done)) s

/-- B(q) and F(q) as the core sees them; a view below 0 reads 0. -/
def execQlenVb (f : FForm) (s : State) : Answer := runQlen (fun s g gr e _ => BitVec.ofNat 64 (s.view g.core gr.gidx e.qid).1.toNat) (mkWord shapeQlenVb f) s
def execQlenVf (f : FForm) (s : State) : Answer := runQlen (fun s g gr e _ => BitVec.ofNat 64 (s.view g.core gr.gidx e.qid).2.toNat) (mkWord shapeQlenVf f) s

/-- BACKLOG at the home; w − r of a host ring. -/
def execQlenB (f : FForm) (s : State) : Answer :=
  runQlen (fun _ _ _ e q => if e.kind = 1 || e.kind = 2 then q.w - q.r else BitVec.ofNat 64 (q.backlog e)) (mkWord shapeQlenB f) s
def execQlenF (f : FForm) (s : State) : Answer := runQlen (fun _ _ _ e q => BitVec.ofNat 64 (q.free e)) (mkWord shapeQlenF f) s
def execQlenH (f : FForm) (s : State) : Answer := runQlen (fun _ _ _ _ q => BitVec.ofNat 64 q.held) (mkWord shapeQlenH f) s
def execQlenR (f : FForm) (s : State) : Answer := runQlen (fun _ _ _ _ q => BitVec.ofNat 64 q.resv) (mkWord shapeQlenR f) s

/-! ### Handle queues (R335, R336) -/

/-- A descriptor's header (Table 16-6). -/
structure HqHead where
  depth : Nat
  count : Nat
  head  : Nat
  allow : Nat
  deriving DecidableEq, Repr

def State.hqHead (s : State) (core off : Nat) : HqHead :=
  let b := s.peek ⟨.spad core, off⟩ 16
  { depth := natAt b 11 1, count := natAt b 12 1, head := natAt b 13 1, allow := natAt b 14 2 }

/-- Writes the header back. The words POPW and PUSHW are free values: the encoding of a waiter list's head is not given (log 6). -/
def State.putHq (s : State) (core off : Nat) (h : HqHead) : State :=
  let a := s.freeValue
  a.2.poke ⟨.spad core, off⟩ (leBytes 8 a.1.toNat ++ leBytes 3 0 ++ leBytes 1 h.depth ++ leBytes 1 h.count ++ leBytes 1 h.head ++ leBytes 2 h.allow)

def State.hqWaiters (s : State) (core off : Nat) (push : Bool) : List HqWait := s.work.hqWait.filter fun x => x.core == core && x.off == off && x.push == push

def State.dropHqWait (s : State) (uid : Nat) : State := { s with work := { s.work with hqWait := s.work.hqWait.filter fun x => x.uid != uid } }

/-- An acquire at block scope of the group with this uid (Table 11-3). -/
def State.acquireBlock (s : State) (uid : Nat) : State :=
  match s.group? uid with
  | some h => s.raiseVersion h.who 1
  | none => s

/-- An item lands in a waiting group's register, and its `hpop` is complete. -/
def State.handOff (s : State) (uid : Nat) (item : W32) : State :=
  let s := s.mapGroups (fun h => h.uid == uid) fun h => match h.wait with
    | .hpop _ _ act d => h.writeV 0 d act 0xFFFFFFFF (laneNumbers.map fun _ => item)
    | _ => h
  (s.acquireBlock uid).completeWait uid

/-- A push, if it can proceed: to the oldest waiting pop, else to the tail. -/
def State.hqPush (s : State) (core off : Nat) (item : W32) : Option State :=
  let h := s.hqHead core off
  let pops := s.hqWaiters core off false
  if h.allow = 0 || (h.count = h.depth && pops.isEmpty) then none
  else
    let h := { h with allow := h.allow - 1 }
    match pops with
    | x :: _ => some (((s.dropHqWait x.uid).putHq core off h).handOff x.uid item)
    | [] =>
      let s := s.poke ⟨.spad core, off + 16 + 4 * ((h.head + h.count) % 64)⟩ (leBytes 4 item.toNat)
      some (s.putHq core off { h with count := h.count + 1 })

/-- Serves the waiting pushes, oldest first, while they can proceed. -/
def State.hqServe : (fuel : Nat) → (core off : Nat) → State → State
  | 0, _, _, s => s
  | n + 1, core, off, s =>
    match s.hqWaiters core off true with
    | x :: _ => match (s.dropHqWait x.uid).hqPush core off x.item with
      | some s => State.hqServe n core off ((s.acquireBlock x.uid).completeWait x.uid)
      | none => s
    | [] => s

def State.hqServeAll (s : State) (core off : Nat) : State := s.hqServe (s.work.hqWait.length + 1) core off

/-- Takes the oldest entry, if any, and serves the waiting pushes. -/
def State.hqPop (s : State) (core off : Nat) : Option (W32 × State) :=
  let h := s.hqHead core off
  if h.count = 0 then none
  else
    let item : W32 := BitVec.ofNat 32 (leNat (s.peek ⟨.spad core, off + 16 + 4 * h.head⟩ 4))
    some (item, (s.putHq core off { h with count := h.count - 1, head := (h.head + 1) % 64 }).hqServeAll core off)

/-- The descriptor a handle queue's table entry points at: core and offset. -/
def State.hqPlace (s : State) (entry : Nat) : Nat × Nat :=
  let w := mnat s.mem.hbm (entry + 8) 8
  (bitsAt w 26 20, bitsAt w 19 0)

/-- A handle-queue instruction: the handle, then a body on the descriptor's place. -/
def runHq (w : Word) (body : Nat → Nat → State → State × Flow) (s : State) : Answer :=
  runWord w {} (fun s =>
    let r := s.handleOf s.g (s.g.readK w.f.a.toNat) 2
    match r.1 with
    | none => (s, .trap 0x15 0)
    | some e => let p := r.2.hqPlace e.1; body p.1 p.2 r.2) s

/-- `hpush`: a release at block scope, held while UNVER is 1. -/
def execHpush (f : FForm) (s : State) : Answer :=
  runHq (mkWord shapeHpush f) (fun core off s =>
    if s.g.unver || !s.g.allPerformed then (s, .hold .waitStall (.until_ .released))
    else
      let item := (s.g.readK f.b.toNat).extractLsb' 0 32
      match s.hqPush core off item with
      | some s => (s.raiseVersion s.g.who 1, .done)
      | none =>
        let x : HqWait := { core := core, off := off, uid := s.g.uid, push := true, item := item }
        let h := s.hqHead core off
        (({ s with work := { s.work with hqWait := s.work.hqWait ++ [x] } }).putHq core off h, .wait .waitQueue (.hpush core off))) s

/-- `hpop`: an acquire at block scope. -/
def execHpop (f : FForm) (s : State) : Answer :=
  runHq (mkWord shapeHpop f) (fun core off s =>
    let act := s.g.active f.pred.toNat
    match s.hqPop core off with
    | some (item, s) =>
      let s := s.raiseVersion s.g.who 1
      ({ s with g := s.g.writeV 0 f.d.toNat act 0xFFFFFFFF (laneNumbers.map fun _ => item) }, .done)
    | none =>
      let x : HqWait := { core := core, off := off, uid := s.g.uid, push := false, item := 0 }
      let h := s.hqHead core off
      ((({ s with work := { s.work with hqWait := s.work.hqWait ++ [x] } }).putHq core off h), .wait .waitQueue (.hpop core off act f.d.toNat))) s

/-- `htry`: all ones when the queue is empty. -/
def execHtry (f : FForm) (s : State) : Answer :=
  runHq (mkWord shapeHtry f) (fun core off s =>
    match s.hqPop core off with
    | some (item, s) =>
      let s := s.raiseVersion s.g.who 1
      ({ s with g := s.g.setK 0 f.d.toNat (item.zeroExtend 64) }, .done)
    | none => ({ s with g := s.g.setK 0 f.d.toNat (BitVec.allOnes 64) }, .done)) s

/-- `hallow`. -/
def execHallow (f : FForm) (s : State) : Answer :=
  runHq (mkWord shapeHallow f) (fun core off s =>
    if s.g.unver || !s.g.allPerformed then (s, .hold .waitStall (.until_ .released))
    else
      let h := s.hqHead core off
      let n := min (s.g.readK f.b.toNat).toNat 65535
      ((s.putHq core off { h with allow := min (h.allow + n) 65535 }).hqServeAll core off, .done)) s

/-! ### Event queues and the host event ring (R338, R339, R351 to R353) -/

/-- The four words of a docket to registers d to d + 3. -/
def Group.takeDocket (h : Group) (d : Nat) (bs : List Byte) : Group :=
  (List.range 4).foldl (fun h i => h.setK 0 (d + i) (BitVec.ofNat 64 (natAt bs (8 * i) 8))) h

/-- Groups of a cluster that wait in `evpost` for room issue their word again. -/
def State.wakePosters (s : State) (cl : Nat) : State :=
  (s.allGroups.filter fun h => h.cluster == cl && h.wait == .evpost).foldl (fun s h => s.wake h.uid) s

/-- Hands waiting dockets to waiting `evpop.wait` groups of a cluster, both in order. -/
def State.serveEvq : (fuel : Nat) → (cl : Nat) → State → State
  | 0, _, s => s
  | n + 1, cl, s =>
    match s.evQueue cl, s.units.evWait.find? fun u => (s.group? u).any fun h => h.cluster == cl with
    | d :: rest, some u =>
      let s := (s.setEvQueue cl rest).evqRefill cl
      let s := { s with units := { s.units with evWait := s.units.evWait.filter fun x => x != u } }
      let s := s.mapGroups (fun h => h.uid == u) fun h => match h.wait with
        | .evpop k => h.takeDocket k d
        | _ => h
      let s := match s.group? u with
        | some h => s.raiseVersion h.who 6
        | none => s
      State.serveEvq n cl (s.completeWait u)
    | _, _ => s

/-- A hardware producer's docket to a cluster event queue. -/
def State.postCluster (s : State) (cl : Nat) (d : List Byte) : State := (s.evqPost cl d).serveEvq (s.units.evWait.length + 1) cl

/-- The source id of a group's core, or of a cluster control core (Table 16-4). -/
def Group.source (g : Group) : Nat := if g.ccc then 128 + g.cluster else g.core

/-- The payload of `evpost` and `ksig`: k(A) then k(B). -/
def signalBytes (g : Group) (w : Word) : List Byte := leBytes 8 (g.readK w.f.a.toNat).toNat ++ leBytes 8 (g.readK w.f.b.toNat).toNat

/-- `evpost`: a release at system scope. -/
def execEvpost (f : FForm) (s : State) : Answer :=
  let w := mkWord shapeEvpost f
  runWord w {} (fun s =>
    let g := s.g
    if g.unver || !g.allPerformed then (s, .hold .waitStall (.until_ .released))
    else if !s.evqRoom g.cluster then (s, .hold .waitExt .evpost)
    else
      (s.postCluster g.cluster (docketBytes 1 0 g.source g.part g.ctx 0 (s.part g.part).time (signalBytes g w)), .done)) s

/-- `evpop`: the oldest docket of the cluster's event queue, an acquire at system scope. -/
def runEvpop (wait : Bool) (w : Word) (s : State) : Answer :=
  let d := w.f.d.toNat
  runWord w { w := { k := [d + 1, d + 2, d + 3] } } (fun s =>
    if d = 0 || 28 < d then (s, .trap 0x04 0)
    else
      let cl := s.g.cluster
      match s.evQueue cl with
      | x :: rest =>
        let s := (((s.setEvQueue cl rest).evqRefill cl).wakePosters cl).raiseVersion s.g.who 6
        ({ s with g := s.g.takeDocket d x }, .done)
      | [] =>
        if wait then ({ s with units := { s.units with evWait := s.units.evWait ++ [s.g.uid] } }, .wait .waitExt (.evpop d))
        else ({ s with g := s.g.takeDocket d [] }, .done)) s

/-- `evpop`. -/
def execEvpop (f : FForm) (s : State) : Answer := runEvpop false (mkWord shapeEvpop f) s
/-- `evpop.wait`. -/
def execEvpopWait (f : FForm) (s : State) : Answer := runEvpop true (mkWord shapeEvpopWait f) s

/-- `ksig`: a docket of kind 9 to the partition's host event ring, a release at system scope. -/
def execKsig (f : FForm) (s : State) : Answer :=
  let w := mkWord shapeKsig f
  runWord w {} (fun s =>
    let g := s.g
    let p := s.part g.part
    if g.unver || !g.allPerformed then (s, .hold .waitStall (.until_ .released))
    else if !p.evhalt && 2 ^ p.evlog ≤ p.evUsed then (s, .hold .waitExt .ksig)
    else (s.docket 9 0 g.source g.part g.ctx (signalBytes g w), .done)) s

end Sys2Proof.Machine
end

