-- ==== Sys2Proof/Machine/Headers.lean ====
section
/-! DEFINITION. Launch headers and where a block fits: the fields and limits of Table 2-3, the rooms of cores, and the admission test (R24 to R29, R175). -/

namespace Sys2Proof.Machine

open Sys2Proof

/-! ### The header (Table 2-3) -/

/-- The fields of 128 bytes. -/
def headerOf (bs : List Byte) : Header :=
  let widf := natAt bs 0x10 8
  { entry := BitVec.ofNat 64 (natAt bs 0 8), regs := natAt bs 8 1, floor := natAt bs 9 1, acc := natAt bs 0xA 1, flags := natAt bs 0xB 1, spad := natAt bs 0xC 4
    widths := (List.range 5).map fun i => widf / 64 ^ i % 64
    blvl := widf / 2 ^ 32 % 8, stage := natAt bs 0x18 2, weight := natAt bs 0x1A 2, span := natAt bs 0x1C 1, gangn := natAt bs 0x1D 1
    recv := natAt bs 0x1E 1, recw := natAt bs 0x1F 1, inq := natAt bs 0x20 2, nout := natAt bs 0x22 1, range := natAt bs 0x28 8
    outq := (List.range 8).map fun i => natAt bs (0x30 + 2 * i) 2, emit := (List.range 8).map fun i => natAt bs (0x40 + 2 * i) 2 }

/-- G, the groups of a block. -/
def Header.groups (h : Header) : Nat := 2 ^ (blockBits h - 5)

def Header.restartable (h : Header) : Bool := h.flags.testBit 0
def Header.zerosp (h : Header) : Bool := h.flags.testBit 1
def Header.extwait (h : Header) : Bool := h.flags.testBit 2
def Header.ophint (h : Header) : Nat := h.flags / 8 % 8

/-- The limits of R26 and the counts of R27, on the bytes. -/
def headerOk (bs : List Byte) : Bool :=
  let h := headerOf bs
  let widf := natAt bs 0x10 8
  let l := blockBits h
  bs.length == 128 && pcBits h.entry == h.entry && 1 ≤ h.regs && h.floor ≤ h.regs && h.acc ≤ 8 && h.flags < 64 && h.spad % 128 == 0 && h.spad ≤ Config.spadBytes
    && widf / 2 ^ 30 % 4 == 0 && widf / 2 ^ 35 == 0 && 1 ≤ h.blvl && h.blvl ≤ 6 && h.widths.sum ≤ 59 && 1 ≤ h.weight
    && ([1, 2, 4, 8] : List Nat).contains h.span && (h.gangn == 0 || (2 ≤ h.gangn && h.gangn ≤ 6)) && h.recw ≤ 16 && h.recv + h.recw ≤ h.regs
    && h.nout ≤ 8 && natAt bs 0x23 5 == 0 && (h.inq != 0xFFFF || h.range ≤ 2 ^ (5 + h.widths.sum)) && (bs.drop 0x50).all (· == 0)
    && 5 ≤ l && l ≤ 14 && h.span ≤ h.groups && h.groups ≤ 192 * h.span

/-- The 128 bytes at a virtual address of a context as the launch machinery sees them, with no effect on any table. -/
def State.headerBytes (s : State) (p c va : Nat) : Option (List Byte) :=
  if Config.vaBytes ≤ va || va % 128 != 0 || inAperture va then none
  else match (s.walk { part := p, ctx := c, core := 128 } .read true va).1 with
    | .ok l _ => some (s.peek l 128)
    | _ => none

/-! ### Rooms (R29, R175) -/

/-- What a quadrant of a core has left for new groups: slots, registers of each bank beside the floors held, and accumulator tiles. -/
structure QuadRoom where
  q     : Nat
  slots : List Nat
  banks : List Nat
  tiles : List Nat
  deriving DecidableEq, Repr

/-- Does a group hold this core slot? A retired group keeps it until its block retires; a pre-empted one has left it. -/
def State.slotTaken (s : State) (core slot : Nat) : Bool :=
  s.allGroups.any fun h => !h.ccc && h.st != .preempted && h.core == core && h.slot == slot

def State.quadRoom (s : State) (empty : Bool) (core q : Nat) : QuadRoom :=
  let quad := 4 * core + q
  let used := s.quadGroups quad
  { q := q
    slots := if empty then List.range 48 else (List.range 48).filter fun i => !s.slotTaken core (48 * q + i)
    banks := (List.range 4).map fun b => if empty then Config.bankRegisters else Config.bankRegisters - s.floorHeld quad b
    tiles := (List.range 8).filter fun t => empty || !used.any fun h => h.tiles.contains t }

/-- The owned quadrants of a core, 0 to 3. A fenced quadrant is no longer owned. -/
def State.ownedQuads (s : State) (p core : Nat) : List Nat := (List.range 4).filter fun q => (s.part p).quads.contains (4 * core + q)

/-- Runs of GANGN groups, or single groups. -/
def runsOf (n gang : Nat) : List Nat := if gang = 0 then List.replicate n 1 else List.replicate (n / gang) gang ++ (if n % gang = 0 then [] else [n % gang])

/-- Floor names of bank b of a header. -/
def Header.floorIn (h : Header) (b : Nat) : Nat := ((List.range h.floor).filter fun n => n % 4 == b).length

def QuadRoom.fits (r : QuadRoom) (h : Header) (n : Nat) : Bool :=
  n ≤ r.slots.length && n * h.acc ≤ r.tiles.length && (List.range 4).all fun b => n * h.floorIn b ≤ r.banks.getD b 0

/-- Takes the lowest slots and tiles for n groups: core slot and tiles of each. -/
def QuadRoom.take (r : QuadRoom) (h : Header) (n : Nat) : List (Nat × List Nat) × QuadRoom :=
  ((List.range n).map fun i => (48 * r.q + r.slots.getD i 0, (r.tiles.drop (i * h.acc)).take h.acc),
    { r with slots := r.slots.drop n, tiles := r.tiles.drop (n * h.acc), banks := (List.range 4).map fun b => r.banks.getD b 0 - n * h.floorIn b })

/-- Places runs in turn: in the quadrant wished for when it fits, else in the lowest that does (R28 leaves the choice to the core). The wishes go by group. -/
def placeRuns (h : Header) : List Nat → List Nat → List QuadRoom → Option (List (Nat × List Nat))
  | [], _, _ => some []
  | n :: ns, wish, rooms => do
    let fit := rooms.filter fun r => r.fits h n
    let r ← match wish.head?.bind fun q => fit.find? fun r => r.q == q with
      | some r => some r
      | none => fit.head?
    let t := r.take h n
    let rest ← placeRuns h ns (wish.drop n) (rooms.map fun x => if x.q = r.q then t.2 else x)
    pure (t.1 ++ rest)

/-- The scratchpad runs of blocks on a core: first byte and byte after. -/
def State.spadUsed (s : State) (core : Nat) : List (Nat × Nat) :=
  s.work.blocks.flatMap fun b => (b.cores.zip b.spad).filterMap fun x => if x.1 = core && 0 < b.hdr.spad then some (x.2, x.2 + b.hdr.spad) else none

/-- The lowest run of n bytes in owned regions that meets no other (R175). -/
def spadFit (owned : List Nat) (used : List (Nat × Nat)) (n : Nat) : Option Nat :=
  if n = 0 then some 0
  else
    let starts := owned.map (fun q => Config.spadRegion * q) ++ used.map fun u => (u.2 + 127) / 128 * 128
    let free := fun a => (List.range 4).all (fun q => owned.contains q || a + n ≤ Config.spadRegion * q || Config.spadRegion * (q + 1) ≤ a)
      && a + n ≤ Config.spadBytes && used.all fun u => a + n ≤ u.1 || u.2 ≤ a
    (starts.filter free).foldl (fun best a => match best with
      | none => some a
      | some b => some (min a b)) none

/-- A core's part of a block: its block slot, the base of its run, and core slot and tiles of each group. -/
structure Spot where
  core : Nat
  slot : Nat
  base : Nat
  groups : List (Nat × List Nat)
  deriving DecidableEq, Repr

/-- Block slots of a core in use, attempts included but for the one named. -/
def State.blockSlots (s : State) (core but : Nat) : List Nat :=
  (s.work.blocks.flatMap fun b => (b.cores.zip b.slots).filterMap fun x => if x.1 = core then some x.2 else none)
    ++ s.work.attempts.filterMap fun a => if a.core = core && a.id != but then some a.slot else none

def State.freeBlockSlot (s : State) (core but : Nat) : Option Nat :=
  (List.range Config.blockSlotsPerCore).find? fun i => !(s.blockSlots core but).contains i

/-- The place of a share of n groups on one core. -/
def State.spot (s : State) (empty : Bool) (p : Nat) (h : Header) (core : Nat) (slot : Option Nat) (n : Nat) (wish : List Nat) : Option Spot := do
  let owned := s.ownedQuads p core
  let slot ← slot
  let base ← spadFit owned (if empty then [] else s.spadUsed core) h.spad
  let gs ← placeRuns h (runsOf n h.gangn) wish (owned.map fun q => s.quadRoom empty core q)
  pure { core := core, slot := slot, base := base, groups := gs }

/-- The further cores of a block at a freed core: the lowest-numbered others of its cluster on which the partition owns a quadrant (R29). -/
def State.furtherCores (s : State) (p core n : Nat) : List Nat :=
  (((List.range 8).map fun i => core / 8 * 8 + i).filter fun c => c != core && !(s.ownedQuads p c).isEmpty).take n

/-- The admission test of R29 at a freed core and block slot, with the places it finds; `empty` tests empty cores. -/
def State.plan (s : State) (empty : Bool) (p : Nat) (h : Header) (core slot attempt : Nat) (wish : List Nat) : Option (List Spot) := do
  let more := s.furtherCores p core (h.span - 1)
  let share := h.groups / h.span
  if more.length + 1 < h.span || (s.ownedQuads p core).isEmpty then none
  else
    let first ← s.spot empty p h core (some slot) share (wish.take share)
    let rest ← ((List.range more.length).mapM fun i =>
      let c := more.getD i 0
      s.spot empty p h c (if empty then some 0 else s.freeBlockSlot c attempt) share ((wish.drop ((i + 1) * share)).take share))
    pure (first :: rest)

/-- The cores on which a partition owns a quadrant. -/
def State.partCores (s : State) (p : Nat) : List Nat := ((s.part p).quads.map fun q => q / 4).eraseDups

/-- Could some cluster ever hold one block (R27)? -/
def State.canEver (s : State) (p : Nat) (h : Header) : Bool := (s.partCores p).any fun c => (s.plan true p h c 0 0 []).isSome

/-- Is a header accepted (R27)? -/
def State.headerAccepted (s : State) (p : Nat) (bs : List Byte) : Bool := headerOk bs && s.canEver p (headerOf bs)

end Sys2Proof.Machine
end

