-- ==== Sys2Proof/Machine/Launch.lean ====
section
/-! DEFINITION. Starting and ending work: instances, joins and continuations, the launch differential, confirmation, the launch of groups, block retirement, and forwarding (R24 to R31, R320, R325 to R331, R346 to R350, R387). -/

namespace Sys2Proof.Machine

open Sys2Proof

/-! ### Instances of a stage (R327, R348) -/

def State.range? (s : State) (gidx stage : Nat) : Option RangeState := s.work.ranges.find? fun r => r.gidx == gidx && r.stage == stage

def State.putRange (s : State) (r : RangeState) : State :=
  { s with work := { s.work with ranges := s.work.ranges.map fun x => if x.gidx = r.gidx && x.stage = r.stage then { r with changed := true } else x } }

def RangeInst.exhausted (i : RangeInst) : Bool := i.range ≤ i.next * 2 ^ i.l

/-- Records an instance behind those of the stage. -/
def State.addInstance (s : State) (gidx stage range l : Nat) (join : Option W64) : State :=
  match s.range? gidx stage with
  | some r => s.putRange { r with insts := r.insts ++ [{ id := r.nextId, range := range, l := l, next := 0, join := join }], nextId := r.nextId + 1 }
  | none => s

/-- The first block the range home would give: a number offered again, else the next of the first instance with work left. -/
def RangeState.peek (r : RangeState) : Option (Nat × Nat × Nat) :=
  match r.offered with
  | o :: _ => some o
  | [] => (r.insts.find? fun i => !i.exhausted).map fun i => (i.id, i.next, 0)

/-- Takes it. -/
def RangeState.take (r : RangeState) : RangeState :=
  match r.offered with
  | _ :: rest => { r with offered := rest }
  | [] => match r.insts.find? fun i => !i.exhausted with
    | some i => { r with insts := r.insts.map fun x => if x.id = i.id then { x with next := x.next + 1 } else x }
    | none => r

/-- The work identifiers left, as the home announces them. -/
def RangeState.remaining (r : RangeState) : Nat :=
  match r.offered with
  | o :: _ => ((r.insts.find? fun i => i.id == o.1).map fun i => 2 ^ i.l).getD 1
  | [] => match r.insts.find? fun i => !i.exhausted with
    | some i => min (i.range - i.next * 2 ^ i.l) (2 ^ 32 - 1)
    | none => 0

/-- The graph and stage of a context whose table entry has this header address; a graph that drains has its entries still (R346, R375). -/
def State.stageAt (s : State) (p c va : Nat) : Option (Nat × Nat) :=
  (s.tabs.graphs.filter fun g => g.part == p && g.ctx == c && g.st != 0).foldl (fun acc g => match acc with
    | some x => some x
    | none => (g.stages.find? fun t => t.hdr.toNat == va).map fun t => (g.gidx, t.stage)) none

/-! ### Quota (R387) -/

/-- Takes n blocks of quota; none when fewer are left. -/
def State.takeQuota (s : State) (p c n : Nat) : Option State :=
  let x := s.ctx p c
  if x.quota.toNat < n then none else some (s.setCtx p c { x with quota := x.quota - BitVec.ofNat 64 n })

/-- The quota and instance of waiting continuations, oldest first, as far as quota suffices (R350). -/
def State.serveQuota : (fuel : Nat) → (p c : Nat) → State → State
  | 0, _, _, s => s
  | n + 1, p, c, s =>
    match (s.ctx p c).quotaWait with
    | (gidx, stage, range, l) :: rest =>
      match s.takeQuota p c ((range + 2 ^ l - 1) / 2 ^ l) with
      | some s => State.serveQuota n p c ((s.setCtx p c { s.ctx p c with quotaWait := rest }).addInstance gidx stage range l none)
      | none => s
    | [] => s

/-- Returns n blocks of quota, less what a lowered setting still owes. -/
def State.returnQuota (s : State) (p c n : Nat) : State :=
  let x := s.ctx p c
  let s := s.setCtx p c { x with debt := x.debt - n, quota := x.quota + BitVec.ofNat 64 (n - x.debt) }
  s.serveQuota (x.quotaWait.length + 1) p c

/-! ### Joins (R349, R350, Table 19-5) -/

/-- COUNT of a join's entry. -/
def State.joinCount (s : State) (e : Nat) : Nat := mnat s.mem.hbm (e + 8) 8 % 2 ^ 48

def State.setJoinCount (s : State) (p e n : Nat) : State := s.putWord p (e + 8) (n % 2 ^ 48)

/-- Fires an armed join whose count is 0: it is disarmed, and one instance of its stage is created, or waits for quota. A header that cannot be read any more creates nothing. -/
def State.fireJoin (s : State) (p c e : Nat) : State :=
  let w := mnat s.mem.hbm (e + 24) 8
  if w % 2 = 0 || s.joinCount e != 0 then s
  else
    let s := s.putWord p (e + 24) 0
    let va := bitsAt w 55 7 * 128
    match s.headerBytes p c va, s.stageAt p c va with
    | some bs, some (gidx, stage) =>
      let h := headerOf bs
      if h.range = 0 then s
      else
        let x := s.ctx p c
        let s := s.setCtx p c { x with quotaWait := x.quotaWait ++ [(gidx, stage, h.range, blockBits h)] }
        s.serveQuota (x.quotaWait.length + 1) p c
    | _, _ => s

/-- Wakes the groups that wait on a join whose count is 0: each wake is an acquire at package scope. -/
def State.wakeJoin (s : State) (e : Nat) : State :=
  (s.allGroups.filter fun h => h.wait == .join e).foldl (fun s h => (s.raiseVersion h.who 5).completeWait h.uid) s

/-- A child block's retirement reaches its join's home (R349). A stale handle's decrement is dropped. -/
def execJoinDecrement (part ctx : Nat) (handle : BitVec 64) (faulted killed : Bool) (s : State) : Answer :=
  answer <|
    if !s.units.decrements.contains (part, ctx, handle, faulted, killed) then s
    else
      let s := { s with units := { s.units with decrements := s.units.decrements.erase (part, ctx, handle, faulted, killed) } }
      let r := s.handle part ctx handle 3
      match r.1 with
      | none => r.2
      | some (e, _) =>
        let s := r.2.setJoinCount part e (r.2.joinCount e - 1)
        let w := mnat s.mem.hbm (e + 16) 8
        let top := 2 ^ 32 - 1
        let f := min (w % 2 ^ 32 + (if faulted && !killed then 1 else 0)) top
        let k := min (w / 2 ^ 32 + (if killed then 1 else 0)) top
        let s := s.putWord part (e + 16) (f + 2 ^ 32 * k)
        if s.joinCount e = 0 then (s.wakeJoin e).fireJoin part ctx e else s

/-! ### launch and cont (R346, R350) -/

/-- The header an instruction names, read as an acquire load at package scope, or how the read stops the word. -/
def State.readHeader (s : State) (a : Nat) : Except Flow (List Byte) × State :=
  if a % 128 != 0 then (.error (.trap 0x08 (BitVec.ofNat 64 a)), s)
  else
    let q := s.reachK .read a
    match q.1.stop, q.1.ok with
    | some x, _ => (.error x.2.retry, q.2)
    | none, [] => (.error (q.1.flow none), q.2)
    | none, o :: _ =>
      let r := (q.2.raiseVersion q.2.g.who 5).loadVerified q.2.g.who o.2.1 128
      (.ok r.1, r.2)

/-- A header that makes an instance: accepted, range-fed, and of a stage of the context. -/
def State.instanceOf (s : State) (g : Group) (a : Nat) (bs : List Byte) : Option (Nat × Nat) :=
  if !s.headerAccepted g.part bs || (headerOf bs).inq != 0xFFFF then none else s.stageAt g.part g.ctx a

/-- `launch`. -/
def execLaunch (f : FForm) (s : State) : Answer :=
  runWord (mkWord shapeLaunch f) {} (fun s =>
    let a := (s.g.readK f.a.toNat).toNat
    let j := s.g.readK f.b.toNat
    let q := s.readHeader a
    match q.1 with
    | .error fl => (if (match fl with
        | .retry _ _ => true
        | _ => false) then q.2 else s, fl)
    | .ok bs =>
      let jr := if j = 0 then (some (0, 0), q.2) else q.2.handleOf q.2.g j 3
      match jr.1 with
      | none => (s, .trap 0x15 0)
      | some (e, _) =>
        if s.g.unver || !s.g.allPerformed then (s, .hold .waitStall (.until_ .released))
        else
          let s := jr.2
          let g := s.g
          let put := fun (s : State) (st : W64) => ({ s with g := s.g.setK 0 f.d.toNat st }, Flow.done)
          match s.instanceOf g a bs with
          | none => put s 2
          | some (gidx, stage) =>
            let h := headerOf bs
            let n := (h.range + 2 ^ blockBits h - 1) / 2 ^ blockBits h
            if n = 0 then put s 0
            else if !(s.ctx g.part g.ctx).quotaWait.isEmpty then put s 1
            else match s.takeQuota g.part g.ctx n with
              | none => put s 1
              | some s =>
                let s := if j = 0 then s else s.setJoinCount g.part e (s.joinCount e + n)
                put (s.addInstance gidx stage h.range (blockBits h) (if j = 0 then none else some j)) 0) s

/-- `cont`: the join is checked first, as R350 lists it, then the header. -/
def execCont (f : FForm) (s : State) : Answer :=
  runWord (mkWord shapeCont f) {} (fun s =>
    let a := (s.g.readK f.a.toNat).toNat
    let jr := s.handleOf s.g (s.g.readK f.b.toNat) 3
    match jr.1 with
    | none => (s, .trap 0x15 0)
    | some (e, _) =>
      let q := jr.2.readHeader a
      match q.1 with
      | .error fl => (if (match fl with
          | .retry _ _ => true
          | _ => false) then q.2 else s, fl)
      | .ok bs =>
        if (q.2.instanceOf s.g a bs).isNone then (s, .trap 0x04 0)
        else if s.g.unver || !s.g.allPerformed then (s, .hold .waitStall (.until_ .released))
        else ((q.2.putWord s.g.part (e + 24) (a + 1)).fireJoin s.g.part s.g.ctx e, .done)) s

/-! ### The launch differential (R325) -/

/-- A stage as the differential scores it. -/
structure Score where
  gidx : Nat
  stage : Nat
  d : Int
  deriving DecidableEq, Repr

/-- May the quota of the context take one more block of the stage? A block discarded for restart keeps its quota (R387), for its number or the records at the queue's head; an instance made by `launch` has its own already. -/
def State.quotaFree (s : State) (p c : Nat) (gidx stage : Nat) (h : Header) : Bool :=
  0 < (s.ctx p c).quota.toNat || (if h.inq = 0xFFFF then (match (s.range? gidx stage).bind RangeState.peek with
    | some (i, _, fails) => i != 0 || fails != 0
    | none => false)
  else (s.queue? gidx h.inq).any fun q => q.recs.head?.any fun r => r.fails != 0)

/-- D(s) of an eligible stage with positive D. -/
def State.score (s : State) (core slot : Nat) (gr : Graph) (t : StageEnt) : Option Score := do
  let bs ← s.headerBytes gr.part gr.ctx t.hdr.toNat
  if !headerOk bs then none
  else
    let h := headerOf bs
    let outs := (List.range h.nout).map fun i => (h.outq.getD i 0, h.emit.getD i 0)
    let bin := (s.view core gr.gidx (if h.inq = 0xFFFF then 65536 + t.stage else h.inq)).1
    let bdn := match outs.map fun o => (s.view core gr.gidx o.1).1 with
      | [] => (0 : Int)
      | b :: bs => bs.foldl (fun m x => max m x) b
    let d := (h.weight : Int) * (bin - bdn)
    if bin < 1 || (outs.any fun o => (s.view core gr.gidx o.1).2 < (o.2 : Int)) || d ≤ 0 || !s.quotaFree gr.part gr.ctx gr.gidx t.stage h
        || (s.plan false gr.part h core slot 0 []).isNone then none
    else pure { gidx := gr.gidx, stage := t.stage, d := d }

/-- Is x chosen over y: greater D, then lower graph index, then lower STAGE? -/
def Score.better (x y : Score) : Bool := y.d < x.d || (x.d == y.d && (x.gidx < y.gidx || (x.gidx == y.gidx && x.stage < y.stage)))

/-- The graphs of active contexts that own a quadrant of the core. -/
def State.coreGraphs (s : State) (core : Nat) : List Graph :=
  s.tabs.graphs.filter fun g => g.st != 0 && (s.part g.part).st == .active && (s.ctx g.part g.ctx).st == 1 && !(s.ownedQuads g.part core).isEmpty

/-- Evaluates a free block slot: the stage chosen goes to confirmation (R325, R326). -/
def State.evaluate (s : State) (core slot : Nat) : State :=
  if (s.blockSlots core 0).contains slot then s
  else
    let best := (s.coreGraphs core).foldl (fun best g => g.stages.foldl (fun best t => match s.score core slot g t, best with
      | some x, some y => if x.better y then some x else some y
      | some x, none => some x
      | none, b => b) best) (none : Option Score)
    match best with
    | some x =>
      let a : Attempt := { id := s.work.nextAttempt, core := core, slot := slot, gidx := x.gidx, stage := x.stage, phase := 0, popped := none, block := none, refused := false }
      { s with work := { s.work with attempts := s.work.attempts ++ [a], nextAttempt := s.work.nextAttempt + 1 } }
    | none => s

/-- A core confirms one launch at a time (log 23): its slots that await evaluation are evaluated in turn until one has a launch under confirmation. -/
def State.evalTurn (core : Nat) : (fuel : Nat) → State → State
  | 0, s => s
  | n + 1, s =>
    if s.work.attempts.any fun a => a.core == core then s
    else match s.work.evalWait.find? fun e => e.1 == core with
      | some e => State.evalTurn core n ({ s with work := { s.work with evalWait := s.work.evalWait.filter fun x => x != e } }.evaluate core e.2)
      | none => s

/-- Block slots, by core and slot, that have become free or that a window's close evaluates. -/
def State.evalSlots (s : State) (es : List (Nat × Nat)) : State :=
  let s := { s with work := { s.work with evalWait := s.work.evalWait ++ es.filter fun e => !s.work.evalWait.contains e } }
  (es.map Prod.fst).eraseDups.foldl (fun s c => s.evalTurn c (s.work.evalWait.length + 1)) s

/-- Every free block slot of every core with a graph, as a window closes. -/
def State.evaluateAll (s : State) : State :=
  let cores := (s.tabs.parts.flatMap fun e => e.2.quads.map fun q => q / 4).eraseDups
  if s.tabs.graphs.isEmpty then s
  else s.evalSlots (((List.range Config.cores).filter fun c => cores.contains c).flatMap fun c =>
    let used := s.blockSlots c 0
    ((List.range Config.blockSlotsPerCore).filter fun i => !used.contains i).map fun i => (c, i))

/-! ### Confirmation at the homes (R326) -/

def State.attempt? (s : State) (id : Nat) : Option Attempt := s.work.attempts.find? fun a => a.id == id
def State.putAttempt (s : State) (a : Attempt) : State := { s with work := { s.work with attempts := s.work.attempts.map fun x => if x.id = a.id then a else x } }
def State.dropAttempt (s : State) (id : Nat) : State := { s with work := { s.work with attempts := s.work.attempts.filter fun x => x.id != id } }

/-- The header of an attempt's stage, with its graph and table entry. -/
def State.attemptStage (s : State) (a : Attempt) : Option (Graph × StageEnt × Header) := do
  let gr ← s.graph? a.gidx
  let t ← gr.stage? a.stage
  let bs ← s.headerBytes gr.part gr.ctx t.hdr.toNat
  if headerOk bs then pure (gr, t, headerOf bs) else none

/-- The next output queue's home is asked for EMIT places (step 1). -/
def execEmitReservationRequest (attempt : Nat) (s : State) : Answer :=
  answer <| match s.attempt? attempt with
    | none => s
    | some a => match s.attemptStage a with
      | none => s.putAttempt { a with refused := true }
      | some (_, _, h) =>
        if a.refused || h.nout ≤ a.phase then s
        else
          let qid := h.outq.getD a.phase 0
          let n := h.emit.getD a.phase 0
          match s.queue? a.gidx qid, s.queueEnt a.gidx qid with
          | some q, some e =>
            if q.free e < n then s.putAttempt { a with refused := true }
            else (s.onQueue a.gidx qid fun q => { q with resv := q.resv + n }).putAttempt { a with phase := a.phase + 1, granted := a.granted ++ [(qid, n, s.sched.window)] }
          | _, _ => s.putAttempt { a with refused := true }

/-- The input home is asked for up to 32 × G records (step 2). Waiting pops were served before. -/
def execLaunchPopRequest (attempt : Nat) (s : State) : Answer :=
  answer <| match s.attempt? attempt with
    | none => s
    | some a => match s.attemptStage a with
      | none => s.putAttempt { a with refused := true }
      | some (_, _, h) =>
        if a.refused || a.phase < h.nout || h.inq = 0xFFFF || a.popped.isSome then s
        else
          let r := s.popRecs a.gidx h.inq (32 * h.groups)
          r.2.putAttempt { a with popped := some r.1, refused := r.1.isEmpty, taken := s.sched.window }

/-- The range home is asked for a block number (step 2, R327). -/
def execRangeBlockRequest (attempt : Nat) (s : State) : Answer :=
  answer <| match s.attempt? attempt with
    | none => s
    | some a => match s.attemptStage a with
      | none => s.putAttempt { a with refused := true }
      | some (_, _, h) =>
        if a.refused || a.phase < h.nout || h.inq != 0xFFFF || a.block.isSome then s
        else match (s.range? a.gidx a.stage).bind fun r => r.peek.map fun b => (r, b) with
          | some (r, b) => (s.putRange r.take).putAttempt { a with block := some b, taken := s.sched.window }
          | none => s.putAttempt { a with refused := true }

/-- Every grant of an attempt goes back, and the attempt is over. -/
def State.returnGrants (s : State) (a : Attempt) : State :=
  let s := s.dropAttempt a.id
  let s := match a.block, s.range? a.gidx a.stage with
    | some b, some r => s.putRange { r with offered := b :: r.offered }
    | _, _ => s
  let s := a.granted.foldl (fun s o => s.onQueue a.gidx o.1 fun q => { q with resv := q.resv - o.2.1 }) s
  match (s.graph? a.gidx).bind fun gr => gr.stage? a.stage, a.popped with
  | some t, some rs => if rs.isEmpty then s else (s.requeue a.gidx t.inq rs).served a.gidx t.inq
  | _, _ => s

/-- Zeroes the bytes of a new run that another context held last, and all of it for ZEROSP (R30, R175). -/
def State.takeSpad (s : State) (core lo n key : Nat) (zero : Bool) : State :=
  if n = 0 then s
  else
    let hi := lo + n
    let m := tget [] s.mem.spad core
    let m := if zero then mclear m lo hi
      else (s.units.spadRuns.filter fun r => r.1 == core && r.2.2.2 != key && r.2.1 < hi && lo < r.2.2.1).foldl (fun m r => mclear m (max lo r.2.1) (min hi r.2.2.1)) m
    let cut := fun (r : Nat × Nat × Nat × Nat) =>
      if r.1 != core || hi ≤ r.2.1 || r.2.2.1 ≤ lo then [r]
      else (if r.2.1 < lo then [(core, r.2.1, lo, r.2.2.2)] else []) ++ (if hi < r.2.2.1 then [(core, hi, r.2.2.1, r.2.2.2)] else [])
    { s with mem := { s.mem with spad := tset [] s.mem.spad core m }, units := { s.units with spadRuns := s.units.spadRuns.flatMap cut ++ [(core, lo, hi, key)] } }

/-- The GANG register of a run at launch: its slots within the quadrant, ascending. -/
def gangOf (slots : List Nat) : W64 := BitVec.ofNat 64 (slots.length + (List.range slots.length).foldl (fun acc i => acc + slots.getD i 0 % 48 * 2 ^ (8 * i + 8)) 0)

/-- The register words a launched group receives (R30): word w of the records of its 32 block lanes, zero beyond RSIZE or without a record. -/
def recordWrites (h : Header) (words : Nat) (rs : List Rec) : List (Nat × Lanes) :=
  (List.range h.recw).map fun w => (h.recv + w, laneNumbers.map fun l => match rs[l]? with
    | some r => if w < words then recWord r.data w else 0
    | none => 0)

/-- The next generation of a slot (R306). -/
def State.nextGen (s : State) (core slot : Nat) : Nat := (tget 0 s.units.slotGen (192 * core + slot) + 1) % 64
def State.setGen (s : State) (core slot n : Nat) : State := { s with units := { s.units with slotGen := tset 0 s.units.slotGen (192 * core + slot) n } }

/-- Puts one group of a block into its slot (R30). -/
def State.placeGroup (s : State) (b : Block) (idx core slot : Nat) (tiles : List Nat) (gang : W64) (words limit : Nat) (rs : List Rec) : State :=
  let uid := s.work.nextUid
  let x := s.ctx b.part b.ctx
  let wid := b.number * 2 ^ blockBits b.hdr + 32 * idx
  let gen := s.nextGen core slot
  let fed := b.hdr.inq != 0xFFFF
  let g : Group := { uid := uid, part := b.part, ctx := b.ctx, core := core, slot := slot, blk := b.id, idx := idx, st := .launching, pc := pcBits b.hdr.entry
                     m0 := if fed then maskOf fun l => l < rs.length else maskOf fun l => wid + l < limit
                     mode := x.mode, gens := seedGens (x.mode.extractLsb' 32 32), gen := BitVec.ofNat 6 gen, gang := gang, wid := BitVec.ofNat 64 wid, hdr := b.hdrAddr, frec := x.frec
                     regs := b.hdr.regs, floor := b.hdr.floor, tiles := tiles, record := if fed then recordWrites b.hdr words rs else [], hint := 0 }
  let s := (s.setGen core slot gen).addGroup g
  { s with work := { s.work with nextUid := uid + 1, blocks := s.work.blocks.map fun y => if y.id = b.id then { y with groups := y.groups ++ [uid] } else y } }

/-- The runs of a core's groups, each with its GANG value. -/
def gangs (h : Header) (gs : List (Nat × List Nat)) : List W64 :=
  if h.gangn = 0 then gs.map fun _ => 0
  else (List.range gs.length).map fun i =>
    let run := (gs.drop (i / h.gangn * h.gangn)).take h.gangn
    gangOf (run.map Prod.fst)

/-- Admits a block: its slots, scratchpad, records and groups (R28 to R30). -/
def State.admitLaunch (s : State) (a : Attempt) (gr : Graph) (t : StageEnt) (h : Header) (spots : List Spot) (quotaOf : Nat) : State :=
  let s := s.dropAttempt a.id
  let recs := a.popped.getD []
  let inst := (a.block.map fun b => b.1).getD 0
  let ri := (s.range? a.gidx a.stage).bind fun r => r.insts.find? fun i => i.id == inst
  let number := match a.block with
    | some b => b.2.1
    | none => t.launched % 2 ^ (h.widths.sum + 5 - blockBits h)
  let fails := match a.block with
    | some b => b.2.2
    | none => recs.foldl (fun m r => max m r.fails) 0
  let b : Block := { id := s.work.nextBlk, gidx := a.gidx, stage := a.stage, part := gr.part, ctx := gr.ctx, inst := inst, number := number
                     cores := spots.map Spot.core, slots := spots.map Spot.slot, spad := spots.map Spot.base, hdr := h, hdrAddr := t.hdr, groups := []
                     resv := a.granted.map fun x => (x.1, x.2.1), tent := [], heldRecs := recs.map fun r => (h.inq, r)
                     join := if h.inq = 0xFFFF then ri.bind RangeInst.join else none, fails := fails, quotaOf := quotaOf }
  let cluster := a.core / 8
  let first := !t.clusters.contains cluster
  let t' := { t with launched := t.launched + 1, clusters := if first then t.clusters ++ [cluster] else t.clusters }
  let gr' := { gr with stages := gr.stages.map fun (x : StageEnt) => if x.stage = t.stage then t' else x }
  let s := { s with work := { s.work with blocks := s.work.blocks ++ [b], nextBlk := b.id + 1 }
                    tabs := { s.tabs with graphs := s.tabs.graphs.map fun (x : Graph) => if x.gidx = gr.gidx then gr' else x } }
  let s := spots.foldl (fun s p => s.takeSpad p.core p.base h.spad (ctxKey gr.part gr.ctx) h.zerosp) s
  let words := ((gr.queue? h.inq).map fun e => e.rsize / 4).getD 0
  let all := spots.flatMap fun p => (p.groups.zip (gangs h p.groups)).map fun x => (p.core, x.1.1, x.1.2, x.2)
  let limit := (ri.map RangeInst.range).getD 0
  let s := (List.range all.length).foldl (fun s i =>
    let p := all.getD i (0, 0, [], 0)
    s.placeGroup b i p.1 p.2.1 p.2.2.1 p.2.2.2 words limit ((recs.drop (32 * i)).take 32)) s
  -- a stage's first block on a cluster asks for its operating point (R31, R411)
  let s := if first then
      let s := s.setCluster cluster { s.cluster cluster with hint := max (s.cluster cluster).hint h.ophint }
      s.mapGroups (fun x => x.blk == b.id) fun x => { x with hint := h.ophint }
    else s
  let s := if h.inq = 0xFFFF then s.correctAt a.taken a.core a.gidx (65536 + a.stage) (-((2 ^ blockBits h : Nat) : Int)) 0 else s.correctAt a.taken a.core a.gidx h.inq (-(recs.length : Int)) 0
  a.granted.foldl (fun s o => s.correctAt o.2.2 a.core a.gidx o.1 0 (-(o.2.1 : Int))) s

/-- A launch is abandoned: its slot waits for the next window, and the core's next slot has its turn. -/
def State.endAttempt (s : State) (a : Attempt) : State := (s.returnGrants a).evalTurn a.core (s.work.evalWait.length + 1)

/-- On the homes' answers the core admits the block, or every grant goes back (R326). `place` gives the quadrant of each group where the core has a choice. -/
def execLaunchConfirmation (attempt : Nat) (place : List Nat) (s : State) : Answer :=
  answer <| match s.attempt? attempt with
    | none => s
    | some a => match s.attemptStage a with
      | none => s.endAttempt a
      | some (gr, t, h) =>
        if a.refused then s.endAttempt a
        else if a.phase < h.nout || (if h.inq = 0xFFFF then a.block.isNone else a.popped.isNone) then s
        else
          let again := match a.block with
            | some b => b.1 != 0 || b.2.2 != 0
            | none => (a.popped.getD []).any fun r => r.fails != 0
          match s.plan false gr.part h a.core a.slot a.id place, (if again then some s else s.takeQuota gr.part gr.ctx 1) with
          | some spots, some s => (s.admitLaunch a gr t h spots 1).evalTurn a.core (s.work.evalWait.length + 1)
          | _, _ => s.endAttempt a

/-! ### The launch of a group (R30, R31) -/

/-- The point a cluster may run at now (R411). -/
def State.allowedPoint (s : State) (cl : Nat) : Nat := if s.plat.overBudget then min (s.cluster cl).cap (s.cluster cl).point else (s.cluster cl).cap

/-- The group with this uid is READY once its quadrant issues, its cluster runs at the point asked for or the highest allowed, and every record register is allocated. What can be allocated now is, and is kept. -/
def execGroupLaunchComplete (uid : Nat) (s : State) : Answer :=
  answer <| match s.group? uid with
    | none => s
    | some h =>
      if h.st != .launching then s
      else
        let s1 := h.record.foldl (fun s r => match s.group? uid with
          | some x =>
            if s.canAlloc x [r.1] then s.putGroup { ((x.allocV r.1).writeV 0 r.1 (BitVec.allOnes 32) 0xFFFFFFFF r.2) with record := x.record.filter fun y => y.1 != r.1 } else s
          | none => s) s
        let s1 := s1.mapGroups (fun x => x.uid == uid) fun x => { x with wait := if x.record.isEmpty then .none else .alloc (x.record.map Prod.fst) }
        let cl := s1.cluster h.cluster
        let point := h.hint ≤ cl.point || s1.allowedPoint h.cluster ≤ cl.point
        match s1.group? uid with
        | some x =>
          if !x.record.isEmpty || !point || !(s1.quad x.quad).released || x.stopping || (s1.part x.part).st != .active then s1
          else (s1.putGroup { x with st := .ready }).raiseVersion x.who 5
        | none => s1

/-- How often the records or the number of a block have met a hardware error, this one counted. -/
def Block.failsNow (b : Block) : Nat := (b.heldRecs.foldl (fun m r => max m r.2.fails) b.fails) + 1

/-- A core offers the number of a discarded block again, in a summary message (R311, R327). -/
def State.offerAgain (s : State) (b : Block) : State :=
  { s with work := { s.work with msgs := s.work.msgs ++ [⟨s.sched.window, b.cores.getD 0 0, .restart b.gidx b.stage b.inst b.number b.failsNow⟩] } }

/-- The range home records a restart offer that has reached it (R327). -/
def execRestartOffer (gidx stage inst blockNo : Nat) (s : State) : Answer :=
  answer <| match s.work.pending.find? fun o => o.1 == gidx && o.2.1 == stage && o.2.2.1 == inst && o.2.2.2.1 == blockNo with
    | none => s
    | some o =>
      let s := { s with work := { s.work with pending := s.work.pending.erase o } }
      match s.range? gidx stage with
      | some r => s.putRange { r with offered := r.offered ++ [(inst, blockNo, o.2.2.2.2)] }
      | none => s

/-! ### Block retirement (R320, R32) -/

/-- Has the block no more to do: every group retired, every access performed, nothing unverified (R203)? -/
def State.blockDone (s : State) (b : Block) : Bool :=
  b.groups.all fun u => match s.group? u with
    | some h => h.st == .retired && h.allPerformed && !h.unver
    | none => true

/-- The queues of a block are settled: its pushes are committed, or dropped for a killed block, and its held records released. The core's view follows. -/
def State.settleBlock (s : State) (b : Block) : State :=
  let core := b.cores.getD 0 0
  let outs := (b.resv.map Prod.fst).eraseDups
  let s := outs.foldl (fun s q =>
    let recs := if b.killed then [] else (b.tent.filter fun t => t.1 == q).map fun t => ({ acc := 0, data := t.2 } : Rec)
    let left := b.resvIn q - recs.length
    let s := s.onQueue b.gidx q fun x => { x with resv := x.resv - left }
    let s := recs.foldl (fun s r => s.commitRec b.gidx q r) s
    s.correct core b.gidx q recs.length left) s
  let held := (b.heldRecs.map Prod.fst).eraseDups
  let s := held.foldl (fun s q =>
    let rs := (b.heldRecs.filter fun r => r.1 == q).map Prod.snd
    (s.releaseRecs b.gidx q rs).correct core b.gidx q 0 rs.length) s
  let s := outs.foldl (fun s q => s.served b.gidx q) s
  let s := s.putBlock { b with resv := [], tent := [], heldRecs := [] }
  if b.killed || b.tent.isEmpty then s else s.progress b.part b.ctx

/-- The retirement of a block reaches its queues' homes (R320). -/
def execRecordCommit (blk : Nat) (s : State) : Answer :=
  answer <| match s.block? blk with
    | some b => if s.blockDone b && !b.groups.isEmpty then s.settleBlock b else s
    | none => s

/-- A handle table entry is freed (R364). -/
def State.freeHandle (s : State) (p e : Nat) : State :=
  let w := mnat s.mem.hbm e 8
  let w := if w.testBit 63 then w - 2 ^ 63 else w
  s.putWord p e (if bitsAt w 31 16 = 65535 && !w.testBit 60 then w + 2 ^ 60 else w)

/-- The barriers and handle queues of a block are freed. -/
def State.freeBlockHandles (s : State) (b : Block) : State :=
  (List.range 1024).foldl (fun s i =>
    let e := s.handleAddr b.part b.ctx i
    let w := mnat s.mem.hbm e 8
    if w.testBit 63 && (bitsAt w 62 61 == 1 || bitsAt w 62 61 == 2) && ownedBy w b then
      let p := s.hqPlace e
      let s := if bitsAt w 62 61 = 2 then { s with mem := { s.mem with hqs := s.mem.hqs.filter fun q => q != p } } else s
      s.freeHandle b.part e
    else s) s

/-- The last group of a settled block has retired: slots, scratchpad and handles are free, its join is counted down, its quota returns, and the freed slots are evaluated (R325). -/
def execBlockRetirement (blk : Nat) (s : State) : Answer :=
  answer <| match s.block? blk with
    | some b =>
      if !s.blockDone b || b.groups.isEmpty || !b.resv.isEmpty || !b.tent.isEmpty || !b.heldRecs.isEmpty then s
      else
        let s := s.freeBlockHandles b
        let s := b.groups.foldl State.dropGroup s
        let s := { s with work := { s.work with blocks := s.work.blocks.filter fun x => x.id != blk } }
        let s := match b.join with
          | some j => { s with units := { s.units with decrements := s.units.decrements ++ [(b.part, b.ctx, j, b.faulted, b.killed)] } }
          | none => s
        let s := s.returnQuota b.part b.ctx b.quotaOf
        s.evalSlots (b.cores.zip b.slots)
    | none => s

/-! ### Forwarding (R330, R331) -/

/-- W of a forwarding pair: the WEIGHT of the stage that the remote queue feeds, as an entry of this graph for that queue gives it; where the graph has none, the stage's header is the peer's, and its WEIGHT is open here (DESIGN CHOICE, log 92). -/
def State.forwardWeight (s : State) (gr : Graph) (e : QueueEnt) : Nat :=
  match gr.stages.find? fun t => t.inq == e.rqid with
  | some t => ((s.headerBytes gr.part gr.ctx t.hdr.toNat).map fun bs => (headerOf bs).weight).getD (Config.remoteWeight e.peer e.rqid)
  | none => Config.remoteWeight e.peer e.rqid

/-- A port's send opportunity: one batch of the eligible pair with the greatest positive score. Every pair may be routed through every port. -/
def execForwardBatchSend (port : Nat) (s : State) : Answer :=
  answer <|
    if Config.ports ≤ port || (s.port port).xoff || (s.port port).down || s.plat.device.isNone then s
    else
      let pairs := s.tabs.graphs.flatMap fun gr => (gr.queues.filter fun e => e.kind == 3).filterMap fun e => match s.queue? gr.gidx e.qid with
        | some q =>
          let d : Int := (s.forwardWeight gr e : Int) * ((q.backlog e : Int) - (q.remoteB + q.remoteSent : Nat))
          if 1 ≤ q.backlog e && 1 ≤ q.cred && 0 < d then some (d, gr.gidx, e, q) else none
        | none => none
      let best := pairs.foldl (fun (best : Option (Int × Nat × QueueEnt × Queue)) x => match best with
        | none => some x
        | some y => if y.1 < x.1 || (x.1 == y.1 && (x.2.2.1.qid < y.2.2.1.qid || (x.2.2.1.qid == y.2.2.1.qid && x.2.2.1.peer < y.2.2.1.peer))) then some x else some y) none
      match best with
      | none => s
      | some (_, gidx, e, q) =>
        let r := s.popRecs gidx e.qid (min 32 q.cred)
        r.2.onQueue gidx e.qid fun q => { q with sent := q.sent ++ r.1, cred := q.cred - r.1.length, remoteSent := q.remoteSent + r.1.length }

/-- A summary exchange with a peer reaches a port (R323): BACKLOG and Free of its queues that this device forwards into, which the port then sends to the homes. An entry whose number is 65,536 + GIDX is a doorbell of the peer for a host ring of that graph: queue and index (DESIGN CHOICE, log 90). -/
def execSummaryExchange (port peer : Nat) (occ : List (Nat × Nat × Nat)) (s : State) : Answer :=
  answer <|
    if Config.ports ≤ port || (s.port port).down || s.plat.stuck then s
    else { s with work := { s.work with msgs := s.work.msgs ++ occ.map fun (o : Nat × Nat × Nat) =>
      ⟨s.sched.window, 272 + port, if o.1 < 65536 then .remote peer o.1 o.2.1 o.2.2 else .doorbell (s.graphPart (o.1 - 65536)) (o.1 - 65536) o.2.1 (BitVec.ofNat 64 o.2.2)⟩ } }

/-- What a peer's queue held, as the homes of the pairs that forward into it learn it. -/
def State.setRemote (s : State) (peer rqid b f : Nat) : State :=
  s.tabs.graphs.foldl (fun s gr => (gr.queues.filter fun e => e.kind == 3 && e.peer == peer && e.rqid == rqid).foldl (fun s e =>
    s.onQueue gr.gidx e.qid fun q => { q with remoteB := b, remoteF := f, remoteSent := 0 }) s) s

/-- What this device sends its peers in an exchange: BACKLOG and Free of each queue that a peer forwards into. -/
def State.exchange (s : State) : List (Nat × Nat × Nat × Nat) :=
  (s.work.queues.filter fun q => !q.granted.isEmpty).filterMap fun q => (s.queueEnt q.gidx q.qid).map fun e => (q.gidx, q.qid, q.backlog e, q.free e)

end Sys2Proof.Machine
end

