-- ==== Sys2Proof/Machine/Counters.lean ====
section
/-! DEFINITION. Byte-counting barriers and the reading of joins (R389 to R396). -/

namespace Sys2Proof.Machine

open Sys2Proof

/-! ### Barriers (Table 19-3) -/

/-- Words 1 and 2 of a barrier's entry. -/
structure Bar where
  phase   : Nat
  arrived : Nat
  need    : Nat
  bal     : Int
  deriving DecidableEq, Repr

def State.bar (s : State) (e : Nat) : Bar :=
  let w := mnat s.mem.hbm (e + 8) 8
  { phase := w / 2 ^ 32, arrived := bitsAt w 25 16, need := bitsAt w 9 0, bal := patternInt true 48 (mnat s.mem.hbm (e + 16) 8 % 2 ^ 48) }

def State.putBar (s : State) (p e : Nat) (b : Bar) : State :=
  (s.putWord p (e + 8) (b.phase * 2 ^ 32 + b.arrived * 2 ^ 16 + b.need)).putWord p (e + 16) (intPattern 48 b.bal)

/-- Is a wait for phase n satisfied? -/
def phasePassed (phase n : Nat) : Bool :=
  let d := (phase + 2 ^ 32 - n % 2 ^ 32) % 2 ^ 32
  1 ≤ d && d < 2 ^ 31

/-- The waiters for a phase of a barrier that has ended wake, each wake an acquire at block scope (R230). -/
def State.wakeBar (s : State) (e phase : Nat) : State :=
  (s.allGroups.filter fun h => match h.wait with
    | .barrier e' n => e' == e && phasePassed phase n
    | _ => false).foldl (fun s h => (s.raiseVersion h.who 1).completeWait h.uid) s

/-- The test after every operation (R390): a complete phase ends and wakes its waiters. -/
def State.barTest (s : State) (p e : Nat) (b : Bar) : State :=
  if b.need ≤ b.arrived && b.bal == 0 then
    let phase := (b.phase + 1) % 2 ^ 32
    ((s.putBar p e { b with phase := phase, arrived := 0 }).wakeBar e phase).putHead p e none
  else s.putBar p e b

/-- Does a balance fit its signed 48 bits? -/
def balFits (x : Int) : Bool := -(2 ^ 47) ≤ x && x < 2 ^ 47

/-- A barrier instruction: the handle of a barrier of the block, then a step on its entry and the issuing group. -/
def runBar (w : Word) (body : Nat → Bar → State → State × Flow) (s : State) : Answer :=
  runWord w {} (fun s =>
    let r := s.handleOf s.g (s.g.readK w.f.a.toNat) 1
    match r.1 with
    | none => (s, .trap 0x15 0)
    | some e => body e.1 (r.2.bar e.1) r.2) s

/-- `bar.expect`: bytes. -/
def execBarExpect (f : FForm) (s : State) : Answer :=
  runBar (mkWord shapeBarExpect f) (fun e b s =>
    let x := b.bal + (s.g.readK f.b.toNat).toInt
    if !balFits x then (s, .trap 0x04 0)
    else if s.g.unver then (s, .hold .waitStall (.until_ .verified))
    else (s.barTest s.g.part e { b with bal := x }, .done)) s

/-- `bar.expect.n`: arrivals needed. -/
def execBarExpectN (f : FForm) (s : State) : Answer :=
  runBar (mkWord shapeBarExpectN f) (fun e b s =>
    let n := (s.g.readK f.b.toNat).toNat
    if n = 0 || 512 < n then (s, .trap 0x04 0)
    else if s.g.unver then (s, .hold .waitStall (.until_ .verified))
    else (s.barTest s.g.part e { b with need := n }, .done)) s

/-- `bar.arrive`: a release at block scope; k(D) is the phase before any completion it causes. -/
def runArrive (bytes : Group → Int) (w : Word) (s : State) : Answer :=
  runBar w (fun e b s =>
    let x := b.bal + bytes s.g
    if !balFits x || 512 ≤ b.arrived then (s, .trap 0x04 0)
    else if s.g.unver || !s.g.allPerformed then (s, .hold .waitStall (.until_ .released))
    else
      let s := { s with g := s.g.setK 0 w.f.d.toNat (BitVec.ofNat 64 b.phase) }
      (s.barTest s.g.part e { b with bal := x, arrived := b.arrived + 1 }, .done)) s

/-- `bar.arrive`. -/
def execBarArrive (f : FForm) (s : State) : Answer := runArrive (fun _ => 0) (mkWord shapeBarArrive f) s
/-- `bar.arrive.x`: with bytes now expected. -/
def execBarArriveX (f : FForm) (s : State) : Answer := runArrive (fun g => (g.readK f.b.toNat).toInt) (mkWord shapeBarArriveX f) s

/-- `bar.wait`: an acquire at block scope. -/
def execBarWait (f : FForm) (s : State) : Answer :=
  runBar (mkWord shapeBarWait f) (fun e b s =>
    let n := ((s.g.readK f.b.toNat).extractLsb' 0 32).toNat
    if phasePassed b.phase n then (s.raiseVersion s.g.who 1, .done) else (s.putHead s.g.part e (some s.g.uid), .wait .waitBarrier (.barrier e n))) s

/-- The byte arrival of an engine operation reaches its barrier; a stale handle's is dropped (R393, R394). A balance that would leave its range is not changed. -/
def execEngineBarrierArrival (part ctx : Nat) (handle : BitVec 64) (bytes : Nat) (s : State) : Answer :=
  answer <|
    if !s.units.arrivals.contains (part, ctx, handle, bytes) then s
    else
      let s := { s with units := { s.units with arrivals := s.units.arrivals.erase (part, ctx, handle, bytes) } }
      let r := s.handle part ctx handle 1
      match r.1 with
      | none => r.2
      | some (e, _) =>
        let b := r.2.bar e
        if balFits (b.bal - bytes) then r.2.barTest part e { b with bal := b.bal - bytes } else r.2

/-! ### Joins (R395, R396) -/

/-- An instruction that reads a join. -/
def runJoin (w : Word) (body : Nat → State → State × Flow) (s : State) : Answer :=
  runWord w {} (fun s =>
    let r := s.handleOf s.g (s.g.readK w.f.a.toNat) 3
    match r.1 with
    | none => (s, .trap 0x15 0)
    | some e => body e.1 r.2) s

/-- `jwait`: an acquire at package scope. -/
def execJwait (f : FForm) (s : State) : Answer :=
  runJoin (mkWord shapeJwait f) (fun e s =>
    if s.joinCount e = 0 then (s.raiseVersion s.g.who 5, .done) else (s, .wait .waitJoin (.join e))) s

/-- `jstat`: COUNT. -/
def execJstat (f : FForm) (s : State) : Answer :=
  runJoin (mkWord shapeJstat f) (fun e s => ({ s with g := s.g.setK 0 f.d.toNat (BitVec.ofNat 64 (s.joinCount e)) }, .done)) s

/-- `jstat.s`: the status word. -/
def execJstatS (f : FForm) (s : State) : Answer :=
  runJoin (mkWord shapeJstatS f) (fun e s => ({ s with g := s.g.setK 0 f.d.toNat (BitVec.ofNat 64 (mnat s.mem.hbm (e + 16) 8)) }, .done)) s

end Sys2Proof.Machine
end

