-- ==== Sys2Proof/Machine/Tables.lean ====
section
/-! DEFINITION. The table instructions: catalogue, handle table, page tables, invalidations, the home table (R355 to R374, R187, R276, R371). -/

namespace Sys2Proof.Machine

open Sys2Proof

/-- Must a table instruction be held: a release at package scope and a store under R203 (R357)? -/
def Group.tableHeld (g : Group) : Bool := g.unver || !g.allPerformed

/-! ### Catalogue (R360 to R362) -/

/-- `tdef`. -/
def execTdef (f : FForm) (l : SetLit) (s : State) : Answer :=
  runWord (mkWord shapeTdef f (.set l)) {} (fun s =>
    let a := (s.g.readK f.a.toNat).toNat
    let tid := l.t1.toNat
    if 4095 < tid then (s, .trap 0x14 0)
    else if a % 64 != 0 then (s, .trap 0x08 (BitVec.ofNat 64 a))
    else
      let q := s.reachK .read a
      match q.1.stop, q.1.ok with
      | some x, _ => (q.2, x.2.retry)
      | none, [] => (s, q.1.flow none)
      | none, o :: _ =>
        if s.g.tableHeld then (s, .hold .waitStall (.until_ .released))
        else
          let r := (q.2.raiseVersion q.2.g.who 5).loadVerified q.2.g.who o.2.1 64
          let ok := tensorOk r.1
          let bs := r.1.set 0x39 (r.1.getD 0x39 0 ||| 0x80)
          let s := if ok then r.2.storeRun s.g.who ⟨.hbm, s.entryAddr s.g.part s.g.ctx tid⟩ bs else r.2
          ({ s with g := s.g.setK 0 f.d.toNat (if ok then 0 else 1) }, .done)) s

/-- A field of Table 18-4: its offset and bytes, the bits it holds, and whether it is signed. -/
def patchField (p : Nat) : Nat × Nat × Nat × Bool :=
  if p = 0 then (0, 8, 64, false) else if p = 1 then (8, 8, 64, false)
  else if p ≤ 5 then (0x10 + 4 * (p - 2), 4, 32, false)
  else if p ≤ 8 then (0x20 + 8 * (p - 6), 8, 64, true)
  else if p = 9 then (0x3A, 1, 4, false) else (0x3B, 1, 2, false)

/-- Puts a number of n bytes at an offset of a byte list. -/
def patchBytes (bs : List Byte) (a n x : Nat) : List Byte := bs.take a ++ leBytes n x ++ bs.drop (a + n)

/-- `tpatch` and `tpatch.add`. -/
def runTpatch (add : Bool) (l : SetLit) (w : Word) (s : State) : Answer :=
  runWord w {} (fun s =>
    let tid := l.t1.toNat
    let at_ := s.entryAddr s.g.part s.g.ctx tid
    let r := s.loadVerified s.g.who ⟨.hbm, at_⟩ 64
    if 4095 < tid || !entryValid r.1 then (s, .trap 0x14 0)
    else if s.g.tableHeld then (s, .hold .waitStall (.until_ .released))
    else
      let fd := patchField l.p1.toNat
      let raw := natAt r.1 fd.1 fd.2.1 % 2 ^ fd.2.2.1
      let old := patternInt fd.2.2.2 fd.2.2.1 raw
      let v := s.g.readK w.f.a.toNat
      let new : Int := if add then old + v.toInt else if fd.2.2.2 then v.toInt else v.toNat
      let fits := if fd.2.2.2 then -(2 ^ (fd.2.2.1 - 1)) ≤ new && new < 2 ^ (fd.2.2.1 - 1) else 0 ≤ new && new < 2 ^ fd.2.2.1
      let bs := patchBytes r.1 fd.1 fd.2.1 (intPattern fd.2.2.1 new)
      if fits && tensorOk bs then
        let s := r.2.storeRun s.g.who ⟨.hbm, at_⟩ bs
        ({ s with g := s.g.setK 0 w.f.d.toNat (BitVec.ofInt 64 old) }, .done)
      else ({ r.2 with g := r.2.g.setK 0 w.f.d.toNat 0x8000000000000000 }, .done)) s

/-- `tpatch`. -/
def execTpatch (f : FForm) (l : SetLit) (s : State) : Answer := runTpatch false l (mkWord shapeTpatch f (.set l)) s
/-- `tpatch.add`. -/
def execTpatchAdd (f : FForm) (l : SetLit) (s : State) : Answer := runTpatch true l (mkWord shapeTpatchAdd f (.set l)) s

/-- Clears VALID of one entry. -/
def State.invalidateEntry (s : State) (g : Group) (tid : Nat) : State :=
  let at_ := s.entryAddr g.part g.ctx tid + 0x39
  let b := mget s.mem.hbm at_
  if b.getLsbD 7 then s.storeRun g.who ⟨.hbm, at_⟩ [b &&& 0x7F] else s

/-- `tinv`. -/
def execTinv (f : FForm) (l : SetLit) (s : State) : Answer :=
  runWord (mkWord shapeTinv f (.set l)) {} (fun s =>
    let lo := l.t1.toNat
    let hi := l.t2.toNat
    if hi < lo || 4095 < hi then (s, .trap 0x04 0)
    else if s.g.tableHeld then (s, .hold .waitStall (.until_ .released))
    else ((List.range (hi + 1 - lo)).foldl (fun s i => s.invalidateEntry s.g (lo + i)) s, .done)) s

/-! ### Handles (R365, R366) -/

/-- The lowest free index of a context's handle table. -/
def State.freeIndex (s : State) (p c : Nat) : Option Nat :=
  (List.range 1024).find? fun i => let w := mnat s.mem.hbm (s.handleAddr p c i) 8; !w.testBit 63 && !w.testBit 60

/-- Creates an entry of a kind with its object words, and answers the handle; all ones when the table is full. -/
def State.newHandle (s : State) (g : Group) (kind : Nat) (w1 w2 : Nat) : W64 × State :=
  match s.freeIndex g.part g.ctx with
  | none => (BitVec.allOnes 64, s)
  | some i =>
    let e := s.handleAddr g.part g.ctx i
    let gen := bitsAt (mnat s.mem.hbm e 8) 31 16 + 1
    let owner := if kind = 3 then 0 else ((s.block? g.blk).map Block.owner).getD 0
    let w0 := 2 ^ 63 + kind * 2 ^ 61 + owner + gen * 2 ^ 16
    let s := s.storeRun (partWho g.part) ⟨.hbm, e⟩ (leBytes 8 w0 ++ leBytes 8 w1 ++ leBytes 8 w2 ++ leBytes 8 0)
    (BitVec.ofNat 64 (gen * 2 ^ 16 + i), s)

/-- `hnew.b`: a barrier whose NEED is the block's group count. -/
def execHnewB (f : FForm) (s : State) : Answer :=
  runWord (mkWord shapeHnewB f) {} (fun s =>
    if s.g.tableHeld then (s, .hold .waitStall (.until_ .released))
    else
      let need := ((s.block? s.g.blk).map fun b => b.groups.length).getD 0
      let r := s.newHandle s.g 1 need 0
      ({ r.2 with g := r.2.g.setK 0 f.d.toNat r.1 }, .done)) s

/-- `hnew.q`: a handle queue in the block's run, named through aperture slot 0. -/
def execHnewQ (f : FForm) (s : State) : Answer :=
  runWord (mkWord shapeHnewQ f) {} (fun s =>
    let a := (s.g.readK f.a.toNat).toNat
    let depth := (s.g.readK f.b.toNat).toNat
    let off := a - Config.apertureBase
    let inRun := (s.block? s.g.blk).any fun b => Config.apertureBase ≤ a && off < 0x100000 && off + 272 ≤ b.hdr.spad
    if !inRun || a % 16 != 0 || depth = 0 || 64 < depth then (s, .trap 0x04 0)
    else if s.g.tableHeld then (s, .hold .waitStall (.until_ .released))
    else
      let core := ((s.block? s.g.blk).map fun b => b.cores.getD 0 0).getD 0
      let base := ((s.block? s.g.blk).map fun b => b.spad.getD 0 0).getD 0 + off
      let r := s.newHandle s.g 2 (core * 2 ^ 20 + base) 0
      if r.1 = BitVec.allOnes 64 then ({ s with g := s.g.setK 0 f.d.toNat r.1 }, .done)
      else
        let s := r.2.poke ⟨.spad core, base⟩ (List.replicate 272 0)
        let s := s.putHq core base { depth := depth, count := 0, head := 0, allow := 0 }
        let s := { s with mem := { s.mem with hqs := s.mem.hqs ++ [(core, base)] } }
        ({ s with g := s.g.setK 0 f.d.toNat r.1 }, .done)) s

/-- `hnew.j`: a join. -/
def execHnewJ (f : FForm) (s : State) : Answer :=
  runWord (mkWord shapeHnewJ f) {} (fun s =>
    if s.g.tableHeld then (s, .hold .waitStall (.until_ .released))
    else
      let r := s.newHandle s.g 3 0 0
      ({ r.2 with g := r.2.g.setK 0 f.d.toNat r.1 }, .done)) s

/-- The groups that wait on the object of an entry leave for HANDLER with HANDLE_INVALID (R337, R366). -/
def State.faultWaiters (s : State) (e : Nat) (hq : Nat × Nat) : State :=
  let hit := s.allGroups.filter fun h => match h.wait with
    | .barrier e' _ => e' == e
    | .join e' => e' == e
    | .hpop c o _ _ => (c, o) == hq
    | .hpush c o => (c, o) == hq
    | _ => false
  let rec_ := fun (h : Group) => ({ code := 0x15, async := false, replay := 0, pc := h.pc, word0 := h.word0, word1 := h.word1.getD 0, lit := h.word1.isSome, addr := 0, done := 0 } : FaultRec)
  hit.foldl (fun s h =>
    if h.st = .parked || h.st = .preempted then (s.withdraw h.uid).mapGroups (fun x => x.uid == h.uid) fun x => { x with left := x.awake, pendFaults := insertFault (0, rec_ h) x.pendFaults }
    else
      let s := s.withdraw h.uid
      let q := s.faultWaiter h.uid 0x15 0
      match q.2, q.1.group? h.uid with
      | true, some x => q.1.broken x
      | _, _ => q.1) s

/-- `hdel`. -/
def execHdel (f : FForm) (s : State) : Answer :=
  runWord (mkWord shapeHdel f) {} (fun s =>
    let h := s.g.readK f.a.toNat
    let kinds := [1, 2, 3].map fun k => (k, s.handleOf s.g h k)
    match kinds.find? fun x => x.2.1.isSome with
    | none => (s, .trap 0x15 0)
    | some (kind, r) => match r.1 with
      | none => (s, .trap 0x15 0)
      | some (e, _) =>
        if s.g.tableHeld then (s, .hold .waitStall (.until_ .released))
        else
          let hq := if kind = 2 then r.2.hqPlace e else (0, 0)
          let s := r.2.freeHandle s.g.part e
          let s := if kind = 2 then { s with mem := { s.mem with hqs := s.mem.hqs.filter fun q => q != hq } } else s
          (s.faultWaiters e (if kind = 2 then hq else (128, 0)), .done)) s

/-! ### Invalidations (R187) -/

/-- Announces the invalidation of pages lo to hi - 1; the frames listed are freed when it completes. -/
def State.announce (s : State) (p c lo hi : Nat) (free : List Nat) : Nat × State :=
  let id := s.mem.nextInval
  (id, { s with mem := { s.mem with invals := s.mem.invals ++ [{ id := id, part := p, ctx := c, lo := lo, hi := hi, free := free }], nextInval := id + 1 }
                work := { s.work with msgs := s.work.msgs ++ [({ window := s.sched.window, src := 291, kind := .invalidation id } : Msg)] } })

/-- An announced invalidation completes: its announcement has been applied at every interface, every one announced before it has completed, and every access of the context has been performed; those of a saved group go out again under the translation that stands at its restore (log 82). A page that moves to another device is sent then (R191). Open regions whose word set holds a page of it abort (R276). -/
def execInvalidationComplete (inv : Nat) (s : State) : Answer :=
  answer <| match s.mem.invals.find? fun i => i.id == inv with
    | none => s
    | some i =>
      let first := i.seen && s.mem.invals.head?.any fun x => x.id == inv
      if !first || !(s.ctxGroups i.part i.ctx).all fun h => h.st == .preempted || h.allPerformed then s
      else
        let s := { s with mem := { s.mem with invals := s.mem.invals.filter fun x => x.id != inv } }
        let s := s.sweep i.part i.ctx i.lo i.hi i.free
        let s := match i.send with
          | some x => s.sendPage x.1 x.2.1 x.2.2
          | none => s
        let hit := fun (h : Group) => h.part == i.part && h.ctx == i.ctx && !h.ccc && h.region.any fun r => r.pages.any fun p => i.lo ≤ p && p < i.hi
        let quads := ((s.allGroups.filter hit).map Group.quad).eraseDups
        let s := s.mapGroups hit fun h => Group.stayParked { h.abortNow 14 with wait := .none, st := h.awake } h.st
        let s := quads.foldl State.grant s
        let p := s.part i.part
        let s := s.setPart i.part { p with freeing := p.freeing ++ i.free }
        (s.allGroups.filter fun h => h.wait == .inval inv).foldl (fun s h => s.completeWait h.uid) s

/-! ### Page tables (R367 to R372) -/

/-- Groups that wait for a frame and now have one try again, in arrival order (R369). -/
def State.servePool (s : State) (p : Nat) : State :=
  let x := s.part p
  (x.poolWait.take x.pool.length).foldl (fun s u => match (s.group? u).map Group.wait with
    | some .pool => s.wake u
    | _ => s) s

/-- Frames of the pool that a group may take: those beyond the groups that wait before it. -/
def Partition.poolFor (p : Partition) (uid : Nat) : Nat := p.pool.length - (p.poolWait.takeWhile fun u => u != uid).length

/-- The pool is empty for the group: a docket of kind 4, and the wait. -/
def State.poolEmpty (s : State) (va : Nat) : State × Flow :=
  let p := s.part s.g.part
  let s := s.setPart s.g.part { p with poolWait := if p.poolWait.contains s.g.uid then p.poolWait else p.poolWait ++ [s.g.uid] }
  (s.docket 4 0x17 s.g.source s.g.part s.g.ctx (leBytes 8 va), .retry .waitExt .pool)

/-- The group waits for frames no more; those that wait behind it may now have theirs (R369). -/
def State.leavePool (s : State) : State :=
  let p := s.part s.g.part
  if p.poolWait.contains s.g.uid then (s.setPart s.g.part { p with poolWait := p.poolWait.filter fun u => u != s.g.uid }).servePool s.g.part else s

/-- The address checks of `pcommit` and `pfree`. -/
def pageCheck (va : Nat) : Option Flow :=
  if va % 65536 != 0 then some (.trap 0x08 (BitVec.ofNat 64 va))
  else if Config.vaBytes ≤ va || inAperture va then some (.trap 0x04 0)
  else none

/-- A frame drawn from a pool reads zero, whatever the host has written to it since (R184). -/
def State.cleared (s : State) (frame : Nat) : State :=
  if (s.mem.hbm.any fun c => c.1 / 65536 == frame) || s.mem.img.any fun c => c.1 / 65536 == frame then s.zeroFrame frame else s

/-- `pcommit`. -/
def execPcommit (f : FForm) (s : State) : Answer :=
  runWord (mkWord shapePcommit f) {} (fun s =>
    let va := (s.g.readK f.a.toNat).toNat
    match pageCheck va with
    | some fl => (s, fl)
    | none =>
      if s.g.tableHeld then (s, .hold .waitStall (.until_ .released))
      else
        let me := s.g
        let put := fun (s : State) (x : W64) => let s := s.leavePool; { s with g := s.g.setK 0 f.d.toNat x }
        let r := s.findLeaf me.who va
        match r.1 with
        | none => (put r.2 2, .done)
        | some e =>
          let perms := f.rnd.toNat * 16
          if (!e.val.testBit 0 && !e.val.testBit 1) || e.large || e.target != 0 then (put r.2 2, .done)
          else if e.val.testBit 0 then
            let s := r.2.setEntry (partWho me.part) e.at_ ((e.val &&& (2 ^ 64 - 1 - 0x70)) ||| perms)
            let s := put s 1
            if (e.val &&& 0x70) &&& (0x70 - perms) != 0 then
              let a := s.announce me.part me.ctx (vpnOf va) (vpnOf va + 1) []
              (a.2, .wait .waitStall (.inval a.1))
            else (s, .done)
          else
            let p := r.2.part me.part
            match p.pool with
            | frame :: rest =>
              if p.poolFor me.uid = 0 then r.2.poolEmpty va
              else
                let s := (r.2.setPart me.part { p with pool := rest }).cleared frame
                (put (s.setEntry (partWho me.part) e.at_ (3 + perms + 65536 * frame)) 0, .done)
            | [] => r.2.poolEmpty va) s

/-- `pfree`. -/
def execPfree (f : FForm) (s : State) : Answer :=
  runWord (mkWord shapePfree f) {} (fun s =>
    let va := (s.g.readK f.a.toNat).toNat
    match pageCheck va with
    | some fl => (s, fl)
    | none =>
      if s.g.tableHeld then (s, .hold .waitStall (.until_ .released))
      else
        let me := s.g
        let put := fun (s : State) (x : W64) => { s with g := s.g.setK 0 f.d.toNat x }
        let r := s.findLeaf me.who va
        match r.1 with
        | none => (put r.2 1, .done)
        | some e =>
          if !e.val.testBit 0 || e.target != 0 || e.val.testBit 10 || e.large then (put r.2 1, .done)
          else
            let s := r.2.setEntry (partWho me.part) e.at_ 2
            let a := s.announce me.part me.ctx (vpnOf va) (vpnOf va + 1) [bitsAt e.val 51 16]
            (put a.2 0, .wait .waitStall (.inval a.1))) s

/-- Builds the tables missing on the way to a level-4 entry, with slices kept for tables and frames of the pool that the group may take; the answer is false where they do not suffice (R368). -/
def State.buildTables (s : State) (g : Group) (va : Nat) : (levels : List Nat) → (table : Nat) → Bool × State
  | [], _ => (true, s)
  | k :: ks, t =>
    let a := t + 8 * vaIndex va k
    let e := mnat s.mem.hbm a 8
    if e % 2 = 1 then State.buildTables s g va ks (nextTable e)
    else
      let p := s.part g.part
      match p.slices, p.pool with
      | x :: rest, _ =>
        let s := (s.setPart g.part { p with slices := rest }).setEntry (partWho g.part) a (x + 1)
        State.buildTables s g va ks x
      | [], frame :: more =>
        if p.poolFor g.uid = 0 then (false, s)
        else
          let x := 65536 * frame
          let s := ((s.setPart g.part { p with pool := more, slices := (List.range 7).map fun i => x + 8192 * (i + 1) }).cleared frame).setEntry (partWho g.part) a (x + 1)
          State.buildTables s g va ks x
      | [], [] => (false, s)

/-- The chunks of 32 MiB of a range. -/
def chunks (a n : Nat) : List Nat := (List.range (n / 2 ^ 25)).map fun i => a + i * 2 ^ 25

/-- The level-4 entries of a chunk: addresses and values; none without a table. -/
def State.chunkEntries (s : State) (w : Who) (va : Nat) : Option (List (Nat × Nat)) :=
  match s.walkTable w va [1, 2, 3] (s.root w) with
  | (some t, _) => some ((List.range 512).map fun i => let a := t + 8 * (vaIndex va 4 / 512 * 512 + i); (a, mnat s.mem.hbm a 8))
  | (none, _) => none

/-- The operand checks of `preserve`. -/
def rangeCheck (a n : Nat) : Option Flow :=
  if a % 2 ^ 25 != 0 then some (.trap 0x08 (BitVec.ofNat 64 a))
  else if n % 2 ^ 25 != 0 then some (.trap 0x08 (BitVec.ofNat 64 n))
  else if n = 0 || Config.vaBytes < a + n || (a < Config.apertureEnd && Config.apertureBase < a + n) then some (.trap 0x04 0)
  else none

/-- `preserve`: the whole range is checked, missing tables are built, and every entry is reserved. -/
def execPreserve (f : FForm) (s : State) : Answer :=
  runWord (mkWord shapePreserve f) {} (fun s =>
    let a := (s.g.readK f.a.toNat).toNat
    let n := (s.g.readK f.b.toNat).toNat
    match rangeCheck a n with
    | some fl => (s, fl)
    | none =>
      if s.g.tableHeld then (s, .hold .waitStall (.until_ .released))
      else
        let me := s.g
        let put := fun (s : State) (x : W64) => let s := s.leavePool; { s with g := s.g.setK 0 f.d.toNat x }
        let cs := chunks a n
        if cs.any fun c => (s.chunkEntries me.who c).any fun es => es.any fun e => e.2 % 4 != 0 then (put s 1, .done)
        else
          let r := cs.foldl (fun (acc : Bool × State) c => if acc.1 then acc.2.buildTables me c [1, 2, 3] (acc.2.root me.who) else acc) (true, s)
          if !r.1 then r.2.poolEmpty a
          else (put (cs.foldl (fun s c => ((s.chunkEntries me.who c).getD []).foldl (fun s e => s.setEntry (partWho me.part) e.1 (e.2 ||| 2)) s) r.2) 0, .done)) s

/-- `preserve.rel`: every entry must be RESERVED. -/
def execPreserveRel (f : FForm) (s : State) : Answer :=
  runWord (mkWord shapePreserveRel f) {} (fun s =>
    let a := (s.g.readK f.a.toNat).toNat
    let n := (s.g.readK f.b.toNat).toNat
    match rangeCheck a n with
    | some fl => (s, fl)
    | none =>
      if s.g.tableHeld then (s, .hold .waitStall (.until_ .released))
      else
        let me := s.g
        let put := fun (s : State) (x : W64) => { s with g := s.g.setK 0 f.d.toNat x }
        let cs := chunks a n
        if cs.all fun c => (s.chunkEntries me.who c).any fun es => es.all fun e => e.2 % 4 == 2 then
          (put (cs.foldl (fun s c => ((s.chunkEntries me.who c).getD []).foldl (fun s e => s.setEntry (partWho me.part) e.1 (e.2 - 2)) s) s) 0, .done)
        else (put s 1, .done)) s

/-- The context `tlbinv` acts on: the group's own, or the one k(D) selects on a cluster control core (R372). -/
def State.tlbContext (s : State) (w : Word) : Except Flow (Nat × Nat) :=
  let g := s.g
  if !g.ccc then .ok (g.part, g.ctx)
  else
    let x := g.readK w.f.d.toNat
    let p := (x.extractLsb' 0 6).toNat
    let c := (x.extractLsb' 6 3).toNat
    let owns := (s.part p).quads.any fun q => q / 32 == g.cluster
    if owns && (s.ctx p c).st == 1 then .ok (p, c) else .error (.trap 0x04 0)

/-- `tlbinv`: pages from lo to hi - 1, or every page. -/
def runTlbinv (range : Group → Except Flow (Option (Nat × Nat))) (w : Word) (s : State) : Answer :=
  runWord w { illegal := !s.g.ccc && w.f.d != 0 } (fun s =>
    match range s.g, s.tlbContext w with
    | .error fl, _ => (s, fl)
    | _, .error fl => (s, fl)
    | .ok none, .ok _ => (s, .done)
    | .ok (some (lo, hi)), .ok (p, c) =>
      if s.g.tableHeld then (s, .hold .waitStall (.until_ .released))
      else
        let a := s.announce p c lo hi []
        (a.2, .wait .waitStall (.inval a.1))) s

/-- `tlbinv` over a range. -/
def execTlbinv (f : FForm) (s : State) : Answer :=
  runTlbinv (fun g =>
    let a := (g.readK f.a.toNat).toNat
    let n := (g.readK f.b.toNat).toNat
    if a % 65536 != 0 then .error (.trap 0x08 (BitVec.ofNat 64 a))
    else if n % 65536 != 0 then .error (.trap 0x08 (BitVec.ofNat 64 n))
    else if n = 0 then .ok none
    else .ok (some (a / 65536, (a + n) / 65536))) (mkWord shapeTlbinv f) s

/-- `tlbinv.all`. -/
def execTlbinvAll (f : FForm) (s : State) : Answer := runTlbinv (fun _ => .ok (some (0, 2 ^ 40))) (mkWord shapeTlbinvAll f) s

/-! ### The home table (R373, R374) -/

/-- Moves the home of a frame and announces it: its lines leave the old home's slices, dirty ones written back, and the slice of its first line there sends the message, as the spec names none (DESIGN CHOICE, log 79). -/
def State.moveHome (s : State) (frame die : Nat) : State :=
  let src := 144 + s.lineSlice (512 * frame)
  let s := if s.mem.l2.any fun e => e.1 / 512 == frame then
      let s := (List.range 16).foldl (fun s i => s.cleanTile (16 * frame + i)) s
      { s with mem := { s.mem with l2 := s.mem.l2.filter fun e => e.1 / 512 != frame } }
    else s
  { s with mem := { s.mem with home := tset (frameDie frame) s.mem.home frame die, moving := s.mem.moving ++ [(frame, s.sched.window)] }
           work := { s.work with msgs := s.work.msgs ++ [({ window := s.sched.window, src := src, kind := .homeMove frame } : Msg)] } }

/-- `hmove`. -/
def execHmove (f : FForm) (s : State) : Answer :=
  runWord (mkWord shapeHmove f) {} (fun s =>
    let va := (s.g.readK f.a.toNat).toNat
    let die := (s.g.readK f.b.toNat).toNat
    if va % 65536 != 0 then (s, .trap 0x08 (BitVec.ofNat 64 va))
    else if 1 < die then (s, .trap 0x04 0)
    else if s.g.tableHeld then (s, .hold .waitStall (.until_ .released))
    else
      let me := s.g
      let put := fun (s : State) (x : W64) => ({ s with g := s.g.setK 0 f.d.toNat x }, Flow.done)
      let r := if Config.vaBytes ≤ va then (none, s) else s.findLeaf me.who va
      match r.1 with
      | none => put r.2 2
      | some e =>
        if !e.val.testBit 0 || e.target != 0 then put r.2 2
        else
          let frames := if e.large then (List.range 512).map fun i => bitsAt e.val 51 25 * 512 + i else [bitsAt e.val 51 16]
          if frames.all fun x => r.2.homeDie x == die then put r.2 1
          else put (frames.foldl (fun s x => s.moveHome x die) r.2) 0) s

/-! ### Frames (R184, R198, R371) -/

/-- A freed frame, discarded and zeroed, enters the page pool, or the standing checkpoint (R309). -/
def execFreedFrameToPool (part frame : Nat) (s : State) : Answer :=
  answer <|
    let p := s.part part
    if !p.freeing.contains frame then s
    else
      let s := s.setPart part { p with freeing := p.freeing.erase frame }
      match s.standing part with
      | some k =>
        let m := s.mem
        let s := { s with mem := { m with hbm := mcopyRange m.hbm m.img (65536 * frame) (65536 * frame + 65536), l2 := m.l2.filter fun e => e.1 / 512 != frame, l1 := m.l1.filter fun c => c.line / 512 != frame } }
        s.putCkpt { k with freed := k.freed ++ [frame] }
      | none =>
        let s := s.zeroFrame frame
        (s.setPart part { s.part part with pool := (s.part part).pool ++ [frame] }).servePool part

/-- Every page table of a context: level-1 to level-4 tables of 8 KiB. -/
def State.tables (s : State) (p c : Nat) : List Nat :=
  let t1 := [(s.ctx p c).ptroot.toNat]
  let t2 := s.subTables t1
  let t3 := s.subTables t2
  t1 ++ t2 ++ t3 ++ s.subTables t3

/-- The frames of a run of bytes. -/
def runFrames (a n : Nat) : List Nat := (List.range ((a % 65536 + n + 65535) / 65536)).map fun i => a / 65536 + i

/-- The frames that hold the page tables of a partition. -/
def State.tableFrames (s : State) (p : Nat) : List Nat := ((s.liveCtxs p).flatMap fun c => (s.tables p c).map fun t => t / 65536).eraseDups

/-- The frames that hold tables of a partition: page tables, catalogues and handle tables (R355). -/
def State.heldFrames (s : State) (p : Nat) : List Nat :=
  s.tableFrames p ++ (s.liveCtxs p).flatMap fun c => runFrames (s.ctx p c).catbase.toNat Config.catalogueBytes ++ runFrames (s.ctx p c).htbase.toNat Config.handleTableBytes

/-- The host driver puts a frame of a partition into its page pool, whose number is `part`, or into its checkpoint pool, `part - 64` (Table 9-6). -/
def execPoolFrameArrival (part frame : Nat) (s : State) : Answer :=
  answer <|
    let checkpoint := 64 ≤ part
    let part := part % 64
    let p := s.part part
    let busy := p.pool.contains frame || p.ckpool.contains frame || p.metaFrames.contains frame || p.freeing.contains frame || (p.slices.any fun x => x / 65536 == frame) || (s.heldFrames part).contains frame
    if !p.frames.contains frame || busy then s
    else if checkpoint then s.setPart part { p with ckpool := p.ckpool ++ [frame] }
    else
      let s := s.cleared frame
      (s.setPart part { s.part part with pool := (s.part part).pool ++ [frame] }).servePool part

/-! ### Metadata of a partition (R197, R198) -/

/-- Metadata tiles of each off-chip level for n frames: 256 entries a tile, and a top level of at most 256 tiles (Table 10-3). -/
def metaCounts (frames : Nat) : List Nat :=
  let l1 := (frames + 15) / 16
  let l2 := (l1 + 255) / 256
  let l3 := (l2 + 255) / 256
  if l1 ≤ 256 then [l1] else if l2 ≤ 256 then [l1, l2] else [l1, l2, l3]

/-- Do the metadata frames hold the metadata of n frames? -/
def metaFits (metaFrames frames : Nat) : Bool := (metaCounts frames).sum ≤ 16 * metaFrames

/-- Adds tiles to levels up to the counts, from a list of free ones. -/
def growLevels : (counts : List Nat) → (levels : List (List Nat)) → (free : List Nat) → List (List Nat)
  | [], _, _ => []
  | n :: ns, ls, free => let have_ := ls.headD []; (have_ ++ free.take (n - have_.length)) :: growLevels ns (ls.drop 1) (free.drop (n - have_.length))

/-- The partition with metadata tiles for all its frames, the new ones the first of its metadata frames that are free (log 80). -/
def Partition.placeMetas (p : Partition) : Partition :=
  let counts := metaCounts p.frames.length
  let free := (p.metaFrames.flatMap fun f => (List.range 16).map fun i => 16 * f + i).filter fun t => !p.metas.any fun l => l.contains t
  { p with metas := growLevels counts p.metas free, levels := counts.length }

/-- Frames that pass to a partition hold zeros at version 0 under its keys (R198). -/
def State.freshFrames (s : State) (frames : List Nat) : State :=
  let gone := fun (a : Nat) => frames.contains (a / 65536)
  { s with mem := { s.mem with
      hbm := s.mem.hbm.filter fun c => !gone c.1, img := s.mem.img.filter fun c => !gone c.1
      tiles := s.mem.tiles.filter fun e => !frames.contains (e.1 / 16), metas := s.mem.metas.filter fun e => !frames.contains (e.1 / 16), l2 := s.mem.l2.filter fun e => !frames.contains (e.1 / 512)
      l1 := s.mem.l1.filter fun c => !frames.contains (c.line / 512), home := s.mem.home.filter fun e => !frames.contains e.1 } }

/-- A frame that no partition holds is handed to an active one. Where the metadata frames are full it becomes one of them (log 80); the upper metadata tiles that gain an entry have changed on die. -/
def execFrameHandOver (part frame : Nat) (s : State) : Answer :=
  answer <|
    let p := s.part part
    if p.st != .active || Config.hbmBytes ≤ 65536 * frame || (s.frameOwner frame).isSome then s
    else
      let s := s.freshFrames [frame]
      let p := { p with frames := p.frames ++ [frame], metaFrames := if metaFits p.metaFrames.length (p.frames.length + 1) then p.metaFrames else p.metaFrames ++ [frame] }
      let p' := p.placeMetas
      let upper := if p'.metas = p.metas then [] else (p'.metas.drop 1).filterMap List.getLast?
      { (s.setPart part p') with mem := { s.mem with metas := upper.foldl (fun t m => tput t m true) s.mem.metas } }

end Sys2Proof.Machine
end

