-- ==== Sys2Proof/Machine/Saved.lean ====
section
/-! DEFINITION. Saved state: pre-emption, the save record and restore (R303 to R306), parking (R33, R108), checkpoints (R307 to R310), kill, hardware errors and rollback (R311, R312, R205, R206), and the watchdog (R313 to R315). -/

namespace Sys2Proof.Machine

open Sys2Proof

/-! ### Stopping a group (R305, step 1) -/

/-- Can a pre-emption take this group? -/
def Group.canStop (h : Group) : Bool := !h.ccc && !h.stopping && h.st != .free && h.st != .retired && h.st != .preempted

/-- The group issues no further word. An open region aborts and an arrival that still waits is withdrawn; its word issues again after the restore. -/
def Group.stop (h : Group) : Group :=
  if !h.canStop then h
  else
    let h := if h.inreg && h.wait != .assist then Group.stayParked { h.abortNow 11 with st := h.awake, wait := .none } h.st else h
    let h := if h.wait = .gang || h.wait = .pair then { h.untake with sent := none, arrival := none, resume := none } else h
    { h with stopping := true }

/-- `PREEMPTION`: issue of the group stops at an instruction boundary. -/
def execPreemption (uid : Nat) (s : State) : Answer :=
  answer <| match s.group? uid with
    | some h => (s.putGroup h.stop).grant h.quad
    | none => s

/-! ### The save record (R303, Table 15-3) -/

/-- The value of a mask register when every write has taken effect. -/
def MReg.final (r : MReg) : Mask := (r.pend.getLast?.map Prod.snd).getD r.base

/-- n free words, lowest address first: fields whose coding the spec leaves open (log 6). -/
def freeBytes : (n : Nat) → State → List Byte × State
  | 0, s => ([], s)
  | n + 1, s =>
    let v := s.freeValue
    let r := freeBytes n v.2
    (leBytes 8 v.1.toNat ++ r.1, r.2)

/-- A field of 8 bytes. -/
def word8 (x : Nat) : List Byte := leBytes 8 x

/-- The names that hold registers. -/
def Group.heldNames (h : Group) : List Nat := (h.v.filter fun e => e.2.alloc).map Prod.fst

/-- The requests that the record carries as replay packets (R303, R304). -/
def Group.packetReqs (h : Group) : List Req := (h.reqs.filter fun r => r.kind != .store || h.unver).take 16

/-- The addresses of the 32 lanes of a packet, zero where the request has none. -/
def Req.laneAddrs (r : Req) : List Byte := laneNumbers.flatMap fun l => word8 (((r.elems.find? fun e => e.lane == l).map Elem.va).getD 0)

/-- The replay packets: lane addresses, and the fields and data whose coding the spec leaves open (log 46). -/
def packetPieces : (at_ : Nat) → List Req → State → List (Nat × List Byte) × State
  | _, [], s => ([], s)
  | a, r :: rs, s =>
    let f := freeBytes 8 s
    let d := freeBytes 256 f.2
    let q := packetPieces (a + 2560) rs d.2
    ([(a, f.1), (a + 0x40, r.laneAddrs), (a + 0x140, d.1)] ++ q.1, q.2)

/-- The pieces of the record with their offsets. The coding of the state fields at 0x040 is left open. -/
def State.recordPieces (s : State) (h : Group) : List (Nat × List Byte) × State :=
  let time := (s.part h.part).time
  let st := freeBytes 8 s
  let pk := packetPieces 0x1500 h.packetReqs st.2
  let marks := (h.heldNames).foldl (fun m n => m + 2 ^ n) 0
  let regs := h.heldNames.map fun n => (0xC000 + 128 * n, ((h.vreg n).final).flatMap fun x => leBytes 4 x.toNat)
  let faults := (List.range (min 16 h.pendFaults.length)).map fun i => (0x500 + 256 * i, ((h.pendFaults[i]?).map fun f => recordBytes h f.2 time).getD [])
  let acc := (List.range h.tiles.length).map fun i => (0x14000 + 0x4000 * i, mbytes (tget [] s.mem.acc h.quad) (0x4000 * h.tiles.getD i 0) 0x4000)
  ([(0x000, [h.pc, h.mode, h.gstat, h.gang, h.pair, h.wid, h.hdr, h.frec].flatMap fun x => word8 x.toNat),
    (0x040, st.1),
    (0x080, h.paths.flatMap pathBytes),
    (0x100, (List.range 8).flatMap fun i => leBytes 4 (if i = 0 then h.m0 else (tget ({} : MReg) h.m i).final).toNat),
    (0x120, (List.range 32).flatMap fun i => word8 (if i = 0 then 0 else (tget ({} : KReg) h.k i).final.toNat)),
    (0x220, laneNumbers.flatMap fun l => leBytes 4 (genAt h.gens l).toNat),
    (0x2A0, [h.counter 0, h.counter 1, h.counter 2, h.counter 3, h.batch, h.lastBatch].flatMap word8),
    (0x2E0, leBytes 32 marks),
    (0x300, h.pendTiles.flatMap fun t => word8 (4096 * t))]
    ++ faults ++ pk.1 ++ regs ++ acc, pk.2)

/-- The lowest record of a context's save area that no saved group holds. -/
def State.freeRecord (s : State) (h : Group) : Nat :=
  let used := (s.ctxGroups h.part h.ctx).filterMap Group.saveAt
  ((List.range (used.length + 1)).find? fun i => !used.contains i).getD 0

/-- Is no word of the group under way at an agent? -/
def Wait.settled : Wait → Bool
  | .assist | .faultAfter _ _ _ _ | .inval _ | .promote _ => false
  | _ => true

/-- May the save proceed: every assist and accepted matrix operation is over, every store that has left the load-store unit and every atomic of which a run has left it is over, D written, and so is every word an agent completes for the group (R305, R249)? -/
def Group.saveReady (h : Group) : Bool :=
  h.stopping && h.wait.settled && h.matOps.isEmpty && !(h.promote.any Prod.snd)
    && h.reqs.all fun r => match r.kind with
      | .load | .exchange => true
      | .store => h.unver
      | .atomic => r.elems.all fun e => !e.done

/-- A wait whose word issues again at the restore, out of any list meanwhile (R141, R287, R336, R343, R394, R395). -/
def Wait.leaves : Wait → Bool
  | .gang | .pair | .pop _ _ _ _ _ | .hpop _ _ _ _ | .hpush _ _ | .barrier _ _ | .join _ => true
  | _ => false

/-- A wait that ends at the restore, where the word issues again: besides those that left their lists, a read of `kwait` (R162), a wait on the event queue of a cluster that the group may have left, and a wait for a frame that may be there by now (R369). -/
def Wait.reissues : Wait → Bool
  | .none | .pop _ _ _ _ _ | .kwait _ | .evpost | .evpop _ | .pool => true
  | _ => false

/-- `PREEMPTION_SAVE` (R305, steps 2 to 4): the record is written, tiles and registers are given up, and the group is PREEMPTED. A load's element that has been performed keeps its value; the others go out again at the restore. A pop keeps its wait for the watchdog (R313). Engine operations run on. -/
def execPreemptionSave (uid : Nat) (s : State) : Answer :=
  answer <| match s.group? uid with
    | none => s
    | some h0 =>
      if !h0.saveReady then s
      else
        let h := h0.abortNow 11
        let r := s.recordPieces h
        let at_ := s.freeRecord h
        let cells := r.1.foldl (fun m p => msetBytes m p.1 p.2) ([] : Memory)
        let s := r.2.bulkStore h.part ((s.ctx h.part h.ctx).save.toNat + Config.saveRecordBytes * at_) Config.saveRecordBytes cells
        let acc := h.tiles.map fun t =>
          ((tget [] s.mem.acc h.quad).filter fun c => 0x4000 * t ≤ c.1 && c.1 < 0x4000 * t + 0x4000).map fun (c : Host.Cell) => (c.1 - 0x4000 * t, c.2)
        let s := (s.putGroup h).clearTiles h.quad h.tiles
        let s := if h.wait.leaves then s.withdraw uid else s
        let pops := match h.wait with
          | .pop _ _ _ _ _ => true
          | _ => false
        let left := if h.st = .parked then h.left else h.st
        let s := s.mapGroups (fun x => x.uid == uid) fun x =>
          { x with st := .preempted, left := left, wait := if pops then h.wait else if h.granted then .none else x.wait, stopping := false, accSave := acc, saveAt := some at_, tiles := [], lastPage := []
                   reqs := x.reqs.map (fun (q : Req) => { q with stamp := none }), promote := [] }
        s.grant h.quad

/-! ### Parking (R33, R108) -/

/-- The names of a group that a parking spills. -/
def Group.spilled (h : Group) : List Nat := (h.v.filter fun e => h.spills e.1 e.2).map Prod.fst

/-- The place of a name's spill slot in the area at `base`, written or read for the group; an exhausted tile does not stop the hardware (R208). None where the translation fails. -/
def State.spillPlace (s : State) (h : Group) (base : W64) (kind : AccessKind) (n : Nat) : Option Loc × State :=
  let va := base.toNat + 32768 * (192 * h.core + h.slot) + 128 * n
  let r := s.lookup h.who kind va
  match r.1 with
  | .ok l _ => (some l, r.2)
  | .fault 0x0D => match r.2.findLeaf h.who va with
    | (some e, s) => match s.place h.who (e.leaf va false) va with
      | .ok l _ => (some l, s)
      | _ => (none, s)
    | (none, s) => (none, s)
  | _ => (none, r.2)

/-- Writes the spilled registers of a group to the context's spill area, whose address is kept for the restore; a translation fault is a hardware error in its quadrant (R108; log 85). -/
def State.spill (s : State) (h : Group) : State :=
  let base := (s.ctx h.part h.ctx).spill
  let s := h.spilled.foldl (fun s n => match s.spillPlace h base .write n with
    | (some l, s) => s.storeRun h.who l (((h.vreg n).final).flatMap fun x => leBytes 4 x.toNat)
    | (none, s) => s.alarm (.hwError h.part (some h.quad))) s
  s.mapGroups (fun x => x.uid == h.uid) fun x => { x with spillAt := base }

/-- A group has come back to its slot, or left it for good: accesses that waited for its registers are made again (R173). -/
def State.wakeWindows (s : State) : State := (s.allGroups.filter fun h => h.wait == .other).foldl (fun s h => s.wake h.uid) s

/-- Does the group wait for registers, in WAIT_ALLOC or for its records in LAUNCHING (R33), or hold a grant of registers that it has not yet taken (R107)? -/
def Group.wantsRegs (h : Group) : Bool := h.st == .waitAlloc || h.granted || (h.st == .launching && (match h.wait with
  | .alloc _ => true
  | _ => false))

/-- May a parking take the group: a WAIT_ state, or LAUNCHING for records? -/
def Group.canPark (h : Group) : Bool :=
  (h.wantsRegs && !h.granted) || ([SlotState.waitStall, .waitCounter, .waitBatch, .waitQueue, .waitBarrier, .waitGang, .waitPair, .waitJoin, .waitExt] : List SlotState).contains h.st

/-- `PARK` (R33): when the rule holds, the youngest group with above-floor registers is spilled, and its registers go to those that wait. A group whose region is open parks with the region open: the registers of its map are spilled, and those that its checkpoint alone holds stay in the bank (DESIGN CHOICE, log 104). -/
def execPark (quad : Nat) (s : State) : Answer :=
  answer <|
    let gs := s.quadGroups quad
    let busy := gs.any fun h => ([SlotState.ready, .handler, .waitStall, .waitCounter, .waitBatch] : List SlotState).contains h.st
    if busy || !gs.any Group.wantsRegs then s
    else
      let young := (gs.filter fun h => h.canPark && !h.spilled.isEmpty).foldl (fun (best : Option Group) h => match best with
        | some b => if b.uid < h.uid then some h else some b
        | none => some h) none
      match young with
      | none => s
      | some h =>
        let s := s.spill h
        (s.mapGroups (fun x => x.uid == h.uid) fun x => { x with left := x.st, st := .parked }).grant quad

/-- Has the pool of every bank the registers that a list of names above the floor needs, beside what older waiting groups claim? -/
def State.poolHolds (s : State) (quad uid : Nat) (names : List Nat) : Bool :=
  (List.range 4).all fun b => inBank names b = 0 || inBank names b + s.claimed quad uid b ≤ s.poolFree quad b

/-- `PARKED_RESTORE` (R108): after every grant, and when all its registers fit, the group takes them at once and is in the state it left, or awake. A spill slot that cannot be read is a hardware error. -/
def execParkedRestore (uid : Nat) (s : State) : Answer :=
  answer <| match s.group? uid with
    | none => s
    | some h =>
      if h.st != .parked || (s.quadGroups h.quad).any Group.wantsRegs || !s.poolHolds h.quad uid h.spilled then s
      else
        let s := h.spilled.foldl (fun s n => match s.spillPlace h h.spillAt .read n with
          | (some _, s) => s
          | (none, s) => s.alarm (.hwError h.part (some h.quad))) s
        let s := s.mapGroups (fun x => x.uid == uid) fun x => { x with st := x.left, lastPage := [] }
        s.wakeWindows.grant h.quad

/-! ### Restore (R306) -/

/-- A checkpoint of the partition that is in progress. -/
def State.inProgress (s : State) (p : Nat) : Option Checkpoint := s.plat.ckpts.find? fun k => k.part == p && k.status == 1

/-- May the saved group take this core slot: an owned quadrant with a free slot, its floors and its tiles? -/
def State.canRestore (s : State) (h : Group) (core slot : Nat) : Bool :=
  let quad := 4 * core + slot / 48
  let room := s.quadRoom false core (slot / 48)
  h.st == .preempted && core < Config.cores && slot < Config.groupSlotsPerCore && (s.part h.part).st == .active && (s.inProgress h.part).isNone
    && (s.part h.part).quads.contains quad && !s.slotTaken core slot && h.accSave.length ≤ room.tiles.length
    && (List.range 4).all fun b => h.floorIn b ≤ room.banks.getD b 0

/-- The requests of a saved group as they go out again, under its new generation, each access that it has still to make under the translation that stands now (R187; log 82). -/
def State.replay (s : State) (h : Group) : State :=
  h.reqs.foldl (fun s q =>
    let es := q.elems.foldl (fun (acc : List Elem × State) e =>
      if e.done || q.kind == .exchange then (acc.1 ++ [e], acc.2) else let p := acc.2.placeElem h.uid q e; (acc.1 ++ [p.1], p.2)) ([], s)
    es.2.putReq h.uid { q with gen := h.gen, elems := es.1 }) s

/-- `RESTORE`: the group returns to a core of its partition under its next generation. Its names take registers by their class, or it returns parked; UNVER is found anew (R204); its accesses go out again; and nothing that the L1 of the core holds of its context is older than the save (R236). -/
def execRestore (uid core slot : Nat) (s : State) : Answer :=
  answer <| match s.group? uid with
    | none => s
    | some h =>
      if !s.canRestore h core slot then s
      else
        let quad := 4 * core + slot / 48
        let tiles := (s.quadRoom false core (slot / 48)).tiles.take h.accSave.length
        let m := (tiles.zip h.accSave).foldl (fun m x => x.2.foldl (fun m c => mset m (0x4000 * x.1 + c.1) c.2) m) (tget [] s.mem.acc quad)
        let gen := h.gen + 1
        let again := h.wait.reissues && h.left != .launching
        let s := if again then s.withdraw uid else s
        let v := h.v.map fun (e : Nat × VReg) => (e.1, { e.2 with pooled := !h.isFloor e.1 })
        let h' := { h with
          core := core, slot := slot, gen := gen, epoch := h.epoch + 1, tiles := tiles, accSave := [], saveAt := none, v := v, pendTiles := h.pendTiles.filter fun t => !s.mem.tileVerified t
          left := if again then h.awake else h.left, wait := if again then .none else h.wait, resume := if again then none else h.resume }
        let fits := s.poolHolds quad uid h'.spilled
        let h' := { h' with st := if fits then h'.left else .parked }
        let s := { s with mem := { s.mem with acc := tset [] s.mem.acc quad m } }
        let s := s.setPart h.part { s.part h.part with resuming := (s.part h.part).resuming.filter fun u => u != uid }
        let s := ((s.putGroup h').setGen core slot gen.toNat).replay h'
        let s := (s.freshen h'.who).raiseVersion h'.who 6
        if fits then s.wakeWindows.grant quad else s.spill h'

/-! ### Killing a group (R32, R34) -/

/-- The matrix operations of a group that are not complete go; the other members of a gang keep their slices (R299). -/
def State.dropSlices (s : State) (uid : Nat) : State :=
  let rest := fun (o : MatOp) => { o with slices := o.slices.filter fun sl => sl.uid != uid }
  { s with units := { s.units with quads := s.units.quads.map fun (e : Nat × Quadrant) => (e.1, { e.2 with mat := (e.2.mat.map rest).filter fun (o : MatOp) => !o.slices.isEmpty }) } }

/-- `KILL`: the group is RETIRED at once. Its effects that R203 holds, its loads and its engine and matrix operations are dropped; stores and atomics that have left it are performed. An assist under way ends first (R95), and the kill then drops what it wrote. -/
def State.kill (s : State) (uid : Nat) : State :=
  match s.group? uid with
  | none => s
  | some h =>
    if h.ccc || h.st = .free || h.st = .retired then s
    else
      let s := (s.withdraw uid).dropSlices uid
      let out := fun (q : Req) => (q.kind == .store || q.kind == .atomic) && !h.unver && h.st != .preempted
      let s := s.mapGroups (fun x => x.uid == uid) fun x =>
        { x with reqs := (x.reqs.filter out).map fun (q : Req) => { q with dest := .none }, ops := [], matOps := [], batchOut := [], pendFaults := []
                 record := [], accSave := [], saveAt := none, promote := [], stopping := false, refused := [] }
      let s := s.mapGroups (fun x => x.uid == uid && h.st == .preempted) fun x => { x with tiles := [] }
      (s.retire uid false true).wakeWindows

def execKill (uid : Nat) (s : State) : Answer := answer (s.kill uid)

/-! ### Checkpoints (R307 to R310) -/

/-- A checkpoint that has recorded nothing yet. -/
def Checkpoint.start (p n : Nat) : Checkpoint :=
  { part := p, num := n, status := 1, groups := [], blocks := [], queues := [], ranges := [], graphs := [], ctxs := [], pool := [], slices := [], freeing := [], cow := [], tables := [], copies := [], freed := [], hbm := [], hqs := [] }

/-- `ckpt`: numbers a checkpoint and stops every group of the partition, the issuer after this word; 0 when one is in progress. -/
def execCkpt (f : FForm) (s : State) : Answer :=
  let w := mkWord shapeCkpt f
  runWord w { illegal := !s.g.ccc && f.a != 0 } (fun s =>
    let g := s.g
    let p := if g.ccc then (g.readK f.a.toNat).toNat else g.part
    if g.ccc && (39 < p || !(s.part p).quads.any fun q => q / 32 == g.cluster) then (s, .trap 0x04 0)
    else if (s.inProgress p).isSome then ({ s with g := g.setK w.lat f.d.toNat 0 }, .done)
    else
      let x := s.part p
      let n := x.ckNext
      let s := s.setPart p { x with ckNext := n + 1 }
      let s := { s with plat := { s.plat with ckpts := s.plat.ckpts ++ [Checkpoint.start p n] }, g := g.setK w.lat f.d.toNat (BitVec.ofNat 64 n) }
      let s := s.mapGroups (fun h => h.part == p && h.uid != g.uid) Group.stop
      ({ s with g := if g.ccc then s.g else { s.g with stopping := true } }, .done)) s

/-- `ckstat`: the status of a checkpoint of the issuer's partition; a cluster control core has none. -/
def execCkstat (f : FForm) (s : State) : Answer :=
  let w := mkWord shapeCkstat f
  runWord w {} (fun s =>
    let n := (s.g.readK f.a.toNat).toNat
    let st := if s.g.ccc then 0 else ((s.plat.ckpts.find? fun k => k.part == s.g.part && k.num == n).map Checkpoint.status).getD 0
    ({ s with g := s.g.setK w.lat f.d.toNat (BitVec.ofNat 64 st) }, .done)) s

/-- The table memory a checkpoint records: page tables and handle tables, as base and length. -/
def State.tableRanges (s : State) (p : Nat) : List (Nat × Nat) :=
  (s.liveCtxs p).flatMap fun c => ((s.tables p c).eraseDups.map fun t => (t, 8192)) ++ [((s.ctx p c).htbase.toNat, 32768)]

def State.partGraphs (s : State) (p : Nat) : List Nat := (s.tabs.graphs.filter fun g => g.part == p).map Graph.gidx

/-- Writes back every dirty line of a partition. -/
def State.cleanPart (s : State) (p : Nat) : State :=
  let tiles := ((s.mem.l2.filter fun e => e.2.dirty && s.frameOwner (e.1 / 512) == some p).map fun e => e.1 / 32).eraseDups
  tiles.foldl State.cleanTile s

/-- Sweeps every translation of a partition. -/
def State.sweepPart (s : State) (p : Nat) : State := (s.liveCtxs p).foldl (fun s c => s.sweep p c 0 (2 ^ 40)) s

/-- Marks the writable pages of a partition COW (R308, step 5). Page tables, which no leaf maps, are listed by their frames instead (DESIGN CHOICE, log 86). -/
def State.markCow (s : State) (p : Nat) : State :=
  (s.liveCtxs p).foldl (fun s c => (s.leaves p c).foldl (fun s e =>
    if e.2.testBit 0 && e.2.testBit 5 && bitsAt e.2 53 52 == 0 && !e.2.testBit 9 then s.writeEntry (partWho p) e.1 (e.2 + 512) else s) s) s

/-- Lies the scratchpad byte in a quadrant of the partition? -/
def State.partSpad (s : State) (p core off : Nat) : Bool := s.quadOwner (4 * core + off / Config.spadRegion) == some p

/-- The contents of a checkpoint, recorded from the partition as it stands. -/
def State.recordCkpt (s : State) (k : Checkpoint) : Checkpoint :=
  let p := k.part
  let gs := s.partGraphs p
  let rs := s.tableRanges p
  let x := s.part p
  { k with
    status := 2
    groups := s.allGroups.filter fun h => h.part == p && !h.ccc
    blocks := s.work.blocks.filter fun b => b.part == p
    queues := s.work.queues.filter fun q => gs.contains q.gidx
    ranges := s.work.ranges.filter fun r => gs.contains r.gidx
    graphs := s.tabs.graphs.filter fun g => g.part == p
    ctxs := (s.liveCtxs p).map fun c => (c, s.ctx p c)
    pool := x.pool, slices := x.slices, freeing := x.freeing
    tables := s.tableFrames p
    hbm := s.mem.hbm.filter fun c => rs.any fun r => r.1 ≤ c.1 && c.1 < r.1 + r.2
    hqs := (s.mem.hqs.filter fun q => s.partSpad p q.1 q.2).map fun (q : Nat × Nat) => (q.1, q.2, s.peek ⟨.spad q.1, q.2⟩ 272) }

/-- Is nothing of the partition under way that the record would not hold? -/
def State.ckptQuiet (s : State) (p : Nat) : Bool :=
  (s.allGroups.all fun h => h.part != p || h.ccc || h.st == .preempted || h.st == .retired)
    && (s.mem.invals.all fun i => i.part != p) && (s.units.arrivals.all fun a => a.1 != p) && (s.units.decrements.all fun d => d.1 != p)
    && (s.work.pending.all fun o => !(s.partGraphs p).contains o.1)
    && s.work.msgs.all fun m => match m.kind with
      | .restart gidx _ _ _ _ => !(s.partGraphs p).contains gidx
      | _ => true

/-- `CHECKPOINT_COMPLETE` (R308): with every group saved, dirty lines are written back, pages marked, the state recorded, and the predecessor replaced. A tile that fails its check abandons the checkpoint: the alarm rolls back to the one before it (R206). -/
def execCheckpointComplete (part : Nat) (s : State) : Answer :=
  answer <| match s.inProgress part with
    | none => s
    | some k =>
      if !s.ckptQuiet part then s
      else
        let gs := s.partGraphs part
        let s := (s.work.attempts.filter fun a => gs.contains a.gidx).foldl State.returnGrants s
        let s := s.cleanPart part
        if s.alarmed then s
        else
          let s := (s.markCow part).sweepPart part
          if s.alarmed then s
          else
            let s := match s.standing part with
              | some old => s.endCheckpoint old 3
              | none => s
            let s := s.putCkpt (s.recordCkpt k)
            s.setPart part { s.part part with ckpt := k.num }

/-! ### Rollback (R312, R205, R206) -/

/-- A queue as it is at install. -/
def Queue.fresh (gidx qid : Nat) : Queue := { gidx := gidx, qid := qid, changed := true }

/-- The range state of a stage at install: a static source's one instance, where RANGE is not 0 (R25, R327). -/
def RangeState.fresh (gidx stage : Nat) (h : Header) : RangeState :=
  { gidx := gidx, stage := stage, insts := if h.range = 0 then [] else [{ id := 0, range := h.range, l := blockBits h, next := 0, join := none }], offered := [], nextId := 1, changed := true }

/-- The queues and ranges of a graph at install. -/
def State.freshWork (s : State) (g : Graph) : List Queue × List RangeState :=
  (g.queues.map fun e => Queue.fresh g.gidx e.qid,
   g.stages.filterMap fun t => if t.inq != 0xFFFF then none else (s.headerBytes g.part g.ctx t.hdr.toNat).map fun bs => RangeState.fresh g.gidx t.stage (headerOf bs))

/-- A group of a partition leaves the machine with everything it holds. -/
def State.discardGroup (s : State) (uid : Nat) : State :=
  match s.group? uid with
  | none => s
  | some h =>
    ((((s.withdraw uid).dropSlices uid).clearTiles h.quad h.tiles).dropGroup uid).wakeWindows

/-- Every group, launch and message of a partition is gone, and its dirty lines are discarded (R205, steps 1 and 2). -/
def State.stopPart (s : State) (p : Nat) : State :=
  let gs := s.partGraphs p
  let uids := (s.allGroups.filter fun h => h.part == p && !h.ccc).map Group.uid
  let s := uids.foldl State.discardGroup s
  let dirty := (s.mem.l2.filter fun e => e.2.dirty && s.frameOwner (e.1 / 512) == some p).map Prod.fst
  let s := { s with mem := dirty.foldl MemState.discardLine s.mem }
  let s := s.sweepPart p
  let mem := { s.mem with invals := s.mem.invals.filter fun i => i.part != p, hqs := s.mem.hqs.filter fun q => !s.partSpad p q.1 q.2 }
  let work := { s.work with
    blocks := s.work.blocks.filter fun b => b.part != p
    attempts := s.work.attempts.filter fun a => !gs.contains a.gidx
    pending := s.work.pending.filter fun o => !gs.contains o.1
    msgs := s.work.msgs.filter fun m => match m.kind with
      | .restart gidx _ _ _ _ => !gs.contains gidx
      | _ => true
    corr := s.work.corr.filter fun c => !gs.contains c.gidx }
  let units := { s.units with
    arrivals := s.units.arrivals.filter fun a => a.1 != p
    decrements := s.units.decrements.filter fun d => d.1 != p
    metered := s.units.metered.filter fun m => m.2.1 != p
    quads := s.units.quads.map fun (e : Nat × Quadrant) => (e.1, { e.2 with mat := e.2.mat.filter fun (o : MatOp) => !o.slices.any fun sl => uids.contains sl.uid }) }
  let ports := s.plat.ports.map fun (e : Nat × Port) => (e.1, { e.2 with hot := e.2.hot.filter fun (x : Hot) => x.part != p })
  { s with mem := mem, work := work, units := units, plat := { s.plat with ports := ports } }

/-- Port tables are cleared at a migration and at a rollback (R385). -/
def State.clearHot (s : State) : State := { s with plat := { s.plat with ports := s.plat.ports.map fun (e : Nat × Port) => (e.1, { e.2 with hot := [] }) } }

/-- The tables of a checkpoint are put back over the tables that stand now. -/
def State.putTables (s : State) (p : Nat) (now : List (Nat × Nat)) (hbm : Memory) : State :=
  now.foldl (fun s r => s.bulkStore p r.1 r.2 ((hbm.filter fun c => r.1 ≤ c.1 && c.1 < r.1 + r.2).map fun (c : Host.Cell) => (c.1 - r.1, c.2))) s

/-- Publishes the index and STATE of a restored ring in its control block (R312, R333). -/
def State.republish (s : State) (g : Graph) (e : QueueEnt) (q : Queue) : State :=
  let state := fun (s : State) => s.ringStore g.part (e.store - 48) [if q.halted then 1 else 0]
  if e.kind = 1 then state (s.ringPublish g.gidx e 8 q.r)
  else if e.kind = 2 then state (s.ringPublish g.gidx e 0 q.w)
  else s

/-- The bytes of the shelf records of a restored queue stand at their places again. -/
def State.refillPlaces (s : State) (g : Graph) (e : QueueEnt) (q : Queue) : State :=
  (q.recs.filter fun r => r.shelf && (e.kind == 0 || e.kind == 3)).foldl (fun s r => s.ringStore g.part (e.shelfPlace r.place) r.data) s

/-- Tiles of a partition that are not the zero tile at version 0. -/
def State.heldTiles (s : State) (p : Nat) : List Nat :=
  ((s.mem.tiles.map Prod.fst ++ s.mem.img.map fun (c : Host.Cell) => c.1 / 4096).eraseDups).filter fun t => s.frameOwner (t / 16) == some p

/-- The frames of a shelf in local memory. -/
def QueueEnt.shelfFrames (e : QueueEnt) : List Nat := if e.shelfcap = 0 || Config.hbmBytes ≤ e.store then [] else runFrames e.store (e.shelfcap * (e.rsize + 4))

/-- The frames of a save record of a context. -/
def Context.saveFrames (c : Context) (at_ : Nat) : List Nat := runFrames (c.save.toNat + Config.saveRecordBytes * at_) Config.saveRecordBytes

/-- The frames of a checkpoint once its tables stand again: those of pages it kept, those its entries map, those of the tables, and those of its save records and shelves. -/
def State.ckptFrames (s : State) (p : Nat) (k : Checkpoint) : List Nat :=
  let mapped := (s.liveCtxs p).flatMap fun c => (s.mappedPages p c).filterMap fun e => if e.2.testBit 0 && bitsAt e.2 53 52 == 0 then some (bitsAt e.2 51 16) else none
  let tables := (s.tableRanges p).map fun (r : Nat × Nat) => r.1 / 65536
  let records := k.groups.flatMap fun h => (h.saveAt.map (s.ctx p h.ctx).saveFrames).getD []
  let shelves := k.graphs.flatMap fun g => g.queues.flatMap QueueEnt.shelfFrames
  (k.cow.map (fun (c : Nat × Nat × Nat) => c.2.1) ++ k.copies ++ mapped ++ tables ++ records ++ shelves).eraseDups

/-- Does every tile of the checkpoint verify, with its metadata path (R206)? -/
def State.ckptSound (s : State) (p : Nat) (k : Checkpoint) : Bool :=
  let frames := s.ckptFrames p k
  (s.heldTiles p).all fun t => !frames.contains (t / 16) || (s.tagOk t && (s.pathFault t).isNone)

/-- The partition is stopped as lost, with a docket that names no checkpoint. -/
def State.losePart (s : State) (p : Nat) : State :=
  let x := s.part p
  (s.setPart p { x with st := .lost, ckpt := 0, rekeying := none }).docket 8 0 291 p 0 (leBytes 8 0)

/-- The scratchpad runs of blocks that stand again: bytes that another context has held since are zero (R175). -/
def State.takeRuns (s : State) (bs : List Block) : State :=
  bs.foldl (fun s b => (b.cores.zip b.spad).foldl (fun s x => s.takeSpad x.1 x.2 b.hdr.spad (ctxKey b.part b.ctx) false) s) s

/-- The restored indices of a host ring, for the host: a docket with w and r that names the ring as one of RING_OVERRUN does, under code 0 (R312; DESIGN CHOICE, log 87). -/
def State.ringDocket (s : State) (g : Graph) (e : QueueEnt) (q : Queue) : State :=
  if e.kind = 1 || e.kind = 2 then s.postDocket g.part (docketBytes 3 0 g.gidx g.part g.ctx e.qid (s.part g.part).time (leBytes 8 q.w.toNat ++ leBytes 8 q.r.toNat)) else s

/-- A rollback of a partition to its standing checkpoint; without one, or with one that fails verification, the partition is lost. The dockets that say why are posted once the dirty lines are gone (R205, step 3). -/
def State.rollback (s : State) (p : Nat) (why : List (List Byte) := []) : State :=
  let now := s.tableRanges p
  let s := why.foldl (fun s d => s.postDocket p d) (s.stopPart p).clearHot
  let s := match s.inProgress p with
    | some k => (s.endCheckpoint k 4).docket 8 0 291 p 0 (leBytes 8 k.num)
    | none => s
  match s.standing p with
  | none => s.losePart p
  | some k =>
    let s := s.putTables p now k.hbm
    if !s.ckptSound p k then (s.endCheckpoint k 4).losePart p
    else
      let x := s.part p
      let s := s.setPart p { x with ckpool := x.ckpool ++ k.cow.map (fun c => c.2.2) ++ k.copies, pool := k.pool, slices := k.slices, freeing := k.freeing, poolWait := []
                                    resuming := (k.groups.filter fun h => h.st == .preempted).map Group.uid }
      let s := s.putCkpt { k with cow := [], tables := s.tableFrames p, copies := [], freed := [] }
      let dirty := fun (f : Nat) => (s.mem.hbm.any fun c => c.1 / 65536 == f) || s.mem.img.any fun c => c.1 / 65536 == f
      let s := (k.pool.filter dirty).foldl State.zeroFrame s
      let later := s.tabs.graphs.filter fun g => g.part == p && !k.graphs.any fun h => h.gidx == g.gidx
      let gs := s.partGraphs p ++ k.graphs.map Graph.gidx
      let fresh := later.map s.freshWork
      let s := { s with
        groups := s.groups ++ k.groups
        tabs := { s.tabs with graphs := (s.tabs.graphs.filter fun (g : Graph) => g.part != p) ++ k.graphs ++ later }
        work := { s.work with
          blocks := s.work.blocks ++ k.blocks
          queues := (s.work.queues.filter fun (q : Queue) => !gs.contains q.gidx) ++ k.queues.map (fun (q : Queue) => { q with changed := true }) ++ fresh.flatMap Prod.fst
          ranges := (s.work.ranges.filter fun (r : RangeState) => !gs.contains r.gidx) ++ k.ranges.map (fun (r : RangeState) => { r with changed := true }) ++ fresh.flatMap Prod.snd } }
      let s := k.ctxs.foldl (fun s c =>
        let y := s.ctx p c.1
        s.setCtx p c.1 { y with quota := c.2.quota, debt := c.2.debt, quotaWait := c.2.quotaWait, tvec := c.2.tvec, spill := c.2.spill, wdogCnt := c.2.wdogCnt }) s
      let s := s.takeRuns k.blocks
      let s := k.hqs.foldl (fun s q => { (s.poke ⟨.spad q.1, q.2.1⟩ q.2.2) with mem := { (s.poke ⟨.spad q.1, q.2.1⟩ q.2.2).mem with hqs := s.mem.hqs ++ [(q.1, q.2.1)] } }) s
      let s := (later ++ k.graphs).foldl (fun s g => g.queues.foldl (fun s e => match s.queue? g.gidx e.qid with
        | some q => ((s.refillPlaces g e q).republish g e q).ringDocket g e q
        | none => s) s) s
      s.docket 8 0 291 p 0 (leBytes 8 k.num)

/-! ### Hardware errors (R311) -/

/-- A block of a RESTARTABLE stage is discarded for restart: its pushes are dropped, its records go back to their queues, its number is offered again, no join is counted down and no quota returns. -/
def State.restartBlock (s : State) (b : Block) : State :=
  let core := b.cores.getD 0 0
  let s := b.groups.foldl (fun s u => match s.group? u with
    | some h => ((s.discardGroup u).broken h).grant h.quad
    | none => s) s
  let s := s.freeBlockHandles b
  let s := { s with work := { s.work with blocks := s.work.blocks.filter fun x => x.id != b.id } }
  let outs := (b.resv.map Prod.fst).eraseDups
  let s := outs.foldl (fun s q => (s.onQueue b.gidx q fun x => { x with resv := x.resv - b.resvIn q }).correct core b.gidx q 0 (b.resvIn q)) s
  let held := (b.heldRecs.map Prod.fst).eraseDups
  let s := held.foldl (fun s q =>
    let rs := (b.heldRecs.filter fun r => r.1 == q).map fun r => { r.2 with fails := r.2.fails + 1 }
    ((s.requeue b.gidx q rs).correct core b.gidx q rs.length 0).served b.gidx q) s
  if b.hdr.inq = 0xFFFF then s.offerAgain b else s

/-- A hardware error in a quadrant of partition p: blocks of RESTARTABLE stages are discarded and the quadrant is fenced; any other error, and a third failure, rolls the partition back. A docket names the quadrant. -/
def State.quadError (s : State) (p quad : Nat) : State :=
  let hit := s.quadGroups quad
  let blocks := s.work.blocks.filter fun b => hit.any fun h => h.blk == b.id
  let why := docketBytes 5 0x19 (quad / 4) p 0 0 0 (leBytes 8 quad)
  if blocks.isEmpty || blocks.any fun b => !b.hdr.restartable || 3 ≤ b.failsNow then s.rollback p [why]
  else
    let s := blocks.foldl State.restartBlock (s.postDocket p why)
    let x := s.part p
    let s := s.setPart p { x with quads := x.quads.erase quad }
    let s := s.setQuad quad { s.quad quad with fenced := true }
    s.evalSlots (blocks.flatMap fun b => b.cores.zip b.slots)

/-- `HW_ERROR`. -/
def execHwError (quad : Nat) (s : State) : Answer :=
  answer <| match s.quadOwner quad with
    | none => s
    | some p => s.quadError p quad

/-! ### Alarms at the end of a step -/

/-- The partition an alarm strikes. -/
def Alarm.part : Alarm → Nat
  | .integrity p _ _ => p
  | .hwError p _ => p

/-- Does an alarm leave its blocks a restart: a hardware error in a quadrant? -/
def Alarm.quad : Alarm → Option Nat
  | .integrity _ _ _ => none
  | .hwError _ q => q

/-- The docket of an alarm that rolls its partition back (R205, step 3; R311); its time is that of its posting. -/
def Alarm.docket (a : Alarm) : List Byte :=
  match a with
  | .integrity p t l => docketBytes 8 0x0C 291 p 0 0 0 (leBytes 8 (4096 * t) ++ leBytes 8 l)
  | .hwError p _ => docketBytes 5 0x19 291 p 0 0 0 (leBytes 8 (2 ^ 64 - 1))

/-- The alarms met by a step: hardware errors in quadrants are handled one by one; any other is reported, and each partition struck rolls back once (R206). -/
def State.settleAlarms (s : State) : State :=
  if s.mem.alarms.isEmpty then s
  else
    let as := (s.mem.alarms.filter fun a => (s.part a.part).st == .active || (s.part a.part).st == .paused).eraseDups
    let hard := as.filter fun a => a.quad.isNone
    let parts := (hard.map Alarm.part).eraseDups
    let s := { s with mem := { s.mem with alarms := [] } }
    let s := parts.foldl (fun s p => s.rollback p ((hard.filter fun a => a.part == p).map Alarm.docket)) s
    let s := (as.filter fun a => !parts.contains a.part).foldl (fun s a => match a.quad with
      | some q => if s.quadOwner q = some a.part then s.quadError a.part q else s
      | none => s) s
    { s with mem := { s.mem with alarms := [] } }

/-! ### The watchdog (R313 to R315, R386) -/

/-- Is the group's wait external (R313)? A `kwait` is where R162 says so, any other WAIT_EXT always. A parked or pre-empted group counts by the wait it left. -/
def State.waitsOutside (s : State) (h : Group) : Bool :=
  let st := if h.st = .parked || h.st = .preempted then h.left else h.st
  let ext := ((s.block? h.blk).map fun b => b.hdr.extwait).getD false
  ext || (match h.wait with
    | .kwait e => e
    | .counter cls _ => cls == 3
    | .pop gidx qid _ _ _ => ((s.queueEnt gidx qid).map fun e => e.kind == 1).getD false && (s.block? h.blk).any fun b => b.hdr.inq == qid
    | _ => st == .waitExt)

/-- Does the group wait at all? -/
def Group.waits (h : Group) : Bool :=
  let st := if h.st = .parked || h.st = .preempted then h.left else h.st
  st != .ready && st != .handler

/-- Does every condition of R315 but progress hold for a context now? A request that waits for a token is outstanding (R382). -/
def State.idle (s : State) (p c : Nat) : Bool :=
  let gs := s.ctxGroups p c
  !gs.isEmpty && gs.all (fun h => h.waits && !s.waitsOutside h && h.ops.isEmpty && !s.awaitsToken h) && s.units.metered.all fun m => m.2.1 != p || m.2.2 != c

/-- The watchdog of a context fires (R315): every waiting group leaves its wait at once, so that none breaks another's, and enters HANDLER with WATCHDOG; a docket counts them. A parked or pre-empted group takes the fault when it runs again. -/
def State.fireWatchdog (s : State) (part ctx : Nat) : State :=
  let gs := s.ctxGroups part ctx
  let s := s.setCtx part ctx { s.ctx part ctx with wdogCnt := 0 }
  let s := (gs.filter fun h => h.st != .launching && h.left != .launching).foldl (fun s h => s.withdraw h.uid) s
  let s := gs.foldl (fun s h =>
    let r : FaultRec := { code := 0x18, async := true, replay := 0, pc := h.pc, word0 := h.word0, word1 := h.word1.getD 0, lit := h.word1.isSome, addr := 0, done := 0 }
    if h.st = .launching then s
    else if h.st = .parked || h.st = .preempted then
      (s.withdraw h.uid).mapGroups (fun y => y.uid == h.uid && h.left != .launching) fun y => { y with left := y.awake, pendFaults := insertFault (0, r) y.pendFaults }
    else s.takeAsync h.uid r) s
  s.docket 6 0x18 (if gs.isEmpty then 0 else (gs.headD {}).core) part ctx (leBytes 8 gs.length)

/-- Does the watchdog of a context fire: is it enabled, has its counter reached WDOG, and does every condition of R315 hold (R386)? -/
def State.watchdogDue (s : State) (part ctx : Nat) : Bool :=
  let x := s.ctx part ctx
  x.wdog != 0 && x.wdog ≤ x.wdogCnt && s.idle part ctx && !x.progress

/-- `WATCHDOG_FIRE`: what the close of a window does for a context whose watchdog is due. -/
def execWatchdogFire (part ctx : Nat) (s : State) : Answer := answer (if s.watchdogDue part ctx then s.fireWatchdog part ctx else s)

end Sys2Proof.Machine
end

