-- ==== Sys2Proof/Machine/Manage.lean ====
section
/-! DEFINITION. The host, management and trust: ownership (R400 to R402), partitions and contexts (R403, R404, R377), graphs (R375), rings, re-keying and migration (R209, R316, R334), operating caps, collectives and firmware (R407, R409, R411), the virtual functions (R397, R399) and the SPDM responder (R410). -/

namespace Sys2Proof.Machine

open Sys2Proof

/-! ### Who may ask (R401, R402, R408, R409) -/

/-- Has the image with this measurement index passed its check and run (R409)? -/
def State.ran (s : State) (index : Nat) : Bool := s.plat.booted && thas s.plat.measures index

/-- Is a management request acted on: the management function runs, the sender is the owner, and the EPOCH matches? Any other is answered NOT_OWNER and changes nothing. -/
def State.accepts (s : State) (q : MgmtReq) : Bool := s.ran 3 && s.plat.owner != 0 && q.sender == s.plat.owner && q.epoch == s.plat.epoch

/-- A management request: what it does where it is accepted; the sender of any other is answered NOT_OWNER, and nothing else changes. Without the management function there is no answer. -/
def managed (q : MgmtReq) (s : State) (f : State → State) : State :=
  if s.accepts q then f s else if s.ran 3 then { s with plat := { s.plat with refusals := s.plat.refusals ++ [q.sender] } } else s

/-- Does the monitor refuse changes to a partition's entries and quadrants: its interface is CONFIG_LOCKED or RUN (R399)? -/
def State.locked (s : State) (p : Nat) : Bool :=
  match tget TdispState.configUnlocked s.plat.tdisp (s.part p).vf with
  | .configLocked | .run => true
  | _ => false

def State.live (s : State) (p : Nat) : Bool := (s.part p).st == .active || (s.part p).st == .paused

/-- May the owner change the entries of a partition? -/
def State.mayChange (s : State) (q : MgmtReq) (p : Nat) : Bool := s.accepts q && s.live p && !s.locked p

/-- May the owner change a context's entry? -/
def State.maySet (s : State) (q : MgmtReq) (p c : Nat) : Bool := s.mayChange q p && c < Config.contexts && (s.ctx p c).st != 0

/-! ### Ownership (R400, R401) -/

/-- The owner changes: EPOCH advances and no handover is pending. -/
def State.setOwner (s : State) (o : BitVec 3) : State := { s with plat := { s.plat with owner := o, ownerNext := 0, handover := none, epoch := s.plat.epoch + 1 } }

/-- `OWNERSHIP_CLAIM`: of the claims of a window the lowest code wins, while there is no owner. -/
def execOwnershipClaim (claims : List (BitVec 3)) (s : State) : Answer :=
  answer <|
    if !s.ran 3 || s.plat.owner != 0 then s
    else match ([1, 2, 3] : List (BitVec 3)).find? fun c => claims.contains c with
      | some c => s.setOwner c
      | none => s

/-- `OWNER_NEXT_WRITE`: a handover to another manager is pending, or lapses. -/
def execOwnerNextWrite (q : MgmtReq) (next : BitVec 3) (s : State) : Answer :=
  answer <|
    managed q s fun s =>
    if next = 0 then { s with plat := { s.plat with ownerNext := 0, handover := none } }
    else if next = s.plat.owner || 3 < next.toNat then s
    else { s with plat := { s.plat with ownerNext := next, handover := some s.sched.window } }

/-- Windows of one second. -/
def secondWindows : Nat := 1000000000 / Config.windowNs

/-- `HANDOVER_ACK`: the proposed successor acknowledges within 1 s. -/
def execHandoverAck (sender : BitVec 3) (s : State) : Answer :=
  answer <| match s.plat.handover with
    | some w => if sender = s.plat.ownerNext && s.sched.window ≤ w + secondWindows then s.setOwner sender else s
    | none => s

/-- `HANDOVER_TIMEOUT`: after 1 s a pending handover lapses. -/
def execHandoverTimeout (s : State) : Answer :=
  answer <| match s.plat.handover with
    | some w => if w + secondWindows ≤ s.sched.window then { s with plat := { s.plat with ownerNext := 0, handover := none } } else s
    | none => s

/-- `OWNER_CHANNEL_LOSS`: the owner's channel has been lost for 2 s. -/
def execOwnerChannelLoss (s : State) : Answer := answer (if s.plat.owner = 0 then s else s.setOwner 0)

/-! ### Partitions (R403, R198) -/

/-- The request is met whole or refused whole: free quadrants, at least one, a free VF, frames that no partition holds, and among them metadata frames enough for all (log 80). -/
def State.canCreate (s : State) (p : Nat) (x : PartSetup) : Bool :=
  let frames := x.pool ++ x.ckpool ++ x.metaFrames
  p < Config.partitions && (s.part p).st == .free && !x.quads.isEmpty && decide x.quads.Nodup
    && x.quads.all (fun q => q < Config.quadrants && (s.quadOwner q).isNone && !(s.quad q).fenced)
    && 1 ≤ x.vf && x.vf ≤ 40 && s.tabs.parts.all (fun e => e.2.vf != x.vf)
    && decide frames.Nodup && frames.all (fun f => 65536 * f < Config.hbmBytes && (s.frameOwner f).isNone)
    && metaFits x.metaFrames.length frames.length && 4 ≤ x.evlog && x.evlog ≤ 24

/-- Scrubs the scratchpad regions and accumulator memory of a quadrant (R403, step 2). -/
def State.scrub (s : State) (q : Nat) : State :=
  let core := q / 4
  let lo := Config.spadRegion * (q % 4)
  let hi := lo + Config.spadRegion
  let m := s.mem
  { s with
    mem := { m with spad := tset [] m.spad core (mclear (tget [] m.spad core) lo hi), acc := tdel m.acc q }
    units := { s.units with spadRuns := s.units.spadRuns.filter fun r => !(r.1 == core && lo ≤ r.2.1 && r.2.1 < hi) } }

/-- `CREATE_PARTITION`. -/
def execCreatePartition (q : MgmtReq) (part : Nat) (setup : PartSetup) (s : State) : Answer :=
  answer <|
    managed q s fun s =>
    if !s.canCreate part setup then s
    else
      let frames := setup.pool ++ setup.ckpool ++ setup.metaFrames
      let s := setup.quads.foldl State.scrub s
      let s := s.freshFrames frames
      let p : Partition := { st := .active, lend := setup.lend, l2ways := setup.l2ways, resq := setup.resq, vf := setup.vf, quads := setup.quads, pool := setup.pool, ckpool := setup.ckpool
                             evring := setup.evring, evlog := setup.evlog, frames := frames, metaFrames := setup.metaFrames, aes := setup.aes, kmac := setup.kmac, root := Config.rootAt part, keySt := 1 }
      let s := s.setPart part p.placeMetas
      -- the control block of the host event ring is zero (R333)
      let s := s.ringStore part (setup.evring.toNat - 64) (List.replicate 64 0)
      { s with plat := { s.plat with tdisp := tset .configUnlocked s.plat.tdisp setup.vf .configUnlocked } }

/-- What the package holds for the contexts of a partition is gone; scratchpad bytes that they held are no later context's (R175). -/
def State.dropContexts (s : State) (p : Nat) (cs : List Nat) : State :=
  let mine := fun (k : Nat) => cs.any fun c => k == ctxKey p c
  let gs := (s.tabs.graphs.filter fun g => g.part == p && cs.contains g.ctx).map Graph.gidx
  let hit := fun (x y : Nat) => x == p && cs.contains y
  let mem := { s.mem with
    l1 := s.mem.l1.filter fun c => !hit c.part c.ctx, icache := s.mem.icache.filter fun c => !hit c.part c.ctx, tlb := s.mem.tlb.filter fun t => !hit t.part t.ctx
    vers := s.mem.vers.filter fun e => !mine (e.1 % 320), invals := s.mem.invals.filter fun i => !hit i.part i.ctx }
  let tabs := { s.tabs with
    ctxs := s.tabs.ctxs.filter fun e => !mine e.1, graphs := s.tabs.graphs.filter fun g => !gs.contains g.gidx
    replicas := s.tabs.replicas.filter fun (r : Replica) => !hit r.part r.ctx }
  let work := { s.work with
    blocks := s.work.blocks.filter fun b => !hit b.part b.ctx, queues := s.work.queues.filter fun q => !gs.contains q.gidx, ranges := s.work.ranges.filter fun r => !gs.contains r.gidx
    attempts := s.work.attempts.filter fun a => !gs.contains a.gidx, pending := s.work.pending.filter fun o => !gs.contains o.1
    views := s.work.views.filter fun v => !gs.contains v.gidx, corr := s.work.corr.filter fun c => !gs.contains c.gidx }
  let units := { s.units with
    tokens := s.units.tokens.filter fun e => !mine (e.1 % 320), metered := s.units.metered.filter fun m => !hit m.2.1 m.2.2
    arrivals := s.units.arrivals.filter fun a => !hit a.1 a.2.1, decrements := s.units.decrements.filter fun d => !hit d.1 d.2.1
    spadRuns := s.units.spadRuns.map fun (r : Nat × Nat × Nat × Nat) => if mine r.2.2.2 then (r.1, r.2.1, r.2.2.1, 8 * Config.partitions) else r
    quads := s.units.quads.map fun (e : Nat × Quadrant) => (e.1, { e.2 with def_ := e.2.def_.filter fun d => !mine d.1 }) }
  let ckpts := s.plat.ckpts.map fun (k : Checkpoint) => if k.part != p then k else
    { k with groups := k.groups.filter fun h => !cs.contains h.ctx, blocks := k.blocks.filter fun b => !cs.contains b.ctx, queues := k.queues.filter fun q => !gs.contains q.gidx
             ranges := k.ranges.filter fun r => !gs.contains r.gidx, graphs := k.graphs.filter fun g => !cs.contains g.ctx, ctxs := k.ctxs.filter fun c => !cs.contains c.1 }
  { s with mem := mem, tabs := tabs, work := work, units := units, plat := { s.plat with ckpts := ckpts } }

/-- A partition is destroyed: its groups are killed, its queues and frames discarded, its key entry zeroed, its quadrants and VF free. -/
def State.destroy (s : State) (p : Nat) : State :=
  let s := (s.stopPart p).dropContexts p (List.range 8)
  let x := s.part p
  let s := s.freshFrames x.frames
  let s := { s with
    mem := { s.mem with withheld := s.mem.withheld.filter fun f => !x.frames.contains f, moving := s.mem.moving.filter fun e => !x.frames.contains e.1 }
    plat := { s.plat with ckpts := s.plat.ckpts.filter fun k => k.part != p, tdisp := tset .configUnlocked s.plat.tdisp x.vf .configUnlocked
                          migrating := if s.plat.migrating.any fun (m : Nat × Nat) => m.1 == p then none else s.plat.migrating } }
  s.setPart p {}

/-- `DESTROY_PARTITION`. -/
def execDestroyPartition (q : MgmtReq) (part : Nat) (s : State) : Answer :=
  answer (managed q s fun s => if (s.part part).st = .free then s else s.destroy part)

/-! ### Contexts (R377, R358) -/

/-- Are the values of a context entry within their fields (Table 18-11, R381)? -/
def setupOk (x : CtxSetup) : Bool :=
  x.ptroot.toNat % 8192 == 0 && x.catbase.toNat % 4096 == 0 && x.htbase.toNat % 32 == 0 && x.save.toNat % 4096 == 0 && x.iweight != 0
    && (x.tokens.extractLsb' 0 16 == 0 || x.tokens.extractLsb' 16 16 != 0)

/-- The fields of an entry. Its defaults of TVEC and SPILLBASE are copied into the registers when the context is created (R377). -/
def Context.withSetup (c : Context) (x : CtxSetup) : Context :=
  { c with ptroot := x.ptroot, catbase := x.catbase, htbase := x.htbase, tvecDef := x.tvec &&& 0x00FFFFFFFFFFF000, frec := x.frec &&& 0x00FFFFFFFFFFFFC0
           spillDef := x.spill &&& 0x00FFFFFFFFFF8000, save := x.save }

/-- The frames of the root table, the catalogue and the handle table that an entry names (R355). -/
def setupFrames (x : CtxSetup) : List Nat :=
  runFrames x.ptroot.toNat 8192 ++ runFrames x.catbase.toNat Config.catalogueBytes ++ runFrames x.htbase.toNat Config.handleTableBytes

/-- Do the tables lie in frames of the partition, apart from its metadata and its checkpoint pool (R355)? -/
def State.tablesFit (s : State) (p : Nat) (x : CtxSetup) : Bool :=
  let y := s.part p
  (setupFrames x).all fun f => y.frames.contains f && !y.metaFrames.contains f && !y.ckpool.contains f

/-- `CREATE_CONTEXT`: a new context, with an empty catalogue and handle table whose frames leave the page pool, or new values for the entry of one. -/
def execCreateContext (q : MgmtReq) (part ctx : Nat) (setup : CtxSetup) (s : State) : Answer :=
  answer <|
    managed q s fun s =>
    if !s.mayChange q part || Config.contexts ≤ ctx || !setupOk setup || !s.tablesFit part setup then s
    else
      let c := s.ctx part ctx
      let quota := setup.quota &&& 0x000000FFFFFFFFFF
      let tokens := setup.tokens &&& 0x00000000FFFFFFFF
      let mode := setup.mode &&& 0xFFFFFFFFFFFFFFF8
      let x := s.part part
      let s := s.setPart part { x with pool := x.pool.filter fun f => !(setupFrames setup).contains f }
      if c.st = 0 then
        let s := (s.bulkStore part setup.catbase.toNat Config.catalogueBytes []).bulkStore part setup.htbase.toNat Config.handleTableBytes []
        let c := ({} : Context).withSetup setup
        s.setCtx part ctx { c with st := 1, tvec := c.tvecDef, spill := c.spillDef, mode := mode, iweight := setup.iweight, quota := quota, wdog := setup.wdog, tokens := tokens }
      else s.setCtx part ctx { (c.withSetup setup) with modeSet := some mode, iweightSet := some setup.iweight, quotaSet := some quota, wdogSet := some setup.wdog, tokensSet := some tokens }

/-- `DESTROY_CONTEXT`. -/
def execDestroyContext (q : MgmtReq) (part ctx : Nat) (s : State) : Answer :=
  answer <|
    managed q s fun s =>
    if !s.maySet q part ctx then s
    else
      let s := ((s.allGroups.filter fun h => h.part == part && h.ctx == ctx && !h.ccc).map Group.uid).foldl State.discardGroup s
      s.dropContexts part [ctx]

/-! ### Settings (R404) -/

/-- `SET_ISSUE_WEIGHT`: selections of this window see the old weight. -/
def execSetIssueWeight (q : MgmtReq) (part ctx : Nat) (weight : BitVec 8) (s : State) : Answer :=
  answer (managed q s fun s => if !s.maySet q part ctx || weight = 0 then s else s.setCtx part ctx { s.ctx part ctx with iweightSet := some weight })

/-- `SET_TOKENS`: from the next window close. -/
def execSetTokens (q : MgmtReq) (part ctx : Nat) (tokens : BitVec 64) (s : State) : Answer :=
  answer <|
    managed q s fun s =>
    if !s.maySet q part ctx || (tokens.extractLsb' 0 16 != 0 && tokens.extractLsb' 16 16 == 0) then s
    else s.setCtx part ctx { s.ctx part ctx with tokensSet := some (tokens &&& 0x00000000FFFFFFFF) }

/-- `SET_LEND`: from the next window close. -/
def execSetLend (q : MgmtReq) (part : Nat) (lend : Bool) (s : State) : Answer :=
  answer (managed q s fun s => if !s.mayChange q part then s else s.setPart part { s.part part with lendSet := some lend })

/-- `SET_QUOTA`: from the next window close, less the blocks resident then (R387). -/
def execSetQuota (q : MgmtReq) (part ctx : Nat) (quota : BitVec 64) (s : State) : Answer :=
  answer (managed q s fun s => if !s.maySet q part ctx then s else s.setCtx part ctx { s.ctx part ctx with quotaSet := some (quota &&& 0x000000FFFFFFFFFF) })

/-- `SET_WDOG`: from the next window close. -/
def execSetWdog (q : MgmtReq) (part ctx : Nat) (wdog : BitVec 64) (s : State) : Answer :=
  answer (managed q s fun s => if !s.maySet q part ctx then s else s.setCtx part ctx { s.ctx part ctx with wdogSet := some wdog })

/-- `SET_DEFAULT_MODE`: groups launched in this window see the old value. -/
def execSetDefaultMode (q : MgmtReq) (part ctx : Nat) (mode : BitVec 64) (s : State) : Answer :=
  answer (managed q s fun s => if !s.maySet q part ctx then s else s.setCtx part ctx { s.ctx part ctx with modeSet := some (mode &&& 0xFFFFFFFFFFFFFFF8) })

/-- A cluster at another operating point: its quadrants stop issuing, to be released again one at a time (R411, R15). -/
def State.setPoint (s : State) (cl point : Nat) : State :=
  let s := s.setCluster cl { s.cluster cl with point := point }
  { s with units := { s.units with quads := s.units.quads.map fun (e : Nat × Quadrant) => if e.1 / 32 = cl then (e.1, { e.2 with released := false }) else e } }

/-- `SET_OPERATING_CAP` (R411): a cluster above the new cap goes down to it. -/
def execSetOperatingCap (q : MgmtReq) (cluster : Nat) (cap : BitVec 3) (s : State) : Answer :=
  answer (managed q s fun s =>
    if Config.clusters ≤ cluster then s
    else
      let s := s.setCluster cluster { s.cluster cluster with cap := cap.toNat }
      if cap.toNat < (s.cluster cluster).point then s.setPoint cluster cap.toNat else s)

/-- `SET_HOTNESS_THRESHOLDS` (R384). -/
def execSetHotnessThresholds (q : MgmtReq) (hotw hotr : BitVec 16) (s : State) : Answer :=
  answer (managed q s fun s => { s with plat := { s.plat with hotw := hotw, hotr := hotr } })

/-- `SET_REPLICA_POLICY`: POLICY of an entry of the replica directory (R379). -/
def execSetReplicaPolicy (q : MgmtReq) (part ctx vpn : Nat) (remote : Bool) (s : State) : Answer :=
  answer <|
    managed q s fun s => { s with tabs := { s.tabs with replicas := s.tabs.replicas.map fun (r : Replica) => if r.part = part && r.ctx = ctx && r.vpn = vpn then { r with remote := remote } else r } }

/-- `L2_WAY_MASK_CHANGE` (R182): requests of this window see the old mask (R404). -/
def execL2WayMaskChange (q : MgmtReq) (part : Nat) (ways : BitVec 16) (resq : BitVec 4) (s : State) : Answer :=
  answer (managed q s fun s => if !s.mayChange q part then s else s.setPart part { s.part part with waysSet := some (ways, resq) })

/-- A new way mask (R182): dirty lines of the partition in the ways that go are written back, and all its lines there leave L2. -/
def State.takeWays (s : State) (part : Nat) : State :=
  match (s.part part).waysSet with
  | none => s
  | some (ways, resq) =>
    let gone := (s.part part).l2ways &&& ~~~ways
    let out := fun (e : Nat × L2Line) => gone.getLsbD e.2.way && s.frameOwner (e.1 / 512) == some part
    let s := (((s.mem.l2.filter out).map fun e => e.1 / 32).eraseDups).foldl State.cleanTile s
    let s := { s with mem := { s.mem with l2 := s.mem.l2.filter fun e => !out e } }
    s.setPart part { s.part part with l2ways := ways, resq := resq, waysSet := none }

/-! ### Re-keying and migration (R209, R316) -/

/-- A data tile at version 0 under the partition's keys. -/
def State.retag (s : State) (t : Nat) : State :=
  let bs := mbytes s.mem.img (4096 * t) 4096
  let p := s.part (s.tileOwner t)
  let e : Tile := if bs.all (· == 0) then {} else { tag := some (tileTag p.kmac t 0 (tileCipher p.aes t 0 bs)) }
  { s with mem := { s.mem with tiles := tset {} s.mem.tiles t e } }

/-- A metadata tile at version 0 with the entries that stand now. One over entries as they were handed over needs none of its own. -/
def State.retagMeta (s : State) (t : Nat) : State :=
  let p := s.part (s.tileOwner t)
  let fresh := (p.beneath t).all fun x => tget ({} : Tile) s.mem.tiles x == {}
  let bs := s.metaBytes t
  let e : Tile := if fresh then {} else { tag := some (tileTag p.kmac t 0 (tileCipher p.aes t 0 bs)) }
  let img := mclear s.mem.img (4096 * t) (4096 * t + 4096)
  { s with mem := { s.mem with tiles := tset {} s.mem.tiles t e, img := if fresh then img else msetBytes img (4096 * t) bs, metas := if thas s.mem.metas t then tput s.mem.metas t false else s.mem.metas } }

/-- The level of a tile on its path: 0 for data (R205). -/
def State.tileLevel (s : State) (p t : Nat) : Nat := (((s.part p).metaPlace t).map fun x => x.1 + 1).getD 0

/-- Steps 2 to 5 of R209: dirty lines are written back, every tile is verified under the old keys, all are rewritten at version 0 under the fresh ones, the metadata level by level up to the root, and the partition resumes. A tile that fails is an integrity alarm, under the old keys. -/
def State.finishRekey (s : State) (part : Nat) (aes kmac : BitVec 256) (was : PartStatus) : State :=
  let s := s.setPart part { s.part part with st := was, keySt := 1, rekeying := none }
  let s := s.cleanPart part
  let s := if s.alarmed then s else (s.heldTiles part).foldl (fun s t => if s.alarmed then s else if s.tagOk t then (s.checkPath t).2 else s.alarm (.integrity part t (s.tileLevel part t))) s
  if s.alarmed then s
  else
    let p := s.part part
    let data := (s.heldTiles part).filter fun t => (p.metaPlace t).isNone
    let s := s.setPart part { p with aes := aes, kmac := kmac, root := Config.rootAt part }
    let s := p.metas.flatten.foldl State.retagMeta (data.foldl State.retag s)
    { s with mem := { s.mem with withheld := s.mem.withheld.filter fun f => s.frameOwner f != some part } }

/-- `REKEY`: the monitor pauses the partition, whose key entry is then in the state re-keying (R378), and in a later step rewrites its tiles. -/
def execRekey (q : MgmtReq) (part : Nat) (aes kmac : BitVec 256) (s : State) : Answer :=
  answer <| match (s.part part).rekeying with
    | some (a, k, was) => s.finishRekey part a k was
    | none => managed q s fun s =>
      if !s.live part then s else s.setPart part { s.part part with st := .paused, keySt := 2, rekeying := some (aes, kmac, (s.part part).st) }

/-- The partition as it leaves the device: its tiles as HBM holds them, with tags and versions, and the rest as a checkpoint records it. -/
def State.migrant (s : State) (p : Nat) : Migrant :=
  let mine := fun (f : Nat) => (s.part p).frames.contains f
  { part := p, entry := s.part p, saved := s.recordCkpt (Checkpoint.start p 0)
    img := s.mem.img.filter fun c => mine (c.1 / 65536), tiles := s.mem.tiles.filter fun e => mine (e.1 / 16) }

/-- Has this device room for a partition that arrives: its number, quadrants, VF and frames free, and the numbers of its groups, blocks and graphs no other's? -/
def State.canTakeUp (s : State) (m : Migrant) : Bool :=
  (s.part m.part).st == .free && m.entry.quads.all (fun q => (s.quadOwner q).isNone && !(s.quad q).fenced) && s.tabs.parts.all (fun e => e.2.vf != m.entry.vf)
    && m.entry.frames.all (fun f => (s.frameOwner f).isNone) && m.saved.groups.all (fun h => (s.group? h.uid).isNone && s.plat.ckpts.all fun k => k.groups.all fun x => x.uid != h.uid)
    && m.saved.blocks.all (fun b => (s.block? b.id).isNone) && m.saved.graphs.all fun g => (s.graph? g.gidx).isNone

/-- A partition arrives (R316, step 6): its tiles stand at their addresses and each is verified, its work and saved groups are there, to be restored under R306, and its TIME goes on from the value transferred (R317). A tile that fails is an integrity alarm of this device. No checkpoint comes with it (DESIGN CHOICE, log 108). -/
def State.takeUp (s : State) (m : Migrant) : State :=
  let k := m.saved
  let s := s.freshFrames m.entry.frames
  let put := fun (t : Memory) => m.img.foldl (fun (t : Memory) (c : Host.Cell) => mset t c.1 c.2) t
  let mem := { s.mem with hbm := put s.mem.hbm, img := put s.mem.img, tiles := m.tiles.foldl (fun t e => tput t e.1 e.2) s.mem.tiles }
  let work := { s.work with
    blocks := s.work.blocks ++ k.blocks, nextBlk := k.blocks.foldl (fun n b => max n (b.id + 1)) s.work.nextBlk, nextUid := k.groups.foldl (fun n h => max n (h.uid + 1)) s.work.nextUid
    queues := s.work.queues ++ k.queues.map fun (q : Queue) => { q with changed := true }
    ranges := s.work.ranges ++ k.ranges.map fun (r : RangeState) => { r with changed := true } }
  let s := { s with mem := mem, work := work, groups := s.groups ++ k.groups, tabs := { s.tabs with graphs := s.tabs.graphs ++ k.graphs } }
  let s := s.setPart m.part { m.entry with st := .active, ckpt := 0, resuming := (k.groups.filter fun h => h.st == .preempted).map Group.uid }
  let s := k.ctxs.foldl (fun s c => s.setCtx m.part c.1 c.2) s
  let s := s.takeRuns k.blocks
  let s := k.hqs.foldl (fun s q => let t := s.poke ⟨.spad q.1, q.2.1⟩ q.2.2; { t with mem := { t.mem with hqs := t.mem.hqs ++ [(q.1, q.2.1)] } }) s
  (s.heldTiles m.part).foldl (fun s t => (s.checkTile t).2) s

/-- `LIVE_MIGRATION`: the dirty bitmap, pre-copy rounds, the quiesce that pauses the partition, and the hand-over once nothing of it is under way: this device holds it no more, and it is on its way. At a device where its number is free, the hand-over takes up the partition that is on its way. A migration that was accepted completes under a later owner (R401). Scratchpads and a standing checkpoint are no part of it (DESIGN CHOICE, log 89). -/
def execLiveMigration (q : MgmtReq) (part : Nat) (phase : MigPhase) (s : State) : Answer :=
  answer <| match phase, s.plat.migrating with
    | .start, none => managed q s fun s => if (s.part part).st = .active then { s with mem := { s.mem with dirtyMap := [] }, plat := { s.plat with migrating := some (part, 1) } } else s
    | .precopy, some (p, _) => if p != part then s else { s with mem := { s.mem with dirtyMap := s.mem.dirtyMap.filter fun f => s.frameOwner f != some part } }
    | .quiesce, some (p, _) =>
      if p != part || !s.live part then s
      else
        let s := s.mapGroups (fun h => h.part == part) Group.stop
        let saved := s.allGroups.all fun h => h.part != part || h.ccc || h.st == .preempted || h.st == .retired
        if saved then { (s.setPart part { s.part part with st := .paused }) with plat := { s.plat with migrating := some (part, 3) } }
        else { s with plat := { s.plat with migrating := some (part, 2) } }
    | .finish, some (p, n) =>
      if p != part || n != 3 || !s.live part || !s.ckptQuiet part then s
      else
        let gs := s.partGraphs part
        let s := ((s.work.attempts.filter fun a => gs.contains a.gidx).foldl State.returnGrants s).cleanPart part
        let t := (s.destroy part).clearHot
        if s.alarmed then s else { t with plat := { t.plat with transit := t.plat.transit ++ [s.migrant part] } }
    | .finish, none => match s.plat.transit.find? fun m => m.part == part with
      | some m => managed q s fun s => if s.canTakeUp m then ({ s with plat := { s.plat with transit := s.plat.transit.filter fun x => x.part != part } }).takeUp m else s
      | none => s
    | _, _ => s

/-! ### Graphs (R375) -/

/-- The n bytes at a virtual address of a context as the host driver reads an image, page by page. -/
def State.imageBytes (s : State) (p c : Nat) : (pages : Nat) → (va n : Nat) → Option (List Byte)
  | 0, _, _ => some []
  | k + 1, va, n =>
    if n = 0 then some []
    else if Config.vaBytes ≤ va || inAperture va then none
    else
      let m := min n (65536 - va % 65536)
      match (s.walk { part := p, ctx := c, core := 128 } .read true va).1 with
      | .ok l _ => (State.imageBytes s p c k (va + m) (n - m)).map fun r => s.peek l m ++ r
      | _ => none

/-- A queue entry of a descriptor, with the home and store the host driver gives it. -/
def queueEntOf (bs : List Byte) (places : List (Nat × Nat × Nat)) : QueueEnt :=
  let qid := natAt bs 0 2
  let place := places.find? fun p => p.1 == qid
  { qid := qid, kind := natAt bs 2 1, rsize := natAt bs 3 1, segcap := natAt bs 4 2, home := (place.map fun p => p.2.1).getD (natAt bs 6 1), ringlog := natAt bs 7 1
    shelfcap := natAt bs 8 4, peer := natAt bs 0xC 2, rqid := natAt bs 0xE 2, store := (place.map fun p => p.2.2).getD (natAt bs 0x10 8) }

/-- Does a shelf lie in frames of the partition's local memory, apart from its metadata (R318)? -/
def State.shelfFits (s : State) (p : Nat) (e : QueueEnt) : Bool :=
  let x := s.part p
  e.shelfcap == 0 || (e.store + e.rsize * e.shelfcap ≤ Config.hbmBytes && (runFrames e.store (e.shelfcap * e.rsize)).all fun f => x.frames.contains f && !x.metaFrames.contains f)

/-- The range home of a stage (R327): the slice of the line of its entry in the descriptor at `va`. -/
def State.rangeHome (s : State) (p c va i : Nat) : Nat :=
  match (s.walk { part := p, ctx := c, core := 128 } .read true (va + 32 + 16 * i)).1 with
  | .ok l _ => s.lineSlice (l.addr / 128)
  | _ => 0

/-- The limits of Table 18-9, R318 and R332 on a queue entry. -/
def QueueEnt.ok (e : QueueEnt) : Bool :=
  let ring := e.kind == 1 || e.kind == 2
  e.qid != 0xFFFF && e.kind ≤ 3 && 4 ≤ e.rsize && e.rsize ≤ 64 && e.rsize % 4 == 0 && e.home ≤ 127
    && (if ring then e.segcap == 0 && 1 ≤ e.ringlog && e.ringlog ≤ 24 else 1 ≤ e.segcap && e.ringlog == 0) && (e.kind == 3 || (e.peer == 0 && e.rqid == 0)) && e.peer < 1024
    && e.segcap + e.shelfcap < 2 ^ 32

/-- A stage entry agrees with the header it names. -/
def State.stageOk (s : State) (p c : Nat) (e : StageEnt) : Bool :=
  match s.headerBytes p c e.hdr.toNat with
  | some bs => (headerOf bs).stage == e.stage && (headerOf bs).inq == e.inq
  | none => false

/-- The graph a descriptor stands for; none where it breaks a limit. -/
def State.graphOf (s : State) (p c gidx va : Nat) (bs : List Byte) (places : List (Nat × Nat × Nat)) : Option Graph :=
  let ns := natAt bs 2 2
  let nq := natAt bs 4 2
  let stage := fun (i : Nat) => let b := (bs.drop (32 + 16 * i)).take 16; (({ hdr := BitVec.ofNat 64 (natAt b 0 8), stage := natAt b 8 2, inq := natAt b 0xA 2, home := s.rangeHome p c va i } : StageEnt), natAt b 0xC 4)
  let queue := fun (i : Nat) => let b := (bs.drop (32 + 16 * ns + 32 * i)).take 32; (queueEntOf b places, natAt b 0x18 8)
  let stages := (List.range ns).map stage
  let queues := (List.range nq).map queue
  let ok := 1 ≤ ns && ns ≤ 1024 && nq ≤ 1024 && natAt bs 6 1 == c && (bs.drop 8).take 24 == List.replicate 24 0
    && stages.all (fun e => e.2 == 0 && s.stageOk p c e.1) && queues.all (fun e => e.2 == 0 && e.1.ok && (!(e.1.kind == 0 || e.1.kind == 3) || s.shelfFits p e.1))
    && decide (stages.map fun e => e.1.stage).Nodup && decide (queues.map fun e => e.1.qid).Nodup
  if ok then some { gidx := gidx, part := p, ctx := c, st := 1, stages := stages.map Prod.fst, queues := queues.map Prod.fst } else none

/-- `GRAPH_INSTALL`: the descriptor at `va` is installed under a package-unique index, or refused whole. -/
def execGraphInstall (part ctx : Nat) (va : BitVec 64) (gidx : Nat) (places : List (Nat × Nat × Nat)) (s : State) : Answer :=
  answer <|
    if !s.live part || (s.ctx part ctx).st = 0 || 0xFFFF ≤ gidx || (s.graph? gidx).isSome then s
    else match s.imageBytes part ctx 2 va.toNat 32 with
      | none => s
      | some hd =>
        let n := 32 + 16 * natAt hd 2 2 + 32 * natAt hd 4 2
        match (s.imageBytes part ctx (n / 65536 + 2) va.toNat n).bind fun bs => s.graphOf part ctx gidx va.toNat bs places with
        | none => s
        | some g =>
          let w := s.freshWork g
          -- the control blocks of its host rings are zero (R333)
          let s := (g.queues.filter fun e => e.kind == 1 || e.kind == 2).foldl (fun s e => s.ringStore part (e.store - 64) (List.replicate 64 0)) s
          { s with tabs := { s.tabs with graphs := s.tabs.graphs ++ [g] }, work := { s.work with queues := s.work.queues ++ w.1, ranges := s.work.ranges ++ w.2 } }

/-- Does a queue hold nothing? -/
def State.queueEmpty (s : State) (g : Graph) (e : QueueEnt) : Bool :=
  match s.queue? g.gidx e.qid with
  | some q => q.backlog e == 0 && q.held == 0 && q.resv == 0 && q.waitCommit.isEmpty && q.sent.isEmpty
  | none => true

/-- Is a graph ready to go: every queue empty and no block resident or on its way? -/
def State.graphIdle (s : State) (g : Graph) : Bool :=
  (g.queues.all fun e => s.queueEmpty g e) && (s.work.blocks.all fun b => b.gidx != g.gidx) && s.work.attempts.all fun a => a.gidx != g.gidx

/-- `GRAPH_REMOVE`: the graph drains, and goes once it is empty. -/
def execGraphRemove (gidx : Nat) (s : State) : Answer :=
  answer <| match s.graph? gidx with
    | none => s
    | some g =>
      if s.graphIdle g then
        { s with
          tabs := { s.tabs with graphs := s.tabs.graphs.filter fun (x : Graph) => x.gidx != gidx }
          work := { s.work with queues := s.work.queues.filter fun (x : Queue) => x.gidx != gidx, ranges := s.work.ranges.filter fun (x : RangeState) => x.gidx != gidx
                                views := s.work.views.filter fun (x : View) => x.gidx != gidx, corr := s.work.corr.filter fun (x : Corr) => x.gidx != gidx } }
      else { s with tabs := { s.tabs with graphs := s.tabs.graphs.map fun (x : Graph) => if x.gidx = gidx then { x with st := 2 } else x } }

/-! ### Rings, shootdowns and the virtual functions (R334, R323, R397, R399) -/

/-- `RING_RESET`: a halted ring runs again with w = r. Index 0xFFFF with a partition's number for the queue names that partition's host event ring. -/
def execRingReset (q : MgmtReq) (gidx qid : Nat) (index : BitVec 64) (s : State) : Answer :=
  answer (managed q s fun s => if gidx = 0xFFFF then s.resetEventRing qid index else s.resetRing gidx qid index)

/-- `HOST_TLB_SHOOTDOWN`: the host interface announces an invalidation. -/
def execHostTlbShootdown (part ctx : Nat) (start len : BitVec 64) (s : State) : Answer :=
  answer <|
    if len = 0 || !s.live part || (s.ctx part ctx).st = 0 then s
    else
      let lo := start.toNat / 65536
      let a := s.announce part ctx lo ((start.toNat + len.toNat + 65535) / 65536) []
      { a.2 with work := { a.2.work with msgs := s.work.msgs ++ [({ window := s.sched.window, src := 290, kind := .invalidation a.1 } : Msg)] } }

/-- The bytes of BAR0 that a VF reads at offset 0x0010: STATE, then TIME (Table 20-1); the widths, and what reserved offsets read as, are the model's (DESIGN CHOICE, log 96). -/
def Partition.bar0 (x : Partition) (offset n : Nat) : List Byte :=
  let st : Nat := match x.st with
    | .free => 0
    | .active => 1
    | .paused => 2
    | .lost => 3
  let bs : List Byte := List.replicate 16 0 ++ leBytes 8 st ++ leBytes 8 x.time.toNat
  (List.range n).map fun i => bs.getD (offset + i) 0

/-- `HOST_BAR2_ACCESS`: a VF reads or writes a local frame of its partition by device physical address, or reads BAR0; what it reads is its reply. A VF that no active partition names reads ones and discards writes. -/
def execHostBar2Access (vf : Nat) (at_ : BarAddr) (write : Bool) (data : List (BitVec 8)) (s : State) : Answer :=
  answer <|
    let reply := fun (s : State) (bs : List Byte) => { s with plat := { s.plat with replies := s.plat.replies ++ [bs] } }
    let ones : List Byte := List.replicate data.length 0xFF
    match s.vfPart vf, at_ with
    | none, _ => if write then s else reply s ones
    | some p, .bar0 offset => if write then s else reply s ((s.part p).bar0 offset data.length)
    | some p, .bar2 pa =>
      let frames := (List.range (data.length / 65536 + 2)).map fun i => pa / 65536 + i
      let mine := (frames.filter fun f => 65536 * f < pa + data.length).all fun f => s.frameOwner f == some p && !(s.part p).metaFrames.contains f
      if !mine then (if write then s else reply s ones)
      else if write then s.storeRun (partWho p) ⟨.hbm, pa⟩ data
      else
        let r := (linePieces (data.length / 128 + 2) pa data).foldl (fun (acc : List Byte × State) x =>
          let q := acc.2.loadVerified (partWho p) ⟨.hbm, x.1⟩ x.2.length
          (acc.1 ++ q.1, q.2)) ([], s)
        reply r.2 r.1

/-- An interface enters ERROR: its partition stops as INTEGRITY stops one, without the rollback, and is lost (R399). -/
def State.interfaceError (s : State) (vf : Nat) : State :=
  let s' := { s with plat := { s.plat with tdisp := tset .configUnlocked s.plat.tdisp vf .error } }
  match (s.tabs.parts.find? fun e => e.2.vf == vf && (e.2.st == .active || e.2.st == .paused)).map Prod.fst with
  | none => s'
  | some p =>
    let s' := (s'.stopPart p).docket 8 0x0C 291 p 0 []
    s'.setPart p { s'.part p with st := .lost, rekeying := none }

/-- `IDE_INTEGRITY_FAILURE`. A device that stays in reset has no interface (R409). -/
def execIdeIntegrityFailure (vf : Nat) (s : State) : Answer := answer (if vf = 0 || 40 < vf || s.plat.stuck then s else s.interfaceError vf)

/-- `TDISP_INTERFACE_REQUEST`: lock, start, and stop; ERROR stands for a configuration breach, which the interface itself meets while it is locked or runs. -/
def execTdispInterfaceRequest (vf : Nat) (state : TdispState) (s : State) : Answer :=
  answer <|
    if vf = 0 || 40 < vf || s.plat.stuck then s
    else
      let now := tget TdispState.configUnlocked s.plat.tdisp vf
      let put := fun (t : TdispState) => { s with plat := { s.plat with tdisp := tset .configUnlocked s.plat.tdisp vf t } }
      match now, state with
      | _, .configUnlocked => put .configUnlocked
      | .configUnlocked, .configLocked => put .configLocked
      | .configLocked, .run => put .run
      | .configLocked, .error | .run, .error => s.interfaceError vf
      | _, _ => s

/-! ### The fabric (R405, R407) -/

/-- `DEVICE_NUMBER_ASSIGN`: a link trains, and the fabric manager numbers the device. -/
def execDeviceNumberAssign (port : Nat) (number : BitVec 10) (s : State) : Answer :=
  answer <|
    if Config.ports ≤ port || !s.ran 4 then s
    else { (s.setPort port { s.port port with down := false, xoff := false }) with plat := { (s.setPort port { s.port port with down := false, xoff := false }).plat with device := some number } }

/-- Strictly ascending device numbers. -/
def ascending : List Nat → Bool
  | a :: b :: r => a < b && ascending (b :: r)
  | _ => true

/-- Ports of members that make a switch tree: each member at a port of its own, which leads to no switch. -/
def treeOk (paths : List (List Nat)) : Bool := decide paths.Nodup && paths.all fun p => !p.isEmpty && paths.all fun q => p == q || !p.isPrefixOf q

/-- `CONFIGURE_COLLECTIVE`: refused while an instance of the id is in flight. -/
def execConfigureCollective (q : MgmtReq) (coll : BitVec 16) (members : List (Nat × List Nat)) (s : State) : Answer :=
  answer <| managed q s fun s =>
    let busy := s.allGroups.any fun h => h.ops.any fun o => o.cls == 3 && o.coll == coll.toNat && !o.ended
    if busy || !ascending (members.map Prod.fst) || !members.all (fun m => m.1 < 1024) || !treeOk (members.map Prod.snd) then s
    else { s with plat := { s.plat with colls := (s.plat.colls.filter fun c => c.1 != coll.toNat) ++ [(coll.toNat, members)] } }

/-! ### Firmware (R408, R409) -/

/-- `FIRMWARE_UPDATE`: staged for the next reset, in place of one staged before for the same image. -/
def execFirmwareUpdate (q : MgmtReq) (image : BootImage) (s : State) : Answer :=
  answer (managed q s fun s => { s with plat := { s.plat with staged := (s.plat.staged.filter fun x => x.index != image.index) ++ [image] } })

/-- Does an image pass its check? -/
def imagePasses (i : BootImage) : Bool := i.signed && Config.fusedMinimum ≤ i.version

/-- The SHAKE256 hash of an image. -/
def imageHash (i : BootImage) : List Byte := sponge256 0x1F i.bytes

/-- Runs an image that passes, its hash recorded first. Index 1 is the ROM, which is not checked; the others run only after the monitor, index 2. -/
def PlatState.boot (p : PlatState) (i : BootImage) : PlatState :=
  if i.index = 1 then { p with measures := tput p.measures 1 (imageHash i) }
  else if !imagePasses i || (i.index != 2 && !p.booted) then p
  else { p with measures := tput p.measures i.index (imageHash i), booted := p.booted || i.index == 2, assistOk := p.assistOk || i.index == 5 }

/-- `RESET_BOOT`: package reset, after which the images are checked in order, staged ones in place of their predecessors. Without a monitor that passes, the device stays in reset. What lies outside the package stays. -/
def execResetBoot (images : List BootImage) (s : State) : Answer :=
  answer <|
    let images := images.map fun (x : BootImage) => (s.plat.staged.find? fun i => i.index == x.index).getD x
    let r := State.reset
    let plat := images.foldl PlatState.boot { r.plat with assistOk := false, transit := s.plat.transit }
    { r with
      sched := { r.sched with agenda := s.sched.agenda, free := s.sched.free }
      mem := { r.mem with host := s.mem.host, peers := s.mem.peers, hostHeld := s.mem.hostHeld }
      plat := { plat with stuck := !plat.booted } }

/-! ### The SPDM responder (R410) -/

/-- Records a request and its reply. Before the monitor runs only GET_VERSION is answered (R409). -/
def State.spdmReply (s : State) (request : Nat) (body : List Byte) : State :=
  if !s.plat.booted && request != 1 then s
  else { s with plat := { s.plat with spdm := s.plat.spdm ++ [request], replies := s.plat.replies ++ [body] } }

/-- The bytes of an ML-DSA-65 signature. -/
def signatureBytes : Nat := 3309

/-- A signed reply: the signature is free bytes, for no key of the device is in the spec (log 18). -/
def State.spdmSigned (s : State) (request : Nat) (body : List Byte) : State :=
  if !s.plat.booted then s
  else
    let r := freeBytes (signatureBytes / 8 + 1) s
    r.2.spdmReply request (body ++ r.1.take signatureBytes)

/-- `GET_VERSION`: SPDM 1.4. -/
def execGetVersion (s : State) : Answer := answer (s.spdmReply 1 [1, 4])
/-- `GET_CAPABILITIES`. -/
def execGetCapabilities (s : State) : Answer := answer (s.spdmReply 2 [1, 2, 3, 4, 5, 6, 7, 8])
/-- `NEGOTIATE_ALGORITHMS`: ML-DSA-65 and SHA3-384. -/
def execNegotiateAlgorithms (s : State) : Answer := answer (s.spdmReply 3 [65, 48])
/-- `GET_DIGESTS`: the SHA3-384 digest of the certificate chain. -/
def execGetDigests (s : State) : Answer := answer (s.spdmReply 4 (sha3_384 Config.certificate))
/-- `GET_CERTIFICATE`: part of the chain of a slot. -/
def execGetCertificate (slot offset len : Nat) (s : State) : Answer := answer (s.spdmReply 5 (BitVec.ofNat 8 slot :: (Config.certificate.drop offset).take len))
/-- `CHALLENGE`: the nonce, signed by the device. -/
def execChallenge (slot : Nat) (nonce : BitVec 256) (s : State) : Answer := answer (s.spdmSigned 6 (BitVec.ofNat 8 slot :: leBytes 32 nonce.toNat))

/-- The byte that stands for a TDISP state in measurement 7. -/
def tdispByte : TdispState → Byte
  | .configUnlocked => 0
  | .configLocked => 1
  | .run => 2
  | .error => 3

/-- `GET_MEASUREMENTS`: measurement 1 to 6, or the TDISP configuration of the requesting VF, with its signature. -/
def execGetMeasurements (index vf : Nat) (nonce : BitVec 256) (s : State) : Answer :=
  answer <|
    let body : List Byte := if index = 7 then [tdispByte (tget TdispState.configUnlocked s.plat.tdisp vf)] else tget [] s.plat.measures index
    if 1 ≤ index && index ≤ 7 then s.spdmSigned 7 (leBytes 32 nonce.toNat ++ body) else s

/-- `KEY_EXCHANGE`: a session is established. -/
def execKeyExchange (session : Nat) (exchange : List (BitVec 8)) (s : State) : Answer :=
  answer <|
    if !s.plat.booted then s
    else
      let s := s.spdmSigned 8 exchange
      { s with plat := { s.plat with session := some (session, exchange) } }

end Sys2Proof.Machine
end

