-- ==== Sys2Proof/Machine/Events.lean ====
section
/-! DEFINITION. Hardware events: stalls and assists (R55, R94), tiles (R200, R201), walks (R171), the coherence service and host pages (R191, R192), remote accesses and hotness (R383 to R385), token buckets (R382), summary windows (R323), operating points (R15, R411) and the loss of a link (R331). -/

namespace Sys2Proof.Machine

open Sys2Proof

/-! ### Waits of one group -/

/-- `ASSIST_COMPLETE` (R94): the flagged lanes are written and the group goes on. -/
def execAssistComplete (uid : Nat) (s : State) : Answer :=
  answer <| match s.group? uid with
    | some h => if h.wait = .assist then (s.putGroup h.finishAssist).completeWait uid else s
    | none => s

/-- The fault of lanes whose companions have completed (R188). -/
def State.faultLanes (s : State) (uid code : Nat) (replay : Mask) (addr : W64) : State :=
  let own := s.g.uid
  let s1 := s.checkout uid
  let g := s1.g
  let q := s1.trapRec { code := code, async := false, replay := replay, pc := g.pc, word0 := g.word0, word1 := g.word1.getD 0, lit := g.word1.isSome, addr := addr, done := 0 } (max 3 (g.stall + 1))
  let q1 := { q.1 with g := q.1.g.stayParked g.st }
  let s2 := if q.2 then q1.broken q1.g else q1
  s2.checkout own

/-- Does the condition that holds a word of the group at issue still hold (R32)? -/
def State.heldBy (s : State) (h : Group) : HeldBy → Bool
  | .regs v k => h.interlocked { v := v, k := k }
  | .landed => !h.landed
  | .returned => !h.loadsReturned
  | .performed => !h.allPerformed
  | .verified => h.unver
  | .released => h.unver || !h.allPerformed
  | .packets => 16 ≤ h.packets
  | .flags => h.flagsOut
  | .matrix => h.matFull
  | .tiles ts => let new := ts.filter fun t => !s.mem.tileVerified t && !h.pendTiles.contains t; !new.isEmpty && 64 < h.pendTiles.length + new.length
  | .order r es => es.any fun e => !h.canPerform r e || s.windowHeld e.loc
  | .partner uid => (s.group? uid).any Group.unver

/-- `STALL_ELAPSED`: a stall count has ended, or a condition that holds a word, if it has; a fault that waited for the other lanes of its instruction is taken when they have completed. -/
def execStallElapsed (uid : Nat) (s : State) : Answer :=
  answer <| match s.group? uid with
    | some h => match h.wait with
      | .stall | .hold => s.wake uid
      | .until_ c => if s.heldBy h c then s else s.wake uid
      | .faultAfter req code replay addr => if h.reqs.any fun r => r.id == req then s else s.faultLanes uid code replay addr
      | _ => s
    | none => s

/-! ### Translation and tiles -/

/-- `PAGE_WALK`: the cluster's walker translates a page for a core of the context and fills its TLB (R171). -/
def execPageWalk (core part ctx : Nat) (va : BitVec 64) (kind : AccessKind) (s : State) : Answer :=
  answer <|
    if Config.cores ≤ core || (s.ctx part ctx).st = 0 || s.qown part core = 0 || Config.vaBytes ≤ va.toNat || inAperture va.toNat then s
    else (s.walk { part := part, ctx := ctx, core := core } kind false va.toNat).2

/-- `TILE_VERIFICATION`: the check of a tile ends (R200). -/
def execTileVerification (tile : Nat) (s : State) : Answer :=
  answer <| if s.mem.tileVerified tile && s.allGroups.all fun h => !h.pendTiles.contains tile then s else s.verifyTile (s.tileOwner tile) tile

/-- `TILE_WRITEBACK`: a dirty tile is written back, and its lines leave L2; a metadata tile leaves the metadata cache (R201). -/
def execTileWriteback (tile : Nat) (s : State) : Answer :=
  answer <| match s.frameOwner (tile / 16) with
    | none => s
    | some p =>
      if ((s.part p).metaPlace tile).isSome then s.dropMeta tile
      else
        let s := s.cleanTile tile
        { s with mem := { s.mem with l2 := s.mem.l2.filter fun e => e.1 / 32 != tile } }

/-! ### The coherence service (R191, Table 9-9) -/

def State.replica? (s : State) (p c vpn : Nat) : Option Replica := s.tabs.replicas.find? fun r => r.part == p && r.ctx == c && r.vpn == vpn

def State.putReplica (s : State) (r : Replica) : State :=
  { s with tabs := { s.tabs with replicas := (s.tabs.replicas.filter fun (x : Replica) => !(x.part == r.part && x.ctx == r.ctx && x.vpn == r.vpn)) ++ [r] } }

/-- An entry goes when its page is LOCAL with no holder (R379). -/
def State.dropReplica (s : State) (r : Replica) : State :=
  { s with tabs := { s.tabs with replicas := s.tabs.replicas.filter fun (x : Replica) => !(x.part == r.part && x.ctx == r.ctx && x.vpn == r.vpn) } }

/-- This device's fabric number. -/
def State.self (s : State) : Nat := (s.plat.device.map BitVec.toNat).getD 0

/-- Sets the level-4 entry of a page and announces the change: when the invalidation completes, frames listed are freed, and the page of `send` goes to another device. -/
def State.setLeaf (s : State) (p c vpn : Nat) (e : LeafEnt) (val : Nat) (free : List Nat) (send : Option (Nat × Nat × Nat)) : State :=
  let a := (s.setEntry (partWho p) e.at_ val).announce p c vpn (vpn + 1) free
  { a.2 with mem := { a.2.mem with invals := a.2.mem.invals.map fun i => if i.id = a.1 then { i with send := send } else i } }

/-- Fills a local frame with a page of another device. -/
def State.fetchPage (s : State) (p dev src dst : Nat) : State :=
  let lo := 65536 * src
  let cells := ((tget [] s.mem.peers dev).filter fun c => lo ≤ c.1 && c.1 < lo + 65536).map fun (c : Host.Cell) => (c.1 - lo, c.2)
  s.bulkStore p (65536 * dst) 65536 cells

/-- What the directory holds of a page: its entry, or LOCAL at the owner. The leaf of a page that lies at another device names that device. -/
def State.directory (s : State) (p c vpn : Nat) (e : LeafEnt) : Replica :=
  (s.replica? p c vpn).getD { part := p, ctx := c, vpn := vpn, shared := false, remote := false, owner := if e.target = 2 then bitsAt e.val 63 54 else s.self, holders := [] }

/-- A fault at another device on a page that this device owns. The page goes there once every access here under the old translation has been performed. -/
def State.serveRemote (s : State) (p c vpn dev : Nat) (write : Bool) (frame : Nat) (e : LeafEnt) : State :=
  let r := s.directory p c vpn e
  let own := bitsAt e.val 51 16
  if r.remote || (!write && 15 ≤ r.holders.length && !r.holders.contains dev) then s.putReplica r
  else if write then (s.setLeaf p c vpn e (2 ^ 1) [own] (some (dev, own, frame))).putReplica { r with shared := false, owner := dev, holders := [] }
  else
    let s := if e.val.testBit 10 then s.sendPage dev own frame else s.setLeaf p c vpn e (e.val + 2 ^ 10) [] (some (dev, own, frame))
    s.putReplica { r with shared := true, holders := if r.holders.contains dev then r.holders else r.holders ++ [dev] }

/-- A page owned elsewhere goes to the device that writes it: a copy or a remote mapping of it here is invalidated. -/
def State.yieldPage (s : State) (p c vpn dev : Nat) (r : Replica) (e : LeafEnt) : State :=
  (s.setLeaf p c vpn e (2 ^ 1) (if e.target = 0 then [bitsAt e.val 51 16] else []) none).putReplica { r with shared := false, owner := dev, holders := [] }

/-- A fault at this device: its own copy of a SHARED page becomes writable, which makes this device the owner of a LOCAL page, or a page of another device is mapped, copied or moved here. A page that is mapped remotely takes the owner's permissions, which this device does not hold (log 59). -/
def State.serveLocal (s : State) (p c vpn : Nat) (write : Bool) (frame : Nat) (e : LeafEnt) : State :=
  let r := s.directory p c vpn e
  let base := 1 + 2 ^ 1 + 2 ^ 4            -- V, RSV and R
  if e.val.testBit 0 && e.val.testBit 10 then
    if !write then s else (s.setLeaf p c vpn e ((e.val - 2 ^ 10) ||| 2 ^ 5) [] none).dropReplica r
  else if r.owner = s.self then s
  else if r.remote || (!write && 15 ≤ r.holders.length) then
    let x := s.freeValue
    x.2.setEntry (partWho p) e.at_ (3 + 16 * (x.1.toNat % 8) + 65536 * frame + 2 * 2 ^ 52 + 2 ^ 54 * r.owner)
  else match (s.part p).pool with
    | [] => s
    | f :: rest =>
      let s := (s.setPart p { s.part p with pool := rest }).fetchPage p r.owner frame f
      if write then (s.setEntry (partWho p) e.at_ (base + 2 ^ 5 + 65536 * f)).dropReplica r
      else (s.setEntry (partWho p) e.at_ (base + 2 ^ 10 + 65536 * f)).putReplica { r with shared := true, holders := r.holders ++ [s.self] }

/-- Is the change of an earlier event on the page under way? Events on one page are served one after the other (R191). -/
def State.pageMoves (s : State) (p c vpn : Nat) : Bool := s.mem.invals.any fun i => i.part == p && i.ctx == c && i.lo ≤ vpn && vpn < i.hi

/-- The page is settled under Table 9-9 for a fault at a device. Frames are copied whole; a large page is split first. Nothing is served for a partition that is lost, before the device has its number (R405), or while an earlier event on the page is under way. -/
def State.coherence (s : State) (p c vpn dev : Nat) (write : Bool) (frame : Nat) : State :=
  if !s.ran 6 || !s.live p || (s.ctx p c).st = 0 || s.plat.device.isNone || s.pageMoves p c vpn then s
  else
    let w : Who := { part := p, ctx := c, core := 128 }
    match s.findLeaf w (65536 * vpn) with
    | (none, s) => s
    | (some e0, s) =>
      if s.alarmed then s
      else
      let s := if e0.large && e0.val.testBit 0 then s.splitLarge w e0 else s
      match s.findLeaf w (65536 * vpn) with
      | (none, s) => s
      | (some e, s) =>
        if s.alarmed then s
        else if dev = s.self then s.serveLocal p c vpn write frame e
        else match s.replica? p c vpn with
          | some r =>
            if !e.val.testBit 0 then s
            else if r.owner != s.self then (if write then s.yieldPage p c vpn dev r e else s)
            else if e.target = 0 then s.serveRemote p c vpn dev write frame e else s
          | none => if e.val.testBit 0 && e.target == 0 then s.serveRemote p c vpn dev write frame e else s

/-- `COHERENCE_SERVICE`: settles a page and replays the groups that wait for it. -/
def execCoherenceService (part ctx vpn dev : Nat) (write : Bool) (frame : Nat) (s : State) : Answer :=
  answer <|
    let t := s.coherence part ctx vpn dev write frame
    if dev != t.self || s.pageMoves part ctx vpn then t
    else (t.allGroups.filter fun h => h.part == part && h.ctx == ctx && h.wait == .coherence vpn).foldl (fun s h => s.wake h.uid) t

/-- `MIGRATION_PROPOSAL_ACCEPTED`: as a write fault at the proposed device without the write; a duplication as a read fault. -/
def execMigrationProposalAccepted (part ctx vpn dev : Nat) (duplicate : Bool) (frame : Nat) (s : State) : Answer :=
  answer (s.coherence part ctx vpn dev (!duplicate) frame)

/-! ### Host page requests (R192) -/

/-- A host page is held from now on (R192). -/
def State.holdHost (s : State) (frame : Nat) : State :=
  { s with mem := { s.mem with hostHeld := if s.mem.hostHeld.contains frame then s.mem.hostHeld else s.mem.hostHeld ++ [frame] } }

/-- The host frame whose answer a saved access of the group awaits (R306): that of an element not yet placed. -/
def Group.asksHost (h : Group) : Option Nat :=
  ((h.reqs.flatMap Req.elems).find? fun e => !e.done && !e.placed && e.loc.space == .host).map fun e => e.loc.addr / 65536

/-- `HOST_PAGE_REQUEST_ANSWER`: a granted page is held from now on; a refusal raises PAGE_ABSENT where the page was asked for: in the word, which issues again, in the engine operation, which ends at the step it has reached (R257), in the access of a restored group, or in the matrix operation of the group, which goes on when it may (R203). -/
def execHostPageRequestAnswer (uid : Nat) (granted : Bool) (s : State) : Answer :=
  answer <| match s.group? uid with
    | none => s
    | some h =>
      match h.wait, h.ops.find? fun o => o.awaits.isSome && !o.ended with
      | .hostPage f, _ => if granted then (s.holdHost f).wake uid else (s.putGroup { h with refused := h.refused ++ [f] }).wake uid
      | _, some o =>
        if granted then (s.holdHost (o.awaits.getD 0)).putOp uid { o with awaits := none }
        else (s.putOp uid { o with awaits := none, ended := true, fault := some (o.faultRec 0x09 o.asked o.bytes) }).progress h.part h.ctx
      | _, none => match h.asksHost with
        | some f => if granted then s.holdHost f else s.putGroup { h with refused := h.refused ++ [f] }
        | none => match (s.quad h.quad).mat with
          | o :: os => match o.awaits, o.slices.any fun sl => sl.uid == uid with
            | some f, true =>
              let s' := s.setQuad h.quad { s.quad h.quad with mat := { o with awaits := none, refused := if granted then o.refused else o.refused ++ [f] } :: os }
              if granted then s'.holdHost f else s'
            | _, _ => s
          | [] => s

/-! ### Remote accesses and hotness (R383 to R385) -/

/-- Halves every count of every port table where a 4,096th window has closed; nothing else reads or changes a count before it (R385). -/
def State.decayed (s : State) : State :=
  if !s.plat.decayDue then s
  else
    let half := fun (x : Hot) => { x with reads := x.reads / 2, writes := x.writes / 2 }
    { s with plat := { s.plat with decayDue := false, ports := s.plat.ports.map fun (e : Nat × Port) => (e.1, { e.2 with hot := e.2.hot.map half }) } }

/-- The table with an entry for the key, and its index. A new key takes the place of the entry with the least total count, ties to the lower index; places beyond those listed are empty (R384). -/
def hotEntry (hot : List Hot) (p c vpn dev : Nat) : List Hot × Nat :=
  let new : Hot := { part := p, ctx := c, vpn := vpn, dev := dev, reads := 0, writes := 0 }
  let total := fun (i : Nat) => (hot.getD i new).reads + (hot.getD i new).writes
  match (List.range hot.length).find? fun i => (hot[i]?).any fun x => x.part == p && x.ctx == c && x.vpn == vpn && x.dev == dev with
  | some i => (hot, i)
  | none => match (List.range hot.length).find? fun i => total i == 0 with
    | some i => (hot.set i new, i)
    | none =>
      if hot.length < 4096 then (hot ++ [new], hot.length)
      else
        let least := (List.range hot.length).foldl (fun b i => if total i < total b then i else b) 0
        (hot.set least new, least)

/-- Counts an element request of a peer at a port, and says whether a proposal is to be posted: a migration on a write count, or on the read count of a page that is written as well, else a duplication. A threshold of 0 disables its kind (R384). -/
def PlatState.countHot (x : PlatState) (hot : List Hot) (p c vpn dev : Nat) (write : Bool) : List Hot × Bool :=
  let r := hotEntry hot p c vpn dev
  let e := r.1.getD r.2 { part := p, ctx := c, vpn := vpn, dev := dev, reads := 0, writes := 0 }
  let e := if write then { e with writes := min 65535 (e.writes + 1) } else { e with reads := min 65535 (e.reads + 1) }
  let reached := if write then x.hotw != 0 && x.hotw.toNat ≤ e.writes else x.hotr != 0 && x.hotr.toNat ≤ e.reads && (e.writes == 0 || x.hotw != 0)
  (r.1.set r.2 (if reached then { e with reads := 0, writes := 0 } else e), reached)

/-- A peer's access performed at its home: what a read or an atomic returns is the reply. -/
def State.remoteAccess (s : State) (p : Nat) (l : Loc) (kind : RemoteAccess) (data : List Byte) : State :=
  let reply := fun (s : State) (bs : List Byte) => { s with plat := { s.plat with replies := s.plat.replies ++ [bs] } }
  match kind with
  | .store => s.storeRun (partWho p) l data
  | .load =>
    let r := (linePieces (data.length / 128 + 2) l.addr data).foldl (fun (acc : List Byte × State) x =>
      let q := acc.2.loadVerified (partWho p) ⟨l.space, x.1⟩ x.2.length
      (acc.1 ++ q.1, q.2)) ([], s)
    reply r.2 r.1
  | .atomic op ty =>
    let t := (elemOf ty).getD .n32
    let n := max 4 (elemWidth t / 8)
    let q := s.loadVerified (partWho p) l n
    if q.2.alarmed then q.2
    else
      let run := atomRun op t 0 0 (leNat q.1) [{ lane := 0, loc := l, size := n, x := natAt data 0 n, y := natAt data n n }]
      reply (q.2.storeAt (partWho p) none false l (leBytes n run.1)) q.1

/-- `REMOTE_ACCESS_ARRIVAL`: a peer's access to a page that this device owns under a remote mapping is performed and counted; a count that reaches its threshold posts a proposal to the cluster event queue of the page's home die. -/
def execRemoteAccessArrival (port src part ctx vpn pa : Nat) (kind : RemoteAccess) (data : List (BitVec 8)) (s : State) : Answer :=
  answer <|
    let write := kind != .load
    let remote := (s.replica? part ctx vpn).any fun r => r.owner == s.self && (r.remote || 15 ≤ r.holders.length)
    if Config.ports ≤ port || (s.port port).down || !s.live part || (s.ctx part ctx).st = 0 || !remote then s
    else match s.walk { part := part, ctx := ctx, core := 128 } (if write then .write else .read) false (65536 * vpn + pa % 65536) with
      | (.ok l (some leaf), s') =>
        if leaf.target != 0 || leaf.frame != pa / 65536 then s
        else
          let s := (s'.remoteAccess part l kind data).decayed
          let po := s.port port
          let r := s.plat.countHot po.hot part ctx vpn src write
          let s := s.setPort port { po with hot := r.1 }
          if r.2 then s.postCluster (8 * s.homeDie leaf.frame) (docketBytes 7 0 (272 + port) part ctx 0 (s.part part).time (leBytes 8 vpn ++ leBytes 8 src)) else s
      | _ => s

/-- `HOTNESS_DECAY`: every count of every port table is halved, where a 4,096th window has closed. -/
def execHotnessDecay (s : State) : Answer := answer s.decayed

/-! ### Token buckets (R381, R382) -/

/-- `METERED_REQUEST_ADMIT`: a request takes a token, or waits behind those of its context. -/
def execMeteredRequestAdmit (slice part ctx : Nat) (s : State) : Answer :=
  answer <|
    if 128 ≤ slice || (s.ctx part ctx).st = 0 then s
    else
      let wait := { s with units := { s.units with metered := s.units.metered ++ [(slice, part, ctx)] } }
      if s.units.metered.contains (slice, part, ctx) then wait else (s.takeToken slice part ctx).getD wait

/-- Serves the waiting requests in arrival order as far as tokens go; the later ones of a context that finds none keep waiting. The result lists those that still wait. -/
def State.serveMetered : (waiting kept : List (Nat × Nat × Nat)) → State → List (Nat × Nat × Nat) × State
  | [], kept, s => (kept, s)
  | m :: ms, kept, s =>
    if kept.contains m then State.serveMetered ms (kept ++ [m]) s
    else match s.takeToken m.1 m.2.1 m.2.2 with
      | some s => State.serveMetered ms kept s
      | none => State.serveMetered ms (kept ++ [m]) s

/-- A context's buckets at a window close: refilled under the rate and depth that hold from now on (R382, R404). -/
def State.refill (s : State) (key : Nat) : State :=
  let c := tget {} s.tabs.ctxs key
  match c.tokensSet with
  | none =>
    let tokens := s.units.tokens.filterMap fun (e : Nat × Nat) =>
      if e.1 % 320 != key then some e else if min c.depth (e.2 + c.rate) = c.depth then none else some (e.1, min c.depth (e.2 + c.rate))
    { s with units := { s.units with tokens := tokens } }
  | some x =>
    let now := (List.range 128).map fun i => (i, s.bucket i key)
    let c' := { c with tokens := x, tokensSet := none }
    let s := { s with tabs := { s.tabs with ctxs := tput s.tabs.ctxs key c' }, units := { s.units with tokens := s.units.tokens.filter fun e => e.1 % 320 != key } }
    if c'.rate = 0 then s else now.foldl (fun s b => s.setBucket b.1 key (min c'.depth (b.2 + c'.rate))) s

/-! ### Summary windows (R323, R324, R327, R404, R386, R387) -/

/-- Puts a message in its place: by window, then source, then order of emission. -/
def insertMsg (m : Msg) : List Msg → List Msg
  | [] => [m]
  | x :: xs => if m.window < x.window || (m.window == x.window && m.src < x.src) then m :: x :: xs else x :: insertMsg m xs

/-- What the homes send at the end of a window: the values of each queue and range that changed in it, each from its home slice. -/
def State.homeMsgs (s : State) : List Msg :=
  (s.work.queues.filter Queue.changed).filterMap (fun q => (s.queueEnt q.gidx q.qid).map fun e =>
    { window := s.sched.window, src := 144 + e.home, kind := .occupancy q.gidx q.qid (q.backlog e) (q.free e) })
  ++ (s.work.ranges.filter RangeState.changed).map fun r => { window := s.sched.window, src := 144 + ((s.graph? r.gidx).bind fun g => (g.stage? r.stage).map StageEnt.home).getD 0, kind := .remainder r.gidx r.stage r.remaining }

/-- Sets what the cores hold of a queue or range. -/
def State.setView (s : State) (v : View) : State :=
  { s with work := { s.work with views := (s.work.views.filter fun (x : View) => !(x.gidx == v.gidx && x.key == v.key)) ++ [v] } }

/-- The frames from which an exhausted tile withholds W: its own, and, of a metadata tile, every frame with a tile beneath it (R207). -/
def State.exhaustedFrames (s : State) (p tile : Nat) : List Nat :=
  let x := s.part p
  if (x.metaPlace tile).isNone then [tile / 16] else x.frames.filter fun f => (x.path (16 * f)).any fun m => m.2 == tile

/-- Applies a message at the interfaces. -/
def State.applyMsg (s : State) (m : Msg) : State :=
  match m.kind with
  | .occupancy gidx qid b f => if (s.graph? gidx).isSome then s.setView { gidx := gidx, key := qid, b := b, f := f } else s
  | .remainder gidx stage left => if (s.graph? gidx).isSome then s.setView { gidx := gidx, key := 65536 + stage, b := left, f := 0 } else s
  | .homeMove frame => { s with mem := { s.mem with moving := s.mem.moving.filter fun e => !(e.1 == frame && e.2 == m.window) } }
  | .exhausted tile =>
    match s.frameOwner (tile / 16) with
    | none => s
    | some p =>
      let frames := s.exhaustedFrames p tile
      let s := { s with mem := { s.mem with withheld := s.mem.withheld ++ frames.filter fun f => !s.mem.withheld.contains f } }
      (s.liveCtxs p).foldl (fun s c => ((s.mappedPages p c).filter fun e => e.2.testBit 0 && bitsAt e.2 53 52 == 0 && frames.contains (bitsAt e.2 51 16)).foldl (fun s e => (s.announce p c e.1 (e.1 + 1) []).2) s) s
  | .invalidation id => { s with mem := { s.mem with invals := s.mem.invals.map fun i => if i.id = id then { i with seen := true } else i } }
  | .restart gidx stage inst blockNo fails => { s with work := { s.work with pending := s.work.pending ++ [(gidx, stage, inst, blockNo, fails)] } }
  | .doorbell p gidx qid x => s.ringBell p gidx qid x
  | .remote peer rqid b f => s.setRemote peer rqid b f

/-- Settings of management that wait for a window close (R404, R387): an admission, issue or request of the window in which they came has seen the old values. -/
def State.applySettings (s : State) (key : Nat) : State :=
  let c := tget {} s.tabs.ctxs key
  let held := (s.work.blocks.filter fun b => ctxKey b.part b.ctx == key).length
  let c := match c.quotaSet with
    | some q => { c with quotaSet := none, quota := q - BitVec.ofNat 64 (min held q.toNat), debt := held - q.toNat }
    | none => c
  let c := match c.wdogSet with
    | some w => { c with wdogSet := none, wdog := w }
    | none => c
  let c := { c with iweight := c.iweightSet.getD c.iweight, iweightSet := none, mode := c.modeSet.getD c.mode, modeSet := none }
  let s := { s with tabs := { s.tabs with ctxs := tput s.tabs.ctxs key c } }
  s.serveQuota (c.quotaWait.length + 1) (key / 8) (key % 8)

/-- Does the clock of a partition stand still: paused, lost, or with groups still to be restored by a rollback or at the target of a migration (R317)? -/
def Partition.stands (p : Partition) : Bool := p.st != .active || !p.resuming.isEmpty

/-- The watchdog counter of a context over the window that ends: 0 unless every condition of R315 held; it keeps its value while the partition's clock stands. -/
def State.watch (s : State) (key : Nat) : State :=
  let p := key / 8
  let c := key % 8
  let x := s.ctx p c
  let n := if (s.part p).stands then x.wdogCnt else if x.progress || !s.idle p c then 0 else BitVec.ofNat 64 (min (x.wdogCnt.toNat + Config.windowNs) (2 ^ 64 - 1))
  s.setCtx p c { x with wdogCnt := n, progress := false }

/-- Partition time over one window (R317): it stands still as the partition does, and saturates. -/
def Partition.tick (p : Partition) : Partition :=
  let p := match p.lendSet with
    | some b => { p with lend := b, lendSet := none }
    | none => p
  if !p.stands then { p with time := BitVec.ofNat 64 (min (p.time.toNat + Config.windowNs) (2 ^ 64 - 1)) } else p

/-- Groups that the close of a window wakes: sleepers whose deadline has passed (R161), and `kwait`, which reads again (R162). -/
def State.closeWakes (s : State) : State :=
  s.allGroups.foldl (fun s h => match h.wait with
    | .sleep d => if d ≤ (s.part h.part).time then s.completeWait h.uid else s
    | .kwait _ => s.wake h.uid
    | _ => s) s

/-- Groups that a rollback or a migration has still to restore: those that are gone, or restored, no longer hold the clock (R317). -/
def State.settleResuming (s : State) : State :=
  { s with tabs := { s.tabs with parts := s.tabs.parts.map fun (e : Nat × Partition) =>
      (e.1, { e.2 with resuming := e.2.resuming.filter fun u => (s.group? u).any fun h => h.st == .preempted }) } }

/-- Watchdogs at a window close (R386): every counter moves, and those that are due fire. -/
def State.watchdogs (s : State) (keys : List Nat) : State :=
  let s := keys.foldl State.watch s
  keys.foldl (fun s k => if s.watchdogDue (k / 8) (k % 8) then s.fireWatchdog (k / 8) (k % 8) else s) s

/-- Over budget, clusters go down by one point in turn until the module is within budget; when it is, the spec leaves to its power: a free value says so after each (R411; log 97). -/
def State.shedPower : List Nat → State → State
  | [], s => s
  | cl :: cls, s =>
    if (s.cluster cl).point = 0 then State.shedPower cls s
    else
      let x := (s.setPoint cl ((s.cluster cl).point - 1)).freeValue
      if x.1.getLsbD 0 then { x.2 with plat := { x.2.plat with overBudget := false } } else State.shedPower cls x.2

/-- What a window's close does to the clocks and settings of partitions and contexts. -/
def State.closeTables (s : State) : State :=
  let keys := s.tabs.ctxs.map Prod.fst
  let s := (s.settleResuming).watchdogs keys
  let s := { s with tabs := { s.tabs with parts := s.tabs.parts.map fun (e : Nat × Partition) => (e.1, e.2.tick) } }
  let s := keys.foldl State.applySettings s
  let s := (s.tabs.parts.map Prod.fst).foldl State.takeWays s
  let s := keys.foldl State.refill s
  let m := State.serveMetered s.units.metered [] s
  { m.2 with units := { m.2.units with metered := m.1 } }

/-- `SUMMARY_WINDOW_CLOSE`: the window under way ends. Messages of every window up to `through`, and at least of those two windows old, are applied in their global order, at every interface at once (DESIGN CHOICE, log 98); time, settings, tokens, quotas and watchdogs move; and free block slots are evaluated. A device that stays in reset has no windows (R409). -/
def execSummaryWindowClose (through : Nat) (overBudget : Bool) (s : State) : Answer :=
  answer <|
    if s.plat.stuck then s
    else
    let w := s.sched.window
    let closed := max s.sched.closed (min (w + 1) (max (through + 1) (w - 1)))
    let all := (s.work.msgs ++ s.homeMsgs).foldl (fun l m => insertMsg m l) []
    let due := all.filter fun m => m.window < closed
    let s := s.decayed
    let s := { s with
      sched := { s.sched with window := w + 1, closed := closed, cycle := 0 }
      work := { s.work with msgs := all.filter fun m => !(m.window < closed), queues := s.work.queues.map fun (q : Queue) => { q with changed := false }
                            ranges := s.work.ranges.map fun (r : RangeState) => { r with changed := false }, corr := s.work.corr.filter fun (c : Corr) => closed ≤ c.window }
      plat := { s.plat with overBudget := overBudget, decayDue := (w + 1) % 4096 == 0 } }
    let s := if (w + 1) % 16 = 0 && s.plat.device.isSome then { s with plat := { s.plat with flits := s.exchange } } else s
    let s := (due.foldl State.applyMsg s).closeTables.closeWakes
    let s := if overBudget then s.shedPower (List.range 16).reverse else s
    s.evaluateAll

/-! ### Operating points (R15, R411) -/

/-- `QUADRANT_RELEASE`: the next quadrant of the cluster issues. -/
def execQuadrantRelease (cluster : Nat) (s : State) : Answer :=
  answer <|
    if Config.clusters ≤ cluster || s.plat.stuck then s
    else match ((List.range 32).map fun i => 32 * cluster + i).find? fun q => !(s.quad q).released with
      | some q => s.setQuad q { s.quad q with released := true }
      | none => s

/-- `OPERATING_POINT_CHANGE`: a cluster rises to a point that the cap and the power budget allow, and at least to the one that a held block has asked for (R31, R411). Which points the budget allows is the module's to say (log 97). -/
def execOperatingPointChange (cluster point : Nat) (s : State) : Answer :=
  answer <|
    let c := s.cluster cluster
    let top := s.allowedPoint cluster
    if Config.clusters ≤ cluster || s.plat.stuck || point ≤ c.point || top < point || point < min c.hint top then s else s.setPoint cluster point

/-! ### The loss of a link (R331, R407) -/

/-- `LINK_LOSS`: records forwarded to the peer and not acknowledged return, unused credit goes, and collectives with the peer end faulted. -/
def execLinkLoss (port peer : Nat) (s : State) : Answer :=
  answer <|
    if Config.ports ≤ port || s.plat.stuck then s
    else
      let s := s.setPort port { s.port port with down := true }
      let s := s.tabs.graphs.foldl (fun s g => g.queues.foldl (fun s e =>
        if e.kind = 3 && e.peer = peer then s.returnSent g.gidx e.qid
        else if e.kind = 0 then s.onQueue g.gidx e.qid fun q =>
          let lost := q.granted.filter fun x => x.1 % 1024 == peer
          { q with resv := q.resv - (lost.map Prod.snd).sum, granted := q.granted.filter fun x => x.1 % 1024 != peer }
        else s) s) s
      s.allGroups.foldl (fun s h => (h.ops.filter fun o => o.cls == 3 && !o.ended && (s.collMembers o.coll).any fun m => m.1 == peer).foldl (fun s o =>
        (s.putOp h.uid { o with ended := true, fault := some (o.faultRec 0x15 0 o.bytes) }).progress h.part h.ctx) s) s

end Sys2Proof.Machine
end

