-- ==== Sys2Proof/Machine/Select.lean ====
section
/-! DEFINITION. Instruction fetch (R38, R49, R60, R189), issue selection (R35), and a program placed for a first step (log 2). -/

namespace Sys2Proof.Machine

open Sys2Proof

/-! ### Fetch (R189) -/

/-- The line of a virtual address that a core's instruction cache holds for a group's context. -/
def State.cachedLine (s : State) (g : Group) (va : Nat) : Option CacheLine :=
  s.mem.icache.find? fun c => c.core == g.core && c.part == g.part && c.ctx == g.ctx && c.line == va / 128

/-- The word of a line at an address. -/
def lineWord (bs : List Byte) (va : Nat) : W64 := BitVec.ofNat 64 (leNat ((bs.drop (va % 128)).take 8))

/-- A core's instruction cache takes a line; the oldest of its 1,024 leaves a full one (R11, log 13). -/
def MemState.icacheInstall (m : MemState) (c : CacheLine) : MemState :=
  let mine := m.icache.filter fun x => x.core == c.core
  let rest := if mine.length < Config.icacheLines then m.icache else
    match mine.head? with
    | some o => m.icache.erase o
    | none => m.icache
  { m with icache := rest ++ [c] }

/-- The word at an address, as the issuing group executes it: from the instruction cache, else from a verified line of a page with X, which the cache then holds. -/
def State.fetchWord (s : State) (va : Nat) : Except Trans W64 × State :=
  match s.cachedLine s.g va with
  | some c => (.ok (lineWord c.bytes va), s)
  | none =>
    if inAperture va then (.error (.fault 0x0A), s)
    else
      let r := s.lookup s.g.who .exec va
      match r.1 with
      | .ok l _ =>
        let at_ : Loc := ⟨l.space, l.addr / 128 * 128⟩
        let q := r.2.loadVerified s.g.who at_ 128
        if q.2.alarmed then (.error .hardware, q.2)
        else
          let c : CacheLine := { core := s.g.core, part := s.g.part, ctx := s.g.ctx, line := va / 128, bytes := q.1, phys := some at_ }
          (.ok (lineWord q.1 va), { q.2 with mem := q.2.mem.icacheInstall c })
      | t => (.error t, r.2)

/-- The stall count of words that name no instruction: the field of an F-form word, the sum of the fields of a P-form word. -/
def rawStall (w : W64) : Nat :=
  match (w.extractLsb' 62 2).toNat with
  | 0 => (fformOf w).stall.toNat
  | 1 => (w.extractLsb' 53 2).toNat + (w.extractLsb' 22 2).toNat
  | _ => 0

/-- A fault of the words at PC, before any instruction is decoded from them. The record holds a literal only where the second word is one. A word that was never fetched (`w0` 0) has no stall count known, and counts as one of 0, which spaces the next word by 3 (DESIGN CHOICE, log 100). -/
def State.fetchFault (s : State) (code : Nat) (w0 w1 : W64) (lit : Bool) (addr : W64) : State :=
  let stall := rawStall w0
  let lit := lit && w1.extractLsb' 62 2 == 2
  let w1 := if lit then w1 else 0
  let q := s.trapRec { code := code, async := false, replay := 0, pc := s.g.pc, word0 := w0, word1 := w1, lit := lit, addr := addr, done := 0 } (max 3 (stall + 1))
  if q.2 then q.1.broken q.1.g else q.1

/-- A fetch that meets no word: INSN_PAGE with the address of the word, spaced as log 100 says where it is the first (DESIGN CHOICE), or a wait for the page. An alarm takes the partition, group and all, at the end of the step. -/
def State.fetchStop (s : State) (t : Trans) (w0 : W64) (va : Nat) : State :=
  let wait := fun (w : Wait) => { s with g := { s.g with st := .waitExt, wait := w, word0 := w0, word1 := none } }
  match t with
  | .coherence vpn => wait (.coherence vpn)
  | .hostPage f => wait (.hostPage f)
  | .residency => wait .other
  | .hardware => { s with g := { s.g with st := .waitStall, wait := .hold } }
  | _ => s.fetchFault 0x0B w0 0 false (BitVec.ofNat 64 va)

/-- The words at PC: the first, and the literal word where it expects one; or the state in which the fetch has stopped. -/
def State.fetchInsn (s : State) : Except State (W64 × W64 × Bool) × State :=
  let va := s.g.pc.toNat
  match s.fetchWord va with
  | (.error t, s') => (.error (s'.fetchStop t 0 va), s')
  | (.ok w0, s') =>
    if wantsLiteral w0 = .none then (.ok (w0, 0, false), s')
    else
      let vb := (pcBits (s.g.pc + 8)).toNat
      match s'.fetchWord vb with
      | (.error t, s'') => (.error (s''.fetchStop t w0 vb), s'')
      | (.ok w1, s'') => (.ok (w0, w1, true), s'')

/-- The fault code of words that are no instruction (R60, orders 2 to 4). -/
def errorCode : DecodeError → Nat
  | .illegalWord => 0x01
  | .illegalOpcode => 0x02
  | .illegalPair => 0x03

/-- Words that are no instruction raise their fault. -/
def State.badWord (s : State) (e : DecodeError) (w0 w1 : W64) (lit : Bool) : State := s.fetchFault (errorCode e) w0 w1 lit 0

/-! ### Issue selection (R35) -/

/-- May the group issue: READY or HANDLER, in a released quadrant of an active partition, not stopped, and past no promotion point whose drain is under way (R252)? -/
def State.mayIssue (s : State) (h : Group) : Bool :=
  (h.st == .ready || h.st == .handler) && !h.stopping && !(h.promote.any fun p => p.2) && (h.ccc || ((s.quad h.quad).released && (s.part h.part).st == .active && (s.part h.part).quads.contains h.quad))

/-- The units a full word needs: 1 the load-store unit, 2 the matrix unit, 0 neither. -/
def unitOf (op : Nat) : Nat :=
  if (0x201 ≤ op && op ≤ 0x20C) || (0x221 ≤ op && op ≤ 0x224) || op == 0x22A || op == 0x3EF then 1
  else if op == 0x251 || (0x254 ≤ op && op ≤ 0x256) then 2
  else 0

/-- The next word of a group as issue selection sees it ahead of execution, with no effect. -/
def State.peekWord (s : State) (h : Group) : Option W64 :=
  let va := h.pc.toNat
  match s.cachedLine h va with
  | some c => some (lineWord c.bytes va)
  | none =>
    if inAperture va || Config.vaBytes ≤ va then none
    else match (s.walk h.who .exec true va).1 with
      | .ok l _ => some (BitVec.ofNat 64 (leNat (s.peek l 8)))
      | _ => none

/-- The unit of the full word a group would issue next; none for a pair word or one that cannot be read. -/
def State.nextUnit (s : State) (h : Group) : Option Nat :=
  (s.peekWord h).bind fun w => if w.extractLsb' 62 2 = 0 then some (unitOf (w.extractLsb' 52 10).toNat) else none

def clampDef (x : Int) : Int := max (-32768) (min 32767 x)

/-- Adds its weight to DEF of each context of the list, chooses the greatest, ties to the lower number, and takes the sum of the weights from it. -/
def State.chooseCtx (s : State) (quad : Nat) (es : List Nat) : Option Nat × State :=
  let weight := fun (k : Nat) => (tget ({} : Context) s.tabs.ctxs k).iweight.toNat
  let q := s.quad quad
  let d := es.foldl (fun d k => tset 0 d k (clampDef (tget 0 d k + (weight k : Int)))) q.def_
  let best := es.foldl (fun (best : Option Nat) k => match best with
    | none => some k
    | some b => if tget 0 d b < tget 0 d k || (tget 0 d k == tget 0 d b && k < b) then some k else some b) none
  match best with
  | none => (none, s)
  | some x =>
    let d := tset 0 d x (clampDef (tget 0 d x - ((es.map weight).sum : Nat)))
    (some x, s.setQuad quad { q with def_ := d })

/-- The group with the greatest GAGE, ties to the lower slot. -/
def oldestGroup (gs : List Group) : Option Group :=
  gs.foldl (fun (best : Option Group) h => match best with
    | none => some h
    | some b => if b.gage < h.gage || (h.gage == b.gage && h.slot < b.slot) then some h else some b) none

def Group.key (h : Group) : Nat := ctxKey h.part h.ctx

/-- `ISSUE_SELECTION`: one cycle of a quadrant: the group chosen by the deficit counters, and a second one whose word fits beside it. -/
def execIssueSelection (quad : Nat) (s : State) : Answer :=
  answer <|
    if s.plat.stuck then s
    else
    let ready := (s.quadGroups quad).filter s.mayIssue
    let es := (ready.map Group.key).eraseDups
    let s := s.setQuad quad { s.quad quad with def_ := (s.quad quad).def_.filter fun e => es.contains e.1 || e.2 < 0 }
    let s := s.mapGroups (fun h => h.quad == quad && s.mayIssue h && h.resident) fun h => { h with gage := h.gage + 1 }
    let s := { s with sched := { s.sched with cycle := s.sched.cycle + 1 } }
    let c := s.chooseCtx quad es
    match c.1.bind fun x => oldestGroup (ready.filter fun h => h.key == x) with
    | none => c.2
    | some g =>
      let s := { c.2 with sched := { c.2.sched with sel := c.2.sched.sel ++ [g.uid] } }
      match s.nextUnit g with
      | none => s
      | some u =>
        let fit := fun (h : Group) => h.uid != g.uid && (match s.nextUnit h with
          | some v => v = 0 || v != u
          | none => false)
        let rest := ready.filter fit
        let e2 := (rest.map Group.key).eraseDups
        let c2 := s.chooseCtx quad e2
        match c2.1.bind fun x => oldestGroup (rest.filter fun h => h.key == x) with
        | some g2 => { c2.2 with sched := { c2.2.sched with sel := c2.2.sched.sel ++ [g2.uid] } }
        | none => c2.2

/-! ### The end of a step -/

/-- The reserved bits of PC and MODE read zero (Tables 6-2 and 6-6). -/
def Group.tidy (g : Group) : Group := { g with pc := pcBits g.pc, mode := g.mode &&& 0xFFFFFFFFFFFFFFF8 }

/-- Groups that wait for a frame of a pool that has one try again (R306, R369): frames come back at the end of a checkpoint and a rollback, too. -/
def State.servePools (s : State) : State := s.tabs.parts.foldl (fun s e => if e.2.pool.isEmpty || e.2.poolWait.isEmpty then s else s.servePool e.1) s

/-- What ends every step: alarms are settled, the writes of the step wake the `kwait`s on their lines, frames serve the groups that wait for them, and reserved bits are zero. -/
def State.settle (s : State) : State :=
  let s := s.settleAlarms.stirWakes.servePools
  { s with g := s.g.tidy, groups := s.groups.map Group.tidy }

/-! ### A program placed for one step (log 2) -/

/-- Where the program stands: virtual and device physical. -/
def placedAt : Nat := 0x10000

/-- The partition, context and group that run it, on the released quadrant 0. -/
def placedPart : Partition := { st := .active, l2ways := 0xFFFF, vf := 1, quads := [0], evring := 0x20040, evlog := 4, frames := [0, 1, 2, 3], metaFrames := [3], metas := [[48]], keySt := 1, levels := 1 }
def placedCtx : Context := { st := 1 }
def placedGroup (uid : Nat) : Group :=
  { uid := uid, st := .ready, pc := BitVec.ofNat 64 placedAt, m0 := 0xFFFFFFFF, mode := 0x0000000010000000, gens := seedGens 0, regs := 255 }

/-- The page table entries that map the page: level-1 to level-4 tables at 0, 0x2000, 0x4000 and 0x6000. -/
def placedTables : List (Nat × Nat) := [(0x0000, 0x2001), (0x2000, 0x4001), (0x4000, 0x6001), (0x6008, 0x101F3)]

/-- Puts the bytes of a program where the next step fetches it, with the page, context and READY group that this takes. -/
def State.place1 (s : State) (code : List Byte) : State :=
  let uid := s.work.nextUid
  let hbm := placedTables.foldl (fun m e => msetBytes m e.1 (leBytes 8 e.2)) (mclear s.mem.hbm 0 0x40000)
  let hbm := msetBytes hbm placedAt code
  let l2 := (s.mem.l2.filter fun e => 0x800 ≤ e.1)
  let l2 := ([0, 64, 128, 192, 512] : List Nat).foldl (fun t l => tput t l ({ dirty := true } : L2Line)) l2
  let m := s.mem
  let mem := { m with
    hbm := hbm, img := mclear m.img 0 0x40000, l2 := l2, tiles := m.tiles.filter fun e => 0x40 ≤ e.1, metas := m.metas.filter fun e => 0x40 ≤ e.1, l1 := m.l1.filter fun c => 0x800 ≤ c.line
    icache := m.icache.filter fun c => !(c.part == 0 && c.ctx == 0), tlb := m.tlb.filter fun t => !(t.part == 0 && t.ctx == 0), alarms := [], bad := none }
  let s := { s with mem := mem, sched := { s.sched with sel := [uid] }, work := { s.work with nextUid := uid + 1 } }
  let s := s.setQuad 0 { s.quad 0 with released := true, fenced := false }
  ((s.setPart 0 placedPart).setCtx 0 0 placedCtx).addGroup (placedGroup uid)

end Sys2Proof.Machine
end

