-- ==== Sys2Proof/Machine/Dispatch.lean ====
section
/-! DEFINITION. The meaning of each instruction and step: one arm per constructor of Instr, each one call of its meaning. -/

namespace Sys2Proof.Machine

open Sys2Proof

/-- What an instruction or a step does to the machine. -/
def exec (i : Instr) (s : State) : Host.Outcome State Fault Refusal :=
  match i with
  | .vadd f => Sys2Proof.Machine.execVadd f s
  | .vaddImm8 f => Sys2Proof.Machine.execVaddImm8 f s
  | .vaddImm32 f imm => Sys2Proof.Machine.execVaddImm32 f imm s
  | .vsub f => Sys2Proof.Machine.execVsub f s
  | .vsubImm8 f => Sys2Proof.Machine.execVsubImm8 f s
  | .vsubImm32 f imm => Sys2Proof.Machine.execVsubImm32 f imm s
  | .vaddsat f => Sys2Proof.Machine.execVaddsat f s
  | .vaddsatImm8 f => Sys2Proof.Machine.execVaddsatImm8 f s
  | .vaddsatImm32 f imm => Sys2Proof.Machine.execVaddsatImm32 f imm s
  | .vsubsat f => Sys2Proof.Machine.execVsubsat f s
  | .vsubsatImm8 f => Sys2Proof.Machine.execVsubsatImm8 f s
  | .vsubsatImm32 f imm => Sys2Proof.Machine.execVsubsatImm32 f imm s
  | .vmul f => Sys2Proof.Machine.execVmul f s
  | .vmulImm8 f => Sys2Proof.Machine.execVmulImm8 f s
  | .vmulImm32 f imm => Sys2Proof.Machine.execVmulImm32 f imm s
  | .vmulh f => Sys2Proof.Machine.execVmulh f s
  | .vmulhImm8 f => Sys2Proof.Machine.execVmulhImm8 f s
  | .vmulhImm32 f imm => Sys2Proof.Machine.execVmulhImm32 f imm s
  | .vmad f => Sys2Proof.Machine.execVmad f s
  | .vmadImm8 f => Sys2Proof.Machine.execVmadImm8 f s
  | .vmadImm32 f imm => Sys2Proof.Machine.execVmadImm32 f imm s
  | .vabsdiff f => Sys2Proof.Machine.execVabsdiff f s
  | .vmin f => Sys2Proof.Machine.execVmin f s
  | .vminImm8 f => Sys2Proof.Machine.execVminImm8 f s
  | .vminImm32 f imm => Sys2Proof.Machine.execVminImm32 f imm s
  | .vmax f => Sys2Proof.Machine.execVmax f s
  | .vmaxImm8 f => Sys2Proof.Machine.execVmaxImm8 f s
  | .vmaxImm32 f imm => Sys2Proof.Machine.execVmaxImm32 f imm s
  | .vabs f => Sys2Proof.Machine.execVabs f s
  | .vand f => Sys2Proof.Machine.execVand f s
  | .vandImm8 f => Sys2Proof.Machine.execVandImm8 f s
  | .vandImm32 f imm => Sys2Proof.Machine.execVandImm32 f imm s
  | .vor f => Sys2Proof.Machine.execVor f s
  | .vorImm8 f => Sys2Proof.Machine.execVorImm8 f s
  | .vorImm32 f imm => Sys2Proof.Machine.execVorImm32 f imm s
  | .vxor f => Sys2Proof.Machine.execVxor f s
  | .vxorImm8 f => Sys2Proof.Machine.execVxorImm8 f s
  | .vxorImm32 f imm => Sys2Proof.Machine.execVxorImm32 f imm s
  | .vandn f => Sys2Proof.Machine.execVandn f s
  | .vandnImm8 f => Sys2Proof.Machine.execVandnImm8 f s
  | .vandnImm32 f imm => Sys2Proof.Machine.execVandnImm32 f imm s
  | .vshl f => Sys2Proof.Machine.execVshl f s
  | .vshlImm8 f => Sys2Proof.Machine.execVshlImm8 f s
  | .vshr f => Sys2Proof.Machine.execVshr f s
  | .vshrImm8 f => Sys2Proof.Machine.execVshrImm8 f s
  | .vsra f => Sys2Proof.Machine.execVsra f s
  | .vsraImm8 f => Sys2Proof.Machine.execVsraImm8 f s
  | .vrot f => Sys2Proof.Machine.execVrot f s
  | .vrotImm8 f => Sys2Proof.Machine.execVrotImm8 f s
  | .vbext f => Sys2Proof.Machine.execVbext f s
  | .vbextImm32 f imm => Sys2Proof.Machine.execVbextImm32 f imm s
  | .vbins f => Sys2Proof.Machine.execVbins f s
  | .vbinsImm32 f imm => Sys2Proof.Machine.execVbinsImm32 f imm s
  | .vpopc f => Sys2Proof.Machine.execVpopc f s
  | .vclz f => Sys2Proof.Machine.execVclz f s
  | .vctz f => Sys2Proof.Machine.execVctz f s
  | .vbrev f => Sys2Proof.Machine.execVbrev f s
  | .vdot4 f => Sys2Proof.Machine.execVdot4 f s
  | .vdot2 f => Sys2Proof.Machine.execVdot2 f s
  | .vcmp f => Sys2Proof.Machine.execVcmp f s
  | .vcmpImm8 f => Sys2Proof.Machine.execVcmpImm8 f s
  | .vcmpImm32 f imm => Sys2Proof.Machine.execVcmpImm32 f imm s
  | .vsel f => Sys2Proof.Machine.execVsel f s
  | .vselImm8 f => Sys2Proof.Machine.execVselImm8 f s
  | .vselImm32 f imm => Sys2Proof.Machine.execVselImm32 f imm s
  | .vwid f => Sys2Proof.Machine.execVwid f s
  | .vshrink f => Sys2Proof.Machine.execVshrink f s
  | .vfadd f => Sys2Proof.Machine.execVfadd f s
  | .vfaddImm32 f imm => Sys2Proof.Machine.execVfaddImm32 f imm s
  | .vfsub f => Sys2Proof.Machine.execVfsub f s
  | .vfsubImm32 f imm => Sys2Proof.Machine.execVfsubImm32 f imm s
  | .vfmul f => Sys2Proof.Machine.execVfmul f s
  | .vfmulImm32 f imm => Sys2Proof.Machine.execVfmulImm32 f imm s
  | .vfma f => Sys2Proof.Machine.execVfma f s
  | .vfmaImm32 f imm => Sys2Proof.Machine.execVfmaImm32 f imm s
  | .vfmin f => Sys2Proof.Machine.execVfmin f s
  | .vfminImm32 f imm => Sys2Proof.Machine.execVfminImm32 f imm s
  | .vfmax f => Sys2Proof.Machine.execVfmax f s
  | .vfmaxImm32 f imm => Sys2Proof.Machine.execVfmaxImm32 f imm s
  | .vfabs f => Sys2Proof.Machine.execVfabs f s
  | .vfcmp f => Sys2Proof.Machine.execVfcmp f s
  | .vfcmpImm32 f imm => Sys2Proof.Machine.execVfcmpImm32 f imm s
  | .vfdiv f => Sys2Proof.Machine.execVfdiv f s
  | .vfsqrt f => Sys2Proof.Machine.execVfsqrt f s
  | .vfrcp f => Sys2Proof.Machine.execVfrcp f s
  | .vfrsq f => Sys2Proof.Machine.execVfrsq f s
  | .vfexp2 f => Sys2Proof.Machine.execVfexp2 f s
  | .vflog2 f => Sys2Proof.Machine.execVflog2 f s
  | .vfsin f => Sys2Proof.Machine.execVfsin f s
  | .vfcos f => Sys2Proof.Machine.execVfcos f s
  | .vftanh f => Sys2Proof.Machine.execVftanh f s
  | .vfclass f => Sys2Proof.Machine.execVfclass f s
  | .vcvt f => Sys2Proof.Machine.execVcvt f s
  | .vpack f => Sys2Proof.Machine.execVpack f s
  | .vunpack f => Sys2Proof.Machine.execVunpack f s
  | .vmov f => Sys2Proof.Machine.execVmov f s
  | .vmovImm8 f => Sys2Proof.Machine.execVmovImm8 f s
  | .vmovImm32 f imm => Sys2Proof.Machine.execVmovImm32 f imm s
  | .vmovk f => Sys2Proof.Machine.execVmovk f s
  | .vperm f => Sys2Proof.Machine.execVperm f s
  | .vpermImm8 f => Sys2Proof.Machine.execVpermImm8 f s
  | .vshfl f => Sys2Proof.Machine.execVshfl f s
  | .vshflImm8 f => Sys2Proof.Machine.execVshflImm8 f s
  | .vlrot f => Sys2Proof.Machine.execVlrot f s
  | .vlrotImm8 f => Sys2Proof.Machine.execVlrotImm8 f s
  | .vscan f => Sys2Proof.Machine.execVscan f s
  | .vred f => Sys2Proof.Machine.execVred f s
  | .vxchg f => Sys2Proof.Machine.execVxchg f s
  | .pairWord h0 h1 => Sys2Proof.Machine.execPairWord h0 h1 s
  | .vld f => Sys2Proof.Machine.execVld f s
  | .vldOffset f imm => Sys2Proof.Machine.execVldOffset f imm s
  | .vst f => Sys2Proof.Machine.execVst f s
  | .vstOffset f imm => Sys2Proof.Machine.execVstOffset f imm s
  | .kld f => Sys2Proof.Machine.execKld f s
  | .kldOffset f imm => Sys2Proof.Machine.execKldOffset f imm s
  | .kst f => Sys2Proof.Machine.execKst f s
  | .kstOffset f imm => Sys2Proof.Machine.execKstOffset f imm s
  | .vatom f l => Sys2Proof.Machine.execVatom f l s
  | .vatomn f l => Sys2Proof.Machine.execVatomn f l s
  | .vcas f l => Sys2Proof.Machine.execVcas f l s
  | .atomicRunAtHome uid req elem => Sys2Proof.Machine.execAtomicRunAtHome uid req elem s
  | .fence f => Sys2Proof.Machine.execFence f s
  | .facqRemote f => Sys2Proof.Machine.execFacqRemote f s
  | .promotionPoint victim issuer => Sys2Proof.Machine.execPromotionPoint victim issuer s
  | .promotionDrain issuer => Sys2Proof.Machine.execPromotionDrain issuer s
  | .pref f => Sys2Proof.Machine.execPref f s
  | .prefL1 f => Sys2Proof.Machine.execPrefL1 f s
  | .prefOffset f imm => Sys2Proof.Machine.execPrefOffset f imm s
  | .cwb f => Sys2Proof.Machine.execCwb f s
  | .cinv f => Sys2Proof.Machine.execCinv f s
  | .xcopy f l => Sys2Proof.Machine.execXcopy f l s
  | .xgath f l => Sys2Proof.Machine.execXgath f l s
  | .xcoll f l => Sys2Proof.Machine.execXcoll f l s
  | .xwait f => Sys2Proof.Machine.execXwait f s
  | .engineCompletion uid op coll => Sys2Proof.Machine.execEngineCompletion uid op coll s
  | .asyncFaultTake uid => Sys2Proof.Machine.execAsyncFaultTake uid s
  | .abeg f imm => Sys2Proof.Machine.execAbeg f imm s
  | .acom f => Sys2Proof.Machine.execAcom f s
  | .aabt f => Sys2Proof.Machine.execAabt f s
  | .xcast f l => Sys2Proof.Machine.execXcast f l s
  | .xcastT f l => Sys2Proof.Machine.execXcastT f l s
  | .mma f l => Sys2Proof.Machine.execMma f l s
  | .mfence f => Sys2Proof.Machine.execMfence f s
  | .mwait f => Sys2Proof.Machine.execMwait f s
  | .mpour f l => Sys2Proof.Machine.execMpour f l s
  | .mzero f => Sys2Proof.Machine.execMzero f s
  | .mload f l => Sys2Proof.Machine.execMload f l s
  | .matrixOpComplete quad => Sys2Proof.Machine.execMatrixOpComplete quad s
  | .qpop f => Sys2Proof.Machine.execQpop f s
  | .qpopTry f => Sys2Proof.Machine.execQpopTry f s
  | .qpush f => Sys2Proof.Machine.execQpush f s
  | .qlenVb f => Sys2Proof.Machine.execQlenVb f s
  | .qlenVf f => Sys2Proof.Machine.execQlenVf f s
  | .qlenB f => Sys2Proof.Machine.execQlenB f s
  | .qlenF f => Sys2Proof.Machine.execQlenF f s
  | .qlenH f => Sys2Proof.Machine.execQlenH f s
  | .qlenR f => Sys2Proof.Machine.execQlenR f s
  | .hpush f => Sys2Proof.Machine.execHpush f s
  | .hpop f => Sys2Proof.Machine.execHpop f s
  | .htry f => Sys2Proof.Machine.execHtry f s
  | .hallow f => Sys2Proof.Machine.execHallow f s
  | .launch f => Sys2Proof.Machine.execLaunch f s
  | .cont f => Sys2Proof.Machine.execCont f s
  | .evpost f => Sys2Proof.Machine.execEvpost f s
  | .evpop f => Sys2Proof.Machine.execEvpop f s
  | .evpopWait f => Sys2Proof.Machine.execEvpopWait f s
  | .ksig f => Sys2Proof.Machine.execKsig f s
  | .tdef f l => Sys2Proof.Machine.execTdef f l s
  | .tpatch f l => Sys2Proof.Machine.execTpatch f l s
  | .tpatchAdd f l => Sys2Proof.Machine.execTpatchAdd f l s
  | .tinv f l => Sys2Proof.Machine.execTinv f l s
  | .hnewB f => Sys2Proof.Machine.execHnewB f s
  | .hnewQ f => Sys2Proof.Machine.execHnewQ f s
  | .hnewJ f => Sys2Proof.Machine.execHnewJ f s
  | .hdel f => Sys2Proof.Machine.execHdel f s
  | .preserve f => Sys2Proof.Machine.execPreserve f s
  | .preserveRel f => Sys2Proof.Machine.execPreserveRel f s
  | .pcommit f => Sys2Proof.Machine.execPcommit f s
  | .pfree f => Sys2Proof.Machine.execPfree f s
  | .tlbinv f => Sys2Proof.Machine.execTlbinv f s
  | .tlbinvAll f => Sys2Proof.Machine.execTlbinvAll f s
  | .hmove f => Sys2Proof.Machine.execHmove f s
  | .barExpect f => Sys2Proof.Machine.execBarExpect f s
  | .barExpectN f => Sys2Proof.Machine.execBarExpectN f s
  | .barArrive f => Sys2Proof.Machine.execBarArrive f s
  | .barArriveX f => Sys2Proof.Machine.execBarArriveX f s
  | .barWait f => Sys2Proof.Machine.execBarWait f s
  | .engineBarrierArrival part ctx handle bytes => Sys2Proof.Machine.execEngineBarrierArrival part ctx handle bytes s
  | .jwait f => Sys2Proof.Machine.execJwait f s
  | .jstat f => Sys2Proof.Machine.execJstat f s
  | .jstatS f => Sys2Proof.Machine.execJstatS f s
  | .joinDecrement part ctx handle faulted killed => Sys2Proof.Machine.execJoinDecrement part ctx handle faulted killed s
  | .ckpt f => Sys2Proof.Machine.execCkpt f s
  | .ckstat f => Sys2Proof.Machine.execCkstat f s
  | .checkpointComplete part => Sys2Proof.Machine.execCheckpointComplete part s
  | .kadd f => Sys2Proof.Machine.execKadd f s
  | .kaddImm8 f => Sys2Proof.Machine.execKaddImm8 f s
  | .kaddImm32 f imm => Sys2Proof.Machine.execKaddImm32 f imm s
  | .ksub f => Sys2Proof.Machine.execKsub f s
  | .ksubImm8 f => Sys2Proof.Machine.execKsubImm8 f s
  | .ksubImm32 f imm => Sys2Proof.Machine.execKsubImm32 f imm s
  | .kmul f => Sys2Proof.Machine.execKmul f s
  | .kmulImm8 f => Sys2Proof.Machine.execKmulImm8 f s
  | .kmulImm32 f imm => Sys2Proof.Machine.execKmulImm32 f imm s
  | .kand f => Sys2Proof.Machine.execKand f s
  | .kandImm8 f => Sys2Proof.Machine.execKandImm8 f s
  | .kandImm32 f imm => Sys2Proof.Machine.execKandImm32 f imm s
  | .kor f => Sys2Proof.Machine.execKor f s
  | .korImm8 f => Sys2Proof.Machine.execKorImm8 f s
  | .korImm32 f imm => Sys2Proof.Machine.execKorImm32 f imm s
  | .kxor f => Sys2Proof.Machine.execKxor f s
  | .kxorImm8 f => Sys2Proof.Machine.execKxorImm8 f s
  | .kxorImm32 f imm => Sys2Proof.Machine.execKxorImm32 f imm s
  | .kshl f => Sys2Proof.Machine.execKshl f s
  | .kshlImm8 f => Sys2Proof.Machine.execKshlImm8 f s
  | .kshlImm32 f imm => Sys2Proof.Machine.execKshlImm32 f imm s
  | .kshr f => Sys2Proof.Machine.execKshr f s
  | .kshrImm8 f => Sys2Proof.Machine.execKshrImm8 f s
  | .kshrImm32 f imm => Sys2Proof.Machine.execKshrImm32 f imm s
  | .ksra f => Sys2Proof.Machine.execKsra f s
  | .ksraImm8 f => Sys2Proof.Machine.execKsraImm8 f s
  | .ksraImm32 f imm => Sys2Proof.Machine.execKsraImm32 f imm s
  | .kmin f => Sys2Proof.Machine.execKmin f s
  | .kminImm8 f => Sys2Proof.Machine.execKminImm8 f s
  | .kminImm32 f imm => Sys2Proof.Machine.execKminImm32 f imm s
  | .kmax f => Sys2Proof.Machine.execKmax f s
  | .kmaxImm8 f => Sys2Proof.Machine.execKmaxImm8 f s
  | .kmaxImm32 f imm => Sys2Proof.Machine.execKmaxImm32 f imm s
  | .kmov f => Sys2Proof.Machine.execKmov f s
  | .kmovImm8 f => Sys2Proof.Machine.execKmovImm8 f s
  | .kmovWide f wide => Sys2Proof.Machine.execKmovWide f wide s
  | .kcmp f => Sys2Proof.Machine.execKcmp f s
  | .kcmpImm8 f => Sys2Proof.Machine.execKcmpImm8 f s
  | .kcmpImm32 f imm => Sys2Proof.Machine.execKcmpImm32 f imm s
  | .nop f => Sys2Proof.Machine.execNop f s
  | .bra f => Sys2Proof.Machine.execBra f s
  | .call f => Sys2Proof.Machine.execCall f s
  | .ret f => Sys2Proof.Machine.execRet f s
  | .jmp f => Sys2Proof.Machine.execJmp f s
  | .jcall f => Sys2Proof.Machine.execJcall f s
  | .bcc f => Sys2Proof.Machine.execBcc f s
  | .bccLong f imm => Sys2Proof.Machine.execBccLong f imm s
  | .bany f => Sys2Proof.Machine.execBany f s
  | .ball f => Sys2Proof.Machine.execBall f s
  | .pfork f imm => Sys2Proof.Machine.execPfork f imm s
  | .pjoin f => Sys2Proof.Machine.execPjoin f s
  | .pyield f => Sys2Proof.Machine.execPyield f s
  | .mand f => Sys2Proof.Machine.execMand f s
  | .mor f => Sys2Proof.Machine.execMor f s
  | .mxor f => Sys2Proof.Machine.execMxor f s
  | .mandn f => Sys2Proof.Machine.execMandn f s
  | .mnot f => Sys2Proof.Machine.execMnot f s
  | .mmov f => Sys2Proof.Machine.execMmov f s
  | .mset f => Sys2Proof.Machine.execMset f s
  | .mget f => Sys2Proof.Machine.execMget f s
  | .mpopc f => Sys2Proof.Machine.execMpopc f s
  | .mfirst f => Sys2Proof.Machine.execMfirst f s
  | .kget f => Sys2Proof.Machine.execKget f s
  | .ktime f => Sys2Proof.Machine.execKtime f s
  | .kmode f => Sys2Proof.Machine.execKmode f s
  | .kwmode f => Sys2Proof.Machine.execKwmode f s
  | .kwmodeFlags f => Sys2Proof.Machine.execKwmodeFlags f s
  | .kwmodeCtl f => Sys2Proof.Machine.execKwmodeCtl f s
  | .kgang f => Sys2Proof.Machine.execKgang f s
  | .kpair f => Sys2Proof.Machine.execKpair f s
  | .ksleep f => Sys2Proof.Machine.execKsleep f s
  | .ksleepWake uid => Sys2Proof.Machine.execKsleepWake uid s
  | .kwait f => Sys2Proof.Machine.execKwait f s
  | .kwaitWake uid => Sys2Proof.Machine.execKwaitWake uid s
  | .trap f => Sys2Proof.Machine.execTrap f s
  | .brk f => Sys2Proof.Machine.execBrk f s
  | .eret f => Sys2Proof.Machine.execEret f s
  | .gexit f => Sys2Proof.Machine.execGexit f s
  | .ksys f => Sys2Proof.Machine.execKsys f s
  | .kwsys f => Sys2Proof.Machine.execKwsys f s
  | .assistComplete uid => Sys2Proof.Machine.execAssistComplete uid s
  | .issueSelection quad => Sys2Proof.Machine.execIssueSelection quad s
  | .stallElapsed uid => Sys2Proof.Machine.execStallElapsed uid s
  | .loadReturn uid req gen => Sys2Proof.Machine.execLoadReturn uid req gen s
  | .pageWalk core part ctx va kind => Sys2Proof.Machine.execPageWalk core part ctx va kind s
  | .invalidationComplete inv => Sys2Proof.Machine.execInvalidationComplete inv s
  | .l2FillReturn uid req line => Sys2Proof.Machine.execL2FillReturn uid req line s
  | .tileVerification tile => Sys2Proof.Machine.execTileVerification tile s
  | .tileWriteback tile => Sys2Proof.Machine.execTileWriteback tile s
  | .coherenceService part ctx vpn dev write frame => Sys2Proof.Machine.execCoherenceService part ctx vpn dev write frame s
  | .hostPageRequestAnswer uid granted => Sys2Proof.Machine.execHostPageRequestAnswer uid granted s
  | .remoteAccessArrival port src part ctx vpn pa write data => Sys2Proof.Machine.execRemoteAccessArrival port src part ctx vpn pa write data s
  | .hotnessDecay => Sys2Proof.Machine.execHotnessDecay s
  | .summaryWindowClose through overBudget => Sys2Proof.Machine.execSummaryWindowClose through overBudget s
  | .meteredRequestAdmit slice part ctx => Sys2Proof.Machine.execMeteredRequestAdmit slice part ctx s
  | .watchdogFire part ctx => Sys2Proof.Machine.execWatchdogFire part ctx s
  | .summaryExchange port peer occ => Sys2Proof.Machine.execSummaryExchange port peer occ s
  | .emitReservationRequest attempt => Sys2Proof.Machine.execEmitReservationRequest attempt s
  | .launchPopRequest attempt => Sys2Proof.Machine.execLaunchPopRequest attempt s
  | .rangeBlockRequest attempt => Sys2Proof.Machine.execRangeBlockRequest attempt s
  | .restartOffer gidx stage inst blockNo => Sys2Proof.Machine.execRestartOffer gidx stage inst blockNo s
  | .launchConfirmation attempt place => Sys2Proof.Machine.execLaunchConfirmation attempt place s
  | .groupLaunchComplete uid => Sys2Proof.Machine.execGroupLaunchComplete uid s
  | .quadrantRelease cluster => Sys2Proof.Machine.execQuadrantRelease cluster s
  | .operatingPointChange cluster point => Sys2Proof.Machine.execOperatingPointChange cluster point s
  | .park quad => Sys2Proof.Machine.execPark quad s
  | .parkedRestore uid => Sys2Proof.Machine.execParkedRestore uid s
  | .groupRetirement uid => Sys2Proof.Machine.execGroupRetirement uid s
  | .blockRetirement blk => Sys2Proof.Machine.execBlockRetirement blk s
  | .recordCommit blk => Sys2Proof.Machine.execRecordCommit blk s
  | .shelfRefill gidx qid => Sys2Proof.Machine.execShelfRefill gidx qid s
  | .forwardBatchSend port => Sys2Proof.Machine.execForwardBatchSend port s
  | .forwardBatchArrival gidx qid peer recs => Sys2Proof.Machine.execForwardBatchArrival gidx qid peer recs s
  | .forwardAck gidx qid count => Sys2Proof.Machine.execForwardAck gidx qid count s
  | .creditGrant gidx qid peer => Sys2Proof.Machine.execCreditGrant gidx qid peer s
  | .xoff port => Sys2Proof.Machine.execXoff port s
  | .xon port => Sys2Proof.Machine.execXon port s
  | .linkLoss port peer => Sys2Proof.Machine.execLinkLoss port peer s
  | .doorbell vf bytes => Sys2Proof.Machine.execDoorbell vf bytes s
  | .ringReset q gidx qid index => Sys2Proof.Machine.execRingReset q gidx qid index s
  | .poolFrameArrival part frame => Sys2Proof.Machine.execPoolFrameArrival part frame s
  | .freedFrameToPool part frame => Sys2Proof.Machine.execFreedFrameToPool part frame s
  | .preemption uid => Sys2Proof.Machine.execPreemption uid s
  | .preemptionSave uid => Sys2Proof.Machine.execPreemptionSave uid s
  | .restore uid core slot => Sys2Proof.Machine.execRestore uid core slot s
  | .kill uid => Sys2Proof.Machine.execKill uid s
  | .hwError quad => Sys2Proof.Machine.execHwError quad s
  | .liveMigration q part phase => Sys2Proof.Machine.execLiveMigration q part phase s
  | .rekey q part aes kmac => Sys2Proof.Machine.execRekey q part aes kmac s
  | .l2WayMaskChange q part ways resq => Sys2Proof.Machine.execL2WayMaskChange q part ways resq s
  | .hostBar2Access vf pa write data => Sys2Proof.Machine.execHostBar2Access vf pa write data s
  | .ownershipClaim claims => Sys2Proof.Machine.execOwnershipClaim claims s
  | .ownerNextWrite q next => Sys2Proof.Machine.execOwnerNextWrite q next s
  | .handoverAck sender => Sys2Proof.Machine.execHandoverAck sender s
  | .handoverTimeout => Sys2Proof.Machine.execHandoverTimeout s
  | .ownerChannelLoss => Sys2Proof.Machine.execOwnerChannelLoss s
  | .createPartition q part setup => Sys2Proof.Machine.execCreatePartition q part setup s
  | .destroyPartition q part => Sys2Proof.Machine.execDestroyPartition q part s
  | .setIssueWeight q part ctx weight => Sys2Proof.Machine.execSetIssueWeight q part ctx weight s
  | .setTokens q part ctx tokens => Sys2Proof.Machine.execSetTokens q part ctx tokens s
  | .setLend q part lend => Sys2Proof.Machine.execSetLend q part lend s
  | .setQuota q part ctx quota => Sys2Proof.Machine.execSetQuota q part ctx quota s
  | .setWdog q part ctx wdog => Sys2Proof.Machine.execSetWdog q part ctx wdog s
  | .setDefaultMode q part ctx mode => Sys2Proof.Machine.execSetDefaultMode q part ctx mode s
  | .setOperatingCap q cluster cap => Sys2Proof.Machine.execSetOperatingCap q cluster cap s
  | .setHotnessThresholds q hotw hotr => Sys2Proof.Machine.execSetHotnessThresholds q hotw hotr s
  | .setReplicaPolicy q part ctx vpn remote => Sys2Proof.Machine.execSetReplicaPolicy q part ctx vpn remote s
  | .configureCollective q coll members => Sys2Proof.Machine.execConfigureCollective q coll members s
  | .firmwareUpdate q image => Sys2Proof.Machine.execFirmwareUpdate q image s
  | .resetBoot images => Sys2Proof.Machine.execResetBoot images s
  | .deviceNumberAssign port number => Sys2Proof.Machine.execDeviceNumberAssign port number s
  | .ideIntegrityFailure vf => Sys2Proof.Machine.execIdeIntegrityFailure vf s
  | .getVersion => Sys2Proof.Machine.execGetVersion s
  | .getCapabilities => Sys2Proof.Machine.execGetCapabilities s
  | .negotiateAlgorithms => Sys2Proof.Machine.execNegotiateAlgorithms s
  | .getDigests => Sys2Proof.Machine.execGetDigests s
  | .getCertificate slot offset len => Sys2Proof.Machine.execGetCertificate slot offset len s
  | .challenge slot nonce => Sys2Proof.Machine.execChallenge slot nonce s
  | .getMeasurements index vf nonce => Sys2Proof.Machine.execGetMeasurements index vf nonce s
  | .keyExchange session exchange => Sys2Proof.Machine.execKeyExchange session exchange s
  | .createContext q part ctx setup => Sys2Proof.Machine.execCreateContext q part ctx setup s
  | .destroyContext q part ctx => Sys2Proof.Machine.execDestroyContext q part ctx s
  | .graphInstall part ctx va gidx places => Sys2Proof.Machine.execGraphInstall part ctx va gidx places s
  | .graphRemove gidx => Sys2Proof.Machine.execGraphRemove gidx s
  | .hostTlbShootdown part ctx start len => Sys2Proof.Machine.execHostTlbShootdown part ctx start len s
  | .storePerformed uid req elem => Sys2Proof.Machine.execStorePerformed uid req elem s
  | .migrationProposalAccepted part ctx vpn dev duplicate frame => Sys2Proof.Machine.execMigrationProposalAccepted part ctx vpn dev duplicate frame s
  | .tdispInterfaceRequest vf state => Sys2Proof.Machine.execTdispInterfaceRequest vf state s
  | .frameHandOver part frame => Sys2Proof.Machine.execFrameHandOver part frame s

end Sys2Proof.Machine
end

