-- ==== Sys2Proof/Machine/Order.lean ====
section
/-! DEFINITION. What the next step is: the issue of a selected group, the next step of the agenda, or, where neither stands, the first step of a fixed order that changes anything (log 1). -/

namespace Sys2Proof.Machine

open Sys2Proof

/-! The steps below are values of Instr, which only the kernel builds (Decode.lean says why). -/

noncomputable section

/-- An answer with its alarms settled and its reserved bits zero. -/
def settled : Answer → Answer
  | .next s => answer s.settle
  | .fault f => .fault f
  | .refused r => .refused r

/-! ### Issue of a selected group -/

/-- The words at PC of the issuing group, fetched, decoded and executed. -/
def State.issue (s : State) : Answer :=
  match s.fetchInsn with
  | (.error stopped, _) => answer stopped
  | (.ok (w0, w1, lit), s') =>
    match decode w0 w1 with
    | .ok i => exec i s'
    | .error e => answer (s'.badWord e w0 w1 lit)

/-- The turn of the group with this uid: a fault that waits for an instruction boundary comes first (R257, R299). A group that may no longer issue loses its turn. -/
def State.turn (s : State) (uid : Nat) : Answer :=
  let s' := s.checkout uid
  if s'.g.uid = uid && s'.mayIssue s'.g then
    if !s'.g.pendFaults.isEmpty && s'.g.atBoundary then execAsyncFaultTake uid s' else s'.issue
  else .next s

/-! ### The default order (log 1) -/

/-- A step of the hardware or of what stands outside it; the others are instruction words. -/
def isEvent (i : Instr) : Bool := (encode i).isEmpty

/-- The elements of a request that are not yet performed, by index. -/
def Req.open_ (q : Req) : List Nat := (List.range q.elems.length).filter fun i => !(q.elems.getD i { lane := 0, loc := ⟨.hbm, 0⟩, size := 0, done := true }).done

/-- What the accesses, operations and waits of a group can do next. -/
def groupEvents (h : Group) : List Instr :=
  (h.reqs.flatMap fun q => match q.kind with
    | .store => q.open_.map fun i => Instr.storePerformed h.uid q.id i
    | .atomic => (q.open_.map fun i => Instr.atomicRunAtHome h.uid q.id i) ++ [.loadReturn h.uid q.id q.gen.toNat]
    | _ => [.loadReturn h.uid q.id q.gen.toNat])
  ++ (h.ops.map fun o => Instr.engineCompletion h.uid o.seq {})
  ++ (h.promote.map fun p => Instr.promotionPoint h.uid p.1)
  ++ (h.pendTiles.map fun t => Instr.tileVerification t)
  ++ [.assistComplete h.uid, .stallElapsed h.uid, .ksleepWake h.uid, .promotionDrain h.uid, .groupRetirement h.uid, .groupLaunchComplete h.uid]

/-- Does the partition keep its groups pre-empted: one with a checkpoint in progress, or one that migrates? -/
def State.stills (s : State) (p : Nat) : Bool := (s.inProgress p).isSome || (s.plat.migrating.any fun x => x.1 == p)

/-- Faults, then pre-emptions, come before the wakes of a group (R34). -/
def firstEvents (s : State) : List Instr :=
  (s.allGroups.map fun h => Instr.asyncFaultTake h.uid)
  ++ ((s.allGroups.filter fun h => s.stills h.part && h.st != .preempted).map fun h => Instr.preemption h.uid)
  ++ (s.allGroups.map fun h => Instr.preemptionSave h.uid)

/-- What launches, retirements and queues can do next. -/
def workEvents (s : State) : List Instr :=
  (s.mem.invals.map fun v => Instr.invalidationComplete v.id)
  ++ (s.units.arrivals.map fun a => Instr.engineBarrierArrival a.1 a.2.1 a.2.2.1 a.2.2.2)
  ++ (s.units.decrements.map fun d => Instr.joinDecrement d.1 d.2.1 d.2.2.1 d.2.2.2.1 d.2.2.2.2)
  ++ (s.tabs.parts.flatMap fun e => e.2.freeing.map fun f => Instr.freedFrameToPool e.1 f)
  ++ (s.work.blocks.flatMap fun b => [Instr.recordCommit b.id, .blockRetirement b.id])
  ++ (s.work.pending.map fun o => Instr.restartOffer o.1 o.2.1 o.2.2.1 o.2.2.2.1)
  ++ (s.work.attempts.flatMap fun a => [Instr.emitReservationRequest a.id, .launchPopRequest a.id, .rangeBlockRequest a.id, .launchConfirmation a.id []])
  ++ (s.work.queues.map fun q => Instr.shelfRefill q.gidx q.qid)

/-- What checkpoints, parking, saved groups, watchdogs and operating points can do next. -/
def scheduleEvents (s : State) : List Instr :=
  let parts := s.tabs.parts.map Prod.fst
  (parts.map fun p => Instr.checkpointComplete p)
  ++ (s.units.quads.map fun e => Instr.matrixOpComplete e.1)
  ++ ((s.allGroups.filter Group.wantsRegs).map fun h => Instr.park h.quad).eraseDups
  ++ ((s.allGroups.filter fun h => h.st == .parked).map fun h => Instr.parkedRestore h.uid)
  ++ ((s.allGroups.filter fun h => h.st == .preempted && !s.stills h.part).map fun h => Instr.restore h.uid h.core h.slot)
  ++ [.hotnessDecay]
  ++ (s.tabs.parts.flatMap fun e => match e.2.rekeying with
    | some (aes, kmac, _) => [Instr.rekey { sender := 0, epoch := 0 } e.1 aes kmac]
    | none => [])
  ++ (s.tabs.ctxs.map fun e => Instr.watchdogFire (e.1 / 8) (e.1 % 8))
  ++ ((s.tabs.graphs.filter fun g => g.st != 1).map fun g => Instr.graphRemove g.gidx)
  ++ ((List.range Config.clusters).map fun c => Instr.quadrantRelease c)
  ++ ((List.range Config.clusters).flatMap fun c =>
    let x := s.cluster c
    if x.point < min x.hint (s.allowedPoint c) then [Instr.operatingPointChange c (min x.hint (s.allowedPoint c))] else [])

/-- The quadrants where a group may issue. -/
def readyQuads (s : State) : List Nat := ((s.allGroups.filter fun h => s.mayIssue h).map Group.quad).eraseDups

/-- The core cycles of a summary window at an operating point (Table 1-3): a selection of a quadrant takes one. -/
def windowCycles (point : Nat) : Nat := ([16, 24, 32, 40, 48, 52, 56] : List Nat).getD point 64

/-- The selections of one window, cycle after cycle: each quadrant that may issue has those of its cluster's point. -/
def windowSelections (s : State) (quads : List Nat) : List Nat :=
  (List.range 64).flatMap fun i => quads.filter fun q => i < windowCycles (s.cluster (q / 32)).point

/-- The default order: faults and pre-emptions, then accesses, operations and waits group by group, then queues and launches, then the rest; then issue, a window closing after its selections or when nothing issues (log 1). -/
def candidates (s : State) : List Instr :=
  firstEvents s ++ (s.allGroups.flatMap groupEvents) ++ workEvents s ++ scheduleEvents s
    ++ (((windowSelections s (readyQuads s)).drop s.sched.cycle).take 1).map fun q => Instr.issueSelection q

/-- Does a step do anything? -/
def changes (s : State) : Answer → Bool
  | .next s' => !decide (s' = s)
  | _ => true

/-- The first step of the list that does anything. -/
def firstChange (s : State) : List Instr → Answer
  | [] => execSummaryWindowClose 0 false s
  | i :: is =>
    let a := exec i s
    if changes s a then a else firstChange s is

/-! ### One step, before it is settled -/

/-- A selected group issues; else the agenda's next step is taken, words in it passed over; else the default order's. -/
def State.advanceOne (s : State) : Answer :=
  match s.sched.sel with
  | uid :: rest => State.turn { s with sched := { s.sched with sel := rest } } uid
  | [] => match s.sched.agenda with
    | i :: rest =>
      let s' := { s with sched := { s.sched with agenda := rest } }
      if isEvent i then exec i s' else .next s'
    | [] => firstChange s (candidates s)

end

end Sys2Proof.Machine
end

