-- ==== Sys2Proof/Machine/Step.lean ====
section
/-! DEFINITION. One step of the machine, and a program placed where the next step fetches. -/

namespace Sys2Proof.Machine

open Sys2Proof

noncomputable section

/-- One step: the issue of one word, or one step of the hardware or of what stands outside it. -/
def step (s : State) : Host.Outcome State Fault Refusal := settled s.advanceOne

end

/-- The instruction whose bits are `w`, stored where the next step fetches (log 2): `nbits` bits, the bits above zero, two words long. -/
def State.withFetchWord (s : State) (nbits w : Nat) : State := s.place1 (leBytes 16 (w % 2 ^ nbits))

end Sys2Proof.Machine
end

