-- ==== Sys2Proof/Safety.lean ====
section
/-! DEFINITION. The terms in which claims are stated: the invariant of a step, when a word executes, and where it leaves the machine. -/

namespace Sys2Proof.Machine

open Sys2Proof

/-! ### The invariant -/

/-- The reserved bits of PC and MODE read zero (Tables 6-2 and 6-6), so PC is a multiple of 8 below 2^56. -/
def Group.reservedZero (g : Group) : Prop := g.pc &&& 0xFF00000000000007 = 0 ∧ g.mode &&& 7 = 0

/-- Every memory is in its canonical form. -/
def State.memoriesWf (s : State) : Bool :=
  s.mem.hbm.wf && s.mem.img.wf && s.mem.host.wf && s.mem.peers.all (fun e => Memory.wf e.2) && s.mem.spad.all (fun e => Memory.wf e.2)
    && s.mem.acc.all fun e => Memory.wf e.2

/-- No two groups have one number (R31): those in slots or saved differ, no new group takes the number of another, and what a checkpoint or a partition on its way brings back meets no group with the same number. 0 is no group's number. -/
structure State.Numbered (s : State) : Prop where
  distinct : (s.g.uid :: s.groups.map Group.uid).Nodup
  idle     : s.g.st = .free → s.g.uid = 0
  busy     : s.g.st ≠ .free → 0 < s.g.uid
  others   : ∀ h ∈ s.groups, 0 < h.uid
  below    : s.g.uid < s.work.nextUid ∧ ∀ h ∈ s.groups, h.uid < s.work.nextUid
  recorded : ∀ k ∈ s.plat.ckpts, (k.groups.map Group.uid).Nodup ∧ ∀ h ∈ k.groups, 0 < h.uid ∧ h.uid < s.work.nextUid ∧ h.part = k.part ∧ h.ccc = false
  same     : ∀ k ∈ s.plat.ckpts, ∀ h ∈ k.groups, ∀ x ∈ s.allGroups, x.uid = h.uid → x.part = k.part ∧ x.ccc = false
  apart    : ∀ k ∈ s.plat.ckpts, ∀ j ∈ s.plat.ckpts, ∀ h ∈ k.groups, ∀ x ∈ j.groups, x.uid = h.uid → j.part = k.part
  onTheWay : ∀ m ∈ s.plat.transit, (m.saved.groups.map Group.uid).Nodup ∧ ∀ h ∈ m.saved.groups, 0 < h.uid

/-- What every step keeps. The first two every instruction itself keeps: the memories stay in their canonical form, and no two groups have one number. The others hold once a step has ended: reserved bits of every group read zero, no integrity or hardware error met is left untaken (R205, R311), no write has left a `kwait` on its line asleep (R162), and no access has met an address that does not exist. -/
structure State.Inv (s : State) : Prop where
  memories : s.memoriesWf = true
  numbered : s.Numbered
  issuing : s.g.reservedZero
  others  : ∀ h ∈ s.groups, h.reservedZero
  settled : s.mem.alarms = []
  quiet   : s.mem.stirred = []
  sound   : s.mem.bad = none

/-! ### Words that execute -/

/-- The word an instruction is; a pair word and a step that is no instruction have none. -/
def wordOf (i : Instr) : Option Word := (shape i).map fun sh => mkWord sh (fieldsOf i) (literalOf i)

/-- Does the word execute when it issues: no check of R60 fails, no open region forbids it (R266, R267), no interlocked write holds it (R58), registers can be taken for what it writes (R107), and it is no replay (R164)? -/
def State.executes (s : State) (w : Word) (ex : Extra) : Bool :=
  s.mem.bad.isNone && s.g.replay.isNone && (regionBar s.g w).isNone && (issueFault s.g w ex).isNone
    && !s.g.interlocked ((w.allReads s.g ex).append (w.allWrites ex)) && s.canAlloc s.g (w.allWrites ex).v

/-- The state in which the body of a word runs. -/
def State.begun (s : State) (w : Word) (ex : Extra) : State := { s with g := s.g.begin w ex }

/-- The group has gone past the word: PC at `pc`, `space` cycles of issue distance further on (R55), ready or waiting for its stall count. -/
structure Group.Past (h : Group) (w : Word) (g : Group) (pc : W64) (space : Nat) : Prop where
  pc    : g.pc = pc
  dist  : g.dist = h.dist + space
  stall : g.stall = w.stall
  st    : g.st = if w.stall = 0 then (if h.sup then .handler else .ready) else .waitStall

/-- The group with its pending paths aged by the word (R21). -/
def Group.aged (g : Group) : Group := { g with paths := agePaths g.paths }

/-! ### Results in vector registers -/

/-- What a read of a vector name gives at issue distance d (R56). -/
def Group.readAt (g : Group) (d n : Nat) : Lanes := ({ g with dist := d } : Group).readV n

/-- Lane l of what a name holds at issue distance d; 0 where it holds no register (R106). -/
def Group.held (g : Group) (d n l : Nat) : W32 := if (g.vreg n).alloc then laneAt ((g.vreg n).value d) l else 0

/-- From `lat` cycles of issue distance on, a name reads the bits written in the lanes of the mask, and what it held elsewhere (R56, R112). -/
def Group.Wrote (g h : Group) (lat n : Nat) (mask : Mask) (bits : W32) (vals : Lanes) : Prop :=
  ∀ d l, g.dist + lat ≤ d → l < 32 →
    laneAt (h.readAt d n) l = if mask.getLsbD l then (g.held d n l &&& ~~~bits) ||| (laneAt vals l &&& bits) else g.held d n l

/-- The result stands in its name, and in the next name for its upper half (R40); nothing is written to 255. -/
def VecRes.Stands (r : VecRes) (g h : Group) : Prop :=
  r.n ≠ 255 →
    g.Wrote h r.lat r.n (outMask r.outs) (BitVec.ofNat 32 r.bits) ((outVals r.outs).map (BitVec.ofNat 32))
      ∧ (r.pair = true → g.Wrote h r.lat (r.n + 1) (outMask r.outs) (BitVec.ofNat 32 (r.bits / 2 ^ 32)) ((outVals r.outs).map fun x => BitVec.ofNat 32 (x / 2 ^ 32)))

/-- No lane of a result is left to the assist routine (R94). -/
def VecRes.plain (r : VecRes) : Bool := r.outs.all fun o => !o.tiny

/-! ### Frames -/

/-- Everything of the machine but the issuing group is as before, save the progress marks of contexts (R314) and the state of groups to which freed registers go (R107). -/
structure State.SameUnits (s t : State) : Prop where
  sched : t.sched = s.sched
  mem   : t.mem = s.mem
  work  : t.work = s.work
  units : t.units = s.units
  plat  : t.plat = s.plat
  parts : t.tabs.parts = s.tabs.parts
  graphs : t.tabs.graphs = s.tabs.graphs
  replicas : t.tabs.replicas = s.tabs.replicas
  ctxs  : ∀ p c, { t.ctx p c with progress := true } = { s.ctx p c with progress := true }
  others : (t.groups.map fun h => { h with st := .free }) = s.groups.map fun h => { h with st := .free }

/-- The registers that only system instructions, faults and hardware write (Chapter 6) are as before. -/
structure Group.SameSystem (g h : Group) : Prop where
  gang   : h.gang = g.gang
  pair   : h.pair = g.pair
  wid    : h.wid = g.wid
  hdr    : h.hdr = g.hdr
  frec   : h.frec = g.frec
  acause : h.acause = g.acause
  sup    : h.sup = g.sup
  gen    : h.gen = g.gen
  tiles  : h.tiles = g.tiles
  place  : (h.uid, h.part, h.ctx, h.core, h.slot, h.blk, h.idx) = (g.uid, g.part, g.ctx, g.core, g.slot, g.blk, g.idx)
  reqs   : h.reqs = g.reqs
  ops    : h.ops = g.ops

/-- h is the group x but for where it stands, the count of an open region, UNINIT, and the names `rel` that last-read bits release (R47). -/
structure Group.Kept (x h : Group) (rel : List Nat) : Prop where
  names  : ∀ n, n ∉ rel → h.vreg n = x.vreg n
  k      : h.k = x.k
  m      : h.m = x.m
  m0     : h.m0 = x.m0
  mode   : h.mode = x.mode
  gens   : h.gens = x.gens
  paths  : h.paths = x.paths
  inreg  : h.inreg = x.inreg
  system : x.SameSystem h
  counts : (h.nextReq, h.epoch, h.nextOp, h.batch, h.lastBatch, h.matOps, h.batchOut) = (x.nextReq, x.epoch, x.nextOp, x.batch, x.lastBatch, x.matOps, x.batchOut)
  pending : (h.pendTiles, h.pendFaults, h.promote, h.arrival, h.sent, h.assist) = (x.pendTiles, x.pendFaults, x.promote, x.arrival, x.sent, x.assist)
  launch : (h.ccc, h.regs, h.floor, h.record, h.hint, h.left, h.stopping, h.accSave, h.saveAt, h.lastPage, h.took, h.watch, h.spillAt, h.frecAt, h.seen, h.notBefore)
    = (x.ccc, x.regs, x.floor, x.record, x.hint, x.left, x.stopping, x.accSave, x.saveAt, x.lastPage, x.took, x.watch, x.spillAt, x.frecAt, x.seen, x.notBefore)

/-- A word has completed and control is at `pc`: the issuing group has become x, and all else is as in s. -/
structure WordDone (s t : State) (w : Word) (ex : Extra) (x : Group) (pc : W64) (space : Nat) : Prop where
  units : s.SameUnits t
  past  : x.Past w t.g pc space
  kept  : x.Kept t.g (w.releases ex)

/-- What a vector word leaves alone: every name but those it writes and those its last-read bits release (R47), every control and mask register, m0, and MODE but for its sticky flags (R83). -/
structure Group.VectorFrame (g h : Group) (w : Word) : Prop where
  names  : ∀ n, n ∉ w.writes.v → n ∉ w.releases {} → h.vreg n = g.vreg n
  k      : h.k = g.k
  m      : h.m = g.m
  m0     : h.m0 = g.m0
  mode   : h.mode ||| 0xF800 = g.mode ||| 0xF800
  system : g.SameSystem h

/-- A vector word with one result that no lane leaves to the assist routine has completed: the result stands with the word's latency, flags and draws have taken effect (R83, R85), and all else is as before. -/
structure VectorDone (s t : State) (w : Word) (r : VecRes) : Prop where
  units  : s.SameUnits t
  past   : s.g.Past w t.g (w.next s.g.pc) (w.stall + 1)
  stands : ({ r with lat := w.lat } : VecRes).Stands s.g t.g
  frame  : s.g.VectorFrame t.g w
  mode   : t.g.mode = s.g.mode ||| (outFlags r.outs &&& 0xF800)
  gens   : t.g.gens = outGens s.g.gens r.outs

/-! ### Tables: the result of every vector word that has one -/

/-- The result of each integer vector instruction (R120 to R126, R143). -/
def integerResult (i : Instr) (w : Word) (s : State) : Option (Group → Mask → VecRes) :=
  match i with
  | .vadd _ | .vaddImm8 _ | .vaddImm32 _ _ => some (intResult .add w)
  | .vsub _ | .vsubImm8 _ | .vsubImm32 _ _ => some (intResult .sub w)
  | .vaddsat _ | .vaddsatImm8 _ | .vaddsatImm32 _ _ => some (intResult .addsat w)
  | .vsubsat _ | .vsubsatImm8 _ | .vsubsatImm32 _ _ => some (intResult .subsat w)
  | .vmul _ | .vmulImm8 _ | .vmulImm32 _ _ => some (intResult .mul w)
  | .vmulh _ | .vmulhImm8 _ | .vmulhImm32 _ _ => some (intResult .mulh w)
  | .vmad _ | .vmadImm8 _ | .vmadImm32 _ _ => some (intResult .mad w)
  | .vabsdiff _ => some (intResult .absdiff w)
  | .vmin _ | .vminImm8 _ | .vminImm32 _ _ => some (intResult .min w)
  | .vmax _ | .vmaxImm8 _ | .vmaxImm32 _ _ => some (intResult .max w)
  | .vabs _ => some (intResult .abs w)
  | .vand _ | .vandImm8 _ | .vandImm32 _ _ => some (intResult .and w)
  | .vor _ | .vorImm8 _ | .vorImm32 _ _ => some (intResult .or w)
  | .vxor _ | .vxorImm8 _ | .vxorImm32 _ _ => some (intResult .xor w)
  | .vandn _ | .vandnImm8 _ | .vandnImm32 _ _ => some (intResult .andn w)
  | .vshl _ | .vshlImm8 _ => some (intResult .shl w)
  | .vshr _ | .vshrImm8 _ => some (intResult .shr w)
  | .vsra _ | .vsraImm8 _ => some (intResult .sra w)
  | .vrot _ | .vrotImm8 _ => some (intResult .rot w)
  | .vpopc _ => some (intResult .popc w)
  | .vclz _ => some (intResult .clz w)
  | .vctz _ => some (intResult .ctz w)
  | .vbrev _ => some (intResult .brev w)
  | .vbext _ | .vbextImm32 _ _ => some (fieldResult false w)
  | .vbins _ | .vbinsImm32 _ _ => some (fieldResult true w)
  | .vdot4 _ | .vdot2 _ => some (dotResult w)
  | .vsel _ | .vselImm8 _ | .vselImm32 _ _ => some (selectResult w)
  | .vwid _ => some (widResult (s.header s.g) w)
  | _ => none

/-- The result of each floating-point vector instruction and conversion (R128 to R135). -/
def floatResult (i : Instr) (w : Word) : Option (Group → Mask → VecRes) :=
  match i with
  | .vfabs _ => some (absResult w)
  | .vfclass _ => some (classResult w)
  | .vfadd _ | .vfaddImm32 _ _ => some (fpResult .add w)
  | .vfsub _ | .vfsubImm32 _ _ => some (fpResult .sub w)
  | .vfmul _ | .vfmulImm32 _ _ => some (fpResult .mul w)
  | .vfma _ | .vfmaImm32 _ _ => some (fpResult .fma w)
  | .vfdiv _ => some (fpResult .div w)
  | .vfsqrt _ => some (fpResult .sqrt w)
  | .vfmin _ | .vfminImm32 _ _ => some (minMaxResult false w)
  | .vfmax _ | .vfmaxImm32 _ _ => some (minMaxResult true w)
  | .vfrcp _ => some (transResult .rcp w)
  | .vfrsq _ => some (transResult .rsq w)
  | .vfexp2 _ => some (transResult .exp2 w)
  | .vflog2 _ => some (transResult .log2 w)
  | .vfsin _ => some (transResult .sin w)
  | .vfcos _ => some (transResult .cos w)
  | .vftanh _ => some (transResult .tanh w)
  | .vcvt _ => some (cvtResult w)
  | .vpack _ => some (packResult w)
  | .vunpack _ => some (unpackResult w)
  | _ => none

/-- The result of each move, permute, scan and reduction (R136 to R139). -/
def moveResult (i : Instr) (w : Word) : Option (Group → Mask → VecRes) :=
  match i with
  | .vmov _ | .vmovImm8 _ | .vmovImm32 _ _ => some (movResult w)
  | .vmovk _ => some (movkResult w)
  | .vperm _ => some (permResult w permLane)
  | .vpermImm8 _ => some (permResult w xorLane)
  | .vlrot _ | .vlrotImm8 _ => some (permResult w rotLane)
  | .vshfl _ => some (permResult w shflLane)
  | .vshflImm8 _ => some (permResult w shflImmLane)
  | .vscan _ => some (chainResult false w)
  | .vred _ => some (chainResult true w)
  | _ => none

/-! ### Words of the control thread -/

/-- What a read of a control register gives at issue distance d (R56). -/
def Group.kAt (g : Group) (d n : Nat) : W64 := ({ g with dist := d } : Group).readK n

/-- What a read of a mask register gives at issue distance d. -/
def Group.mAt (g : Group) (d n : Nat) : Mask := ({ g with dist := d } : Group).readM n

/-- Names and checks of a word beyond its fields. -/
def extraOf (i : Instr) (s : State) : Extra :=
  match i with
  | .eret _ => { illegal := s.g.ccc }
  | .ksys f => { priv := 0x008 < (f.a ++ f.b).toNat, ok := sysListed (f.a ++ f.b).toNat }
  | .kwsys f => { denied := sysReadOnly (f.d ++ f.b).toNat, ok := sysListed (f.d ++ f.b).toNat }
  | _ => {}

/-- What a word of the control thread leaves alone besides the control registers, masks and MODE. -/
structure ThreadFrame (s t : State) (w : Word) (ex : Extra) : Prop where
  units  : s.SameUnits t
  past   : s.g.Past w t.g (w.next s.g.pc) (w.stall + 1)
  system : s.g.SameSystem t.g
  names  : ∀ n, n ∉ w.releases ex → t.g.vreg n = s.g.vreg n
  m0     : t.g.m0 = s.g.m0

/-- A word that writes one control register has completed: D reads the value once its latency has passed, k0 discards it (R98), every other control register and all else is as before. -/
structure ControlDone (s t : State) (w : Word) (ex : Extra) (x : W64) : Prop where
  frame  : ThreadFrame s t w ex
  result : w.f.d.toNat ≠ 0 → ∀ d, s.g.dist + w.lat ≤ d → t.g.kAt d w.f.d.toNat = x
  zero   : w.f.d.toNat = 0 → t.g.k = s.g.k
  others : ∀ n, n ≠ w.f.d.toNat → tget ({} : KReg) t.g.k n = tget {} s.g.k n
  m      : t.g.m = s.g.m
  mode   : t.g.mode = s.g.mode
  gens   : t.g.gens = s.g.gens

/-- A word that writes one mask register has completed. -/
structure MaskDone (s t : State) (w : Word) (x : Mask) : Prop where
  frame  : ThreadFrame s t w {}
  result : w.f.d.toNat ≠ 0 → ∀ d, s.g.dist + w.lat ≤ d → t.g.mAt d w.f.d.toNat = x
  others : ∀ n, n ≠ w.f.d.toNat → tget ({} : MReg) t.g.m n = tget {} s.g.m n
  k      : t.g.k = s.g.k
  gens   : t.g.gens = s.g.gens

/-- The value each word writes to its control register D (Table 8-3, R154 to R158, R166); none where the word is held for flags still to come (R158). -/
def controlValue (i : Instr) (w : Word) (s : State) : Option W64 :=
  let a := s.g.readK w.f.a.toNat
  let b := w.kOperand s.g .signed
  let u := w.kOperand s.g .logic
  let c := w.kOperand s.g .shift
  match i with
  | .kadd _ | .kaddImm8 _ | .kaddImm32 _ _ => some (a + b)
  | .ksub _ | .ksubImm8 _ | .ksubImm32 _ _ => some (a - b)
  | .kmul _ | .kmulImm8 _ | .kmulImm32 _ _ => some (a * b)
  | .kand _ | .kandImm8 _ | .kandImm32 _ _ => some (a &&& u)
  | .kor _ | .korImm8 _ | .korImm32 _ _ => some (a ||| u)
  | .kxor _ | .kxorImm8 _ | .kxorImm32 _ _ => some (a ^^^ u)
  | .kshl _ | .kshlImm8 _ | .kshlImm32 _ _ => some (if 64 ≤ c.toNat then 0 else a <<< c.toNat)
  | .kshr _ | .kshrImm8 _ | .kshrImm32 _ _ => some (if 64 ≤ c.toNat then 0 else a >>> c.toNat)
  | .ksra _ | .ksraImm8 _ | .ksraImm32 _ _ => some (a.sshiftRight (min c.toNat 63))
  | .kmin _ | .kminImm8 _ | .kminImm32 _ _ => some (if w.f.xf = 6 then (if a.slt b then a else b) else if a.ult b then a else b)
  | .kmax _ | .kmaxImm8 _ | .kmaxImm32 _ _ => some (if w.f.xf = 6 then (if a.slt b then b else a) else if a.ult b then b else a)
  | .kmov _ | .kmovImm8 _ | .kmovWide _ _ => some b
  | .kcmp _ | .kcmpImm8 _ | .kcmpImm32 _ _ => some (if condWord w.f.xf.toNat a b then 1 else 0)
  | .mget _ => some ((s.g.readM w.f.a.toNat).zeroExtend 64)
  | .mpopc _ => some (BitVec.ofNat 64 (popcount (s.g.readM w.f.a.toNat)))
  | .mfirst _ => some (BitVec.ofNat 64 (lowest (s.g.readM w.f.a.toNat)))
  | .kget _ =>
    if w.f.bfirst && s.g.m0 == 0 then some 0
    else
      let x := (s.g.readOp w.f.a.toNat (w.pair .vec)).getD (if w.f.bfirst then lowest s.g.m0 else w.f.blane.toNat) 0
      some (if w.f.xf = 0 then (BitVec.ofNat 32 x).signExtend 64 else BitVec.ofNat 64 x)
  | .ktime _ => some s.time
  | .kmode _ => if s.g.flagsOut then none else some s.g.mode
  | .ksys _ => some ((s.sysReg (w.f.a ++ w.f.b).toNat).getD 0)
  | _ => none

/-- The value each word writes to its mask register D (R154). -/
def maskValue (i : Instr) (w : Word) (g : Group) : Option Mask :=
  let a := g.readM w.f.a.toNat
  let b := g.readM w.f.b.toNat
  match i with
  | .mand _ => some (a &&& b)
  | .mor _ => some (a ||| b)
  | .mxor _ => some (a ^^^ b)
  | .mandn _ => some (a &&& ~~~b)
  | .mnot _ => some (~~~a)
  | .mmov _ => some a
  | .mset _ => some ((g.readK w.f.a.toNat).truncate 32)
  | _ => none

/-- A branch, jump or call: whether it is taken, its target (R149, R150), and the control register that receives the return address. -/
def branchOf (i : Instr) (w : Word) (g : Group) : Option (Bool × W64 × Option Nat) :=
  let a := g.readK w.f.a.toNat
  let rel := fun (n : W64) => pcBits (g.pc + 8 * n)
  match i with
  | .bra f => some (true, rel ((f.d ++ f.a ++ f.b).signExtend 64), none)
  | .call f => some (true, rel ((f.d ++ f.a ++ f.b).signExtend 64), some 31)
  | .ret _ => some (true, g.readK 31, none)
  | .jmp _ => some (true, a, none)
  | .jcall f => some (true, a, some f.d.toNat)
  | .bcc f => some (condWord f.xf.toNat a (g.readK f.b.toNat), rel (f.d.signExtend 64), none)
  | .bccLong f imm => some (condWord f.xf.toNat a (g.readK f.b.toNat), rel (imm.signExtend 64), none)
  | .bany f => some (g.readM f.a.toNat &&& g.m0 != 0, rel ((f.d ++ f.b).signExtend 64), none)
  | .ball f => some (g.readM f.a.toNat &&& g.m0 == g.m0, rel ((f.d ++ f.b).signExtend 64), none)
  | _ => none

/-- The bits of MODE that a `kwmode` writes, and whether it seeds the generators anew (Table 8-6, R85). -/
def modeBits (i : Instr) : Option (W64 × Bool) :=
  match i with
  | .kwmode _ => some (0xFFFFFFFFFFFFFFF8, true)
  | .kwmodeFlags _ => some (0x000000000000F800, false)
  | .kwmodeCtl _ => some (0x00000000FFFF07F8, false)
  | _ => none

/-! ### Memory accesses -/

/-- The access a load or store makes: its kind, the bytes of an element, the address of each lane (lane 0 for the control thread), and the request for what has translated. -/
structure Access where
  kind    : AccessKind
  control : Bool
  size    : Nat
  at_     : List (Nat × Nat)
  req     : Reach → Req

/-- The access of each load and store (R238 to R244), as its word finds the group. -/
def accessOf (i : Instr) (w : Word) (g : Group) : Option Access :=
  let size := codeBytes w.f.rnd.toNat
  let lanes := w.addresses g (g.active w.f.pred.toNat)
  let zero : Nat → Nat := fun _ => 0
  match i with
  | .vld _ | .vldOffset _ _ => some ⟨.read, false, size, lanes, fun q => w.request .load (if w.f.d = 255 then .none else .vec w.f.d.toNat (w.f.rnd.toNat == 6)) (q.elems size zero zero)⟩
  | .vst _ | .vstOffset _ _ => some ⟨.write, false, size, lanes, fun q => w.request .store .none (q.elems size (fun l => (w.operandD g).getD l 0) zero)⟩
  | .kld _ | .kldOffset _ _ => some ⟨.read, true, size, [(0, w.kAddress g)], fun q => w.request .load (if w.f.d = 0 then .none else .ctl w.f.d.toNat) (q.elems size zero zero)⟩
  | .kst _ | .kstOffset _ _ => some ⟨.write, true, size, [(0, w.kAddress g)], fun q => w.request .store .none (q.elems size (fun _ => (g.readK w.f.d.toNat).toNat) zero)⟩
  | _ => none

/-- What the translation of an access answers, and the state it leaves (R186, R244). -/
def Access.reach (a : Access) (s : State) : Reach × State := if a.control then s.reachK a.kind ((a.at_.map Prod.snd).getD 0 0) else s.reach a.kind a.at_

/-- The group in which a region load reads: what its address is made of is concrete, and the lanes that a vector load writes carry no tag (R268, R269). -/
def Access.loader (a : Access) (w : Word) (g : Group) : Group :=
  let act := g.active w.f.pred.toNat
  if a.control then g.concreteKs w else ((g.concreteKs w).concreteLanes (vecNames w.f.b.toNat false) (lanesOf act)).untagV w.writes.v act

/-- What a region load of the lanes that translated reads in the region r: the value of each lane, the region after it, and the machine; none where the read or word set would pass its limit (R266). -/
def Access.reads (a : Access) (w : Word) (ok : List (Nat × Loc × Nat)) (r : Region) (s : State) : Option (List (Nat × Nat) × Region × State) :=
  let d := w.f.d.toNat
  let r := r.touchPages a.at_
  if a.control then regionLoads 64 w.f.rnd.toNat a.size (fun _ => .ctl d) ok (r.untagK d) s
  else if w.f.rnd.toNat == 6 then regionLoads 64 w.f.rnd.toNat a.size (fun l => .pair d l) ok r s
  else regionLoads 32 w.f.rnd.toNat a.size (fun l => .lane d l) ok r s

/-- What a region store of the lanes that translated leaves of the region r, or the cause of its abort (R271). -/
def Access.stores (a : Access) (w : Word) (g : Group) (ok : List (Nat × Loc × Nat)) (r : Region) : Except Nat Region :=
  let x := if a.control then r.controlData w (g.readK w.f.d.toNat).toNat ok else r.vectorData w (w.operandD g) (g.active w.f.pred.toNat) ok
  regionStores a.size x.2 (x.1.touchPages a.at_)

/-- The operator, operand set and destination of each atomic. -/
def atomicOf (i : Instr) : Option (Nat × SetLit × Bool) :=
  match i with
  | .vatom _ l => some (l.p1.toNat, l, true)
  | .vatomn _ l => some (l.p1.toNat, l, false)
  | .vcas _ l => some (7, l, true)
  | _ => none

/-- The memories that hold bytes of their own, on and off the chip. -/
def Space.isMemory : Space → Bool
  | .hbm | .host | .peer _ | .spad _ => true
  | .acc _ _ | .regs _ _ => false

/-- The location lies in a memory, and where this is local HBM, within it (R183). -/
def Loc.inMemory (l : Loc) (n : Nat) : Bool := l.space.isMemory && (l.space != .hbm || l.addr + n ≤ Config.hbmBytes)

/-- Every byte of every memory but the n from l is as before. -/
def State.SameBut (s t : State) (l : Loc) (n : Nat) : Prop :=
  ∀ x : Loc, x.space.isMemory = true → ¬(x.space = l.space ∧ l.addr ≤ x.addr ∧ x.addr < l.addr + n) → t.peek x 1 = s.peek x 1

/-- A request of a group and an element of it that may be performed now (R217, R203, R382): it is placed, nothing that comes before it is outstanding, and its line request finds a token where it needs one. -/
structure State.Performable (s : State) (uid rid i : Nat) (h : Group) (r : Req) (e : Elem) : Prop where
  group : s.group? uid = some h
  req   : (h.reqs.find? fun q => q.id == rid) = some r
  elem  : r.elems[i]? = some e
  todo  : e.done = false
  there : e.placed = true
  may   : h.canPerform r e = true
  free  : s.windowHeld e.loc = false
  token : (s.lineToken h r e).isSome = true
  place : e.loc.inMemory e.size = true
  plain : ∀ c, e.loc.space = .spad c → s.mem.hqs = []

/-- The request of a group with this number. -/
def State.req? (s : State) (uid rid : Nat) : Option Req := (s.group? uid).bind fun h => h.reqs.find? fun q => q.id == rid

/-- Room in an open region for the constraint of one more compare (R270). -/
def Group.roomForConstraint (g : Group) : Bool :=
  match g.region with
  | some r => r.cons.length < 64
  | none => true

/-- The pending path to which the check at the end of a taken transfer to t goes (R21, R151): the oldest that has reached MODE.AGE, where t does not lie above the word and no region is open. -/
def Group.switchAt (g : Group) (t : W64) : Option Nat :=
  if g.pc.toNat < t.toNat || g.inreg then none else oldestPend (agePaths g.paths) fun e => decide ((g.mode.extractLsb' 16 16).toNat ≤ e.age.toNat)

/-- No pending path is due at the end of a transfer to t. -/
def Group.staysOn (g : Group) (t : W64) : Bool := (g.switchAt t).isNone

/-- The group after an ageing switch (R21): pending path i runs, and the path it leaves, whose next word is at t, pends in its entry. -/
def Group.switched (g : Group) (i : Nat) (t : W64) : Group :=
  let ps := agePaths g.paths
  { g with m0 := (ps.getD i {}).mask, paths := ps.set i { ps.getD i {} with pc := t, mask := g.m0, age := 0 } }

/-- Where the pending path i goes on. -/
def Group.pathPc (g : Group) (i : Nat) : W64 := ((agePaths g.paths).getD i {}).pc

/-! ### Compares, and results that the assist routine completes -/

/-- What each lane of a vector compare finds, and the flags it sets (R125, R130). -/
def compareOf (i : Instr) (w : Word) (g : Group) : Option (Nat → Bool × W64) :=
  let act := g.active w.f.pred.toNat
  let t := w.type
  let a := w.source g act 1 t
  let b := w.operandB g act t
  match i with
  | .vcmp _ | .vcmpImm8 _ | .vcmpImm32 _ _ => some fun l => (condInt w.f.rnd.toNat (intOf t (a.getD l 0)) (intOf t (b.getD l 0)), 0)
  | .vfcmp _ | .vfcmpImm32 _ _ => some fun l => fpCompare w.f.rnd.toNat t g.mode (a.getD l 0) (b.getD l 0)
  | _ => none

/-- Room in an open region for the constraints of 32 lanes (R270). -/
def Group.roomForLanes (g : Group) : Bool :=
  match g.region with
  | some r => r.cons.length + 32 ≤ 64
  | none => true

/-- The flags that the active lanes of a compare set together. -/
def laneFlags (act : Mask) (p : Nat → Bool × W64) : W64 := (lanesOf act).foldl (fun acc l => acc ||| (p l).2) 0

/-- A vector word has completed through the assist routine: the result stands in D, and control is past the word. -/
structure AssistDone (s t : State) (w : Word) (r : VecRes) : Prop where
  units  : s.SameUnits t
  pc     : t.g.pc = pcBits (w.next s.g.pc)
  dist   : t.g.dist = s.g.dist + (w.stall + 1)
  st     : t.g.st = if s.g.sup then .handler else .ready
  stands : ({ r with lat := w.lat } : VecRes).Stands s.g t.g
  frame  : s.g.VectorFrame t.g w
  mode   : t.g.mode = s.g.mode ||| (outFlags r.outs &&& 0xF800)
  gens   : t.g.gens = outGens s.g.gens r.outs

/-! ### Waits that an agent ends -/

/-- A group that waited in its word has gone past it: x but for where it stands and the names that last-read bits release. -/
structure Group.Resumed (x : Group) (r : Resume) (h : Group) : Prop where
  pc     : h.pc = pcBits r.next
  dist   : h.dist = x.dist + r.space
  st     : h.st = if x.sup then .handler else .ready
  wait   : h.wait = .none
  resume : h.resume = none
  kept   : ({ x with assist := none, took := [] } : Group).Kept h r.rel

/-- Everything but the group with this number is as before, save progress marks and the state of groups to which freed registers go. -/
structure State.OnlyGroup (s t : State) (uid : Nat) : Prop where
  sched : t.sched = s.sched
  mem   : t.mem = s.mem
  work  : t.work = s.work
  units : t.units = s.units
  plat  : t.plat = s.plat
  parts : t.tabs.parts = s.tabs.parts
  graphs : t.tabs.graphs = s.tabs.graphs
  replicas : t.tabs.replicas = s.tabs.replicas
  ctxs  : ∀ p c, { t.ctx p c with progress := true } = { s.ctx p c with progress := true }
  others : ∀ u, u ≠ uid → ((t.group? u).map fun h => { h with st := .free }) = (s.group? u).map fun h => { h with st := .free }

/-- The group x of s, with this number, has gone past its word; all else is as before. -/
structure State.Resumes (s t : State) (uid : Nat) (x : Group) (r : Resume) : Prop where
  here : ∃ h, t.group? uid = some h ∧ x.Resumed r h
  rest : s.OnlyGroup t uid

/-- The group with this number waits in its word for an agent, and is on its core. -/
structure State.Waits (s : State) (uid : Nat) (h : Group) (r : Resume) : Prop where
  group  : s.group? uid = some h
  resume : h.resume = some r
  replay : h.replay = none
  parked : h.st ≠ .parked
  saved  : h.st ≠ .preempted
  sound  : s.mem.bad = none

/-- No byte of any memory has changed. -/
def State.SameMemory (s t : State) : Prop := ∀ l : Loc, l.space.isMemory = true → t.peek l 1 = s.peek l 1

/-- The lines of a range of virtual addresses that stand in local HBM on pages whose level-4 entry satisfies `page` (R254, R255). -/
def State.rangeLines (s : State) (lo n : Nat) (page : Nat → Bool) : List Nat :=
  ((s.localPages s.g.part s.g.ctx lo (lo + n)).filter fun e => page e.2).flatMap fun e => pageLines e lo (lo + n)

/-- A retired group: it holds no registers, tiles, paths or region, and its tiles read zero. -/
def State.RetiredGroup (t : State) (h : Group) : Prop :=
  ∃ x, t.group? h.uid = some x ∧ x.st = .retired ∧ x.v = [] ∧ x.floor = 0 ∧ x.tiles = [] ∧ x.region = none ∧ x.paths = List.replicate 8 {} ∧
    ∀ n ∈ h.tiles, ∀ a, 0x4000 * n ≤ a → a < 0x4000 * n + 0x4000 → mget (tget [] t.mem.acc h.quad) a = 0

/-! ### Fault entry -/

/-- Fault entry with this record can be completed (R302, R303): the group is no handler, the record's quarters and the vector's entry can be reached, and no other group waits on this one. `u` is the state in which the record is stored. -/
structure State.Entry (s : State) (r : FaultRec) (ls : List Loc) (entry : W64) (u : State) : Prop where
  user   : s.g.sup = false
  core   : s.g.ccc = false
  reach  : ∃ v, s.recordPlaces [0, 1, 2, 3] [] = (some ls, v) ∧ v.vector r.code = (some entry, u)
  places : ∀ l ∈ ls, l.inMemory 64 = true
  apart  : ls.Pairwise fun a b => a.space ≠ b.space ∨ a.addr + 64 ≤ b.addr ∨ b.addr + 64 ≤ a.addr
  plain  : u.mem.hqs = [] ∨ ∀ l ∈ ls, ∀ c, l.space ≠ .spad c
  alone  : (u.allGroups.all fun h => (brokenBy u.g h).isNone) = true
  sound  : u.mem.bad = none

/-- The group x has entered its handler at `entry` with its registers as they were. -/
structure Group.InHandler (x h : Group) (r : FaultRec) (entry : W64) : Prop where
  st    : h.st = .handler
  sup   : h.sup = true
  pc    : h.pc = entry
  wait  : h.wait = .none
  m0    : h.m0 = if r.replay = 0 then x.m0 else r.replay
  mode  : h.mode = x.mode
  v     : h.v = x.v
  k     : h.k = x.k
  m     : h.m = x.m
  gens  : h.gens = x.gens
  paths : h.paths = x.paths
  frec  : h.frec = x.frec
  gang  : h.gang = x.gang
  pair  : h.pair = x.pair
  reqs  : h.reqs = x.reqs
  ops   : h.ops = x.ops

/-- The record stands where it was to be stored (Table 15-2). -/
def State.Recorded (t u : State) (r : FaultRec) (ls : List Loc) : Prop :=
  ∀ q, q < 4 → t.peek (ls.getD q ⟨.hbm, 0⟩) 64 = ((recordBytes u.g r (u.part u.g.part).time).drop (64 * q)).take 64

/-- The group as a fault finds it, with the issue distance of its word (R56); registers taken for the word have gone back (R110). -/
def Group.faulting (g : Group) (space last : Nat) (w0 : W64) (w1 : Option W64) : Group :=
  { g.untake with dist := g.dist + space, lastSpace := last, word0 := w0, word1 := w1, gage := 0, sent := none, arrival := none, resume := none, assist := none, refused := [] }

/-! ### Engine operations -/

/-- The operation that each engine word issues, and the machine after its tables are read; none where a check fails (R259 to R261, R289). -/
def engineOf (i : Instr) (w : Word) (s : State) : Option (EngineOp × State) :=
  let kd := (s.g.readK w.f.d.toNat).toNat
  let ka := (s.g.readK w.f.a.toNat).toNat
  let kb := s.g.readK w.f.b.toNat
  let tables := fun (l : SetLit) =>
    let t1 := s.tensorOpt s.g l.t1.toNat
    let t2 := t1.2.tensorOpt s.g l.t2.toNat
    let br := t2.2.barrierOf l
    match t1.1, t2.1, br.1 with
    | some d, some c, some bar => some (d, c, bar, br.2)
    | _, _, _ => none
  let base : EngineOp := { seq := 0, cls := 0, scope := w.scope, after := 0, dst := kd, src := 0, count := 0, unit := 16, word0 := w.w0, word1 := w.w1.getD 0 }
  match i with
  | .xcopy _ l =>
    let n := kb.toNat
    if kd % 16 = 0 && ka % 16 = 0 && n % 16 = 0 && n < 2 ^ 40 && !rangesMeet ka kd n n then
      (tables l).map fun x => ({ base with src := ka, count := n, dstT := x.1, srcT := x.2.1, bar := x.2.2.1, ended := n == 0 }, x.2.2.2)
    else none
  | .xgath _ l =>
    let as := w.addresses s.g (s.g.active w.f.pred.toNat)
    let size := 16 * 2 ^ l.p1.toNat
    if (as.all fun x => x.2 % 16 == 0 && !rangesMeet x.2 kd size (32 * size)) && (as.isEmpty || kd % 16 == 0) then
      (tables l).map fun x => ({ base with cls := 2, count := size * as.length, rows := as.map (fun x => (size * x.1, x.2)), unit := size, dstT := x.1, srcT := x.2.1, bar := x.2.2.1, ended := as.isEmpty }, x.2.2.2)
    else none
  | .xcoll _ l =>
    let n := (kb.extractLsb' 0 32).toNat
    let v := (kb.extractLsb' 32 16).toNat
    let lse := l.p1 == 3
    let unit := if lse then 4 * (v + 2) else 4
    let coll := l.t1.toNat
    let reads := l.p1 != 4 || (s.collPort coll).any fun m => m.1 == l.t2.toNat
    let inst := tget 0 s.units.collSeq coll + 1
    if kd % 4 = 0 && (!reads || (ka % 4 == 0 && !rangesMeet ka kd (unit * n) (unit * n))) && kb.extractLsb' 48 16 == 0 && (if lse then v != 0 && v ≤ 4096 else v == 0) && (s.collPort coll).isSome then
      let br := s.barrierOf l
      br.1.map fun bar =>
        ({ base with cls := 3, src := ka, count := unit * n, unit := unit, coll := coll, op := l.p1.toNat, ty := l.p2.toNat, v := v, root := l.t2.toNat, inst := inst, bar := bar },
          { br.2 with units := { br.2.units with collSeq := tput br.2.units.collSeq coll inst } })
    else none
  | .xcast _ l | .xcastT _ l =>
    let t1 := s.tensor s.g l.t1.toNat
    let t2 := t1.2.tensor s.g l.t2.toNat
    let br := t2.2.barrierOf l
    match t1.1, t2.1, br.1 with
    | some d, some c, some bar =>
      if d.planar && !c.planar && c.fmt ≤ 18 && (t2.2.castTile s.g d kd).isSome then
        some ({ base with cls := 1, dst := d.base + Config.castTileBytes * kd, src := ka, count := Config.castTileBytes, unit := Config.castTileBytes, dstT := some d, srcT := some c, tile := kd
                          transp := (match i with
                            | .xcastT _ _ => true
                            | _ => false), bar := bar }, br.2)
      else none
    | _, _, _ => none
  | _ => none

/-! ### Regions -/

/-- Do two tags lie on one control register or on one lane of a vector register? -/
def TagKey.meets (a b : TagKey) : Bool :=
  match a, b with
  | .ctl n, .ctl m => n == m
  | .lane n l, .lane m k => n == m && l == k
  | .lane n l, .pair m k => (n == m || n == m + 1) && l == k
  | .pair n l, .lane m k => (m == n || m == n + 1) && l == k
  | .pair n l, .pair m k => (n == m || n == m + 1 || n + 1 == m) && l == k
  | _, _ => false

/-- The tag is the only one on its register or lane. -/
def Region.alone (r : Region) (e : TagKey × Tag) : Prop := (r.tags.filter fun x => x.1.meets e.1) = [e]

/-- No tag lies on this register or lane. -/
def Region.bare (r : Region) (k : TagKey) : Prop := (r.tags.filter fun x => x.1.meets k) = []

/-- The group has left its region r by an abort (R277): registers, masks, MODE and generators are as at the `abeg`, no value of an exchange is still to come into them, and control is at the fallback. -/
structure Group.Aborted (x : Group) (r : Region) (cause : BitVec 4) (w : Word) (h : Group) : Prop where
  closed : h.region = none
  cause  : h.acause = cause
  pc     : h.pc = r.fallback
  v      : h.v = r.v
  k      : h.k = r.k
  m      : h.m = r.m
  mode   : h.mode = r.mode
  gens   : h.gens = r.gens
  m0     : h.m0 = x.m0
  paths  : h.paths = agePaths x.paths
  dist   : h.dist = x.dist + max 3 (w.stall + 1)
  st     : h.st = if x.sup then .handler else .ready
  reqs   : h.reqs = x.reqs.filter fun (q : Req) => q.kind != .exchange
  ops    : h.ops = x.ops

/-- No path is due when this region aborts: its fallback lies above its `abeg`, or none has reached MODE.AGE (R151, R277). -/
def Group.abortStays (g : Group) (r : Region) : Bool :=
  r.opened.toNat < r.fallback.toNat || (oldestPend (agePaths g.paths) fun e => decide ((r.mode.extractLsb' 16 16).toNat ≤ e.age.toNat)).isNone

/-! ### The matrix unit -/

/-- The operation that each one-group matrix word gives to the unit, and the machine after its tables are read; none where a check fails (R293 to R295). -/
def matrixOf (i : Instr) (w : Word) (s : State) : Option (MatOp × State) :=
  let org := s.g.readK w.f.a.toNat
  match i with
  | .mzero f => some ({ kind := 1, core := s.g.core, slices := [s.g.slice f.d.toNat w.w0 0] }, s)
  | .mload f l =>
    let t := s.tensor s.g l.t1.toNat
    match t.1 with
    | some x =>
      if !x.planar && x.fmt == 8 && x.rank == 2 then some ({ kind := 2, core := s.g.core, slices := [s.g.slice f.d.toNat w.w0 (w.w1.getD 0)], origin := org, tel := some x }, t.2) else none
    | none => none
  | .mpour f l =>
    let ty := f.xf.toNat
    let mx := 13 ≤ ty
    let t1 := s.tensor s.g l.t1.toNat
    let t2 := t1.2.tensorOpt s.g l.t2.toNat
    match t1.1, t2.1 with
    | some tel, some tsc =>
      let scaleOk := match tsc with
        | some x => decide mx && !x.planar && x.fmt == 19 && x.rank == 2
        | none => !decide mx
      if !tel.planar && tel.fmt == ty && tel.rank == 2 && scaleOk && (!decide mx || (if l.p1 = 1 then org.toNat % 2 ^ 32 else org.toNat / 2 ^ 32) % 32 == 0) then
        let sl := { (s.g.slice f.d.toNat w.w0 (w.w1.getD 0)) with rm := roundingMode f.rnd.toNat s.g.mode }
        some ({ kind := 3, core := s.g.core, slices := [sl], origin := org, tel := some tel, tsc := tsc, axis := l.p1.toNat, clr := l.p2 == 1, ty := ty }, t2.2)
      else none
    | _, _ => none
  | _ => none

/-- The machine in which an `mma` arrives, its tables read and its operands checked (R291); none where a check fails. -/
def mmaArrives (f : FForm) (l : SetLit) (w : Word) (s : State) : Option State :=
  let t1 := s.tensor s.g l.t1.toNat
  let t2 := t1.2.tensor s.g l.t2.toNat
  match t1.1, t2.1 with
  | some ta, some tb =>
    let ka := s.g.readK f.a.toNat
    let pa := if l.p1 = 0 then ta.planes else l.p1.toNat
    let pb := if l.p2 = 0 then tb.planes else l.p2.toNat
    match t2.2.ownTile ta ka, t2.2.ownTile tb (s.g.readK f.b.toNat) with
    | some a, some b =>
      if ta.planar && tb.planar && 1 ≤ pa && pa ≤ 15 && 1 ≤ pb && pb ≤ 15 then
        let arr : Arrival := { ta := l.t1.toNat, ka := ka, pa := pa, pb := pb, rnd := f.rnd.toNat, a := a, b := b, z := f.d.toNat, word0 := w.w0, word1 := w.w1.getD 0 }
        some { t2.2 with g := { t2.2.g with arrival := some arr } }
      else none
    | _, _ => none
  | _, _ => none

/-- The oldest operation of a quadrant's unit has one slice, of a group that still holds it, and may complete (R227, R203). -/
structure State.UnitReady (s : State) (quad : Nat) (o : MatOp) (rest : List MatOp) (sl : Slice) (h : Group) : Prop where
  first : (s.quad quad).mat = o :: rest
  one   : o.slices = [sl]
  group : s.group? sl.uid = some h
  quad  : h.quad = quad
  holds : (h.matOps.any fun x => x.1 == sl.seq) = true
  done  : h.earlierDone sl.after = true
  unver : o.kind = 3 → h.unver = false
  sound : s.mem.bad = none

/-- The operation has left the unit and its group, and its tile holds these elements; other tiles are as before. -/
structure State.TileHolds (s t : State) (quad : Nat) (rest : List MatOp) (sl : Slice) (h : Group) (xs : List Nat) : Prop where
  unit  : (t.quad quad).mat = rest
  tile  : t.accTile h.quad (h.tileOf sl.z) = xs.map fun x => x % 2 ^ 32
  other : ∀ a, ¬(0x4000 * h.tileOf sl.z ≤ a ∧ a < 0x4000 * h.tileOf sl.z + 0x4000) → mget (tget [] t.mem.acc h.quad) a = mget (tget [] s.mem.acc h.quad) a
  quads : ∀ q, q ≠ h.quad → tget [] t.mem.acc q = tget [] s.mem.acc q
  ended : ∀ x, t.group? sl.uid = some x → x.matOps = h.matOps.filter fun e => e.1 != sl.seq

/-! ### Queues -/

/-- What each form of `qlen` answers of a queue (R344). -/
def lengthOf (i : Instr) (s : State) (gr : Graph) (e : QueueEnt) (q : Queue) : Option W64 :=
  match i with
  | .qlenVb _ => some (BitVec.ofNat 64 (s.view s.g.core gr.gidx e.qid).1.toNat)
  | .qlenVf _ => some (BitVec.ofNat 64 (s.view s.g.core gr.gidx e.qid).2.toNat)
  | .qlenB _ => some (if e.kind = 1 || e.kind = 2 then q.w - q.r else BitVec.ofNat 64 (q.backlog e))
  | .qlenF _ => some (BitVec.ofNat 64 (q.free e))
  | .qlenH _ => some (BitVec.ofNat 64 q.held)
  | .qlenR _ => some (BitVec.ofNat 64 q.resv)
  | _ => none

/-- Only control registers `ns` of the group differ. -/
def Group.SameK (g h : Group) (ns : List Nat) : Prop := ∀ n, n ∉ ns → tget ({} : KReg) h.k n = tget {} g.k n

/-- The descriptor of the handle queue that a word's handle names, and the machine after the table is read. -/
def State.hqOf (s : State) (h : W64) : Option (Nat × Nat × State) :=
  let r := s.handleOf s.g h 2
  r.1.map fun e => ((r.2.hqPlace e.1).1, (r.2.hqPlace e.1).2, r.2)

/-! ### Words that end in a state of their own -/

/-- The word completes in the state u, whose issuing group then stands past it. -/
def State.Completes (s u : State) (i : Instr) (w : Word) (ex : Extra := {}) : Prop :=
  u.mem.bad = none → u.g.replay = none → ∃ t, exec i s = .next t ∧ WordDone u t w ex u.g (w.next s.g.pc) (w.stall + 1)

/-- The word completes in the state u and control register d reads x; d = 0 discards it (R98). -/
def State.Answers (s u : State) (i : Instr) (w : Word) (d : Nat) (x : W64) (ex : Extra := {}) : Prop :=
  u.mem.bad = none → u.g.replay = none →
    ∃ t, exec i s = .next t ∧ WordDone u t w ex { u.g with k := t.g.k } (w.next s.g.pc) (w.stall + 1) ∧ u.g.SameK t.g [d] ∧ (d ≠ 0 → ∀ n, u.g.dist ≤ n → t.g.kAt n d = x)

/-- The word waits at its own address, in this state of its slot and for this. -/
def State.WaitsAt (s : State) (i : Instr) (st : SlotState) (wait : Wait) : Prop := ∃ t, exec i s = .next t ∧ t.g.st = st ∧ t.g.wait = wait ∧ t.g.pc = s.g.pc

/-- The step answers the state u, where no access in it has met an address that does not exist (log 7). -/
def State.Steps (s u : State) (i : Instr) : Prop := u.mem.bad = none → exec i s = .next u

/-! ### Objects of the handle table -/

/-- The entry that a handle of this kind names for the issuing group (R364), and the machine after the table is read. -/
def State.objectOf (s : State) (h : W64) (kind : Nat) : Option (Nat × State) :=
  let r := s.handleOf s.g h kind
  r.1.map fun e => (e.1, r.2)

/-- A barrier after `bar.expect` or `bar.expect.n`, before its test; none where the operand is out of range. -/
def barrierExpects (i : Instr) (g : Group) (b : Bar) : Option Bar :=
  match i with
  | .barExpect f => if balFits (b.bal + (g.readK f.b.toNat).toInt) then some { b with bal := b.bal + (g.readK f.b.toNat).toInt } else none
  | .barExpectN f => if 1 ≤ (g.readK f.b.toNat).toNat && (g.readK f.b.toNat).toNat ≤ 512 then some { b with need := (g.readK f.b.toNat).toNat } else none
  | _ => none

/-- A barrier after `bar.arrive` or `bar.arrive.x`, before its test; none where a count leaves its range. -/
def barrierArrives (i : Instr) (g : Group) (b : Bar) : Option Bar :=
  match i with
  | .barArrive _ => if balFits b.bal && b.arrived < 512 then some { b with arrived := b.arrived + 1 } else none
  | .barArriveX f => if balFits (b.bal + (g.readK f.b.toNat).toInt) && b.arrived < 512 then some { b with bal := b.bal + (g.readK f.b.toNat).toInt, arrived := b.arrived + 1 } else none
  | _ => none

/-- The test of R390: a complete phase ends. -/
def Bar.tested (b : Bar) : Bar := if b.need ≤ b.arrived && b.bal == 0 then { b with phase := (b.phase + 1) % 2 ^ 32, arrived := 0 } else b

/-- Every field lies in its bits (Table 19-3). -/
def Bar.inRange (b : Bar) : Prop := b.phase < 2 ^ 32 ∧ b.arrived < 1024 ∧ b.need < 1024 ∧ balFits b.bal = true

/-- The join of an instruction: none named by 0. -/
def State.joinOf (s : State) (j : W64) : Option (Nat × State) := if j = 0 then some (0, s) else s.objectOf j 3

/-- A catalogue entry after `tpatch` (`add`: `tpatch.add`) of field p by the value v, and the field's value before; none where the field cannot hold it or the entry would break a limit (Table 18-4). -/
def patchOf (add : Bool) (p : Nat) (bs : List Byte) (v : W64) : Option (List Byte × Int) :=
  let fd := patchField p
  let old := patternInt fd.2.2.2 fd.2.2.1 (natAt bs fd.1 fd.2.1 % 2 ^ fd.2.2.1)
  let new : Int := if add then old + v.toInt else if fd.2.2.2 then v.toInt else v.toNat
  let fits := if fd.2.2.2 then -(2 ^ (fd.2.2.1 - 1)) ≤ new && new < 2 ^ (fd.2.2.1 - 1) else 0 ≤ new && new < 2 ^ fd.2.2.1
  let out := patchBytes bs fd.1 fd.2.1 (intPattern fd.2.2.1 new)
  if fits && tensorOk out then some (out, old) else none

/-! ### What a step outside the words of a group changes -/

/-- Only the entry of this context differs. -/
structure State.OnlyCtx (s t : State) (p c : Nat) : Prop where
  rest   : { t with tabs := { t.tabs with ctxs := s.tabs.ctxs } } = s
  others : ∀ p' c', ctxKey p' c' ≠ ctxKey p c → t.ctx p' c' = s.ctx p' c'

/-- Only the entry of this partition differs. -/
structure State.OnlyPart (s t : State) (p : Nat) : Prop where
  rest   : { t with tabs := { t.tabs with parts := s.tabs.parts } } = s
  others : ∀ p', p' ≠ p → t.part p' = s.part p'

/-- Only this cluster differs. -/
structure State.OnlyCluster (s t : State) (c : Nat) : Prop where
  rest   : { t with plat := { t.plat with clusters := s.plat.clusters } } = s
  others : ∀ c', c' ≠ c → t.cluster c' = s.cluster c'

/-- Only this quadrant differs. -/
structure State.OnlyQuad (s t : State) (q : Nat) : Prop where
  rest   : { t with units := { t.units with quads := s.units.quads } } = s
  others : ∀ q', q' ≠ q → t.quad q' = s.quad q'

/-- Only this port differs. -/
structure State.OnlyPort (s t : State) (p : Nat) : Prop where
  rest   : { t with plat := { t.plat with ports := s.plat.ports } } = s
  others : ∀ p', p' ≠ p → t.port p' = s.port p'

/-- Only this queue differs. -/
structure State.OnlyQueue (s t : State) (gidx qid : Nat) : Prop where
  rest   : { t with work := { t.work with queues := s.work.queues } } = s
  others : ∀ g q, ¬(g = gidx ∧ q = qid) → t.queue? g q = s.queue? g q

/-- Only the platform's own state differs. -/
def State.OnlyPlat (s t : State) : Prop := { t with plat := s.plat } = s

/-- The request of a management operation (R402). -/
def mgmtOf (i : Instr) : Option MgmtReq :=
  match i with
  | .ringReset q _ _ _ | .liveMigration q _ _ | .rekey q _ _ _ | .l2WayMaskChange q _ _ _ | .ownerNextWrite q _ | .createPartition q _ _ | .destroyPartition q _
  | .setIssueWeight q _ _ _ | .setTokens q _ _ _ | .setLend q _ _ | .setQuota q _ _ _ | .setWdog q _ _ _ | .setDefaultMode q _ _ _ | .setOperatingCap q _ _
  | .setHotnessThresholds q _ _ | .setReplicaPolicy q _ _ _ _ | .configureCollective q _ _ | .firmwareUpdate q _ | .createContext q _ _ _ | .destroyContext q _ _ => some q
  | _ => none

/-- The change that a setting of a context's entry makes, and whether its value is admitted (R404). -/
def settingOf (i : Instr) (c : Context) : Option (Nat × Nat × Bool × Context) :=
  match i with
  | .setIssueWeight _ p x w => some (p, x, w != 0, { c with iweightSet := some w })
  | .setTokens _ p x t => some (p, x, t.extractLsb' 0 16 == 0 || t.extractLsb' 16 16 != 0, { c with tokensSet := some (t &&& 0x00000000FFFFFFFF) })
  | .setQuota _ p x n => some (p, x, true, { c with quotaSet := some (n &&& 0x000000FFFFFFFFFF) })
  | .setWdog _ p x n => some (p, x, true, { c with wdogSet := some n })
  | .setDefaultMode _ p x m => some (p, x, true, { c with modeSet := some (m &&& 0xFFFFFFFFFFFFFFF8) })
  | _ => none

/-- A jump through a register: its target, the register that receives the return address, and its opcode (R150). -/
def jumpOf (i : Instr) (g : Group) : Option (W64 × Option Nat × Nat) :=
  match i with
  | .jmp f => some (g.readK f.a.toNat, none, 0x3C3)
  | .jcall f => some (g.readK f.a.toNat, some f.d.toNat, 0x3C4)
  | .ret _ => some (g.readK 31, none, 0x3C2)
  | _ => none

/-- A word of the families whose results the tables above list. -/
def tabled (i : Instr) (w : Word) (s : State) : Bool :=
  (integerResult i w s).isSome || (floatResult i w).isSome || (moveResult i w).isSome || (controlValue i w s).isSome || (maskValue i w s.g).isSome

/-- What each SPDM request but GET_VERSION is recorded as, its reply, and whether a signature follows (R410, log 18). -/
def spdmOf (i : Instr) (s : State) : Option (Nat × List Byte × Bool) :=
  match i with
  | .getCapabilities => some (2, [1, 2, 3, 4, 5, 6, 7, 8], false)
  | .negotiateAlgorithms => some (3, [65, 48], false)
  | .getDigests => some (4, sha3_384 Config.certificate, false)
  | .getCertificate slot offset len => some (5, BitVec.ofNat 8 slot :: (Config.certificate.drop offset).take len, false)
  | .challenge slot nonce => some (6, BitVec.ofNat 8 slot :: leBytes 32 nonce.toNat, true)
  | .getMeasurements index vf nonce =>
    if 1 ≤ index && index ≤ 7 then some (7, leBytes 32 nonce.toNat ++ (if index = 7 then [tdispByte (tget TdispState.configUnlocked s.plat.tdisp vf)] else tget [] s.plat.measures index), true) else none
  | .keyExchange _ exchange => some (8, exchange, true)
  | _ => none

end Sys2Proof.Machine
end

