-- ==== Sys2Proof/Certificates/Slice0/Obligations.lean ====
section
/-! DEFINITION. The statements for the provers. -/

open Sys2Proof Sys2Proof.Machine

/-- Every integer vector word that executes completes: the result Tables 7-3 and 7-4, R122 to R126 and R143 give for its active lanes stands in D, and all else is as before. -/
def Obligations.IntegerVectorWords : Prop :=
  ∀ (i : Instr) (w : Word) (s : State) (body : Group → Mask → VecRes), wordOf i = some w → integerResult i w s = some body → i.wellFormed = true → s.executes w {} = true →
    ∃ t, exec i s = .next t ∧ VectorDone s t w (body s.g (s.g.active w.f.pred.toNat))

/-- Every floating-point vector word and conversion that executes completes where no lane has a subnormal result that R94 leaves to the assist routine. -/
def Obligations.FloatVectorWords : Prop :=
  ∀ (i : Instr) (w : Word) (s : State) (body : Group → Mask → VecRes), wordOf i = some w → floatResult i w = some body → i.wellFormed = true → s.executes w {} = true →
    (body s.g (s.g.active w.f.pred.toNat)).plain = true →
    ∃ t, exec i s = .next t ∧ VectorDone s t w (body s.g (s.g.active w.f.pred.toNat))

/-- Every move, permute, scan and reduction that executes completes, under the same condition for scans and reductions of floating-point sums. -/
def Obligations.MoveVectorWords : Prop :=
  ∀ (i : Instr) (w : Word) (s : State) (body : Group → Mask → VecRes), wordOf i = some w → moveResult i w = some body → i.wellFormed = true → s.executes w {} = true →
    (body s.g (s.g.active w.f.pred.toNat)).plain = true →
    ∃ t, exec i s = .next t ∧ VectorDone s t w (body s.g (s.g.active w.f.pred.toNat))

/-- Every word of the control thread that writes one control register completes with the value its entry gives. -/
def Obligations.ControlWords : Prop :=
  ∀ (i : Instr) (w : Word) (s : State) (x : W64), wordOf i = some w → controlValue i w s = some x → s.executes w (extraOf i s) = true → s.g.roomForConstraint = true →
    ∃ t, exec i s = .next t ∧ ControlDone s t w (extraOf i s) x

/-- Every mask instruction of R154 completes with the value its entry gives. -/
def Obligations.MaskWords : Prop :=
  ∀ (i : Instr) (w : Word) (s : State) (x : Mask), wordOf i = some w → maskValue i w s.g = some x → s.executes w {} = true →
    ∃ t, exec i s = .next t ∧ MaskDone s t w x

/-- A branch, jump or call that is taken to a target with clear reserved bits goes there, and one that is not taken goes on; a call leaves PC + 8 in its register. Where the transfer does not go up and a pending path has reached MODE.AGE, outside a region, the oldest such path runs instead, and the path of the transfer pends at its target. -/
def Obligations.Branches : Prop :=
  ∀ (i : Instr) (w : Word) (s : State) (taken : Bool) (target : W64) (link : Option Nat), wordOf i = some w → branchOf i w s.g = some (taken, target, link) → s.executes w {} = true →
    s.g.roomForConstraint = true → pcBits target = target →
    let links := fun (t : State) => (∀ n, link ≠ some n → tget ({} : KReg) t.g.k n = tget {} s.g.k n) ∧ ∀ n, link = some n → n ≠ 0 → ∀ d, s.g.dist + 2 ≤ d → t.g.kAt d n = s.g.pc + 8
    ((taken = true → s.g.staysOn target = true) →
      ∃ t, exec i s = .next t ∧ s.SameUnits t ∧ s.g.SameSystem t.g ∧
        s.g.Past w t.g (if taken then target else w.next s.g.pc) (if taken then max 3 (w.stall + 1) else w.stall + 1) ∧
        (∀ n, t.g.vreg n = s.g.vreg n) ∧ t.g.m = s.g.m ∧ t.g.m0 = s.g.m0 ∧ t.g.mode = s.g.mode ∧ t.g.gens = s.g.gens ∧ t.g.paths = agePaths s.g.paths ∧ links t) ∧
    (taken = true → ∀ p, s.g.switchAt target = some p →
      ∃ t, exec i s = .next t ∧ WordDone s t w {} { s.g.switched p target with k := t.g.k } (s.g.pathPc p) (max 3 (w.stall + 1)) ∧ links t)

/-- `kwmode` in each form writes its bits of MODE and leaves the others; the plain form seeds the generators. `kgang` and `kpair` answer their status and set GANG or PAIR where it is 0. `kwsys` writes each system register that software may write, in its address field; GSTAT.UNINIT is cleared by a one. FREC holds its new value at once, which takes effect at the next fault entry (log 72); TVEC and SPILLBASE are the registers of the context, and its table keeps the defaults (log 28). -/
def Obligations.SystemWords : Prop :=
  (∀ (i : Instr) (w : Word) (s : State) (bits : W64) (reseed : Bool), wordOf i = some w → modeBits i = some (bits, reseed) → s.executes w {} = true → s.g.flagsOut = false →
     let mode := (s.g.mode &&& ~~~bits) ||| (s.g.readK w.f.a.toNat &&& bits)
     ∃ t, exec i s = .next t ∧
       WordDone s t w {} { s.g.aged with mode := mode, gens := if reseed then seedGens (mode.extractLsb' 32 32) else s.g.gens } (w.next s.g.pc) (w.stall + 1)) ∧
  ((∀ (f : FForm) (w : Word) (s : State), wordOf (.kgang f) = some w → s.executes w {} = true →
     let x := s.g.readK f.a.toNat
     let st := kgangStatus s x
     ∃ t, exec (.kgang f) s = .next t ∧ ControlDone { s with g := { s.g with gang := if st = 0 then x &&& 0x00FFFFFFFFFFFF07 else s.g.gang } } t w {} (BitVec.ofNat 64 st)) ∧
   ∀ (f : FForm) (w : Word) (s : State), wordOf (.kpair f) = some w → s.executes w {} = true →
     let x := s.g.readK f.a.toNat
     let st := kpairStatus s x
     ∃ t, exec (.kpair f) s = .next t ∧
       ControlDone { s with g := { s.g with pair := if st = 0 then (if x.getLsbD 15 then x &&& 0xFFFF else 0) else s.g.pair } } t w {} (BitVec.ofNat 64 st)) ∧
  ∀ (f : FForm) (w : Word) (s : State), wordOf (.kwsys f) = some w → s.executes w (extraOf (.kwsys f) s) = true →
    let n := (f.d ++ f.b).toNat
    let x := s.g.readK f.a.toNat
    let c := s.ctx s.g.part s.g.ctx
    (n = 0x002 → ∃ t, exec (.kwsys f) s = .next t ∧ WordDone s t w (extraOf (.kwsys f) s) s.g.aged (w.next s.g.pc) (w.stall + 1) ∧ t.g.uninit = (s.g.uninit && !x.getLsbD 1)) ∧
    (n = 0x007 → ∃ t, exec (.kwsys f) s = .next t ∧ WordDone s t w (extraOf (.kwsys f) s) { s.g.aged with frec := x &&& 0x00FFFFFFFFFFFFC0 } (w.next s.g.pc) (w.stall + 1)) ∧
    (n = 0x104 → ∃ t, exec (.kwsys f) s = .next t ∧
      WordDone (s.setCtx s.g.part s.g.ctx { c with spill := x &&& 0x00FFFFFFFFFF8000 }) t w (extraOf (.kwsys f) s) s.g.aged (w.next s.g.pc) (w.stall + 1)) ∧
    (n = 0x107 → ∃ t, exec (.kwsys f) s = .next t ∧
      WordDone (s.setCtx s.g.part s.g.ctx { c with tvec := x &&& 0x00FFFFFFFFFFF000 }) t w (extraOf (.kwsys f) s) s.g.aged (w.next s.g.pc) (w.stall + 1))

/-- `pfork` sets the lanes outside the mask aside, raising PATH_OVERFLOW where no entry is free, goes to their target where no lane is inside, with the ageing check there, and does nothing where none is outside. `pjoin` arrives and goes on with the oldest pending path of its tag, its own AGE being 0 (the model's reading, log 36); with none pending, every arrived path of the tag merges into m0, and later loads meet nothing older than the earlier ones have returned. `pyield` changes places with the oldest pending path that has reached MODE.AGE, outside a region; else it only goes on. -/
def Obligations.PathWords : Prop :=
  (∀ (f : FForm) (imm : BitVec 32) (w : Word) (s : State), wordOf (.pfork f imm) = some w → s.executes w {} = true →
     let inside := s.g.m0 &&& s.g.readM f.a.toNat
     let outside := s.g.m0 &&& ~~~s.g.readM f.a.toNat
     let target := pcBits (s.g.pc + 8 * (imm.extractLsb' 0 16).signExtend 64)
     (outside = 0 → ∃ t, exec (.pfork f imm) s = .next t ∧ WordDone s t w {} s.g.aged (w.next s.g.pc) (w.stall + 1)) ∧
     (outside ≠ 0 → inside = 0 → s.g.staysOn target = true →
       ∃ t, exec (.pfork f imm) s = .next t ∧ WordDone s t w {} s.g.aged target (max 3 (w.stall + 1))) ∧
     (outside ≠ 0 → inside = 0 → ∀ p, s.g.switchAt target = some p →
       ∃ t, exec (.pfork f imm) s = .next t ∧ WordDone s t w {} (s.g.switched p target) (s.g.pathPc p) (max 3 (w.stall + 1))) ∧
     (outside ≠ 0 → inside ≠ 0 → freePath s.g.paths = none → exec (.pfork f imm) s = answer (s.trap w 0x12 0 0)) ∧
     (outside ≠ 0 → inside ≠ 0 → ∀ i, freePath s.g.paths = some i →
       ∃ t, exec (.pfork f imm) s = .next t ∧
         WordDone s t w {} { s.g with m0 := inside, paths := (agePaths s.g.paths).set i { valid := true, arrived := false, pc := target, mask := outside, tag := imm.extractLsb' 16 16, age := 0 } }
           (w.next s.g.pc) (w.stall + 1))) ∧
  (∀ (f : FForm) (w : Word) (s : State), wordOf (.pjoin f) = some w → s.executes w {} = true →
     let tag : W16 := f.d ++ f.b
     let ps := agePaths s.g.paths
     (∀ i, oldestPend ps (fun e => e.tag == tag) = some i →
       ∃ t, exec (.pjoin f) s = .next t ∧
         WordDone s t w {} { s.g with m0 := (ps.getD i {}).mask, paths := ps.set i { valid := true, arrived := true, pc := w.next s.g.pc, mask := s.g.m0, tag := tag, age := 0 } }
           (pcBits (ps.getD i {}).pc) (max 3 (w.stall + 1))) ∧
     (oldestPend ps (fun e => e.tag == tag) = none →
       ∃ t, exec (.pjoin f) s = .next t ∧
         WordDone s t w {}
           { s.g with m0 := t.g.m0, paths := ps.map (fun e => if e.valid && e.arrived && e.tag == tag then {} else e), epoch := t.g.epoch, notBefore := t.g.notBefore } (w.next s.g.pc) (w.stall + 1) ∧
         (∀ l, l < 32 → t.g.m0.getLsbD l = (s.g.m0.getLsbD l || ps.any fun e => e.valid && e.arrived && e.tag == tag && e.mask.getLsbD l)) ∧
         (if ps.any fun e => e.valid && e.arrived && e.tag == tag then t.g.epoch = s.g.epoch + 1 ∧ t.g.notBefore = max s.g.notBefore s.g.seen
          else t.g.epoch = s.g.epoch ∧ t.g.notBefore = s.g.notBefore))) ∧
  ∀ (f : FForm) (w : Word) (s : State), wordOf (.pyield f) = some w → s.executes w {} = true →
    let due := oldestPend (agePaths s.g.paths) fun e => decide ((s.g.mode.extractLsb' 16 16).toNat ≤ e.age.toNat)
    ((s.g.inreg = true ∨ due = none) → ∃ t, exec (.pyield f) s = .next t ∧ WordDone s t w {} s.g.aged (w.next s.g.pc) (w.stall + 1)) ∧
    (s.g.inreg = false → ∀ i, due = some i →
      ∃ t, exec (.pyield f) s = .next t ∧
        WordDone s t w {} (s.g.switched i (w.next s.g.pc)) (s.g.pathPc i) (max 3 (w.stall + 1)))

/-- A load or store, aligned and with no translation that waits. Outside a region, with every lane translated to memory off the on-chip map, it adds its request and goes on; a load that nothing holds carries the versions its fill leaves with (R178). Where lanes fail, those that translated make their request and the group waits for it, the fault of the lanes that failed to follow; where none translated the word faults at once. Nothing beyond what its translation did has changed. In a region a load puts each value in its register and each element in the read set, and a store adds its entries to the buffer; neither makes a request or changes a byte of memory. A lane whose target is not HBM aborts, as do a tagged address of a store and a limit that is passed. Region loads are performed at issue (log 10), the causes of an abort come in the order of log 31, and the fault of lanes that failed waits for the others (log 11). -/
def Obligations.AccessesIssue : Prop :=
  ∀ (i : Instr) (w : Word) (s : State) (a : Access), wordOf i = some w → accessOf i w (s.begun w {}).g = some a → s.executes w {} = true → misaligned a.size a.at_ = none →
    let q := a.reach (s.begun w {})
    let failed := fun (b : Nat × Nat × Nat) => (maskOf fun l => q.1.bad.any fun x => x.1 == l, BitVec.ofNat 64 b.2.1)
    let r : Req := { a.req q.1 with id := q.2.g.nextReq, gen := q.2.g.gen, epoch := q.2.g.epoch }
    let leaves := a.kind == .read && !w.acq && r.elems.all fun e => q.2.g.canPerform r e
    let reqs := q.2.g.reqs ++ [{ r with stamp := if leaves then some (q.2.vers q.2.g.who) else none }]
    q.1.stop = none → q.2.mem.bad = none →
    (s.g.inreg = false → q.1.ok ≠ [] → (q.1.ok.all fun o => o.2.2 != 3) = true → q.2.g.packets < 16 ∨ a.kind = .write ∧ q.2.g.unver = false →
      (q.1.bad = [] → ∃ t, exec i s = .next t ∧ WordDone q.2 t w {} { q.2.g with reqs := reqs, nextReq := q.2.g.nextReq + 1 } (w.next s.g.pc) (w.stall + 1)) ∧
      (∀ b bs, q.1.bad = b :: bs → ∃ t, exec i s = .next t ∧ q.2.SameUnits t ∧ t.g.reqs = reqs ∧ t.g.pc = s.g.pc ∧ t.g.st = .waitStall ∧
        t.g.wait = .faultAfter q.2.g.nextReq b.2.2 (failed b).1 (failed b).2)) ∧
    (s.g.inreg = false → q.1.ok = [] → ∀ b bs, q.1.bad = b :: bs →
      exec i s = answer (State.trap { q.2 with g := { q.2.g.giveBack s.g (w.allWrites {}).v with paths := s.g.paths } } w b.2.2 (failed b).1 (failed b).2)) ∧
    ∀ r0, s.g.region = some r0 → q.1.bad = [] →
      let aborts := fun (cause : BitVec 4) => s.g.abortStays r0 = true → ∃ t, exec i s = .next t ∧ s.g.Aborted r0 cause w t.g ∧ q.2.SameMemory t
      (a.kind = .write → (s.begun w {}).g.storeTagged w a.control (if a.control then 0 else (s.begun w {}).g.active w.f.pred.toNat) = true → s.g.abortStays r0 = true →
        ∃ t, exec i s = .next t ∧ s.g.Aborted r0 4 w t.g ∧ t.mem = s.mem) ∧
      ((a.kind = .write → (s.begun w {}).g.storeTagged w a.control (if a.control then 0 else (s.begun w {}).g.active w.f.pred.toNat) = false) →
        ((q.1.ok.any fun o => o.2.2 != 0) = true → aborts 12) ∧
        ((q.1.ok.all fun o => o.2.2 == 0) = true → ∀ x, q.2.g.region = some x →
          (a.kind = .write → match a.stores w (s.begun w {}).g q.1.ok x with
            | .ok y => ∃ t, exec i s = .next t ∧ WordDone q.2 t w {} q.2.g (w.next s.g.pc) (w.stall + 1) ∧
                t.g.region.map (fun z => (z.stores, z.words, z.pages)) = some (y.stores, y.words, y.pages) ∧ (w.releases {} = [] → t.g.region = some y)
            | .error c => aborts (BitVec.ofNat 4 c)) ∧
          (a.kind = .read → ((s.begun w {}).g.region.bind fun z => (s.begun w {}).regionHold w z a.size q.1.ok) = none → ∀ z, (a.loader w q.2.g).region = some z →
            match a.reads w q.1.ok z { q.2 with g := a.loader w q.2.g } with
            | none => aborts 5
            | some (vals, y, c) => c.mem.bad = none →
                ∃ t, exec i s = .next t ∧ c.SameUnits t ∧ q.2.SameMemory t ∧ s.g.Past w t.g (w.next s.g.pc) (w.stall + 1) ∧ t.g.reqs = s.g.reqs ∧ t.g.mode = s.g.mode ∧ t.g.m = s.g.m ∧ t.g.m0 = s.g.m0 ∧
                  t.g.region.map (fun z => (z.stores, z.words, z.pages)) = some (y.stores, y.words, y.pages) ∧ (w.releases {} = [] → t.g.region.map Region.reads = some y.reads) ∧
                  (w.releases {} = [] → w.f.d ≠ 255 → (a.control = true → w.f.d ≠ 0) → t.g.region = some y) ∧
                  (∀ n, n ∉ w.writes.v → n ∉ w.releases {} → t.g.vreg n = s.g.vreg n) ∧
                  (∀ n, (a.control = true → n ≠ w.f.d.toNat) → tget ({} : KReg) t.g.k n = tget {} s.g.k n) ∧
                  (a.control = true → w.f.d ≠ 0 → ∀ d, s.g.dist ≤ d → ∀ v ∈ vals, t.g.kAt d w.f.d.toNat = BitVec.ofNat 64 v.2) ∧
                  (a.control = false → w.f.d ≠ 255 → w.f.rnd ≠ 6 → w.f.d.toNat ∉ w.releases {} → ∀ d, s.g.dist ≤ d → ∀ v ∈ vals, laneAt (t.g.readAt d w.f.d.toNat) v.1 = BitVec.ofNat 32 v.2))))

/-- An element of a store that may be performed is performed: its bytes stand at its location, least significant first, and no other byte of any memory changes. A run of an atomic at its home, its tile having passed its check, leaves the last value of its steps in lane order, and no other byte of any memory changes. -/
def Obligations.AccessesArePerformed : Prop :=
  (∀ (uid rid i : Nat) (s : State) (h : Group) (r : Req) (e : Elem), s.Performable uid rid i h r e → r.kind = .store → s.mem.bad = none →
     ∃ t, exec (.storePerformed uid rid i) s = .next t ∧ t.peek e.loc e.size = leBytes e.size e.x ∧ s.SameBut t e.loc e.size) ∧
  ∀ (uid rid i : Nat) (s : State) (h : Group) (r : Req) (e : Elem), s.Performable uid rid i h r e → r.kind = .atomic → s.mem.bad = none → (s.loadVerified h.who e.loc e.size).2.alarmed = false →
    let run := atomRun r.code ((elemOf r.ty).getD .n32) r.rm h.mode (leNat (s.peek e.loc e.size)) (r.elems.filter fun f => f.loc == e.loc && !f.done)
    ∃ t, exec (.atomicRunAtHome uid rid i) s = .next t ∧ t.peek e.loc e.size = leBytes e.size run.1 ∧ s.SameBut t e.loc e.size

/-- The answer of a line gives the one element of a request that lies in it the bytes a load at its scope may return, and no byte of any memory changes. A load that no line of the core's L1 may serve reads the home's bytes; one that a line may serve reads that line's, and a line that a load brings in is the home's, stamped as its fill left (R178). -/
def Obligations.LoadsReadTheView : Prop :=
  (∀ (uid rid : Nat) (s : State) (h : Group) (r : Req) (e : Elem), s.Performable uid rid 0 h r e → r.elems = [e] → r.kind = .load → r.acq = false → e.loc.space = .hbm → s.mem.bad = none →
     let v := s.loadAt h.who r.scope (r.stamp.getD (s.vers h.who)) e.loc e.size
     h.tilesFull v.2.1 = false → v.2.1 = none ∨ h.unver = true ∨ h.reqs.length + (if h.sent.isSome then 1 else 0) ≤ 16 →
     ∃ t r', exec (.l2FillReturn uid rid (e.loc.addr / 128)) s = .next t ∧ t.req? uid rid = some r' ∧ r'.elems = [{ e with done := true, val := leNat v.1 }] ∧
       ∀ x : Loc, x.space.isMemory = true → t.peek x 1 = s.peek x 1) ∧
  ∀ (s : State) (who : Who) (scope : Nat) (stamp : Vers) (l : Loc) (n : Nat), l.inMemory n = true →
    (l.space ≠ .hbm ∨ s.l1Hit who scope (l.addr / 128) = none → (s.loadAt who scope stamp l n).1 = s.peek l n) ∧
    (l.space = .hbm → ∀ c, s.l1Hit who scope (l.addr / 128) = some c → (s.loadAt who scope stamp l n).1 = (c.bytes.drop (l.addr % 128)).take n) ∧
    (l.space = .hbm → s.l1Hit who scope (l.addr / 128) = none → ∀ c ∈ (s.loadAt who scope stamp l n).2.2.mem.l1, c.mine who = true → c.line = l.addr / 128 →
      c.stamp = stamp ∧ c.bytes = mbytes s.mem.hbm (128 * c.line) 128)

/-- The return of a load whose elements have all been performed writes its destination at once and ends the request; other registers are as before. -/
def Obligations.LoadsLand : Prop :=
  ∀ (uid rid : Nat) (s : State) (r : Req), s.g.uid = uid → s.g.st ≠ .free → s.req? uid rid = some r → r.kind = .load → s.g.st ≠ .preempted → (∀ e ∈ r.elems, e.done = true) → s.mem.bad = none →
    ∃ t, exec (.loadReturn uid rid r.gen.toNat) s = .next t ∧ t.req? uid rid = none ∧ t.mem = s.mem ∧
      (∀ n, r.dest = .ctl n → n ≠ 0 → ∀ e, r.elems = [e] → ∀ d, s.g.dist ≤ d → t.g.kAt d n = BitVec.ofNat 64 (extendCode r.code 64 e.val)) ∧
      (∀ n pair, r.dest = .vec n pair → t.g.k = s.g.k ∧ ∀ x, x ≠ n → x ≠ n + 1 → t.g.vreg x = s.g.vreg x) ∧
      (∀ n, r.dest = .vec n false → n ≠ 255 → (s.g.vreg n).alloc = true → ∀ e ∈ r.elems, ∀ d, e.lane < 32 → (∀ f ∈ r.elems, f.lane = e.lane → f = e) → s.g.dist ≤ d →
        laneAt (t.g.readAt d n) e.lane = BitVec.ofNat 32 (extendCode r.code 32 e.val))

/-- An atomic, aligned and with every lane translated to memory that takes it, adds its request: one element for each active lane, with its operands; only a stochastic add draws. -/
def Obligations.AtomicsIssue : Prop :=
  ∀ (i : Instr) (w : Word) (s : State) (op : Nat) (l : SetLit) (dest : Bool), wordOf i = some w → atomicOf i = some (op, l, dest) → s.executes w {} = true →
    let g := (s.begun w {}).g
    let t := (elemOf (l.t1.toNat % 32)).getD .n32
    let size := elemWidth t / 8
    let at_ := w.addresses g (g.active w.f.pred.toNat)
    let q := (s.begun w {}).reach .write at_
    let hit := q.1.atomTargets op t at_
    misaligned size at_ = none → q.1.stop = none → hit.bad = [] → hit.ok ≠ [] → q.2.g.packets < 16 → q.2.mem.bad = none →
    ∃ u r, exec i s = .next u ∧
      WordDone q.2 u w {} { q.2.g with reqs := q.2.g.reqs ++ [r], nextReq := q.2.g.nextReq + 1, gens := u.g.gens } (w.next s.g.pc) (w.stall + 1) ∧
      (r.kind, r.code, r.ty, r.scope, r.acq, r.rel) = (.atomic, op, l.t1.toNat % 32, w.scope, w.acq, w.rel) ∧
      r.dest = (if dest && w.f.d != 255 then .vec w.f.d.toNat (elemPair t) else .none) ∧
      (r.elems.map fun e => (e.lane, e.loc, e.size, e.x, e.y, e.done)) =
        hit.ok.map (fun o => (o.1, o.2.1, size, (g.readOp l.x.toNat (elemPair t)).getD o.1 0 % 2 ^ (8 * size), (if op = 7 then g.readOp l.y.toNat (elemPair t) else []).getD o.1 0 % 2 ^ (8 * size), false)) ∧
      (¬(elemIeee t = true ∧ op = 0 ∧ w.rm g = 6) → u.g.gens = q.2.g.gens)

/-- Every vector compare that executes writes its whole mask: the condition in the active lanes, 0 elsewhere; a floating-point compare adds its flags. -/
def Obligations.CompareWords : Prop :=
  ∀ (i : Instr) (w : Word) (s : State) (p : Nat → Bool × W64), wordOf i = some w → compareOf i w s.g = some p → s.executes w {} = true → s.g.roomForLanes = true →
    let act := s.g.active w.f.pred.toNat
    ∃ t, exec i s = .next t ∧ MaskDone s t w (maskOf fun l => act.getLsbD l && (p l).1) ∧ t.g.mode = s.g.mode ||| (laneFlags act p &&& 0xF800)

/-- A vector word with a subnormal result in some lane, while the assist routine is present, waits for it; its completion leaves what the word computes in every lane (R94). -/
def Obligations.AssistedWords : Prop :=
  ∀ (i : Instr) (w : Word) (s : State) (body : Group → Mask → VecRes), wordOf i = some w → floatResult i w = some body ∨ moveResult i w = some body → i.wellFormed = true → s.executes w {} = true →
    (body s.g (s.g.active w.f.pred.toNat)).plain = false → s.plat.assistOk = true → s.g.st ≠ .free →
    ∃ t u, exec i s = .next t ∧ t.g.st = .waitStall ∧ t.g.wait = .assist ∧ t.g.pc = s.g.pc ∧
      exec (.assistComplete s.g.uid) t = .next u ∧ AssistDone s u w (body s.g (s.g.active w.f.pred.toNat))

/-- `vshrink` releases the names from its operand up and lowers the allotment and the floor. -/
def Obligations.AllotmentShrinks : Prop :=
  ∀ (f : FForm) (w : Word) (s : State), wordOf (.vshrink f) = some w → s.executes w {} = true → s.g.inreg = false →
    let n := f.b.toNat
    n ≠ 0 → n ≤ s.g.regs → (∀ m ∈ s.g.locked.v, n ≤ m → m = 255) →
    ∃ t, exec (.vshrink f) s = .next t ∧ WordDone s t w {} { s.g.aged with regs := n, floor := min s.g.floor n, v := t.g.v } (w.next s.g.pc) (w.stall + 1) ∧
      (∀ x, n ≤ x → x < s.g.regs → x ≠ 255 → (t.g.vreg x).alloc = false) ∧ ∀ x, x < n ∨ s.g.regs ≤ x → t.g.vreg x = s.g.vreg x

/-- The two words of a rendezvous: the first waits with its lanes, for a partner on its core or one that a pre-emption has taken from it; the second hands each group the other's lanes and both go on. -/
def Obligations.ExchangeRendezvous : Prop :=
  ∀ (f : FForm) (w : Word) (s : State) (h : Group), wordOf (.vxchg f) = some w → s.executes w {} = true → s.g.unver = false → s.g.packets < 16 →
    let b := s.begun w {}
    b.partner b.g = some h →
    let act := s.g.active f.pred.toNat
    let mine : Sent := { ty := f.xf.toNat, vals := w.source s.g act 1 w.type, d := f.d.toNat, active := act }
    let g := (b.g.concreteLanes (w.srcNames 1) (w.sentLanes act)).untagV w.writes.v act
    (h.wait ≠ .pair ∨ h.sent = none → ∃ t, exec (.vxchg f) s = .next t ∧ t.g.st = .waitPair ∧ t.g.wait = .pair ∧ t.g.sent = some mine ∧ t.g.pc = s.g.pc ∧ b.SameUnits t) ∧
    ∀ theirs, h.wait = .pair → h.sent = some theirs → theirs.ty = mine.ty → h.unver = false →
      let u := (({ b with g := g.deliver mine theirs.vals } : State).putGroup { h.deliver theirs mine.vals with sent := none }).completeWait h.uid
      ∃ t, exec (.vxchg f) s = .next t ∧ WordDone u t w {} u.g (w.next s.g.pc) (w.stall + 1)

/-- A pair word that executes completes with the results of both its halves, computed from the registers before it; the second half's draws follow the first's. -/
def Obligations.PairWords : Prop :=
  ∀ (h0 h1 : PHalf) (s : State), (Instr.pairWord h0 h1).wellFormed = true →
    let w := pairAsWord h0 h1
    let ex := pairExtra s.g h0 h1
    let r0 := halfResult h0 s.g
    let r1 := halfResult h1 { s.g with gens := match r0 with
      | some r => outGens s.g.gens r.outs
      | none => s.g.gens }
    let outs := (r0.toList ++ r1.toList).flatMap VecRes.outs
    s.executes w ex = true → (outs.all fun o => !o.tiny) = true →
    ∃ t, exec (.pairWord h0 h1) s = .next t ∧ s.SameUnits t ∧ s.g.Past w t.g (w.next s.g.pc) (w.stall + 1) ∧
      (∀ r, r0 = some r → ({ r with lat := halfLat h0 } : VecRes).Stands s.g t.g) ∧ (∀ r, r1 = some r → ({ r with lat := halfLat h1 } : VecRes).Stands s.g t.g) ∧
      (∀ n, n ∉ (w.allWrites ex).v → n ∉ w.releases ex → t.g.vreg n = s.g.vreg n) ∧ t.g.k = s.g.k ∧ t.g.m = s.g.m ∧ t.g.m0 = s.g.m0 ∧ s.g.SameSystem t.g ∧
      t.g.mode = s.g.mode ||| (outFlags outs &&& 0xF800) ∧ t.g.gens = (r0.toList ++ r1.toList).foldl (fun gs r => outGens gs r.outs) s.g.gens

/-- A fence whose conditions are met completes; with acquire it raises the version of its scope, fills in flight having landed first where that stands at 15 (R179), or at scopes G and C, which have none, bars later wider loads from anything older than the group has read. `facq.remote` aimed at a core where the partition owns nothing is a system-wide acquire; aimed at another core it waits, with its number marked in every group of the context there. A victim whose accesses are performed takes its promotion point; once every victim has, the lines of the victim core's context are gone from its L1 and the fence goes on. -/
def Obligations.FencesComplete : Prop :=
  ((∀ (f : FForm) (w : Word) (s : State), wordOf (.fence f) = some w → s.executes w {} = true → (w.acq = true → s.g.loadsReturned = true) →
     (w.rel = true → s.g.allPerformed = true ∧ s.g.unver = false) →
     let b := if w.acq then (s.begun w {}).acquire s.g w.scope s.g.seen else s.begun w {}
     b.mem.bad = none →
     ∃ t, exec (.fence f) s = .next t ∧ WordDone b t w {} b.g (w.next s.g.pc) (w.stall + 1) ∧ t.g.k = s.g.k ∧ t.g.m = s.g.m ∧ t.g.mode = s.g.mode ∧ s.SameMemory t ∧
       (w.acq = false → t.mem = s.mem) ∧ (w.acq = true → w.scope = 0 ∨ w.scope = 2 → t.mem = s.mem ∧ t.g.notBefore = max s.g.notBefore s.g.seen) ∧
       (w.acq = true → w.scope ≠ 0 → w.scope ≠ 2 → t.vers s.g.who = (s.vers s.g.who).raise w.scope)) ∧
   ∀ (f : FForm) (w : Word) (s : State), wordOf (.facqRemote f) = some w → s.executes w {} = true → s.g.loadsReturned = true → s.g.allPerformed = true → s.g.unver = false →
     let v := (s.g.readK f.a.toNat).toNat
     v ≤ 127 →
     (s.qown s.g.part v = 0 →
       let b := (s.begun w {}).raiseVersion s.g.who 5
       b.mem.bad = none → ∃ t, exec (.facqRemote f) s = .next t ∧ WordDone b t w {} b.g (w.next s.g.pc) (w.stall + 1) ∧ t.vers s.g.who = (s.vers s.g.who).raise 5 ∧ t.g.k = s.g.k ∧ s.SameMemory t) ∧
     (s.qown s.g.part v ≠ 0 → ∃ t, exec (.facqRemote f) s = .next t ∧ t.g.st = .waitStall ∧ t.g.wait = .promote v ∧ t.g.pc = s.g.pc ∧ t.g.resume = some ⟨w.next s.g.pc, w.stall + 1, w.releases {}⟩ ∧
       t.mem = s.mem ∧ ∀ x ∈ t.groups, x.resident = true → x.core = v → x.part = s.g.part → x.ctx = s.g.ctx → x.uid ≠ s.g.uid → (s.g.uid, false) ∈ x.promote)) ∧
  (∀ (victim issuer : Nat) (s : State) (h : Group), s.group? victim = some h → h.inreg = false → h.allPerformed = true → s.mem.bad = none →
    ∃ t, exec (.promotionPoint victim issuer) s = .next t ∧ t.group? victim = some { h with promote := h.promote.map fun p => if p.1 = issuer then (issuer, true) else p } ∧ s.OnlyGroup t victim) ∧
  ∀ (issuer v : Nat) (s : State) (h : Group) (r : Resume), s.Waits issuer h r → h.wait = .promote v →
    (∀ x ∈ s.allGroups, (issuer, false) ∈ x.promote → x.st = .preempted ∨ x.st = .retired) →
    let clear : Group → Group := fun x => { x with promote := x.promote.filter fun p => p.1 != issuer }
    let l1 := s.mem.l1.filter fun c => !(c.core == v && c.part == h.part && c.ctx == h.ctx)
    let b := ((({ s with mem := { s.mem with l1 := l1 } } : State).raiseVersion { h.who with core := v } 5).raiseVersion h.who 5).mapGroups (fun _ => true) clear
    ∀ x, b.group? issuer = some x → b.mem.bad = none → ∃ t, exec (.promotionDrain issuer) s = .next t ∧ b.Resumes t issuer x r ∧ ∀ c ∈ t.mem.l1, (c.core == v && c.part == h.part && c.ctx == h.ctx) = false

/-- A prefetch completes; it changes no byte of memory and nothing but where the group stands and what the caches hold. Only where a dirty line must leave L2 for the one fetched is a tile written back, which may announce an exhausted tile or meet one that fails its check. -/
def Obligations.PrefetchesAreSilent : Prop :=
  ∀ (i : Instr) (w : Word) (s : State), (∃ f, i = .pref f) ∨ (∃ f, i = .prefL1 f) ∨ (∃ f imm, i = .prefOffset f imm) → wordOf i = some w → s.executes w {} = true →
    ∃ t, exec i s = .next t ∧ WordDone { s with mem := t.mem, work := { s.work with msgs := t.work.msgs } } t w {} s.g.aged (w.next s.g.pc) (w.stall + 1) ∧ s.SameMemory t ∧ t.mem.tlb = s.mem.tlb ∧
      ((∀ e ∈ s.mem.l2, e.2.dirty = false) → t.mem.alarms = s.mem.alarms ∧ t.work = s.work)

/-- `cwb` writes the dirty lines of its range back: no byte has changed, and unless a tile failed its check or had no version left, no line of the range is dirty after it. `cinv` drops every copy of the lines of its range on writable pages that are no replicas: no L1 and no L2 holds one after it, and every other byte of memory is as before. -/
def Obligations.CacheRanges : Prop :=
  (∀ (f : FForm) (w : Word) (s : State), wordOf (.cwb f) = some w → s.executes w {} = true → s.g.allPerformed = true →
     let a := (s.g.readK f.a.toNat).toNat
     let n := (s.g.readK f.b.toNat).toNat
     a % 128 = 0 → n % 128 = 0 → a + n ≤ Config.vaBytes →
     ∃ t, exec (.cwb f) s = .next t ∧
       WordDone { s with mem := t.mem, work := { s.work with msgs := t.work.msgs } } t w {} s.g.aged (w.next s.g.pc) (w.stall + 1) ∧ s.SameMemory t ∧
       (t.alarmed = false → ∀ line ∈ s.rangeLines a n (fun _ => true), ∀ e ∈ t.mem.l2, e.1 = line → e.2.dirty = false)) ∧
  ∀ (f : FForm) (w : Word) (s : State), wordOf (.cinv f) = some w → s.executes w {} = true → s.g.allPerformed = true → s.g.unver = false →
    let a := (s.g.readK f.a.toNat).toNat
    let n := (s.g.readK f.b.toNat).toNat
    let lines := s.rangeLines a n fun e => e.testBit 5 && !e.testBit 10
    a % 128 = 0 → n % 128 = 0 → n ≠ 0 → a + n ≤ Config.vaBytes →
    ∃ t, exec (.cinv f) s = .next t ∧ WordDone { s with mem := t.mem, groups := t.groups } t w {} s.g.aged (w.next s.g.pc) (w.stall + 1) ∧
      (t.groups.map fun h => { h with st := .free, region := none }) = (s.groups.map fun h => { h with st := .free, region := none }) ∧
      (∀ line ∈ lines, (∀ c ∈ t.mem.l1, c.line ≠ line) ∧ thas t.mem.l2 line = false) ∧
      ∀ l : Loc, l.space.isMemory = true → ¬(l.space = .hbm ∧ l.addr / 128 ∈ lines) → t.peek l 1 = s.peek l 1

/-- `ksleep` of 0 completes; of more it waits until TIME is its deadline, and goes on once it is. `kwait` completes with the value it reads where that differs from its operand, and else waits, to be issued again once a write touches the word's line or a window ends. -/
def Obligations.SleepsAndWaits : Prop :=
  (∀ (f : FForm) (w : Word) (s : State), wordOf (.ksleep f) = some w → s.executes w {} = true →
    let n := s.g.readK f.a.toNat
    (n = 0 → ∃ t, exec (.ksleep f) s = .next t ∧ WordDone s t w {} s.g.aged (w.next s.g.pc) (w.stall + 1)) ∧
    (n ≠ 0 → ∃ t, exec (.ksleep f) s = .next t ∧ s.SameUnits t ∧ t.g.st = .waitExt ∧ t.g.wait = .sleep (BitVec.ofNat 64 (min (s.time.toNat + n.toNat) (2 ^ 64 - 1))) ∧ t.g.pc = s.g.pc ∧
      t.g.resume = some ⟨w.next s.g.pc, w.stall + 1, w.releases {}⟩)) ∧
  (∀ (uid : Nat) (s : State) (h : Group) (r : Resume) (d : W64), s.Waits uid h r → h.wait = .sleep d → d ≤ (s.part h.part).time → ∃ t, exec (.ksleepWake uid) s = .next t ∧ s.Resumes t uid h r) ∧
  (∀ (f : FForm) (w : Word) (s : State) (o : Nat × Loc × Nat), wordOf (.kwait f) = some w → s.executes w {} = true →
    let b := s.begun w {}
    let a := (s.g.readK f.a.toNat).toNat
    let q := b.reachK .read a
    let c := q.2.raiseVersion q.2.g.who w.scope
    let now := c.momentAt c.g.who w.scope o.2.1
    let l := c.loadAt c.g.who w.scope (c.vers c.g.who) o.2.1 8
    let v := if l.2.1.isSome && c.g.overPackets then ((c.loadVerified c.g.who o.2.1 8).1, none, (c.loadVerified c.g.who o.2.1 8).2) else l
    let u : State := { v.2.2 with g := { ((v.2.2.g.consume v.2.1).sees now) with notBefore := max v.2.2.g.notBefore now } }
    let x : W64 := BitVec.ofNat 64 (leNat v.1)
    a % 8 = 0 → q.1.stop = none → q.1.ok = [o] → b.windowHeld o.2.1 = false →
    b.g.canPerform { w.request .load .none [] with id := b.g.nextReq, acq := true, epoch := b.g.epoch } { lane := 0, loc := o.2.1, size := 8 } = true → c.g.tilesFull l.2.1 = false → u.mem.bad = none →
    (x ≠ s.g.readK f.b.toNat → ∃ t, exec (.kwait f) s = .next t ∧ WordDone u t w {} { u.g with k := t.g.k } (w.next s.g.pc) (w.stall + 1) ∧
      (f.d ≠ 0 → ∀ d, s.g.dist ≤ d → t.g.kAt d f.d.toNat = x) ∧ ∀ n, n ≠ f.d.toNat → tget ({} : KReg) t.g.k n = tget {} s.g.k n) ∧
    (x = s.g.readK f.b.toNat → ∃ t, exec (.kwait f) s = .next t ∧ t.g.st = .waitExt ∧ t.g.wait = .kwait (b.kwaitExternal w.scope) ∧ t.g.watch = some o.2.1 ∧ t.g.pc = s.g.pc ∧ t.g.k = s.g.k)) ∧
  (∀ (uid : Nat) (s : State) (h : Group) (e : Bool), s.group? uid = some h → h.wait = .kwait e → h.st ≠ .parked → h.st ≠ .preempted → s.mem.bad = none →
    ∃ t, exec (.kwaitWake uid) s = .next t ∧ t.group? uid = some { h with st := if h.sup then .handler else .ready, wait := .none } ∧ s.OnlyGroup t uid) ∧
  ∀ (uid : Nat) (s : State) (h : Group) (e : Bool) (l : Loc), s.group? uid = some h → h ∈ s.allGroups → h.wait = .kwait e → h.watch = some l → h.st ≠ .parked → h.st ≠ .preempted →
    (s.mem.stirred.any fun x => lineTouched l x.1 x.2) = true → s.stirWakes.group? uid = some { h with st := if h.sup then .handler else .ready, wait := .none }

/-- `trap` and `brk` enter the handler of their cause: the record of R302 is stored at FREC and nothing else, SUP is set, control is at the vector's entry, and the registers are as before. A fault in a region aborts it with cause FAULT. Fault entry from the handler, or one whose record or vector cannot be reached, leaves the group in WAIT_EXT where it was and posts a docket. -/
def Obligations.TrapsEnterTheHandler : Prop :=
  (∀ (i : Instr) (w : Word) (s : State) (code : Nat) (ls : List Loc) (entry : W64) (u : State), ((∃ f, i = .trap f) ∧ code = 0x1B) ∨ ((∃ f, i = .brk f) ∧ code = 0x1A) → wordOf i = some w →
    s.executes w {} = true → s.g.inreg = false →
    let r := w.fault s.g code 0 0
    State.Entry { s with g := s.g.faulting (max 3 (w.stall + 1)) (max 3 (w.stall + 1)) w.w0 w.w1 } r ls entry u →
    ∃ t, exec i s = .next t ∧ s.g.untake.InHandler t.g r entry ∧ t.g.frecAt = s.g.frec ∧ t.Recorded u r ls ∧
      ∀ l : Loc, l.space.isMemory = true → (∀ x ∈ ls, ¬(x.space = l.space ∧ x.addr ≤ l.addr ∧ l.addr < x.addr + 64)) → t.peek l 1 = u.peek l 1) ∧
  (∀ (s : State) (w : Word) (code : Nat) (replay : Mask) (addr : W64) (r : Region), s.g.region = some r → s.g.replay = none →
    let due := if r.fallback.toNat ≤ r.opened.toNat then oldestPend s.g.paths fun e => decide ((r.mode.extractLsb' 16 16).toNat ≤ e.age.toNat) else none
    let t := s.trap w code replay addr
    t.g.region = none ∧ t.g.acause = 9 ∧ t.g.k = r.k ∧ t.g.v = r.v ∧ t.g.m = r.m ∧ t.g.mode = r.mode ∧ t.g.gens = r.gens ∧ t.g.sup = s.g.sup ∧ t.g.frec = s.g.frec ∧ t.mem = s.mem ∧ t.g.wait = .none ∧
      (due = none → t.g.pc = r.fallback ∧ t.g.m0 = s.g.m0 ∧ t.g.paths = s.g.paths) ∧ ∀ p, due = some p → t.g.pc = (s.g.paths.getD p {}).pc ∧ t.g.m0 = (s.g.paths.getD p {}).mask) ∧
  ∀ (s v : State) (w : Word) (code : Nat) (replay : Mask) (addr : W64), s.g.inreg = false → s.g.replay = none →
    let x : State := { s with g := s.g.faulting (max 3 (w.stall + 1)) (max 3 (w.stall + 1)) w.w0 w.w1 }
    ((s.g.sup = true ∨ s.g.ccc = true) ∧ v = x ∨ s.g.sup = false ∧ s.g.ccc = false ∧ (x.recordPlaces [0, 1, 2, 3] [] = (none, v) ∨ ∃ ls c, x.recordPlaces [0, 1, 2, 3] [] = (some ls, c) ∧ c.vector code = (none, v))) →
    let t := s.trap w code replay addr
    t.g.st = .waitExt ∧ t.g.wait = .escalated ∧ t.g.pc = s.g.pc ∧ t.g.sup = s.g.sup ∧ t.g.k = s.g.k ∧ t.g.m = s.g.m ∧ t.g.m0 = s.g.m0 ∧ t.g.mode = s.g.mode ∧ t.g.paths = s.g.paths ∧ t.g.frec = s.g.frec ∧
      ((v.part s.g.part).evheld = [] → (v.part s.g.part).evRoom = true → (t.part s.g.part).evw = (v.part s.g.part).evw + 1) ∧
      ((v.part s.g.part).evRoom = false → (t.part s.g.part).evheld = (v.part s.g.part).evheld ++
        [docketBytes 2 code s.g.core s.g.part s.g.ctx 0 (v.part s.g.part).time (leBytes 8 s.g.frec.toNat ++ leBytes 8 s.g.pc.toNat)])

/-- `eret` restores the path table and m0 from the record that the fault entry wrote (the model's reading of R166, log 72), clears SUP, and goes to the resume PC, past the faulting instruction, or to it with its replay mask. -/
def Obligations.ReturnFromFault : Prop :=
  ∀ (f : FForm) (w : Word) (s s1 : State) (bs : List Byte), wordOf (.eret f) = some w → s.executes w (extraOf (.eret f) s) = true →
    (s.begun w (extraOf (.eret f) s)).readRecord = (.ok bs, s1) → s1.mem.bad = none →
    let nat := fun a n => leNat ((bs.drop a).take n)
    let flags := nat 1 1
    let replay : Mask := BitVec.ofNat 32 (nat 4 4)
    let pmask : Mask := BitVec.ofNat 32 (nat 8 4)
    let pc := pcBits (BitVec.ofNat 64 (nat 0x10 8))
    ∃ t, exec (.eret f) s = .next t ∧ s1.SameUnits t ∧ t.g.sup = false ∧ t.g.st = (if w.stall = 0 then .ready else .waitStall) ∧ t.g.dist = s.g.dist + max 3 (w.stall + 1) ∧
      t.g.paths = (List.range 8).map (fun i => pathOfBytes ((bs.drop (0x40 + 16 * i)).take 16)) ∧ t.g.m0 = pmask ∧
      (flags % 2 = 1 → t.g.pc = pc ∧ t.g.replay = none) ∧
      (flags % 2 = 0 → replay = 0 → t.g.pc = pcBits (pc + (if flags / 2 % 2 = 1 then 16 else 8)) ∧ t.g.replay = none) ∧
      (flags % 2 = 0 → replay ≠ 0 → t.g.pc = pc ∧ t.g.replay = some { lanes := replay, back := pmask }) ∧
      t.g.k = s.g.k ∧ t.g.m = s.g.m ∧ t.g.mode = s.g.mode ∧ t.g.v = s.g.v ∧ t.g.gens = s.g.gens ∧ t.g.frec = s.g.frec ∧ t.g.gang = s.g.gang ∧ t.g.pair = s.g.pair

/-- `gexit` goes on with the oldest pending path, or with the merge of arrived ones; with no path left, or in the handler, a group with nothing outstanding retires, at once or when its wait is settled. -/
def Obligations.GroupsRetire : Prop :=
  (∀ (f : FForm) (w : Word) (s : State), wordOf (.gexit f) = some w → s.executes w {} = true →
    let ps := agePaths s.g.paths
    (∀ i, s.g.sup = false → oldestPend ps (fun _ => true) = some i →
      ∃ t, exec (.gexit f) s = .next t ∧ WordDone s t w {} { s.g with m0 := (ps.getD i {}).mask, paths := ps.set i {} } (pcBits (ps.getD i {}).pc) (max 3 (w.stall + 1))) ∧
    (∀ e, s.g.sup = false → oldestPend ps (fun _ => true) = none → (ps.find? fun e => e.valid && e.arrived) = some e →
      ∃ t, exec (.gexit f) s = .next t ∧
        WordDone s t w {} { s.g with m0 := t.g.m0, paths := ps.map fun x => if x.valid && x.arrived && x.tag == e.tag then {} else x } (pcBits e.pc) (max 3 (w.stall + 1)) ∧
        ∀ l, l < 32 → t.g.m0.getLsbD l = ps.any fun x => x.valid && x.arrived && x.tag == e.tag && x.mask.getLsbD l) ∧
    (s.g.sup = true ∨ (ps.all fun e => !e.valid) = true → s.g.retireReady = true → s.g.batchOut = [] → s.g.st ≠ .free → (s.allGroups.all fun x => (brokenBy s.g x).isNone) = true →
      ∃ t, exec (.gexit f) s = .next t ∧ t.RetiredGroup s.g ∧ s.SameMemory t ∧ t.mem.hbm = s.mem.hbm)) ∧
  ∀ (uid : Nat) (s : State) (h : Group), s.group? uid = some h → h.st = .waitCounter → h.wait = .retire → h.retireReady = true → s.mem.bad = none → (s.allGroups.all fun x => (brokenBy h x).isNone) = true →
    ∃ t, exec (.groupRetirement uid) s = .next t ∧ t.RetiredGroup h ∧ s.SameMemory t ∧ t.sched = s.sched ∧ t.units = s.units ∧ t.plat = s.plat ∧
      ∀ u, u ≠ uid → ((t.group? u).map fun x => { x with st := .free }) = (s.group? u).map fun x => { x with st := .free }

/-- An engine word whose checks pass adds its operation to the group and goes on; one of no bytes completes at once, its class drained and its barrier arrived on. `xwait` goes on once its counter is low enough, and no line that the L1 holds then serves a later load at a scope wider than a core's (R228). -/
def Obligations.EngineOpsIssue : Prop :=
  (∀ (i : Instr) (w : Word) (s b : State) (o : EngineOp), wordOf i = some w → s.executes w {} = true → engineOf i w (s.begun w {}) = some (o, b) →
    b.g.counter o.cls < 32 → b.g.replay = none → b.mem.bad = none →
    let o' : EngineOp := { o with seq := b.g.nextOp, after := b.g.nextReq }
    let x : Group := { b.g with ops := b.g.ops ++ [o'], nextOp := b.g.nextOp + 1 }
    ∃ t, exec i s = .next t ∧ WordDone (if o.ended then b.arriveBar b.g o' else b) t w {} (if o.ended then x.drainOps o.cls else x) (w.next s.g.pc) (w.stall + 1)) ∧
  ∀ (f : FForm) (w : Word) (s : State), wordOf (.xwait f) = some w → s.executes w {} = true → s.g.counter f.rnd.toNat ≤ f.b.toNat →
    ∃ t, exec (.xwait f) s = .next t ∧ WordDone s t w {} { s.g.aged with notBefore := max s.g.notBefore s.mem.clock } (w.next s.g.pc) (w.stall + 1)

/-- An engine operation that meets no obstacle completes: its accesses stand, its class drains, and it arrives on its barrier. Each 16-byte unit of a move whose tiles pass their checks carries the source's bytes to the destination; no unit changes another byte. -/
def Obligations.EngineOpsComplete : Prop :=
  (∀ (uid op : Nat) (c : CollInput) (s : State) (h : Group) (o : EngineOp), s.group? uid = some h → (h.ops.find? fun o => o.seq == op && !o.ended) = some o → h.unver = false → h.earlierDone o.after = true → o.fault = none →
    let r := s.runOp h o c
    let o' : EngineOp := { o with bytes := r.1.bytes, ended := true, awaits := none }
    r.1.stop = none → r.1.lost = false → r.2.mem.bad = none →
    ∃ t, exec (.engineCompletion uid op c) s = .next t ∧ t.mem = r.2.mem ∧ t.sched = r.2.sched ∧ t.work = r.2.work ∧ t.plat = r.2.plat ∧
      t.units = { r.2.units with arrivals := r.2.units.arrivals ++ (match o.bar with
        | some b => [(h.part, h.ctx, b, o.count)]
        | none => []) } ∧
      ∀ x, r.2.group? uid = some x → ∃ y, t.group? uid = some y ∧
        (y.ops, y.pendFaults) = ((Group.drainOps { x with ops := x.ops.map fun q => if q.seq = op then o' else q } o.cls).ops, (Group.drainOps { x with ops := x.ops.map fun q => if q.seq = op then o' else q } o.cls).pendFaults) ∧
        x.Kept { y with ops := x.ops, pendFaults := x.pendFaults, left := x.left } []) ∧
  ∀ (s : State) (h : Group) (o : EngineOp) (a b : Loc), a.inMemory 16 = true → b.inMemory 16 = true → (a.space ≠ b.space ∨ a.addr + 16 ≤ b.addr ∨ b.addr + 16 ≤ a.addr) → (s.mem.hqs = [] ∨ ∀ c, b.space ≠ .spad c) →
    let t := s.moveElems h o [(a, b)]
    (t.alarmed = false → t.peek b 16 = s.peek a 16) ∧ s.SameBut t b 16

/-- A pending asynchronous fault is taken at an instruction boundary: the handler of its code runs, with the record's PC that of the next word. -/
def Obligations.AsyncFaultsAreTaken : Prop :=
  ∀ (uid : Nat) (s u : State) (h : Group) (n : Nat) (f : FaultRec) (fs : List (Nat × FaultRec)) (ls : List Loc) (entry : W64), s.group? uid = some h → h.pendFaults = (n, f) :: fs → h.atBoundary = true → s.mem.bad = none →
    let c := ((s.putGroup { h with pendFaults := fs }).withdraw uid).checkout uid
    let r : FaultRec := { f with pc := h.pc }
    let space := max 3 h.lastSpace - h.lastSpace
    State.Entry { c with g := c.g.faulting space space r.word0 (if r.lit then some r.word1 else none) } r ls entry u →
    ∃ t x, exec (.asyncFaultTake uid) s = .next t ∧ t.group? uid = some x ∧ h.untake.InHandler x r entry ∧ x.pendFaults = fs ∧ t.Recorded u r ls

/-- `abeg` opens a region with the checkpoint of the registers; `aabt` aborts one. -/
def Obligations.RegionsOpenAndAbort : Prop :=
  (∀ (f : FForm) (imm : BitVec 32) (w : Word) (s : State), wordOf (.abeg f imm) = some w →
    let ex : Extra := { illegal := s.g.sup || s.g.ccc }
    s.executes w ex = true → s.g.inreg = false → s.g.landed = true →
    ∃ t r, exec (.abeg f imm) s = .next t ∧ t.g.region = some r ∧ WordDone s t w ex { s.g.aged with region := some r } (w.next s.g.pc) (w.stall + 1) ∧
      r.fallback = pcBits (s.g.pc + 8 * imm.signExtend 64) ∧ (r.scope, r.opened, r.v, r.k, r.m, r.mode, r.gens) = (w.scope, s.g.pc, s.g.v, s.g.k, s.g.m, s.g.mode, s.g.gens) ∧
      (r.reads, r.words, r.pages, r.cons, r.stores, r.tags, r.older, r.count) = ([], [], [], [], [], [], [], 0)) ∧
  ∀ (f : FForm) (w : Word) (s : State) (r : Region), wordOf (.aabt f) = some w → s.g.region = some r → s.executes w { illegal := !s.g.inreg } = true → s.g.abortStays r = true →
    ∃ t, exec (.aabt f) s = .next t ∧ s.g.Aborted r 1 w t.g ∧ s.SameUnits t

/-- `acom` with no broken constraint or concrete value commits: its stores are made, every tagged control register, vector lane and pair moves with the value it came from, untagged ones stay, and D says whether a value had changed. A broken constraint or concrete value aborts. Where a tile read again or stored to fails its check, nothing is stored (R278). -/
def Obligations.RegionsCommit : Prop :=
  ∀ (f : FForm) (w : Word) (s : State) (r : Region), wordOf (.acom f) = some w →
    let ex : Extra := { illegal := !s.g.inreg }
    let b := s.begun w ex
    s.g.region = some r → s.executes w ex = true → s.g.unver = false → s.g.allPerformed = true →
    let q := ((freshValues r.reads b).1, verifyStores r.stores (freshValues r.reads b).2)
    let broken := r.cons.any fun c => c.broken q.1
    (q.2.alarmed = true → q.2.mem.bad = none → ∃ t, exec (.acom f) s = .next t ∧ t.g.st = .waitStall ∧ t.g.wait = .hold ∧ t.g.pc = s.g.pc ∧ t.mem = q.2.mem ∧ s.SameMemory t) ∧
    (q.2.alarmed = false → concreteBroken r.reads q.1 = false → broken = false →
      let c := r.stores.foldl (fun s e => s.storeAt s.g.who (some s.g.uid) false e.loc (leBytes e.size (e.data' q.1))) q.2
      c.mem.bad = none →
      ∃ t, exec (.acom f) s = .next t ∧ (c.acquire c.g r.scope q.2.mem.clock).SameUnits t ∧ s.g.Past w t.g (w.next s.g.pc) (w.stall + 1) ∧ t.g.region = none ∧ t.g.acause = s.g.acause ∧
        t.g.mode = s.g.mode ∧ t.g.m = s.g.m ∧ t.g.m0 = s.g.m0 ∧ t.g.gens = s.g.gens ∧
        (f.d ≠ 0 → ∀ d, s.g.dist ≤ d → t.g.kAt d f.d.toNat = if r.reads.any ReadEnt.conflict then 1 else 0) ∧
        (∀ n, n ≠ f.d.toNat → r.bare (.ctl n) → tget ({} : KReg) t.g.k n = tget {} s.g.k n) ∧
        (∀ n, (∀ l, r.bare (.lane n l)) → ∀ d, t.g.readAt d n = s.g.readAt d n) ∧
        (∀ d n l, s.g.dist ≤ d → l < 32 → r.bare (.lane n l) → (s.g.vreg n).unwritten d = false → laneAt (t.g.readAt d n) l = laneAt (s.g.readAt d n) l) ∧
        (∀ n tag, r.alone (.ctl n, tag) → n ≠ 0 → n ≠ f.d.toNat → ∀ d, s.g.dist ≤ d →
          t.g.kAt d n = BitVec.ofNat 64 (repaired r q.1 tag (tget ({} : KReg) s.g.k n).final.toNat)) ∧
        (∀ n l tag, r.alone (.lane n l, tag) → n ≠ 255 → l < 32 → (s.g.vreg n).alloc = true → ∀ d, s.g.dist ≤ d →
          laneAt (t.g.readAt d n) l = BitVec.ofNat 32 (repaired r q.1 tag (laneAt (s.g.vreg n).final l).toNat)) ∧
        ∀ n l tag, r.alone (.pair n l, tag) → n < 254 → l < 32 → (s.g.vreg n).alloc = true → (s.g.vreg (n + 1)).alloc = true → ∀ d, s.g.dist ≤ d →
          let v := repaired r q.1 tag ((laneAt (s.g.vreg n).final l).toNat + 2 ^ 32 * (laneAt (s.g.vreg (n + 1)).final l).toNat)
          laneAt (t.g.readAt d n) l = BitVec.ofNat 32 v ∧ laneAt (t.g.readAt d (n + 1)) l = BitVec.ofNat 32 (v / 2 ^ 32)) ∧
    (q.2.alarmed = false → s.g.abortStays r = true → q.2.mem.bad = none → concreteBroken r.reads q.1 = true ∨ broken = true →
      ∃ t, exec (.acom f) s = .next t ∧ s.g.Aborted r (if concreteBroken r.reads q.1 then 3 else 2) w t.g ∧ s.SameMemory t)

/-- A matrix word of one group whose checks pass gives its operation to the unit; an `mma` does so alone, or with its gang once all of it has arrived, and else waits at the latch. -/
def Obligations.MatrixOpsIssue : Prop :=
  (∀ (i : Instr) (w : Word) (s b : State) (o : MatOp), wordOf i = some w → s.executes w {} = true → matrixOf i w (s.begun w {}) = some (o, b) → b.g.matFull = false → b.g.replay = none → b.mem.bad = none →
    ∃ t, exec i s = .next t ∧ WordDone (b.accept b.g.quad o) t w {} b.g.joinBatch (w.next s.g.pc) (w.stall + 1)) ∧
  ∀ (f : FForm) (l : SetLit) (w : Word) (s b : State), wordOf (.mma f l) = some w → s.executes w {} = true → mmaArrives f l w (s.begun w {}) = some b → (s.begun w {}).g.matFull = false → b.mem.bad = none →
    (gangSize s.g.gang < 2 →
      let u := b.acceptGang [b.g]
      u.mem.bad = none → u.g.replay = none → ∃ t, exec (.mma f l) s = .next t ∧ WordDone u t w {} u.g (w.next s.g.pc) (w.stall + 1)) ∧
    (2 ≤ gangSize s.g.gang → b.gangHole b.g = false → b.rendezvous b.g = none →
      ∃ t, exec (.mma f l) s = .next t ∧ t.g.st = .waitGang ∧ t.g.wait = .gang ∧ t.g.arrival = b.g.arrival ∧ t.g.pc = s.g.pc ∧ t.units = b.units) ∧
    ∀ ms, 2 ≤ gangSize s.g.gang → b.gangHole b.g = false → b.rendezvous b.g = some ms → (ms.all fun m => sameArrival b.g m) = true →
      let u := b.acceptGang ms
      u.mem.bad = none → u.g.replay = none → ∃ t, exec (.mma f l) s = .next t ∧ WordDone u t w {} u.g (w.next s.g.pc) (w.stall + 1)

/-- `mfence` answers the number of the open batch and closes it; `mwait` goes on once its batch is complete, and no line that the L1 holds then serves a later load at a scope wider than a core's (R229). -/
def Obligations.BatchWords : Prop :=
  (∀ (f : FForm) (w : Word) (s : State), wordOf (.mfence f) = some w → s.executes w {} = true →
    ∃ t, exec (.mfence f) s = .next t ∧ WordDone s t w {} ({ s.g.aged with k := t.g.k } : Group).closeBatch (w.next s.g.pc) (w.stall + 1) ∧
      (f.d ≠ 0 → ∀ d, s.g.dist + w.lat ≤ d → t.g.kAt d f.d.toNat = BitVec.ofNat 64 s.g.batch) ∧ ∀ n, n ≠ f.d.toNat → tget ({} : KReg) t.g.k n = tget {} s.g.k n) ∧
  ∀ (f : FForm) (w : Word) (s : State), wordOf (.mwait f) = some w → s.executes w {} = true → (s.g.readK f.a.toNat).toNat < s.g.batch → (s.g.readK f.a.toNat).toNat ≤ s.g.lastBatch →
    ∃ t, exec (.mwait f) s = .next t ∧ WordDone s t w {} { s.g.aged with notBefore := max s.g.notBefore s.mem.clock } (w.next s.g.pc) (w.stall + 1)

/-- The unit completes its oldest operation: `mzero` leaves zeros in the tile, `mload` the elements of the tensor where its tiles pass their checks, `mma` the sums of R96, and `mpour` has stored its elements and clears the tile where it says so. -/
def Obligations.MatrixOpsComplete : Prop :=
  ∀ (quad : Nat) (s : State) (o : MatOp) (rest : List MatOp) (sl : Slice) (h : Group), s.UnitReady quad o rest sl h →
    (o.kind = 1 → ∃ t, exec (.matrixOpComplete quad) s = .next t ∧ s.TileHolds t quad rest sl h (List.replicate 4096 0) ∧ s.SameMemory t) ∧
    (∀ tel vs u, o.kind = 2 → o.tel = some tel → State.loadTile h o tel (List.range 4096) s = (.ok vs, u) → u.mem.bad = none → u.alarmed = false →
      ∃ t, exec (.matrixOpComplete quad) s = .next t ∧ s.TileHolds t quad rest sl h vs ∧ s.SameMemory t) ∧
    (o.kind = 0 →
      let r := mmaSlice s.plat.assistOk sl (s.readCast o.core o.a o.pa) (s.readCast o.core sl.b sl.pb) (s.accTile h.quad (h.tileOf sl.z)) h.gens
      ∃ t, exec (.matrixOpComplete quad) s = .next t ∧ s.TileHolds t quad rest sl h r.1 ∧ s.SameMemory t ∧ ∀ x, t.group? sl.uid = some x → x.gens = r.2.gens) ∧
    (∀ tel r u, o.kind = 3 → o.tel = some tel → State.pourAll h o sl tel (s.accTile h.quad (h.tileOf sl.z)) (pourBlocks o.axis) { gens := h.gens } s = (r, u) → r.stop = none → u.mem.bad = none →
      ∃ t, exec (.matrixOpComplete quad) s = .next t ∧ u.SameMemory t ∧ (t.quad quad).mat = rest ∧ (∀ x, t.group? sl.uid = some x → x.gens = r.gens) ∧
        (o.clr = true → t.accTile h.quad (h.tileOf sl.z) = List.replicate 4096 0) ∧ (o.clr = false → tget [] t.mem.acc h.quad = tget [] u.mem.acc h.quad))

/-- `qpush` appends the records of its active lanes, lowest first, as far as the block's reservation goes, to the block's tentative records, and answers their number. -/
def Obligations.PushesAreTentative : Prop :=
  ∀ (f : FForm) (w : Word) (s : State) (b : Block) (gr : Graph) (e : QueueEnt) (names : List Nat), wordOf (.qpush f) = some w → s.namedQueue s.g f.a.toNat = some (b, gr, e) →
    recordNames s.g f.d.toNat e.rsize = some names → ((b.hdr.outq.take b.hdr.nout).contains e.qid) = true →
    let ex : Extra := { r := { v := names } }
    let act := s.g.active f.pred.toNat
    s.executes w ex = true →
    let lanes := (lanesOf act).take (b.resvIn e.qid - b.tentIn e.qid)
    (act = 0 → ∃ t, exec (.qpush f) s = .next t ∧ WordDone s t w ex { s.g.aged with k := t.g.k } (w.next s.g.pc) (w.stall + 1) ∧ s.g.SameK t.g [f.b.toNat] ∧ (f.b ≠ 0 → ∀ d, s.g.dist ≤ d → t.g.kAt d f.b.toNat = 0)) ∧
    (act ≠ 0 → s.g.unver = false →
      ∃ t, exec (.qpush f) s = .next t ∧ WordDone (s.putBlock { b with tent := b.tent ++ lanes.map fun l => (e.qid, laneRecord s.g names l) }) t w ex { s.g.aged with k := t.g.k } (w.next s.g.pc) (w.stall + 1) ∧
        s.g.SameK t.g [f.b.toNat] ∧ (f.b ≠ 0 → ∀ d, s.g.dist ≤ d → t.g.kAt d f.b.toNat = BitVec.ofNat 64 lanes.length))

/-- `qpop` and `qpop.try` give the i-th active lane the i-th record at the head of the stage's queue and the mask the lanes that received one; with none there, `qpop.try` writes an empty mask and `qpop` waits; with no active lane either writes an empty mask. -/
def Obligations.PopsTakeTheHead : Prop :=
  ∀ (i : Instr) (f : FForm) (wait : Bool) (w : Word) (s : State) (b : Block) (gr : Graph) (e : QueueEnt) (qu : Queue) (names : List Nat), (i = .qpop f ∧ wait = true) ∨ (i = .qpopTry f ∧ wait = false) → wordOf i = some w →
    s.namedQueue s.g f.a.toNat = some (b, gr, e) → recordNames s.g f.d.toNat e.rsize = some names → b.hdr.inq = e.qid → b.hdr.inq ≠ 0xFFFF → s.queue? gr.gidx e.qid = some qu → s.queueEnt gr.gidx e.qid = some e →
    let ex : Extra := { w := { v := names } }
    let act := s.g.active f.pred.toNat
    let c := s.begun w ex
    s.executes w ex = true → s.g.st ≠ .free → f.d.toNat + e.rsize / 4 ≤ 255 →
    (act = 0 → ∃ t, exec i s = .next t ∧ WordDone { s with g := c.g } t w ex { c.g with m := t.g.m } (w.next s.g.pc) (w.stall + 1) ∧ (f.b ≠ 0 → ∀ d, s.g.dist ≤ d → t.g.mAt d f.b.toNat = 0)) ∧
    (act ≠ 0 → qu.available e ≠ 0 →
      let u := c.popInto s.g.uid gr.gidx e.qid act f.d.toNat f.b.toNat
      let recs := (c.popRecs gr.gidx e.qid (popcount act)).1
      u.mem.bad = none →
      ∃ t, exec i s = .next t ∧ WordDone u t w ex u.g (w.next s.g.pc) (w.stall + 1) ∧
        (∀ (j : Nat) (x : Rec), (recs : List Rec)[j]? = some x → ∀ l, (lanesOf act)[j]? = some l → ∀ k, k < e.rsize / 4 → ∀ d, s.g.dist ≤ d → laneAt (t.g.readAt d (f.d.toNat + k)) l = recWord x.data k) ∧
        (f.b ≠ 0 → ∀ d, s.g.dist ≤ d → t.g.mAt d f.b.toNat = maskOf fun l => ((lanesOf act).take recs.length).contains l)) ∧
    (act ≠ 0 → qu.available e = 0 → wait = false → ∃ t, exec i s = .next t ∧ WordDone { s with g := c.g } t w ex { c.g with m := t.g.m } (w.next s.g.pc) (w.stall + 1) ∧ (f.b ≠ 0 → ∀ d, s.g.dist ≤ d → t.g.mAt d f.b.toNat = 0)) ∧
    (act ≠ 0 → qu.available e = 0 → wait = true → ∃ t, exec i s = .next t ∧ t.g.st = .waitQueue ∧ t.g.wait = .pop gr.gidx e.qid act f.d.toNat f.b.toNat ∧ t.g.pc = s.g.pc ∧ t.queue? gr.gidx e.qid = some { qu with popWait := qu.popWait ++ [s.g.uid] })

/-- Each form of `qlen` answers its quantity of the queue named. -/
def Obligations.QueueLengths : Prop :=
  ∀ (i : Instr) (w : Word) (s : State) (b : Block) (gr : Graph) (e : QueueEnt) (q : Queue) (x : W64), wordOf i = some w → s.executes w {} = true → s.namedQueue s.g w.f.a.toNat = some (b, gr, e) →
    s.queue? gr.gidx e.qid = some q → lengthOf i s gr e q = some x → ∃ t, exec i s = .next t ∧ ControlDone s t w {} x

/-- Handle queues: a push that may proceed, a pop or a try with an item there, and a credit complete; a pop of an empty queue and a push that may not proceed wait; a try of an empty one answers all ones. A queue gives back the item pushed into it while empty. -/
def Obligations.HandleQueues : Prop :=
  (∀ (f : FForm) (w : Word) (s c : State) (core off : Nat), wordOf (.hpush f) = some w → s.executes w {} = true → (s.begun w {}).hqOf (s.g.readK f.a.toNat) = some (core, off, c) → c.g.unver = false → c.g.allPerformed = true →
    let item := (s.g.readK f.b.toNat).extractLsb' 0 32
    (∀ u, c.hqPush core off item = some u →
      let v := u.raiseVersion u.g.who 1
      v.mem.bad = none → v.g.replay = none → ∃ t, exec (.hpush f) s = .next t ∧ WordDone v t w {} v.g (w.next s.g.pc) (w.stall + 1)) ∧
    (c.hqPush core off item = none → c.mem.bad = none → ∃ t, exec (.hpush f) s = .next t ∧ t.g.st = .waitQueue ∧ t.g.wait = .hpush core off ∧ t.g.pc = s.g.pc ∧
      t.work.hqWait = c.work.hqWait ++ [{ core := core, off := off, uid := s.g.uid, push := true, item := item }])) ∧
  (∀ (f : FForm) (w : Word) (s c : State) (core off : Nat), wordOf (.hpop f) = some w → s.executes w {} = true → (s.begun w {}).hqOf (s.g.readK f.a.toNat) = some (core, off, c) →
    let act := s.g.active f.pred.toNat
    (∀ item u, c.hqPop core off = some (item, u) →
      let y := u.raiseVersion u.g.who 1
      let v : State := { y with g := y.g.writeV 0 f.d.toNat act 0xFFFFFFFF (laneNumbers.map fun _ => item) }
      y.mem.bad = none → y.g.replay = none → ∃ t, exec (.hpop f) s = .next t ∧ WordDone v t w {} v.g (w.next s.g.pc) (w.stall + 1)) ∧
    (c.hqPop core off = none → c.mem.bad = none → ∃ t, exec (.hpop f) s = .next t ∧ t.g.st = .waitQueue ∧ t.g.wait = .hpop core off act f.d.toNat ∧ t.g.pc = s.g.pc ∧
      t.work.hqWait = c.work.hqWait ++ [{ core := core, off := off, uid := s.g.uid, push := false, item := 0 }])) ∧
  (∀ (f : FForm) (w : Word) (s c : State) (core off : Nat), wordOf (.htry f) = some w → s.executes w {} = true → (s.begun w {}).hqOf (s.g.readK f.a.toNat) = some (core, off, c) →
    (∀ item u, c.hqPop core off = some (item, u) →
      let v := u.raiseVersion u.g.who 1
      v.mem.bad = none → v.g.replay = none →
      ∃ t, exec (.htry f) s = .next t ∧ WordDone v t w {} { v.g with k := t.g.k } (w.next s.g.pc) (w.stall + 1) ∧ v.g.SameK t.g [f.d.toNat] ∧
        (f.d ≠ 0 → ∀ d, s.g.dist ≤ d → t.g.kAt d f.d.toNat = item.zeroExtend 64)) ∧
    (c.hqPop core off = none → c.mem.bad = none → c.g.replay = none →
      ∃ t, exec (.htry f) s = .next t ∧ WordDone c t w {} { c.g with k := t.g.k } (w.next s.g.pc) (w.stall + 1) ∧ c.g.SameK t.g [f.d.toNat] ∧ (f.d ≠ 0 → ∀ d, s.g.dist ≤ d → t.g.kAt d f.d.toNat = BitVec.allOnes 64))) ∧
  (∀ (f : FForm) (w : Word) (s c : State) (core off : Nat), wordOf (.hallow f) = some w → s.executes w {} = true → (s.begun w {}).hqOf (s.g.readK f.a.toNat) = some (core, off, c) → c.g.unver = false → c.g.allPerformed = true →
    let h := c.hqHead core off
    let u := (c.putHq core off { h with allow := min (h.allow + min (c.g.readK f.b.toNat).toNat 65535) 65535 }).hqServeAll core off
    u.mem.bad = none → u.g.replay = none → ∃ t, exec (.hallow f) s = .next t ∧ WordDone u t w {} u.g (w.next s.g.pc) (w.stall + 1)) ∧
  ∀ (s u : State) (core off : Nat) (item : W32), (s.hqHead core off).count = 0 → (s.hqHead core off).head < 64 → (s.hqHead core off).depth < 256 → s.work.hqWait = [] → s.hqPush core off item = some u → ∃ v, u.hqPop core off = some (item, v)

/-- `evpost` and `ksig` post their docket where there is room; `evpop` takes the oldest docket of the cluster into four registers, or zeros; `evpop.wait` waits for one. -/
def Obligations.EventWords : Prop :=
  (∀ (f : FForm) (w : Word) (s : State), wordOf (.evpost f) = some w → s.executes w {} = true → s.g.unver = false → s.g.allPerformed = true → s.evqRoom s.g.cluster = true →
    let b := s.begun w {}
    let u := b.postCluster b.g.cluster (docketBytes 1 0 b.g.source b.g.part b.g.ctx 0 (b.part b.g.part).time (signalBytes b.g w))
    u.mem.bad = none → u.g.replay = none → ∃ t, exec (.evpost f) s = .next t ∧ WordDone u t w {} u.g (w.next s.g.pc) (w.stall + 1)) ∧
  (∀ (f : FForm) (w : Word) (s : State), wordOf (.ksig f) = some w → s.executes w {} = true → s.g.unver = false → s.g.allPerformed = true →
    ((s.part s.g.part).evhalt = true ∨ (s.part s.g.part).evUsed < 2 ^ (s.part s.g.part).evlog) →
    let b := s.begun w {}
    let u := b.docket 9 0 b.g.source b.g.part b.g.ctx (signalBytes b.g w)
    u.mem.bad = none → u.g.replay = none → ∃ t, exec (.ksig f) s = .next t ∧ WordDone u t w {} u.g (w.next s.g.pc) (w.stall + 1)) ∧
  ∀ (i : Instr) (f : FForm) (wait : Bool) (w : Word) (s : State), (i = .evpop f ∧ wait = false) ∨ (i = .evpopWait f ∧ wait = true) → wordOf i = some w →
    let d := f.d.toNat
    let ex : Extra := { w := { k := [d + 1, d + 2, d + 3] } }
    s.executes w ex = true → d ≠ 0 → d ≤ 28 →
    (∀ x rest, s.evQueue s.g.cluster = x :: rest →
      let b := s.begun w ex
      let u := (((b.setEvQueue s.g.cluster rest).evqRefill s.g.cluster).wakePosters s.g.cluster).raiseVersion b.g.who 6
      u.mem.bad = none → u.g.replay = none →
      ∃ t, exec i s = .next t ∧ WordDone u t w ex { u.g with k := t.g.k } (w.next s.g.pc) (w.stall + 1) ∧ u.g.SameK t.g [d, d + 1, d + 2, d + 3] ∧
        ∀ j, j < 4 → ∀ n, u.g.dist ≤ n → t.g.kAt n (d + j) = BitVec.ofNat 64 (natAt x (8 * j) 8)) ∧
    (s.evQueue s.g.cluster = [] → wait = false → ∃ t, exec i s = .next t ∧ WordDone s t w ex { s.g.aged with k := t.g.k } (w.next s.g.pc) (w.stall + 1) ∧ s.g.SameK t.g [d, d + 1, d + 2, d + 3] ∧
      ∀ j, j < 4 → ∀ n, s.g.dist ≤ n → t.g.kAt n (d + j) = 0) ∧
    (s.evQueue s.g.cluster = [] → wait = true → ∃ t, exec i s = .next t ∧ t.g.st = .waitExt ∧ t.g.wait = .evpop d ∧ t.g.pc = s.g.pc ∧ t.units = { s.units with evWait := s.units.evWait ++ [s.g.uid] })

/-- One step at a state that has selected a group: the group's words at PC are fetched, decoded and executed, and the step is then settled; a word that is no instruction raises its fault. With no group selected, a step takes the next event of the agenda. A word that no cached line holds is read from memory, from a tile that passes its check. -/
def Obligations.StepRunsDecoded : Prop :=
  (∀ (s d : State) (uid : Nat) (rest : List Nat) (w0 w1 : W64) (lit : Bool), s.sched.sel = uid :: rest →
    let c := ({ s with sched := { s.sched with sel := rest } } : State).checkout uid
    c.g.uid = uid → c.mayIssue c.g = true → c.g.pendFaults = [] ∨ c.g.atBoundary = false → c.fetchInsn = (.ok (w0, w1, lit), d) →
    (∀ i, decode w0 w1 = .ok i → step s = settled (exec i d)) ∧ ∀ e, decode w0 w1 = .error e → step s = settled (answer (d.badWord e w0 w1 lit))) ∧
  (∀ (s : State) (i : Instr) (rest : List Instr), s.sched.sel = [] → s.sched.agenda = i :: rest → isEvent i = true → step s = settled (exec i { s with sched := { s.sched with agenda := rest } })) ∧
  (∀ s : State, s.settle.mem.bad = none → settled (.next s) = .next s.settle) ∧
  ∀ (s r : State) (va : Nat) (l : Loc) (leaf : Option Leaf), s.cachedLine s.g va = none → inAperture va = false → s.lookup s.g.who .exec va = (.ok l leaf, r) → va % 8 = 0 → l.addr % 128 = va % 128 → l.space = .hbm → l.inMemory 128 = true → (s.fetchWord va).2.alarmed = false →
    (s.fetchWord va).1 = .ok (BitVec.ofNat 64 (leNat (r.peek l 8)))

/-- Words written out from the encoding tables decode to the instructions they stand for. -/
def Obligations.DecodedWords : Prop :=
  decode 0x3411000808040000 0 = .ok (.kaddImm8 { stall := 1, d := 2, a := 2, b := 1 }) ∧
  decode 0x3C5203F0080C0002 0 = .ok (.bcc { stall := 2, d := 0xFC, a := 2, b := 3, xf := 2 }) ∧
  decode 0x2610002010140000 0 = .ok (.qpush { d := 8, a := 4, b := 5 }) ∧
  decode 0x2820000010180000 0 = .ok (.barWait { a := 4, b := 6 }) ∧
  decode 0x2420000000000000 0 = .ok (.aabt {}) ∧
  decode 0x15B0242408000008 0 = .ok (.vscan { pred := 1, rnd := 1, d := 9, a := 2, xf := 8 }) ∧
  decode 0x3D00000004000000 0x8000000000070005 = .ok (.pfork { a := 1 } 0x00070005)

/-- Right after reset every reserved bit reads zero, no alarm stands and every memory is in its canonical form; there is no group, partition or owner, nothing has booted, and the hotness thresholds are 256 and 1,024. -/
def Obligations.ResetInvariant : Prop :=
  State.reset.Inv ∧ State.reset.memoriesWf = true ∧ State.reset.allGroups = [] ∧ State.reset.tabs.parts = [] ∧ State.reset.plat.owner = 0 ∧ State.reset.plat.booted = false ∧ State.reset.plat.hotw = 256 ∧ State.reset.plat.hotr = 1024 ∧
    ∀ l : Loc, l.space.isMemory = true → State.reset.peek l 1 = [0]

/-- Every step keeps the invariant: every memory stays in its canonical form, no two groups have one number, PC is a multiple of 8 below 2^56 and the reserved bits of MODE are zero in every group, no alarm is left untaken and no write untold to the `kwait`s on its line, and no access has met an address that does not exist. -/
def Obligations.StepKeepsInvariant : Prop :=
  ∀ s t : State, s.Inv → step s = .next t → t.Inv

/-- Decoding the words of a well-formed instruction gives it back, whatever word follows one without a literal. -/
def Obligations.DecodeOfEncode : Prop :=
  ∀ (i : Instr) (w0 w1 : W64) (ws : List W64), i.wellFormed = true → encode i = w0 :: ws → ws = [] ∨ ws = [w1] → decode w0 w1 = .ok i

/-- What decodes is well formed, and its words are those decoded: no bit of an instruction is dropped. -/
def Obligations.EncodeOfDecode : Prop :=
  ∀ (i : Instr) (w0 w1 : W64), decode w0 w1 = .ok i → i.wellFormed = true ∧ (encode i = [w0] ∨ encode i = [w0, w1])

/-- `jmp`, `jcall` and `ret` take their target from a register as it was before the word: one with clear reserved bits is where control goes, a call leaving PC + 8 in its register, unless the transfer does not go up and a pending path is due, which then runs while the path of the jump pends at the target; any other raises ALIGN through Trap at the jump, and no register is written. -/
def Obligations.JumpTargets : Prop :=
  ∀ (i : Instr) (w : Word) (s : State) (target : W64) (link : Option Nat) (op : Nat), wordOf i = some w → jumpOf i s.g = some (target, link, op) → i.wellFormed = true →
    (∀ f, i = .ret f → f = { stall := f.stall }) ∧ ((encode i).map fun x => (x.extractLsb' 52 10).toNat) = [op] ∧
    (s.executes w {} = true →
      (target.extractLsb' 0 3 = 0 → target.extractLsb' 56 8 = 0 →
        ∃ t, exec i s = .next t ∧
          (match s.g.switchAt target with
           | none => WordDone s t w {} { s.g.aged with k := t.g.k } target (max 3 (w.stall + 1))
           | some p => WordDone s t w {} { s.g.switched p target with k := t.g.k } (s.g.pathPc p) (max 3 (w.stall + 1))) ∧
          (∀ n, link ≠ some n → tget ({} : KReg) t.g.k n = tget {} s.g.k n) ∧ ∀ n, link = some n → n ≠ 0 → ∀ d, s.g.dist + 2 ≤ d → t.g.kAt d n = s.g.pc + 8) ∧
      (target.extractLsb' 0 3 ≠ 0 ∨ target.extractLsb' 56 8 ≠ 0 → exec i s = answer (s.trap w 0x08 0 target)))

/-- `nop ~n` has every field zero except STALL; it issues, spaces the next word of the group by n + 1 cycles, and changes nothing; the padding word is this word with n = 0. -/
def Obligations.NopWord : Prop :=
  (∀ f : FForm, (Instr.nop f).wellFormed = true ↔ f = { stall := f.stall }) ∧ encode (.nop {}) = [0x3000000000000000] ∧
  ∀ (f : FForm) (w : Word) (s : State), wordOf (.nop f) = some w → s.executes w {} = true →
    ∃ t, exec (.nop f) s = .next t ∧ ThreadFrame s t w {} ∧ w.stall = f.stall.toNat ∧ t.g.k = s.g.k ∧ t.g.m = s.g.m ∧ t.g.mode = s.g.mode ∧ t.g.gens = s.g.gens

/-- With MODE.SCHK = 1, a word of the vector and control families that reads a name with a fixed-latency write not yet ready raises STALL_SHORT, where no earlier check fails and no interlock holds it. -/
def Obligations.ScoreboardStalls : Prop :=
  ∀ (i : Instr) (w : Word) (s : State), wordOf i = some w → tabled i w s = true → s.g.schk = true → s.g.replay = none →
    ((w.readsOf s.g).v.any s.g.lateV || (w.readsOf s.g).m.any s.g.lateM || (w.readsOf s.g).k.any s.g.lateK) = true →
    regionBar s.g w = none → s.g.interlocked ((w.allReads s.g (extraOf i s)).append (w.allWrites (extraOf i s))) = false →
    (s.g.sup || s.g.ccc || !(w.sh.sup || (extraOf i s).priv)) = true → (extraOf i s).illegal = false → (extraOf i s).denied = false → (extraOf i s).ok = true → scopeOk w = true →
    (fieldInRange s.g w w.sh.d w.f.d && fieldInRange s.g w w.sh.a w.f.a && fieldInRange s.g w w.sh.b w.f.b && literalInRange s.g w) = true →
    exec i s = answer (s.trap w 0x05 0 0)

/-- `bar.expect`, `bar.expect.n` and the arrivals complete with the barrier tested after their change, an arrival answering the phase before; `bar.wait` goes on once its phase has passed and else waits; an engine's byte arrival lowers the balance. A tested barrier whose phase is complete begins the next with no arrival, and no other byte changes. -/
def Obligations.BarrierWords : Prop :=
  (∀ (i : Instr) (w : Word) (s c : State) (e : Nat) (x : Bar), wordOf i = some w → s.executes w {} = true → (s.begun w {}).objectOf (s.g.readK w.f.a.toNat) 1 = some (e, c) →
    barrierExpects i s.g (c.bar e) = some x → s.g.unver = false → s.Completes (c.barTest s.g.part e x) i w) ∧
  (∀ (i : Instr) (w : Word) (s c : State) (e : Nat) (x : Bar), wordOf i = some w → s.executes w {} = true → (s.begun w {}).objectOf (s.g.readK w.f.a.toNat) 1 = some (e, c) →
    barrierArrives i s.g (c.bar e) = some x → s.g.unver = false → s.g.allPerformed = true →
    let u := ({ c with g := c.g.setK 0 w.f.d.toNat (BitVec.ofNat 64 (c.bar e).phase) } : State).barTest s.g.part e x
    s.Completes u i w ∧ (w.f.d ≠ 0 → ∀ d, s.g.dist ≤ d → u.g.kAt d w.f.d.toNat = BitVec.ofNat 64 (c.bar e).phase)) ∧
  (∀ (f : FForm) (w : Word) (s c : State) (e : Nat), wordOf (.barWait f) = some w → s.executes w {} = true → (s.begun w {}).objectOf (s.g.readK f.a.toNat) 1 = some (e, c) →
    let n := ((s.g.readK f.b.toNat).extractLsb' 0 32).toNat
    (phasePassed (c.bar e).phase n = true → s.Completes (c.raiseVersion c.g.who 1) (.barWait f) w) ∧
    (phasePassed (c.bar e).phase n = false → (c.putHead s.g.part e (some s.g.uid)).mem.bad = none → s.WaitsAt (.barWait f) .waitBarrier (.barrier e n))) ∧
  (∀ (part ctx : Nat) (handle : W64) (bytes : Nat) (s c : State) (e y : Nat), (part, ctx, handle, bytes) ∈ s.units.arrivals →
    ({ s with units := { s.units with arrivals := s.units.arrivals.erase (part, ctx, handle, bytes) } } : State).handle part ctx handle 1 = (some (e, y), c) → balFits ((c.bar e).bal - bytes) = true →
    s.Steps (c.barTest part e { c.bar e with bal := (c.bar e).bal - bytes }) (.engineBarrierArrival part ctx handle bytes)) ∧
  ∀ (s : State) (p e : Nat) (x : Bar), x.inRange → (s.barTest p e x).mem.bad = none →
    (s.barTest p e x).bar e = x.tested ∧ ∀ l : Loc, l.space.isMemory = true → ¬(l.space = .hbm ∧ e + 8 ≤ l.addr ∧ l.addr < e + 32) → (s.barTest p e x).peek l 1 = s.peek l 1

/-- `jwait` goes on at count 0 and else waits; `jstat` and `jstat.s` answer the count and the status word; a child's retirement counts its join down, and at 0 its waiters wake and an armed continuation fires. `launch` answers 0 and records an instance that the quota covers, 1 where it does not, 2 for a header that makes none; `cont` arms the join, which fires at once where its count is 0. -/
def Obligations.JoinsAndLaunches : Prop :=
  (∀ (f : FForm) (w : Word) (s c : State) (e : Nat), wordOf (.jwait f) = some w → s.executes w {} = true → (s.begun w {}).objectOf (s.g.readK f.a.toNat) 3 = some (e, c) →
    (c.joinCount e = 0 → s.Completes (c.raiseVersion c.g.who 5) (.jwait f) w) ∧ (c.joinCount e ≠ 0 → c.mem.bad = none → s.WaitsAt (.jwait f) .waitJoin (.join e))) ∧
  (∀ (f : FForm) (w : Word) (s c : State) (e : Nat), wordOf (.jstat f) = some w → s.executes w {} = true → (s.begun w {}).objectOf (s.g.readK f.a.toNat) 3 = some (e, c) →
    s.Answers c (.jstat f) w f.d.toNat (BitVec.ofNat 64 (c.joinCount e))) ∧
  (∀ (f : FForm) (w : Word) (s c : State) (e : Nat), wordOf (.jstatS f) = some w → s.executes w {} = true → (s.begun w {}).objectOf (s.g.readK f.a.toNat) 3 = some (e, c) →
    s.Answers c (.jstatS f) w f.d.toNat (BitVec.ofNat 64 (mnat c.mem.hbm (e + 16) 8))) ∧
  (∀ (part ctx : Nat) (handle : W64) (faulted killed : Bool) (s c : State) (e y : Nat), (part, ctx, handle, faulted, killed) ∈ s.units.decrements →
    ({ s with units := { s.units with decrements := s.units.decrements.erase (part, ctx, handle, faulted, killed) } } : State).handle part ctx handle 3 = (some (e, y), c) →
    let v := c.setJoinCount part e (c.joinCount e - 1)
    let x := mnat v.mem.hbm (e + 16) 8
    let u := v.putWord part (e + 16) (min (x % 2 ^ 32 + if faulted && !killed then 1 else 0) (2 ^ 32 - 1) + 2 ^ 32 * min (x / 2 ^ 32 + if killed then 1 else 0) (2 ^ 32 - 1))
    (u.mem.bad = none → u.joinCount e = c.joinCount e - 1) ∧
    (u.joinCount e ≠ 0 → s.Steps u (.joinDecrement part ctx handle faulted killed)) ∧
    (u.joinCount e = 0 → s.Steps ((u.wakeJoin e).fireJoin part ctx e) (.joinDecrement part ctx handle faulted killed))) ∧
  (∀ (f : FForm) (w : Word) (s c0 c : State) (bs : List Byte) (e : Nat), wordOf (.launch f) = some w → s.executes w {} = true →
    let a := (s.g.readK f.a.toNat).toNat
    let j := s.g.readK f.b.toNat
    (s.begun w {}).readHeader a = (.ok bs, c0) → c0.joinOf j = some (e, c) → s.g.unver = false → s.g.allPerformed = true →
    let h := headerOf bs
    let n := (h.range + 2 ^ blockBits h - 1) / 2 ^ blockBits h
    let x := c.ctx c.g.part c.g.ctx
    (c.instanceOf c.g a bs = none → s.Answers c (.launch f) w f.d.toNat 2) ∧
    ∀ gidx stage, c.instanceOf c.g a bs = some (gidx, stage) →
      (n = 0 → s.Answers c (.launch f) w f.d.toNat 0) ∧
      (n ≠ 0 → x.quotaWait ≠ [] ∨ x.quota.toNat < n → s.Answers c (.launch f) w f.d.toNat 1) ∧
      (n ≠ 0 → x.quotaWait = [] → n ≤ x.quota.toNat →
        let q := c.setCtx c.g.part c.g.ctx { x with quota := x.quota - BitVec.ofNat 64 n }
        let v := if j = 0 then q else q.setJoinCount c.g.part e (q.joinCount e + n)
        s.Answers (v.addInstance gidx stage h.range (blockBits h) (if j = 0 then none else some j)) (.launch f) w f.d.toNat 0)) ∧
  ∀ (f : FForm) (w : Word) (s c0 c : State) (bs : List Byte) (e : Nat), wordOf (.cont f) = some w → s.executes w {} = true →
    let a := (s.g.readK f.a.toNat).toNat
    (s.begun w {}).objectOf (s.g.readK f.b.toNat) 3 = some (e, c0) → c0.readHeader a = (.ok bs, c) → (c.instanceOf s.g a bs).isSome = true → s.g.unver = false → s.g.allPerformed = true →
    s.Completes ((c.putWord s.g.part (e + 24) (a + 1)).fireJoin s.g.part s.g.ctx e) (.cont f) w

/-- `tdef` stores a descriptor that keeps every limit, with VALID set, and answers 0, or 1 where it breaks one; `tpatch` and `tpatch.add` change one field and answer what it held; `tinv` clears VALID of its entries. `hnew` answers a new handle of its kind, all ones where the table is full, and `hnew.q` an empty queue of its depth; `hdel` frees the entry and its waiters fault. -/
def Obligations.CatalogueAndHandles : Prop :=
  (∀ (f : FForm) (l : SetLit) (w : Word) (s : State) (o : Nat × Loc × Nat) (rest : List (Nat × Loc × Nat)), wordOf (.tdef f l) = some w → s.executes w {} = true → s.g.tableHeld = false →
    let a := (s.g.readK f.a.toNat).toNat
    let b := s.begun w {}
    let q := b.reachK .read a
    l.t1.toNat ≤ 4095 → a % 64 = 0 → q.1.stop = none → q.1.ok = o :: rest →
    let r := (q.2.raiseVersion q.2.g.who 5).loadVerified q.2.g.who o.2.1 64
    let place : Loc := ⟨.hbm, b.entryAddr s.g.part s.g.ctx l.t1.toNat⟩
    let bs := r.1.set 0x39 (r.1.getD 0x39 0 ||| 0x80)
    (tensorOk r.1 = true →
      let u := r.2.storeRun (partWho s.g.part) place bs
      s.Answers u (.tdef f l) w f.d.toNat 0 ∧ (u.mem.bad = none → u.peek place 64 = bs)) ∧
    (tensorOk r.1 = false → s.Answers r.2 (.tdef f l) w f.d.toNat 1)) ∧
  (∀ (i : Instr) (f : FForm) (l : SetLit) (add : Bool) (w : Word) (s : State), (i = .tpatch f l ∧ add = false) ∨ (i = .tpatchAdd f l ∧ add = true) → wordOf i = some w →
    s.executes w {} = true → s.g.tableHeld = false → l.t1.toNat ≤ 4095 →
    let b := s.begun w {}
    let place : Loc := ⟨.hbm, b.entryAddr s.g.part s.g.ctx l.t1.toNat⟩
    let r := b.loadVerified b.g.who place 64
    entryValid r.1 = true →
    (∀ bs old, patchOf add l.p1.toNat r.1 (s.g.readK f.a.toNat) = some (bs, old) →
      let u := r.2.storeRun (partWho s.g.part) place bs
      s.Answers u i w f.d.toNat (BitVec.ofInt 64 old) ∧ (u.mem.bad = none → u.peek place bs.length = bs)) ∧
    (patchOf add l.p1.toNat r.1 (s.g.readK f.a.toNat) = none → s.Answers r.2 i w f.d.toNat 0x8000000000000000)) ∧
  (∀ (f : FForm) (l : SetLit) (w : Word) (s : State), wordOf (.tinv f l) = some w → s.executes w {} = true → s.g.tableHeld = false → l.t1.toNat ≤ l.t2.toNat → l.t2.toNat ≤ 4095 →
    let b := s.begun w {}
    let u := (List.range (l.t2.toNat + 1 - l.t1.toNat)).foldl (fun (t : State) k => t.invalidateEntry t.g (l.t1.toNat + k)) b
    s.Completes u (.tinv f l) w ∧ (u.mem.bad = none → ∀ tid, l.t1.toNat ≤ tid → tid ≤ l.t2.toNat → (mget u.mem.hbm (b.entryAddr s.g.part s.g.ctx tid + 0x39)).getLsbD 7 = false)) ∧
  (∀ (f : FForm) (w : Word) (s : State), wordOf (.hnewB f) = some w → s.executes w {} = true → s.g.tableHeld = false →
    let b := s.begun w {}
    let r := b.newHandle b.g 1 (((b.block? b.g.blk).map fun x => x.groups.length).getD 0) 0
    s.Answers r.2 (.hnewB f) w f.d.toNat r.1) ∧
  (∀ (f : FForm) (w : Word) (s : State), wordOf (.hnewJ f) = some w → s.executes w {} = true → s.g.tableHeld = false →
    let b := s.begun w {}
    let r := b.newHandle b.g 3 0 0
    s.Answers r.2 (.hnewJ f) w f.d.toNat r.1) ∧
  (∀ (f : FForm) (w : Word) (s : State) (k : Block) (core lo : Nat), wordOf (.hnewQ f) = some w → s.executes w {} = true → s.g.tableHeld = false → s.block? s.g.blk = some k → k.cores.getD 0 0 = core → k.spad.getD 0 0 = lo →
    let a := (s.g.readK f.a.toNat).toNat
    let depth := (s.g.readK f.b.toNat).toNat
    let base := lo + (a - Config.apertureBase)
    Config.apertureBase ≤ a → a - Config.apertureBase < 0x100000 → a - Config.apertureBase + 272 ≤ k.hdr.spad → a % 16 = 0 → 1 ≤ depth → depth ≤ 64 →
    let b := s.begun w {}
    let r := b.newHandle b.g 2 (core * 2 ^ 20 + base) 0
    (r.1 = BitVec.allOnes 64 → s.Answers b (.hnewQ f) w f.d.toNat r.1) ∧
    (r.1 ≠ BitVec.allOnes 64 →
      let v := (r.2.poke ⟨.spad core, base⟩ (List.replicate 272 0)).putHq core base { depth := depth, count := 0, head := 0, allow := 0 }
      let u : State := { v with mem := { v.mem with hqs := v.mem.hqs ++ [(core, base)] } }
      s.Answers u (.hnewQ f) w f.d.toNat r.1 ∧ u.hqHead core base = { depth := depth, count := 0, head := 0, allow := 0 })) ∧
  (∀ (b : State) (g : Group) (kind x y : Nat), b.freeIndex g.part g.ctx = none → b.newHandle g kind x y = (BitVec.allOnes 64, b)) ∧
  ∀ (f : FForm) (w : Word) (s c : State) (kind e : Nat), wordOf (.hdel f) = some w → s.executes w {} = true → s.g.tableHeld = false →
    let h := s.g.readK f.a.toNat
    1 ≤ kind → kind ≤ 3 → (s.begun w {}).objectOf h kind = some (e, c) → (∀ k, 1 ≤ k → k < kind → (s.begun w {}).objectOf h k = none) →
    let hq := if kind = 2 then c.hqPlace e else (128, 0)
    let v := c.freeHandle s.g.part e
    let v : State := if kind = 2 then { v with mem := { v.mem with hqs := v.mem.hqs.filter fun q => q != hq } } else v
    s.Completes (v.faultWaiters e hq) (.hdel f) w

/-- `pcommit` maps a reserved page on a frame of the pool and answers 0, changes the permissions of a mapped one and answers 1, waiting for an invalidation where it takes any away, and 2 where there is neither; without a frame it waits. `pfree` unmaps a page, answers 0 and waits for the invalidation that frees the frame. `preserve` and `preserve.rel` reserve and release a whole range or answer 1. `tlbinv` waits for its invalidation, and every waiting word goes on when it completes; `hmove` moves the home of a page's frames. -/
def Obligations.PageWords : Prop :=
  (∀ (f : FForm) (w : Word) (s c : State) (e : LeafEnt), wordOf (.pcommit f) = some w → s.executes w {} = true → s.g.tableHeld = false →
    let va := (s.g.readK f.a.toNat).toNat
    let perms := f.rnd.toNat * 16
    let p := s.g.part
    pageCheck va = none → (s.begun w {}).findLeaf (s.begun w {}).g.who va = (some e, c) →
    (((e.val.testBit 0 || e.val.testBit 1) = false ∨ e.large = true ∨ e.target ≠ 0) → s.Answers c.leavePool (.pcommit f) w f.d.toNat 2) ∧
    (e.large = false → e.target = 0 → e.val.testBit 0 = true →
      let u := (c.setEntry (partWho p) e.at_ ((e.val &&& (2 ^ 64 - 1 - 0x70)) ||| perms)).leavePool
      ((e.val &&& 0x70) &&& (0x70 - perms) = 0 → s.Answers u (.pcommit f) w f.d.toNat 1) ∧
      ((e.val &&& 0x70) &&& (0x70 - perms) ≠ 0 → u.mem.bad = none → s.WaitsAt (.pcommit f) .waitStall (.inval u.mem.nextInval))) ∧
    (e.large = false → e.target = 0 → e.val.testBit 0 = false → e.val.testBit 1 = true →
      (∀ frame rest, (c.part p).pool = frame :: rest → (c.part p).poolFor s.g.uid ≠ 0 →
        s.Answers ((((c.setPart p { c.part p with pool := rest }).cleared frame).setEntry (partWho p) e.at_ (3 + perms + 65536 * frame)).leavePool) (.pcommit f) w f.d.toNat 0) ∧
      ((c.part p).pool = [] ∨ (c.part p).poolFor s.g.uid = 0 → (c.poolEmpty va).1.mem.bad = none → s.WaitsAt (.pcommit f) .waitExt .pool))) ∧
  (∀ (f : FForm) (w : Word) (s c : State) (e : LeafEnt), wordOf (.pfree f) = some w → s.executes w {} = true → s.g.tableHeld = false →
    let va := (s.g.readK f.a.toNat).toNat
    pageCheck va = none → (s.begun w {}).findLeaf (s.begun w {}).g.who va = (some e, c) →
    ((e.val.testBit 0 = false ∨ e.target ≠ 0 ∨ e.val.testBit 10 = true ∨ e.large = true) → s.Answers c (.pfree f) w f.d.toNat 1) ∧
    (e.val.testBit 0 = true → e.target = 0 → e.val.testBit 10 = false → e.large = false →
      let u := c.setEntry (partWho s.g.part) e.at_ 2
      u.mem.bad = none → ∃ t, exec (.pfree f) s = .next t ∧ t.g.st = .waitStall ∧ t.g.wait = .inval u.mem.nextInval ∧ t.g.pc = s.g.pc ∧
        t.mem.invals = u.mem.invals ++ [{ id := u.mem.nextInval, part := s.g.part, ctx := s.g.ctx, lo := vpnOf va, hi := vpnOf va + 1, free := [bitsAt e.val 51 16] }] ∧
        (f.d ≠ 0 → ∀ d, s.g.dist ≤ d → t.g.kAt d f.d.toNat = 0))) ∧
  (∀ (f : FForm) (w : Word) (s : State), wordOf (.preserve f) = some w → s.executes w {} = true → s.g.tableHeld = false →
    let b := s.begun w {}
    let a := (s.g.readK f.a.toNat).toNat
    let cs := chunks a (s.g.readK f.b.toNat).toNat
    let used := cs.any fun c => (b.chunkEntries b.g.who c).any fun es => es.any fun e => e.2 % 4 != 0
    rangeCheck a (s.g.readK f.b.toNat).toNat = none →
    (used = true → s.Answers b.leavePool (.preserve f) w f.d.toNat 1) ∧
    (∀ built c, used = false → cs.foldl (fun (acc : Bool × State) va => if acc.1 then acc.2.buildTables b.g va [1, 2, 3] (acc.2.root b.g.who) else acc) (true, b) = (built, c) →
      (built = true → s.Answers (cs.foldl (fun (t : State) va => ((t.chunkEntries b.g.who va).getD []).foldl (fun (t : State) e => t.setEntry (partWho s.g.part) e.1 (e.2 ||| 2)) t) c).leavePool (.preserve f) w f.d.toNat 0) ∧
      (built = false → (c.poolEmpty a).1.mem.bad = none → s.WaitsAt (.preserve f) .waitExt .pool))) ∧
  (∀ (f : FForm) (w : Word) (s : State), wordOf (.preserveRel f) = some w → s.executes w {} = true → s.g.tableHeld = false →
    let b := s.begun w {}
    let a := (s.g.readK f.a.toNat).toNat
    let cs := chunks a (s.g.readK f.b.toNat).toNat
    let held := cs.all fun c => (b.chunkEntries b.g.who c).any fun es => es.all fun e => e.2 % 4 == 2
    rangeCheck a (s.g.readK f.b.toNat).toNat = none →
    (held = false → s.Answers b (.preserveRel f) w f.d.toNat 1) ∧
    (held = true → s.Answers (cs.foldl (fun (t : State) va => ((t.chunkEntries b.g.who va).getD []).foldl (fun (t : State) e => t.setEntry (partWho s.g.part) e.1 (e.2 - 2)) t) b) (.preserveRel f) w f.d.toNat 0)) ∧
  (∀ (i : Instr) (f : FForm) (w : Word) (s : State) (p x lo hi : Nat), (i = .tlbinvAll f ∧ lo = 0 ∧ hi = 2 ^ 40) ∨ (i = .tlbinv f ∧ (s.g.readK f.a.toNat).toNat % 65536 = 0 ∧ (s.g.readK f.b.toNat).toNat % 65536 = 0 ∧
      s.g.readK f.b.toNat ≠ 0 ∧ lo = (s.g.readK f.a.toNat).toNat / 65536 ∧ hi = ((s.g.readK f.a.toNat).toNat + (s.g.readK f.b.toNat).toNat) / 65536) → wordOf i = some w →
    let ex : Extra := { illegal := !s.g.ccc && f.d != 0 }
    s.executes w ex = true → s.g.tableHeld = false → (s.begun w ex).tlbContext w = .ok (p, x) →
    ∃ t, exec i s = .next t ∧ t.g.st = .waitStall ∧ t.g.wait = .inval s.mem.nextInval ∧ t.g.pc = s.g.pc ∧
      t.mem.invals = s.mem.invals ++ [{ id := s.mem.nextInval, part := p, ctx := x, lo := lo, hi := hi, free := [] }]) ∧
  (∀ (f : FForm) (w : Word) (s : State), wordOf (.tlbinv f) = some w →
    let ex : Extra := { illegal := !s.g.ccc && f.d != 0 }
    s.executes w ex = true → (s.g.readK f.a.toNat).toNat % 65536 = 0 → s.g.readK f.b.toNat = 0 → (∃ x, (s.begun w ex).tlbContext w = .ok x) → s.Completes (s.begun w ex) (.tlbinv f) w ex) ∧
  (∀ (inv : Nat) (s : State) (i : Inval) (h : Group) (r : Resume), s.mem.invals.head? = some i → i.id = inv → i.seen = true →
    (∀ h ∈ s.ctxGroups i.part i.ctx, h.st = .preempted ∨ h.allPerformed = true) → (∀ x ∈ s.allGroups, x.region = none) → (s.allGroups.filter fun x => x.wait == .inval inv) = [h] → s.Waits h.uid h r →
    let v := ({ s with mem := { s.mem with invals := s.mem.invals.filter fun x => x.id != inv } } : State).sweep i.part i.ctx i.lo i.hi i.free
    let b := match i.send with
      | some x => v.sendPage x.1 x.2.1 x.2.2
      | none => v
    let u := b.setPart i.part { b.part i.part with freeing := (b.part i.part).freeing ++ i.free }
    ∀ x, u.group? h.uid = some x → u.mem.bad = none → ∃ t, exec (.invalidationComplete inv) s = .next t ∧ u.Resumes t h.uid x r) ∧
  ∀ (f : FForm) (w : Word) (s c : State) (e : LeafEnt), wordOf (.hmove f) = some w → s.executes w {} = true → s.g.tableHeld = false →
    let va := (s.g.readK f.a.toNat).toNat
    let die := (s.g.readK f.b.toNat).toNat
    let frames := if e.large then (List.range 512).map fun i => bitsAt e.val 51 25 * 512 + i else [bitsAt e.val 51 16]
    va % 65536 = 0 → va < Config.vaBytes → die ≤ 1 → (s.begun w {}).findLeaf (s.begun w {}).g.who va = (some e, c) →
    (e.val.testBit 0 = false ∨ e.target ≠ 0 → s.Answers c (.hmove f) w f.d.toNat 2) ∧
    (e.val.testBit 0 = true → e.target = 0 → (frames.all fun x => c.homeDie x == die) = true → s.Answers c (.hmove f) w f.d.toNat 1) ∧
    (e.val.testBit 0 = true → e.target = 0 → (frames.all fun x => c.homeDie x == die) = false →
      let u := frames.foldl (fun (t : State) x => t.moveHome x die) c
      s.Answers u (.hmove f) w f.d.toNat 0 ∧ ∀ x ∈ frames, u.homeDie x = die)

/-- The walker ends in the leaf of the page, which the core's TLB then holds. The check of a tile changes no byte; the groups that consumed it no longer wait where it and its path pass, and an integrity alarm names what fails. A tile written back leaves L2, with its bytes in HBM under the next version and a tag of them; a metadata tile leaves the metadata cache. Frames that enter a pool, or pass to a partition, read zero; the checkpoint pool takes one as it is. -/
def Obligations.MemorySystemSteps : Prop :=
  (∀ (core part ctx : Nat) (va : W64) (kind : AccessKind) (s : State), core < Config.cores → (s.ctx part ctx).st ≠ 0 → s.qown part core ≠ 0 → va.toNat < Config.vaBytes → inAperture va.toNat = false →
    let r := s.walk { part := part, ctx := ctx, core := core } kind false va.toNat
    r.2.mem.bad = none → exec (.pageWalk core part ctx va kind) s = .next r.2 ∧
      ∀ l leaf, r.1 = .ok l (some leaf) → leaf.vpn = vpnOf va.toNat ∧ r.2.mem.tlb.getLast? = some { core := core, part := part, ctx := ctx, leaf := leaf }) ∧
  (∀ (tile : Nat) (s : State), s.mem.bad = none → ∃ t, exec (.tileVerification tile) s = .next t ∧ s.SameMemory t ∧
    (s.pathFault tile = none → s.mem.tileVerified tile = true ∨ s.tagOk tile = true → (∀ h ∈ t.groups, tile ∉ h.pendTiles) ∧ (s.g.st ≠ .free → tile ∉ t.g.pendTiles)) ∧
    (s.mem.tileVerified tile = false → s.pathFault tile = none → s.tagOk tile = false → Alarm.integrity (s.tileOwner tile) tile 0 ∈ t.mem.alarms) ∧
    ∀ x level, s.mem.tileVerified tile = false → s.pathFault tile = some (x, level) → Alarm.integrity (s.tileOwner x) x level ∈ t.mem.alarms) ∧
  (∀ (tile p : Nat) (s : State), s.frameOwner (tile / 16) = some p → s.mem.bad = none →
    ((s.part p).metaPlace tile = none → ∃ t, exec (.tileWriteback tile) s = .next t ∧ s.SameMemory t ∧ (∀ e ∈ t.mem.l2, e.1 / 32 ≠ tile) ∧
      ((s.mem.l2.any fun e => e.1 / 32 == tile && e.2.dirty) = true → s.pathFault tile = none → s.mem.tileVerified tile = true ∨ s.tagOk tile = true → s.tileSpent tile = false →
        s.mem.hbm.wf = true → s.mem.img.wf = true →
        (tget ({} : Tile) t.mem.tiles tile).ver = (tget ({} : Tile) s.mem.tiles tile).ver + 1 ∧ t.tagOk tile = true ∧ mbytes t.mem.img (4096 * tile) 4096 = mbytes s.mem.hbm (4096 * tile) 4096)) ∧
    ∀ place, (s.part p).metaPlace tile = some place → ∃ t, exec (.tileWriteback tile) s = .next t ∧ s.SameMemory t ∧ (s.pathFault tile = none → thas t.mem.metas tile = false) ∧
      (tget false s.mem.metas tile = true → s.pathFault tile = none → s.tileSpent tile = false → (tget ({} : Tile) t.mem.tiles tile).ver = (tget ({} : Tile) s.mem.tiles tile).ver + 1)) ∧
  (∀ (part frame : Nat) (s : State), part < 64 → frame ∈ (s.part part).frames → s.mem.bad = none →
    let p := s.part part
    (frame ∉ p.pool → frame ∉ p.ckpool → frame ∉ p.metaFrames → frame ∉ p.freeing → (∀ x ∈ p.slices, x / 65536 ≠ frame) → frame ∉ s.heldFrames part →
      (p.poolWait = [] → ∃ t, exec (.poolFrameArrival part frame) s = .next t ∧ (t.part part).pool = p.pool ++ [frame] ∧ ∀ a, a < 65536 → t.peek ⟨.hbm, 65536 * frame + a⟩ 1 = [0]) ∧
      ∃ t, exec (.poolFrameArrival (64 + part) frame) s = .next t ∧ t.part part = { p with ckpool := p.ckpool ++ [frame] } ∧ s.OnlyPart t part) ∧
    (frame ∈ p.freeing → s.standing part = none → p.poolWait = [] →
      ∃ t, exec (.freedFrameToPool part frame) s = .next t ∧ (t.part part).pool = p.pool ++ [frame] ∧ (t.part part).freeing = p.freeing.erase frame ∧ ∀ a, a < 65536 → t.peek ⟨.hbm, 65536 * frame + a⟩ 1 = [0]) ∧
    ∀ k, frame ∈ p.freeing → s.standing part = some k → ∃ t, exec (.freedFrameToPool part frame) s = .next t ∧ (t.part part).freeing = p.freeing.erase frame ∧ (t.part part).pool = p.pool ∧
      t.standing part = some { k with freed := k.freed ++ [frame] }) ∧
  ∀ (part frame : Nat) (s : State), (s.part part).st = .active → 65536 * frame < Config.hbmBytes → s.frameOwner frame = none → s.mem.bad = none →
    ∃ t, exec (.frameHandOver part frame) s = .next t ∧ (t.part part).frames = (s.part part).frames ++ [frame] ∧ (∀ a, a < 65536 → t.peek ⟨.hbm, 65536 * frame + a⟩ 1 = [0]) ∧
      (t.part part).metaFrames = (s.part part).metaFrames ++ (if metaFits (s.part part).metaFrames.length ((s.part part).frames.length + 1) then [] else [frame])

/-- The coherence service settles its page as Table 9-9 says and wakes the groups that wait for it: a SHARED page of this device is writable again, and one that a peer writes, or whose move the host accepts, is the peer's, sent whole. A granted host page wakes its group, which then has it, and a refused one wakes it with the refusal. A peer's write stands where its page lies, and is counted as its read is; counts halve at a decay. A shootdown of the host announces an invalidation of its range. -/
def Obligations.CoherenceAndHostSteps : Prop :=
  (∀ (part ctx vpn dev frame : Nat) (write : Bool) (s : State),
    let c := s.coherence part ctx vpn dev write frame
    c.mem.bad = none →
      (dev ≠ c.self → exec (.coherenceService part ctx vpn dev write frame) s = .next c) ∧
      (dev = c.self → s.pageMoves part ctx vpn = true → exec (.coherenceService part ctx vpn dev write frame) s = .next c) ∧
      (dev = c.self → s.pageMoves part ctx vpn = false → ∃ t, exec (.coherenceService part ctx vpn dev write frame) s = .next t ∧ c.SameMemory t ∧
        ∀ h ∈ c.groups, h.part = part → h.ctx = ctx → h.wait = .coherence vpn → h.st ≠ .parked → h.st ≠ .preempted → (c.groups.filter fun x => x.uid == h.uid) = [h] → c.g.uid ≠ h.uid →
          { h with st := h.awake, wait := .none } ∈ t.groups) ∧
      exec (.migrationProposalAccepted part ctx vpn dev (!write) frame) s = .next c) ∧
  (∀ (s a b : State) (part ctx vpn frame : Nat) (e : LeafEnt), s.ran 6 = true → s.live part = true → s.plat.device ≠ none → s.pageMoves part ctx vpn = false → (s.ctx part ctx).st ≠ 0 → s.findLeaf { part := part, ctx := ctx, core := 128 } (65536 * vpn) = (some e, a) → e.large = false →
    a.findLeaf { part := part, ctx := ctx, core := 128 } (65536 * vpn) = (some e, b) → a.alarmed = false → b.alarmed = false → e.val.testBit 0 = true → e.val < 2 ^ 64 →
    (e.val.testBit 10 = true → (s.coherence part ctx vpn b.self true frame).mem.bad = none → mnat (s.coherence part ctx vpn b.self true frame).mem.hbm e.at_ 8 = ((e.val - 2 ^ 10) ||| 2 ^ 5) ∧
      (s.coherence part ctx vpn b.self true frame).replica? part ctx vpn = none) ∧
    ∀ dev, dev ≠ b.self → e.target = 0 → b.replica? part ctx vpn = none →
      let c := s.coherence part ctx vpn dev true frame
      let own := bitsAt e.val 51 16
      c.replica? part ctx vpn = some { part := part, ctx := ctx, vpn := vpn, shared := false, remote := false, owner := dev, holders := [] } ∧
      c.mem.invals.getLast? = some { id := b.mem.nextInval, part := part, ctx := ctx, lo := vpn, hi := vpn + 1, free := [own], send := some (dev, own, frame) }) ∧
  (∀ (uid f : Nat) (s : State) (h : Group), s.group? uid = some h → h.wait = .hostPage f → h.st ≠ .parked → h.st ≠ .preempted → s.mem.bad = none →
    let awake := { h with st := if h.sup then .handler else .ready, wait := .none }
    (∃ t, exec (.hostPageRequestAnswer uid true) s = .next t ∧ t.group? uid = some awake ∧ (s.holdHost f).OnlyGroup t uid) ∧
    ∃ t, exec (.hostPageRequestAnswer uid false) s = .next t ∧ t.group? uid = some { awake with refused := h.refused ++ [f] } ∧ s.OnlyGroup t uid) ∧
  (∀ (port src part ctx vpn pa : Nat) (kind : RemoteAccess) (data : List Byte) (s c : State) (l : Loc) (leaf : Leaf) (r : Replica), port < Config.ports → (s.port port).down = false → s.live part = true →
    (s.ctx part ctx).st ≠ 0 → s.replica? part ctx vpn = some r → r.owner = s.self → r.remote = true ∨ 15 ≤ r.holders.length →
    s.walk { part := part, ctx := ctx, core := 128 } (if kind = .load then .read else .write) false (65536 * vpn + pa % 65536) = (.ok l (some leaf), c) → leaf.target = 0 → leaf.frame = pa / 65536 →
    l.space = .hbm → l.inMemory data.length = true →
    let d := c.remoteAccess part l kind data
    d.mem.bad = none → s.plat.hotw = 0 → s.plat.hotr = 0 →
    ∃ t, exec (.remoteAccessArrival port src part ctx vpn pa kind data) s = .next t ∧ d.SameMemory t ∧ t.plat.replies = d.plat.replies ∧
      (kind = .store → t.peek l data.length = data ∧ c.SameBut t l data.length) ∧ (kind = .load → c.SameMemory t) ∧
      ∃ x ∈ (t.port port).hot, x.part = part ∧ x.ctx = ctx ∧ x.vpn = vpn ∧ x.dev = src ∧ (if kind = .load then 1 ≤ x.reads else 1 ≤ x.writes)) ∧
  (∀ (s : State), s.plat.decayDue = true → s.mem.bad = none → ∃ t, exec .hotnessDecay s = .next t ∧ s.OnlyPlat t ∧ t.plat.decayDue = false ∧
    ∀ p, (t.port p).hot = (s.port p).hot.map fun (x : Hot) => { x with reads := x.reads / 2, writes := x.writes / 2 }) ∧
  ∀ (part ctx : Nat) (start len : W64) (s : State), len ≠ 0 → s.live part = true → (s.ctx part ctx).st ≠ 0 → s.mem.bad = none → ∃ t, exec (.hostTlbShootdown part ctx start len) s = .next t ∧
    t.mem.invals = s.mem.invals ++ [{ id := s.mem.nextInval, part := part, ctx := ctx, lo := start.toNat / 65536, hi := (start.toNat + len.toNat + 65535) / 65536, free := [] }] ∧ s.SameMemory t ∧
    t.work.msgs = s.work.msgs ++ [({ window := s.sched.window, src := 290, kind := .invalidation s.mem.nextInval } : Msg)]

/-- A selection names one group that may issue, and at most a second one, both of the quadrant, and changes only its counters; the end of a stall makes its group ready; a closed window advances the window number, and the time of every active partition by its length; a request without a rate, or with a token, is admitted; the watchdog fires for a context whose counter has reached its limit. -/
def Obligations.IssueAndTime : Prop :=
  (∀ (quad : Nat) (s : State), s.plat.stuck = false → s.mem.bad = none → ∃ t us, exec (.issueSelection quad) s = .next t ∧ t.sched.sel = s.sched.sel ++ us ∧ us.length ≤ 2 ∧ t.mem = s.mem ∧ t.tabs = s.tabs ∧ t.work = s.work ∧ t.plat = s.plat ∧
    (∀ u ∈ us, ∃ h ∈ s.quadGroups quad, h.uid = u ∧ s.mayIssue h = true) ∧ (us = [] ↔ ∀ h ∈ s.quadGroups quad, s.mayIssue h = false)) ∧
  (∀ (uid : Nat) (s : State) (h : Group), s.group? uid = some h → (h.wait = .stall ∨ h.wait = .hold ∨ ∃ c, h.wait = .until_ c ∧ s.heldBy h c = false) → h.st ≠ .parked → h.st ≠ .preempted → s.mem.bad = none →
    ∃ t, exec (.stallElapsed uid) s = .next t ∧ t.group? uid = some { h with st := if h.sup then .handler else .ready, wait := .none } ∧ s.OnlyGroup t uid) ∧
  (∀ (uid : Nat) (s : State) (h : Group) (c : HeldBy), s.group? uid = some h → h.wait = .until_ c → s.heldBy h c = true → s.mem.bad = none → exec (.stallElapsed uid) s = .next s) ∧
  (∀ (through : Nat) (high : Bool) (s t : State), s.plat.stuck = false → exec (.summaryWindowClose through high) s = .next t →
    t.sched.window = s.sched.window + 1 ∧ t.sched.closed = max s.sched.closed (min (s.sched.window + 1) (max (through + 1) (s.sched.window - 1))) ∧ t.sched.cycle = 0 ∧ (high = false → t.plat.overBudget = false) ∧
    (∀ cl, (t.cluster cl).point = (s.cluster cl).point ∨ high = true ∧ (t.cluster cl).point + 1 = (s.cluster cl).point) ∧
    ∀ p, (s.part p).resuming = [] → (t.part p).time = if (s.part p).st = .active then BitVec.ofNat 64 (min ((s.part p).time.toNat + Config.windowNs) (2 ^ 64 - 1)) else (s.part p).time) ∧
  (∀ (through : Nat) (s : State), s.work.msgs = [] → s.work.queues = [] → s.work.ranges = [] → s.tabs.graphs = [] → s.tabs.ctxs = [] → s.units.metered = [] → s.groups = [] → s.g.st = .free → s.mem.bad = none →
    ∃ t, exec (.summaryWindowClose through false) s = .next t ∧ s.SameMemory t) ∧
  (∀ (slice part ctx : Nat) (s : State), slice < 128 → (s.ctx part ctx).st ≠ 0 → (slice, part, ctx) ∉ s.units.metered → s.mem.bad = none →
    ((s.ctx part ctx).rate = 0 → exec (.meteredRequestAdmit slice part ctx) s = .next s) ∧
    ((s.ctx part ctx).rate ≠ 0 → 0 < s.bucket slice (ctxKey part ctx) →
      ∃ t, exec (.meteredRequestAdmit slice part ctx) s = .next t ∧ t.bucket slice (ctxKey part ctx) = s.bucket slice (ctxKey part ctx) - 1 ∧ { t with units := { t.units with tokens := s.units.tokens } } = s) ∧
    ((s.ctx part ctx).rate ≠ 0 → s.bucket slice (ctxKey part ctx) = 0 → s.lender slice part ctx = none →
      ∃ t, exec (.meteredRequestAdmit slice part ctx) s = .next t ∧ t.units = { s.units with metered := s.units.metered ++ [(slice, part, ctx)] } ∧ { t with units := s.units } = s)) ∧
  (∀ (part ctx : Nat) (s : State) (h : Group), let x := s.ctx part ctx
    x.wdog ≠ 0 → x.wdog ≤ x.wdogCnt → x.progress = false → s.idle part ctx = true → s.ctxGroups part ctx = [h] → h.st ≠ .launching → h.left ≠ .launching → h.st ≠ .parked → h.st ≠ .preempted →
    let r : FaultRec := { code := 0x18, async := true, replay := 0, pc := h.pc, word0 := h.word0, word1 := h.word1.getD 0, lit := h.word1.isSome, addr := 0, done := 0 }
    s.Steps ((((s.setCtx part ctx { x with wdogCnt := 0 }).withdraw h.uid).takeAsync h.uid r).docket 6 0x18 h.core part ctx (leBytes 8 1)) (.watchdogFire part ctx)) ∧
  (∀ (part ctx : Nat) (s : State), let x := s.ctx part ctx
    (x.wdog = 0 ∨ x.wdogCnt < x.wdog ∨ x.progress = true ∨ s.idle part ctx = false) → s.mem.bad = none → exec (.watchdogFire part ctx) s = .next s) ∧
  ∀ (port peer rqid b f : Nat) (s : State), port < Config.ports → (s.port port).down = false → s.plat.stuck = false → rqid < 65536 → s.mem.bad = none →
    (∀ gidx, ∃ t, exec (.summaryExchange port peer [(65536 + gidx, b, f)]) s = .next t ∧
      t.work.msgs = s.work.msgs ++ [⟨s.sched.window, 272 + port, .doorbell (s.graphPart gidx) gidx b (BitVec.ofNat 64 f)⟩] ∧ { t with work := { t.work with msgs := s.work.msgs } } = s) ∧
    (∃ t, exec (.summaryExchange port peer [(rqid, b, f)]) s = .next t ∧ t.work.msgs = s.work.msgs ++ [⟨s.sched.window, 272 + port, .remote peer rqid b f⟩] ∧ { t with work := { t.work with msgs := s.work.msgs } } = s) ∧
    ∀ (n m : Nat) (gr : Graph) (e : QueueEnt) (q : Queue), gr ∈ s.tabs.graphs → e ∈ gr.queues → e.kind = 3 → e.peer = peer → e.rqid = rqid → s.queue? gr.gidx e.qid = some q →
      (s.applyMsg ⟨n, m, .remote peer rqid b f⟩).queue? gr.gidx e.qid = some { q with remoteB := b, remoteF := f, remoteSent := 0, changed := true }

/-- The steps of a launch: each output home reserves EMIT places or refuses, the input home gives up to 32 records a group, the range home a block number, and the core admits the block once all have answered, or gives every grant back. A group whose records stand in registers, at its operating point, becomes ready. A block whose groups have retired commits its records, and once it is settled leaves the machine. -/
def Obligations.LaunchSteps : Prop :=
  (∀ (n : Nat) (s : State) (a : Attempt) (gr : Graph) (st : StageEnt) (h : Header) (q : Queue) (e : QueueEnt), s.attempt? n = some a → a.id = n → s.attemptStage a = some (gr, st, h) → a.refused = false → a.phase < h.nout →
    s.queue? a.gidx (h.outq.getD a.phase 0) = some q → s.queueEnt a.gidx (h.outq.getD a.phase 0) = some e → s.mem.bad = none →
    (h.emit.getD a.phase 0 ≤ q.free e → ∃ t, exec (.emitReservationRequest n) s = .next t ∧ t.attempt? n = some { a with phase := a.phase + 1, granted := a.granted ++ [(h.outq.getD a.phase 0, h.emit.getD a.phase 0, s.sched.window)] } ∧
      t.queue? a.gidx (h.outq.getD a.phase 0) = some { q with resv := q.resv + h.emit.getD a.phase 0, changed := true }) ∧
    (q.free e < h.emit.getD a.phase 0 → ∃ t, exec (.emitReservationRequest n) s = .next t ∧ t.attempt? n = some { a with refused := true } ∧ t.work.queues = s.work.queues)) ∧
  (∀ (n : Nat) (s : State) (a : Attempt) (gr : Graph) (st : StageEnt) (h : Header), s.attempt? n = some a → a.id = n → s.attemptStage a = some (gr, st, h) → a.refused = false → h.nout ≤ a.phase →
    (h.inq ≠ 0xFFFF → a.popped = none →
      let r := s.popRecs a.gidx h.inq (32 * h.groups)
      s.Steps (r.2.putAttempt { a with popped := some r.1, refused := r.1.isEmpty, taken := s.sched.window }) (.launchPopRequest n)) ∧
    (∀ r b, h.inq = 0xFFFF → a.block = none → s.range? a.gidx a.stage = some r → r.peek = some b → s.mem.bad = none →
      ∃ t, exec (.rangeBlockRequest n) s = .next t ∧ t.attempt? n = some { a with block := some b, taken := s.sched.window } ∧ t.range? a.gidx a.stage = some { r.take with changed := true }) ∧
    (∀ r, h.inq = 0xFFFF → a.block = none → s.range? a.gidx a.stage = some r → r.peek = none → s.mem.bad = none → ∃ t, exec (.rangeBlockRequest n) s = .next t ∧ t.attempt? n = some { a with refused := true })) ∧
  (∀ (n : Nat) (place : List Nat) (s : State) (a : Attempt) (gr : Graph) (st : StageEnt) (h : Header), s.attempt? n = some a → s.attemptStage a = some (gr, st, h) →
    (a.refused = true → s.Steps (s.endAttempt a) (.launchConfirmation n place)) ∧
    (a.refused = false → h.nout ≤ a.phase → (if h.inq = 0xFFFF then a.block.isSome else a.popped.isSome) = true →
      let again := match a.block with
        | some b => b.1 != 0 || b.2.2 != 0
        | none => (a.popped.getD []).any fun r => r.fails != 0
      let plan := s.plan false gr.part h a.core a.slot a.id place
      let paid := if again then some s else s.takeQuota gr.part gr.ctx 1
      (∀ spots u, plan = some spots → paid = some u → s.Steps ((u.admitLaunch a gr st h spots 1).evalTurn a.core (u.work.evalWait.length + 1)) (.launchConfirmation n place)) ∧
      (plan = none ∨ paid = none → s.Steps (s.endAttempt a) (.launchConfirmation n place)))) ∧
  (∀ (uid : Nat) (s : State) (h : Group), s.group? uid = some h → h.st = .launching → h.record = [] → h.hint ≤ (s.cluster h.cluster).point → (s.quad h.quad).released = true → h.stopping = false → (s.part h.part).st = .active → s.mem.bad = none →
    ∃ t x, exec (.groupLaunchComplete uid) s = .next t ∧ t.group? uid = some x ∧ x = { h with st := .ready, wait := .none } ∧ s.SameMemory t) ∧
  (∀ (blk : Nat) (s : State) (b : Block), s.block? blk = some b → s.blockDone b = true → b.groups ≠ [] →
    s.Steps (s.settleBlock b) (.recordCommit blk) ∧
    (b.resv = [] → b.tent = [] → b.heldRecs = [] →
      let v := b.groups.foldl State.dropGroup (s.freeBlockHandles b)
      let down := b.join.toList.map fun j => (b.part, b.ctx, j, b.faulted, b.killed)
      let w : State := { v with work := { v.work with blocks := v.work.blocks.filter fun x => x.id != blk }, units := { v.units with decrements := v.units.decrements ++ down } }
      s.Steps ((w.returnQuota b.part b.ctx b.quotaOf).evalSlots (b.cores.zip b.slots)) (.blockRetirement blk))) ∧
  ∀ (gidx stage inst no fails : Nat) (s : State) (r : RangeState), (s.work.pending.find? fun o => o.1 == gidx && o.2.1 == stage && o.2.2.1 == inst && o.2.2.2.1 == no) = some (gidx, stage, inst, no, fails) →
    s.range? gidx stage = some r → s.mem.bad = none →
    ∃ t, exec (.restartOffer gidx stage inst no) s = .next t ∧ t.range? gidx stage = some { r with offered := r.offered ++ [(inst, no, fails)], changed := true }

/-- `ckpt` numbers a checkpoint and stops the partition's groups, or answers 0 while one is in progress; `ckstat` answers a status; a checkpoint completes once every group is saved. Pre-emption stops a group, whose save leaves it PREEMPTED with its registers as they were, and its restore puts it in a slot under its next generation; parking and its restore; a killed group is retired. Registers come back from the group's own state (log 45), saved accesses translate anew (log 82), page tables at a checkpoint stay in place (log 86), and a group parks with its region open (log 104). -/
def Obligations.SavedStateSteps : Prop :=
  (∀ (f : FForm) (w : Word) (s : State), wordOf (.ckpt f) = some w → s.g.ccc = false →
    let ex : Extra := { illegal := f.a != 0 }
    s.executes w ex = true →
    let b := s.begun w ex
    let x := s.part s.g.part
    (∀ k, s.inProgress s.g.part = some k → ∃ t, exec (.ckpt f) s = .next t ∧ WordDone s t w ex { s.g.aged with k := t.g.k } (w.next s.g.pc) (w.stall + 1) ∧ s.g.SameK t.g [f.d.toNat] ∧
      (f.d ≠ 0 → ∀ d, s.g.dist + w.lat ≤ d → t.g.kAt d f.d.toNat = 0)) ∧
    (s.inProgress s.g.part = none → ∃ t, exec (.ckpt f) s = .next t ∧ (t.part s.g.part).ckNext = x.ckNext + 1 ∧ t.plat.ckpts = s.plat.ckpts ++ [Checkpoint.start s.g.part x.ckNext] ∧ t.g.stopping = true ∧
      t.g.pc = w.next s.g.pc ∧ (f.d ≠ 0 → ∀ d, s.g.dist + w.lat ≤ d → t.g.kAt d f.d.toNat = BitVec.ofNat 64 x.ckNext) ∧
      (t.groups.map fun h => { h with st := .free }) = (b.groups.map fun h => if h.part = s.g.part ∧ h.uid ≠ s.g.uid then h.stop else h).map fun h => { h with st := .free })) ∧
  (∀ (f : FForm) (w : Word) (s : State), wordOf (.ckstat f) = some w → s.executes w {} = true → s.g.ccc = false →
    let st := ((s.plat.ckpts.find? fun k => k.part == s.g.part && k.num == (s.g.readK f.a.toNat).toNat).map Checkpoint.status).getD 0
    ∃ t, exec (.ckstat f) s = .next t ∧ ControlDone s t w {} (BitVec.ofNat 64 st)) ∧
  (∀ (p : Nat) (s : State) (k : Checkpoint), s.inProgress p = some k → s.ckptQuiet p = true → s.standing p = none →
    let c := ((s.work.attempts.filter fun a => (s.partGraphs p).contains a.gidx).foldl State.returnGrants s).cleanPart p
    let v := (c.markCow p).sweepPart p
    let u := v.putCkpt (v.recordCkpt k)
    (c.alarmed = false → v.alarmed = false → v.standing p = none → s.Steps (u.setPart p { u.part p with ckpt := k.num }) (.checkpointComplete p)) ∧ (c.alarmed = true → s.Steps c (.checkpointComplete p)) ∧
    (c.alarmed = false → v.alarmed = true → s.Steps v (.checkpointComplete p))) ∧
  (∀ (uid : Nat) (s : State) (h : Group), s.group? uid = some h → h.canStop = true → h.inreg = false → h.wait = .none → s.mem.bad = none → h.st ≠ .waitAlloc →
    ∃ t, exec (.preemption uid) s = .next t ∧ t.group? uid = some { h with stopping := true } ∧ t.mem = s.mem) ∧
  (∀ (uid : Nat) (s : State) (h : Group), s.group? uid = some h → h.saveReady = true → h.inreg = false → h.wait = .none → h.st ≠ .parked → s.mem.bad = none →
    let at_ := s.freeRecord h
    let area := (s.ctx h.part h.ctx).save.toNat + Config.saveRecordBytes * at_
    area + Config.saveRecordBytes ≤ Config.hbmBytes →
    ∃ t x, exec (.preemptionSave uid) s = .next t ∧ t.group? uid = some x ∧ x.st = .preempted ∧ x.left = h.st ∧ x.saveAt = some at_ ∧ x.tiles = [] ∧ x.stopping = false ∧
      (x.v, x.k, x.m, x.m0, x.mode, x.gens, x.pc, x.paths) = (h.v, h.k, h.m, h.m0, h.mode, h.gens, h.pc, h.paths) ∧
      leNat (t.peek ⟨.hbm, area⟩ 8) = h.pc.toNat ∧ leNat (t.peek ⟨.hbm, area + 8⟩ 8) = h.mode.toNat ∧ leNat (t.peek ⟨.hbm, area + 0x100⟩ 4) = h.m0.toNat) ∧
  (∀ (uid core slot : Nat) (s : State) (h : Group), s.group? uid = some h → s.canRestore h core slot = true → h.wait = .none → h.left ≠ .launching → (∀ q ∈ h.reqs, q.kind = .exchange ∨ ∀ e ∈ q.elems, e.done = true) → s.mem.bad = none →
    let awake : SlotState := if h.sup then .handler else .ready
    let v := h.v.map fun (e : Nat × VReg) => (e.1, { e.2 with pooled := !h.isFloor e.1 })
    let fits := (s.withdraw uid).poolHolds (4 * core + slot / 48) uid ({ h with v := v } : Group).spilled
    (fits = true → ∃ t x, exec (.restore uid core slot) s = .next t ∧ t.group? uid = some x ∧ x.st = awake ∧ (x.core, x.slot, x.gen) = (core, slot, h.gen + 1) ∧ x.saveAt = none ∧
      (x.v, x.k, x.m, x.m0, x.mode, x.gens, x.pc, x.paths) = (v, h.k, h.m, h.m0, h.mode, h.gens, h.pc, h.paths) ∧ x.pendTiles = h.pendTiles.filter (fun n => !s.mem.tileVerified n) ∧
      (∀ c ∈ t.mem.l1, c.core = core → c.part = h.part → c.ctx ≠ h.ctx) ∧ s.SameMemory t) ∧
    (fits = false → ∀ t, exec (.restore uid core slot) s = .next t → ∃ x, t.group? uid = some x ∧ x.st = .parked ∧ x.left = awake)) ∧
  (∀ (quad : Nat) (s : State), let gs := s.quadGroups quad
    ((∃ h ∈ gs, h.st ∈ [SlotState.ready, .handler, .waitStall, .waitCounter, .waitBatch]) ∨ (∀ h ∈ gs, h.wantsRegs = false) → s.mem.bad = none → exec (.park quad) s = .next s) ∧
    ∀ h, gs = [h] → h.st = .waitAlloc → h.spilled ≠ [] → (s.spill h).mem.bad = none →
      ∃ t x, exec (.park quad) s = .next t ∧ t.group? h.uid = some x ∧ x.st = .parked ∧ x.left = .waitAlloc ∧ (s.spill h).SameMemory t) ∧
  (∀ (uid : Nat) (s : State) (h : Group), s.group? uid = some h → h.st = .parked → (∀ x ∈ s.quadGroups h.quad, x.wantsRegs = false) → s.poolHolds h.quad uid h.spilled = true →
    h.left ≠ .waitAlloc → h.left ≠ .free → h.wait ≠ .other →
    let u := h.spilled.foldl (fun (t : State) n => match t.spillPlace h h.spillAt .read n with
      | (some _, t) => t
      | (none, t) => t.alarm (.hwError h.part (some h.quad))) s
    u.mem.bad = none →
    ∃ t x, exec (.parkedRestore uid) s = .next t ∧ t.group? uid = some x ∧ x.st = h.left ∧ x.lastPage = [] ∧ (x.v, x.k, x.m, x.m0, x.mode, x.gens, x.pc, x.paths) = (h.v, h.k, h.m, h.m0, h.mode, h.gens, h.pc, h.paths) ∧ u.SameMemory t) ∧
  ∀ (uid : Nat) (s : State) (h : Group), s.group? uid = some h → h.ccc = false → h.st ≠ .free → h.st ≠ .retired → h.st ≠ .preempted → (s.allGroups.all fun x => (brokenBy h x).isNone) = true → s.mem.bad = none →
    ∃ t, exec (.kill uid) s = .next t ∧ t.RetiredGroup h ∧ s.SameMemory t

/-- Forwarding and rings: a port sends the best pair's batch against its credit, an arriving batch commits with the credit it used, an acknowledgement releases what was sent, credit comes in batches of 32, a port stops and starts, and a lost link returns what was not acknowledged. A shelf's head record moves to the segment; a doorbell sets the index of a ring of its partition, and a reset ring runs again with w = r. The model's own are ring addresses (log 19), routes (log 54), the naming of rings (log 60), shelf places (log 88), the naming of pairs (log 90), records re-queued at a reset (log 91) and the WEIGHT of a peer's stage (log 92). -/
def Obligations.ForwardingAndRings : Prop :=
  (∀ (gidx qid : Nat) (s : State) (q : Queue) (e : QueueEnt), s.queue? gidx qid = some q → s.queueEnt gidx qid = some e → s.mem.bad = none →
    ((e.kind = 0 ∨ e.kind = 3) → q.segUsed < e.segcap → 
      (q.recs.find? Rec.shelf = none → exec (.shelfRefill gidx qid) s = .next s) ∧
      ∀ r, q.recs.find? Rec.shelf = some r →
        let x := s.ringLoad (s.graphPart gidx) (e.shelfPlace r.place) e.rsize
        x.2.mem.bad = none → ∃ t, exec (.shelfRefill gidx qid) s = .next t ∧ t.queue? gidx qid = some { q with recs := unshelve x.1 q.recs } ∧ s.SameMemory t ∧ x.2.OnlyQueue t gidx qid) ∧
    (∀ peer, e.kind = 3 → e.peer = peer % 1024 → ∃ t, exec (.creditGrant gidx qid peer) s = .next t ∧ t.queue? gidx qid = some { q with cred := q.cred + 32 } ∧ s.OnlyQueue t gidx qid) ∧
    (∀ peer, e.kind = 0 → 32 ≤ q.free e → tget 0 q.granted peer < 64 → ∃ t, exec (.creditGrant gidx qid peer) s = .next t ∧ s.OnlyQueue t gidx qid ∧
      ∃ x, t.queue? gidx qid = some x ∧ x.resv = q.resv + 32 ∧ tget 0 x.granted peer = tget 0 q.granted peer + 32 ∧ x.recs = q.recs) ∧
    (∀ peer, e.kind = 0 → q.free e < 32 ∨ 64 ≤ tget 0 q.granted peer → exec (.creditGrant gidx qid peer) s = .next s) ∧
    (∀ n, e.kind ≠ 1 → ∃ t, exec (.forwardAck gidx qid n) s = .next t ∧ s.OnlyQueue t gidx qid ∧ ∃ x, t.queue? gidx qid = some x ∧ x.sent = q.sent.drop n ∧ x.held = q.held - (q.sent.take n).length ∧ x.recs = q.recs) ∧
    (∀ peer r i, e.kind = 0 → 1 ≤ tget 0 q.granted peer → r.length = e.rsize → q.popWait = [] → e.segcap ≤ q.segUsed → s.shelfFree q e = some i →
      let u := s.ringStore (s.graphPart gidx) (e.shelfPlace i) r
      u.mem.bad = none → ∃ t x, exec (.forwardBatchArrival gidx qid peer [r]) s = .next t ∧ t.queue? gidx qid = some x ∧ x.recs = q.recs ++ [{ acc := q.nextAcc, data := r, shelf := true, place := i }] ∧ u.SameMemory t) ∧
    ∀ peer rs, e.kind = 0 → rs.length ≤ tget 0 q.granted peer → (∀ r ∈ rs, r.length = e.rsize) → q.popWait = [] → q.recs.any Rec.shelf = false → q.segUsed + rs.length ≤ e.segcap →
      let u := rs.foldl (fun (t : State) r => t.commitRec gidx qid { acc := 0, data := r }) (s.putQueue { q with granted := tput q.granted peer (tget 0 q.granted peer - rs.length) })
      u.mem.bad = none → ∃ t x, exec (.forwardBatchArrival gidx qid peer rs) s = .next t ∧ t.queue? gidx qid = some x ∧ x.recs.map Rec.data = q.recs.map Rec.data ++ rs ∧ tget 0 x.granted peer = tget 0 q.granted peer - rs.length ∧ x.resv = q.resv - rs.length) ∧
  (∀ (port : Nat) (s : State) (gr : Graph) (e : QueueEnt) (q : Queue), port < Config.ports → s.plat.device.isSome = true → (s.port port).xoff = false → (s.port port).down = false → s.tabs.graphs = [gr] → (gr.queues.filter fun x => x.kind == 3) = [e] → gr.queue? e.qid = some e →
    s.queue? gr.gidx e.qid = some q → 1 ≤ q.backlog e → 1 ≤ q.cred → q.remoteB + q.remoteSent < q.backlog e → 1 ≤ s.forwardWeight gr e → q.halted = false →
    let n := min (min 32 q.cred) q.recs.length
    let r := s.popRecs gr.gidx e.qid (min 32 q.cred)
    r.2.mem.bad = none →
    ∃ t x, exec (.forwardBatchSend port) s = .next t ∧ t.queue? gr.gidx e.qid = some x ∧ x.sent = q.sent ++ r.1 ∧ r.1.map Rec.acc = (q.recs.take n).map Rec.acc ∧ x.recs = q.recs.drop n ∧ x.cred = q.cred - n ∧ x.remoteSent = q.remoteSent + n ∧ s.SameMemory t ∧
      ((∀ y ∈ q.recs.take n, y.shelf = false) → r.1 = q.recs.take n ∧ s.OnlyQueue t gr.gidx e.qid)) ∧
  (∀ (port : Nat) (s : State), s.plat.stuck = false → s.mem.bad = none →
    (port < Config.ports → ∃ t, exec (.xoff port) s = .next t ∧ s.OnlyPort t port ∧ t.port port = { s.port port with xoff := true }) ∧
    (port < Config.ports → ∃ t, exec (.xon port) s = .next t ∧ s.OnlyPort t port ∧ t.port port = { s.port port with xoff := false }) ∧
    (Config.ports ≤ port → exec (.xoff port) s = .next s ∧ exec (.xon port) s = .next s) ∧
    ∀ peer, port < 18 → s.tabs.graphs = [] → (∀ h ∈ s.allGroups, h.ops = []) → ∃ t, exec (.linkLoss port peer) s = .next t ∧ s.OnlyPort t port ∧ (t.port port).down = true) ∧
  (∀ (port peer : Nat) (s : State) (gr : Graph) (e : QueueEnt) (q : Queue), port < 18 → s.tabs.graphs = [gr] → gr.queues = [e] → e.kind = 3 → e.peer = peer → s.queue? gr.gidx e.qid = some q → q.popWait = [] → (∀ h ∈ s.allGroups, h.ops = []) → s.plat.stuck = false → s.mem.bad = none →
    ∃ t x, exec (.linkLoss port peer) s = .next t ∧ (t.port port).down = true ∧ t.queue? gr.gidx e.qid = some x ∧ x.sent = [] ∧ x.cred = 0 ∧ x.recs = q.sent.foldl (fun l r => insertRec r l) q.recs) ∧
  (∀ (vf pn : Nat) (bytes : List Byte) (s : State), s.vfPart vf = some pn → bytes.length = 16 → natAt bytes 4 4 = 0 → s.mem.bad = none →
    natAt bytes 0 2 = 0xFFFF ∧ natAt bytes 2 2 = 0xFFFF ∨ (∃ g e, s.graph? (natAt bytes 0 2) = some g ∧ g.part = pn ∧ g.queue? (natAt bytes 2 2) = some e ∧ (e.kind = 1 ∨ e.kind = 2)) →
    ∃ t, exec (.doorbell vf bytes) s = .next t ∧ { t with work := { t.work with msgs := s.work.msgs } } = s ∧
      t.work.msgs = s.work.msgs ++ [⟨s.sched.window, 290, .doorbell pn (natAt bytes 0 2) (natAt bytes 2 2) (BitVec.ofNat 64 (natAt bytes 8 8))⟩]) ∧
  (∀ (n m pn gidx qid : Nat) (x : W64) (s : State) (q : Queue) (e : QueueEnt), gidx ≠ 0xFFFF → s.queue? gidx qid = some q → s.queueEnt gidx qid = some e → q.halted = false → q.popWait = [] →
    (e.kind = 1 → q.r.toNat ≤ x.toNat → x.toNat - q.r.toNat ≤ e.cap → (s.applyMsg ⟨n, m, .doorbell pn gidx qid x⟩).queue? gidx qid = some { q with w := x, changed := true }) ∧
    (e.kind = 2 → x.toNat ≤ q.w.toNat → q.w.toNat - x.toNat ≤ e.cap → (s.applyMsg ⟨n, m, .doorbell pn gidx qid x⟩).queue? gidx qid = some { q with r := x, changed := true })) ∧
  (∀ (vf : Nat) (bytes : List Byte) (s : State), s.vfPart vf = none → s.mem.bad = none → exec (.doorbell vf bytes) s = .next s) ∧
  ∀ (r : MgmtReq) (gidx qid : Nat) (x : W64) (s : State) (q : Queue) (e : QueueEnt), s.accepts r = true → gidx ≠ 0xFFFF → s.queue? gidx qid = some q → s.queueEnt gidx qid = some e → q.waitCommit = [] → q.popWait = [] → s.mem.bad = none →
    (q.halted = false → exec (.ringReset r gidx qid x) s = .next s) ∧
    (q.halted = true → (s.resetRing gidx qid x).mem.bad = none →
      ∃ t y, exec (.ringReset r gidx qid x) s = .next t ∧ t.queue? gidx qid = some y ∧ y.halted = false ∧ y.w = x ∧ y.r = x ∧ y.recs = [] ∧ y.ringPop = x.toNat)

/-- A management operation that is not the owner's, or whose EPOCH is stale, is answered NOT_OWNER and changes nothing else. The owner's settings change the entry they name and nothing else: a context's, a partition's, a cluster's cap, the hotness thresholds, a replica policy, a collective, the staged image, the way mask, the keys. A new way mask stands from the window's close; a re-keying pauses the partition and then rewrites its tiles. -/
def Obligations.ManagementRequests : Prop :=
  (∀ (i : Instr) (q : MgmtReq) (s : State), mgmtOf i = some q → s.accepts q = false → (∀ r p a k, i = .rekey r p a k → (s.part p).rekeying = none) →
    (∀ r p ph, i = .liveMigration r p ph → s.plat.migrating = none ∧ (ph = .start ∨ ph = .finish ∧ s.plat.transit.any (fun m => m.part == p) = true)) → s.mem.bad = none →
    (s.ran 3 = true → ∃ t, exec i s = .next t ∧ s.OnlyPlat t ∧ t.plat = { s.plat with refusals := s.plat.refusals ++ [q.sender] }) ∧ (s.ran 3 = false → exec i s = .next s)) ∧
  (∀ (i : Instr) (q : MgmtReq) (p x : Nat) (s : State) (c : Context), mgmtOf i = some q → settingOf i (s.ctx p x) = some (p, x, true, c) → s.maySet q p x = true → s.mem.bad = none →
    ∃ t, exec i s = .next t ∧ t.ctx p x = c ∧ s.OnlyCtx t p x) ∧
  (∀ (q : MgmtReq) (p : Nat) (b : Bool) (s : State), s.mayChange q p = true → s.mem.bad = none → ∃ t, exec (.setLend q p b) s = .next t ∧ t.part p = { s.part p with lendSet := some b } ∧ s.OnlyPart t p) ∧
  (∀ (q : MgmtReq) (cl : Nat) (cap : BitVec 3) (s : State), s.accepts q = true → cl < Config.clusters → s.mem.bad = none → ∃ t, exec (.setOperatingCap q cl cap) s = .next t ∧
    t.cluster cl = { s.cluster cl with cap := cap.toNat, point := min (s.cluster cl).point cap.toNat } ∧ (∀ c, c ≠ cl → t.cluster c = s.cluster c) ∧ ((s.cluster cl).point ≤ cap.toNat → s.OnlyCluster t cl) ∧
    (cap.toNat < (s.cluster cl).point → ∀ k, 32 * cl ≤ k → k < 32 * cl + 32 → (t.quad k).released = false)) ∧
  (∀ (q : MgmtReq) (hotw hotr : W16) (s : State), s.accepts q = true → s.mem.bad = none → ∃ t, exec (.setHotnessThresholds q hotw hotr) s = .next t ∧ s.OnlyPlat t ∧ t.plat = { s.plat with hotw := hotw, hotr := hotr }) ∧
  (∀ (q : MgmtReq) (p x vpn : Nat) (remote : Bool) (s : State), s.accepts q = true → s.mem.bad = none → ∃ t, exec (.setReplicaPolicy q p x vpn remote) s = .next t ∧
    t.replica? p x vpn = (s.replica? p x vpn).map (fun r => { r with remote := remote }) ∧ (∀ p' x' v', ¬(p' = p ∧ x' = x ∧ v' = vpn) → t.replica? p' x' v' = s.replica? p' x' v') ∧ { t with tabs := { t.tabs with replicas := s.tabs.replicas } } = s) ∧
  (∀ (q : MgmtReq) (coll : W16) (ms : List (Nat × List Nat)) (s : State), s.accepts q = true → (∀ h ∈ s.allGroups, ∀ o ∈ h.ops, o.cls = 3 → o.coll = coll.toNat → o.ended = true) → ascending (ms.map Prod.fst) = true → (∀ m ∈ ms, m.1 < 1024) → treeOk (ms.map Prod.snd) = true → s.mem.bad = none →
    ∃ t, exec (.configureCollective q coll ms) s = .next t ∧ s.OnlyPlat t ∧ t.collMembers coll.toNat = ms ∧ ∀ c, c ≠ coll.toNat → t.collMembers c = s.collMembers c) ∧
  (∀ (q : MgmtReq) (image : BootImage) (s : State), s.accepts q = true → s.mem.bad = none → ∃ t, exec (.firmwareUpdate q image) s = .next t ∧ s.OnlyPlat t ∧ t.plat = { s.plat with staged := (s.plat.staged.filter fun x => x.index != image.index) ++ [image] }) ∧
  (∀ (q : MgmtReq) (p : Nat) (ways : W16) (resq : BitVec 4) (s : State), s.mayChange q p = true → s.mem.bad = none → ∃ t, exec (.l2WayMaskChange q p ways resq) s = .next t ∧ t.part p = { s.part p with waysSet := some (ways, resq) } ∧ s.OnlyPart t p) ∧
  (∀ (p : Nat) (ways : W16) (resq : BitVec 4) (s : State), (s.part p).waysSet = some (ways, resq) → s.SameMemory (s.takeWays p) ∧ (s.takeWays p).part p = { s.part p with l2ways := ways, resq := resq, waysSet := none } ∧
    ∀ e ∈ (s.takeWays p).mem.l2, s.frameOwner (e.1 / 512) = some p → ((s.part p).l2ways &&& ~~~ways).getLsbD e.2.way = false) ∧
  (∀ (q : MgmtReq) (p : Nat) (aes kmac : BitVec 256) (s : State), s.accepts q = true → s.live p = true → (s.part p).rekeying = none → s.mem.bad = none →
    ∃ t, exec (.rekey q p aes kmac) s = .next t ∧ t.part p = { s.part p with st := .paused, keySt := 2, rekeying := some (aes, kmac, (s.part p).st) } ∧ s.OnlyPart t p) ∧
  (∀ (q : MgmtReq) (p : Nat) (aes kmac a b : BitVec 256) (was : PartStatus) (s : State), (s.part p).rekeying = some (aes, kmac, was) → s.mem.bad = none →
    let back := { s.part p with st := was, keySt := 1, rekeying := none }
    let c := (s.setPart p back).cleanPart p
    let ts := c.heldTiles p
    (c.alarmed = true → s.Steps c (.rekey q p a b)) ∧
    (c.alarmed = false → (∀ x ∈ ts, c.tagOk x = true ∧ c.pathFault x = none) → ∃ t, exec (.rekey q p a b) s = .next t ∧ s.SameMemory t ∧ t.part p = { back with aes := aes, kmac := kmac, root := Config.rootAt p } ∧
      ∀ x ∈ ts, (c.part p).metaPlace x = none → (tget ({} : Tile) t.mem.tiles x).ver = 0) ∧
    (c.alarmed = false → (∃ x ∈ ts, c.tagOk x = false ∨ c.pathFault x ≠ none) → ∃ t, exec (.rekey q p a b) s = .next t ∧ s.SameMemory t ∧ t.part p = back ∧ t.mem.tiles = c.mem.tiles ∧ t.mem.alarms ≠ [] ∧
      ∀ x, (ts.find? fun x => !c.tagOk x) = some x → (∀ y ∈ ts, c.pathFault y = none) → Alarm.integrity p x (c.tileLevel p x) ∈ t.mem.alarms)) ∧
  (∀ (q : MgmtReq) (p : Nat) (s : State), s.live p = true → s.mem.bad = none →
    (s.accepts q = true → s.plat.migrating = none → (s.part p).st = .active → ∃ t, exec (.liveMigration q p .start) s = .next t ∧ t.plat.migrating = some (p, 1) ∧ t.mem.dirtyMap = []) ∧
    (∀ n, s.plat.migrating = some (p, n) →
      (∃ t, exec (.liveMigration q p .precopy) s = .next t ∧ ∀ f ∈ t.mem.dirtyMap, f ∈ s.mem.dirtyMap ∧ s.frameOwner f ≠ some p) ∧
      (∃ t, exec (.liveMigration q p .quiesce) s = .next t ∧ t.mem = s.mem ∧ (∀ h ∈ t.groups, h.part = p → h.ccc = false → h.stopping = true ∨ h.st = .preempted ∨ h.st = .retired ∨ h.st = .free) ∧
        ((∀ h ∈ s.allGroups, h.part = p → h.st = .preempted ∨ h.st = .retired) → (t.part p).st = .paused ∧ t.plat.migrating = some (p, 3)))) ∧
    (s.plat.migrating = some (p, 3) → s.ckptQuiet p = true →
      let c := ((s.work.attempts.filter fun a => (s.partGraphs p).contains a.gidx).foldl State.returnGrants s).cleanPart p
      let u := (c.destroy p).clearHot
      (c.alarmed = true → s.Steps c (.liveMigration q p .finish)) ∧
      (c.alarmed = false → s.Steps { u with plat := { u.plat with transit := u.plat.transit ++ [c.migrant p] } } (.liveMigration q p .finish)))) ∧
  (∀ (q : MgmtReq) (p : Nat) (s : State) (m : Migrant), s.accepts q = true → s.plat.migrating = none → (s.plat.transit.find? fun m => m.part == p) = some m → s.canTakeUp m = true →
    s.Steps (({ s with plat := { s.plat with transit := s.plat.transit.filter fun x => x.part != p } } : State).takeUp m) (.liveMigration q p .finish)) ∧
  (∀ (vf p pa : Nat) (data : List Byte) (s : State), s.vfPart vf = some p → pa + data.length ≤ Config.hbmBytes → (∀ f, pa / 65536 ≤ f → 65536 * f < pa + data.length → s.frameOwner f = some p ∧ f ∉ (s.part p).metaFrames) → s.mem.bad = none →
    (∃ t, exec (.hostBar2Access vf (.bar2 pa) true data) s = .next t ∧ t.peek ⟨.hbm, pa⟩ data.length = data ∧ s.SameBut t ⟨.hbm, pa⟩ data.length) ∧
    ∃ t x, exec (.hostBar2Access vf (.bar2 pa) false data) s = .next t ∧ t.plat.replies = s.plat.replies ++ [x] ∧ x.length = data.length ∧ s.SameMemory t ∧ (t.mem.alarms = [] → x = s.peek ⟨.hbm, pa⟩ data.length)) ∧
  ∀ (vf n : Nat) (s : State), s.mem.bad = none →
    (∀ p, s.vfPart vf = some p → ∃ t, exec (.hostBar2Access vf (.bar0 0x18) false (List.replicate 8 0)) s = .next t ∧ s.OnlyPlat t ∧ t.plat.replies = s.plat.replies ++ [leBytes 8 (s.part p).time.toNat]) ∧
    ∀ at_, s.vfPart vf = none → exec (.hostBar2Access vf at_ true (List.replicate n 0)) s = .next s ∧
      ∃ t, exec (.hostBar2Access vf at_ false (List.replicate n 0)) s = .next t ∧ s.OnlyPlat t ∧ t.plat.replies = s.plat.replies ++ [List.replicate n 0xFF]

/-- Ownership: the lowest code claims a device without an owner, the owner proposes a successor, who acknowledges within a second or not at all, and a lost channel leaves no owner; each change advances EPOCH. A created partition owns scrubbed quadrants and zeroed frames; a destroyed one holds nothing. Contexts are created and destroyed, graphs installed and removed, quadrants released, operating points changed, hardware errors and interfaces in error stop their partitions, and a reset leaves what State.reset says, with the images that pass run. The model's own are the checks of log 61, metadata frames (log 80), ROOT (log 93) and the fused minimum (log 94). -/
def Obligations.PlatformSteps : Prop :=
  (∀ (claims : List (BitVec 3)) (c : BitVec 3) (s : State), s.ran 3 = true → s.plat.owner = 0 → c ∈ claims → 1 ≤ c → c ≤ 3 → (∀ d ∈ claims, 1 ≤ d → c ≤ d) → s.mem.bad = none →
    ∃ t, exec (.ownershipClaim claims) s = .next t ∧ s.OnlyPlat t ∧ t.plat = { s.plat with owner := c, ownerNext := 0, handover := none, epoch := s.plat.epoch + 1 }) ∧
  (∀ (s : State), s.mem.bad = none →
    (∀ q next, s.accepts q = true → 1 ≤ next → next ≤ 3 → next ≠ s.plat.owner → ∃ t, exec (.ownerNextWrite q next) s = .next t ∧ s.OnlyPlat t ∧ t.plat = { s.plat with ownerNext := next, handover := some s.sched.window }) ∧
    (∀ w, s.plat.handover = some w → s.sched.window ≤ w + secondWindows → ∃ t, exec (.handoverAck s.plat.ownerNext) s = .next t ∧ s.OnlyPlat t ∧ t.plat = { s.plat with owner := s.plat.ownerNext, ownerNext := 0, handover := none, epoch := s.plat.epoch + 1 }) ∧
    (∀ w c, s.plat.handover = some w → c ≠ s.plat.ownerNext ∨ w + secondWindows < s.sched.window → exec (.handoverAck c) s = .next s) ∧
    (∀ w, s.plat.handover = some w → w + secondWindows ≤ s.sched.window → ∃ t, exec .handoverTimeout s = .next t ∧ s.OnlyPlat t ∧ t.plat = { s.plat with ownerNext := 0, handover := none }) ∧
    (s.plat.owner ≠ 0 → ∃ t, exec .ownerChannelLoss s = .next t ∧ s.OnlyPlat t ∧ t.plat = { s.plat with owner := 0, ownerNext := 0, handover := none, epoch := s.plat.epoch + 1 })) ∧
  (∀ (q : MgmtReq) (p : Nat) (x : PartSetup) (s : State), s.accepts q = true → s.canCreate p x = true → 64 ≤ x.evring.toNat → x.evring.toNat ≤ Config.hbmBytes → s.mem.bad = none →
    ∃ t, exec (.createPartition q p x) s = .next t ∧ (t.part p).st = .active ∧ (t.part p).quads = x.quads ∧ (t.part p).frames = x.pool ++ x.ckpool ++ x.metaFrames ∧ (t.part p).pool = x.pool ∧ (t.part p).vf = x.vf ∧
      (∀ p', p' ≠ p → t.part p' = s.part p') ∧ (∀ f ∈ x.pool ++ x.ckpool ++ x.metaFrames, ∀ a, a < 65536 → t.peek ⟨.hbm, 65536 * f + a⟩ 1 = [0]) ∧
      ∀ k ∈ x.quads, ∀ a, Config.spadRegion * (k % 4) ≤ a → a < Config.spadRegion * (k % 4) + Config.spadRegion → t.peek ⟨.spad (k / 4), a⟩ 1 = [0]) ∧
  (∀ (q : MgmtReq) (p : Nat) (s : State), s.accepts q = true → (s.part p).st ≠ .free → s.Steps (s.destroy p) (.destroyPartition q p) ∧ (s.destroy p).part p = {}) ∧
  (∀ (q : MgmtReq) (p c : Nat) (x : CtxSetup) (s : State), s.mayChange q p = true → c < Config.contexts → setupOk x = true → s.tablesFit p x = true → s.mem.bad = none →
    let pool := (s.part p).pool.filter fun f => !(setupFrames x).contains f
    let mode := x.mode &&& 0xFFFFFFFFFFFFFFF8
    ((s.ctx p c).st ≠ 0 → ∃ t, exec (.createContext q p c x) s = .next t ∧ t.part p = { s.part p with pool := pool } ∧ t.mem = s.mem ∧
      t.ctx p c = { ((s.ctx p c).withSetup x) with modeSet := some mode, iweightSet := some x.iweight, quotaSet := some (x.quota &&& 0x000000FFFFFFFFFF), wdogSet := some x.wdog, tokensSet := some (x.tokens &&& 0x00000000FFFFFFFF) }) ∧
    ((s.ctx p c).st = 0 → x.catbase.toNat + 262144 ≤ Config.hbmBytes → x.htbase.toNat + 32768 ≤ Config.hbmBytes →
      ∃ t, exec (.createContext q p c x) s = .next t ∧ t.part p = { s.part p with pool := pool } ∧
        t.ctx p c = { (({} : Context).withSetup x) with st := 1, tvec := x.tvec &&& 0x00FFFFFFFFFFF000, spill := x.spill &&& 0x00FFFFFFFFFF8000, mode := mode, iweight := x.iweight, quota := x.quota &&& 0x000000FFFFFFFFFF
                                                        wdog := x.wdog, tokens := x.tokens &&& 0x00000000FFFFFFFF } ∧
        (∀ a, x.catbase.toNat ≤ a → a < x.catbase.toNat + 262144 → t.peek ⟨.hbm, a⟩ 1 = [0]) ∧ ∀ a, x.htbase.toNat ≤ a → a < x.htbase.toNat + 32768 → t.peek ⟨.hbm, a⟩ 1 = [0])) ∧
  (∀ (q : MgmtReq) (p c : Nat) (s : State), s.maySet q p c = true →
    s.Steps (((s.allGroups.filter fun h => h.part == p && h.ctx == c && !h.ccc).map Group.uid).foldl State.discardGroup s |>.dropContexts p [c]) (.destroyContext q p c)) ∧
  (∀ (p c gidx : Nat) (va : W64) (places : List (Nat × Nat × Nat)) (s : State) (hd bs : List Byte) (g : Graph), s.live p = true → (s.ctx p c).st ≠ 0 → gidx < 0xFFFF → s.graph? gidx = none → s.imageBytes p c 2 va.toNat 32 = some hd →
    let n := 32 + 16 * natAt hd 2 2 + 32 * natAt hd 4 2
    s.imageBytes p c (n / 65536 + 2) va.toNat n = some bs → s.graphOf p c gidx va.toNat bs places = some g →
    let u := (g.queues.filter fun e => e.kind == 1 || e.kind == 2).foldl (fun (t : State) e => t.ringStore p (e.store - 64) (List.replicate 64 0)) s
    u.mem.bad = none →
    ∃ t, exec (.graphInstall p c va gidx places) s = .next t ∧ t.tabs.graphs = s.tabs.graphs ++ [g] ∧ (∀ e ∈ g.queues, Queue.fresh gidx e.qid ∈ t.work.queues) ∧ t.mem = u.mem ∧
      ∀ e ∈ g.queues, e.kind = 1 ∨ e.kind = 2 → u.mem.alarms = [] → u.peek (ringLoc (e.store - 64)) 64 = List.replicate 64 0) ∧
  (∀ (gidx : Nat) (s : State) (g : Graph), s.graph? gidx = some g → s.mem.bad = none →
    (s.graphIdle g = true → ∃ t, exec (.graphRemove gidx) s = .next t ∧ t.graph? gidx = none ∧ (∀ q, t.queue? gidx q = none) ∧ ∀ k, k ≠ gidx → t.graph? k = s.graph? k) ∧
    (s.graphIdle g = false → ∃ t, exec (.graphRemove gidx) s = .next t ∧ t.graph? gidx = some { g with st := 2 } ∧ t.work = s.work)) ∧
  (∀ (cl q : Nat) (s : State), cl < Config.clusters → s.plat.stuck = false → (((List.range 32).map fun i => 32 * cl + i).find? fun k => !(s.quad k).released) = some q → s.mem.bad = none →
    ∃ t, exec (.quadrantRelease cl) s = .next t ∧ s.OnlyQuad t q ∧ t.quad q = { s.quad q with released := true }) ∧
  (∀ (cl point : Nat) (s : State), cl < Config.clusters → s.plat.stuck = false → s.mem.bad = none → (s.cluster cl).point < point → point ≤ s.allowedPoint cl → min (s.cluster cl).hint (s.allowedPoint cl) ≤ point →
    ∃ t, exec (.operatingPointChange cl point) s = .next t ∧ t.cluster cl = { s.cluster cl with point := point } ∧ ∀ k, 32 * cl ≤ k → k < 32 * cl + 32 → (t.quad k).released = false) ∧
  (∀ (quad : Nat) (s : State), s.mem.bad = none → s.quadOwner quad = none → exec (.hwError quad) s = .next s) ∧
  (∀ (quad p : Nat) (s : State), s.quadOwner quad = some p →
    let struck := s.work.blocks.filter fun b => (s.quadGroups quad).any fun h => h.blk == b.id
    let why := docketBytes 5 0x19 (quad / 4) p 0 0 0 (leBytes 8 quad)
    (struck = [] ∨ (∃ b ∈ struck, b.hdr.restartable = false ∨ 3 ≤ b.failsNow) → s.Steps (s.rollback p [why]) (.hwError quad)) ∧
    (struck ≠ [] → (∀ b ∈ struck, b.hdr.restartable = true ∧ b.failsNow < 3) →
      let v := struck.foldl State.restartBlock (s.postDocket p why)
      let w := v.setPart p { v.part p with quads := (v.part p).quads.erase quad }
      let u := w.setQuad quad { w.quad quad with fenced := true }
      s.Steps (u.evalSlots (struck.flatMap fun b => b.cores.zip b.slots)) (.hwError quad) ∧ (u.quad quad).fenced = true ∧ (u.part p).quads = (v.part p).quads.erase quad ∧ ∀ b ∈ struck, u.block? b.id = none)) ∧
  (∀ (vf : Nat) (s : State), 1 ≤ vf → vf ≤ 40 → s.plat.stuck = false → s.mem.bad = none →
    (∀ p, ((s.tabs.parts.find? fun e => e.2.vf == vf && (e.2.st == .active || e.2.st == .paused)).map Prod.fst) = some p →
      let v := (({ s with plat := { s.plat with tdisp := tset .configUnlocked s.plat.tdisp vf .error } } : State).stopPart p).docket 8 0x0C 291 p 0 []
      let u := v.setPart p { v.part p with st := .lost, rekeying := none }
      s.Steps u (.ideIntegrityFailure vf) ∧ ((tget TdispState.configUnlocked s.plat.tdisp vf = .configLocked ∨ tget TdispState.configUnlocked s.plat.tdisp vf = .run) → s.Steps u (.tdispInterfaceRequest vf .error))) ∧
    ((∀ e ∈ s.tabs.parts, e.2.vf ≠ vf) → ∃ t, exec (.ideIntegrityFailure vf) s = .next t ∧ s.OnlyPlat t ∧ tget TdispState.configUnlocked t.plat.tdisp vf = .error) ∧
    (tget TdispState.configUnlocked s.plat.tdisp vf = .configUnlocked → ∃ t, exec (.tdispInterfaceRequest vf .configLocked) s = .next t ∧ s.OnlyPlat t ∧ tget TdispState.configUnlocked t.plat.tdisp vf = .configLocked) ∧
    (tget TdispState.configUnlocked s.plat.tdisp vf = .configLocked → ∃ t, exec (.tdispInterfaceRequest vf .run) s = .next t ∧ s.OnlyPlat t ∧ tget TdispState.configUnlocked t.plat.tdisp vf = .run) ∧
    ∃ t, exec (.tdispInterfaceRequest vf .configUnlocked) s = .next t ∧ s.OnlyPlat t ∧ tget TdispState.configUnlocked t.plat.tdisp vf = .configUnlocked) ∧
  (∀ (port : Nat) (n : BitVec 10) (s : State), port < 18 → s.ran 4 = true → s.mem.bad = none → ∃ t, exec (.deviceNumberAssign port n) s = .next t ∧ s.OnlyPlat t ∧ t.plat.device = some n ∧ (t.port port).down = false) ∧
  ∀ (images : List BootImage) (s : State), ∃ t, exec (.resetBoot images) s = .next t ∧ t.g = State.reset.g ∧ t.groups = State.reset.groups ∧ t.tabs = State.reset.tabs ∧ t.work = State.reset.work ∧ t.units = State.reset.units ∧
    t.mem = { State.reset.mem with host := s.mem.host, peers := s.mem.peers, hostHeld := s.mem.hostHeld } ∧ t.plat.transit = s.plat.transit ∧ t.plat.owner = 0 ∧ t.plat.staged = [] ∧ t.plat.stuck = !t.plat.booted ∧
    let used := images.map fun (x : BootImage) => (s.plat.staged.find? fun i => i.index == x.index).getD x
    (t.plat.booted = true ↔ ∃ i ∈ used, i.index = 2 ∧ imagePasses i = true) ∧
    (t.plat.assistOk = true → ∃ i ∈ used, i.index = 5 ∧ imagePasses i = true)

/-- Once the monitor runs, each SPDM request is answered and recorded, and nothing else of the machine changes but the free values drawn: the version, capabilities and algorithms with their bytes, the others with what the spec names first. Before it runs only GET_VERSION is answered. -/
def Obligations.AttestationReplies : Prop :=
  (∀ (s : State), s.mem.bad = none → ∃ t, exec .getVersion s = .next t ∧ s.OnlyPlat t ∧ t.plat = { s.plat with spdm := s.plat.spdm ++ [1], replies := s.plat.replies ++ [[1, 4]] }) ∧
  (∀ (i : Instr) (s : State) (code : Nat) (known : List Byte) (signed : Bool), s.mem.bad = none → spdmOf i s = some (code, known, signed) →
    (s.plat.booted = false → exec i s = .next s) ∧
    (s.plat.booted = true → ∃ t sig, exec i s = .next t ∧ sig.length = (if signed then 3309 else 0) ∧ t.plat.spdm = s.plat.spdm ++ [code] ∧ t.plat.replies = s.plat.replies ++ [known ++ sig] ∧
      (signed = false → t.sched = s.sched) ∧ { t with sched := { t.sched with free := s.sched.free }, plat := s.plat } = s)) ∧
  ∀ (session : Nat) (exchange : List Byte) (s t : State), s.plat.booted = true → exec (.keyExchange session exchange) s = .next t → t.plat.session = some (session, exchange)
end

