-- ==== Sys2Proof/Laws/Memory.lean ====
section
/-! SUPPORT. Tables and byte memory: what a read gives after a write, and that every memory operation keeps the canonical form. -/

namespace Sys2Proof.Machine

open Sys2Proof

/-! ### Tables -/

section tables
variable {α : Type}

@[simp] theorem tget_nil (d : α) (k : Nat) : tget d [] k = d := rfl

theorem tget_tput (d : α) (t : Tbl α) (k j : Nat) (v : α) : tget d (tput t k v) j = if k = j then v else tget d t j := by
  induction t with
  | nil => simp [tput, tget]
  | cons e r ih =>
    obtain ⟨i, w⟩ := e
    simp only [tput]
    split
    · next hk => subst hk; by_cases h : i = j <;> simp [tget, h]
    · split
      · by_cases h : k = j <;> simp [tget, h]
      · by_cases h : i = j
        · have : k ≠ j := by omega
          simp [tget, h, this]
        · simp [tget, h, ih]

theorem tget_tdel (d : α) (t : Tbl α) (k j : Nat) : tget d (tdel t k) j = if k = j then d else tget d t j := by
  induction t with
  | nil => simp [tdel, tget]
  | cons e r ih =>
    obtain ⟨i, w⟩ := e
    simp only [tdel] at ih
    by_cases hi : i = k
    · subst hi
      by_cases h : i = j
      · simp [tdel, h] at ih ⊢; exact ih
      · simp [tdel, tget, h] at ih ⊢; exact ih
    · by_cases h : i = j
      · have : k ≠ j := by omega
        subst h; simp [tdel, tget, hi, this]
      · simp [tdel, tget, hi, h, ih]

/-- A table read after a write gives what was written there, and what stood before elsewhere. -/
@[simp] theorem tget_tset [DecidableEq α] (d : α) (t : Tbl α) (k j : Nat) (v : α) : tget d (tset d t k v) j = if k = j then v else tget d t j := by
  unfold tset
  split
  · subst_vars; exact tget_tdel _ t k j
  · exact tget_tput d t k j v

end tables

/-! ### One byte after a write -/

/-- A byte read after a write of one byte. -/
@[simp] theorem mget_mset (m : Memory) (a b : Nat) (v : Byte) : mget (mset m a v) b = if a = b then v else mget m b := by
  unfold mset mget
  split
  · subst_vars; exact tget_tdel _ m a b
  · exact tget_tput _ m a b v

/-- Bytes outside a run that is written keep their value. -/
theorem mget_msetBytes_other (bs : List Byte) (m : Memory) (a b : Nat) (h : b < a ∨ a + bs.length ≤ b) : mget (msetBytes m a bs) b = mget m b := by
  induction bs generalizing m a with
  | nil => rfl
  | cons x r ih =>
    simp only [List.length_cons] at h
    rw [msetBytes, ih _ _ (by omega), mget_mset, if_neg (by omega)]

/-- Byte i of a run that is written reads as its byte i. -/
theorem mget_msetBytes_same (bs : List Byte) (m : Memory) (a i : Nat) (h : i < bs.length) : mget (msetBytes m a bs) (a + i) = bs[i] := by
  induction bs generalizing m a i with
  | nil => simp at h
  | cons x r ih =>
    rw [msetBytes]
    cases i with
    | zero => rw [mget_msetBytes_other _ _ _ _ (by omega)]; simp
    | succ i =>
      have := ih (mset m a x) (a + 1) i (by simpa using h)
      rw [show a + (i + 1) = a + 1 + i by omega, this]; simp

/-- A run read where it was written gives the bytes written. -/
theorem mbytes_msetBytes (bs : List Byte) (m : Memory) (a : Nat) : mbytes (msetBytes m a bs) a bs.length = bs := by
  apply List.ext_getElem
  · simp [mbytes]
  · intro i h1 h2
    simp [mbytes, mget_msetBytes_same bs m a i h2]

/-! ### The canonical form -/

/-- The canonical form in words: rising addresses, no entry that an unlisted address would read as. -/
theorem wf_iff (m : Memory) : m.wf = true ↔ m.Pairwise (fun x y => x.1 < y.1) ∧ ∀ c ∈ m, c.2 ≠ 0 := by
  induction m with
  | nil => simp [Memory.wf]
  | cons e r ih =>
    obtain ⟨a, v⟩ := e
    unfold Memory.wf
    simp only [Bool.and_eq_true, ih, List.pairwise_cons, List.mem_cons, forall_eq_or_imp, bne_iff_ne]
    constructor
    · rintro ⟨⟨hv, hb⟩, hp, hn⟩
      refine ⟨⟨?_, hp⟩, hv, hn⟩
      intro c hc
      cases r with
      | nil => simp at hc
      | cons e' r' =>
        obtain ⟨b, w⟩ := e'
        simp only [decide_eq_true_eq] at hb
        simp only [List.mem_cons] at hc
        rcases hc with rfl | hc
        · exact hb
        · have := (List.pairwise_cons.1 hp).1 c hc
          simp at this; omega
    · rintro ⟨⟨hb, hp⟩, hv, hn⟩
      refine ⟨⟨hv, ?_⟩, hp, hn⟩
      cases r with
      | nil => rfl
      | cons e' r' => simpa using hb e' (by simp)

@[simp] theorem wf_nil : Memory.wf [] = true := rfl

theorem wf_filter (m : Memory) (p : Host.Cell → Bool) (h : m.wf = true) : Memory.wf (m.filter p) = true := by
  rw [wf_iff] at h ⊢
  exact ⟨h.1.filter p, fun c hc => h.2 c (List.mem_filter.1 hc).1⟩

theorem mem_tput {α : Type} (t : Tbl α) (k : Nat) (v : α) (c : Nat × α) (h : c ∈ tput t k v) : c = (k, v) ∨ c ∈ t := by
  induction t with
  | nil => simp [tput] at h; exact .inl h
  | cons e r ih =>
    obtain ⟨i, w⟩ := e
    simp only [tput] at h
    split at h
    · simp only [List.mem_cons] at h ⊢
      exact h.imp_right Or.inr
    · split at h
      · simpa only [List.mem_cons] using h
      · simp only [List.mem_cons] at h ⊢
        rcases h with h | h
        · exact .inr (.inl h)
        · rcases ih h with h | h
          · exact .inl h
          · exact .inr (.inr h)

theorem sorted_tput {α : Type} (t : Tbl α) (k : Nat) (v : α) (h : t.Pairwise (fun x y => x.1 < y.1)) : (tput t k v).Pairwise (fun x y => x.1 < y.1) := by
  induction t with
  | nil => simp [tput]
  | cons e r ih =>
    obtain ⟨i, w⟩ := e
    rw [List.pairwise_cons] at h
    simp only [tput]
    split
    · subst_vars; exact List.pairwise_cons.2 ⟨h.1, h.2⟩
    · split
      · refine List.pairwise_cons.2 ⟨?_, List.pairwise_cons.2 h⟩
        intro c hc
        simp only [List.mem_cons] at hc
        rcases hc with rfl | hc
        · assumption
        · have := h.1 c hc; simp at this ⊢; omega
      · refine List.pairwise_cons.2 ⟨?_, ih h.2⟩
        intro c hc
        rcases mem_tput r k v c hc with rfl | hc
        · simp; omega
        · exact h.1 c hc

/-- Writing one byte keeps the canonical form. -/
theorem wf_mset (m : Memory) (a : Nat) (v : Byte) (h : m.wf = true) : (mset m a v).wf = true := by
  unfold mset
  split
  · exact wf_filter m _ h
  · next hv =>
    rw [wf_iff] at h ⊢
    refine ⟨sorted_tput m a v h.1, fun c hc => ?_⟩
    rcases mem_tput m a v c hc with rfl | hc
    · exact hv
    · exact h.2 c hc

/-- Writing a run of bytes keeps the canonical form. -/
theorem wf_msetBytes (bs : List Byte) (m : Memory) (a : Nat) (h : m.wf = true) : (msetBytes m a bs).wf = true := by
  induction bs generalizing m a with
  | nil => exact h
  | cons x r ih => exact ih _ _ (wf_mset m a x h)

theorem wf_msetNat (m : Memory) (a n x : Nat) (h : m.wf = true) : (msetNat m a n x).wf = true := wf_msetBytes _ m a h

/-- Clearing a range keeps the canonical form. -/
theorem wf_mclear (m : Memory) (lo hi : Nat) (h : m.wf = true) : (mclear m lo hi).wf = true := wf_filter m _ h

/-- Laying cells over a memory keeps the canonical form, wherever they come from and go. -/
theorem wf_foldl_mset (cs : Memory) (f : Host.Cell → Nat) (m : Memory) (h : m.wf = true) : (cs.foldl (fun m c => mset m (f c) c.2) m).wf = true := by
  induction cs generalizing m with
  | nil => exact h
  | cons c r ih => exact ih _ (wf_mset m _ _ h)

/-- Copying a range keeps the canonical form. -/
theorem wf_mcopyRange (m src : Memory) (lo hi : Nat) (h : m.wf = true) : (mcopyRange m src lo hi).wf = true :=
  wf_foldl_mset _ _ _ (wf_mclear m lo hi h)

/-- Two canonical memories that read alike everywhere are one list. -/
theorem wf_ext (m n : Memory) (hm : m.wf = true) (hn : n.wf = true) (h : ∀ a, mget m a = mget n a) : m = n := by
  rw [wf_iff] at hm hn
  induction m generalizing n with
  | nil =>
    cases n with
    | nil => rfl
    | cons e r =>
      have := h e.1
      simp [mget, tget, unlisted] at this
      exact absurd this.symm (hn.2 e (by simp))
  | cons e r ih =>
    cases n with
    | nil =>
      have := h e.1
      simp [mget, tget, unlisted] at this
      exact absurd this (hm.2 e (by simp))
    | cons e' r' =>
      have below : ∀ (t : Memory) (a : Nat), (∀ c ∈ t, a < c.1) → mget t a = 0 := by
        intro t a
        induction t with
        | nil => intro _; rfl
        | cons c t ih =>
          intro hc
          have h1 := hc c (by simp)
          have h2 := ih fun x hx => hc x (by simp [hx])
          obtain ⟨b, v⟩ := c
          simp only [mget, tget] at h2 ⊢
          rw [if_neg (by simp at h1; omega)]; exact h2
      obtain ⟨a, v⟩ := e
      obtain ⟨b, w⟩ := e'
      have hr := List.pairwise_cons.1 hm.1
      have hr' := List.pairwise_cons.1 hn.1
      have hv : v ≠ 0 := hm.2 (a, v) List.mem_cons_self
      have hw : w ≠ 0 := hn.2 (b, w) List.mem_cons_self
      have hab : a = b := by
        rcases Nat.lt_trichotomy a b with hlt | heq | hgt
        · have h1 := h a
          have hb : mget ((b, w) :: r') a = 0 := below _ a fun c hc => by
            rcases List.mem_cons.1 hc with rfl | hc
            · exact hlt
            · exact Nat.lt_trans hlt (hr'.1 c hc)
          rw [hb] at h1
          simp [mget, tget] at h1
          exact absurd h1 hv
        · exact heq
        · have h1 := h b
          have hb : mget ((a, v) :: r) b = 0 := below _ b fun c hc => by
            rcases List.mem_cons.1 hc with rfl | hc
            · exact hgt
            · exact Nat.lt_trans hgt (hr.1 c hc)
          rw [hb] at h1
          simp [mget, tget] at h1
          exact absurd h1.symm hw
      subst hab
      have hvw : v = w := by simpa [mget, tget] using h a
      subst hvw
      congr 1
      refine ih r' ⟨hr.2, fun c hc => hm.2 c (List.mem_cons_of_mem _ hc)⟩ ⟨hr'.2, fun c hc => hn.2 c (List.mem_cons_of_mem _ hc)⟩ fun x => ?_
      by_cases hx : a = x
      · subst hx
        rw [below r a hr.1, below r' a hr'.1]
      · have := h x
        simpa [mget, tget, hx] using this

end Sys2Proof.Machine
end

