-- ==== Sys2Proof/Laws/Registers.lean ====
section
/-! SUPPORT. Registers of a group: what a read gives after a write, for vector, mask and control registers (R56, R98, R112). -/

namespace Sys2Proof.Machine

open Sys2Proof

/-! ### Control registers -/

@[simp] theorem readK_zero (g : Group) : g.readK 0 = 0 := by simp [Group.readK]

@[simp] theorem writeK_zero (g : Group) (lat : Nat) (x : W64) : g.writeK lat 0 x = g := by simp [Group.writeK]

/-- A write of one control register leaves the entry of every other. -/
theorem writeK_other (g : Group) (lat n m : Nat) (x : W64) (h : n ≠ m) : tget ({} : KReg) (g.writeK lat n x).k m = tget {} g.k m := by
  unfold Group.writeK
  split <;> simp_all

/-- Once a write is ready, a read gives the value written. -/
theorem readK_writeK (g h : Group) (lat n : Nat) (x : W64) (hn : n ≠ 0) (hk : h.k = (g.writeK lat n x).k) (hd : g.dist + lat ≤ h.dist) : h.readK n = x := by
  unfold Group.readK
  rw [if_neg hn, hk]
  unfold Group.writeK
  simp only [hn, if_false, tget_tset, if_true]
  split
  · rfl
  · by_cases hl : lat = 0
    · simp [hl, List.filter_append]
    · simp [hl, List.filter_append, hd]

/-- Before a write is ready, a read gives what it gave before the write. -/
theorem readK_early (g h : Group) (lat n : Nat) (x : W64) (hl : lat ≠ 0) (hk : h.k = (g.writeK lat n x).k) (hd : h.dist < g.dist + lat) (hge : g.dist ≤ h.dist)
    (hs : (tget ({} : KReg) g.k n).pend.Pairwise fun a b => a.1 ≤ b.1) :
    h.readK n = ({ g with dist := h.dist } : Group).readK n := by
  unfold Group.readK
  split
  · rfl
  · next hn =>
    rw [hk]
    unfold Group.writeK
    simp only [hn, if_false, tget_tset, if_true, hl, decide_false, Bool.false_and, Bool.false_eq_true]
    have hd' : ¬(g.dist + lat ≤ h.dist) := by omega
    simp only [List.filter_append, List.filter_cons, List.filter_nil, hd', decide_false, Bool.false_eq_true, if_false, List.append_nil]
    generalize (tget ({} : KReg) g.k n) = r at *
    obtain ⟨base, pend⟩ := r
    simp only at hs ⊢
    induction pend generalizing base with
    | nil => simp
    | cons p ps ih =>
      rw [List.pairwise_cons] at hs
      by_cases hp : p.1 ≤ g.dist
      · have hp' : p.1 ≤ h.dist := by omega
        have := ih p.2 hs.2
        simp only [List.takeWhile_cons, List.dropWhile_cons, hp, decide_true, if_true, List.filter_cons, hp'] at this ⊢
        generalize hA : List.takeWhile (fun p => decide (p.1 ≤ g.dist)) ps = A at *
        generalize hB : List.filter (fun p => decide (p.1 ≤ h.dist)) (List.dropWhile (fun p => decide (p.1 ≤ g.dist)) ps) = B at *
        generalize hC : List.filter (fun p => decide (p.1 ≤ h.dist)) ps = C at *
        cases hC' : C.getLast? <;> cases hB' : B.getLast? <;> cases hA' : A.getLast? <;> simp_all [List.getLast?_cons]
      · simp [hp]

/-! ### Masks -/

@[simp] theorem readM_zero (g : Group) : g.readM 0 = g.m0 := by simp [Group.readM]

theorem readM_writeM (g h : Group) (lat n : Nat) (x : Mask) (hn : n ≠ 0) (hm : h.m = (g.writeM lat n x).m) (hd : g.dist + lat ≤ h.dist) : h.readM n = x := by
  unfold Group.readM
  rw [if_neg hn, hm]
  unfold Group.writeM
  simp only [tget_tset, if_true]
  split
  · rfl
  · by_cases hl : lat = 0
    · simp [hl, List.filter_append]
    · simp [hl, List.filter_append, hd]

theorem writeM_other (g : Group) (lat n m : Nat) (x : Mask) (h : n ≠ m) : tget ({} : MReg) (g.writeM lat n x).m m = tget {} g.m m := by
  unfold Group.writeM
  simp_all

/-! ### Vector registers -/

@[simp] theorem length_overlay (b : Lanes) (p : PendV) : (overlay b p).length = 32 := by simp [overlay, laneNumbers]

/-- A write laid over a register, lane by lane. -/
theorem laneAt_overlay (b : Lanes) (p : PendV) (l : Nat) (hl : l < 32) :
    laneAt (overlay b p) l = if p.mask.getLsbD l then (laneAt b l &&& ~~~p.bits) ||| (laneAt p.vals l &&& p.bits) else laneAt b l := by
  simp only [laneAt, overlay, laneNumbers, List.getD_eq_getElem?_getD, List.getElem?_map, List.getElem?_range hl, Option.map_some, Option.getD_some]

@[simp] theorem vreg_setVreg (g : Group) (n m : Nat) (r : VReg) : (g.setVreg n r).vreg m = if n = m then r else g.vreg m := by
  simp [Group.vreg, Group.setVreg]

/-- A write of one name leaves every other. -/
theorem writeV_other (g : Group) (lat n m : Nat) (mask : Mask) (bits : W32) (vals : Lanes) (h : n ≠ m) : (g.writeV lat n mask bits vals).vreg m = g.vreg m := by
  unfold Group.writeV
  split <;> simp_all

theorem foldl_overlay_ne_nil (l : List PendV) (b : Lanes) (h : l ≠ []) : (l.foldl overlay b).isEmpty = false := by
  induction l generalizing b with
  | nil => exact absurd rfl h
  | cons p ps ih =>
    cases ps with
    | nil =>
      have := length_overlay b p
      cases hb : overlay b p with
      | nil => simp [hb] at this
      | cons => simp [hb]
    | cons q qs => exact ih _ (by simp)

/-- Moving ready writes into the base changes no later read. -/
theorem value_settle (r : VReg) (d d' : Nat) (h : d ≤ d') : (r.settle d).value d' = r.value d' := by
  obtain ⟨t, ht⟩ := List.takeWhile_prefix (fun p => decide (p.ready ≤ d)) (l := r.pend)
  have hall : ∀ p ∈ r.pend.takeWhile (fun p => decide (p.ready ≤ d)), p.ready ≤ d' := by
    intro p hp
    have : p.ready ≤ d := by simpa using List.mem_takeWhile_imp hp
    omega
  simp only [VReg.settle]
  generalize r.pend.takeWhile (fun p => decide (p.ready ≤ d)) = a at *
  by_cases he : a.isEmpty
  · rw [if_pos he]
  · rw [if_neg he]
    have hf : a.filter (fun p => decide (p.ready ≤ d')) = a := List.filter_eq_self.2 fun p hp => by simpa using hall p hp
    simp only [VReg.value, ← ht, List.drop_left, List.filter_append, hf, List.foldl_append]
    rw [foldl_overlay_ne_nil a _ (by simpa using he)]
    simp

@[simp] theorem alloc_settle (r : VReg) (d : Nat) : (r.settle d).alloc = r.alloc := by
  simp only [VReg.settle]
  generalize r.pend.takeWhile (fun p => decide (p.ready ≤ d)) = a
  cases a <;> rfl

/-- A register with a write that is ready at distance d is written for reads there, moved into the base or not. -/
theorem written_settle (r : VReg) (d d' : Nat) (p : PendV) (hp : p ∈ r.pend) (hr : p.ready ≤ d') :
    ((r.settle d).fresh && !(r.settle d).pend.any fun q => decide (q.ready ≤ d')) = false := by
  simp only [VReg.settle]
  by_cases he : (r.pend.takeWhile fun p => decide (p.ready ≤ d)).isEmpty
  · rw [if_pos he]
    simp only [Bool.and_eq_false_iff, Bool.not_eq_false', List.any_eq_true, decide_eq_true_eq]
    exact .inr ⟨p, hp, hr⟩
  · rw [if_neg he]; rfl

/-- Lane l of a name once a write to it is ready: the bits written where the lane is written, and elsewhere what a read gave without the write. -/
theorem laneAt_writeV (g : Group) (lat n : Nat) (mask : Mask) (bits : W32) (vals : Lanes) (d l : Nat) (hl : l < 32) (hn : n ≠ 255) (hd : g.dist + lat ≤ d) :
    laneAt (((g.writeV lat n mask bits vals).vreg n).value d) l =
      if mask.getLsbD l then (laneAt ((g.vreg n).value d) l &&& ~~~bits) ||| (laneAt vals l &&& bits) else laneAt ((g.vreg n).value d) l := by
  have hgd : g.dist ≤ d := by omega
  simp only [Group.writeV, hn, if_false, vreg_setVreg, if_true]
  rw [value_settle _ _ _ hgd]
  have hready : (if lat = 0 then 0 else g.dist + lat) ≤ d := by split <;> omega
  rw [← value_settle (g.vreg n) g.dist d hgd]
  simp only [VReg.value, List.filter_append, List.filter_cons, hready, decide_true, if_true, List.filter_nil, List.foldl_append, List.foldl_cons, List.foldl_nil]
  rw [laneAt_overlay _ _ _ hl]

/-- A name that holds a register counts as written from the distance at which a write to it is ready. -/
theorem unwritten_writeV (g : Group) (lat n : Nat) (mask : Mask) (bits : W32) (vals : Lanes) (d : Nat) (hn : n ≠ 255) (hd : g.dist + lat ≤ d)
    (ha : (g.vreg n).alloc = true) : ((g.writeV lat n mask bits vals).vreg n).unwritten d = false := by
  have hready : (if lat = 0 then 0 else g.dist + lat) ≤ d := by split <;> omega
  simp only [Group.writeV, hn, if_false, vreg_setVreg, if_true, VReg.unwritten, alloc_settle, ha, Bool.not_true, Bool.false_or]
  rw [Bool.and_right_comm]
  exact Bool.and_eq_false_iff.mpr (.inl (written_settle _ g.dist d _ (List.mem_append_right _ (List.mem_singleton_self _)) hready))

end Sys2Proof.Machine
end

