-- ==== Sys2Proof/Laws/State.lean ====
section
/-! SUPPORT. Each part of the state after each update of it, and the operations on memory, which keep every memory in its canonical form. -/

namespace Sys2Proof.Machine

open Sys2Proof

/-! ### Each field after each update -/

section
variable (s : State) (n c : Nat)

@[simp] theorem setPart_mem (x : Partition) : (s.setPart n x).mem = s.mem := rfl
@[simp] theorem setPart_g (x : Partition) : (s.setPart n x).g = s.g := rfl
@[simp] theorem setPart_groups (x : Partition) : (s.setPart n x).groups = s.groups := rfl
@[simp] theorem setPart_sched (x : Partition) : (s.setPart n x).sched = s.sched := rfl
@[simp] theorem setPart_work (x : Partition) : (s.setPart n x).work = s.work := rfl
@[simp] theorem setPart_units (x : Partition) : (s.setPart n x).units = s.units := rfl
@[simp] theorem setPart_plat (x : Partition) : (s.setPart n x).plat = s.plat := rfl
@[simp] theorem setQuad_mem (x : Quadrant) : (s.setQuad n x).mem = s.mem := rfl
@[simp] theorem setQuad_g (x : Quadrant) : (s.setQuad n x).g = s.g := rfl
@[simp] theorem setQuad_groups (x : Quadrant) : (s.setQuad n x).groups = s.groups := rfl
@[simp] theorem setQuad_tabs (x : Quadrant) : (s.setQuad n x).tabs = s.tabs := rfl
@[simp] theorem setQuad_plat (x : Quadrant) : (s.setQuad n x).plat = s.plat := rfl
@[simp] theorem setCluster_mem (x : Cluster) : (s.setCluster n x).mem = s.mem := rfl
@[simp] theorem setCluster_tabs (x : Cluster) : (s.setCluster n x).tabs = s.tabs := rfl
@[simp] theorem setPort_mem (x : Port) : (s.setPort n x).mem = s.mem := rfl
@[simp] theorem setPort_tabs (x : Port) : (s.setPort n x).tabs = s.tabs := rfl
@[simp] theorem putQueue_mem (x : Queue) : (s.putQueue x).mem = s.mem := rfl
@[simp] theorem putQueue_tabs (x : Queue) : (s.putQueue x).tabs = s.tabs := rfl
@[simp] theorem putBlock_mem (x : Block) : (s.putBlock x).mem = s.mem := rfl
@[simp] theorem putBlock_tabs (x : Block) : (s.putBlock x).tabs = s.tabs := rfl
@[simp] theorem addGroup_mem (x : Group) : (s.addGroup x).mem = s.mem := rfl
@[simp] theorem addGroup_g (x : Group) : (s.addGroup x).g = s.g := rfl
@[simp] theorem alarm_hbm (a : Alarm) : (s.alarm a).mem.hbm = s.mem.hbm := rfl
@[simp] theorem progress_mem : (s.progress n c).mem = s.mem := rfl
@[simp] theorem progress_g : (s.progress n c).g = s.g := rfl
end

@[simp] theorem mapGroups_mem (s : State) (p : Group → Bool) (f : Group → Group) : (s.mapGroups p f).mem = s.mem := rfl
@[simp] theorem mapGroups_sched (s : State) (p : Group → Bool) (f : Group → Group) : (s.mapGroups p f).sched = s.sched := rfl
@[simp] theorem mapGroups_tabs (s : State) (p : Group → Bool) (f : Group → Group) : (s.mapGroups p f).tabs = s.tabs := rfl
@[simp] theorem mapGroups_work (s : State) (p : Group → Bool) (f : Group → Group) : (s.mapGroups p f).work = s.work := rfl
@[simp] theorem mapGroups_units (s : State) (p : Group → Bool) (f : Group → Group) : (s.mapGroups p f).units = s.units := rfl
@[simp] theorem mapGroups_plat (s : State) (p : Group → Bool) (f : Group → Group) : (s.mapGroups p f).plat = s.plat := rfl
@[simp] theorem setCtx_mem (s : State) (p c : Nat) (x : Context) : (s.setCtx p c x).mem = s.mem := rfl
@[simp] theorem setCtx_g (s : State) (p c : Nat) (x : Context) : (s.setCtx p c x).g = s.g := rfl
@[simp] theorem setCtx_groups (s : State) (p c : Nat) (x : Context) : (s.setCtx p c x).groups = s.groups := rfl
@[simp] theorem setCtx_sched (s : State) (p c : Nat) (x : Context) : (s.setCtx p c x).sched = s.sched := rfl
@[simp] theorem setCtx_work (s : State) (p c : Nat) (x : Context) : (s.setCtx p c x).work = s.work := rfl
@[simp] theorem setCtx_units (s : State) (p c : Nat) (x : Context) : (s.setCtx p c x).units = s.units := rfl
@[simp] theorem setCtx_plat (s : State) (p c : Nat) (x : Context) : (s.setCtx p c x).plat = s.plat := rfl
@[simp] theorem setCtx_parts (s : State) (p c : Nat) (x : Context) : (s.setCtx p c x).tabs.parts = s.tabs.parts := rfl
@[simp] theorem setCtx_graphs (s : State) (p c : Nat) (x : Context) : (s.setCtx p c x).tabs.graphs = s.tabs.graphs := rfl
@[simp] theorem setCtx_replicas (s : State) (p c : Nat) (x : Context) : (s.setCtx p c x).tabs.replicas = s.tabs.replicas := rfl

/-! ### What an entry reads after it is set -/

@[simp] theorem part_setPart (s : State) (p : Nat) (x : Partition) : (s.setPart p x).part p = x := by simp [State.part, State.setPart, tget_tset]
theorem part_setPart_other (s : State) (p q : Nat) (x : Partition) (h : q ≠ p) : (s.setPart p x).part q = s.part q := by simp [State.part, State.setPart, tget_tset, h.symm]
@[simp] theorem ctx_setCtx (s : State) (p c : Nat) (x : Context) : (s.setCtx p c x).ctx p c = x := by simp [State.ctx, State.setCtx, tget_tset]
theorem ctx_setCtx_other (s : State) (p c p' c' : Nat) (x : Context) (h : ctxKey p' c' ≠ ctxKey p c) : (s.setCtx p c x).ctx p' c' = s.ctx p' c' := by
  simp [State.ctx, State.setCtx, tget_tset, h.symm]
@[simp] theorem quad_setQuad (s : State) (q : Nat) (x : Quadrant) : (s.setQuad q x).quad q = x := by simp [State.quad, State.setQuad, tget_tset]
@[simp] theorem cluster_setCluster (s : State) (c : Nat) (x : Cluster) : (s.setCluster c x).cluster c = x := by simp [State.cluster, State.setCluster, tget_tset]
@[simp] theorem port_setPort (s : State) (p : Nat) (x : Port) : (s.setPort p x).port p = x := by simp [State.port, State.setPort, tget_tset]

/-! ### The canonical form of every memory -/

/-- Every memory that a table lists is canonical. -/
def tableWf (t : Tbl Memory) : Bool := t.all fun e => Memory.wf e.2

theorem tableWf_get (t : Tbl Memory) (k : Nat) (h : tableWf t = true) : Memory.wf (tget ([] : Memory) t k) = true := by
  induction t with
  | nil => rfl
  | cons e r ih =>
    obtain ⟨j, v⟩ := e
    simp only [tableWf, List.all_cons, Bool.and_eq_true] at h
    simp only [tget]
    split
    · exact h.1
    · exact ih h.2

theorem tableWf_set (t : Tbl Memory) (k : Nat) (m : Memory) (h : tableWf t = true) (hm : m.wf = true) : tableWf (tset ([] : Memory) t k m) = true := by
  unfold tset tableWf at *
  rw [List.all_eq_true] at h ⊢
  split
  · intro e he; exact h e (List.mem_of_mem_filter he)
  · intro e he
    rcases mem_tput t k m e he with rfl | he
    · exact hm
    · exact h e he

/-- The canonical form of the memories of a state, as a conjunction. -/
theorem memoriesWf_iff (s : State) : s.memoriesWf = true ↔
    s.mem.hbm.wf = true ∧ s.mem.img.wf = true ∧ s.mem.host.wf = true ∧ tableWf s.mem.peers = true ∧ tableWf s.mem.spad = true ∧ tableWf s.mem.acc = true := by
  simp [State.memoriesWf, tableWf, and_assoc]

theorem memoriesWf_of_mem {s t : State} (h : t.mem = s.mem) (hs : s.memoriesWf = true) : t.memoriesWf = true := by
  unfold State.memoriesWf at *; rw [h]; exact hs

theorem reset_memoriesWf : State.reset.memoriesWf = true := by decide

/-- The memories, set apart from the rest of the memory system. -/
def MemState.cells (m : MemState) : Memory × Memory × Memory × Tbl Memory × Tbl Memory × Tbl Memory := (m.hbm, m.img, m.host, m.peers, m.spad, m.acc)

theorem memoriesWf_of_cells {s t : State} (h : t.mem.cells = s.mem.cells) (hs : s.memoriesWf = true) : t.memoriesWf = true := by
  simp only [MemState.cells, Prod.mk.injEq] at h
  obtain ⟨h1, h2, h3, h4, h5, h6⟩ := h
  unfold State.memoriesWf at *; rw [h1, h2, h3, h4, h5, h6]; exact hs

theorem putGroup_mem (s : State) (h : Group) : (s.putGroup h).mem = s.mem := by unfold State.putGroup; split <;> rfl

/-- `poke` keeps every memory canonical. -/
theorem poke_memoriesWf (s : State) (l : Loc) (bs : List Byte) (hs : s.memoriesWf = true) : (s.poke l bs).memoriesWf = true := by
  have h := (memoriesWf_iff s).1 hs
  obtain ⟨sp, a⟩ := l
  cases sp with
  | hbm =>
    simp only [State.poke]
    split
    · exact memoriesWf_of_cells rfl hs
    · exact (memoriesWf_iff _).2 ⟨wf_msetBytes bs _ _ h.1, h.2⟩
  | host => exact (memoriesWf_iff _).2 ⟨h.1, h.2.1, wf_msetBytes bs _ _ h.2.2.1, h.2.2.2⟩
  | peer d => exact (memoriesWf_iff _).2 ⟨h.1, h.2.1, h.2.2.1, tableWf_set _ _ _ h.2.2.2.1 (wf_msetBytes bs _ _ (tableWf_get _ _ h.2.2.2.1)), h.2.2.2.2⟩
  | spad d => exact (memoriesWf_iff _).2 ⟨h.1, h.2.1, h.2.2.1, h.2.2.2.1, tableWf_set _ _ _ h.2.2.2.2.1 (wf_msetBytes bs _ _ (tableWf_get _ _ h.2.2.2.2.1)), h.2.2.2.2.2⟩
  | acc q z =>
    simp only [State.poke]
    split
    · exact hs
    · exact (memoriesWf_iff _).2 ⟨h.1, h.2.1, h.2.2.1, h.2.2.2.1, h.2.2.2.2.1, tableWf_set _ _ _ h.2.2.2.2.2 (wf_msetBytes bs _ _ (tableWf_get _ _ h.2.2.2.2.2))⟩
  | regs c k =>
    simp only [State.poke]
    split
    · split <;> exact memoriesWf_of_mem (putGroup_mem _ _) hs
    · exact hs

/-- A store leaves handle queue descriptors alone and keeps every memory canonical. -/
theorem pokeStore_memoriesWf (s : State) (l : Loc) (bs : List Byte) (hs : s.memoriesWf = true) : (s.pokeStore l bs).memoriesWf = true := by
  unfold State.pokeStore
  split
  · split
    · exact poke_memoriesWf s l bs hs
    · rename_i hq
      clear hq
      generalize List.range bs.length = is
      induction is generalizing s with
      | nil => exact hs
      | cons i r ih =>
        rw [List.foldl_cons]
        apply ih
        split
        · exact hs
        · exact poke_memoriesWf s _ _ hs
  · exact poke_memoriesWf s l bs hs

/-- Clearing accumulator tiles keeps every memory canonical. -/
theorem clearTiles_memoriesWf (s : State) (quad : Nat) (tiles : List Nat) (hs : s.memoriesWf = true) : (s.clearTiles quad tiles).memoriesWf = true := by
  have h := (memoriesWf_iff s).1 hs
  unfold State.clearTiles
  split
  · exact hs
  · refine (memoriesWf_iff _).2 ⟨h.1, h.2.1, h.2.2.1, h.2.2.2.1, h.2.2.2.2.1, tableWf_set _ _ _ h.2.2.2.2.2 ?_⟩
    have base := tableWf_get s.mem.acc quad h.2.2.2.2.2
    generalize tget ([] : Memory) s.mem.acc quad = m at base
    induction tiles generalizing m with
    | nil => exact base
    | cons t r ih =>
      rw [List.foldl_cons]
      by_cases hr : r = []
      · subst hr; exact wf_mclear m _ _ base
      · exact ih (by simp [hr]) _ (wf_mclear m _ _ base)

/-! ### Caches and tiles -/

/-- Two states that differ at most in the line tables of L2, in tiles and metadata and what they left off chip, in alarms and in messages: what use of lines, their checks and write-backs change. -/
structure State.Backs (s t : State) : Prop where
  g      : t.g = s.g
  groups : t.groups = s.groups
  tabs   : t.tabs = s.tabs
  units  : t.units = s.units
  plat   : t.plat = s.plat
  sched  : t.sched = s.sched
  hbm    : t.mem.hbm = s.mem.hbm
  host   : t.mem.host = s.mem.host
  peers  : t.mem.peers = s.mem.peers
  spad   : t.mem.spad = s.mem.spad
  acc    : t.mem.acc = s.mem.acc
  bad    : t.mem.bad = s.mem.bad
  hqs    : t.mem.hqs = s.mem.hqs
  img    : s.mem.img.wf = true → t.mem.img.wf = true

theorem State.Backs.refl (s : State) : s.Backs s := ⟨rfl, rfl, rfl, rfl, rfl, rfl, rfl, rfl, rfl, rfl, rfl, rfl, rfl, id⟩

theorem State.Backs.trans {s t u : State} (h : s.Backs t) (k : t.Backs u) : s.Backs u :=
  ⟨k.1.trans h.1, k.2.trans h.2, k.3.trans h.3, k.4.trans h.4, k.5.trans h.5, k.6.trans h.6, k.7.trans h.7, k.8.trans h.8, k.9.trans h.9, k.10.trans h.10, k.11.trans h.11, k.12.trans h.12, k.13.trans h.13, fun x => k.14 (h.14 x)⟩

theorem State.Backs.l2 (s : State) (x : Tbl L2Line) : s.Backs { s with mem := { s.mem with l2 := x } } := ⟨rfl, rfl, rfl, rfl, rfl, rfl, rfl, rfl, rfl, rfl, rfl, rfl, rfl, id⟩
theorem State.Backs.metas (s : State) (x : Tbl Bool) : s.Backs { s with mem := { s.mem with metas := x } } := ⟨rfl, rfl, rfl, rfl, rfl, rfl, rfl, rfl, rfl, rfl, rfl, rfl, rfl, id⟩
theorem State.Backs.alarm (s : State) (a : Alarm) : s.Backs (s.alarm a) := ⟨rfl, rfl, rfl, rfl, rfl, rfl, rfl, rfl, rfl, rfl, rfl, rfl, rfl, id⟩

theorem State.Backs.fold {α : Type} (f : State → α → State) (h : ∀ (s : State) (a : α), s.Backs (f s a)) (l : List α) (s : State) : s.Backs (l.foldl f s) := by
  induction l generalizing s with
  | nil => exact State.Backs.refl s
  | cons a as ih => exact (h s a).trans (ih _)

theorem State.Backs.memoriesWf {s t : State} (h : s.Backs t) (hs : s.memoriesWf = true) : t.memoriesWf = true := by
  have k := (memoriesWf_iff s).1 hs
  rw [memoriesWf_iff, h.hbm, h.host, h.peers, h.spad, h.acc]
  exact ⟨k.1, h.img k.2.1, k.2.2⟩

theorem checkPath_backs (s : State) (tile : Nat) : s.Backs (s.checkPath tile).2 := by
  unfold State.checkPath
  split
  · exact State.Backs.alarm s _
  · exact State.Backs.metas s _

theorem checkTile_backs (s : State) (tile : Nat) : s.Backs (s.checkTile tile).2 := by
  unfold State.checkTile
  simp only []
  split
  · exact checkPath_backs s tile
  · exact (checkPath_backs s tile).trans (State.Backs.alarm _ _)

/-- A tile put off chip changes no byte that a load reads. -/
theorem putTile_backs (s : State) (tile : Nat) (img : Memory) (hi : s.mem.img.wf = true → img.wf = true) : s.Backs (s.putTile tile img) := by
  unfold State.putTile
  split
  · exact State.Backs.alarm s _
  · simp only []
    split <;> exact ⟨rfl, rfl, rfl, rfl, rfl, rfl, rfl, rfl, rfl, rfl, rfl, rfl, rfl, hi⟩

theorem putTile_g (s : State) (tile : Nat) (img : Memory) : (s.putTile tile img).g = s.g := by
  unfold State.putTile
  split
  · rfl
  · simp only []
    split <;> rfl

theorem writeback_backs (s : State) (tile : Nat) : s.Backs (s.writeback tile) := by
  have h := checkTile_backs s tile
  unfold State.writeback
  simp only []
  split
  · exact h
  · split
    · exact h.trans (State.Backs.alarm _ _)
    · exact h.trans ((State.Backs.l2 _ _).trans (putTile_backs _ _ _ fun k => wf_mcopyRange _ _ _ _ k))

theorem evict_backs (s : State) (line : Nat) (e : L2Line) : s.Backs (s.evict line e) := by
  unfold State.evict
  refine State.Backs.trans ?_ (State.Backs.l2 _ _)
  split
  · exact writeback_backs s _
  · exact State.Backs.refl s

theorem insertLine_backs (s : State) (line : Nat) (mask : W16) (e : L2Line) : s.Backs (s.insertLine line mask e) := by
  unfold State.insertLine
  simp only []
  split
  · exact State.Backs.l2 s _
  · split
    · exact State.Backs.refl s
    · exact ((State.Backs.l2 s _).trans (evict_backs _ _ _)).trans (State.Backs.l2 _ _)

theorem touch_backs (s : State) (w : Who) (line : Nat) : s.Backs (s.touch w line) := by
  unfold State.touch
  simp only []
  split
  · exact State.Backs.l2 s _
  · split
    · exact State.Backs.refl s
    · exact insertLine_backs s _ _ _

theorem installTile_backs (s : State) (tile p : Nat) : s.Backs (s.installTile tile p) := by
  refine State.Backs.fold _ (fun (s : State) (i : Nat) => ?_) _ s
  dsimp only
  split
  · exact State.Backs.l2 s _
  · exact insertLine_backs s _ _ _

/-- The check of a tile: what `Backs` allows, and then groups that no longer wait for the tile. -/
theorem verifyTile_backs (s : State) (p tile : Nat) : ∃ b, s.Backs b ∧ (s.verifyTile p tile = b ∨
    s.verifyTile p tile = b.mapGroups (fun h => h.pendTiles.contains tile) fun h => { h with pendTiles := h.pendTiles.filter fun t => t != tile }) := by
  have h := checkTile_backs s tile
  unfold State.verifyTile
  simp only []
  split
  · refine ⟨_, h.trans ?_, Or.inr rfl⟩
    split
    · exact State.Backs.refl _
    · exact installTile_backs _ _ _
  · exact ⟨_, h, Or.inl rfl⟩

theorem verifyTile_memoriesWf (s : State) (p tile : Nat) (hs : s.memoriesWf = true) : (s.verifyTile p tile).memoriesWf = true := by
  obtain ⟨b, hb, e | e⟩ := verifyTile_backs s p tile <;> rw [e]
  · exact hb.memoriesWf hs
  · exact memoriesWf_of_mem rfl (hb.memoriesWf hs)

theorem needVerified_memoriesWf (s : State) (p tile : Nat) (hs : s.memoriesWf = true) : (s.needVerified p tile).memoriesWf = true := by
  unfold State.needVerified
  split
  · exact hs
  · exact verifyTile_memoriesWf s p tile hs

theorem markDirty_cells (s : State) (a : Nat) : (s.markDirty a).mem.cells = s.mem.cells := by unfold State.markDirty; split <;> rfl

/-- Write-back keeps every memory canonical. -/
theorem writeback_memoriesWf (s : State) (tile : Nat) (hs : s.memoriesWf = true) : (s.writeback tile).memoriesWf = true := (writeback_backs s tile).memoriesWf hs

/-- A store at its home keeps every memory canonical. -/
theorem storeAt_memoriesWf (s : State) (w : Who) (uid : Option Nat) (plain : Bool) (l : Loc) (bs : List Byte) (hs : s.memoriesWf = true) : (s.storeAt w uid plain l bs).memoriesWf = true := by
  have hp := pokeStore_memoriesWf s l bs hs
  unfold State.storeAt
  generalize s.pokeStore l bs = b at hp
  have hb : ∀ m : MemState, m.cells = b.mem.cells → State.memoriesWf { b with mem := m } = true := fun m h => memoriesWf_of_cells h hp
  cases l.space <;> simp only [] <;> try exact hb _ rfl
  · have h2 := memoriesWf_of_cells (markDirty_cells _ l.addr) (hb ((b.mem.stir l bs.length).tick.l1Write w plain l.addr bs) rfl)
    have h3 := (touch_backs (markConflicts _ uid l) w (l.addr / 128)).memoriesWf (memoriesWf_of_mem rfl h2)
    split
    · exact writeback_memoriesWf _ _ h3
    · exact memoriesWf_of_cells rfl h3

/-- A run of bytes that hardware writes keeps every memory canonical. -/
theorem storeRun_memoriesWf (s : State) (w : Who) (l : Loc) (bs : List Byte) (hs : s.memoriesWf = true) : (s.storeRun w l bs).memoriesWf = true := by
  unfold State.storeRun
  generalize linePieces (bs.length / 128 + 2) l.addr bs = ps
  induction ps generalizing s with
  | nil => exact hs
  | cons p r ih => exact ih _ (storeAt_memoriesWf s w none false _ _ hs)

theorem dirtyLine_backs (s : State) (p line : Nat) (whole : Bool) : s.Backs (s.dirtyLine p line whole) := by
  unfold State.dirtyLine
  split
  · exact State.Backs.l2 s _
  · simp only []
    split
    · exact insertLine_backs s _ _ _
    · exact (insertLine_backs s _ _ _).trans (writeback_backs _ _)

theorem dirtyLines_backs (s : State) (p lo hi : Nat) : s.Backs (s.dirtyLines p lo hi) := by
  unfold State.dirtyLines
  simp only []
  split
  · exact State.Backs.fold _ writeback_backs _ s
  · exact State.Backs.fold _ (fun s l => dirtyLine_backs s p l _) _ s

/-- A bulk write keeps every memory canonical. -/
theorem bulkStore_memoriesWf (s : State) (p a n : Nat) (cells : Memory) (hs : s.memoriesWf = true) : (s.bulkStore p a n cells).memoriesWf = true := by
  have h := (memoriesWf_iff s).1 hs
  unfold State.bulkStore
  split
  · exact memoriesWf_of_cells rfl hs
  · refine (dirtyLines_backs _ _ _ _).memoriesWf ((memoriesWf_iff _).2 ?_)
    exact ⟨wf_foldl_mset cells (fun c => a + c.1) _ (wf_mclear _ _ _ h.1), h.2⟩

/-- Zeroing a frame keeps every memory canonical. -/
theorem zeroFrame_memoriesWf (s : State) (frame : Nat) (hs : s.memoriesWf = true) : (s.zeroFrame frame).memoriesWf = true := by
  have h := (memoriesWf_iff s).1 hs
  unfold State.zeroFrame
  simp only []
  refine (State.Backs.fold _ (fun s i => ?_) _ _).memoriesWf ((memoriesWf_iff _).2 ⟨wf_mclear _ _ _ h.1, h.2⟩)
  have hc := checkPath_backs s (16 * frame + i)
  split
  · exact hc.trans (putTile_backs _ _ _ fun k => wf_mclear _ _ _ k)
  · exact hc

end Sys2Proof.Machine
end

