-- ==== Sys2Proof/Laws/Words.lean ====
section
/-! SUPPORT. What every word does, said once: how a word that executes ends, and what its beginning and its end leave alone. -/

namespace Sys2Proof.Machine

open Sys2Proof

theorem SameUnits.refl (s : State) : s.SameUnits s := ⟨rfl, rfl, rfl, rfl, rfl, rfl, rfl, rfl, fun _ _ => rfl, rfl⟩

theorem SameUnits.trans {s t u : State} (h : s.SameUnits t) (k : t.SameUnits u) : s.SameUnits u :=
  ⟨k.1.trans h.1, k.2.trans h.2, k.3.trans h.3, k.4.trans h.4, k.5.trans h.5, k.6.trans h.6, k.7.trans h.7, k.8.trans h.8, fun p c => (k.9 p c).trans (h.9 p c), k.10.trans h.10⟩

/-- The issuing group does not count. -/
theorem SameUnits.of_g (s : State) (g : Group) : s.SameUnits { s with g := g } := ⟨rfl, rfl, rfl, rfl, rfl, rfl, rfl, rfl, fun _ _ => rfl, rfl⟩

theorem progress_same (s : State) (p c : Nat) : s.SameUnits (s.progress p c) := by
  refine ⟨rfl, rfl, rfl, rfl, rfl, rfl, rfl, rfl, fun p' c' => ?_, rfl⟩
  simp only [State.progress, State.setCtx, State.ctx, tget_tset]
  split
  · next h => simp only [h]
  · rfl

/-- Progress of contexts changes nothing but their progress marks. -/
theorem progresses_same (l : List Group) (s : State) : s.SameUnits (l.foldl (fun s h => s.progress h.part h.ctx) s) ∧ (l.foldl (fun s h => s.progress h.part h.ctx) s).g = s.g := by
  induction l generalizing s with
  | nil => exact ⟨SameUnits.refl s, rfl⟩
  | cons h r ih => exact ⟨SameUnits.trans (progress_same s h.part h.ctx) (ih _).1, (ih _).2⟩

/-- A grant changes a group's state only. -/
theorem grant_g (s : State) (q : Nat) : ∃ st, (s.grant q).g = { s.g with st := st } := by
  have h := (progresses_same (s.allGroups.filter fun h => h.quad == q && s.servable h) s).2
  simp only [State.grant, State.mapGroups, h]
  split
  · exact ⟨_, rfl⟩
  · exact ⟨s.g.st, rfl⟩

theorem grant_same (s : State) (q : Nat) : s.SameUnits (s.grant q) := by
  refine SameUnits.trans (progresses_same (s.allGroups.filter fun h => h.quad == q && s.servable h) s).1 ⟨rfl, rfl, rfl, rfl, rfl, rfl, rfl, rfl, fun _ _ => rfl, ?_⟩
  simp only [State.grant, State.mapGroups, List.map_map]
  refine List.map_congr_left fun h _ => ?_
  simp only [Function.comp]
  split <;> rfl

theorem issued_same (s : State) : s.SameUnits s.issued := by
  unfold State.issued
  split
  · exact SameUnits.refl s
  · exact progress_same s _ _

@[simp] theorem issued_g (s : State) : s.issued.g = s.g := by unfold State.issued; split <;> rfl

theorem releaseNames_same (s : State) (ns : List Nat) : s.SameUnits (s.releaseNames ns) := by
  unfold State.releaseNames
  split
  · exact SameUnits.refl s
  · exact SameUnits.trans (SameUnits.of_g s _) (grant_same _ _)

/-- What a release leaves of the issuing group. -/
theorem releaseNames_g (s : State) (ns : List Nat) : ∃ st, (s.releaseNames ns).g = { (if ns.isEmpty then s.g else s.g.releaseAll ns) with st := st } := by
  unfold State.releaseNames
  split
  · exact ⟨s.g.st, rfl⟩
  · obtain ⟨st, h⟩ := grant_g { s with g := s.g.releaseAll ns } s.g.quad
    exact ⟨st, h⟩

/-- The end of a word leaves all but the groups alone. -/
theorem finish_same (s : State) (w : Word) (rel : List Nat) (pc : W64) (space : Nat) (check : Bool) : s.SameUnits (s.finish w rel pc space check) := by
  exact SameUnits.trans (SameUnits.trans (releaseNames_same s rel) (issued_same _)) (SameUnits.of_g _ _)

/-- The issuing group after a word that ends at `pc`. -/
theorem finish_g (s : State) (w : Word) (rel : List Nat) (pc : W64) (space : Nat) :
    ∃ st, (s.finish w rel pc space false).g = ({ (if rel.isEmpty then s.g else s.g.releaseAll rel) with st := st } : Group).endReplay.advance w pc space := by
  obtain ⟨st, h⟩ := releaseNames_g s rel
  refine ⟨st, ?_⟩
  simp only [State.finish, issued_g, h]
  rfl

theorem releaseAll_fields (g : Group) (ns : List Nat) :
    ∃ v r, g.releaseAll ns = { g with v := v, region := r } ∧ (∀ n, n ∉ ns → tget ({} : VReg) v n = tget {} g.v n) := by
  unfold Group.releaseAll
  generalize hr : (g.region.map fun r => r.untag ns 0xFFFFFFFF) = r
  clear hr
  have : ∀ (l : List Nat) (h : Group), ∃ v, l.foldl Group.releaseV h = { h with v := v } ∧ (∀ n, n ∉ l → tget ({} : VReg) v n = tget {} h.v n) := by
    intro l
    induction l with
    | nil => intro h; exact ⟨h.v, rfl, fun _ _ => rfl⟩
    | cons a as ih =>
      intro h
      simp only [List.foldl_cons]
      obtain ⟨v, hv, hn⟩ := ih (h.releaseV a)
      by_cases ha : a = 255
      · have e : h.releaseV a = h := by simp [Group.releaseV, ha]
        rw [e] at hv hn ⊢
        exact ⟨v, hv, fun n hm => hn n (fun hc => hm (List.mem_cons_of_mem _ hc))⟩
      · have e : h.releaseV a = { h with v := tdel h.v a } := by simp [Group.releaseV, ha]
        rw [e] at hv hn ⊢
        refine ⟨v, hv, fun n hm => ?_⟩
        rw [hn n (fun hc => hm (List.mem_cons_of_mem _ hc))]
        simp only [tget_tdel]
        rw [if_neg]
        rintro rfl
        exact hm List.mem_cons_self
  obtain ⟨v, hv, hn⟩ := this ns { g with region := r }
  exact ⟨v, r, hv, hn⟩

/-- The whole of what the end of a word at `pc` leaves of the issuing group: it is past the word, and apart from released names and their tags its registers are as the body left them. -/
theorem finish_past (s : State) (w : Word) (rel : List Nat) (pc : W64) (space : Nat) (hr : s.g.replay = none) :
    s.g.Past w (s.finish w rel pc space false).g pc space ∧
    ∃ v r, (∀ n, n ∉ rel → tget ({} : VReg) v n = tget {} s.g.v n) ∧ (rel = [] → v = s.g.v ∧ r = s.g.region) ∧
      (s.finish w rel pc space false).g =
        { s.g with v := v, region := r, pc := pc, dist := s.g.dist + space, lastSpace := space, gage := 0, wait := if w.stall = 0 then .none else .stall, resume := none, refused := [],
                   stall := w.stall, st := if w.stall = 0 then (if s.g.sup then .handler else .ready) else .waitStall, word0 := w.w0, word1 := w.w1 } := by
  obtain ⟨st, h⟩ := finish_g s w rel pc space
  obtain ⟨v, r, hv, hn⟩ := releaseAll_fields s.g rel
  cases rel with
  | nil =>
    simp only [List.isEmpty_nil, if_true, Group.endReplay, hr, Group.advance, Group.awake] at h
    refine ⟨?_, s.g.v, s.g.region, fun _ _ => rfl, fun _ => ⟨rfl, rfl⟩, ?_⟩
    · rw [h]; exact ⟨rfl, rfl, rfl, rfl⟩
    · rw [h, ← hr]
  | cons a as =>
    simp only [List.isEmpty_cons, Bool.false_eq_true, if_false, hv, Group.endReplay, hr, Group.advance, Group.awake] at h
    refine ⟨?_, v, r, hn, fun hc => by simp at hc, ?_⟩
    · rw [h]; exact ⟨rfl, rfl, rfl, rfl⟩
    · rw [h, ← hr]

/-! ### A word that executes -/

/-- A word that executes ends as its body says, from the state in which the body begins. -/
theorem runWord_executes (w : Word) (ex : Extra) (body : State → State × Flow) (s : State) (h : s.executes w ex = true) :
    runWord w ex body s = answer (s.conclude w ex (body (s.begun w ex))) := by
  simp only [State.executes, Bool.and_eq_true, Option.isNone_iff_eq_none, Bool.not_eq_true'] at h
  obtain ⟨⟨⟨⟨⟨_, hr⟩, hf⟩, hb⟩, hl⟩, ha⟩ := h
  simp only [runWord, Group.skipsReplay, Group.enterReplay, hr, Bool.false_eq_true, if_false, issueWord, hf, hb, hl, ha, Bool.not_true, State.begun]

theorem executes_sound {s : State} {w : Word} {ex : Extra} (h : s.executes w ex = true) : s.mem.bad = none := by
  simp only [State.executes, Bool.and_eq_true, Option.isNone_iff_eq_none] at h
  exact h.1.1.1.1.1

theorem executes_replay {s : State} {w : Word} {ex : Extra} (h : s.executes w ex = true) : s.g.replay = none := by
  simp only [State.executes, Bool.and_eq_true, Option.isNone_iff_eq_none] at h
  exact h.1.1.1.1.2

theorem answer_next (s : State) (h : s.mem.bad = none) : answer s = .next s := by simp [answer, h]

/-- A body that is done and leaves the memory's state alone: the word completes. -/
theorem runWord_done (w : Word) (ex : Extra) (body : State → State × Flow) (s b : State) (h : s.executes w ex = true)
    (hb : body (s.begun w ex) = (b, .done)) (hm : b.mem.bad = none) :
    runWord w ex body s = .next (b.finish w (w.releases ex) (w.next s.g.pc) (w.stall + 1) false) := by
  rw [runWord_executes w ex body s h, hb]
  refine answer_next _ ?_
  rw [show (s.conclude w ex (b, .done)) = b.finish w (w.releases ex) (w.next s.g.pc) (w.stall + 1) false from rfl]
  rw [(finish_same _ _ _ _ _ _).mem]
  exact hm

/-! ### The beginning of a word -/

theorem allocAll_fields (ns : List Nat) (g : Group) :
    ∃ v, g.allocAll ns = { g with v := v } ∧ (∀ n, n ∉ ns → tget ({} : VReg) v n = tget {} g.v n) := by
  unfold Group.allocAll
  induction ns generalizing g with
  | nil => exact ⟨g.v, rfl, fun _ _ => rfl⟩
  | cons a as ih =>
    simp only [List.foldl_cons]
    obtain ⟨v, hv, hn⟩ := ih (g.allocV a)
    have hx : ∃ v', g.allocV a = { g with v := v' } ∧ ∀ n, n ≠ a → tget ({} : VReg) v' n = tget {} g.v n := by
      unfold Group.allocV
      split
      · exact ⟨g.v, rfl, fun _ _ => rfl⟩
      · split
        · refine ⟨_, rfl, fun n hna => ?_⟩
          simp [Ne.symm hna]
        · refine ⟨_, rfl, fun n hna => ?_⟩
          simp [Ne.symm hna]
    obtain ⟨v', hv', hn'⟩ := hx
    refine ⟨v, by rw [hv, hv'], fun n hm => ?_⟩
    rw [hn n (fun hc => hm (List.mem_cons_of_mem _ hc)), hv']
    exact hn' n (fun hc => hm (hc ▸ List.mem_cons_self))

/-- The beginning of a word changes no register's contents, and of the group's other fields only the region's count, the path table's ages, UNINIT and the wait. -/
theorem begin_fields (g : Group) (w : Word) (ex : Extra) :
    ∃ v r u, g.begin w ex = { g with v := v, region := r, paths := agePaths g.paths, uninit := u, wait := .none } ∧
      (∀ n, n ∉ (w.allWrites ex).v → tget ({} : VReg) v n = tget {} g.v n) ∧ r = (g.countInRegion w).region ∧ (g.uninit = true → u = true) := by
  obtain ⟨v, hv, hn⟩ := allocAll_fields (w.allWrites ex).v g
  refine ⟨v, (g.countInRegion w).region, g.uninit || (w.allReads g ex).v.any g.unwrittenV, ?_, hn, rfl, ?_⟩
  · unfold Group.begin
    rw [hv]
    rfl
  · intro h; simp [h]

/-- Taking a register changes no contents, and the name then holds one. -/
theorem allocV_vreg (g : Group) (a n : Nat) :
    ((g.allocV a).vreg n).alloc = ((g.vreg n).alloc || (n == a && n != 255)) ∧
      ∀ d, ((g.allocV a).vreg n).alloc = true → ((g.allocV a).vreg n).value d = if (g.vreg n).alloc then (g.vreg n).value d else zeroLanes := by
  unfold Group.allocV
  by_cases hn : g.needsReg a
  · simp only [hn, Bool.not_true, Bool.false_eq_true, if_false]
    have ha : a ≠ 255 := by
      intro h
      simp [Group.needsReg, h] at hn
    by_cases hal : (g.vreg a).alloc
    · simp only [hal, if_true, vreg_setVreg]
      by_cases e : a = n
      · subst e; simp [hal, VReg.value]
      · simp only [e, if_false]
        have e' : (n == a) = false := by simp [Ne.symm e]
        simp only [e', Bool.false_and, Bool.or_false, true_and]
        intro d h; simp [h]
    · simp only [hal, Bool.false_eq_true, if_false, vreg_setVreg]
      by_cases e : a = n
      · subst e; simp [hal, ha, VReg.value]
      · simp only [e, if_false]
        have e' : (n == a) = false := by simp [Ne.symm e]
        simp only [e', Bool.false_and, Bool.or_false, true_and]
        intro d h; simp [h]
  · simp only [hn, Bool.not_false, if_true]
    have hh : n = a → n ≠ 255 → (g.vreg n).alloc = true := by
      rintro rfl h2
      simp only [Group.needsReg, Bool.and_eq_true, bne_iff_ne, Bool.or_eq_true, Bool.not_eq_true'] at hn
      by_contra hc
      exact hn ⟨h2, .inl (by simpa using hc)⟩
    refine ⟨?_, fun d h => by simp [h]⟩
    by_cases e : n = a
    · by_cases e2 : n = 255
      · simp [e2]
      · simp [hh e e2]
    · simp [e]

/-- A name that a word writes holds a register once the word has begun, and no contents have changed: an unwritten name reads 0 (R106). -/
theorem allocAll_vreg (ns : List Nat) (g : Group) (n : Nat) :
    ((g.allocAll ns).vreg n).alloc = ((g.vreg n).alloc || (ns.contains n && n != 255)) ∧
      ∀ d, ((g.allocAll ns).vreg n).alloc = true → ((g.allocAll ns).vreg n).value d = if (g.vreg n).alloc then (g.vreg n).value d else zeroLanes := by
  unfold Group.allocAll
  induction ns generalizing g with
  | nil => simp only [List.foldl_nil]; exact ⟨by simp, fun d h => by simp [h]⟩
  | cons a as ih =>
    simp only [List.foldl_cons]
    obtain ⟨h1, h2⟩ := ih (g.allocV a)
    obtain ⟨k1, k2⟩ := allocV_vreg g a n
    refine ⟨?_, fun d h => ?_⟩
    · rw [h1, k1]
      simp only [List.contains_cons]
      cases (g.vreg n).alloc <;> cases (n == a) <;> cases (as.contains n) <;> cases (n != 255) <;> rfl
    · rw [h2 d h]
      by_cases ha : ((g.allocV a).vreg n).alloc
      · rw [if_pos ha, k2 d ha]
      · have : (g.vreg n).alloc = false := by
          rw [k1] at ha
          simp only [Bool.or_eq_true, not_or] at ha
          simpa using ha.1
        simp [this, ha]

@[simp] theorem begin_vreg (g : Group) (w : Word) (ex : Extra) (n : Nat) : (g.begin w ex).vreg n = (g.allocAll (w.allWrites ex).v).vreg n := rfl

/-- What a read of a name gives at an issue distance: 0 where the name is unwritten (R109). -/
theorem allocV_reads (g : Group) (a n d : Nat) :
    (if ((g.allocV a).vreg n).unwritten d then zeroLanes else ((g.allocV a).vreg n).value d) = if (g.vreg n).unwritten d then zeroLanes else (g.vreg n).value d := by
  unfold Group.allocV
  split
  · rfl
  · split
    · simp only [vreg_setVreg]
      split
      · next e => subst e; rfl
      · rfl
    · next hal =>
      simp only [vreg_setVreg]
      split
      · next e => subst e; simp [VReg.unwritten, VReg.value, hal]
      · rfl

theorem allocAll_reads (ns : List Nat) (g : Group) (n d : Nat) :
    (if ((g.allocAll ns).vreg n).unwritten d then zeroLanes else ((g.allocAll ns).vreg n).value d) = if (g.vreg n).unwritten d then zeroLanes else (g.vreg n).value d := by
  unfold Group.allocAll
  induction ns generalizing g with
  | nil => rfl
  | cons a as ih => rw [List.foldl_cons, ih, allocV_reads]

/-- The beginning of a word changes what no read of a vector name gives. -/
theorem begin_readV (g : Group) (w : Word) (ex : Extra) (n : Nat) : (g.begin w ex).readV n = g.readV n := by
  have hd : (g.begin w ex).dist = g.dist := by
    obtain ⟨v, r, u, h, _⟩ := begin_fields g w ex
    rw [h]
  unfold Group.readV
  rw [hd, begin_vreg, allocAll_reads]

theorem readOp_congr (g h : Group) (n : Nat) (pair : Bool) (e : ∀ n, h.readV n = g.readV n) : h.readOp n pair = g.readOp n pair := by
  simp only [Group.readOp, e]

/-- Operands read after the beginning of a word are those before it. -/
theorem source_congr (w : Word) (g h : Group) (act : Mask) (which : Nat) (t : ElemType) (e : ∀ n, h.readV n = g.readV n) :
    w.source h act which t = w.source g act which t := by
  simp only [Word.source, readOp_congr g h _ _ e]

theorem operandB_congr (w : Word) (g h : Group) (act : Mask) (t : ElemType) (e : ∀ n, h.readV n = g.readV n) :
    w.operandB h act t = w.operandB g act t := by
  simp only [Word.operandB, source_congr w g h act 2 t e]

theorem operandD_congr (w : Word) (g h : Group) (e : ∀ n, h.readV n = g.readV n) : w.operandD h = w.operandD g := by
  unfold Word.operandD
  split
  · exact readOp_congr g h _ _ e
  · rfl

/-! ### Ends of words -/

/-- A word whose body changes the issuing group only and is done: where it leaves the machine, field by field. -/
theorem group_done (w : Word) (ex : Extra) (body : State → State × Flow) (s : State) (g' : Group) (h : s.executes w ex = true)
    (hb : body (s.begun w ex) = ({ s.begun w ex with g := g' }, .done)) (hr : g'.replay = none) :
    ∃ t v r, runWord w ex body s = .next t ∧ s.SameUnits t ∧ (∀ n, n ∉ w.releases ex → tget ({} : VReg) v n = tget {} g'.v n) ∧ (w.releases ex = [] → v = g'.v ∧ r = g'.region) ∧
      t.g = { g' with v := v, region := r, pc := w.next s.g.pc, dist := g'.dist + (w.stall + 1), lastSpace := w.stall + 1, gage := 0, wait := if w.stall = 0 then .none else .stall,
                      resume := none, refused := [], stall := w.stall, st := if w.stall = 0 then (if g'.sup then .handler else .ready) else .waitStall, word0 := w.w0, word1 := w.w1 } := by
  obtain ⟨_, v, r, hv, he, hg⟩ := finish_past { s.begun w ex with g := g' } w (w.releases ex) (w.next s.g.pc) (w.stall + 1) hr
  refine ⟨_, v, r, runWord_done w ex body s _ h hb (show s.mem.bad = none from executes_sound h), ?_, hv, he, hg⟩
  exact SameUnits.trans (t := { s.begun w ex with g := g' }) ⟨rfl, rfl, rfl, rfl, rfl, rfl, rfl, rfl, fun _ _ => rfl, rfl⟩ (finish_same _ _ _ _ _ _)

theorem releaseNames_keeps (s : State) (ns : List Nat) :
    (s.releaseNames ns).g.paths = s.g.paths ∧ (s.releaseNames ns).g.mode = s.g.mode ∧ (s.releaseNames ns).g.pc = s.g.pc ∧ (s.releaseNames ns).g.replay = s.g.replay ∧
      (s.releaseNames ns).g.inreg = s.g.inreg := by
  obtain ⟨st, h⟩ := releaseNames_g s ns
  rw [h]
  split
  · exact ⟨rfl, rfl, rfl, rfl, rfl⟩
  · have : ∀ (l : List Nat) (x : Group), (l.foldl Group.releaseV x).paths = x.paths ∧ (l.foldl Group.releaseV x).mode = x.mode ∧ (l.foldl Group.releaseV x).pc = x.pc ∧
        (l.foldl Group.releaseV x).replay = x.replay ∧ (l.foldl Group.releaseV x).region = x.region := by
      intro l
      induction l with
      | nil => intro x; exact ⟨rfl, rfl, rfl, rfl, rfl⟩
      | cons a as ih =>
        intro x
        simp only [List.foldl_cons]
        obtain ⟨h1, h2, h3, h4, h5⟩ := ih (x.releaseV a)
        rw [h1, h2, h3, h4, h5]
        unfold Group.releaseV
        split <;> exact ⟨rfl, rfl, rfl, rfl, rfl⟩
    obtain ⟨h1, h2, h3, h4, h5⟩ := this ns { s.g with region := s.g.region.map fun r => r.untag ns 0xFFFFFFFF }
    refine ⟨h1, h2, h3, h4, ?_⟩
    simp only [Group.releaseAll, Group.inreg, h5, Option.isSome_map]

/-- The check for a pending path at the end of a transfer does nothing where none is due (R21, R151). -/
theorem finish_check (s : State) (w : Word) (rel : List Nat) (pc : W64) (space : Nat) (check : Bool) (hr : s.g.replay = none)
    (hc : check = true → ¬s.g.inreg → pc.toNat ≤ s.g.pc.toNat → oldestPend s.g.paths (fun e => decide ((s.g.mode.extractLsb' 16 16).toNat ≤ e.age.toNat)) = none) :
    s.finish w rel pc space check = s.finish w rel pc space false := by
  obtain ⟨h1, h2, h3, h4, h5⟩ := releaseNames_keeps s rel
  cases check with
  | false => rfl
  | true =>
    simp only [State.finish, issued_g, Bool.true_and, Bool.false_and, Bool.false_eq_true, if_false]
    split
    · next hcond =>
      simp only [Bool.and_eq_true, Bool.not_eq_true', decide_eq_true_eq] at hcond
      have hin : ((s.releaseNames rel).g.endReplay.advance w pc space).inreg = s.g.inreg := by
        simp only [Group.endReplay, h4, hr]
        exact h5
      rw [hin, h3] at hcond
      have hold := hc rfl (by simp [hcond.1]) hcond.2
      have : ((s.releaseNames rel).g.endReplay.advance w pc space).ageSwitch pc = none := by
        simp only [Group.endReplay, h4, hr, Group.ageSwitch, Group.advance, h1, h2, hold]
      rw [this]
      rfl
    · rfl

/-- A word whose body changes the issuing group only and transfers control to t, no pending path being due there (R21, R151). -/
theorem group_goto (w : Word) (ex : Extra) (body : State → State × Flow) (s : State) (g' : Group) (t : W64) (check : Bool) (h : s.executes w ex = true)
    (hb : body (s.begun w ex) = ({ s.begun w ex with g := g' }, .goto t check)) (hr : g'.replay = none)
    (hc : check = true → ¬g'.inreg → (pcBits t).toNat ≤ g'.pc.toNat → oldestPend g'.paths (fun e => decide ((g'.mode.extractLsb' 16 16).toNat ≤ e.age.toNat)) = none) :
    ∃ u v r, runWord w ex body s = .next u ∧ s.SameUnits u ∧ (∀ n, n ∉ w.releases ex → tget ({} : VReg) v n = tget {} g'.v n) ∧ (w.releases ex = [] → v = g'.v ∧ r = g'.region) ∧
      u.g = { g' with v := v, region := r, pc := pcBits t, dist := g'.dist + max 3 (w.stall + 1), lastSpace := max 3 (w.stall + 1), gage := 0, wait := if w.stall = 0 then .none else .stall,
                      resume := none, refused := [], stall := w.stall, st := if w.stall = 0 then (if g'.sup then .handler else .ready) else .waitStall, word0 := w.w0, word1 := w.w1 } := by
  obtain ⟨_, v, r, hv, he, hg⟩ := finish_past { s.begun w ex with g := g' } w (w.releases ex) (pcBits t) (max 3 (w.stall + 1)) hr
  have hsame : ({ s.begun w ex with g := g' } : State).finish w (w.releases ex) (pcBits t) (max 3 (w.stall + 1)) check =
      ({ s.begun w ex with g := g' } : State).finish w (w.releases ex) (pcBits t) (max 3 (w.stall + 1)) false := finish_check _ w _ _ _ check hr hc
  refine ⟨_, v, r, ?_, ?_, hv, he, hg⟩
  · rw [runWord_executes w ex body s h, hb]
    rw [show s.conclude w ex (({ s.begun w ex with g := g' } : State), Flow.goto t check) = ({ s.begun w ex with g := g' } : State).finish w (w.releases ex) (pcBits t) (max 3 (w.stall + 1)) check from rfl, hsame]
    refine answer_next _ ?_
    rw [(finish_same _ _ _ _ _ _).mem]
    exact (show s.mem.bad = none from executes_sound h)
  · exact SameUnits.trans (t := { s.begun w ex with g := g' }) ⟨rfl, rfl, rfl, rfl, rfl, rfl, rfl, rfl, fun _ _ => rfl, rfl⟩ (finish_same _ _ _ _ _ _)

end Sys2Proof.Machine
end

