-- ==== Sys2Proof/Laws/Vector.lean ====
section
/-! SUPPORT. What a vector word does: where its results stand and what it leaves alone. -/

namespace Sys2Proof.Machine

open Sys2Proof

@[simp] theorem setFlags_v (g : Group) (x : W64) : (g.setFlags x).v = g.v := rfl
@[simp] theorem setFlags_dist (g : Group) (x : W64) : (g.setFlags x).dist = g.dist := rfl

theorem writeV_fields (g : Group) (lat n : Nat) (mask : Mask) (bits : W32) (vals : Lanes) :
    ∃ v, g.writeV lat n mask bits vals = { g with v := v } := by
  unfold Group.writeV
  split
  · exact ⟨g.v, rfl⟩
  · exact ⟨_, rfl⟩

/-- Writing one name and dropping its tags. -/
theorem writeUntag_fields (g : Group) (x : RegWrite) (ns : List Nat) :
    ∃ v r, (g.writeV x.lat x.n x.mask x.bits x.vals).untagV ns x.mask x.lat = { g with v := v, region := r } ∧ v = (g.writeV x.lat x.n x.mask x.bits x.vals).v := by
  obtain ⟨v, hv⟩ := writeV_fields g x.lat x.n x.mask x.bits x.vals
  exact ⟨v, g.region.map fun r => r.untag ns x.mask x.lat, by rw [hv]; rfl, by rw [hv]⟩

theorem putWrites_loop (names : RegWrite → List Nat) (ws : List RegWrite) (g : Group) :
    ∃ v r, ws.foldl (fun g x => (g.writeV x.lat x.n x.mask x.bits x.vals).untagV (names x) x.mask x.lat) g = { g with v := v, region := r } ∧
      (∀ n, n ∉ ws.map RegWrite.n → tget ({} : VReg) v n = tget {} g.v n) := by
  induction ws generalizing g with
  | nil => exact ⟨g.v, g.region, rfl, fun _ _ => rfl⟩
  | cons x xs ih =>
    simp only [List.foldl_cons]
    obtain ⟨v', r', hv', hw⟩ := writeUntag_fields g x (names x)
    rw [hv']
    obtain ⟨v, r, hv, hn⟩ := ih { g with v := v', region := r' }
    refine ⟨v, r, hv, fun n hm => ?_⟩
    simp only [List.map_cons, List.mem_cons, not_or] at hm
    rw [hn n hm.2, hw]
    exact writeV_other g x.lat x.n n x.mask x.bits x.vals (Ne.symm hm.1)

/-- `putWrites` changes vector registers, and tags of a region. -/
theorem putWrites_fields (ws : List RegWrite) (g : Group) :
    ∃ v r, g.putWrites ws = { g with v := v, region := r } ∧ (∀ n, n ∉ ws.map RegWrite.n → tget ({} : VReg) v n = tget {} g.v n) :=
  putWrites_loop _ ws g

/-- Results of which no lane is left to the assist are written in full, with their flags and draws. -/
theorem putResults_plain (s : State) (r : VecRes) (h : r.plain = true) :
    putResults s [r] = ({ s with g := { (s.g.putWrites (r.writes (~~~0#32))).setFlags (outFlags r.outs) with gens := outGens s.g.gens r.outs } }, .done) := by
  have ht : ∀ o ∈ r.outs, o.tiny = false := by
    intro o ho
    simpa using List.all_eq_true.1 h o ho
  have h0 : (maskOf fun l => r.outs.any fun o => o.lane == l && o.tiny) = 0 := by
    have : (fun l : Nat => r.outs.any fun o => o.lane == l && o.tiny) = fun _ => false := by
      funext l
      rw [List.any_eq_false]
      intro o ho
      simp [ht o ho]
    rw [this]; rfl
  simp only [putResults, List.flatMap_cons, List.flatMap_nil, List.append_nil, h0, if_true, decide_true, Bool.true_or, List.foldl_cons, List.foldl_nil]
  congr 2
  have hf : (r.outs.filter fun o => !(0 : Mask).getLsbD o.lane) = r.outs := by
    rw [List.filter_eq_self]; intro o _; simp
  rw [hf]; rfl

/-- A name written with a latency reads as `Wrote` says, whatever else of the group differs. -/
theorem wrote_of (g b h : Group) (lat n : Nat) (mask : Mask) (bits : W32) (vals : Lanes) (hn : n ≠ 255) (hd : b.dist = g.dist)
    (ha : (b.vreg n).alloc = true) (hv : ∀ d, (b.vreg n).value d = if (g.vreg n).alloc then (g.vreg n).value d else zeroLanes)
    (hh : h.vreg n = (b.writeV lat n mask bits vals).vreg n) : g.Wrote h lat n mask bits vals := by
  intro d l hdl hl
  have hr : h.readAt d n = (h.vreg n).value d := by
    simp only [Group.readAt, Group.readV, hn, if_false]
    have : (({ h with dist := d } : Group).vreg n).unwritten d = false := by
      change (h.vreg n).unwritten d = false
      rw [hh]
      exact unwritten_writeV b lat n mask bits vals d hn (by omega) ha
    rw [if_neg (by rw [this]; simp)]
    rfl
  have hz : laneAt zeroLanes l = 0 := by
    simp only [laneAt, zeroLanes, List.getD_eq_getElem?_getD, List.getElem?_replicate, hl, if_true, Option.getD_some]
  rw [hr, hh, laneAt_writeV b lat n mask bits vals d l hl hn (by omega)]
  have : laneAt ((b.vreg n).value d) l = g.held d n l := by
    rw [hv, Group.held]
    split
    · rfl
    · exact hz
  rw [this]

/-- The names a result is written to. -/
theorem writes_names (r : VecRes) (mask : Mask) (n : Nat) (h : n ∈ (r.writes mask).map RegWrite.n) : r.n ≠ 255 ∧ (n = r.n ∨ r.pair = true ∧ n = r.n + 1) := by
  unfold VecRes.writes at h
  split at h
  · simp at h
  · next hn =>
    refine ⟨hn, ?_⟩
    split at h <;> simp at h
    · next hp => rcases h with h | h
                 · exact .inl h
                 · exact .inr ⟨hp, h⟩
    · exact .inl h

/-- After its writes a result stands, where the group holds the names' registers and no later step touches the names. -/
theorem stands_of (g b h : Group) (r : VecRes) (hd : b.dist = g.dist)
    (ha : r.n ≠ 255 → ∀ n, n ≠ 255 → (n = r.n ∨ r.pair = true ∧ n = r.n + 1) → (b.vreg n).alloc = true ∧ ∀ d, (b.vreg n).value d = if (g.vreg n).alloc then (g.vreg n).value d else zeroLanes)
    (hp : r.pair = true → r.n ≠ 254)
    (hh : r.n ≠ 255 → ∀ n, n ≠ 255 → (n = r.n ∨ r.pair = true ∧ n = r.n + 1) → h.vreg n = (b.putWrites (r.writes (~~~0#32))).vreg n) : r.Stands g h := by
  intro hn
  have hm : outMask r.outs &&& ~~~0#32 = outMask r.outs := by
    rw [show (~~~0#32 : Mask) = BitVec.allOnes 32 from rfl, BitVec.and_allOnes]
  have untag : ∀ (x : Group) ns mask lat n, (x.untagV ns mask lat).vreg n = x.vreg n := fun _ _ _ _ _ => rfl
  have key : ∀ n, (b.putWrites (r.writes (~~~0#32))).vreg n =
      (if r.pair then ((b.writeV r.lat r.n (outMask r.outs) (BitVec.ofNat 32 r.bits) ((outVals r.outs).map (BitVec.ofNat 32))).untagV [r.n, r.n + 1] (outMask r.outs) r.lat).writeV r.lat (r.n + 1) (outMask r.outs)
          (BitVec.ofNat 32 (r.bits / 2 ^ 32)) ((outVals r.outs).map fun x => BitVec.ofNat 32 (x / 2 ^ 32))
        else b.writeV r.lat r.n (outMask r.outs) (BitVec.ofNat 32 r.bits) ((outVals r.outs).map (BitVec.ofNat 32))).vreg n := by
    intro n
    unfold VecRes.writes Group.putWrites
    simp only [hn, if_false, hm]
    split
    · simp only [List.foldl_cons, List.foldl_nil, untag, List.filter_cons, List.filter_nil, beq_self_eq_true, if_true, List.map_cons, List.map_nil]
    · simp only [List.foldl_cons, List.foldl_nil, untag]
  constructor
  · obtain ⟨h1, h2⟩ := ha hn r.n hn (.inl rfl)
    refine wrote_of g b h r.lat r.n _ _ _ hn hd h1 h2 ?_
    rw [hh hn r.n hn (.inl rfl), key]
    split
    · rw [writeV_other _ _ _ _ _ _ _ (by omega), untag]
    · rfl
  · intro hpair
    have hne : r.n + 1 ≠ 255 := by have := hp hpair; omega
    obtain ⟨h1, h2⟩ := ha hn (r.n + 1) hne (.inr ⟨hpair, rfl⟩)
    obtain ⟨v, hv⟩ := writeV_fields b r.lat r.n (outMask r.outs) (BitVec.ofNat 32 r.bits) ((outVals r.outs).map (BitVec.ofNat 32))
    have e : ((b.writeV r.lat r.n (outMask r.outs) (BitVec.ofNat 32 r.bits) ((outVals r.outs).map (BitVec.ofNat 32))).untagV [r.n, r.n + 1] (outMask r.outs) r.lat).vreg (r.n + 1) = b.vreg (r.n + 1) := by
      rw [untag, writeV_other _ _ _ _ _ _ _ (by omega)]
    refine wrote_of g ((b.writeV r.lat r.n (outMask r.outs) (BitVec.ofNat 32 r.bits) ((outVals r.outs).map (BitVec.ofNat 32))).untagV [r.n, r.n + 1] (outMask r.outs) r.lat) h r.lat (r.n + 1) _ _ _ hne ?_ ?_ ?_ ?_
    · rw [hv]; exact hd
    · rw [e]; exact h1
    · rw [e]; exact h2
    · rw [hh hn (r.n + 1) hne (.inr ⟨hpair, rfl⟩), key, if_pos hpair]

/-- Names released by a word whose D is no source are none of those it writes. -/
theorem releases_disjoint (w : Word) (n : Nat) (hl : w.f.lrd = false) (hn : n ∈ w.writes.v) : n ∉ w.releases {} := by
  unfold Word.releases
  simp only [hl, Bool.false_eq_true, if_false, List.append_nil, List.mem_filter, Bool.not_eq_true', List.contains_eq_mem]
  rintro ⟨_, h⟩
  simp [hn] at h

theorem putWrites_region_loop (ws : List RegWrite) : ∀ (x : Group) (names names' : RegWrite → List Nat) (q : Option Region),
    (ws.foldl (fun (g : Group) x => (g.writeV x.lat x.n x.mask x.bits x.vals).untagV (names x) x.mask x.lat) { x with region := q }).v =
      (ws.foldl (fun (g : Group) x => (g.writeV x.lat x.n x.mask x.bits x.vals).untagV (names' x) x.mask x.lat) x).v := by
  induction ws with
  | nil => intros; rfl
  | cons y ys ih =>
    intro x names names' q
    simp only [List.foldl_cons]
    have hwv : ∃ vv, x.writeV y.lat y.n y.mask y.bits y.vals = { x with v := vv } ∧ ({ x with region := q } : Group).writeV y.lat y.n y.mask y.bits y.vals = { x with region := q, v := vv } := by
      unfold Group.writeV
      split
      · exact ⟨x.v, rfl, rfl⟩
      · exact ⟨_, rfl, rfl⟩
    obtain ⟨vv, e1, e2⟩ := hwv
    rw [e1, e2]
    exact (ih { x with v := vv } names names' _).trans (ih { x with v := vv } names' names' _).symm

/-- The registers after the writes of a result do not depend on an open region. -/
theorem putWrites_region (ws : List RegWrite) (g : Group) (q : Option Region) : (({ g with region := q } : Group).putWrites ws).v = (g.putWrites ws).v :=
  putWrites_region_loop ws g _ _ q

/-- A word whose body writes one vector result, and of the group's other fields only a region, sticky flags and generators. -/
theorem vector_done (w : Word) (body : State → State × Flow) (s : State) (g' : Group) (r : VecRes) (q region : Option Region) (mode : W64) (gens : List W32)
    (h : s.executes w {} = true) (hb : body (s.begun w {}) = ({ s.begun w {} with g := g' }, .done))
    (hg : g' = { (({ s.g.begin w {} with region := q } : Group).putWrites (r.writes (~~~0#32))) with region := region, mode := mode, gens := gens })
    (hmode : mode ||| 0xF800 = s.g.mode ||| 0xF800) (hw : w.writes.v = vecNames r.n r.pair) (hl : w.f.lrd = false) (hp : r.pair = true → r.n ≠ 254) :
    ∃ t, runWord w {} body s = .next t ∧ s.SameUnits t ∧ s.g.Past w t.g (w.next s.g.pc) (w.stall + 1) ∧ r.Stands s.g t.g ∧ s.g.VectorFrame t.g w ∧
      t.g.mode = mode ∧ t.g.gens = gens := by
  have hwx : (w.allWrites {}).v = w.writes.v := by simp [Word.allWrites, Names.append]
  have hmem : r.n ≠ 255 → ∀ n, (n = r.n ∨ r.pair = true ∧ n = r.n + 1) → n ∈ w.writes.v := by
    intro h255 n hcase
    rw [hw]
    unfold vecNames
    rw [if_neg h255]
    rcases hcase with rfl | ⟨hpair, rfl⟩
    · split <;> simp
    · rw [if_pos hpair]; simp
  obtain ⟨v0, r0, u0, hbeg, hv0, _, _⟩ := begin_fields s.g w {}
  obtain ⟨v1, r1, hput, hv1⟩ := putWrites_fields (r.writes (~~~0#32)) (s.g.begin w {})
  obtain ⟨vq, rq, hputq, _⟩ := putWrites_fields (r.writes (~~~0#32)) { s.g.begin w {} with region := q }
  have hvq : vq = v1 := by
    have := putWrites_region (r.writes (~~~0#32)) (s.g.begin w {}) q
    rw [hputq, hput] at this
    exact this
  have hE : g' = { s.g with v := v1, region := region, mode := mode, gens := gens, paths := agePaths s.g.paths, uninit := u0, wait := .none } := by
    rw [hg, hputq, hvq, hbeg]
  have hv1' : ((s.g.begin w {}).putWrites (r.writes (~~~0#32))).v = v1 := by rw [hput]
  refine ⟨_, runWord_done w {} body s _ h hb (show s.mem.bad = none from executes_sound h), ?_, ?_⟩
  · exact SameUnits.trans (t := { s.begun w {} with g := g' }) ⟨rfl, rfl, rfl, rfl, rfl, rfl, rfl, rfl, fun _ _ => rfl, rfl⟩ (finish_same _ _ _ _ _ _)
  obtain ⟨hpast, v2, r2, hv2, _, hfin⟩ := finish_past { s.begun w {} with g := g' } w (w.releases {}) (w.next s.g.pc) (w.stall + 1) (by
    simp only [hE]; exact executes_replay h)
  generalize ({ s.begun w {} with g := g' } : State).finish w (w.releases {}) (w.next s.g.pc) (w.stall + 1) false = t at *
  simp only [hE] at hpast hv2 hfin
  have hreg : ∀ n, n ∉ w.releases {} → t.g.vreg n = ((s.g.begin w {}).putWrites (r.writes (~~~0#32))).vreg n := by
    intro n hn
    rw [hfin]
    change tget ({} : VReg) v2 n = tget {} _ n
    rw [hv2 n hn, hv1']
  refine ⟨⟨hpast.pc, hpast.dist, hpast.stall, hpast.st⟩, ?_, ?_, ?_, ?_⟩
  · refine stands_of s.g (s.g.begin w {}) _ r (by rw [hbeg]) ?_ hp ?_
    · intro h255 n hn hcase
      obtain ⟨h1, h2⟩ := allocAll_vreg (w.allWrites {}).v s.g n
      have hal : ((s.g.allocAll (w.allWrites {}).v).vreg n).alloc = true := by
        rw [h1, hwx]; simp [hmem h255 n hcase, hn]
      exact ⟨hal, fun d => h2 d hal⟩
    · intro h255 n hn hcase
      exact hreg n (releases_disjoint w n hl (hmem h255 n hcase))
  · refine ⟨?_, ?_, ?_, ?_, ?_, ?_⟩
    · intro n hn hr
      rw [hreg n hr]
      have hnw : n ∉ (r.writes (~~~0#32)).map RegWrite.n := by
        intro hc
        obtain ⟨h255, hcase⟩ := writes_names r _ n hc
        exact hn (hmem h255 n hcase)
      change tget ({} : VReg) _ n = _
      rw [hv1', hv1 n hnw, hbeg]
      exact hv0 n (by rw [hwx]; exact hn)
    all_goals rw [hfin]
    · exact hmode
    · exact ⟨rfl, rfl, rfl, rfl, rfl, rfl, rfl, rfl, rfl, rfl, rfl, rfl⟩
  · rw [hfin]
  · rw [hfin]

/-! ### Words with one result -/

/-- Two groups of which a word reads the same: registers, masks, generators, MODE and WID. -/
structure Group.Alike (g h : Group) : Prop where
  v    : ∀ n, h.readV n = g.readV n
  m    : h.m = g.m
  m0   : h.m0 = g.m0
  k    : h.k = g.k
  dist : h.dist = g.dist
  gens : h.gens = g.gens
  mode : h.mode = g.mode
  wid  : h.wid = g.wid

theorem Alike.readM {g h : Group} (e : g.Alike h) (n : Nat) : h.readM n = g.readM n := by simp only [Group.readM, e.m, e.m0, e.dist]
theorem Alike.readK {g h : Group} (e : g.Alike h) (n : Nat) : h.readK n = g.readK n := by simp only [Group.readK, e.k, e.dist]
theorem Alike.active {g h : Group} (e : g.Alike h) (p : Nat) : h.active p = g.active p := by simp only [Group.active, e.m0, Alike.readM e]
theorem Alike.rm {g h : Group} (e : g.Alike h) (w : Word) : w.rm h = w.rm g := by simp only [Word.rm, e.mode]

/-- Elements of a word read from alike groups are alike. -/
theorem elementwise_congr (w : Word) {g h : Group} (e : g.Alike h) (act : Mask) (t : ElemType) (a b d : List Nat) (draws : Bool) (f : Nat → Nat → Nat → Nat → FRes) :
    elementwise w h act t a b d draws f = elementwise w g act t a b d draws f := by simp only [elementwise, e.gens]

/-- The group in which a body begins is alike the one that issues. -/
theorem begin_alike (g : Group) (w : Word) (ex : Extra) : g.Alike (g.begin w ex) := by
  obtain ⟨v, r, u, h, _⟩ := begin_fields g w ex
  exact ⟨begin_readV g w ex, by rw [h], by rw [h], by rw [h], by rw [h], by rw [h], by rw [h], by rw [h]⟩

theorem concreteReads_alike (g : Group) (w : Word) (act : Mask) : g.Alike (g.concreteReads w act) :=
  ⟨fun _ => rfl, rfl, rfl, rfl, rfl, rfl, rfl, rfl⟩

theorem Alike.trans {a b c : Group} (h : a.Alike b) (k : b.Alike c) : a.Alike c :=
  ⟨fun n => (k.v n).trans (h.v n), k.2.trans h.2, k.3.trans h.3, k.4.trans h.4, k.5.trans h.5, k.6.trans h.6, k.7.trans h.7, k.8.trans h.8⟩

/-- A 64-bit type code is one whose element takes a pair. -/
theorem codePair_type (x : BitVec 5) : codePair x.toNat = elemPair ((elemOf x.toNat).getD .n32) := by
  revert x; decide

/-- A body that writes one plain result, from and into an open region as it likes: the word completes. -/
theorem result_plain (w : Word) (body : State → State × Flow) (s : State) (r : VecRes) (q : Option Region) (F : Group → Group) (hF : ∀ x, ∃ rg, F x = { x with region := rg })
    (h : s.executes w {} = true) (hlat : r.lat = w.lat)
    (hb : body (s.begun w {}) = ({ s.begun w {} with g := F { ((({ s.g.begin w {} with region := q } : Group).putWrites (r.writes (~~~0#32))).setFlags (outFlags r.outs)) with gens := outGens (s.g.begin w {}).gens r.outs } }, .done))
    (hw : w.writes.v = vecNames r.n r.pair) (hl : w.f.lrd = false) (hp : r.pair = true → r.n ≠ 254) :
    ∃ t, runWord w {} body s = .next t ∧ VectorDone s t w r := by
  have hm : (s.g.begin w {}).mode = s.g.mode := (begin_alike s.g w {}).mode
  have hgens : (s.g.begin w {}).gens = s.g.gens := (begin_alike s.g w {}).gens
  obtain ⟨rg, hrg⟩ := hF { ((({ s.g.begin w {} with region := q } : Group).putWrites (r.writes (~~~0#32))).setFlags (outFlags r.outs)) with gens := outGens (s.g.begin w {}).gens r.outs }
  have key : ∀ (X : Group) (fl : W64) (gs : List W32), X.mode = s.g.mode →
      ({ ({ X.setFlags fl with gens := gs } : Group) with region := rg } : Group) = { X with region := rg, mode := s.g.mode ||| (fl &&& 0xF800), gens := gs } := by
    intro X fl gs e
    simp only [Group.setFlags, e]
  obtain ⟨v, rg', hput, _⟩ := putWrites_fields (r.writes (~~~0#32)) { s.g.begin w {} with region := q }
  obtain ⟨t, h1, h2, h3, h4, h5, h6, h7⟩ := vector_done w body s _ r q rg (s.g.mode ||| (outFlags r.outs &&& 0xF800)) (outGens (s.g.begin w {}).gens r.outs) h hb
    (hrg.trans (key _ _ _ (by rw [hput]; exact hm)))
    (by
      rw [BitVec.or_assoc]
      congr 1
      ext j
      simp) hw hl hp
  rw [hgens] at h7
  refine ⟨t, h1, h2, h3, ?_, h5, h6, h7⟩
  cases r
  simp only at hlat
  subst hlat
  exact h4

/-- Marking what a narrow result keeps changes an open region alone. -/
theorem concreteKept_eq (g : Group) (r : VecRes) : g.concreteKept r = { g with region := (g.concreteKept r).region } := by
  unfold Group.concreteKept
  split <;> split <;> rfl

/-- A vector word with one plain result: it completes, the result stands, and all else is as the frame says. -/
theorem runVector_plain (w : Word) (body : Group → Mask → VecRes) (s : State) (h : s.executes w {} = true)
    (hc : ∀ g', s.g.Alike g' → body g' (s.g.active w.f.pred.toNat) = body s.g (s.g.active w.f.pred.toNat))
    (hplain : (body s.g (s.g.active w.f.pred.toNat)).plain = true)
    (hw : w.writes.v = vecNames (body s.g (s.g.active w.f.pred.toNat)).n (body s.g (s.g.active w.f.pred.toNat)).pair) (hl : w.f.lrd = false)
    (hp : (body s.g (s.g.active w.f.pred.toNat)).pair = true → (body s.g (s.g.active w.f.pred.toNat)).n ≠ 254) :
    ∃ t, runVector w body s = .next t ∧ VectorDone s t w (body s.g (s.g.active w.f.pred.toNat)) := by
  have hact : (s.begun w {}).g.active w.f.pred.toNat = s.g.active w.f.pred.toNat := Alike.active (begin_alike s.g w {}) _
  have hal : s.g.Alike ((s.g.begin w {}).concreteReads w (s.g.active w.f.pred.toNat)) := Alike.trans (begin_alike s.g w {}) (concreteReads_alike _ _ _)
  unfold runVector
  obtain ⟨t, h1, h2⟩ := result_plain w (fun s =>
      let act := s.g.active w.f.pred.toNat
      let g := s.g.concreteReads w act
      let r := body g act
      putResults { s with g := g.concreteKept r } [{ r with lat := w.lat }]) s { body s.g (s.g.active w.f.pred.toNat) with lat := w.lat }
    (((s.g.begin w {}).concreteReads w (s.g.active w.f.pred.toNat)).concreteKept (body s.g (s.g.active w.f.pred.toNat))).region id (fun x => ⟨x.region, rfl⟩) h rfl (by
      simp only [hact]
      rw [show ∀ m, (s.begun w {}).g.concreteReads w m = (s.g.begin w {}).concreteReads w m from fun _ => rfl, hc _ hal, concreteKept_eq]
      exact putResults_plain _ _ hplain) hw hl hp
  exact ⟨t, h1, h2.1, h2.2, h2.3, h2.4, h2.5, h2.6⟩

end Sys2Proof.Machine
end

