-- ==== Sys2Proof/Laws/VectorResults.lean ====
section
/-! SUPPORT. Results of vector words: they depend on what a group reads and on nothing else, and integer results leave no lane to the assist routine. -/

namespace Sys2Proof.Machine

open Sys2Proof

theorem Alike.source {g h : Group} (e : g.Alike h) (w : Word) (act : Mask) (which : Nat) (t : ElemType) : w.source h act which t = w.source g act which t := source_congr w g h act which t e.v
theorem Alike.operandB {g h : Group} (e : g.Alike h) (w : Word) (act : Mask) (t : ElemType) : w.operandB h act t = w.operandB g act t := operandB_congr w g h act t e.v
theorem Alike.operandD {g h : Group} (e : g.Alike h) (w : Word) : w.operandD h = w.operandD g := operandD_congr w g h e.v

theorem intResult_congr (op : IntOp) (w : Word) {g h : Group} (e : g.Alike h) (act : Mask) : intResult op w h act = intResult op w g act := by
  simp only [intResult, intOperandB, elementwise_congr w e, Alike.source e, Alike.operandB e, Alike.operandD e]

theorem fieldResult_congr (ins : Bool) (w : Word) {g h : Group} (e : g.Alike h) (act : Mask) : fieldResult ins w h act = fieldResult ins w g act := by
  have hb : fieldOperandB w h act = fieldOperandB w g act := by
    unfold fieldOperandB
    split
    · rfl
    · exact Alike.source e _ _ _ _
  simp only [fieldResult, Alike.source e, hb, Alike.operandD e, e.gens]

theorem dotResult_congr (w : Word) {g h : Group} (e : g.Alike h) (act : Mask) : dotResult w h act = dotResult w g act := by
  simp only [dotResult, Alike.source e, Alike.operandB e, Alike.operandD e, e.gens]

theorem selectResult_congr (w : Word) {g h : Group} (e : g.Alike h) (act : Mask) : selectResult w h act = selectResult w g act := by
  simp only [selectResult, Alike.source e, Alike.operandB e, Alike.readM e, e.gens]

theorem widResult_congr (hd : Header) (w : Word) {g h : Group} (e : g.Alike h) (act : Mask) : widResult hd w h act = widResult hd w g act := by
  simp only [widResult, e.wid, e.gens]

theorem fpResult_congr (op : FOp) (w : Word) {g h : Group} (e : g.Alike h) (act : Mask) : fpResult op w h act = fpResult op w g act := by
  simp only [fpResult, elementwise_congr w e, Alike.source e, Alike.operandB e, Alike.operandD e, Word.draws, Alike.rm e, e.mode]

theorem minMaxResult_congr (x : Bool) (w : Word) {g h : Group} (e : g.Alike h) (act : Mask) : minMaxResult x w h act = minMaxResult x w g act := by
  simp only [minMaxResult, elementwise_congr w e, Alike.source e, Alike.operandB e, e.mode]

theorem absResult_congr (w : Word) {g h : Group} (e : g.Alike h) (act : Mask) : absResult w h act = absResult w g act := by
  simp only [absResult, elementwise_congr w e, Alike.source e, e.mode]

theorem classResult_congr (w : Word) {g h : Group} (e : g.Alike h) (act : Mask) : classResult w h act = classResult w g act := by
  simp only [classResult, elementwise_congr w e, Alike.source e]

theorem transResult_congr (op : TOp) (w : Word) {g h : Group} (e : g.Alike h) (act : Mask) : transResult op w h act = transResult op w g act := by
  simp only [transResult, elementwise_congr w e, Alike.source e, Word.draws, Alike.rm e, e.mode]

theorem cvtResult_congr (w : Word) {g h : Group} (e : g.Alike h) (act : Mask) : cvtResult w h act = cvtResult w g act := by
  simp only [cvtResult, Alike.source e, Word.draws, Alike.rm e, e.mode, e.gens]

theorem packResult_congr (w : Word) {g h : Group} (e : g.Alike h) (act : Mask) : packResult w h act = packResult w g act := by
  simp only [packResult, Alike.source e, Word.draws, Alike.rm e, e.mode, e.gens]

theorem unpackResult_congr (w : Word) {g h : Group} (e : g.Alike h) (act : Mask) : unpackResult w h act = unpackResult w g act := by
  simp only [unpackResult, Alike.source e, e.mode, e.gens]

theorem movResult_congr (w : Word) {g h : Group} (e : g.Alike h) (act : Mask) : movResult w h act = movResult w g act := by
  simp only [movResult, plainResult, Alike.operandB e, e.gens]

theorem movkResult_congr (w : Word) {g h : Group} (e : g.Alike h) (act : Mask) : movkResult w h act = movkResult w g act := by
  simp only [movkResult, plainResult, Alike.readK e, e.gens]

theorem permResult_congr (w : Word) (f : List Nat → Nat → Nat → Nat) {g h : Group} (e : g.Alike h) (act : Mask) : permResult w f h act = permResult w f g act := by
  simp only [permResult, permB, plainResult, Alike.source e, e.gens]

theorem chainResult_congr (red : Bool) (w : Word) {g h : Group} (e : g.Alike h) (act : Mask) : chainResult red w h act = chainResult red w g act := by
  simp only [chainResult, chain, Alike.source e, Alike.rm e, e.mode, e.gens]

/-! ### No lane left to the assist -/

theorem laneOut_tiny (l w n pos : Nat) (draws : Bool) (gen : W32) (f : Nat → Nat → FRes) (h : ∀ i x, (f i x).tiny = false) : (laneOut l w n pos draws gen f).tiny = false := by
  unfold laneOut
  have : ∀ (is : List Nat) (o : LaneOut), o.tiny = false → (is.foldl (fun (o : LaneOut) i =>
      let gen := if draws then drawNext o.gen else o.gen
      let r := f i gen.toNat
      { o with val := o.val + r.bits % 2 ^ w * 2 ^ (w * (pos + i)), flags := o.flags ||| r.flags, gen := gen, tiny := o.tiny || r.tiny }) o).tiny = false := by
    intro is
    induction is with
    | nil => intro o h; exact h
    | cons i is ih => intro o ho; exact ih _ (by simp [ho, h])
  exact this _ _ rfl

theorem elementwise_plain (w : Word) (g : Group) (act : Mask) (t : ElemType) (a b d : List Nat) (draws : Bool) (f : Nat → Nat → Nat → Nat → FRes)
    (h : ∀ x a b d, (f x a b d).tiny = false) : (elementwise w g act t a b d draws f).plain = true := by
  simp only [VecRes.plain, elementwise, List.all_eq_true, List.mem_map, forall_exists_index, and_imp]
  rintro o l _ rfl
  rw [laneOut_tiny _ _ _ _ _ _ _ fun i x => h _ _ _ _]
  rfl

theorem intResult_plain (op : IntOp) (w : Word) (g : Group) (act : Mask) : (intResult op w g act).plain = true :=
  elementwise_plain _ _ _ _ _ _ _ _ _ fun _ _ _ _ => rfl

theorem mapped_plain (n : Nat) (pair : Bool) (bits lat : Nat) (ls : List Nat) (f : Nat → LaneOut) (h : ∀ l, (f l).tiny = false) :
    ({ n := n, pair := pair, bits := bits, outs := ls.map f, lat := lat } : VecRes).plain = true := by
  simp only [VecRes.plain, List.all_eq_true, List.mem_map, forall_exists_index, and_imp]
  rintro o l _ rfl
  rw [h]; rfl

theorem fieldResult_plain (ins : Bool) (w : Word) (g : Group) (act : Mask) : (fieldResult ins w g act).plain = true := mapped_plain _ _ _ _ _ _ fun _ => rfl
theorem dotResult_plain (w : Word) (g : Group) (act : Mask) : (dotResult w g act).plain = true := mapped_plain _ _ _ _ _ _ fun _ => rfl
theorem selectResult_plain (w : Word) (g : Group) (act : Mask) : (selectResult w g act).plain = true := mapped_plain _ _ _ _ _ _ fun _ => rfl
theorem widResult_plain (hd : Header) (w : Word) (g : Group) (act : Mask) : (widResult hd w g act).plain = true := mapped_plain _ _ _ _ _ _ fun _ => rfl

/-- No integer result leaves a lane to the assist routine. -/
theorem integerResult_plain (i : Instr) (w : Word) (s : State) (body : Group → Mask → VecRes) (h : integerResult i w s = some body) (g : Group) (act : Mask) :
    (body g act).plain = true := by
  unfold integerResult at h
  split at h <;> cases h
  all_goals simp only [intResult_plain, fieldResult_plain, dotResult_plain, selectResult_plain, widResult_plain]

/-- An integer result depends on nothing but what the group reads. -/
theorem integerResult_congr (i : Instr) (w : Word) (s : State) (body : Group → Mask → VecRes) (h : integerResult i w s = some body) {g g' : Group} (e : g.Alike g') (act : Mask) :
    body g' act = body g act := by
  unfold integerResult at h
  split at h <;> cases h
  all_goals simp only [intResult_congr (e := e), fieldResult_congr (e := e), dotResult_congr (e := e), selectResult_congr (e := e), widResult_congr (e := e)]

theorem floatResult_congr (i : Instr) (w : Word) (body : Group → Mask → VecRes) (h : floatResult i w = some body) {g g' : Group} (e : g.Alike g') (act : Mask) :
    body g' act = body g act := by
  unfold floatResult at h
  split at h <;> cases h
  all_goals simp only [fpResult_congr (e := e), minMaxResult_congr (e := e), absResult_congr (e := e), classResult_congr (e := e), transResult_congr (e := e), cvtResult_congr (e := e), packResult_congr (e := e), unpackResult_congr (e := e)]

theorem moveResult_congr (i : Instr) (w : Word) (body : Group → Mask → VecRes) (h : moveResult i w = some body) {g g' : Group} (e : g.Alike g') (act : Mask) :
    body g' act = body g act := by
  unfold moveResult at h
  split at h <;> cases h
  all_goals simp only [movResult_congr (e := e), movkResult_congr (e := e), permResult_congr (e := e), chainResult_congr (e := e)]

/-! ### The common form of vector words with one result -/

theorem issue_range {s : State} {w : Word} {ex : Extra} (h : s.executes w ex = true) : fieldInRange s.g w w.sh.d w.f.d = true := by
  simp only [State.executes, Bool.and_eq_true, Option.isNone_iff_eq_none] at h
  have hf := h.1.1.2
  unfold issueFault at hf
  repeat' split at hf
  all_goals simp_all

theorem wf_form {i : Instr} {sh : Shape} (hs : shape i = some sh) (h : i.wellFormed = true) : formOk sh (fieldsOf i) (literalOf i) = true := by
  simp only [Instr.wellFormed, opcodeOk, Bool.and_eq_true] at h
  have h1 := h.1
  split at h1
  · cases hs
  · rw [hs] at h1
    simp only [Bool.and_eq_true] at h1
    exact h1.1

/-- Is D of the class whose width the type gives? -/
def vecD (sh : Shape) : Bool := sh.d == .reg .vec .dst || sh.d == .reg .vec .both

/-- A word whose one register result is vector name D. -/
def oneVector (sh : Shape) : Bool :=
  (sh.d == .reg .vec .dst || sh.d == .reg .vec .both || sh.d == .reg .plain .dst || sh.d == .reg .plain .both) &&
  (match sh.a with | .reg _ .src => true | .reg _ _ => false | _ => true) && (match sh.b with | .reg _ .src => true | .reg _ _ => false | _ => true) && sh.op != 0x3C1 && sh.mid != .scaled

/-- The names such a word writes. -/
theorem oneVector_writes (w : Word) (h : oneVector w.sh = true) : w.writes.v = vecNames w.f.d.toNat (vecD w.sh && codePair w.f.xf.toNat) := by
  simp only [oneVector, Bool.and_eq_true] at h
  obtain ⟨⟨⟨⟨hd, ha⟩, hb⟩, _⟩, hm⟩ := h
  have ea : (w.useNames false w.sh.a w.f.a).v = [] := by
    unfold Word.useNames
    split at ha <;> simp_all
  have eb : (w.useNames false w.sh.b w.f.b).v = [] := by
    unfold Word.useNames
    split at hb <;> simp_all
  have hv : vecPair w.sh w.f w.lit = codePair w.f.xf.toNat := by
    unfold vecPair
    split <;> simp_all
  simp only [Word.writes, Names.append, ea, eb, List.nil_append, List.append_nil]
  simp only [Bool.or_eq_true, beq_iff_eq] at hd
  rcases hd with ((hd | hd) | hd) | hd <;> simp [hd, Word.useNames, Word.fieldNames, Word.pair, classPair, hv, vecD] <;> rfl

theorem oneVector_lrd (sh : Shape) (f : FForm) (l : Literal) (h : formOk sh f l = true) (hd : oneVector sh = true) : f.lrd = false := by
  simp only [formOk, Bool.and_eq_true] at h
  obtain ⟨⟨⟨_, h⟩, _⟩, _⟩ := h
  simp only [oneVector, Bool.and_eq_true, Bool.or_eq_true, beq_iff_eq] at hd
  unfold lastReadDOk at h
  rcases hd.1.1.1.1 with ((hd | hd) | hd) | hd <;> rw [hd] at h <;> simpa using h

theorem oneVector_254 {s : State} {w : Word} (h : s.executes w {} = true) (hd : oneVector w.sh = true) (hp : (vecD w.sh && codePair w.f.xf.toNat) = true) : w.f.d.toNat ≠ 254 := by
  have hr := issue_range h
  have hv : vecPair w.sh w.f w.lit = codePair w.f.xf.toNat := by
    simp only [oneVector, Bool.and_eq_true] at hd
    unfold vecPair
    split <;> simp_all
  simp only [oneVector, Bool.and_eq_true, Bool.or_eq_true, beq_iff_eq] at hd
  simp only [vecD, Bool.and_eq_true, Bool.or_eq_true, beq_iff_eq] at hp
  unfold fieldInRange at hr
  rcases hp.1 with hd | hd
  · simp only [hd, Word.pair, classPair, hv, hp.2, if_true] at hr; intro e; simp [e] at hr
  · simp only [hd, Word.pair, classPair, hv, hp.2, if_true] at hr; intro e; simp [e] at hr

/-- The common form of a vector word with one result: D is written, its last-read bit is clear, and D is no pair at 254. -/
theorem oneVector_form (i : Instr) (w : Word) (s : State) (sh : Shape) (hs : shape i = some sh) (hw : wordOf i = some w) (hwf : i.wellFormed = true) (h : s.executes w {} = true) (hO : oneVector sh = true) :
    w.writes.v = vecNames w.f.d.toNat (vecD sh && codePair w.f.xf.toNat) ∧ w.f.lrd = false ∧
      ((vecD sh && codePair w.f.xf.toNat) = true → w.f.d.toNat ≠ 254) := by
  have e : w.sh = sh ∧ w.f = fieldsOf i ∧ w.lit = literalOf i := by
    unfold wordOf at hw; rw [hs] at hw; cases hw; exact ⟨rfl, rfl, rfl⟩
  have hform := wf_form hs hwf
  rw [← e.1] at hO ⊢
  rw [← e.1, ← e.2.1, ← e.2.2] at hform
  exact ⟨oneVector_writes w hO, oneVector_lrd _ _ _ hform hO, oneVector_254 h hO⟩

/-- A vector word completes with its result. -/
theorem runVector_word (i : Instr) (w : Word) (s : State) (body : Group → Mask → VecRes) (sh : Shape) (hs : shape i = some sh) (hw : wordOf i = some w)
    (hwf : i.wellFormed = true) (h : s.executes w {} = true) (hO : oneVector sh = true)
    (hc : ∀ g', s.g.Alike g' → body g' (s.g.active w.f.pred.toNat) = body s.g (s.g.active w.f.pred.toNat)) (hplain : (body s.g (s.g.active w.f.pred.toNat)).plain = true)
    (hn : (body s.g (s.g.active w.f.pred.toNat)).n = w.f.d.toNat) (hp : (body s.g (s.g.active w.f.pred.toNat)).pair = (vecD sh && codePair w.f.xf.toNat)) :
    ∃ t, runVector w body s = .next t ∧ VectorDone s t w (body s.g (s.g.active w.f.pred.toNat)) := by
  obtain ⟨h1, h2, h3⟩ := oneVector_form i w s sh hs hw hwf h hO
  exact runVector_plain w body s h hc hplain (by rw [hn, hp]; exact h1) h2 (by rw [hn, hp]; exact h3)

/-- `vadd` and `vsub` complete with their result. -/
theorem runAdd_word (sub : Bool) (i : Instr) (w : Word) (s : State) (sh : Shape) (hs : shape i = some sh) (hw : wordOf i = some w)
    (hwf : i.wellFormed = true) (h : s.executes w {} = true) (hO : oneVector sh = true) (hd : vecD sh = true) :
    ∃ t, runAdd sub w s = .next t ∧ VectorDone s t w (intResult (if sub then .sub else .add) w s.g (s.g.active w.f.pred.toNat)) := by
  obtain ⟨h1, h2, h3⟩ := oneVector_form i w s sh hs hw hwf h hO
  simp only [hd, Bool.true_and] at h1 h3
  have hact : (s.begun w {}).g.active w.f.pred.toNat = s.g.active w.f.pred.toNat := Alike.active (begin_alike s.g w {}) _
  have hpl := intResult_plain (if sub then .sub else .add) w s.g (s.g.active w.f.pred.toNat)
  have hpair : codePair w.f.xf.toNat = elemPair w.type := codePair_type _
  unfold runAdd
  obtain ⟨t, k1, k2⟩ := result_plain w (fun s =>
      let act := s.g.active w.f.pred.toNat
      let r := putResults s [{ intResult (if sub then .sub else .add) w s.g act with lat := w.lat }]
      let tagged := s.g.addTags w w.type act sub
      ({ r.1 with g := { r.1.g with region := tagged.region } }, r.2)) s { intResult (if sub then .sub else .add) w s.g (s.g.active w.f.pred.toNat) with lat := w.lat }
    (s.g.begin w {}).region (fun x => { x with region := ((s.g.begin w {}).addTags w w.type (s.g.active w.f.pred.toNat) sub).region }) (fun x => ⟨_, rfl⟩) h rfl (by
      simp only [hact]
      rw [show ∀ m, intResult (if sub then .sub else .add) w (s.begun w {}).g m = intResult (if sub then .sub else .add) w (s.g.begin w {}) m from fun _ => rfl,
        intResult_congr _ _ (begin_alike s.g w {})]
      have P := putResults_plain (s.begun w {}) { intResult (if sub then .sub else .add) w s.g (s.g.active w.f.pred.toNat) with lat := w.lat } hpl
      refine Prod.ext ?_ ?_
      · simp only [P]; rfl
      · simp only [P]) (by rw [h1, hpair]; rfl) h2 (by rw [hpair] at h3; exact h3)
  exact ⟨t, k1, k2.1, k2.2, k2.3, k2.4, k2.5, k2.6⟩

/-- A permute completes with its result. -/
theorem runPermute_word (lanesRead : Nat → Nat → List Nat) (f : List Nat → Nat → Nat → Nat) (i : Instr) (w : Word) (s : State) (sh : Shape) (hs : shape i = some sh) (hw : wordOf i = some w)
    (hwf : i.wellFormed = true) (h : s.executes w {} = true) (hO : oneVector sh = true) (hd : vecD sh = true) :
    ∃ t, runPermute w lanesRead f s = .next t ∧ VectorDone s t w (permResult w f s.g (s.g.active w.f.pred.toNat)) := by
  obtain ⟨h1, h2, h3⟩ := oneVector_form i w s sh hs hw hwf h hO
  simp only [hd, Bool.true_and] at h1 h3
  have hact : (s.begun w {}).g.active w.f.pred.toNat = s.g.active w.f.pred.toNat := Alike.active (begin_alike s.g w {}) _
  have hpl : (permResult w f s.g (s.g.active w.f.pred.toNat)).plain = true := mapped_plain _ _ _ _ _ _ fun _ => rfl
  have hpair : codePair w.f.xf.toNat = elemPair w.type := codePair_type _
  unfold runPermute
  generalize hB : (fun s : State =>
    let act := s.g.active w.f.pred.toNat
    let b := permB w s.g act
    let g := s.g.concreteLanes (w.srcNames 1) ((lanesOf act).flatMap fun l => (lanesRead l (b.getD l 0)).map (w.srcLane act 1))
    let g := g.concreteLanes (w.srcNames 2) ((lanesOf act).map (w.srcLane act 2))
    putResults { s with g := g } [{ permResult w f g act with lat := w.lat }]) = B
  have hq : ∃ q, B (s.begun w {}) = putResults { s.begun w {} with g := { s.g.begin w {} with region := q } } [{ permResult w f s.g (s.g.active w.f.pred.toNat) with lat := w.lat }] := by
    have hG : ∀ (x : Group) ls ls', ∃ q, (x.concreteLanes (w.srcNames 1) ls).concreteLanes (w.srcNames 2) ls' = { x with region := q } := fun _ _ _ => ⟨_, rfl⟩
    obtain ⟨q, hG⟩ := hG (s.g.begin w {}) ((lanesOf (s.g.active w.f.pred.toNat)).flatMap fun l => (lanesRead l ((permB w (s.g.begin w {}) (s.g.active w.f.pred.toNat)).getD l 0)).map (w.srcLane (s.g.active w.f.pred.toNat) 1))
      ((lanesOf (s.g.active w.f.pred.toNat)).map (w.srcLane (s.g.active w.f.pred.toNat) 2))
    refine ⟨q, ?_⟩
    subst hB
    simp only [hact]
    rw [show (s.begun w {}).g = s.g.begin w {} from rfl, hG]
    exact congrArg (fun R : VecRes => putResults { s.begun w {} with g := { s.g.begin w {} with region := q } } [{ R with lat := w.lat }])
      (permResult_congr w f (g := s.g) (h := { s.g.begin w {} with region := q }) (Alike.trans (begin_alike s.g w {}) ⟨fun _ => rfl, rfl, rfl, rfl, rfl, rfl, rfl, rfl⟩) _)
  obtain ⟨q, hq⟩ := hq
  obtain ⟨t, k1, k2⟩ := result_plain w B s { permResult w f s.g (s.g.active w.f.pred.toNat) with lat := w.lat } q id (fun x => ⟨x.region, rfl⟩) h rfl
    (by rw [hq]; exact putResults_plain _ _ hpl) (by rw [h1, hpair]; rfl) h2 (by rw [hpair] at h3; exact h3)
  exact ⟨t, k1, k2.1, k2.2, k2.3, k2.4, k2.5, k2.6⟩

end Sys2Proof.Machine
end

