-- ==== Sys2Proof/Laws/Control.lean ====
section
/-! SUPPORT. What words of the control thread do: control registers, masks, system registers, and the room of an open region. -/

namespace Sys2Proof.Machine

open Sys2Proof

theorem kop_congr (w : Word) {g h : Group} (e : g.Alike h) (k : KImm) : w.kOperand h k = w.kOperand g k := by
  unfold Word.kOperand
  split
  · rfl
  · rfl
  · split
    · rfl
    · exact Alike.readK e _

theorem begin_kept (g : Group) (w : Word) (ex : Extra) : (g.begin w ex).k = g.k ∧ (g.begin w ex).m = g.m ∧ (g.begin w ex).mode = g.mode ∧ (g.begin w ex).gens = g.gens ∧ (g.begin w ex).m0 = g.m0 ∧
   (g.begin w ex).dist = g.dist ∧ (g.begin w ex).replay = g.replay ∧ (g.begin w ex).sup = g.sup ∧ (g.begin w ex).pc = g.pc ∧ (g.begin w ex).reqs = g.reqs := by
  obtain ⟨v, r, u, h, _⟩ := begin_fields g w ex
  rw [h]; exact ⟨rfl, rfl, rfl, rfl, rfl, rfl, rfl, rfl, rfl, rfl⟩

theorem begin_system (g : Group) (w : Word) (ex : Extra) : g.SameSystem (g.begin w ex) := by
  obtain ⟨v, r, u, h, _⟩ := begin_fields g w ex
  rw [h]; exact ⟨rfl, rfl, rfl, rfl, rfl, rfl, rfl, rfl, rfl, rfl, rfl, rfl⟩

theorem begin_v (g : Group) (w : Word) (ex : Extra) (hw : (w.allWrites ex).v = []) : (g.begin w ex).v = g.v := by
  simp [Group.begin, hw, Group.allocAll, Group.countInRegion]

theorem setK_fields (g : Group) (lat n : Nat) (x : W64) : ∃ k r, g.setK lat n x = { g with k := k, region := r } ∧ k = (g.writeK lat n x).k := by
  unfold Group.setK Group.writeK
  split
  · exact ⟨g.k, _, rfl, rfl⟩
  · exact ⟨_, _, rfl, rfl⟩

theorem setK_form (b : Group) (q : Option Region) (lat n : Nat) (x : W64) : ∃ r, ({ b with region := q } : Group).setK lat n x = { b with k := (b.writeK lat n x).k, region := r } := by
  unfold Group.setK Group.writeK
  split
  · exact ⟨_, rfl⟩
  · exact ⟨_, rfl⟩

theorem setK_form' (b : Group) (lat n : Nat) (x : W64) : ∃ r, b.setK lat n x = { b with k := (b.writeK lat n x).k, region := r } := by
  unfold Group.setK Group.writeK
  split
  · exact ⟨_, rfl⟩
  · exact ⟨_, rfl⟩

theorem control_done (w : Word) (ex : Extra) (body : State → State × Flow) (s : State) (x : W64) (g' : Group)
    (h : s.executes w ex = true) (hw : (w.allWrites ex).v = [])
    (hb : body (s.begun w ex) = ({ s.begun w ex with g := g' }, .done))
    (hg : ∃ r, g' = { s.g.begin w ex with k := ((s.g.begin w ex).writeK w.lat w.f.d.toNat x).k, region := r }) :
    ∃ t, runWord w ex body s = .next t ∧ ControlDone s t w ex x := by
  obtain ⟨r', hg⟩ := hg
  obtain ⟨h1, h2, h3, h4, h5, h6, h7, h8, h9, h10⟩ := begin_kept s.g w ex
  have hsys := begin_system s.g w ex
  obtain ⟨t, v, rr, e1, e2, e3, e4, e5⟩ := group_done w ex body s _ h hb (by rw [hg]; exact h7.trans (executes_replay h))
  rw [hg] at e3 e5
  have hkk : ((s.g.begin w ex).writeK w.lat w.f.d.toNat x).k = (s.g.writeK w.lat w.f.d.toNat x).k := by
    unfold Group.writeK
    split
    · exact h1
    · simp only [h1, h6]
  rw [hkk] at e5
  refine ⟨t, e1, ⟨⟨e2, ?_, ?_, ?_, ?_⟩, ?_, ?_, ?_, ?_, ?_, ?_⟩⟩
  · rw [e5]; exact ⟨rfl, by simp only [h6], rfl, by simp only [h8]⟩
  · rw [e5]; exact ⟨hsys.1, hsys.2, hsys.3, hsys.4, hsys.5, hsys.6, hsys.7, hsys.8, hsys.9, hsys.10, hsys.11, hsys.12⟩
  · intro n hn
    rw [e5]
    change tget ({} : VReg) v n = tget {} s.g.v n
    rw [e3 n hn]
    simp only [begin_v s.g w ex hw]
  · rw [e5]; exact h5
  · intro hd d hdist
    exact readK_writeK s.g { t.g with dist := d } w.lat w.f.d.toNat x hd (by rw [e5]) hdist
  · intro hd
    rw [e5]
    simp only [hd, writeK_zero]
  · intro n hn
    rw [e5]
    exact writeK_other s.g w.lat w.f.d.toNat n x (Ne.symm hn)
  · rw [e5]; exact h2
  · rw [e5]; exact h3
  · rw [e5]; exact h4

theorem concreteKs_region (g : Group) (w : Word) : ∃ q, g.concreteKs w = { g with region := q } := by
  unfold Group.concreteKs
  generalize w.reads.k = l
  induction l generalizing g with
  | nil => exact ⟨g.region, rfl⟩
  | cons a as ih =>
    obtain ⟨q, h⟩ := ih (g.concreteK a)
    exact ⟨q, h⟩

theorem runK_done (e : KImm) (f : W64 → W64 → W64) (w : Word) (s : State) (h : s.executes w {} = true) (hw : (w.allWrites {}).v = []) :
    ∃ t, runK e f w s = .next t ∧ ControlDone s t w {} (f (s.g.readK w.f.a.toNat) (w.kOperand s.g e)) := by
  obtain ⟨q, hq⟩ := concreteKs_region (s.g.begin w {}) w
  obtain ⟨r, hr⟩ := setK_form (s.g.begin w {}) q w.lat w.f.d.toNat (f (s.g.readK w.f.a.toNat) (w.kOperand s.g e))
  refine control_done w {} _ s _ _ h hw ?_ ⟨r, hr⟩
  simp only [show (s.begun w {}).g = s.g.begin w {} from rfl, kop_congr w (begin_alike s.g w {}), Alike.readK (begin_alike s.g w {}), hq]

theorem runKAdd_done (sub : Bool) (w : Word) (s : State) (h : s.executes w {} = true) (hw : (w.allWrites {}).v = []) :
    ∃ t, runKAdd sub w s = .next t ∧ ControlDone s t w {} (if sub then s.g.readK w.f.a.toNat - w.kOperand s.g .signed else s.g.readK w.f.a.toNat + w.kOperand s.g .signed) := by
  obtain ⟨r, hr⟩ := setK_form' (s.g.begin w {}) w.lat w.f.d.toNat (if sub then s.g.readK w.f.a.toNat - w.kOperand s.g .signed else s.g.readK w.f.a.toNat + w.kOperand s.g .signed)
  let x := (if sub then s.g.readK w.f.a.toNat - w.kOperand s.g .signed else s.g.readK w.f.a.toNat + w.kOperand s.g .signed)
  let reg := (((s.g.begin w {}).setK w.lat w.f.d.toNat x)).region
  have key : ∀ (B : State → State × Flow), (∃ r', B (s.begun w {}) = ({ s.begun w {} with g := { ((s.g.begin w {}).setK w.lat w.f.d.toNat x) with region := r' } }, Flow.done)) →
      ∃ t, runWord w {} B s = .next t ∧ ControlDone s t w {} x := by
    rintro B ⟨r', hb⟩
    refine control_done w {} B s _ _ h hw hb ⟨r', ?_⟩
    rw [show (s.g.begin w {}).setK w.lat w.f.d.toNat x = _ from hr]
  refine key _ ?_
  simp only [show (s.begun w {}).g = s.g.begin w {} from rfl, kop_congr w (begin_alike s.g w {}), Alike.readK (begin_alike s.g w {})]
  exact ⟨_, rfl⟩

theorem record_some (w : Word) (a b : W64) (o : Bool) (g : Group) (h : g.roomForConstraint = true) : ∃ r, g.recordK w a b o = some { g with region := r } := by
  unfold Group.recordK
  unfold Group.roomForConstraint at h
  split
  · exact ⟨g.region, rfl⟩
  · next r hr =>
    rw [hr] at h
    simp only [decide_eq_true_eq] at h
    have hc : ∀ e : ConEnt, ∃ r', r.constrain e = some r' := by
      intro e
      unfold Region.constrain
      split
      · exact ⟨_, rfl⟩
      · rw [if_neg (by omega)]; exact ⟨_, rfl⟩
    have : ∃ r', kConstraint w a b o r = some r' := by
      simp only [kConstraint]
      generalize (if w.f.a = 0 then none else r.tag? (.ctl w.f.a.toNat)) = ta
      cases ta <;> (repeat' split) <;> first | exact hc _ | exact ⟨_, rfl⟩
    obtain ⟨r', hr'⟩ := this
    exact ⟨some r', by rw [hr']; rfl⟩

theorem room_begin (g : Group) (w : Word) (ex : Extra) (h : g.roomForConstraint = true) : (g.begin w ex).roomForConstraint = true := by
  obtain ⟨v, r, u, e, _, hr, _⟩ := begin_fields g w ex
  rw [e]
  unfold Group.roomForConstraint at h ⊢
  rw [hr]
  unfold Group.countInRegion
  cases hg : g.region with
  | none => rfl
  | some x =>
    rw [hg] at h
    exact h

theorem runKCompare_done (w : Word) (s : State) (h : s.executes w {} = true) (hw : (w.allWrites {}).v = []) (hroom : s.g.roomForConstraint = true) :
    ∃ t, runKCompare w s = .next t ∧ ControlDone s t w {} (if condWord w.f.xf.toNat (s.g.readK w.f.a.toNat) (w.kOperand s.g .signed) then 1 else 0) := by
  obtain ⟨r, hr⟩ := record_some w (s.g.readK w.f.a.toNat) (w.kOperand s.g .signed) (condWord w.f.xf.toNat (s.g.readK w.f.a.toNat) (w.kOperand s.g .signed)) (s.g.begin w {}) (room_begin _ _ _ hroom)
  obtain ⟨r', hr'⟩ := setK_form (s.g.begin w {}) r w.lat w.f.d.toNat (if condWord w.f.xf.toNat (s.g.readK w.f.a.toNat) (w.kOperand s.g .signed) then 1 else 0)
  refine control_done w {} _ s _ _ h hw ?_ ⟨r', hr'⟩
  simp only [show (s.begun w {}).g = s.g.begin w {} from rfl, kop_congr w (begin_alike s.g w {}), Alike.readK (begin_alike s.g w {}), hr]

theorem kget_done (w : Word) (s : State) (x : W64) (h : s.executes w {} = true) (hw : (w.allWrites {}).v = [])
   (hx : (if w.f.bfirst && s.g.m0 == 0 then some 0
    else
      let x := (s.g.readOp w.f.a.toNat (w.pair .vec)).getD (if w.f.bfirst then lowest s.g.m0 else w.f.blane.toNat) 0
      some (if w.f.xf = 0 then (BitVec.ofNat 32 x).signExtend 64 else BitVec.ofNat 64 x)) = some x) : 
   ∃ t, runWord w {} (fun s =>
    let g := s.g
    let none_ := w.f.bfirst && g.m0 == 0
    let lane := if w.f.bfirst then lowest g.m0 else w.f.blane.toNat
    let x := (g.readOp w.f.a.toNat (w.pair .vec)).getD lane 0
    let v : W64 := if none_ then 0 else if w.f.xf = 0 then (BitVec.ofNat 32 x).signExtend 64 else BitVec.ofNat 64 x
    let g' := if none_ then g else g.concreteLanes (w.srcNames 1) [lane]
    ({ s with g := g'.setK w.lat w.f.d.toNat v }, .done)) s = .next t ∧ ControlDone s t w {} x := by
  obtain ⟨h1, h2, h3, h4, h5, h6, h7, h8, h9, h10⟩ := begin_kept s.g w {}
  have hro := readOp_congr s.g (s.g.begin w {}) w.f.a.toNat (w.pair .vec) (begin_readV s.g w {})
  rw [← hro, ← h5] at hx
  by_cases hn : (w.f.bfirst && (s.g.begin w {}).m0 == 0) = true
  · simp only [hn, if_true, Option.some.injEq] at hx
    subst hx
    refine control_done w {} _ s _ _ h hw ?_ (setK_form' _ _ _ _)
    simp only [show (s.begun w {}).g = s.g.begin w {} from rfl, hn, if_true]
  · simp only [hn, Bool.false_eq_true, if_false, Option.some.injEq] at hx
    subst hx
    refine control_done w {} _ s _ _ h hw ?_ (setK_form (s.g.begin w {}) ((s.g.begin w {}).concreteLanes (w.srcNames 1) [if w.f.bfirst then lowest (s.g.begin w {}).m0 else w.f.blane.toNat]).region _ _ _)
    simp only [show (s.begun w {}).g = s.g.begin w {} from rfl, hn, Bool.false_eq_true, if_false]
    rfl

theorem allGroups_begun (s : State) (w : Word) (ex : Extra) {β : Type} (p : Group → Bool) (f : Group → β) (hp : p (s.g.begin w ex) = p s.g) (hf : f (s.g.begin w ex) = f s.g) :
    ((s.begun w ex).allGroups.filter p).map f = (s.allGroups.filter p).map f := by
  have hst : (s.g.begin w ex).st = s.g.st := by
    obtain ⟨v, r, u, h, _⟩ := begin_fields s.g w ex
    rw [h]
  simp only [State.allGroups, State.begun, hst]
  split
  · rfl
  · simp only [List.cons_append, List.nil_append, List.filter_cons, hp]
    split <;> simp [hf]

theorem pooledIn_congr (g h : Group) (b : Nat) (hv : h.v = g.v) (hr : h.region.map Region.v = g.region.map Region.v) : h.pooledIn b = g.pooledIn b := by
  have hx : ∀ n, h.vreg n = g.vreg n := fun n => by simp only [Group.vreg, hv]
  simp only [Group.pooledIn, hv, hx]
  cases hh : h.region <;> cases hg : g.region <;> simp_all

theorem sysReg_begun (s : State) (w : Word) (ex : Extra) (hw : (w.allWrites ex).v = []) (hr : (w.allReads s.g ex).v = []) (n : Nat) : (s.begun w ex).sysReg n = s.sysReg n := by
  obtain ⟨v, r, u, h, _, hreg, _⟩ := begin_fields s.g w ex
  have hv := begin_v s.g w ex hw
  rw [h] at hv
  simp only at hv
  have hu : u = s.g.uninit := by
    have : (s.g.begin w ex).uninit = s.g.uninit := by simp [Group.begin, hr, hw, Group.allocAll, Group.countInRegion]
    rw [h] at this
    exact this
  subst hv hu
  have hin : (s.g.begin w ex).inreg = s.g.inreg := by
    rw [h, hreg]
    simp [Group.inreg, Group.countInRegion]
  have hfloor : ∀ b, (s.begun w ex).floorHeld (s.begun w ex).g.quad b = s.floorHeld s.g.quad b := by
    intro b
    have hq : (s.begun w ex).g.quad = s.g.quad := by simp only [State.begun, h, Group.quad]
    rw [hq]
    simp only [State.floorHeld, State.quadGroups]
    rw [allGroups_begun s w ex _ _ (by simp only [h]; rfl) (by simp only [h]; rfl)]
  have hpool : ∀ b, (s.begun w ex).poolFree (s.begun w ex).g.quad b = s.poolFree s.g.quad b := by
    intro b
    have hq : (s.begun w ex).g.quad = s.g.quad := by simp only [State.begun, h, Group.quad]
    have := hfloor b
    rw [hq] at this ⊢
    simp only [State.poolFree, this, State.quadGroups]
    have hst : (s.g.begin w ex).st = s.g.st := by rw [h]
    have hsp : (s.g.begin w ex).spilledIn b = s.g.spilledIn b := by
      simp only [h]
      rfl
    rw [allGroups_begun s w ex _ _ (by simp only [h]; rfl) (by
      rw [hsp, hst, pooledIn_congr s.g (s.g.begin w ex) b (by rw [h]) (by
        rw [h]
        simp only [hreg, Group.countInRegion, Option.map_map]
        cases s.g.region with
        | none => rfl
        | some x => rfl)])]
  have hpart : ∀ p, (s.begun w ex).part p = s.part p := fun _ => rfl
  have hctx : ∀ p c, (s.begun w ex).ctx p c = s.ctx p c := fun _ _ => rfl
  have e1 : (s.begun w ex).g.part = s.g.part := by simp only [State.begun, h]
  have e2 : (s.begun w ex).g.ctx = s.g.ctx := by simp only [State.begun, h]
  have e3 : (s.begun w ex).g.core = s.g.core := by simp only [State.begun, h]
  have e4 : (s.begun w ex).g.pc = s.g.pc := by simp only [State.begun, h]
  have e5 : (s.begun w ex).g.mode = s.g.mode := by simp only [State.begun, h]
  have e6 : (s.begun w ex).g.gang = s.g.gang := by simp only [State.begun, h]
  have e7 : (s.begun w ex).g.pair = s.g.pair := by simp only [State.begun, h]
  have e8 : (s.begun w ex).g.wid = s.g.wid := by simp only [State.begun, h]
  have e9 : (s.begun w ex).g.hdr = s.g.hdr := by simp only [State.begun, h]
  have e10 : (s.begun w ex).g.frec = s.g.frec := by simp only [State.begun, h]
  have e11 : (s.begun w ex).g.quad = s.g.quad := by simp only [State.begun, h, Group.quad]
  have e12 : (s.begun w ex).g.gstat = s.g.gstat := by
    simp only [Group.gstat, State.begun, hin]
    simp only [h]
    rfl
  have e13 : (s.begun w ex).time = s.time := by simp only [State.time, e1, hpart]
  have e14 : ∀ p c, (s.begun w ex).qown p c = s.qown p c := fun _ _ => rfl
  have e15 : ∀ q, (s.begun w ex).quad q = s.quad q := fun _ => rfl
  unfold State.sysReg
  split <;> simp only [hpart, hctx, e1, e2, e3, e4, e5, e6, e7, e8, e9, e10, e12, e13, e14, e15, hpool, hfloor] <;> simp only [e11]

theorem kminmax_kmin (x : BitVec 5) (a b : W64) : kMinMax false (x == 6) a b = if x = 6 then (if a.slt b then a else b) else if a.ult b then a else b := by
  unfold kMinMax
  by_cases hx : x = 6
  · simp only [hx, beq_self_eq_true, if_true]; cases a.slt b <;> rfl
  · have : (x == 6) = false := by simpa using hx
    simp only [hx, this, if_false, Bool.false_eq_true]; cases a.ult b <;> rfl

theorem kminmax_kmax (x : BitVec 5) (a b : W64) : kMinMax true (x == 6) a b = if x = 6 then (if a.slt b then b else a) else if a.ult b then b else a := by
  unfold kMinMax
  by_cases hx : x = 6
  · simp only [hx, beq_self_eq_true, if_true]; cases a.slt b <;> rfl
  · have : (x == 6) = false := by simpa using hx
    simp only [hx, this, if_false, Bool.false_eq_true]; cases a.ult b <;> rfl

theorem maskToK_done (op : Mask → Nat) (w : Word) (s : State) (h : s.executes w {} = true) (hw : (w.allWrites {}).v = []) :
    ∃ t, runMaskToK op w s = .next t ∧ ControlDone s t w {} (BitVec.ofNat 64 (op (s.g.readM w.f.a.toNat))) := by
  refine control_done w {} _ s _ _ h hw ?_ (setK_form' _ _ _ _)
  simp only [show (s.begun w {}).g = s.g.begin w {} from rfl, Alike.readM (begin_alike s.g w {})]

theorem ksys_done (f : FForm) (s : State) (h : s.executes (mkWord shapeKsys f) (extraOf (.ksys f) s) = true) :
    ∃ t, execKsys f s = .next t ∧ ControlDone s t (mkWord shapeKsys f) (extraOf (.ksys f) s) ((s.sysReg (f.a ++ f.b).toNat).getD 0) := by
  have hr : ((mkWord shapeKsys f).allReads s.g (extraOf (.ksys f) s)).v = [] := by
    unfold Word.allReads Word.readsOf
    split <;> rfl
  refine control_done (mkWord shapeKsys f) (extraOf (.ksys f) s) _ s _ ((s.g.begin (mkWord shapeKsys f) (extraOf (.ksys f) s)).setK (mkWord shapeKsys f).lat f.d.toNat ((s.sysReg (f.a ++ f.b).toNat).getD 0)) h rfl ?_ (setK_form' _ _ _ _)
  rw [← sysReg_begun s (mkWord shapeKsys f) (extraOf (.ksys f) s) rfl hr]
  rfl

theorem begin_inreg (g : Group) (w : Word) (ex : Extra) : (g.begin w ex).inreg = g.inreg := by
  obtain ⟨v, r, u, h, _, hreg, _⟩ := begin_fields g w ex
  rw [h, hreg]
  simp [Group.inreg, Group.countInRegion]

theorem mask_done (w : Word) (body : State → State × Flow) (s : State) (x : Mask) (g' : Group)
    (h : s.executes w {} = true) (hw : (w.allWrites {}).v = [])
    (hb : body (s.begun w {}) = ({ s.begun w {} with g := g' }, .done))
    (hg : ∃ r, g' = { s.g.begin w {} with m := ((s.g.begin w {}).writeM w.lat w.f.d.toNat x).m, region := r }) :
    ∃ t, runWord w {} body s = .next t ∧ MaskDone s t w x := by
  obtain ⟨r', hg⟩ := hg
  obtain ⟨h1, h2, h3, h4, h5, h6, h7, h8, h9, h10⟩ := begin_kept s.g w {}
  have hsys := begin_system s.g w {}
  obtain ⟨t, v, rr, e1, e2, e3, e4, e5⟩ := group_done w {} body s _ h hb (by rw [hg]; exact h7.trans (executes_replay h))
  rw [hg] at e3 e5
  have hkk : ((s.g.begin w {}).writeM w.lat w.f.d.toNat x).m = (s.g.writeM w.lat w.f.d.toNat x).m := by
    unfold Group.writeM
    simp only [h2, h6]
  rw [hkk] at e5
  refine ⟨t, e1, ⟨⟨e2, ?_, ?_, ?_, ?_⟩, ?_, ?_, ?_, ?_⟩⟩
  · rw [e5]; exact ⟨rfl, by simp only [h6], rfl, by simp only [h8]⟩
  · rw [e5]; exact ⟨hsys.1, hsys.2, hsys.3, hsys.4, hsys.5, hsys.6, hsys.7, hsys.8, hsys.9, hsys.10, hsys.11, hsys.12⟩
  · intro n hn
    rw [e5]
    change tget ({} : VReg) v n = tget {} s.g.v n
    rw [e3 n hn]
    simp only [begin_v s.g w {} hw]
  · rw [e5]; exact h5
  · intro hd d hdist
    exact readM_writeM s.g { t.g with dist := d } w.lat w.f.d.toNat x hd (by rw [e5]) hdist
  · intro n hn
    rw [e5]
    exact writeM_other s.g w.lat w.f.d.toNat n x (Ne.symm hn)
  · rw [e5]; exact h1
  · rw [e5]; exact h4

theorem writeM_form (b : Group) (q : Option Region) (lat n : Nat) (x : Mask) : ({ b with region := q } : Group).writeM lat n x = { b with m := (b.writeM lat n x).m, region := q } := rfl
theorem writeM_form' (b : Group) (lat n : Nat) (x : Mask) : ∃ r, b.writeM lat n x = { b with m := (b.writeM lat n x).m, region := r } := ⟨b.region, rfl⟩

theorem runMask_done (op : Mask → Mask → Mask) (w : Word) (s : State) (h : s.executes w {} = true) (hw : (w.allWrites {}).v = []) :
    ∃ t, runMask op w s = .next t ∧ MaskDone s t w (op (s.g.readM w.f.a.toNat) (s.g.readM w.f.b.toNat)) := by
  refine mask_done w _ s _ _ h hw ?_ (writeM_form' _ _ _ _)
  simp only [show (s.begun w {}).g = s.g.begin w {} from rfl, Alike.readM (begin_alike s.g w {})]

/-! ### Transfers of control -/

/-- What a branch, jump or call leaves. -/
def BranchEnd (s t : State) (w : Word) (K : Tbl KReg) (pc : W64) (space : Nat) : Prop :=
  s.SameUnits t ∧ s.g.SameSystem t.g ∧ s.g.Past w t.g pc space ∧ (∀ n, t.g.vreg n = s.g.vreg n) ∧ t.g.m = s.g.m ∧ t.g.m0 = s.g.m0 ∧ t.g.mode = s.g.mode ∧ t.g.gens = s.g.gens ∧ t.g.k = K

theorem goto_end (w : Word) (body : State → State × Flow) (s : State) (K : Tbl KReg) (r : Option Region) (t : W64) (h : s.executes w {} = true) (hw : (w.allWrites {}).v = [])
    (hrel : w.releases {} = []) (hb : body (s.begun w {}) = ({ s.begun w {} with g := { s.g.begin w {} with k := K, region := r } }, .goto t true))
    (hr : r.isSome = s.g.inreg) (ht : pcBits t = t) (hs : s.g.staysOn t = true) :
    ∃ u, runWord w {} body s = .next u ∧ BranchEnd s u w K t (max 3 (w.stall + 1)) := by
  obtain ⟨h1, h2, h3, h4, h5, h6, h7, h8, h9, h10⟩ := begin_kept s.g w {}
  have hsys := begin_system s.g w {}
  have hp : (s.g.begin w {}).paths = agePaths s.g.paths := by
    obtain ⟨v, r, u, e, _⟩ := begin_fields s.g w {}
    rw [e]
  obtain ⟨u, v, rr, e1, e2, e3, e4, e5⟩ := group_goto w {} body s _ t true h hb (h7.trans (executes_replay h)) (by
    intro _ hin hle
    simp only [Group.inreg, hr, ht, h9, hp, h3] at hin hle ⊢
    simp only [Group.staysOn, Group.switchAt, Option.isNone_iff_eq_none] at hs
    rw [if_neg] at hs
    · exact hs
    · simp only [Bool.or_eq_true, decide_eq_true_eq, not_or]
      exact ⟨by omega, hin⟩)
  rw [ht] at e5
  refine ⟨u, e1, e2, ?_, ?_, ?_, ?_, ?_, ?_, ?_, ?_⟩
  · rw [e5]; exact ⟨hsys.1, hsys.2, hsys.3, hsys.4, hsys.5, hsys.6, hsys.7, hsys.8, hsys.9, hsys.10, hsys.11, hsys.12⟩
  · rw [e5]; exact ⟨rfl, by simp only [h6], rfl, by simp only [h8]⟩
  · intro n
    rw [e5]
    change tget ({} : VReg) v n = tget {} s.g.v n
    rw [(e4 hrel).1]
    simp only [begin_v s.g w {} hw]
  · rw [e5]; exact h2
  · rw [e5]; exact h5
  · rw [e5]; exact h3
  · rw [e5]; exact h4
  · rw [e5]

theorem stay_end (w : Word) (body : State → State × Flow) (s : State) (K : Tbl KReg) (r : Option Region) (h : s.executes w {} = true) (hw : (w.allWrites {}).v = [])
    (hrel : w.releases {} = []) (hb : body (s.begun w {}) = ({ s.begun w {} with g := { s.g.begin w {} with k := K, region := r } }, .done)) :
    ∃ u, runWord w {} body s = .next u ∧ BranchEnd s u w K (w.next s.g.pc) (w.stall + 1) := by
  obtain ⟨h1, h2, h3, h4, h5, h6, h7, h8, h9, h10⟩ := begin_kept s.g w {}
  have hsys := begin_system s.g w {}
  obtain ⟨u, v, rr, e1, e2, e3, e4, e5⟩ := group_done w {} body s _ h hb (h7.trans (executes_replay h))
  refine ⟨u, e1, e2, ?_, ?_, ?_, ?_, ?_, ?_, ?_, ?_⟩
  · rw [e5]; exact ⟨hsys.1, hsys.2, hsys.3, hsys.4, hsys.5, hsys.6, hsys.7, hsys.8, hsys.9, hsys.10, hsys.11, hsys.12⟩
  · rw [e5]; exact ⟨rfl, by simp only [h6], rfl, by simp only [h8]⟩
  · intro n
    rw [e5]
    change tget ({} : VReg) v n = tget {} s.g.v n
    rw [(e4 hrel).1]
    simp only [begin_v s.g w {} hw]
  · rw [e5]; exact h2
  · rw [e5]; exact h5
  · rw [e5]; exact h3
  · rw [e5]; exact h4
  · rw [e5]

theorem branchIf_end (w : Word) (body : State → State × Flow) (s : State) (r : Option Region) (taken : Bool) (off : W64) (h : s.executes w {} = true) (hw : (w.allWrites {}).v = [])
    (hrel : w.releases {} = []) (hb : body (s.begun w {}) = branchIf taken off { s.begun w {} with g := { s.g.begin w {} with region := r } })
    (hr : r.isSome = s.g.inreg) (ht : pcBits (pcBits (s.g.pc + 8 * off)) = pcBits (s.g.pc + 8 * off)) (hs : s.g.staysOn (pcBits (s.g.pc + 8 * off)) = true) :
    ∃ u, runWord w {} body s = .next u ∧ BranchEnd s u w s.g.k (if taken then pcBits (s.g.pc + 8 * off) else w.next s.g.pc) (if taken then max 3 (w.stall + 1) else w.stall + 1) := by
  obtain ⟨h1, h2, h3, h4, h5, h6, h7, h8, h9, h10⟩ := begin_kept s.g w {}
  have hk : ({ s.g.begin w {} with region := r } : Group) = { s.g.begin w {} with k := s.g.k, region := r } := by rw [← h1]
  rw [hk] at hb
  cases taken with
  | true =>
    refine goto_end w body s s.g.k r _ h hw hrel ?_ hr ht hs
    rw [hb]
    simp only [branchIf, if_true, branchTarget, h9]
  | false =>
    exact stay_end w body s s.g.k r h hw hrel hb

theorem jump_end (w : Word) (body : State → State × Flow) (s : State) (K : Tbl KReg) (r : Option Region) (t : W64) (h : s.executes w {} = true) (hw : (w.allWrites {}).v = [])
    (hrel : w.releases {} = []) (hb : body (s.begun w {}) = jumpTo t { s.begun w {} with g := { s.g.begin w {} with k := K, region := r } })
    (hr : r.isSome = s.g.inreg) (ht : pcBits t = t) (hs : s.g.staysOn t = true) :
    ∃ u, runWord w {} body s = .next u ∧ BranchEnd s u w K t (max 3 (w.stall + 1)) :=
  goto_end w body s K r t h hw hrel (by rw [hb]; simp only [jumpTo, ht, if_true]) hr ht hs

theorem concreteKs_form (g : Group) (w : Word) : ∃ q, g.concreteKs w = { g with region := q } ∧ q.isSome = g.inreg := by
  unfold Group.concreteKs
  generalize w.reads.k = l
  induction l generalizing g with
  | nil => exact ⟨g.region, rfl, rfl⟩
  | cons a as ih =>
    obtain ⟨q, h, hs⟩ := ih (g.concreteK a)
    refine ⟨q, h, hs.trans ?_⟩
    simp only [Group.concreteK, Group.inreg, Option.isSome_map]

theorem setK_shape (b : Group) (lat n : Nat) (x : W64) : ∃ r, b.setK lat n x = { b with k := (b.writeK lat n x).k, region := r } ∧ r.isSome = b.inreg := by
  unfold Group.setK Group.writeK
  split
  · exact ⟨_, rfl, by simp [Group.inreg]⟩
  · exact ⟨_, rfl, by simp [Group.inreg]⟩

theorem recordK_shape (w : Word) (a b : W64) (o : Bool) (g : Group) (h : g.roomForConstraint = true) : ∃ r, g.recordK w a b o = some { g with region := r } ∧ r.isSome = g.inreg := by
  obtain ⟨r, hr⟩ := record_some w a b o g h
  refine ⟨r, hr, ?_⟩
  unfold Group.recordK at hr
  split at hr
  · next hg => 
    simp only [Option.some.injEq] at hr
    have := congrArg Group.region hr
    simp only at this
    rw [← this]; rfl
  · next q hg =>
    simp only [Option.map_eq_some_iff] at hr
    obtain ⟨r', _, hr⟩ := hr
    have := congrArg Group.region hr
    simp only at this
    rw [← this]; simp [Group.inreg, hg]

theorem writeK_begin (s : State) (w : Word) (lat n : Nat) (x : W64) (h1 : (s.g.begin w {}).k = s.g.k) (h6 : (s.g.begin w {}).dist = s.g.dist) : ((s.g.begin w {}).writeK lat n x).k = (s.g.writeK lat n x).k := by
  unfold Group.writeK
  split
  · exact h1
  · simp only [h1, h6]

theorem releases_nil (w : Word) (ha : (w.useNames true w.sh.a w.f.a).v = []) (hb : (w.useNames true w.sh.b w.f.b).v = []) (hd : (w.useNames true w.sh.d w.f.d).v = []) : w.releases {} = [] := by
  simp [Word.releases, ha, hb, hd]

end Sys2Proof.Machine
end

