-- ==== Sys2Proof/Laws/Done.lean ====
section
/-! SUPPORT. Words that leave the issuing group as a given group, for any group. -/

namespace Sys2Proof.Machine
open Sys2Proof

theorem pcBits_idem (x : W64) : pcBits (pcBits x) = pcBits x := by simp [pcBits, BitVec.and_assoc]

theorem begin_aged (g : Group) (w : Word) (ex : Extra) (hw : (w.allWrites ex).v = []) :
    g.begin w ex = { g.aged with region := (g.countInRegion w).region, uninit := g.uninit || (w.allReads g ex).v.any g.unwrittenV, wait := .none } := by
  simp [Group.begin, hw, Group.allocAll, Group.countInRegion, Group.aged]

theorem same_of_eq {s s' t : State} (h : s'.SameUnits t) (e : s = s') : s.SameUnits t := e ▸ h

/-- What a group keeps when only its place, its region, UNINIT and released names differ. -/
theorem kept_of (x h : Group) (rel : List Nat) (v : Tbl VReg) (r : Option Region) (pc : W64) (d ls gg : Nat) (wt : Wait) (stl : Nat) (st : SlotState) (w0 : W64) (w1 : Option W64) (u : Bool) (rs : Option Resume) (rf : List Nat)
    (hv : ∀ n, n ∉ rel → tget ({} : VReg) v n = tget {} x.v n) (hr : r.isSome = x.inreg)
    (e : h = { x with v := v, region := r, pc := pc, dist := d, lastSpace := ls, gage := gg, wait := wt, stall := stl, st := st, word0 := w0, word1 := w1, uninit := u, resume := rs, refused := rf }) :
    x.Kept h rel := by
  subst e
  exact ⟨hv, rfl, rfl, rfl, rfl, rfl, rfl, hr, ⟨rfl, rfl, rfl, rfl, rfl, rfl, rfl, rfl, rfl, rfl, rfl, rfl⟩, rfl, rfl, rfl⟩

theorem releases_region (s : State) (w : Word) (rel : List Nat) (pc : W64) (space : Nat) (check : Bool) (hr : s.g.replay = none) (hc : check = false) :
    (s.finish w rel pc space check).g.inreg = s.g.inreg := by
  subst hc
  obtain ⟨h1, h2, h3, h4, h5⟩ := releaseNames_keeps s rel
  simp only [State.finish, issued_g, Bool.false_and, Bool.false_eq_true, if_false, Group.endReplay, h4, hr]
  exact h5

/-- The end of a word that leaves the group x, apart from region, UNINIT and wait, and the units of b. -/
theorem finish_done (w : Word) (ex : Extra) (b : State) (x : Group) (r : Option Region) (u : Bool) (pc : W64) (space : Nat) (hx : x.replay = none) (hr : r.isSome = x.inreg) :
    WordDone b (({ b with g := { x with region := r, uninit := u, wait := .none } } : State).finish w (w.releases ex) pc space false) w ex x pc space := by
  obtain ⟨hp, v, rr, hv, he, hg⟩ := finish_past { b with g := { x with region := r, uninit := u, wait := .none } } w (w.releases ex) pc space hx
  refine ⟨?_, ?_, ?_⟩
  · exact SameUnits.trans (SameUnits.of_g b _) (finish_same _ _ _ _ _ _)
  · exact ⟨hp.1, hp.2, hp.3, hp.4⟩
  · refine kept_of x _ _ v rr _ _ _ _ _ _ _ _ _ _ _ _ hv ?_ hg
    have := releases_region { b with g := { x with region := r, uninit := u, wait := .none } } w (w.releases ex) pc space false hx rfl
    rw [Group.inreg, hg] at this
    exact this.trans hr

/-- The end of a word whose body does nothing. -/
theorem begun_done (w : Word) (ex : Extra) (s : State) (h : s.executes w ex = true) (hw : (w.allWrites ex).v = []) (pc : W64) (space : Nat) :
    WordDone s ((s.begun w ex).finish w (w.releases ex) pc space false) w ex s.g.aged pc space := by
  have hb := begin_aged s.g w ex hw
  have hreg : (s.g.begin w ex).inreg = s.g.inreg := by
    rw [hb]
    simp [Group.inreg, Group.countInRegion]
  rw [hb] at hreg
  have d := finish_done w ex s s.g.aged (s.g.countInRegion w).region (s.g.uninit || (w.allReads s.g ex).v.any s.g.unwrittenV) pc space (executes_replay h) hreg
  rw [← hb] at d
  exact d

/-- A body that is done in the state b: the word completes there. -/
theorem body_done (w : Word) (ex : Extra) (body : State → State × Flow) (s b : State) (h : s.executes w ex = true)
    (hb : body (s.begun w ex) = (b, .done)) (hm : b.mem.bad = none) (hx : b.g.replay = none) :
    ∃ t, runWord w ex body s = .next t ∧ WordDone b t w ex b.g (w.next s.g.pc) (w.stall + 1) := by
  obtain ⟨hp, v, rr, hv, he, hg⟩ := finish_past b w (w.releases ex) (w.next s.g.pc) (w.stall + 1) hx
  refine ⟨_, runWord_done w ex body s _ h hb hm, ⟨finish_same _ _ _ _ _ _, hp, ?_⟩⟩
  refine kept_of b.g _ _ v rr _ _ _ _ _ _ _ _ _ b.g.uninit _ _ hv ?_ (by rw [hg])
  have := releases_region b w (w.releases ex) (w.next s.g.pc) (w.stall + 1) false hx rfl
  rw [Group.inreg, hg] at this
  exact this

/-- A word whose body leaves the group x, apart from region, UNINIT and wait, and the units of b: it completes. -/
theorem word_done (w : Word) (ex : Extra) (body : State → State × Flow) (s b : State) (x : Group) (r : Option Region) (u : Bool) (h : s.executes w ex = true)
    (hb : body (s.begun w ex) = ({ b with g := { x with region := r, uninit := u, wait := .none } }, .done)) (hm : b.mem.bad = none) (hx : x.replay = none) (hr : r.isSome = x.inreg) :
    ∃ t, runWord w ex body s = .next t ∧ WordDone b t w ex x (w.next s.g.pc) (w.stall + 1) ∧ (w.releases ex = [] → t.g.uninit = u) := by
  obtain ⟨hp, v, rr, hv, he, hg⟩ := finish_past { b with g := { x with region := r, uninit := u, wait := .none } } w (w.releases ex) (w.next s.g.pc) (w.stall + 1) hx
  refine ⟨_, runWord_done w ex body s _ h hb hm, ⟨?_, ?_, ?_⟩, fun _ => by rw [hg]⟩
  · exact SameUnits.trans (SameUnits.of_g b _) (finish_same _ _ _ _ _ _)
  · exact ⟨hp.1, hp.2, hp.3, hp.4⟩
  · refine kept_of x _ _ v rr _ _ _ _ _ _ _ _ _ _ _ _ hv ?_ hg
    have := releases_region { b with g := { x with region := r, uninit := u, wait := .none } } w (w.releases ex) (w.next s.g.pc) (w.stall + 1) false hx rfl
    rw [Group.inreg, hg] at this
    exact this.trans hr

/-- The same for a transfer, no path being due at its end. -/
theorem word_goto (w : Word) (ex : Extra) (body : State → State × Flow) (s b : State) (x : Group) (r : Option Region) (u : Bool) (pc : W64) (check : Bool) (h : s.executes w ex = true)
    (hb : body (s.begun w ex) = ({ b with g := { x with region := r, uninit := u, wait := .none } }, .goto pc check)) (hm : b.mem.bad = none) (hx : x.replay = none) (hr : r.isSome = x.inreg)
    (hc : check = true → ¬x.inreg → (pcBits pc).toNat ≤ x.pc.toNat → oldestPend x.paths (fun e => decide ((x.mode.extractLsb' 16 16).toNat ≤ e.age.toNat)) = none) :
    ∃ t, runWord w ex body s = .next t ∧ WordDone b t w ex x (pcBits pc) (max 3 (w.stall + 1)) := by
  obtain ⟨hp, v, rr, hv, he, hg⟩ := finish_past { b with g := { x with region := r, uninit := u, wait := .none } } w (w.releases ex) (pcBits pc) (max 3 (w.stall + 1)) hx
  have hf := finish_check { b with g := { x with region := r, uninit := u, wait := .none } } w (w.releases ex) (pcBits pc) (max 3 (w.stall + 1)) check hx (by
    intro h1 h2 h3
    exact hc h1 (by simpa [Group.inreg, hr] using h2) h3)
  refine ⟨({ b with g := { x with region := r, uninit := u, wait := .none } } : State).finish w (w.releases ex) (pcBits pc) (max 3 (w.stall + 1)) false, ?_, ⟨?_, ?_, ?_⟩⟩
  · rw [runWord_executes w ex body s h, hb, ← hf]
    refine answer_next _ ?_
    rw [show (s.conclude w ex (_, Flow.goto pc check)) = (State.finish _ w (w.releases ex) (pcBits pc) (max 3 (w.stall + 1)) check) from rfl, (finish_same _ _ _ _ _ _).mem]
    exact hm
  · exact SameUnits.trans (SameUnits.of_g b _) (finish_same _ _ _ _ _ _)
  · exact ⟨hp.1, hp.2, hp.3, hp.4⟩
  · refine kept_of x _ _ v rr _ _ _ _ _ _ _ _ _ _ _ _ hv ?_ hg
    have := releases_region { b with g := { x with region := r, uninit := u, wait := .none } } w (w.releases ex) (pcBits pc) (max 3 (w.stall + 1)) false hx rfl
    rw [Group.inreg, hg] at this
    exact this.trans hr

theorem begun_g (s : State) (w : Word) (ex : Extra) : (s.begun w ex).g = s.g.begin w ex := rfl

/-- A word that leaves the group y with one control register written has completed as such. -/
theorem control_of_done (b t : State) (w : Word) (ex : Extra) (y : Group) (x : W64) (ps : List PathEnt) (K : Tbl KReg) (hK : K = (y.writeK w.lat w.f.d.toNat x).k)
    (h : WordDone b t w ex { y with k := K, paths := ps } (w.next y.pc) (w.stall + 1)) : ControlDone { b with g := y } t w ex x := by
  subst hK
  obtain ⟨h1, h2, h3⟩ := h
  have hs := h3.system
  refine ⟨⟨⟨h1.1, h1.2, h1.3, h1.4, h1.5, h1.6, h1.7, h1.8, h1.9, h1.10⟩, ⟨h2.1, h2.2, h2.3, h2.4⟩, ⟨hs.1, hs.2, hs.3, hs.4, hs.5, hs.6, hs.7, hs.8, hs.9, hs.10, hs.11, hs.12⟩, h3.names, h3.m0⟩, ?_, ?_, ?_, h3.m, h3.mode, h3.gens⟩
  · intro hd d hdist
    exact readK_writeK y { t.g with dist := d } w.lat w.f.d.toNat x hd (by simp only [h3.k]) hdist
  · intro hd
    rw [h3.k]
    simp only [hd, writeK_zero]
  · intro n hn
    rw [h3.k]
    exact writeK_other y w.lat w.f.d.toNat n x (Ne.symm hn)

theorem writeK_k (g h : Group) (lat n : Nat) (x : W64) (hk : h.k = g.k) (hd : h.dist = g.dist) : (h.writeK lat n x).k = (g.writeK lat n x).k := by
  unfold Group.writeK
  split
  · exact hk
  · simp only [hk, hd]

/-- A body that leaves the group z with one control register written. -/
theorem word_setK (w : Word) (ex : Extra) (body : State → State × Flow) (s b : State) (y : Group) (q : Option Region) (u : Bool) (n : Nat) (x : W64) (h : s.executes w ex = true)
    (hb : body (s.begun w ex) = ({ b with g := ({ y with region := q, uninit := u, wait := .none } : Group).setK w.lat n x }, .done)) (hm : b.mem.bad = none) (hx : y.replay = none) (hr : q.isSome = y.inreg) :
    ∃ t, runWord w ex body s = .next t ∧ WordDone b t w ex { y with k := (y.writeK w.lat n x).k } (w.next s.g.pc) (w.stall + 1) := by
  obtain ⟨r, hr1, hr2⟩ := setK_shape { y with region := q, uninit := u, wait := .none } w.lat n x
  have hk := writeK_k y { y with region := q, uninit := u, wait := .none } w.lat n x rfl rfl
  obtain ⟨t, e, d, _⟩ := word_done w ex body s b { y with k := (y.writeK w.lat n x).k } r u h (by
    rw [hb, hr1, hk]) hm hx (hr2.trans hr)
  exact ⟨t, e, d⟩

/-- The same, as a word that writes one control register and changes y otherwise. -/
theorem word_control (w : Word) (ex : Extra) (body : State → State × Flow) (s b : State) (y : Group) (ps : List PathEnt) (q : Option Region) (u : Bool) (x : W64) (h : s.executes w ex = true)
    (hb : body (s.begun w ex) = ({ b with g := ({ y with paths := ps, region := q, uninit := u, wait := .none } : Group).setK w.lat w.f.d.toNat x }, .done))
    (hm : b.mem.bad = none) (hx : y.replay = none) (hr : q.isSome = y.inreg) (hpc : y.pc = s.g.pc) :
    ∃ t, runWord w ex body s = .next t ∧ ControlDone { b with g := y } t w ex x := by
  obtain ⟨t, e, d⟩ := word_setK w ex body s b { y with paths := ps } q u w.f.d.toNat x h hb hm hx hr
  refine ⟨t, e, control_of_done b t w ex y x ps (({ y with paths := ps } : Group).writeK w.lat w.f.d.toNat x).k (writeK_k _ _ _ _ _ rfl rfl) ?_⟩
  have e2 : w.next s.g.pc = w.next y.pc := by rw [hpc]
  rw [e2] at d
  exact d

theorem holdsMember_begun (s : State) (w : Word) (ex : Extra) (p c core slot : Nat) : (s.begun w ex).holdsMember p c core slot = s.holdsMember p c core slot := by
  obtain ⟨v, r, u, h, _⟩ := begin_fields s.g w ex
  have hst : (s.begun w ex).g.st = s.g.st := by rw [begun_g, h]
  simp only [State.holdsMember, State.groupAt, State.allGroups, hst]
  by_cases hf : s.g.st = .free
  · simp only [hf, if_true]; rfl
  · have hp : ((s.begun w ex).g.resident && (s.begun w ex).g.core == core && (s.begun w ex).g.slot == slot) = (s.g.resident && s.g.core == core && s.g.slot == slot) := by
      rw [begun_g, h]; rfl
    simp only [hf, if_false, List.cons_append, List.nil_append, List.find?_cons, hp]
    have e1 : (s.begun w ex).g.part = s.g.part := by rw [begun_g, h]
    have e2 : (s.begun w ex).g.ctx = s.g.ctx := by rw [begun_g, h]
    cases (s.g.resident && s.g.core == core && s.g.slot == slot)
    · rfl
    · simp only [e1, e2]

end Sys2Proof.Machine
end

