-- ==== Sys2Proof/Laws/Access.lean ====
section
/-! SUPPORT. What reads and writes of memory do, said once: caches, versions, verification and write-back change no byte that a load at the home reads. -/

namespace Sys2Proof.Machine

open Sys2Proof

/-- The bytes of every memory that has bytes of its own, and whether an access has met an address that does not exist, are as before. -/
structure State.SameBytes (s t : State) : Prop where
  hbm   : t.mem.hbm = s.mem.hbm
  host  : t.mem.host = s.mem.host
  peers : t.mem.peers = s.mem.peers
  spad  : t.mem.spad = s.mem.spad
  bad   : t.mem.bad = s.mem.bad
  hqs   : t.mem.hqs = s.mem.hqs

theorem SameBytes.refl (s : State) : s.SameBytes s := ⟨rfl, rfl, rfl, rfl, rfl, rfl⟩

theorem SameBytes.trans {s t u : State} (h : s.SameBytes t) (k : t.SameBytes u) : s.SameBytes u :=
  ⟨k.1.trans h.1, k.2.trans h.2, k.3.trans h.3, k.4.trans h.4, k.5.trans h.5, k.6.trans h.6⟩

theorem SameBytes.of_mem {s t : State} (h : t.mem = s.mem) : s.SameBytes t := by
  constructor <;> rw [h]

theorem SameBytes.peek {s t : State} (h : s.SameBytes t) (l : Loc) (n : Nat) (hl : l.space.isMemory = true) : t.peek l n = s.peek l n := by
  unfold State.peek
  cases hs : l.space <;> simp_all [Space.isMemory, h.hbm, h.host, h.peers, h.spad]

/-- Use of lines, their checks and write-backs change no byte that a load at the home reads. -/
theorem SameBytes.of_backs {s t : State} (h : s.Backs t) : s.SameBytes t := ⟨h.hbm, h.host, h.peers, h.spad, h.bad, h.hqs⟩

theorem touch_same (s : State) (w : Who) (line : Nat) : s.SameBytes (s.touch w line) := SameBytes.of_backs (touch_backs s w line)

theorem mapGroups_same (s : State) (p : Group → Bool) (f : Group → Group) : s.SameBytes (s.mapGroups p f) := ⟨rfl, rfl, rfl, rfl, rfl, rfl⟩

theorem verifyTile_same (s : State) (p tile : Nat) : s.SameBytes (s.verifyTile p tile) := by
  obtain ⟨b, hb, e | e⟩ := verifyTile_backs s p tile <;> rw [e]
  · exact SameBytes.of_backs hb
  · exact SameBytes.trans (SameBytes.of_backs hb) (mapGroups_same _ _ _)

theorem needVerified_same (s : State) (p tile : Nat) : s.SameBytes (s.needVerified p tile) := by
  unfold State.needVerified
  split
  · exact SameBytes.refl s
  · exact verifyTile_same s p tile

theorem writeback_same (s : State) (tile : Nat) : s.SameBytes (s.writeback tile) := SameBytes.of_backs (writeback_backs s tile)

/-- Lines that leave the L1 or the records that L1 lines are checked by change no byte. -/
theorem caches_same (s : State) (x : List CacheLine) (v : Tbl Vers) : s.SameBytes { s with mem := { s.mem with l1 := x, vers := v } } := ⟨rfl, rfl, rfl, rfl, rfl, rfl⟩

theorem l1Install_same (s : State) (w : Who) (stamp : Vers) (line : Nat) : s.SameBytes (s.l1Install w stamp line) := ⟨rfl, rfl, rfl, rfl, rfl, rfl⟩

theorem freshen_same (s : State) (w : Who) : s.SameBytes (s.freshen w) := ⟨rfl, rfl, rfl, rfl, rfl, rfl⟩

theorem bumpVersion_same (s : State) (w : Who) (scope : Nat) : s.SameBytes (s.bumpVersion w scope) := by
  unfold State.bumpVersion
  simp only []
  split
  · exact SameBytes.trans (freshen_same s w) ⟨rfl, rfl, rfl, rfl, rfl, rfl⟩
  · exact ⟨rfl, rfl, rfl, rfl, rfl, rfl⟩

theorem markDirty_same (s : State) (a : Nat) : s.SameBytes (s.markDirty a) := by
  unfold State.markDirty
  split
  · exact SameBytes.refl s
  · exact ⟨rfl, rfl, rfl, rfl, rfl, rfl⟩

theorem markConflicts_same (s : State) (uid : Option Nat) (l : Loc) : s.SameBytes (markConflicts s uid l) := ⟨rfl, rfl, rfl, rfl, rfl, rfl⟩

/-- A load changes no byte, and answers what `LoadsReadTheView` says. -/
theorem loadAt_same (s : State) (w : Who) (scope : Nat) (stamp : Vers) (l : Loc) (n : Nat) (hl : l.inMemory n = true) : s.SameBytes (s.loadAt w scope stamp l n).2.2 := by
  unfold State.loadAt
  cases hs : l.space <;> simp only [] <;> try exact SameBytes.refl s
  have hr : ¬(Config.hbmBytes < l.addr + n) := by
    simp only [Loc.inMemory, hs, Bool.and_eq_true, Bool.or_eq_true, decide_eq_true_eq] at hl
    rcases hl.2 with h | h
    · simp at h
    · omega
  rw [if_neg hr]
  split
  · exact SameBytes.refl s
  · split
    · exact SameBytes.trans (touch_same s w _) (l1Install_same _ _ _ _)
    · exact SameBytes.trans (touch_same s w _) (caches_same _ _ _)

theorem loadVerified_same (s : State) (w : Who) (l : Loc) (n : Nat) (hl : l.inMemory n = true) : s.SameBytes (s.loadVerified w l n).2 ∧ (s.loadVerified w l n).1 = s.peek l n := by
  unfold State.loadVerified
  cases hs : l.space <;> simp only [] <;> try exact ⟨SameBytes.refl s, trivial⟩
  have hr : ¬(Config.hbmBytes < l.addr + n) := by
    simp only [Loc.inMemory, hs, Bool.and_eq_true, Bool.or_eq_true, decide_eq_true_eq] at hl
    rcases hl.2 with h | h
    · simp at h
    · omega
  rw [if_neg hr]
  have h := SameBytes.trans (needVerified_same s w.part (l.addr / 4096)) (touch_same _ w (l.addr / 128))
  exact ⟨SameBytes.trans h (caches_same _ _ _), SameBytes.peek h l n (by rw [hs]; rfl)⟩

/-- A store puts its bytes, and nothing else that a load at the home reads. -/
theorem storeAt_same (s : State) (w : Who) (uid : Option Nat) (plain : Bool) (l : Loc) (bs : List Byte) (hq : ∀ c, l.space = .spad c → s.mem.hqs = []) :
    (s.poke l bs).SameBytes (s.storeAt w uid plain l bs) := by
  have hp : s.pokeStore l bs = s.poke l bs := by
    unfold State.pokeStore
    cases hs : l.space <;> simp only []
    rw [hq _ hs]
    rfl
  unfold State.storeAt
  rw [hp]
  have h0 : (s.poke l bs).SameBytes { (s.poke l bs) with mem := (s.poke l bs).mem.stir l bs.length } := ⟨rfl, rfl, rfl, rfl, rfl, rfl⟩
  cases hs : l.space <;> simp only [] <;> try exact h0
  · generalize s.poke l bs = b
    have h1 : b.SameBytes { b with mem := (b.mem.stir l bs.length).tick.l1Write w plain l.addr bs } := ⟨rfl, rfl, rfl, rfl, rfl, rfl⟩
    have h2 := SameBytes.trans h1 (SameBytes.trans (markDirty_same _ l.addr) (SameBytes.trans (markConflicts_same _ uid l) (touch_same _ w (l.addr / 128))))
    split
    · exact SameBytes.trans h2 (writeback_same _ _)
    · exact SameBytes.trans h2 ⟨rfl, rfl, rfl, rfl, rfl, rfl⟩
  · exact SameBytes.trans h0 (markConflicts_same _ _ _)

theorem mbytes_one (m : Memory) (a : Nat) : mbytes m a 1 = [mget m a] := by simp [mbytes]

/-- Bytes put at a location stand there, and every other byte is as before. -/
theorem poke_peek (s : State) (l : Loc) (bs : List Byte) (hl : l.inMemory bs.length = true) : (s.poke l bs).peek l bs.length = bs ∧ s.SameBut (s.poke l bs) l bs.length ∧ (s.poke l bs).mem.bad = s.mem.bad := by
  have other : ∀ (m : Memory) (a : Nat), ¬(l.addr ≤ a ∧ a < l.addr + bs.length) → mbytes (msetBytes m l.addr bs) a 1 = mbytes m a 1 := by
    intro m a h
    rw [mbytes_one, mbytes_one, mget_msetBytes_other _ _ _ _ (by omega)]
  unfold State.poke
  cases hs : l.space with
  | hbm =>
    have hr : ¬(Config.hbmBytes < l.addr + bs.length) := by
      simp only [Loc.inMemory, hs, Bool.and_eq_true, Bool.or_eq_true, decide_eq_true_eq] at hl
      rcases hl.2 with h | h
      · simp at h
      · omega
    simp only [hr, if_false]
    refine ⟨by simp only [State.peek, hs, mbytes_msetBytes], ?_, trivial⟩
    intro x hx hd
    rw [hs] at hd
    unfold State.peek
    cases hxs : x.space <;> simp_all [Space.isMemory]
  | host =>
    refine ⟨by simp only [State.peek, hs, mbytes_msetBytes], ?_, rfl⟩
    intro x hx hd
    rw [hs] at hd
    unfold State.peek
    cases hxs : x.space <;> simp_all [Space.isMemory]
  | peer d =>
    refine ⟨by simp only [State.peek, hs, tget_tset, if_true, mbytes_msetBytes], ?_, rfl⟩
    intro x hx hd
    rw [hs] at hd
    unfold State.peek
    cases hxs : x.space <;> simp_all [Space.isMemory]
    split
    · next h => subst h; exact other _ _ (by simp_all)
    · rfl
  | spad c =>
    refine ⟨by simp only [State.peek, hs, tget_tset, if_true, mbytes_msetBytes], ?_, rfl⟩
    intro x hx hd
    rw [hs] at hd
    unfold State.peek
    cases hxs : x.space <;> simp_all [Space.isMemory]
    split
    · next h => subst h; exact other _ _ (by simp_all)
    · rfl
  | acc q t => simp [Loc.inMemory, hs, Space.isMemory] at hl
  | regs c k => simp [Loc.inMemory, hs, Space.isMemory] at hl

/-- A store of a group leaves its bytes at their place and every other byte as before. -/
theorem storeAt_peek (s : State) (w : Who) (uid : Option Nat) (plain : Bool) (l : Loc) (bs : List Byte) (hl : l.inMemory bs.length = true) (hq : ∀ c, l.space = .spad c → s.mem.hqs = []) :
    (s.storeAt w uid plain l bs).peek l bs.length = bs ∧ s.SameBut (s.storeAt w uid plain l bs) l bs.length ∧ (s.storeAt w uid plain l bs).mem.bad = s.mem.bad := by
  have hm : l.space.isMemory = true := by
    simp only [Loc.inMemory, Bool.and_eq_true] at hl
    exact hl.1
  have h := storeAt_same s w uid plain l bs hq
  obtain ⟨h1, h2, h3⟩ := poke_peek s l bs hl
  exact ⟨(SameBytes.peek h l _ hm).trans h1, fun x hx hd => (SameBytes.peek h x 1 hx).trans (h2 x hx hd), h.bad.trans h3⟩

@[simp] theorem leBytes_length (n x : Nat) : (leBytes n x).length = n := by simp [leBytes]

end Sys2Proof.Machine
end

