-- ==== Sys2Proof/Laws/Drift.lean ====
section
/-! SUPPORT. What translations, memory accesses, dockets and checkpoint frames do to the issuing group: its last-page registers, its pending tiles and the conflict marks of its region, and nothing else. -/

namespace Sys2Proof.Machine

open Sys2Proof

/-- The issuing group differs in last-page registers, pending tiles and the contents of its region at most. -/
structure State.Drift (s t : State) : Prop where
  g : ∃ lp r pt, t.g = { s.g with lastPage := lp, region := r, pendTiles := pt }
  inreg : t.g.inreg = s.g.inreg

theorem Drift.refl (s : State) : s.Drift s := ⟨⟨s.g.lastPage, s.g.region, s.g.pendTiles, rfl⟩, rfl⟩

theorem Drift.of_g {s t : State} (h : t.g = s.g) : s.Drift t := ⟨⟨s.g.lastPage, s.g.region, s.g.pendTiles, h⟩, by rw [h]⟩

theorem Drift.trans {s t u : State} (h : s.Drift t) (k : t.Drift u) : s.Drift u := by
  obtain ⟨lp, r, pt, e⟩ := h.g
  obtain ⟨lp', r', pt', e'⟩ := k.g
  exact ⟨⟨lp', r', pt', by rw [e', e]⟩, k.inreg.trans h.inreg⟩

theorem Drift.replay {s t : State} (h : s.Drift t) : t.g.replay = s.g.replay := by
  obtain ⟨lp, r, pt, e⟩ := h.g
  rw [e]

theorem drift_mem (s : State) (m : MemState) : s.Drift { s with mem := m } := Drift.of_g rfl
theorem drift_plat (s : State) (x : PlatState) : s.Drift { s with plat := x } := Drift.of_g rfl
theorem drift_part (s : State) (p : Nat) (x : Partition) : s.Drift (s.setPart p x) := Drift.of_g rfl
theorem drift_ckpt (s : State) (k : Checkpoint) : s.Drift (s.putCkpt k) := Drift.of_g rfl

/-- A change of every group's region contents drifts. -/
theorem drift_regions (s : State) (p : Group → Bool) (f : Region → Region) : s.Drift (s.mapGroups p fun h => { h with region := h.region.map f }) := by
  unfold State.mapGroups
  by_cases hc : (s.g.st != .free && p s.g) = true
  · exact ⟨⟨s.g.lastPage, s.g.region.map f, s.g.pendTiles, by simp only [hc, if_true]⟩, by simp only [hc, if_true, Group.inreg, Option.isSome_map]⟩
  · exact Drift.of_g (by simp only [hc]; rfl)

theorem drift_pend (s : State) (p : Group → Bool) (f : List Nat → List Nat) : s.Drift (s.mapGroups p fun h => { h with pendTiles := f h.pendTiles }) := by
  unfold State.mapGroups
  by_cases hc : (s.g.st != .free && p s.g) = true
  · exact ⟨⟨s.g.lastPage, s.g.region, f s.g.pendTiles, by simp only [hc, if_true]⟩, by simp only [hc, if_true]; rfl⟩
  · exact Drift.of_g (by simp only [hc]; rfl)

theorem Drift.of_backs {s t : State} (h : s.Backs t) : s.Drift t := Drift.of_g h.g

theorem touch_drift (s : State) (w : Who) (line : Nat) : s.Drift (s.touch w line) := Drift.of_backs (touch_backs s w line)

theorem checkTile_drift (s : State) (tile : Nat) : s.Drift (s.checkTile tile).2 := Drift.of_backs (checkTile_backs s tile)

theorem verifyTile_drift (s : State) (p tile : Nat) : s.Drift (s.verifyTile p tile) := by
  obtain ⟨b, hb, e | e⟩ := verifyTile_backs s p tile <;> rw [e]
  · exact Drift.of_backs hb
  · exact Drift.trans (Drift.of_backs hb) (drift_pend _ _ fun ts => ts.filter fun t => t != tile)

theorem needVerified_drift (s : State) (p tile : Nat) : s.Drift (s.needVerified p tile) := by
  unfold State.needVerified
  split
  · exact Drift.refl s
  · exact verifyTile_drift s p tile

theorem writeback_drift (s : State) (tile : Nat) : s.Drift (s.writeback tile) := Drift.of_backs (writeback_backs s tile)

theorem markDirty_drift (s : State) (a : Nat) : s.Drift (s.markDirty a) := by
  unfold State.markDirty
  split
  · exact Drift.refl s
  · exact Drift.of_g rfl

theorem bumpVersion_drift (s : State) (w : Who) (scope : Nat) : s.Drift (s.bumpVersion w scope) := by
  unfold State.bumpVersion
  simp only []
  split <;> exact Drift.of_g rfl

theorem markConflicts_drift (s : State) (uid : Option Nat) (l : Loc) : s.Drift (markConflicts s uid l) := drift_regions s _ _

theorem conflictRange_drift (s : State) (lo hi : Nat) : s.Drift (s.conflictRange lo hi) := drift_regions s _ _

theorem foldl_drift {α : Type} (f : State → α → State) (h : ∀ (s : State) (a : α), s.Drift (f s a)) (l : List α) (s : State) : s.Drift (l.foldl f s) := by
  induction l generalizing s with
  | nil => exact Drift.refl s
  | cons a as ih => exact Drift.trans (h s a) (ih _)

theorem poke_drift (s : State) (l : Loc) (bs : List Byte) (hl : l.space.isMemory = true) : s.Drift (s.poke l bs) := by
  unfold State.poke
  cases hs : l.space <;> simp only [] <;> try exact Drift.of_g rfl
  · split <;> exact Drift.of_g rfl
  · simp [hs, Space.isMemory] at hl
  · simp [hs, Space.isMemory] at hl

theorem pokeStore_drift (s : State) (l : Loc) (bs : List Byte) (hl : l.space.isMemory = true) : s.Drift (s.pokeStore l bs) := by
  unfold State.pokeStore
  cases hs : l.space <;> simp only [] <;> try exact poke_drift s l bs hl
  split
  · exact poke_drift s l bs hl
  · refine foldl_drift (fun (x : State) (i : Nat) => if x.inDescriptor ⟨_, l.addr + i⟩ then x else x.poke ⟨_, l.addr + i⟩ [bs.getD i 0]) (fun s i => ?_) _ s
    split
    · exact Drift.refl s
    · exact poke_drift s _ _ (by simp [Space.isMemory])

theorem storeAt_drift (s : State) (w : Who) (uid : Option Nat) (plain : Bool) (l : Loc) (bs : List Byte) (hl : l.space.isMemory = true) : s.Drift (s.storeAt w uid plain l bs) := by
  refine Drift.trans (pokeStore_drift s l bs hl) ?_
  unfold State.storeAt
  generalize s.pokeStore l bs = b
  cases hs : l.space <;> simp only [] <;> try exact Drift.of_g rfl
  · have h2 : b.Drift ((markConflicts (({ b with mem := (b.mem.stir l bs.length).tick.l1Write w plain l.addr bs } : State).markDirty l.addr) uid l).touch w (l.addr / 128)) :=
      Drift.trans (t := { b with mem := (b.mem.stir l bs.length).tick.l1Write w plain l.addr bs }) (Drift.of_g rfl) (Drift.trans (markDirty_drift _ l.addr) (Drift.trans (markConflicts_drift _ uid l) (touch_drift _ w (l.addr / 128))))
    split
    · exact Drift.trans h2 (writeback_drift _ _)
    · exact Drift.trans h2 (Drift.of_g rfl)
  · exact Drift.trans (t := { b with mem := b.mem.stir l bs.length }) (Drift.of_g rfl) (markConflicts_drift _ _ _)

theorem loadVerified_drift (s : State) (w : Who) (l : Loc) (n : Nat) : s.Drift (s.loadVerified w l n).2 := by
  unfold State.loadVerified
  cases hs : l.space <;> simp only [] <;> try exact Drift.refl s
  split
  · exact Drift.of_g rfl
  · exact Drift.trans (Drift.trans (needVerified_drift s _ _) (touch_drift _ _ _)) (Drift.of_g rfl)

theorem storeRun_drift (s : State) (w : Who) (l : Loc) (bs : List Byte) (hl : l.space.isMemory = true) : s.Drift (s.storeRun w l bs) :=
  foldl_drift (fun (s : State) (p : Nat × List Byte) => s.storeAt w none false ⟨l.space, p.1⟩ p.2) (fun s p => storeAt_drift s w none false ⟨l.space, p.1⟩ p.2 hl) _ s

theorem rmwAt_drift (s : State) (w : Who) (uid : Option Nat) (l : Loc) (n : Nat) (f : Nat → Nat) (hl : l.space.isMemory = true) : s.Drift (s.rmwAt w uid l n f).2 :=
  Drift.trans (loadVerified_drift s w l n) (storeAt_drift _ w uid false l _ hl)

theorem loadAt_drift (s : State) (w : Who) (scope : Nat) (stamp : Vers) (l : Loc) (n : Nat) : s.Drift (s.loadAt w scope stamp l n).2.2 := by
  unfold State.loadAt
  cases hs : l.space <;> simp only [] <;> try exact Drift.refl s
  split
  · exact Drift.of_g rfl
  · split
    · exact Drift.refl s
    · split <;> exact Drift.trans (touch_drift s _ _) (Drift.of_g rfl)

theorem dirtyLines_drift (s : State) (p lo hi : Nat) : s.Drift (s.dirtyLines p lo hi) := Drift.of_backs (dirtyLines_backs s p lo hi)

theorem bulkStore_drift (s : State) (p a n : Nat) (cells : Memory) : s.Drift (s.bulkStore p a n cells) := by
  have key : ∀ m : MemState, s.Drift (State.conflictRange { s with mem := m } a (a + n)) :=
    fun m => Drift.trans (t := { s with mem := m }) (Drift.of_g rfl) (conflictRange_drift { s with mem := m } a (a + n))
  unfold State.bulkStore
  split
  · exact Drift.of_g rfl
  · exact Drift.trans (key _) (dirtyLines_drift _ p _ _)

theorem zeroFrame_drift (s : State) (frame : Nat) : s.Drift (s.zeroFrame frame) := by
  unfold State.zeroFrame
  simp only []
  refine Drift.trans (drift_mem s _) (foldl_drift _ (fun s i => ?_) _ _)
  have h := checkPath_backs s (16 * frame + i)
  split
  · exact Drift.trans (Drift.of_backs h) (Drift.of_g (putTile_g _ _ _))
  · exact Drift.of_backs h

theorem copyFrame_drift (s : State) (p src dst : Nat) : s.Drift (s.copyFrame p src dst) := by
  unfold State.copyFrame
  simp only []
  have h := foldl_drift (fun (s : State) (i : Nat) => (s.checkTile (16 * src + i)).2) (fun s i => checkTile_drift s (16 * src + i)) (List.range 16) s
  split
  · exact h
  · exact Drift.trans h (bulkStore_drift _ _ _ _ _)

/-! ### Dockets -/

theorem translated_drift (s : State) (a n : Nat) : s.Drift (s.translated a n) := by
  unfold State.translated
  split
  · exact Drift.refl s
  · exact drift_mem s _

theorem ringStore_drift (s : State) (p a : Nat) (bs : List Byte) : s.Drift (s.ringStore p a bs) := by
  refine Drift.trans (translated_drift s a bs.length) (storeRun_drift _ _ _ bs ?_)
  unfold ringLoc
  split <;> rfl

theorem evWrite_drift (s : State) (pn : Nat) (d : List Byte) : s.Drift (s.evWrite pn d) := by
  unfold State.evWrite
  simp only []
  have h : ∀ (a b : Nat) (x : Partition) (e : List Byte), s.Drift (((s.ringStore pn a (s.stamped pn d)).setPart pn x).ringStore pn b e) := fun a b x e =>
    Drift.trans (Drift.trans (ringStore_drift s pn a (s.stamped pn d)) (drift_part _ pn x)) (ringStore_drift _ pn b e)
  split
  · exact Drift.trans (h _ _ _ _) (drift_plat _ _)
  · exact h _ _ _ _

theorem evDrain_drift (n : Nat) (s : State) (pn : Nat) : s.Drift (State.evDrain n s pn) := by
  induction n generalizing s with
  | zero => exact Drift.refl s
  | succ n ih =>
    unfold State.evDrain
    simp only []
    split
    · split
      · exact Drift.trans (Drift.trans (drift_part s pn _) (evWrite_drift _ pn _)) (ih _)
      · exact Drift.refl s
    · exact Drift.refl s

theorem postDocket_drift (s : State) (pn : Nat) (d : List Byte) : s.Drift (s.postDocket pn d) := Drift.trans (drift_part s pn _) (evDrain_drift _ _ pn)

theorem docket_drift (s : State) (kind code src pn c : Nat) (payload : List Byte) : s.Drift (s.docket kind code src pn c payload) := postDocket_drift s pn _

/-! ### The walker -/

theorem hbmNat_drift (s : State) (w : Who) (a n : Nat) : s.Drift (s.hbmNat w a n).2 := loadVerified_drift s w _ n

theorem walkTable_drift (w : Who) (va : Nat) (ks : List Nat) (s : State) (t : Nat) : s.Drift (s.walkTable w va ks t).2 := by
  induction ks generalizing s t with
  | nil => exact Drift.refl s
  | cons k ks ih =>
    unfold State.walkTable
    simp only []
    split
    · exact hbmNat_drift s w _ _
    · exact Drift.trans (hbmNat_drift s w _ _) (ih _ _)

theorem findLeaf_drift (s : State) (w : Who) (va : Nat) : s.Drift (s.findLeaf w va).2 := by
  have h := walkTable_drift w va [1, 2, 3] s (s.root w)
  unfold State.findLeaf
  split
  · next e => rw [e] at h; exact h
  · next e =>
    rw [e] at h
    simp only []
    split
    · exact Drift.trans h (hbmNat_drift _ w _ _)
    · exact Drift.trans h (Drift.trans (hbmNat_drift _ w _ _) (hbmNat_drift _ w _ _))

theorem writeEntry_drift (s : State) (w : Who) (a v : Nat) : s.Drift (s.writeEntry w a v) := storeRun_drift s w _ _ rfl

theorem clearCow_drift (s : State) (p : Nat) : s.Drift (s.clearCow p) := by
  unfold State.clearCow
  refine foldl_drift _ (fun s c => foldl_drift _ (fun s e => ?_) _ s) _ s
  split
  · exact writeEntry_drift s _ _ _
  · exact Drift.refl s

theorem endCheckpoint_drift (s : State) (k : Checkpoint) (status : Nat) : s.Drift (s.endCheckpoint k status) := by
  unfold State.endCheckpoint
  simp only []
  exact Drift.trans (Drift.trans (drift_ckpt s _) (drift_part _ k.part _)) (foldl_drift State.zeroFrame (fun s f => zeroFrame_drift s f) _ _)

theorem abandonCheckpoint_drift (s : State) (p : Nat) : s.Drift (s.abandonCheckpoint p) := by
  unfold State.abandonCheckpoint
  split
  · exact clearCow_drift s p
  · simp only []
    exact Drift.trans (Drift.trans (Drift.trans (endCheckpoint_drift s _ 4) (clearCow_drift _ p)) (drift_part _ p _)) (docket_drift _ _ _ _ _ _ _)

theorem breakTable_drift (s : State) (p frame : Nat) : s.Drift (s.breakTable p frame) := by
  unfold State.breakTable
  split
  · exact Drift.refl s
  · split
    · exact Drift.refl s
    · split
      · exact Drift.trans (Drift.trans (drift_part s p _) (copyFrame_drift _ _ _ _)) (drift_ckpt _ _)
      · exact abandonCheckpoint_drift s _

theorem setEntry_drift (s : State) (w : Who) (a v : Nat) : s.Drift (s.setEntry w a v) := Drift.trans (breakTable_drift s _ _) (writeEntry_drift _ w a v)

theorem splitLarge_drift (s : State) (w : Who) (e : LeafEnt) : s.Drift (s.splitLarge w e) := foldl_drift _ (fun s _ => setEntry_drift s w _ _) _ s

theorem copyOnWrite_drift (s : State) (w : Who) (e : LeafEnt) : s.Drift (s.copyOnWrite w e) := by
  unfold State.copyOnWrite
  simp only []
  split
  · exact Drift.trans (Drift.trans (Drift.trans (drift_part s w.part _) (copyFrame_drift _ _ _ _)) (drift_ckpt _ _)) (writeEntry_drift _ w _ _)
  · exact abandonCheckpoint_drift s _

theorem breakCow_drift (s : State) (w : Who) (va : Nat) (e : LeafEnt) : s.Drift (s.breakCow w va e) := by
  unfold State.breakCow
  simp only []
  have hb := breakTable_drift s w.part (e.at_ / 65536)
  generalize s.breakTable w.part (e.at_ / 65536) = b at hb
  have hc : s.Drift (if e.large && (b.standing w.part).isSome then b.splitLarge w e else b) := by
    split
    · exact Drift.trans hb (splitLarge_drift b w e)
    · exact hb
  generalize (if e.large && (b.standing w.part).isSome then b.splitLarge w e else b) = c at hc
  have h := Drift.trans hc (findLeaf_drift c w va)
  split
  · next e1 =>
    rw [e1] at h
    split
    · exact Drift.trans h (copyOnWrite_drift _ w _)
    · exact h
  · next e1 => rw [e1] at h; exact h

theorem takeLeaf_drift (s : State) (w : Who) (write : Bool) (va : Nat) : s.Drift (s.takeLeaf w write va).2 := by
  have h := findLeaf_drift s w va
  have set : ∀ (b : State) (c : Prop) [Decidable c] (x fr : Nat) (f : Nat → Nat), b.Drift (if c then b else ((b.breakTable w.part fr).rmwAt w none ⟨.hbm, x⟩ 8 f).2) := by
    intro b c _ x fr f
    split
    · exact Drift.refl _
    · exact Drift.trans (breakTable_drift b _ _) (rmwAt_drift _ w none _ 8 _ rfl)
  unfold State.takeLeaf
  split
  · next e => rw [e] at h; exact h
  · next e1 =>
    rw [e1] at h
    split
    · exact h
    · split
      · exact h
      · exact Drift.trans h (Drift.trans (set _ _ _ _ _) (drift_mem _ _))

theorem drift_if {s : State} (c : Prop) [Decidable c] (a b : Trans × State) (ha : s.Drift a.2) (hb : s.Drift b.2) : s.Drift (if c then a else b).2 := by
  split
  · exact ha
  · exact hb

theorem walk_drift (s : State) (w : Who) (kind : AccessKind) (quiet : Bool) (va : Nat) : s.Drift (s.walk w kind quiet va).2 := by
  have h := findLeaf_drift s w va
  unfold State.walk
  split
  · next e => rw [e] at h; exact h
  · next e s1 e1 =>
    rw [e1] at h
    have cow : ∀ (c : Prop) [Decidable c], s1.Drift (if c then s1.breakCow w va e else s1) := by
      intro c _
      split
      · exact breakCow_drift s1 w va e
      · exact Drift.refl s1
    simp only []
    exact drift_if _ _ _ h (drift_if _ _ _ (Drift.trans h (Drift.of_g rfl)) (drift_if _ _ _ h (drift_if _ _ _ h (drift_if _ _ _ h (drift_if _ _ _ h
      (Drift.trans h (Drift.trans (cow _) (takeLeaf_drift _ w _ va))))))))

theorem lookup_drift (s : State) (w : Who) (kind : AccessKind) (va : Nat) : s.Drift (s.lookup w kind va).2 := by
  unfold State.lookup
  split
  · exact Drift.refl s
  · split
    · exact Drift.refl s
    · exact walk_drift s w kind false va

theorem translate_drift (s : State) (g : Group) (kind : AccessKind) (va : Nat) : s.Drift (s.translate g kind va).2 := by
  unfold State.translate
  split
  · exact Drift.refl s
  · exact lookup_drift s _ kind va

theorem drift_lastPage (s : State) (x : Tbl (Option Leaf)) : s.Drift { s with g := { s.g with lastPage := x } } := ⟨⟨x, s.g.region, s.g.pendTiles, rfl⟩, rfl⟩

theorem translateLane_drift (s : State) (kind : AccessKind) (lane va : Nat) : s.Drift (s.translateLane kind lane va).2 := by
  have h := lookup_drift s s.g.who kind va
  unfold State.translateLane
  split
  · exact Drift.refl s
  · simp only []
    split
    · exact Drift.refl s
    · split
      · exact Drift.trans h (drift_lastPage _ _)
      · exact h

theorem reach_drift (s : State) (kind : AccessKind) (as : List (Nat × Nat)) : s.Drift (s.reach kind as).2 := by
  unfold State.reach
  have : ∀ (l : List (Nat × Nat)) (acc : Reach × State), acc.2.Drift (l.foldl (fun (acc : Reach × State) x => let q := acc.2.translateLane kind x.1 x.2; (acc.1.add x.1 x.2 q.1, q.2)) acc).2 := by
    intro l
    induction l with
    | nil => intro acc; exact Drift.refl _
    | cons a as ih =>
      intro acc
      rw [List.foldl_cons]
      exact Drift.trans (translateLane_drift acc.2 kind a.1 a.2) (ih (acc.1.add a.1 a.2 (acc.2.translateLane kind a.1 a.2).1, (acc.2.translateLane kind a.1 a.2).2))
  exact this as ({ vas := as }, s)

theorem reachK_drift (s : State) (kind : AccessKind) (va : Nat) : s.Drift (s.reachK kind va).2 := translate_drift s s.g kind va

end Sys2Proof.Machine
end

