-- ==== Sys2Proof/Laws/PerInstr.lean ====
section
/-! SUPPORT. One law for each constructor of Instr: the encoder gives as many words as the instruction has (R38, R41). -/

namespace Sys2Proof.Laws.Length
open Sys2Proof Sys2Proof.Machine

/-- The encoder gives as many words as the instruction has: two with a literal, none for a step that is no instruction. -/
def Statement (i : Instr) : Prop := (encode i).length = wordCount i

theorem vadd (f : FForm) : Statement (.vadd f) := rfl
theorem vaddImm8 (f : FForm) : Statement (.vaddImm8 f) := rfl
theorem vaddImm32 (f : FForm) (imm : BitVec 32) : Statement (.vaddImm32 f imm) := rfl
theorem vsub (f : FForm) : Statement (.vsub f) := rfl
theorem vsubImm8 (f : FForm) : Statement (.vsubImm8 f) := rfl
theorem vsubImm32 (f : FForm) (imm : BitVec 32) : Statement (.vsubImm32 f imm) := rfl
theorem vaddsat (f : FForm) : Statement (.vaddsat f) := rfl
theorem vaddsatImm8 (f : FForm) : Statement (.vaddsatImm8 f) := rfl
theorem vaddsatImm32 (f : FForm) (imm : BitVec 32) : Statement (.vaddsatImm32 f imm) := rfl
theorem vsubsat (f : FForm) : Statement (.vsubsat f) := rfl
theorem vsubsatImm8 (f : FForm) : Statement (.vsubsatImm8 f) := rfl
theorem vsubsatImm32 (f : FForm) (imm : BitVec 32) : Statement (.vsubsatImm32 f imm) := rfl
theorem vmul (f : FForm) : Statement (.vmul f) := rfl
theorem vmulImm8 (f : FForm) : Statement (.vmulImm8 f) := rfl
theorem vmulImm32 (f : FForm) (imm : BitVec 32) : Statement (.vmulImm32 f imm) := rfl
theorem vmulh (f : FForm) : Statement (.vmulh f) := rfl
theorem vmulhImm8 (f : FForm) : Statement (.vmulhImm8 f) := rfl
theorem vmulhImm32 (f : FForm) (imm : BitVec 32) : Statement (.vmulhImm32 f imm) := rfl
theorem vmad (f : FForm) : Statement (.vmad f) := rfl
theorem vmadImm8 (f : FForm) : Statement (.vmadImm8 f) := rfl
theorem vmadImm32 (f : FForm) (imm : BitVec 32) : Statement (.vmadImm32 f imm) := rfl
theorem vabsdiff (f : FForm) : Statement (.vabsdiff f) := rfl
theorem vmin (f : FForm) : Statement (.vmin f) := rfl
theorem vminImm8 (f : FForm) : Statement (.vminImm8 f) := rfl
theorem vminImm32 (f : FForm) (imm : BitVec 32) : Statement (.vminImm32 f imm) := rfl
theorem vmax (f : FForm) : Statement (.vmax f) := rfl
theorem vmaxImm8 (f : FForm) : Statement (.vmaxImm8 f) := rfl
theorem vmaxImm32 (f : FForm) (imm : BitVec 32) : Statement (.vmaxImm32 f imm) := rfl
theorem vabs (f : FForm) : Statement (.vabs f) := rfl
theorem vand (f : FForm) : Statement (.vand f) := rfl
theorem vandImm8 (f : FForm) : Statement (.vandImm8 f) := rfl
theorem vandImm32 (f : FForm) (imm : BitVec 32) : Statement (.vandImm32 f imm) := rfl
theorem vor (f : FForm) : Statement (.vor f) := rfl
theorem vorImm8 (f : FForm) : Statement (.vorImm8 f) := rfl
theorem vorImm32 (f : FForm) (imm : BitVec 32) : Statement (.vorImm32 f imm) := rfl
theorem vxor (f : FForm) : Statement (.vxor f) := rfl
theorem vxorImm8 (f : FForm) : Statement (.vxorImm8 f) := rfl
theorem vxorImm32 (f : FForm) (imm : BitVec 32) : Statement (.vxorImm32 f imm) := rfl
theorem vandn (f : FForm) : Statement (.vandn f) := rfl
theorem vandnImm8 (f : FForm) : Statement (.vandnImm8 f) := rfl
theorem vandnImm32 (f : FForm) (imm : BitVec 32) : Statement (.vandnImm32 f imm) := rfl
theorem vshl (f : FForm) : Statement (.vshl f) := rfl
theorem vshlImm8 (f : FForm) : Statement (.vshlImm8 f) := rfl
theorem vshr (f : FForm) : Statement (.vshr f) := rfl
theorem vshrImm8 (f : FForm) : Statement (.vshrImm8 f) := rfl
theorem vsra (f : FForm) : Statement (.vsra f) := rfl
theorem vsraImm8 (f : FForm) : Statement (.vsraImm8 f) := rfl
theorem vrot (f : FForm) : Statement (.vrot f) := rfl
theorem vrotImm8 (f : FForm) : Statement (.vrotImm8 f) := rfl
theorem vbext (f : FForm) : Statement (.vbext f) := rfl
theorem vbextImm32 (f : FForm) (imm : BitVec 32) : Statement (.vbextImm32 f imm) := rfl
theorem vbins (f : FForm) : Statement (.vbins f) := rfl
theorem vbinsImm32 (f : FForm) (imm : BitVec 32) : Statement (.vbinsImm32 f imm) := rfl
theorem vpopc (f : FForm) : Statement (.vpopc f) := rfl
theorem vclz (f : FForm) : Statement (.vclz f) := rfl
theorem vctz (f : FForm) : Statement (.vctz f) := rfl
theorem vbrev (f : FForm) : Statement (.vbrev f) := rfl
theorem vdot4 (f : FForm) : Statement (.vdot4 f) := rfl
theorem vdot2 (f : FForm) : Statement (.vdot2 f) := rfl
theorem vcmp (f : FForm) : Statement (.vcmp f) := rfl
theorem vcmpImm8 (f : FForm) : Statement (.vcmpImm8 f) := rfl
theorem vcmpImm32 (f : FForm) (imm : BitVec 32) : Statement (.vcmpImm32 f imm) := rfl
theorem vsel (f : FForm) : Statement (.vsel f) := rfl
theorem vselImm8 (f : FForm) : Statement (.vselImm8 f) := rfl
theorem vselImm32 (f : FForm) (imm : BitVec 32) : Statement (.vselImm32 f imm) := rfl
theorem vwid (f : FForm) : Statement (.vwid f) := rfl
theorem vshrink (f : FForm) : Statement (.vshrink f) := rfl
theorem vfadd (f : FForm) : Statement (.vfadd f) := rfl
theorem vfaddImm32 (f : FForm) (imm : BitVec 32) : Statement (.vfaddImm32 f imm) := rfl
theorem vfsub (f : FForm) : Statement (.vfsub f) := rfl
theorem vfsubImm32 (f : FForm) (imm : BitVec 32) : Statement (.vfsubImm32 f imm) := rfl
theorem vfmul (f : FForm) : Statement (.vfmul f) := rfl
theorem vfmulImm32 (f : FForm) (imm : BitVec 32) : Statement (.vfmulImm32 f imm) := rfl
theorem vfma (f : FForm) : Statement (.vfma f) := rfl
theorem vfmaImm32 (f : FForm) (imm : BitVec 32) : Statement (.vfmaImm32 f imm) := rfl
theorem vfmin (f : FForm) : Statement (.vfmin f) := rfl
theorem vfminImm32 (f : FForm) (imm : BitVec 32) : Statement (.vfminImm32 f imm) := rfl
theorem vfmax (f : FForm) : Statement (.vfmax f) := rfl
theorem vfmaxImm32 (f : FForm) (imm : BitVec 32) : Statement (.vfmaxImm32 f imm) := rfl
theorem vfabs (f : FForm) : Statement (.vfabs f) := rfl
theorem vfcmp (f : FForm) : Statement (.vfcmp f) := rfl
theorem vfcmpImm32 (f : FForm) (imm : BitVec 32) : Statement (.vfcmpImm32 f imm) := rfl
theorem vfdiv (f : FForm) : Statement (.vfdiv f) := rfl
theorem vfsqrt (f : FForm) : Statement (.vfsqrt f) := rfl
theorem vfrcp (f : FForm) : Statement (.vfrcp f) := rfl
theorem vfrsq (f : FForm) : Statement (.vfrsq f) := rfl
theorem vfexp2 (f : FForm) : Statement (.vfexp2 f) := rfl
theorem vflog2 (f : FForm) : Statement (.vflog2 f) := rfl
theorem vfsin (f : FForm) : Statement (.vfsin f) := rfl
theorem vfcos (f : FForm) : Statement (.vfcos f) := rfl
theorem vftanh (f : FForm) : Statement (.vftanh f) := rfl
theorem vfclass (f : FForm) : Statement (.vfclass f) := rfl
theorem vcvt (f : FForm) : Statement (.vcvt f) := rfl
theorem vpack (f : FForm) : Statement (.vpack f) := rfl
theorem vunpack (f : FForm) : Statement (.vunpack f) := rfl
theorem vmov (f : FForm) : Statement (.vmov f) := rfl
theorem vmovImm8 (f : FForm) : Statement (.vmovImm8 f) := rfl
theorem vmovImm32 (f : FForm) (imm : BitVec 32) : Statement (.vmovImm32 f imm) := rfl
theorem vmovk (f : FForm) : Statement (.vmovk f) := rfl
theorem vperm (f : FForm) : Statement (.vperm f) := rfl
theorem vpermImm8 (f : FForm) : Statement (.vpermImm8 f) := rfl
theorem vshfl (f : FForm) : Statement (.vshfl f) := rfl
theorem vshflImm8 (f : FForm) : Statement (.vshflImm8 f) := rfl
theorem vlrot (f : FForm) : Statement (.vlrot f) := rfl
theorem vlrotImm8 (f : FForm) : Statement (.vlrotImm8 f) := rfl
theorem vscan (f : FForm) : Statement (.vscan f) := rfl
theorem vred (f : FForm) : Statement (.vred f) := rfl
theorem vxchg (f : FForm) : Statement (.vxchg f) := rfl
theorem pairWord (h0 h1 : PHalf) : Statement (.pairWord h0 h1) := rfl
theorem vld (f : FForm) : Statement (.vld f) := rfl
theorem vldOffset (f : FForm) (imm : BitVec 32) : Statement (.vldOffset f imm) := rfl
theorem vst (f : FForm) : Statement (.vst f) := rfl
theorem vstOffset (f : FForm) (imm : BitVec 32) : Statement (.vstOffset f imm) := rfl
theorem kld (f : FForm) : Statement (.kld f) := rfl
theorem kldOffset (f : FForm) (imm : BitVec 32) : Statement (.kldOffset f imm) := rfl
theorem kst (f : FForm) : Statement (.kst f) := rfl
theorem kstOffset (f : FForm) (imm : BitVec 32) : Statement (.kstOffset f imm) := rfl
theorem vatom (f : FForm) (l : SetLit) : Statement (.vatom f l) := rfl
theorem vatomn (f : FForm) (l : SetLit) : Statement (.vatomn f l) := rfl
theorem vcas (f : FForm) (l : SetLit) : Statement (.vcas f l) := rfl
theorem atomicRunAtHome (uid req : Nat) (elem : Nat) : Statement (.atomicRunAtHome uid req elem) := rfl
theorem fence (f : FForm) : Statement (.fence f) := rfl
theorem facqRemote (f : FForm) : Statement (.facqRemote f) := rfl
theorem promotionPoint (victim issuer : Nat) : Statement (.promotionPoint victim issuer) := rfl
theorem promotionDrain (issuer : Nat) : Statement (.promotionDrain issuer) := rfl
theorem pref (f : FForm) : Statement (.pref f) := rfl
theorem prefL1 (f : FForm) : Statement (.prefL1 f) := rfl
theorem prefOffset (f : FForm) (imm : BitVec 32) : Statement (.prefOffset f imm) := rfl
theorem cwb (f : FForm) : Statement (.cwb f) := rfl
theorem cinv (f : FForm) : Statement (.cinv f) := rfl
theorem xcopy (f : FForm) (l : SetLit) : Statement (.xcopy f l) := rfl
theorem xgath (f : FForm) (l : SetLit) : Statement (.xgath f l) := rfl
theorem xcoll (f : FForm) (l : SetLit) : Statement (.xcoll f l) := rfl
theorem xwait (f : FForm) : Statement (.xwait f) := rfl
theorem engineCompletion (uid op : Nat) (coll : CollInput) : Statement (.engineCompletion uid op coll) := rfl
theorem asyncFaultTake (uid : Nat) : Statement (.asyncFaultTake uid) := rfl
theorem abeg (f : FForm) (imm : BitVec 32) : Statement (.abeg f imm) := rfl
theorem acom (f : FForm) : Statement (.acom f) := rfl
theorem aabt (f : FForm) : Statement (.aabt f) := rfl
theorem xcast (f : FForm) (l : SetLit) : Statement (.xcast f l) := rfl
theorem xcastT (f : FForm) (l : SetLit) : Statement (.xcastT f l) := rfl
theorem mma (f : FForm) (l : SetLit) : Statement (.mma f l) := rfl
theorem mfence (f : FForm) : Statement (.mfence f) := rfl
theorem mwait (f : FForm) : Statement (.mwait f) := rfl
theorem mpour (f : FForm) (l : SetLit) : Statement (.mpour f l) := rfl
theorem mzero (f : FForm) : Statement (.mzero f) := rfl
theorem mload (f : FForm) (l : SetLit) : Statement (.mload f l) := rfl
theorem matrixOpComplete (quad : Nat) : Statement (.matrixOpComplete quad) := rfl
theorem qpop (f : FForm) : Statement (.qpop f) := rfl
theorem qpopTry (f : FForm) : Statement (.qpopTry f) := rfl
theorem qpush (f : FForm) : Statement (.qpush f) := rfl
theorem qlenVb (f : FForm) : Statement (.qlenVb f) := rfl
theorem qlenVf (f : FForm) : Statement (.qlenVf f) := rfl
theorem qlenB (f : FForm) : Statement (.qlenB f) := rfl
theorem qlenF (f : FForm) : Statement (.qlenF f) := rfl
theorem qlenH (f : FForm) : Statement (.qlenH f) := rfl
theorem qlenR (f : FForm) : Statement (.qlenR f) := rfl
theorem hpush (f : FForm) : Statement (.hpush f) := rfl
theorem hpop (f : FForm) : Statement (.hpop f) := rfl
theorem htry (f : FForm) : Statement (.htry f) := rfl
theorem hallow (f : FForm) : Statement (.hallow f) := rfl
theorem launch (f : FForm) : Statement (.launch f) := rfl
theorem cont (f : FForm) : Statement (.cont f) := rfl
theorem evpost (f : FForm) : Statement (.evpost f) := rfl
theorem evpop (f : FForm) : Statement (.evpop f) := rfl
theorem evpopWait (f : FForm) : Statement (.evpopWait f) := rfl
theorem ksig (f : FForm) : Statement (.ksig f) := rfl
theorem tdef (f : FForm) (l : SetLit) : Statement (.tdef f l) := rfl
theorem tpatch (f : FForm) (l : SetLit) : Statement (.tpatch f l) := rfl
theorem tpatchAdd (f : FForm) (l : SetLit) : Statement (.tpatchAdd f l) := rfl
theorem tinv (f : FForm) (l : SetLit) : Statement (.tinv f l) := rfl
theorem hnewB (f : FForm) : Statement (.hnewB f) := rfl
theorem hnewQ (f : FForm) : Statement (.hnewQ f) := rfl
theorem hnewJ (f : FForm) : Statement (.hnewJ f) := rfl
theorem hdel (f : FForm) : Statement (.hdel f) := rfl
theorem preserve (f : FForm) : Statement (.preserve f) := rfl
theorem preserveRel (f : FForm) : Statement (.preserveRel f) := rfl
theorem pcommit (f : FForm) : Statement (.pcommit f) := rfl
theorem pfree (f : FForm) : Statement (.pfree f) := rfl
theorem tlbinv (f : FForm) : Statement (.tlbinv f) := rfl
theorem tlbinvAll (f : FForm) : Statement (.tlbinvAll f) := rfl
theorem hmove (f : FForm) : Statement (.hmove f) := rfl
theorem barExpect (f : FForm) : Statement (.barExpect f) := rfl
theorem barExpectN (f : FForm) : Statement (.barExpectN f) := rfl
theorem barArrive (f : FForm) : Statement (.barArrive f) := rfl
theorem barArriveX (f : FForm) : Statement (.barArriveX f) := rfl
theorem barWait (f : FForm) : Statement (.barWait f) := rfl
theorem engineBarrierArrival (part ctx : Nat) (handle : BitVec 64) (bytes : Nat) : Statement (.engineBarrierArrival part ctx handle bytes) := rfl
theorem jwait (f : FForm) : Statement (.jwait f) := rfl
theorem jstat (f : FForm) : Statement (.jstat f) := rfl
theorem jstatS (f : FForm) : Statement (.jstatS f) := rfl
theorem joinDecrement (part ctx : Nat) (handle : BitVec 64) (faulted killed : Bool) : Statement (.joinDecrement part ctx handle faulted killed) := rfl
theorem ckpt (f : FForm) : Statement (.ckpt f) := rfl
theorem ckstat (f : FForm) : Statement (.ckstat f) := rfl
theorem checkpointComplete (part : Nat) : Statement (.checkpointComplete part) := rfl
theorem kadd (f : FForm) : Statement (.kadd f) := rfl
theorem kaddImm8 (f : FForm) : Statement (.kaddImm8 f) := rfl
theorem kaddImm32 (f : FForm) (imm : BitVec 32) : Statement (.kaddImm32 f imm) := rfl
theorem ksub (f : FForm) : Statement (.ksub f) := rfl
theorem ksubImm8 (f : FForm) : Statement (.ksubImm8 f) := rfl
theorem ksubImm32 (f : FForm) (imm : BitVec 32) : Statement (.ksubImm32 f imm) := rfl
theorem kmul (f : FForm) : Statement (.kmul f) := rfl
theorem kmulImm8 (f : FForm) : Statement (.kmulImm8 f) := rfl
theorem kmulImm32 (f : FForm) (imm : BitVec 32) : Statement (.kmulImm32 f imm) := rfl
theorem kand (f : FForm) : Statement (.kand f) := rfl
theorem kandImm8 (f : FForm) : Statement (.kandImm8 f) := rfl
theorem kandImm32 (f : FForm) (imm : BitVec 32) : Statement (.kandImm32 f imm) := rfl
theorem kor (f : FForm) : Statement (.kor f) := rfl
theorem korImm8 (f : FForm) : Statement (.korImm8 f) := rfl
theorem korImm32 (f : FForm) (imm : BitVec 32) : Statement (.korImm32 f imm) := rfl
theorem kxor (f : FForm) : Statement (.kxor f) := rfl
theorem kxorImm8 (f : FForm) : Statement (.kxorImm8 f) := rfl
theorem kxorImm32 (f : FForm) (imm : BitVec 32) : Statement (.kxorImm32 f imm) := rfl
theorem kshl (f : FForm) : Statement (.kshl f) := rfl
theorem kshlImm8 (f : FForm) : Statement (.kshlImm8 f) := rfl
theorem kshlImm32 (f : FForm) (imm : BitVec 32) : Statement (.kshlImm32 f imm) := rfl
theorem kshr (f : FForm) : Statement (.kshr f) := rfl
theorem kshrImm8 (f : FForm) : Statement (.kshrImm8 f) := rfl
theorem kshrImm32 (f : FForm) (imm : BitVec 32) : Statement (.kshrImm32 f imm) := rfl
theorem ksra (f : FForm) : Statement (.ksra f) := rfl
theorem ksraImm8 (f : FForm) : Statement (.ksraImm8 f) := rfl
theorem ksraImm32 (f : FForm) (imm : BitVec 32) : Statement (.ksraImm32 f imm) := rfl
theorem kmin (f : FForm) : Statement (.kmin f) := rfl
theorem kminImm8 (f : FForm) : Statement (.kminImm8 f) := rfl
theorem kminImm32 (f : FForm) (imm : BitVec 32) : Statement (.kminImm32 f imm) := rfl
theorem kmax (f : FForm) : Statement (.kmax f) := rfl
theorem kmaxImm8 (f : FForm) : Statement (.kmaxImm8 f) := rfl
theorem kmaxImm32 (f : FForm) (imm : BitVec 32) : Statement (.kmaxImm32 f imm) := rfl
theorem kmov (f : FForm) : Statement (.kmov f) := rfl
theorem kmovImm8 (f : FForm) : Statement (.kmovImm8 f) := rfl
theorem kmovWide (f : FForm) (wide : BitVec 60) : Statement (.kmovWide f wide) := rfl
theorem kcmp (f : FForm) : Statement (.kcmp f) := rfl
theorem kcmpImm8 (f : FForm) : Statement (.kcmpImm8 f) := rfl
theorem kcmpImm32 (f : FForm) (imm : BitVec 32) : Statement (.kcmpImm32 f imm) := rfl
theorem nop (f : FForm) : Statement (.nop f) := rfl
theorem bra (f : FForm) : Statement (.bra f) := rfl
theorem call (f : FForm) : Statement (.call f) := rfl
theorem ret (f : FForm) : Statement (.ret f) := rfl
theorem jmp (f : FForm) : Statement (.jmp f) := rfl
theorem jcall (f : FForm) : Statement (.jcall f) := rfl
theorem bcc (f : FForm) : Statement (.bcc f) := rfl
theorem bccLong (f : FForm) (imm : BitVec 32) : Statement (.bccLong f imm) := rfl
theorem bany (f : FForm) : Statement (.bany f) := rfl
theorem ball (f : FForm) : Statement (.ball f) := rfl
theorem pfork (f : FForm) (imm : BitVec 32) : Statement (.pfork f imm) := rfl
theorem pjoin (f : FForm) : Statement (.pjoin f) := rfl
theorem pyield (f : FForm) : Statement (.pyield f) := rfl
theorem mand (f : FForm) : Statement (.mand f) := rfl
theorem mor (f : FForm) : Statement (.mor f) := rfl
theorem mxor (f : FForm) : Statement (.mxor f) := rfl
theorem mandn (f : FForm) : Statement (.mandn f) := rfl
theorem mnot (f : FForm) : Statement (.mnot f) := rfl
theorem mmov (f : FForm) : Statement (.mmov f) := rfl
theorem mset (f : FForm) : Statement (.mset f) := rfl
theorem mget (f : FForm) : Statement (.mget f) := rfl
theorem mpopc (f : FForm) : Statement (.mpopc f) := rfl
theorem mfirst (f : FForm) : Statement (.mfirst f) := rfl
theorem kget (f : FForm) : Statement (.kget f) := rfl
theorem ktime (f : FForm) : Statement (.ktime f) := rfl
theorem kmode (f : FForm) : Statement (.kmode f) := rfl
theorem kwmode (f : FForm) : Statement (.kwmode f) := rfl
theorem kwmodeFlags (f : FForm) : Statement (.kwmodeFlags f) := rfl
theorem kwmodeCtl (f : FForm) : Statement (.kwmodeCtl f) := rfl
theorem kgang (f : FForm) : Statement (.kgang f) := rfl
theorem kpair (f : FForm) : Statement (.kpair f) := rfl
theorem ksleep (f : FForm) : Statement (.ksleep f) := rfl
theorem ksleepWake (uid : Nat) : Statement (.ksleepWake uid) := rfl
theorem kwait (f : FForm) : Statement (.kwait f) := rfl
theorem kwaitWake (uid : Nat) : Statement (.kwaitWake uid) := rfl
theorem trap (f : FForm) : Statement (.trap f) := rfl
theorem brk (f : FForm) : Statement (.brk f) := rfl
theorem eret (f : FForm) : Statement (.eret f) := rfl
theorem gexit (f : FForm) : Statement (.gexit f) := rfl
theorem ksys (f : FForm) : Statement (.ksys f) := rfl
theorem kwsys (f : FForm) : Statement (.kwsys f) := rfl
theorem assistComplete (uid : Nat) : Statement (.assistComplete uid) := rfl
theorem issueSelection (quad : Nat) : Statement (.issueSelection quad) := rfl
theorem stallElapsed (uid : Nat) : Statement (.stallElapsed uid) := rfl
theorem loadReturn (uid req gen : Nat) : Statement (.loadReturn uid req gen) := rfl
theorem pageWalk (core part ctx : Nat) (va : BitVec 64) (kind : AccessKind) : Statement (.pageWalk core part ctx va kind) := rfl
theorem invalidationComplete (inv : Nat) : Statement (.invalidationComplete inv) := rfl
theorem l2FillReturn (uid req line : Nat) : Statement (.l2FillReturn uid req line) := rfl
theorem tileVerification (tile : Nat) : Statement (.tileVerification tile) := rfl
theorem tileWriteback (tile : Nat) : Statement (.tileWriteback tile) := rfl
theorem coherenceService (part ctx vpn dev : Nat) (write : Bool) (frame : Nat) : Statement (.coherenceService part ctx vpn dev write frame) := rfl
theorem hostPageRequestAnswer (uid : Nat) (granted : Bool) : Statement (.hostPageRequestAnswer uid granted) := rfl
theorem remoteAccessArrival (port src part ctx vpn pa : Nat) (write : RemoteAccess) (data : List (BitVec 8)) : Statement (.remoteAccessArrival port src part ctx vpn pa write data) := rfl
theorem hotnessDecay  : Statement (.hotnessDecay) := rfl
theorem summaryWindowClose (through : Nat) (overBudget : Bool) : Statement (.summaryWindowClose through overBudget) := rfl
theorem meteredRequestAdmit (slice part ctx : Nat) : Statement (.meteredRequestAdmit slice part ctx) := rfl
theorem watchdogFire (part ctx : Nat) : Statement (.watchdogFire part ctx) := rfl
theorem summaryExchange (port peer : Nat) (occ : List (Nat × Nat × Nat)) : Statement (.summaryExchange port peer occ) := rfl
theorem emitReservationRequest (attempt : Nat) : Statement (.emitReservationRequest attempt) := rfl
theorem launchPopRequest (attempt : Nat) : Statement (.launchPopRequest attempt) := rfl
theorem rangeBlockRequest (attempt : Nat) : Statement (.rangeBlockRequest attempt) := rfl
theorem restartOffer (gidx stage inst blockNo : Nat) : Statement (.restartOffer gidx stage inst blockNo) := rfl
theorem launchConfirmation (attempt : Nat) (place : List Nat) : Statement (.launchConfirmation attempt place) := rfl
theorem groupLaunchComplete (uid : Nat) : Statement (.groupLaunchComplete uid) := rfl
theorem quadrantRelease (cluster : Nat) : Statement (.quadrantRelease cluster) := rfl
theorem operatingPointChange (cluster point : Nat) : Statement (.operatingPointChange cluster point) := rfl
theorem park (quad : Nat) : Statement (.park quad) := rfl
theorem parkedRestore (uid : Nat) : Statement (.parkedRestore uid) := rfl
theorem groupRetirement (uid : Nat) : Statement (.groupRetirement uid) := rfl
theorem blockRetirement (blk : Nat) : Statement (.blockRetirement blk) := rfl
theorem recordCommit (blk : Nat) : Statement (.recordCommit blk) := rfl
theorem shelfRefill (gidx qid : Nat) : Statement (.shelfRefill gidx qid) := rfl
theorem forwardBatchSend (port : Nat) : Statement (.forwardBatchSend port) := rfl
theorem forwardBatchArrival (gidx qid peer : Nat) (recs : List (List (BitVec 8))) : Statement (.forwardBatchArrival gidx qid peer recs) := rfl
theorem forwardAck (gidx qid count : Nat) : Statement (.forwardAck gidx qid count) := rfl
theorem creditGrant (gidx qid peer : Nat) : Statement (.creditGrant gidx qid peer) := rfl
theorem xoff (port : Nat) : Statement (.xoff port) := rfl
theorem xon (port : Nat) : Statement (.xon port) := rfl
theorem linkLoss (port peer : Nat) : Statement (.linkLoss port peer) := rfl
theorem doorbell (vf : Nat) (bytes : List (BitVec 8)) : Statement (.doorbell vf bytes) := rfl
theorem ringReset (q : MgmtReq) (gidx qid : Nat) (index : BitVec 64) : Statement (.ringReset q gidx qid index) := rfl
theorem poolFrameArrival (part frame : Nat) : Statement (.poolFrameArrival part frame) := rfl
theorem freedFrameToPool (part frame : Nat) : Statement (.freedFrameToPool part frame) := rfl
theorem preemption (uid : Nat) : Statement (.preemption uid) := rfl
theorem preemptionSave (uid : Nat) : Statement (.preemptionSave uid) := rfl
theorem restore (uid core slot : Nat) : Statement (.restore uid core slot) := rfl
theorem kill (uid : Nat) : Statement (.kill uid) := rfl
theorem hwError (quad : Nat) : Statement (.hwError quad) := rfl
theorem liveMigration (q : MgmtReq) (part : Nat) (phase : MigPhase) : Statement (.liveMigration q part phase) := rfl
theorem rekey (q : MgmtReq) (part : Nat) (aes kmac : BitVec 256) : Statement (.rekey q part aes kmac) := rfl
theorem l2WayMaskChange (q : MgmtReq) (part : Nat) (ways : BitVec 16) (resq : BitVec 4) : Statement (.l2WayMaskChange q part ways resq) := rfl
theorem hostBar2Access (vf : Nat) (pa : BarAddr) (write : Bool) (data : List (BitVec 8)) : Statement (.hostBar2Access vf pa write data) := rfl
theorem ownershipClaim (claims : List (BitVec 3)) : Statement (.ownershipClaim claims) := rfl
theorem ownerNextWrite (q : MgmtReq) (next : BitVec 3) : Statement (.ownerNextWrite q next) := rfl
theorem handoverAck (sender : BitVec 3) : Statement (.handoverAck sender) := rfl
theorem handoverTimeout  : Statement (.handoverTimeout) := rfl
theorem ownerChannelLoss  : Statement (.ownerChannelLoss) := rfl
theorem createPartition (q : MgmtReq) (part : Nat) (setup : PartSetup) : Statement (.createPartition q part setup) := rfl
theorem destroyPartition (q : MgmtReq) (part : Nat) : Statement (.destroyPartition q part) := rfl
theorem setIssueWeight (q : MgmtReq) (part ctx : Nat) (weight : BitVec 8) : Statement (.setIssueWeight q part ctx weight) := rfl
theorem setTokens (q : MgmtReq) (part ctx : Nat) (tokens : BitVec 64) : Statement (.setTokens q part ctx tokens) := rfl
theorem setLend (q : MgmtReq) (part : Nat) (lend : Bool) : Statement (.setLend q part lend) := rfl
theorem setQuota (q : MgmtReq) (part ctx : Nat) (quota : BitVec 64) : Statement (.setQuota q part ctx quota) := rfl
theorem setWdog (q : MgmtReq) (part ctx : Nat) (wdog : BitVec 64) : Statement (.setWdog q part ctx wdog) := rfl
theorem setDefaultMode (q : MgmtReq) (part ctx : Nat) (mode : BitVec 64) : Statement (.setDefaultMode q part ctx mode) := rfl
theorem setOperatingCap (q : MgmtReq) (cluster : Nat) (cap : BitVec 3) : Statement (.setOperatingCap q cluster cap) := rfl
theorem setHotnessThresholds (q : MgmtReq) (hotw hotr : BitVec 16) : Statement (.setHotnessThresholds q hotw hotr) := rfl
theorem setReplicaPolicy (q : MgmtReq) (part ctx vpn : Nat) (remote : Bool) : Statement (.setReplicaPolicy q part ctx vpn remote) := rfl
theorem configureCollective (q : MgmtReq) (coll : BitVec 16) (members : List (Nat × List Nat)) : Statement (.configureCollective q coll members) := rfl
theorem firmwareUpdate (q : MgmtReq) (image : BootImage) : Statement (.firmwareUpdate q image) := rfl
theorem resetBoot (images : List BootImage) : Statement (.resetBoot images) := rfl
theorem deviceNumberAssign (port : Nat) (number : BitVec 10) : Statement (.deviceNumberAssign port number) := rfl
theorem ideIntegrityFailure (vf : Nat) : Statement (.ideIntegrityFailure vf) := rfl
theorem getVersion  : Statement (.getVersion) := rfl
theorem getCapabilities  : Statement (.getCapabilities) := rfl
theorem negotiateAlgorithms  : Statement (.negotiateAlgorithms) := rfl
theorem getDigests  : Statement (.getDigests) := rfl
theorem getCertificate (slot offset len : Nat) : Statement (.getCertificate slot offset len) := rfl
theorem challenge (slot : Nat) (nonce : BitVec 256) : Statement (.challenge slot nonce) := rfl
theorem getMeasurements (index : Nat) (vf : Nat) (nonce : BitVec 256) : Statement (.getMeasurements index vf nonce) := rfl
theorem keyExchange (session : Nat) (exchange : List (BitVec 8)) : Statement (.keyExchange session exchange) := rfl
theorem createContext (q : MgmtReq) (part ctx : Nat) (setup : CtxSetup) : Statement (.createContext q part ctx setup) := rfl
theorem destroyContext (q : MgmtReq) (part ctx : Nat) : Statement (.destroyContext q part ctx) := rfl
theorem graphInstall (part ctx : Nat) (va : BitVec 64) (gidx : Nat) (places : List (Nat × Nat × Nat)) : Statement (.graphInstall part ctx va gidx places) := rfl
theorem graphRemove (gidx : Nat) : Statement (.graphRemove gidx) := rfl
theorem hostTlbShootdown (part ctx : Nat) (start len : BitVec 64) : Statement (.hostTlbShootdown part ctx start len) := rfl
theorem storePerformed (uid req : Nat) (elem : Nat) : Statement (.storePerformed uid req elem) := rfl
theorem migrationProposalAccepted (part ctx vpn dev : Nat) (duplicate : Bool) (frame : Nat) : Statement (.migrationProposalAccepted part ctx vpn dev duplicate frame) := rfl
theorem tdispInterfaceRequest (vf : Nat) (state : TdispState) : Statement (.tdispInterfaceRequest vf state) := rfl
theorem frameHandOver (part frame : Nat) : Statement (.frameHandOver part frame) := rfl

end Sys2Proof.Laws.Length
end

