-- ==== Sys2Proof/Tests/Slice0.lean ====
section
/-! SUPPORT. Tests: words written out from the spec's encoding tables, ill-formed terms that each check refuses, and for each statement with hypotheses a state and operands that meet them. -/

namespace Sys2Proof.Tests

open Sys2Proof Sys2Proof.Machine

set_option Elab.async false

/-! ### Words written out from the encodings (Tables 3-2, 3-8 and 3-11 to 3-16) -/

theorem test_decode_kadd : decode 0x3411000808040000 0 = .ok (.kaddImm8 { stall := 1, d := 2, a := 2, b := 1 }) := rfl
theorem test_decode_bcc : decode 0x3C5203F0080C0002 0 = .ok (.bcc { stall := 2, d := 0xFC, a := 2, b := 3, xf := 2 }) := rfl
theorem test_decode_vld : decode 0x201010141024010D 0 = .ok (.vld { rnd := 4, d := 5, a := 4, b := 9, blane := 2, xf := 13 }) := rfl
theorem test_decode_qpush : decode 0x2610002010140000 0 = .ok (.qpush { d := 8, a := 4, b := 5 }) := rfl
theorem test_decode_qpush_masked : decode 0x2610202010140000 0 = .ok (.qpush { pred := 1, d := 8, a := 4, b := 5 }) := rfl
theorem test_decode_bar_arrive : decode 0x2810001810000000 0 = .ok (.barArrive { d := 6, a := 4 }) := rfl
theorem test_decode_bar_arrive_x : decode 0x2810041810140000 0 = .ok (.barArriveX { rnd := 1, d := 6, a := 4, b := 5 }) := rfl
theorem test_decode_bar_wait : decode 0x2820000010180000 0 = .ok (.barWait { a := 4, b := 6 }) := rfl
theorem test_decode_ckpt : decode 0x2900001000000000 0 = .ok (.ckpt { d := 4 }) := rfl
theorem test_decode_aabt : decode 0x2420000000000000 0 = .ok (.aabt {}) := rfl
theorem test_decode_vcvt : decode 0x153004200D200011 0 = .ok (.vcvt { rnd := 1, d := 8, a := 3, b := 0x48, xf := 17 }) := rfl
theorem test_decode_vscan : decode 0x15B0242408000008 0 = .ok (.vscan { pred := 1, rnd := 1, d := 9, a := 2, xf := 8 }) := rfl
theorem test_decode_vfma : decode 0x10454428101E5008 0 = .ok (.vfma { stall := 5, pred := 2, rnd := 1, d := 10, a := 4, b := 7, lra := true, bsel := 2, bfirst := true, xf := 8 }) := rfl
theorem test_decode_mfence : decode 0x2520001C00000000 0 = .ok (.mfence { d := 7 }) := rfl
theorem test_decode_mwait : decode 0x253000001C000000 0 = .ok (.mwait { a := 7 }) := rfl
theorem test_decode_pfork : decode 0x3D00000004000000 0x8000000000070005 = .ok (.pfork { a := 1 } 0x00070005) := rfl
theorem test_decode_pjoin : decode 0x3D100000001C0000 0 = .ok (.pjoin { b := 7 }) := rfl
theorem test_decode_acom : decode 0x2410001C00000000 0 = .ok (.acom { d := 7 }) := rfl
theorem test_decode_pcommit : decode 0x27600C1410000000 0 = .ok (.pcommit { rnd := 3, d := 5, a := 4 }) := rfl
theorem test_decode_ckstat : decode 0x2910001410000000 0 = .ok (.ckstat { d := 5, a := 4 }) := rfl
theorem test_decode_vatom : decode 0x2050000C0820011D 0xA000000000040000 = .ok (.vatom { d := 3, a := 2, b := 8, blane := 2, xf := 29 } { x := 4 }) := rfl
theorem test_decode_mma : decode 0x2510040010100000 0xA000300090000033 = .ok (.mma { rnd := 1, d := 0, a := 4, b := 4 } { t1 := 3, t2 := 9, p1 := 3, p2 := 3 }) := rfl
theorem test_decode_pair : decode 0x40C0204823C06038 0 = .ok (.pairWord { op := .vadd, stall := 2, d := 4, s := 9 } { op := .vfmul, stall := 3, d := 6, s := 3, lrs := true }) := rfl
theorem test_decode_nop : decode 0x3000000000000000 0 = .ok (.nop {}) := rfl
/-- A first word that is a literal, or none expected (R49). -/
theorem test_decode_literal : decode 0x8000000000000001 0 = .error .illegalWord := rfl
/-- A word whose opcode the tables leave unassigned. -/
theorem test_decode_unassigned : decode 0x0000000000000000 0 = .error .illegalOpcode := rfl

/-! ### Ill-formed terms: one for each check -/

/-- Each term differs from a well-formed one in the field its check is about. -/
theorem test_well_formed : Instr.wellFormed (.vadd { d := 4, a := 2, b := 6 }) = true ∧ Instr.wellFormed (.kadd { d := 2, a := 3, b := 4 }) = true ∧ Instr.wellFormed (.vcvt { d := 8, a := 3, b := 0x48, xf := 17, rnd := 1 }) = true := ⟨rfl, rfl, rfl⟩
/-- A field that an entry does not use is zero (R40). -/
theorem test_refused_unused : Instr.wellFormed (.kmov { d := 2, a := 3, b := 4 }) = false := rfl
/-- Only predicated families carry PRED. -/
theorem test_refused_pred : Instr.wellFormed (.kadd { pred := 1, d := 2, a := 3, b := 4 }) = false := rfl
/-- RND where the entry lists none. -/
theorem test_refused_rnd : Instr.wellFormed (.vadd { rnd := 1, d := 4, a := 2, b := 6 }) = false := rfl
/-- XF outside the entry's types. -/
theorem test_refused_xf : Instr.wellFormed (.vadd { d := 4, a := 2, b := 6, xf := 8 }) = false := rfl
/-- An odd name of a 64-bit operand. -/
theorem test_refused_odd_pair : Instr.wellFormed (.vadd { d := 4, a := 3, b := 6, xf := 6 }) = false := rfl
/-- A last-read bit on 255, or on a register of another class (R47). -/
theorem test_refused_last_read : Instr.wellFormed (.vadd { d := 4, a := 255, b := 6, lra := true }) = false ∧ Instr.wellFormed (.kadd { d := 2, a := 3, b := 4, lrb := true }) = false ∧ Instr.wellFormed (.vadd { d := 4, a := 2, b := 6, lrd := true }) = false := ⟨rfl, rfl, rfl⟩
/-- A broadcast lane beside BFIRST, or without BSEL (R45). -/
theorem test_refused_broadcast : Instr.wellFormed (.vadd { d := 4, a := 2, b := 6, bsel := 1, bfirst := true, blane := 3 }) = false ∧ Instr.wellFormed (.vadd { d := 4, a := 2, b := 6, bsel := 3 }) = false ∧ Instr.wellFormed (.vadd { d := 4, a := 2, b := 6, blane := 1 }) = false := ⟨rfl, rfl, rfl⟩
/-- A negation of an unsigned type (R46). -/
theorem test_refused_negation : Instr.wellFormed (.vadd { d := 4, a := 2, b := 6, xf := 1, nega := true }) = false := rfl
/-- Bits of an imm32 above a narrow element (R50). -/
theorem test_refused_imm32 : Instr.wellFormed (.vaddImm32 { d := 4, a := 2, xf := 3 } 0x10000) = false := rfl
/-- A conversion of a type to itself, and a part past the last (R133). -/
theorem test_refused_conversion : Instr.wellFormed (.vcvt { rnd := 0, d := 8, a := 4, b := 8, xf := 8 }) = false ∧ Instr.wellFormed (.vcvt { rnd := 1, d := 8, a := 3, b := 0xFF, xf := 17 }) = false := ⟨rfl, rfl⟩
/-- An operator that `vscan` does not have (R139), and the literal of an atomic with an operator past the last (Table 12-5). -/
theorem test_refused_operator : Instr.wellFormed (.vscan { d := 8, a := 4, b := 6 }) = false ∧ Instr.wellFormed (.vatom { d := 3, a := 2, b := 8, xf := 29 } { p1 := 7 }) = false := ⟨rfl, rfl⟩
/-- A literal field an entry does not use (R48). -/
theorem test_refused_literal : Instr.wellFormed (.mload { d := 0, a := 4 } { t1 := 3, p1 := 1 }) = false := rfl
/-- A half with LRD, one with a type it lacks, and a `pnop` half with a field set (R52, R67). -/
theorem test_refused_half : Instr.wellFormed (.pairWord { op := .vadd, d := 4, s := 9, lrd := true } { op := .pnop }) = false ∧ Instr.wellFormed (.pairWord { op := .vand, d := 4, s := 9, xf2 := 1 } { op := .pnop }) = false ∧ Instr.wellFormed (.pairWord { op := .vadd, d := 4, s := 9 } { op := .pnop, d := 1 }) = false := ⟨rfl, rfl, rfl⟩
/-- H1 names H0's destination, and two registers of one bank (R53). -/
theorem test_refused_pair : Instr.wellFormed (.pairWord { op := .vadd, d := 4, s := 9 } { op := .vadd, d := 6, s := 4 }) = false ∧ Instr.wellFormed (.pairWord { op := .vadd, d := 4, s := 8 } { op := .pnop }) = false := ⟨rfl, rfl⟩

/-! ### States and operands that meet the hypotheses of each statement -/

/-- Group 1 of partition 0, context 0, ready with one active lane. -/
def group : Group := { uid := 1, st := .ready, pc := 0x10000, m0 := 1, mode := 0x10000000, regs := 255 }

/-- The group issues on a machine that holds nothing else. -/
def ready : State := { g := group, tabs := { parts := [(0, { st := .active })], ctxs := [(0, { st := 1 })] } }

theorem witness_integer : ∃ i w body, wordOf i = some w ∧ integerResult i w ready = some body ∧ i.wellFormed = true ∧ ready.executes w {} = true := ⟨.vadd { d := 4, a := 2, b := 6 }, _, _, rfl, rfl, rfl, rfl⟩
theorem witness_float : ∃ i w body, wordOf i = some w ∧ floatResult i w = some body ∧ i.wellFormed = true ∧ ready.executes w {} = true ∧ (body ready.g (ready.g.active w.f.pred.toNat)).plain = true := ⟨.vfadd { d := 4, a := 2, b := 6, xf := 8 }, _, _, rfl, rfl, rfl, rfl, rfl⟩
theorem witness_move : ∃ i w body, wordOf i = some w ∧ moveResult i w = some body ∧ i.wellFormed = true ∧ ready.executes w {} = true ∧ (body ready.g (ready.g.active w.f.pred.toNat)).plain = true := ⟨.vmov { d := 4, b := 2 }, _, _, rfl, rfl, rfl, rfl, rfl⟩
theorem witness_control : ∃ i w x, wordOf i = some w ∧ controlValue i w ready = some x ∧ ready.executes w (extraOf i ready) = true ∧ ready.g.roomForConstraint = true := ⟨.kadd { d := 2, a := 3, b := 4 }, _, _, rfl, rfl, rfl, rfl⟩
/-- The same for a word that writes k0, which discards it. -/
theorem witness_control_zero : ∃ i w x, wordOf i = some w ∧ w.f.d = 0 ∧ controlValue i w ready = some x ∧ ready.executes w (extraOf i ready) = true := ⟨.ktime {}, _, _, rfl, rfl, rfl, rfl⟩
theorem witness_mask : ∃ i w x, wordOf i = some w ∧ maskValue i w ready.g = some x ∧ ready.executes w {} = true := ⟨.mnot { d := 1, a := 2 }, _, _, rfl, rfl, rfl⟩
theorem witness_branch : ∃ i w taken target link, wordOf i = some w ∧ branchOf i w ready.g = some (taken, target, link) ∧ ready.executes w {} = true ∧ ready.g.roomForConstraint = true ∧ pcBits target = target ∧ ready.g.staysOn target = true :=
  ⟨.call { b := 2 }, _, _, _, _, rfl, rfl, rfl, rfl, rfl, rfl⟩
theorem witness_system : ∃ i w bits reseed, wordOf i = some w ∧ modeBits i = some (bits, reseed) ∧ ready.executes w {} = true ∧ ready.g.flagsOut = false := ⟨.kwmode { a := 2 }, _, _, _, rfl, rfl, rfl, rfl⟩
theorem witness_gang : (∃ w, wordOf (.kgang { d := 2, a := 3 }) = some w ∧ ready.executes w {} = true) ∧ (∃ w, wordOf (.kpair { d := 2, a := 3 }) = some w ∧ ready.executes w {} = true) := ⟨⟨_, rfl, rfl⟩, ⟨_, rfl, rfl⟩⟩
/-- A group in its handler may write the system registers. -/
def handler : State := { ready with g := { group with st := .handler, sup := true } }
theorem witness_sysreg : ∀ n ∈ [(0x00, 0x02), (0x00, 0x07), (0x01, 0x04), (0x01, 0x07)], ∃ w, wordOf (.kwsys { d := BitVec.ofNat 8 n.1, a := 3, b := BitVec.ofNat 8 n.2 }) = some w ∧ handler.executes w (extraOf (.kwsys { d := BitVec.ofNat 8 n.1, a := 3, b := BitVec.ofNat 8 n.2 }) handler) = true := by
  intro n h
  simp only [List.mem_cons, List.not_mem_nil, or_false] at h
  rcases h with rfl | rfl | rfl | rfl <;> exact ⟨_, rfl, rfl⟩

/-- Page 2 is mapped on frame 5 for reading and writing, page 3 on frame 6. -/
def leaf (vpn frame : Nat) : Leaf := { vpn := vpn, frame := frame, target := 0, peer := 0, r := true, w := true, x := false, repl := false, large := false }

/-- The group with page 2 mapped, k2 the address of its first byte and k3 = 3. -/
def mapped : State :=
  { g := { group with k := [(2, { base := 0x20000 }), (3, { base := 3 })] }, mem := { tlb := [{ core := 0, part := 0, ctx := 0, leaf := leaf 2 5 }] }
    tabs := { parts := [(0, { st := .active, frames := [5, 6], quads := [0], l2ways := 0xFFFF })], ctxs := [(0, { st := 1 })] } }

theorem witness_access : ∃ i w a, wordOf i = some w ∧ accessOf i w (mapped.begun w {}).g = some a ∧ mapped.executes w {} = true ∧ mapped.g.inreg = false ∧ misaligned a.size a.at_ = none ∧
    (a.reach (mapped.begun w {})).1.stop = none ∧ (a.reach (mapped.begun w {})).1.bad = [] ∧ (a.reach (mapped.begun w {})).1.ok ≠ [] ∧ ((a.reach (mapped.begun w {})).1.ok.all fun o => o.2.2 != 3) = true ∧
    (a.reach (mapped.begun w {})).2.g.packets < 16 ∧ (a.reach (mapped.begun w {})).2.mem.bad = none := by
  refine ⟨.kst { d := 3, a := 2, rnd := 4 }, _, _, rfl, rfl, rfl, rfl, rfl, ?_⟩
  decide
theorem witness_atomic : ∃ i w op l dest, wordOf i = some w ∧ atomicOf i = some (op, l, dest) ∧ mapped.executes w {} = true ∧
    (let g := (mapped.begun w {}).g
     let t := (elemOf (l.t1.toNat % 32)).getD .n32
     let at_ := w.addresses g (g.active w.f.pred.toNat)
     let q := (mapped.begun w {}).reach .write at_
     let hit := q.1.atomTargets op t at_
     misaligned (elemWidth t / 8) at_ = none ∧ q.1.stop = none ∧ hit.bad = [] ∧ hit.ok ≠ [] ∧ q.2.g.packets < 16 ∧ q.2.mem.bad = none) := by
  refine ⟨.vatom { d := 3, a := 2, b := 255 } { x := 4 }, _, _, _, _, rfl, rfl, rfl, ?_⟩
  decide

/-- One outstanding request of the group: an element of 4 bytes at the first byte of frame 5. -/
def withReq (r : Req) : State := { mapped with g := { mapped.g with reqs := [r], nextReq := 1 } }
def oneElem : Elem := { lane := 0, loc := ⟨.hbm, 0x50000⟩, size := 4, x := 7 }
def req (kind : ReqKind) (dest : Dest) (done : Bool) : Req := { id := 0, gen := 0, kind := kind, scope := 0, acq := false, rel := false, code := 4, ty := 1, rm := 0, dest := dest, epoch := 0, elems := [{ oneElem with done := done }] }

theorem witness_performed : ∃ h r e, (withReq (req .store .none false)).Performable 1 0 0 h r e ∧ r.kind = .store := ⟨_, _, _, ⟨rfl, rfl, rfl, rfl, rfl, rfl, rfl, rfl, rfl, fun _ _ => rfl⟩, rfl⟩
theorem witness_performed_atomic : ∃ h r e, (withReq (req .atomic .none false)).Performable 1 0 0 h r e ∧ r.kind = .atomic ∧ ((withReq (req .atomic .none false)).loadVerified h.who e.loc e.size).2.alarmed = false := by
  refine ⟨_, _, _, ⟨rfl, rfl, rfl, rfl, rfl, rfl, rfl, rfl, rfl, fun _ _ => rfl⟩, rfl, ?_⟩
  decide +kernel
theorem witness_load_view : ∃ h r e, (withReq (req .load (.ctl 4) false)).Performable 1 0 0 h r e ∧ r.elems = [e] ∧ r.kind = .load ∧ r.acq = false ∧ e.loc.space = .hbm ∧
    h.tilesFull ((withReq (req .load (.ctl 4) false)).loadAt h.who r.scope (r.stamp.getD ((withReq (req .load (.ctl 4) false)).vers h.who)) e.loc e.size).2.1 = false ∧ h.reqs.length + (if h.sent.isSome then 1 else 0) ≤ 16 :=
  ⟨_, _, _, ⟨rfl, rfl, rfl, rfl, rfl, rfl, rfl, rfl, rfl, fun _ _ => rfl⟩, rfl, rfl, rfl, rfl, by decide, by decide⟩
/-- A line of the core's L1 serves the load, and where none stands the home does. -/
theorem witness_load_line : (∃ c, ({ mapped with mem := { mapped.mem with l1 := [{ core := 0, part := 0, ctx := 0, line := 0xA00, bytes := List.replicate 128 9 }] } } : State).l1Hit mapped.g.who 0 0xA00 = some c) ∧
    mapped.l1Hit mapped.g.who 0 0xA00 = none ∧ Loc.inMemory ⟨.hbm, 0x50000⟩ 4 = true ∧ Loc.inMemory ⟨.hbm, Config.hbmBytes - 4⟩ 4 = true := ⟨⟨_, rfl⟩, rfl, rfl, rfl⟩
theorem witness_load_lands : ∃ r, (withReq (req .load (.ctl 4) true)).req? 1 0 = some r ∧ r.kind = .load ∧ (∀ e ∈ r.elems, e.done = true) ∧ (∃ e, r.elems = [e]) ∧ r.dest = .ctl 4 := ⟨_, rfl, rfl, by decide, ⟨_, rfl⟩, rfl⟩
theorem witness_compare : ∃ i w p, wordOf i = some w ∧ compareOf i w ready.g = some p ∧ ready.executes w {} = true ∧ ready.g.roomForLanes = true := ⟨.vcmp { d := 1, a := 2, b := 3 }, _, _, rfl, rfl, rfl, rfl⟩
/-- v4 and v5 hold numbers whose product is subnormal, and the assist routine is present. -/
def subnormal : State := { ready with g := { group with v := [(4, { alloc := true, fresh := false, base := List.replicate 32 0x00800000 }), (5, { alloc := true, fresh := false, base := List.replicate 32 0x3F000000 })] }, plat := { assistOk := true } }
theorem witness_assist : ∃ i w body, wordOf i = some w ∧ floatResult i w = some body ∧ i.wellFormed = true ∧ subnormal.executes w {} = true ∧ (body subnormal.g (subnormal.g.active w.f.pred.toNat)).plain = false ∧ subnormal.plat.assistOk = true ∧ subnormal.g.st ≠ .free :=
  ⟨.vfmul { d := 6, a := 4, b := 5, xf := 8 }, _, _, rfl, rfl, rfl, rfl, rfl, rfl, by decide⟩
theorem witness_shrink : ∃ w, wordOf (.vshrink { b := 16 }) = some w ∧ ready.executes w {} = true ∧ ready.g.inreg = false ∧ 16 ≤ ready.g.regs ∧ ∀ m ∈ ready.g.locked.v, 16 ≤ m → m = 255 := ⟨_, rfl, rfl, rfl, by decide, by decide⟩
/-- Two groups on slots 0 and 1 that name each other in PAIR; the other waits with its lanes or does not. -/
def paired (sent : Option Sent) : State :=
  { ready with g := { group with pair := 0x8001, v := [(4, { alloc := true, fresh := false, base := List.replicate 32 1 })] }
               groups := [{ group with uid := 2, slot := 1, pair := 0x8000, st := .waitPair, wait := if sent.isSome then .pair else .none, sent := sent }] }
theorem witness_exchange_first : ∃ w h, wordOf (.vxchg { d := 5, a := 4 }) = some w ∧ (paired none).executes w {} = true ∧ (paired none).g.unver = false ∧ (paired none).g.packets < 16 ∧
    ((paired none).begun w {}).partner ((paired none).begun w {}).g = some h ∧ h.sent = none :=
  ⟨_, _, rfl, rfl, rfl, by decide, rfl, rfl⟩
/-- The partner has been pre-empted; the word waits for it. -/
def pairedSaved : State := { paired none with groups := [{ group with uid := 2, slot := 1, pair := 0x8000, st := .preempted, left := .ready }] }
theorem witness_exchange_saved : ∃ w h, wordOf (.vxchg { d := 5, a := 4 }) = some w ∧ pairedSaved.executes w {} = true ∧ (pairedSaved.begun w {}).partner (pairedSaved.begun w {}).g = some h ∧ h.wait ≠ .pair := ⟨_, _, rfl, rfl, rfl, by decide⟩
def lanesSent : Sent := { ty := 0, vals := List.replicate 32 3, d := 7, active := 1 }
theorem witness_exchange_second : ∃ w h, wordOf (.vxchg { d := 5, a := 4 }) = some w ∧ (paired (some lanesSent)).executes w {} = true ∧
    ((paired (some lanesSent)).begun w {}).partner ((paired (some lanesSent)).begun w {}).g = some h ∧ h.wait = .pair ∧ h.sent = some lanesSent ∧ lanesSent.ty = w.f.xf.toNat ∧ h.unver = false :=
  ⟨_, _, rfl, rfl, rfl, rfl, rfl, rfl, rfl⟩
theorem witness_pair : (Instr.pairWord { op := .vadd, d := 4, s := 9 } { op := .vfmul, d := 6, s := 3 }).wellFormed = true ∧
    ready.executes (pairAsWord { op := .vadd, d := 4, s := 9 } { op := .vfmul, d := 6, s := 3 }) (pairExtra ready.g { op := .vadd, d := 4, s := 9 } { op := .vfmul, d := 6, s := 3 }) = true ∧
    ((((halfResult { op := .vadd, d := 4, s := 9 } ready.g).toList ++ (halfResult { op := .vfmul, d := 6, s := 3 } ready.g).toList).flatMap VecRes.outs).all fun o => !o.tiny) = true := ⟨rfl, rfl, rfl⟩
theorem witness_fence : ∃ w, wordOf (.fence { xf := 29 }) = some w ∧ ready.executes w {} = true ∧ w.acq = true ∧ w.rel = true ∧ ready.g.loadsReturned = true ∧ ready.g.allPerformed = true ∧ ready.g.unver = false := ⟨_, rfl, rfl, rfl, rfl, rfl, rfl, rfl⟩
theorem witness_promotion : (∃ w, wordOf (.facqRemote { a := 3, xf := 13 }) = some w ∧ mapped.executes w {} = true ∧ mapped.g.loadsReturned = true ∧ (mapped.g.readK 3).toNat ≤ 127 ∧ mapped.qown 0 (mapped.g.readK 3).toNat = 0) ∧
    ∃ w, wordOf (.facqRemote { a := 9, xf := 13 }) = some w ∧ mapped.executes w {} = true ∧ mapped.qown 0 (mapped.g.readK 9).toNat ≠ 0 := ⟨⟨_, rfl, rfl, rfl, by decide, rfl⟩, ⟨_, rfl, rfl, by decide⟩⟩
/-- The group waits in its word, to go on at 0x10008. -/
def waiting (w : Wait) (st : SlotState) : State := { ready with g := { group with st := st, wait := w, resume := some ⟨0x10008, 1, []⟩ } }
theorem witness_promotion_drain : ∃ h r, (waiting (.promote 0) .waitStall).Waits 1 h r ∧ h.wait = .promote 0 ∧ ∀ x ∈ (waiting (.promote 0) .waitStall).allGroups, (1, false) ∈ x.promote → x.st = .preempted ∨ x.st = .retired :=
  ⟨_, _, ⟨rfl, rfl, rfl, by decide, by decide, rfl⟩, rfl, by decide⟩
theorem witness_prefetch : ∃ w, wordOf (.pref { a := 2, b := 255 }) = some w ∧ mapped.executes w {} = true := ⟨_, rfl, rfl⟩
/-- k4 is 128, so that k2 and k4 name one line. -/
def oneLine : State := { mapped with g := { mapped.g with k := [(2, { base := 0x20000 }), (4, { base := 128 })] } }
theorem witness_cache_range : (∃ w, wordOf (.cwb { a := 2, b := 4, xf := 5 }) = some w ∧ oneLine.executes w {} = true) ∧ (∃ w, wordOf (.cinv { a := 2, b := 4, xf := 5 }) = some w ∧ oneLine.executes w {} = true) ∧ oneLine.g.allPerformed = true ∧ oneLine.g.unver = false ∧
    (oneLine.g.readK 2).toNat % 128 = 0 ∧ (oneLine.g.readK 4).toNat = 128 ∧ (oneLine.g.readK 2).toNat + (oneLine.g.readK 4).toNat ≤ Config.vaBytes := ⟨⟨_, rfl, rfl⟩, ⟨_, rfl, rfl⟩, rfl, rfl, by decide, by decide, by decide⟩
theorem witness_sleep : (∃ w, wordOf (.ksleep { a := 3 }) = some w ∧ mapped.executes w {} = true ∧ mapped.g.readK 3 ≠ 0) ∧ (∃ w, wordOf (.ksleep { a := 0 }) = some w ∧ mapped.executes w {} = true ∧ mapped.g.readK 0 = 0) ∧
    ∃ h r, (waiting (.sleep 0) .waitExt).Waits 1 h r ∧ h.wait = .sleep 0 := ⟨⟨_, rfl, rfl, by decide⟩, ⟨_, rfl, rfl, rfl⟩, ⟨_, _, ⟨rfl, rfl, rfl, by decide, by decide, rfl⟩, rfl⟩⟩
theorem witness_kwait : ∃ w o, wordOf (.kwait { d := 4, a := 2, b := 3 }) = some w ∧ mapped.executes w {} = true ∧ ((mapped.begun w {}).reachK .read (mapped.g.readK 2).toNat).1.ok = [o] ∧ (mapped.begun w {}).windowHeld o.2.1 = false ∧ (mapped.begun w {}).g.reqs = [] ∧ (mapped.begun w {}).g.promote = [] ∧
    (let c := ((mapped.begun w {}).reachK .read (mapped.g.readK 2).toNat).2.raiseVersion mapped.g.who w.scope
     c.g.tilesFull (c.loadAt c.g.who w.scope (c.vers c.g.who) o.2.1 8).2.1 = false ∧ (c.loadAt c.g.who w.scope (c.vers c.g.who) o.2.1 8).2.2.mem.bad = none) := by
  refine ⟨_, _, rfl, rfl, rfl, rfl, rfl, rfl, ?_⟩
  decide +kernel
/-- A write has touched the line that a `kwait` reads. -/
def stirring : State := { ready with g := { group with st := .waitExt, wait := .kwait true, watch := some ⟨.hbm, 0x50000⟩ }, mem := { stirred := [(⟨.hbm, 0x50078⟩, 8)] } }
theorem witness_stirred : ∃ h, stirring.group? 1 = some h ∧ h ∈ stirring.allGroups ∧ h.wait = .kwait true ∧ h.watch = some ⟨.hbm, 0x50000⟩ ∧ (stirring.mem.stirred.any fun x => lineTouched ⟨.hbm, 0x50000⟩ x.1 x.2) = true := ⟨_, rfl, by decide, rfl, rfl, by decide⟩
/-- Page 3 holds fault records, and page 4 a vector whose entry for the codes 0x13 and 0x1B is 0x50000. -/
def faultable : State :=
  { mapped with g := { mapped.g with frec := 0x30000 }, mem := { hbm := [(0x7009A, 5), (0x700DA, 5)], tlb := [{ core := 0, part := 0, ctx := 0, leaf := leaf 3 6 }, { core := 0, part := 0, ctx := 0, leaf := leaf 4 7 }] }
                tabs := { mapped.tabs with ctxs := [(0, { st := 1, tvec := 0x40000 })] } }
theorem witness_trap : ∃ i w ls entry u, wordOf i = some w ∧ faultable.executes w {} = true ∧ faultable.g.inreg = false ∧
    State.Entry { faultable with g := faultable.g.faulting (max 3 (w.stall + 1)) (max 3 (w.stall + 1)) w.w0 w.w1 } (w.fault faultable.g 0x1B 0 0) ls entry u :=
  ⟨.trap { b := 1 }, _, _, _, _, rfl, rfl, rfl, ⟨rfl, rfl, ⟨_, rfl, rfl⟩, by decide, by decide, .inl rfl, rfl, rfl⟩⟩
/-- A supervisor whose record lies at page 3. -/
def inHandler : State := { faultable with g := { faultable.g with st := .handler, sup := true, frecAt := 0x30000 } }
theorem witness_return : ∃ w bs s1, wordOf (.eret {}) = some w ∧ inHandler.executes w (extraOf (.eret {}) inHandler) = true ∧ (inHandler.begun w (extraOf (.eret {}) inHandler)).readRecord = (.ok bs, s1) ∧ s1.mem.bad = none := ⟨_, _, _, rfl, rfl, rfl, rfl⟩
theorem witness_exit : ∃ w, wordOf (.gexit {}) = some w ∧ ready.executes w {} = true ∧ ready.g.sup = false ∧ ((agePaths ready.g.paths).all fun e => !e.valid) = true ∧ ready.g.retireReady = true ∧ ready.g.batchOut = [] ∧ ready.g.st ≠ .free ∧
    (ready.allGroups.all fun x => (brokenBy ready.g x).isNone) = true := ⟨_, rfl, rfl, rfl, rfl, rfl, rfl, by decide, rfl⟩
/-- One path of the group pends, or has arrived at its join. -/
def twoPaths (arrived : Bool) : State := { ready with g := { group with paths := { valid := true, arrived := arrived, pc := 0x10040, mask := 2, tag := 7, age := 3 } :: List.replicate 7 {} } }
theorem witness_paths : (∃ w, wordOf (.gexit {}) = some w ∧ (twoPaths false).executes w {} = true) ∧ oldestPend (agePaths (twoPaths false).g.paths) (fun _ => true) = some 0 ∧
    oldestPend (agePaths (twoPaths true).g.paths) (fun _ => true) = none ∧ ((agePaths (twoPaths true).g.paths).find? fun e => e.valid && e.arrived).isSome = true := ⟨⟨_, rfl, rfl⟩, rfl, rfl, rfl⟩
/-- Forking sets lanes aside or does not; the one pending path joins, or is none's; a yield finds a path due or not. -/
theorem witness_path_words : (∃ w, wordOf (.pfork { a := 1 } 4) = some w ∧ ready.executes w {} = true ∧ ready.g.m0 &&& ~~~ready.g.readM 1 ≠ 0 ∧ ready.g.m0 &&& ready.g.readM 1 = 0 ∧ ready.g.staysOn (pcBits (ready.g.pc + 8 * 4)) = true) ∧
    (∃ w, wordOf (.pfork { a := 0 } 4) = some w ∧ ready.executes w {} = true) ∧ freePath ready.g.paths = some 0 ∧
    (∃ w, wordOf (.pjoin { b := 7 }) = some w ∧ (twoPaths false).executes w {} = true ∧ (twoPaths true).executes w {} = true) ∧ oldestPend (agePaths (twoPaths false).g.paths) (fun e => e.tag == 7) = some 0 ∧
    (∃ w, wordOf (.pyield {}) = some w ∧ (twoPaths false).executes w {} = true) ∧ oldestPend (agePaths (twoPaths false).g.paths) (fun e => decide (((twoPaths false).g.mode.extractLsb' 16 16).toNat ≤ e.age.toNat)) = none ∧
    oldestPend (agePaths (twoPaths false).g.paths) (fun e => decide (((0 : W64).extractLsb' 16 16).toNat ≤ e.age.toNat)) = some 0 :=
  ⟨⟨_, rfl, rfl, by decide, rfl, rfl⟩, ⟨_, rfl, rfl⟩, rfl, ⟨_, rfl, rfl, rfl⟩, rfl, ⟨_, rfl, rfl⟩, rfl, rfl⟩
theorem witness_retires : ∃ h, (waiting .retire .waitCounter).group? 1 = some h ∧ h.st = .waitCounter ∧ h.wait = .retire ∧ h.retireReady = true ∧ ((waiting .retire .waitCounter).allGroups.all fun x => (brokenBy h x).isNone) = true := ⟨_, rfl, rfl, rfl, rfl, rfl⟩
/-- k2 and k5 name two ranges of k4 bytes. -/
def copies : State := { oneLine with g := { oneLine.g with k := [(2, { base := 0x20000 }), (4, { base := 128 }), (5, { base := 0x20400 })] } }
theorem witness_engine : ∃ i w o b, wordOf i = some w ∧ copies.executes w {} = true ∧ engineOf i w (copies.begun w {}) = some (o, b) ∧ b.g.counter o.cls < 32 ∧ b.g.replay = none ∧ b.mem.bad = none :=
  ⟨.xcopy { d := 5, a := 2, b := 4 } { t1 := 0xFFFF, t2 := 0xFFFF }, _, _, _, rfl, rfl, rfl, by decide, rfl, rfl⟩
/-- A copy of no bytes. -/
theorem witness_engine_none : ∃ w o b, wordOf (.xcopy { d := 5, a := 2, b := 0 } { t1 := 0xFFFF, t2 := 0xFFFF }) = some w ∧ copies.executes w {} = true ∧ engineOf (.xcopy { d := 5, a := 2, b := 0 } { t1 := 0xFFFF, t2 := 0xFFFF }) w (copies.begun w {}) = some (o, b) ∧ o.ended = true := ⟨_, _, _, rfl, rfl, rfl, rfl⟩
theorem witness_engine_wait : ∃ w, wordOf (.xwait { b := 0 }) = some w ∧ copies.executes w {} = true ∧ copies.g.counter 0 ≤ 0 := ⟨_, rfl, rfl, by decide⟩
/-- One 16-byte copy under way, from page 2 to the same page. -/
def copyOp : EngineOp := { seq := 0, cls := 0, scope := 0, after := 0, dst := 0x20400, src := 0x20000, count := 16, unit := 16, word0 := 0, word1 := 0 }
def copying : State := { copies with g := { copies.g with ops := [copyOp], nextOp := 1 } }
theorem witness_engine_completes : ∃ h o, copying.group? 1 = some h ∧ (h.ops.find? fun o => o.seq == 0 && !o.ended) = some o ∧ h.unver = false ∧ h.earlierDone o.after = true ∧ o.fault = none ∧
    (copying.runOp h o {}).1.stop = none ∧ (copying.runOp h o {}).1.lost = false ∧ (copying.runOp h o {}).2.mem.bad = none := by
  refine ⟨copying.g, copyOp, rfl, rfl, rfl, rfl, rfl, ?_⟩
  decide +kernel
/-- Two adjoining units, and the last one of local HBM. -/
theorem witness_unit : Loc.inMemory ⟨.hbm, 0x50000⟩ 16 = true ∧ Loc.inMemory ⟨.hbm, 0x50010⟩ 16 = true ∧ 0x50000 + 16 ≤ 0x50010 ∧ Loc.inMemory ⟨.hbm, Config.hbmBytes - 16⟩ 16 = true := by decide
/-- A tensor fault waits for the group's next boundary. -/
def faultPends : State :=
  { faultable with g := { faultable.g with pendFaults := [(0, { code := 0x13, async := true, replay := 0, pc := 0, word0 := 0, word1 := 0, lit := false, addr := 0, done := 0 })] } }
set_option maxRecDepth 4000 in
theorem witness_async : ∃ h n f fs ls entry u, faultPends.group? 1 = some h ∧ h.pendFaults = (n, f) :: fs ∧ h.atBoundary = true ∧ faultPends.mem.bad = none ∧
    (let c := ((faultPends.putGroup { h with pendFaults := fs }).withdraw 1).checkout 1
     let r : FaultRec := { f with pc := h.pc }
     let space := max 3 h.lastSpace - h.lastSpace
     State.Entry { c with g := c.g.faulting space space r.word0 (if r.lit then some r.word1 else none) } r ls entry u) :=
  ⟨faultPends.g, _, _, _, [⟨.hbm, 0x60000⟩, ⟨.hbm, 0x60040⟩, ⟨.hbm, 0x60080⟩, ⟨.hbm, 0x600C0⟩], 0x50000, _, rfl, rfl, rfl, rfl,
    ⟨rfl, rfl, ⟨_, rfl, rfl⟩, by decide, by decide, .inl rfl, rfl, rfl⟩⟩
theorem witness_region_opens : ∃ w, wordOf (.abeg {} 4) = some w ∧ ready.executes w { illegal := ready.g.sup || ready.g.ccc } = true ∧ ready.g.inreg = false ∧ ready.g.landed = true := ⟨_, rfl, rfl, rfl, rfl⟩
/-- A region with one word read, tagged or not; its word has changed or not. -/
def region (cons : List ConEnt) : Region :=
  { scope := 0, fallback := 0x10100, opened := 0xFFF8, reads := [{ loc := ⟨.hbm, 0x50000⟩, size := 8, old := 0, concrete := false, conflict := true }], words := [⟨.hbm, 0x50000⟩], pages := [2], cons := cons
    stores := [], tags := [(.ctl 5, { j := 0, width := 64, ext := 6 })], v := [], k := [], m := [], mode := 0x10000000, gens := [], count := 1 }
def inRegion (cons : List ConEnt) : State := { mapped with g := { mapped.g with region := some (region cons) } }
theorem witness_region_aborts : ∃ w, wordOf (.aabt {}) = some w ∧ (inRegion []).g.region = some (region []) ∧ (inRegion []).executes w { illegal := !(inRegion []).g.inreg } = true ∧ (inRegion []).g.abortStays (region []) = true := ⟨_, rfl, rfl, rfl, rfl⟩
def broken : ConEnt := { j := 0, c := 0, cond := 1, signed := false, width := 64, ext := 6, k := 0, outcome := true }
theorem witness_commit : ∃ w, wordOf (.acom { d := 4 }) = some w ∧ (inRegion []).executes w { illegal := !(inRegion []).g.inreg } = true ∧ (inRegion []).g.unver = false ∧ (inRegion []).g.allPerformed = true ∧
    (let q := freshValues (region []).reads ((inRegion []).begun w { illegal := !(inRegion []).g.inreg })
     q.2.alarmed = false ∧ concreteBroken (region []).reads q.1 = false ∧ ((region []).cons.any fun c => c.broken q.1) = false ∧ ((region [broken]).cons.any fun c => c.broken q.1) = true) := ⟨_, rfl, rfl, rfl, rfl, by decide +kernel⟩
/-- The tile that the region has read fails its check: its version stands at 1 without a tag. -/
def tampered : State := { inRegion [] with mem := { (inRegion []).mem with tiles := [(0x50, { ver := 1 })] } }
theorem witness_commit_alarm : ∃ w, wordOf (.acom { d := 4 }) = some w ∧ tampered.executes w { illegal := !tampered.g.inreg } = true ∧
    (freshValues (region []).reads (tampered.begun w { illegal := !tampered.g.inreg })).2.alarmed = true := by
  refine ⟨_, rfl, rfl, ?_⟩
  decide +kernel
/-- A block of one group with output queue 1 and input queue 2, 64 KiB of scratchpad, on core 0. -/
def header : Header := { entry := 0x10000, regs := 255, floor := 0, acc := 2, flags := 0, spad := 0x10000, widths := [], blvl := 0, stage := 3, weight := 1, span := 1, gangn := 0, recv := 0, recw := 2, inq := 2, nout := 1, range := 0, outq := [1], emit := [2] }
def block : Block := { id := 0, gidx := 0, stage := 3, part := 0, ctx := 0, inst := 0, number := 0, cores := [0], slots := [0], spad := [0], hdr := header, hdrAddr := 0x20000, groups := [1], resv := [(1, 2)], tent := [], heldRecs := [], join := none, fails := 0 }
def queueEnt (qid kind : Nat) : QueueEnt := { qid := qid, kind := kind, rsize := 8, segcap := 64, home := 0, ringlog := 5, shelfcap := 0, peer := 1, rqid := 5, store := 0 }
def graph : Graph := { gidx := 0, part := 0, ctx := 0, st := 1, stages := [{ hdr := 0x20000, stage := 3, inq := 2 }], queues := [queueEnt 1 0, queueEnt 2 0] }
def record : Rec := { acc := 0, data := [1, 2, 3, 4, 5, 6, 7, 8] }
def inBlock (recs : List Rec) : State :=
  { mapped with g := { mapped.g with k := [(2, { base := 0x20000 }), (4, { base := 1 }), (5, { base := 2 })], tiles := [0, 1] }
                tabs := { mapped.tabs with graphs := [graph] }, work := { blocks := [block], queues := [{ gidx := 0, qid := 1, resv := 2 }, { gidx := 0, qid := 2, recs := recs }] } }

theorem witness_matrix : ∃ i w o b, wordOf i = some w ∧ (inBlock []).executes w {} = true ∧ matrixOf i w ((inBlock []).begun w {}) = some (o, b) ∧ b.g.matFull = false ∧ b.g.replay = none ∧ b.mem.bad = none := ⟨.mzero { d := 1 }, _, _, _, rfl, rfl, rfl, rfl, rfl, rfl⟩
/-- Catalogue entry 1 is planar, one cast tile of two planes at the aperture's base. -/
def catalogued : State :=
  let s := inBlock []
  { s with g := { s.g with k := [] }, tabs := { s.tabs with ctxs := [(0, { st := 1, catbase := 0x80000, htbase := 0x90000 })] }
           mem := { s.mem with hbm := [(0x80046, 0xFF), (0x80050, 128), (0x80054, 64), (0x80078, 8), (0x80079, 0xC2), (0x8007A, 2)] } }
def ganged (gang : W64) (others : List Group) : State := { catalogued with g := { catalogued.g with gang := gang }, groups := others }
theorem witness_mma : ∃ w b, wordOf (.mma {} { t1 := 1, t2 := 1 }) = some w ∧ catalogued.executes w {} = true ∧ mmaArrives {} { t1 := 1, t2 := 1 } w (catalogued.begun w {}) = some b ∧ (catalogued.begun w {}).g.matFull = false ∧ b.mem.bad = none ∧ gangSize catalogued.g.gang < 2 :=
  ⟨_, _, rfl, rfl, rfl, rfl, rfl, by decide⟩
/-- A gang of slots 0 and 1, of which the other member has arrived or not. -/
def member (arrived : Bool) : Group := { group with uid := 2, slot := 1, tiles := [2, 3], gang := 0x010002, arrival := if arrived then some { ta := 1, ka := 0, pa := 2, pb := 2, rnd := 0, a := 0, b := 0, z := 0, word0 := 0, word1 := 0 } else none }
theorem witness_gang_waits : ∃ w b, wordOf (.mma {} { t1 := 1, t2 := 1 }) = some w ∧ (ganged 0x010002 [member false]).executes w {} = true ∧ mmaArrives {} { t1 := 1, t2 := 1 } w ((ganged 0x010002 [member false]).begun w {}) = some b ∧
    gangSize (ganged 0x010002 []).g.gang = 2 ∧ b.gangHole b.g = false ∧ (b.rendezvous b.g).isNone = true := ⟨_, _, rfl, rfl, rfl, rfl, rfl, rfl⟩
theorem witness_gang_meets : ∃ w b ms, wordOf (.mma {} { t1 := 1, t2 := 1 }) = some w ∧ (ganged 0x010002 [member true]).executes w {} = true ∧ mmaArrives {} { t1 := 1, t2 := 1 } w ((ganged 0x010002 [member true]).begun w {}) = some b ∧
    b.gangHole b.g = false ∧ b.rendezvous b.g = some ms ∧ (ms.all fun m => sameArrival b.g m) = true := ⟨_, _, _, rfl, rfl, rfl, rfl, rfl, rfl⟩
theorem witness_batch : (∃ w, wordOf (.mfence { d := 7 }) = some w ∧ ready.executes w {} = true) ∧ ∃ w, wordOf (.mwait { a := 7 }) = some w ∧ ready.executes w {} = true ∧ (ready.g.readK 7).toNat < ready.g.batch ∧ (ready.g.readK 7).toNat ≤ ready.g.lastBatch :=
  ⟨⟨_, rfl, rfl⟩, ⟨_, rfl, rfl, by decide, by decide⟩⟩
/-- The unit of quadrant 0 holds one operation of the group. -/
def unit (o : MatOp) : State := { inBlock [] with g := { (inBlock []).g with matOps := [(0, 1)] }, units := { quads := [(0, { mat := [o] })] } }
def slice : Slice := { uid := 1, seq := 0, batch := 1, after := 0, z := 1, word0 := 0, word1 := 0 }
theorem witness_unit_ready : ∀ kind ∈ [0, 1, 2, 3], ∃ o h, o.kind = kind ∧ (unit o).UnitReady 0 o [] slice h := by
  intro kind h
  simp only [List.mem_cons, List.not_mem_nil, or_false] at h
  rcases h with rfl | rfl | rfl | rfl <;> exact ⟨{ kind := _, core := 0, slices := [slice] }, _, rfl, ⟨rfl, rfl, rfl, rfl, rfl, rfl, fun _ => rfl, rfl⟩⟩
theorem witness_push : ∃ w b gr e names, wordOf (.qpush { d := 8, a := 4, b := 5 }) = some w ∧ (inBlock []).namedQueue (inBlock []).g 4 = some (b, gr, e) ∧ recordNames (inBlock []).g 8 e.rsize = some names ∧ ((b.hdr.outq.take b.hdr.nout).contains e.qid) = true ∧
    (inBlock []).executes w { r := { v := names } } = true ∧ (inBlock []).g.active 0 ≠ 0 ∧ (inBlock []).g.unver = false := ⟨_, _, _, _, _, rfl, rfl, rfl, rfl, rfl, by decide, rfl⟩
theorem witness_pop : ∀ recs ∈ [[], [record]], ∃ w b gr e qu names, wordOf (.qpop { d := 8, a := 5, b := 1 }) = some w ∧ (inBlock recs).namedQueue (inBlock recs).g 5 = some (b, gr, e) ∧ recordNames (inBlock recs).g 8 e.rsize = some names ∧ b.hdr.inq = e.qid ∧
    (inBlock recs).queue? gr.gidx e.qid = some qu ∧ (inBlock recs).queueEnt gr.gidx e.qid = some e ∧ (inBlock recs).executes w { w := { v := names } } = true ∧ qu.available e = recs.length := by
  intro recs h
  simp only [List.mem_cons, List.not_mem_nil, or_false] at h
  rcases h with rfl | rfl <;> exact ⟨_, _, _, _, _, _, rfl, rfl, rfl, rfl, rfl, rfl, rfl, rfl⟩
theorem witness_length : ∃ w b gr e q x, wordOf (.qlenB { d := 6, a := 5 }) = some w ∧ (inBlock [record]).executes w {} = true ∧ (inBlock [record]).namedQueue (inBlock [record]).g 5 = some (b, gr, e) ∧ (inBlock [record]).queue? gr.gidx e.qid = some q ∧
    lengthOf (.qlenB { d := 6, a := 5 }) (inBlock [record]) gr e q = some x := ⟨_, _, _, _, _, _, rfl, rfl, rfl, rfl, rfl⟩
/-- Handle 0 of the context names an object of this kind; a handle queue of depth 4 stands at offset 0x100, with one item or none. -/
def object (kind : Byte) (items : Byte) : State :=
  { catalogued with mem := { catalogued.mem with hbm := catalogued.mem.hbm ++ [(0x90007, 0x80 + 0x20 * kind), (0x90009, 1)], spad := [(0, [(0x10B, 4)] ++ (if items = 0 then [] else [(0x10C, items)]) ++ [(0x10E, 1)])] } }
theorem witness_handle_push : ∃ w c, wordOf (.hpush { a := 8, b := 9 }) = some w ∧ (object 2 0).executes w {} = true ∧ ((object 2 0).begun w {}).hqOf ((object 2 0).g.readK 8) = some (0, 0x100, c) ∧ c.g.unver = false ∧ c.g.allPerformed = true ∧ c.mem.bad = none ∧ (c.hqPush 0 0x100 0).isSome = true := by
  refine ⟨_, _, rfl, rfl, rfl, rfl, rfl, rfl, ?_⟩
  decide +kernel
/-- A full queue holds the push back; an empty one holds the pop, and one item serves it. -/
theorem witness_handle_waits : (∃ w c, wordOf (.hpush { a := 8, b := 9 }) = some w ∧ (object 2 4).executes w {} = true ∧ ((object 2 4).begun w {}).hqOf ((object 2 4).g.readK 8) = some (0, 0x100, c) ∧ (c.hqPush 0 0x100 0).isNone = true) ∧
    (∃ w c, wordOf (.hpop { d := 3, a := 8 }) = some w ∧ (object 2 0).executes w {} = true ∧ ((object 2 0).begun w {}).hqOf ((object 2 0).g.readK 8) = some (0, 0x100, c) ∧ (c.hqPop 0 0x100).isNone = true) ∧
    ∃ w c, wordOf (.htry { d := 3, a := 8 }) = some w ∧ (object 2 1).executes w {} = true ∧ ((object 2 1).begun w {}).hqOf ((object 2 1).g.readK 8) = some (0, 0x100, c) ∧ (c.hqPop 0 0x100).isSome = true :=
  ⟨⟨_, _, rfl, rfl, rfl, rfl⟩, ⟨_, _, rfl, rfl, rfl, rfl⟩, ⟨_, _, rfl, rfl, rfl, rfl⟩⟩
theorem witness_credit : ∃ w c, wordOf (.hallow { a := 8, b := 9 }) = some w ∧ (object 2 0).executes w {} = true ∧ ((object 2 0).begun w {}).hqOf ((object 2 0).g.readK 8) = some (0, 0x100, c) ∧ c.g.unver = false ∧ c.g.allPerformed = true := ⟨_, _, rfl, rfl, rfl, rfl, rfl⟩
theorem witness_handle_round : (object 2 0).hqHead 0 0x100 = { depth := 4, count := 0, head := 0, allow := 1 } ∧ (object 2 0).work.hqWait = [] ∧ ((object 2 0).hqPush 0 0x100 7).isSome = true := ⟨rfl, rfl, by decide +kernel⟩
theorem witness_post : (∃ w, wordOf (.evpost { a := 2, b := 3 }) = some w ∧ mapped.executes w {} = true) ∧ mapped.evqRoom mapped.g.cluster = true ∧ (∃ w, wordOf (.ksig { a := 2, b := 3 }) = some w ∧ mapped.executes w {} = true) ∧ mapped.g.unver = false ∧ mapped.g.allPerformed = true ∧
    (mapped.part 0).evUsed < 2 ^ (mapped.part 0).evlog := ⟨⟨_, rfl, rfl⟩, rfl, ⟨_, rfl, rfl⟩, rfl, rfl, by decide⟩
/-- A cluster control core, whose event queue holds one docket or none. -/
def controller (events : List (List Byte)) : State := { ready with g := { group with ccc := true }, units := { events := [(0, events)] } }
theorem witness_event : ∀ events ∈ [[], [List.replicate 32 (1 : Byte)]], ∃ w, wordOf (.evpop { d := 28 }) = some w ∧ (controller events).executes w { w := { k := [29, 30, 31] } } = true ∧ (controller events).evQueue (controller events).g.cluster = events := by
  intro events h
  simp only [List.mem_cons, List.not_mem_nil, or_false] at h
  rcases h with rfl | rfl <;> exact ⟨_, rfl, rfl, rfl⟩
theorem witness_event_wait : ∃ w, wordOf (.evpopWait { d := 1 }) = some w ∧ (controller []).executes w { w := { k := [2, 3, 4] } } = true := ⟨_, rfl, rfl⟩
/-- The group has been selected, and the page of its word is mapped for execution; the word is `kadd k2, k2, 1` or no instruction. -/
def selected (b : Byte) : State :=
  { ready with sched := { sel := [1] }, mem := { hbm := [(0x80002, 4), (0x80003, 8), (0x80004, 8), (0x80006, 0x11), (0x80007, b)], tlb := [{ core := 0, part := 0, ctx := 0, leaf := { leaf 1 8 with x := true } }] }
               tabs := { ready.tabs with parts := [(0, { st := .active, l2ways := 0xFFFF, quads := [0] })] }, units := { quads := [(0, { released := true })] } }
theorem witness_step : ∃ w0 w1 lit d, (let c := ({ selected 0x34 with sched := { (selected 0x34).sched with sel := [] } } : State).checkout 1
    c.g.uid = 1 ∧ c.mayIssue c.g = true ∧ c.g.pendFaults = [] ∧ c.fetchInsn = (.ok (w0, w1, lit), d)) ∧ (decode w0 w1).isOk = true := ⟨_, _, _, _, ⟨rfl, rfl, rfl, rfl⟩, rfl⟩
theorem witness_step_refused : ∃ w0 w1 lit d, (({ selected 0x80 with sched := { (selected 0x80).sched with sel := [] } } : State).checkout 1).fetchInsn = (.ok (w0, w1, lit), d) ∧ (decode w0 w1).isOk = false := ⟨_, _, _, _, rfl, rfl⟩
theorem witness_event_step : isEvent .hotnessDecay = true ∧ State.reset.sched.sel = [] ∧ State.reset.settle.mem.bad = none := ⟨rfl, rfl, rfl⟩
/-- The invariant holds at a state that steps. -/
def due : State := { g := group, sched := { agenda := [.hotnessDecay] } }
theorem witness_invariant_group : due.g.reservedZero := ⟨rfl, rfl⟩
theorem witness_numbers : ({ due with work := { due.work with nextUid := 2 } } : State).Numbered :=
  ⟨by decide, by decide, by decide, fun _ h => (List.not_mem_nil h).elim, by decide, fun _ h => (List.not_mem_nil h).elim, fun _ h => (List.not_mem_nil h).elim, fun _ h => (List.not_mem_nil h).elim, fun _ h => (List.not_mem_nil h).elim⟩
theorem witness_invariant : ({ due with work := { due.work with nextUid := 2 } } : State).Inv := ⟨rfl, witness_numbers, witness_invariant_group, fun _ h => (List.not_mem_nil h).elim, rfl, rfl, rfl⟩
theorem witness_invariant_step : (match step { due with work := { due.work with nextUid := 2 } } with
    | .next _ => true
    | _ => false) = true := by decide +kernel
theorem witness_round_trip : ∃ w0 w1, Instr.wellFormed (.pfork { a := 1 } 0x00070005) = true ∧ encode (.pfork { a := 1 } 0x00070005) = [w0, w1] ∧ decode w0 w1 = .ok (.pfork { a := 1 } 0x00070005) := ⟨_, _, rfl, rfl, rfl⟩
/-- A jump to an aligned target and to one that is not. -/
theorem witness_jump : (∃ w, wordOf (.jcall { d := 5, a := 2 }) = some w ∧ (Instr.jcall { d := 5, a := 2 }).wellFormed = true ∧ mapped.executes w {} = true ∧ jumpOf (.jcall { d := 5, a := 2 }) mapped.g = some (0x20000, some 5, 0x3C4) ∧ mapped.g.staysOn 0x20000 = true) ∧
    ∃ w, wordOf (.jmp { a := 3 }) = some w ∧ mapped.executes w {} = true ∧ jumpOf (.jmp { a := 3 }) mapped.g = some (3, none, 0x3C3) ∧ (3 : W64).extractLsb' 0 3 ≠ 0 := ⟨⟨_, rfl, rfl, rfl, rfl, rfl⟩, ⟨_, rfl, rfl, rfl, by decide⟩⟩
theorem witness_nop : ∃ w, wordOf (.nop { stall := 15 }) = some w ∧ ready.executes w {} = true := ⟨_, rfl, rfl⟩
/-- k3 has a write under way, and the scoreboard is on. -/
def early : State := { ready with g := { group with mode := 0x10000200, k := [(3, { pend := [(4, 9)] })] } }
theorem witness_scoreboard : ∃ w, wordOf (.kadd { d := 2, a := 3, b := 4 }) = some w ∧ tabled (.kadd { d := 2, a := 3, b := 4 }) w early = true ∧ early.g.schk = true ∧ early.g.replay = none ∧ (w.readsOf early.g).k.any early.g.lateK = true ∧ scopeOk w = true ∧ (regionBar early.g w).isNone = true ∧
    early.g.interlocked ((w.allReads early.g (extraOf (.kadd { d := 2, a := 3, b := 4 }) early)).append (w.allWrites (extraOf (.kadd { d := 2, a := 3, b := 4 }) early))) = false ∧ (extraOf (.kadd { d := 2, a := 3, b := 4 }) early).denied = false ∧
    (fieldInRange early.g w w.sh.d w.f.d && fieldInRange early.g w w.sh.a w.f.a && fieldInRange early.g w w.sh.b w.f.b && literalInRange early.g w) = true := ⟨_, rfl, rfl, rfl, rfl, rfl, rfl, rfl, rfl, rfl, rfl⟩
theorem witness_barrier : (∃ w c x, wordOf (.barExpect { a := 8, b := 9 }) = some w ∧ (object 1 0).executes w {} = true ∧ ((object 1 0).begun w {}).objectOf ((object 1 0).g.readK 8) 1 = some (0x90000, c) ∧ barrierExpects (.barExpect { a := 8, b := 9 }) (object 1 0).g (c.bar 0x90000) = some x ∧ (object 1 0).g.unver = false) ∧
    (∃ w c x, wordOf (.barArrive { d := 6, a := 8 }) = some w ∧ (object 1 0).executes w {} = true ∧ ((object 1 0).begun w {}).objectOf ((object 1 0).g.readK 8) 1 = some (0x90000, c) ∧ barrierArrives (.barArrive { d := 6, a := 8 }) (object 1 0).g (c.bar 0x90000) = some x ∧ (object 1 0).g.allPerformed = true) :=
  ⟨⟨_, _, _, rfl, rfl, rfl, rfl, rfl⟩, ⟨_, _, _, rfl, rfl, rfl, rfl, rfl⟩⟩
/-- The phase named has passed, or has not. -/
theorem witness_barrier_wait : (∃ w c, wordOf (.barWait { a := 8, b := 9 }) = some w ∧ (object 1 0).executes w {} = true ∧ ((object 1 0).begun w {}).objectOf ((object 1 0).g.readK 8) 1 = some (0x90000, c) ∧ phasePassed (c.bar 0x90000).phase 0 = false) ∧ phasePassed 1 0 = true := by
  refine ⟨⟨_, _, rfl, rfl, rfl, ?_⟩, rfl⟩
  decide +kernel
def arriving : State := { object 1 0 with units := { arrivals := [(0, 0, 0, 16)] } }
theorem witness_arrival : ∃ e y c, (0, 0, 0, 16) ∈ arriving.units.arrivals ∧ ({ arriving with units := { arriving.units with arrivals := arriving.units.arrivals.erase (0, 0, 0, 16) } } : State).handle 0 0 0 1 = (some (e, y), c) ∧ balFits ((c.bar e).bal - 16) = true := ⟨_, _, _, by decide, rfl, rfl⟩
theorem witness_bar_range : Bar.inRange { phase := 0, arrived := 0, need := 1, bal := 0 } ∧ ((object 1 0).barTest 0 0x90000 { phase := 0, arrived := 0, need := 1, bal := 0 }).mem.bad = none := ⟨⟨by decide, by decide, by decide, rfl⟩, rfl⟩
theorem witness_join : (∃ w c, wordOf (.jwait { a := 8 }) = some w ∧ (object 3 0).executes w {} = true ∧ ((object 3 0).begun w {}).objectOf ((object 3 0).g.readK 8) 3 = some (0x90000, c) ∧ c.joinCount 0x90000 = 256) ∧
    (∃ w, wordOf (.jstat { d := 4, a := 8 }) = some w ∧ (object 3 0).executes w {} = true) ∧ ∃ w, wordOf (.jstatS { d := 4, a := 8 }) = some w ∧ (object 3 0).executes w {} = true := ⟨⟨_, _, rfl, rfl, rfl, rfl⟩, ⟨_, rfl, rfl⟩, ⟨_, rfl, rfl⟩⟩
def counting : State := { object 3 0 with units := { decrements := [(0, 0, 0, false, false)] } }
theorem witness_decrement : ∃ e y c, (0, 0, 0, false, false) ∈ counting.units.decrements ∧ ({ counting with units := { counting.units with decrements := counting.units.decrements.erase (0, 0, 0, false, false) } } : State).handle 0 0 0 3 = (some (e, y), c) := ⟨_, _, _, by decide, rfl⟩
/-- A launch header at the first byte of page 2: stage 3 on four lanes, one group a block. -/
def launching (quota : W64) : State :=
  { object 3 0 with g := { (object 3 0).g with k := [(2, { base := 0x20000 })] }
                    mem := { (object 3 0).mem with hbm := [(0x50002, 1), (0x50008, 16), (0x50014, 1), (0x50018, 3), (0x5001A, 1), (0x5001C, 1), (0x50020, 0xFF), (0x50021, 0xFF), (0x50028, 4)] ++ (object 3 0).mem.hbm }
                    tabs := { (object 3 0).tabs with ctxs := [(0, { st := 1, catbase := 0x80000, htbase := 0x90000, quota := quota })] } }
theorem witness_launch : ∃ w c0 c bs e, wordOf (.launch { d := 4, a := 2, b := 8 }) = some w ∧ (launching 5).executes w {} = true ∧ ((launching 5).begun w {}).readHeader 0x20000 = (.ok bs, c0) ∧ c0.joinOf 0 = some (e, c) := ⟨_, _, _, _, _, rfl, rfl, rfl, rfl⟩
theorem witness_launch_instance : ((headerOf ((launching 5).peek ⟨.hbm, 0x50000⟩ 128)).range, (launching 5).instanceOf (launching 5).g 0x20000 ((launching 5).peek ⟨.hbm, 0x50000⟩ 128)) = (4, some (0, 3)) := by decide +kernel
theorem witness_continuation : ∃ w c0 c bs, wordOf (.cont { a := 2, b := 8 }) = some w ∧ (launching 5).executes w {} = true ∧ ((launching 5).begun w {}).readHeader 0x20000 = (.ok bs, c0) ∧ c0.objectOf ((launching 5).g.readK 8) 3 = some (0x90000, c) := ⟨_, _, _, _, rfl, rfl, rfl, rfl⟩
/-- A descriptor of 64 bytes at page 2: FP32, rank 2, 8 by 8; another with all bytes zero. -/
def describing : State := { mapped with tabs := { mapped.tabs with ctxs := [(0, { st := 1, catbase := 0x80000, htbase := 0x90000 })] }, mem := { mapped.mem with hbm := [(0x50010, 8), (0x50014, 8), (0x50020, 32), (0x50038, 8), (0x50039, 2), (0x80047, 0), (0x80079, 0x82), (0x80078, 8)] } }
theorem witness_define : ∃ w o rest, wordOf (.tdef { d := 4, a := 2 } { t1 := 1 }) = some w ∧ describing.executes w {} = true ∧ describing.g.tableHeld = false ∧ ((describing.begun w {}).reachK .read 0x20000).1.ok = o :: rest ∧ (describing.g.readK 2).toNat % 64 = 0 := ⟨_, _, _, rfl, rfl, rfl, rfl, rfl⟩
theorem witness_descriptor : tensorOk (describing.peek ⟨.hbm, 0x50000⟩ 64) = true ∧ tensorOk (List.replicate 64 0) = false := by decide +kernel
theorem witness_patch : ∃ w, wordOf (.tpatch { d := 4, a := 3 } { t1 := 1, p1 := 0 }) = some w ∧ describing.executes w {} = true ∧ describing.g.tableHeld = false ∧ entryValid (describing.peek ⟨.hbm, 0x80040⟩ 64) = true := by
  refine ⟨_, rfl, rfl, rfl, ?_⟩
  decide +kernel
theorem witness_invalidate : ∃ w, wordOf (.tinv {} { t1 := 4095, t2 := 4095 }) = some w ∧ describing.executes w {} = true := ⟨_, rfl, rfl⟩
theorem witness_new : (∃ w, wordOf (.hnewB { d := 4 }) = some w ∧ describing.executes w {} = true) ∧ (∃ w, wordOf (.hnewJ { d := 4 }) = some w ∧ describing.executes w {} = true) ∧ describing.g.tableHeld = false := ⟨⟨_, rfl, rfl⟩, ⟨_, rfl, rfl⟩, rfl⟩
/-- k2 lies in the block's scratchpad, and k3 = 3 is the depth. -/
def making : State := { object 1 0 with g := { (object 1 0).g with k := [(2, { base := BitVec.ofNat 64 Config.apertureBase }), (3, { base := 3 })] } }
theorem witness_new_queue : ∃ w k, wordOf (.hnewQ { d := 4, a := 2, b := 3 }) = some w ∧ making.executes w {} = true ∧ making.block? making.g.blk = some k ∧ k.cores.getD 0 0 = 0 ∧ (making.g.readK 2).toNat - Config.apertureBase + 272 ≤ k.hdr.spad ∧ (making.g.readK 3).toNat = 3 := ⟨_, _, rfl, rfl, rfl, rfl, by decide, rfl⟩
theorem witness_delete : ∃ w c, wordOf (.hdel { a := 8 }) = some w ∧ (object 1 0).executes w {} = true ∧ (object 1 0).g.tableHeld = false ∧ ((object 1 0).begun w {}).objectOf ((object 1 0).g.readK 8) 1 = some (0x90000, c) := ⟨_, _, rfl, rfl, rfl, rfl⟩
/-- Page tables of the context, with this leaf for page 2; k2 names the page, k3 = 3, k6 a run of 32 MiB. -/
def paged (val : List Host.Cell) : State :=
  { ready with g := { group with k := [(2, { base := 0x20000 }), (3, { base := 1 }), (6, { base := 0x2000000 })] }
               mem := { hbm := [(0x100000, 1), (0x100001, 0x20), (0x100002, 0x10), (0x102000, 1), (0x102001, 0x40), (0x102002, 0x10), (0x104000, 1), (0x104001, 0x60), (0x104002, 0x10)] ++ val }
               tabs := { parts := [(0, { st := .active, l2ways := 1, quads := [0], frames := [5, 6, 16], pool := [6] })], ctxs := [(0, { st := 1, ptroot := 0x100000 })] } }
/-- The leaf is reserved, or maps frame 5. -/
def reservedLeaf : List Host.Cell := [(0x106010, 2)]
def mappedLeaf : List Host.Cell := [(0x106010, 0x33), (0x106012, 5)]
theorem witness_commit_page : (∃ w c, wordOf (.pcommit { d := 4, a := 2, rnd := 3 }) = some w ∧ (paged reservedLeaf).executes w {} = true ∧ pageCheck 0x20000 = none ∧ ((paged reservedLeaf).begun w {}).findLeaf ((paged reservedLeaf).begun w {}).g.who 0x20000 = (some ⟨0x106010, 2, false⟩, c) ∧ (paged reservedLeaf).g.tableHeld = false) := by
  refine ⟨_, _, rfl, rfl, rfl, Prod.ext (by decide +kernel) rfl, rfl⟩
theorem witness_free_page : ∃ w c, wordOf (.pfree { d := 4, a := 2 }) = some w ∧ (paged mappedLeaf).executes w {} = true ∧ ((paged mappedLeaf).begun w {}).findLeaf ((paged mappedLeaf).begun w {}).g.who 0x20000 = (some ⟨0x106010, 0x50033, false⟩, c) ∧ (0x50033 : Nat).testBit 0 = true ∧ (0x50033 : Nat).testBit 10 = false := by
  refine ⟨_, _, rfl, rfl, Prod.ext (by decide +kernel) rfl, by decide, by decide⟩
theorem witness_reserve : (∃ w, wordOf (.preserve { d := 4, a := 6, b := 6 }) = some w ∧ (paged []).executes w {} = true) ∧ (∃ w, wordOf (.preserveRel { d := 4, a := 6, b := 6 }) = some w ∧ (paged []).executes w {} = true) ∧
    rangeCheck 0x2000000 0x2000000 = none ∧ ((paged []).part 0).poolWait = [] := ⟨⟨_, rfl, rfl⟩, ⟨_, rfl, rfl⟩, rfl, rfl⟩
/-- A supervisor of the same context. -/
def supervisor : State := { paged [] with g := { (paged []).g with st := .handler, sup := true } }
theorem witness_invalidation : (∃ w, wordOf (.tlbinvAll { rnd := 1 }) = some w ∧ supervisor.executes w { illegal := !supervisor.g.ccc && (0 : BitVec 8) != 0 } = true ∧ (supervisor.begun w { illegal := !supervisor.g.ccc && (0 : BitVec 8) != 0 }).tlbContext w = .ok (0, 0)) ∧
    (∃ w, wordOf (.tlbinv { a := 2, b := 0 }) = some w ∧ supervisor.executes w { illegal := !supervisor.g.ccc && (0 : BitVec 8) != 0 } = true) ∧ supervisor.g.tableHeld = false := ⟨⟨_, rfl, rfl, rfl⟩, ⟨_, rfl, rfl⟩, rfl⟩
def invalidating : State := { waiting (.inval 1) .waitStall with mem := { invals := [{ id := 1, part := 0, ctx := 0, lo := 2, hi := 3, free := [], seen := true }], nextInval := 2 } }
theorem witness_invalidation_complete : ∃ i h r, invalidating.mem.invals.head? = some i ∧ i.id = 1 ∧ i.seen = true ∧ (invalidating.ctxGroups i.part i.ctx).all Group.allPerformed = true ∧ (invalidating.allGroups.filter fun x => x.wait == .inval 1) = [h] ∧ invalidating.Waits h.uid h r :=
  ⟨_, _, _, rfl, rfl, rfl, rfl, rfl, ⟨rfl, rfl, rfl, by decide, by decide, rfl⟩⟩
theorem witness_home_move : ∃ w c, wordOf (.hmove { d := 4, a := 2, b := 3 }) = some w ∧ (paged mappedLeaf).executes w {} = true ∧ ((paged mappedLeaf).begun w {}).findLeaf ((paged mappedLeaf).begun w {}).g.who 0x20000 = (some ⟨0x106010, 0x50033, false⟩, c) ∧ ((paged mappedLeaf).g.readK 3).toNat ≤ 1 := by
  refine ⟨_, _, rfl, rfl, Prod.ext (by decide +kernel) rfl, by decide⟩

/-- Every image has passed and runs; requester 1 owns the device. -/
def managed : State := { paged mappedLeaf with plat := { booted := true, measures := (List.range 6).map fun i => (i + 1, [1]), owner := 1, device := some 1 } }
def owned : MgmtReq := { sender := 1, epoch := 0 }
theorem witness_walk : (managed.ctx 0 0).st ≠ 0 ∧ managed.qown 0 0 ≠ 0 ∧ inAperture 0x20000 = false ∧ (managed.walk { part := 0, ctx := 0, core := 0 } .read false 0x20000).2.mem.bad = none ∧
    (managed.walk { part := 0, ctx := 0, core := 0 } .read false 0x20000).1 = .ok ⟨.hbm, 0x50000⟩ (some { leaf 2 5 with w := false }) := by decide +kernel
/-- Frame 16 holds the metadata tile of the partition; the bytes of tile 80 are dirty in L2. `ver` is the version of each, without a tag. -/
def tiled (data top : Nat) : State :=
  { managed with mem := { managed.mem with hbm := [(0x50000, 7)], l2 := [(0xA00, { dirty := true, verified := false })], tiles := [(80, { ver := data }), (256, { ver := top })], metas := [(255, true)] }
                 tabs := { managed.tabs with parts := [(0, { st := .active, l2ways := 0xFFFF, quads := [0], frames := [5, 6, 16], pool := [6], metaFrames := [16], metas := [[256]], freeing := [5] })] } }
/-- A tile that passes, one whose version is wrong, and one whose metadata tile's is. -/
theorem witness_tile : ((tiled 0 0).pathFault 80 = none ∧ (tiled 0 0).tagOk 80 = true) ∧ ((tiled 1 0).pathFault 80 = none ∧ (tiled 1 0).tagOk 80 = false ∧ (tiled 1 0).mem.tileVerified 80 = false) ∧ (tiled 0 1).pathFault 80 = some (256, 1) := by decide +kernel
theorem witness_tile_written : (tiled 0 0).frameOwner (80 / 16) = some 0 ∧ ((tiled 0 0).part 0).metaPlace 80 = none ∧ ((tiled 0 0).mem.l2.any fun e => e.1 / 32 == 80 && e.2.dirty) = true ∧ (tiled 0 0).tileSpent 80 = false ∧
    (tiled 0 0).mem.hbm.wf = true ∧ (tiled 0 0).mem.img.wf = true := by decide +kernel
/-- A changed metadata tile on die. -/
def metaChanged : State := { tiled 0 0 with mem := { (tiled 0 0).mem with metas := [(256, true)] } }
theorem witness_metadata_written : metaChanged.frameOwner (256 / 16) = some 0 ∧ (metaChanged.part 0).metaPlace 256 = some (0, 0) ∧ metaChanged.pathFault 256 = none ∧ tget false metaChanged.mem.metas 256 = true ∧ metaChanged.tileSpent 256 = false := by decide +kernel
theorem witness_frames : managed.mem.bad = none ∧ 5 ∈ (managed.part 0).frames ∧ 5 ∉ (managed.part 0).pool ∧ 5 ∉ (managed.part 0).ckpool ∧ 5 ∉ (managed.part 0).metaFrames ∧ 5 ∉ (managed.part 0).freeing ∧ (managed.part 0).slices = [] ∧
    (managed.part 0).poolWait = [] ∧ managed.frameOwner 7 = none ∧ (managed.part 0).st = .active := by decide +kernel
theorem witness_freed : 5 ∈ ((tiled 0 0).part 0).freeing ∧ ((tiled 0 0).standing 0).isNone = true ∧ ({ tiled 0 0 with plat := { (tiled 0 0).plat with ckpts := [{ Checkpoint.start 0 1 with status := 2 }] } } : State).standing 0 = some { Checkpoint.start 0 1 with status := 2 } := ⟨by decide, rfl, rfl⟩
theorem witness_pages : ∃ h, (waiting (.hostPage 3) .waitExt).group? 1 = some h ∧ h.wait = .hostPage 3 ∧ h.st ≠ .parked ∧ h.st ≠ .preempted := ⟨_, rfl, rfl, by decide, by decide⟩
theorem witness_decay : ({ plat := { decayDue := true } } : State).plat.decayDue = true ∧ ({ plat := { decayDue := true } } : State).mem.bad = none := ⟨rfl, rfl⟩
/-- Page 2 is SHARED here: its leaf has REPL set. A group of the context waits for it. -/
def sharing : State :=
  { managed with mem := { managed.mem with hbm := managed.mem.hbm.map fun e => if e.1 = 0x106010 then (0x106010, 0x13) else e }, groups := [{ group with uid := 2, slot := 1, st := .waitExt, wait := .coherence 2 }] }
def shared : State := { sharing with mem := { sharing.mem with hbm := [(0x106011, 4)] ++ sharing.mem.hbm } }
theorem witness_coherence : shared.ran 6 = true ∧ (shared.findLeaf { part := 0, ctx := 0, core := 128 } 0x20000).1 = some ⟨0x106010, 0x50413, false⟩ ∧ (0x50413 : Nat).testBit 10 = true ∧ shared.self = 1 ∧ (shared.coherence 0 0 2 1 true 9).mem.bad = none ∧
    (managed.findLeaf { part := 0, ctx := 0, core := 128 } 0x20000).1 = some ⟨0x106010, 0x50033, false⟩ ∧ (managed.replica? 0 0 2).isNone = true ∧ (managed.coherence 0 0 2 3 true 9).mem.bad = none := by decide +kernel
theorem witness_coherence_wakes : ((shared.coherence 0 0 2 1 true 9).groups.map fun h => (h.uid, h.wait, h.st)) = [(2, .coherence 2, .waitExt)] ∧ (shared.coherence 0 0 2 1 true 9).g.uid = 1 := by decide +kernel
/-- Page 2 is mapped remotely at a peer, and no threshold is set. -/
def remoted : State := { managed with tabs := { managed.tabs with replicas := [{ part := 0, ctx := 0, vpn := 2, shared := false, remote := true, owner := 1, holders := [] }] }, plat := { managed.plat with hotw := 0, hotr := 0 } }
theorem witness_remote : 0 < Config.ports ∧ (remoted.port 0).down = false ∧ (remoted.part 0).st = .active ∧ ((remoted.replica? 0 0 2).map Replica.owner) = some remoted.self ∧
    (remoted.walk { part := 0, ctx := 0, core := 128 } .write false 0x20000).1 = .ok ⟨.hbm, 0x50000⟩ (some (leaf 2 5)) ∧ (remoted.walk { part := 0, ctx := 0, core := 128 } .read false 0x20000).1 = .ok ⟨.hbm, 0x50000⟩ (some { leaf 2 5 with w := false }) ∧
    (remoted.walk { part := 0, ctx := 0, core := 128 } .write false 0x20000).2.mem.bad = none := by decide +kernel
theorem witness_shootdown : managed.live 0 = true ∧ (managed.ctx 0 0).st ≠ 0 ∧ managed.mem.bad = none := ⟨rfl, by decide, rfl⟩
theorem witness_issue : ∃ h, (waiting .stall .waitStall).group? 1 = some h ∧ h.wait = .stall ∧ h.st ≠ .parked ∧ h.st ≠ .preempted := ⟨_, rfl, rfl, by decide, by decide⟩
/-- A word held until accesses are performed, with none outstanding; one held for a tile under verification. -/
theorem witness_held : ∃ h k, (waiting (.until_ .performed) .waitStall).group? 1 = some h ∧ h.wait = .until_ .performed ∧ (waiting (.until_ .performed) .waitStall).heldBy h .performed = false ∧ ({ ready with g := { group with st := .waitStall, wait := .until_ .verified, pendTiles := [80] } } : State).group? 1 = some k ∧ (({ ready with g := { group with st := .waitStall, wait := .until_ .verified, pendTiles := [80] } } : State).heldBy k .verified) = true := ⟨_, _, rfl, rfl, rfl, rfl, rfl⟩
theorem witness_window : State.reset.work.msgs = [] ∧ State.reset.tabs.ctxs = [] ∧ State.reset.units.metered = [] ∧ State.reset.groups = [] ∧ State.reset.g.st = .free := ⟨rfl, rfl, rfl, rfl, rfl⟩
/-- A rate with a full bucket, with an empty one, and no rate. -/
def rated (tokens : W64) (bucket : Nat) : State := { ready with tabs := { ready.tabs with ctxs := [(0, { st := 1, tokens := tokens })] }, units := { tokens := [(0, bucket)] } }
theorem witness_tokens : ((rated 0x40004 3).ctx 0 0).rate ≠ 0 ∧ 0 < (rated 0x40004 3).bucket 0 (ctxKey 0 0) ∧ (rated 0x40004 0).bucket 0 (ctxKey 0 0) = 0 ∧ ((rated 0x40004 0).lender 0 0 0).isNone = true ∧ ((rated 0 0).ctx 0 0).rate = 0 := by decide +kernel
/-- The only group of the context waits on an empty barrier, and its watchdog has reached its limit. -/
def watched (count : W64) : State := { waiting (.barrier 0x90000 0) .waitBarrier with tabs := { ready.tabs with ctxs := [(0, { st := 1, wdog := 2, wdogCnt := count })] } }
theorem witness_watchdog : (∃ h, (watched 2).ctxGroups 0 0 = [h] ∧ h.st = .waitBarrier) ∧ (watched 2).idle 0 0 = true ∧ ((watched 2).ctx 0 0).wdog ≤ ((watched 2).ctx 0 0).wdogCnt ∧ ((watched 1).ctx 0 0).wdogCnt < ((watched 1).ctx 0 0).wdog := ⟨⟨_, rfl, rfl⟩, rfl, by decide, by decide⟩
theorem witness_exchange_values : ∃ q, ({ inBlock [] with tabs := { (inBlock []).tabs with graphs := [{ graph with queues := [queueEnt 2 3] }] } } : State).queue? 0 2 = some q ∧ (queueEnt 2 3).kind = 3 := ⟨_, rfl, rfl⟩

/-- A launch of stage 3 under confirmation on core 0; the group of the attempt's graph reads its header through the page tables. -/
def attempting (inq : Nat) (a : Attempt) : State :=
  { paged mappedLeaf with mem := { (paged mappedLeaf).mem with hbm := [(0x50002, 1), (0x50008, 16), (0x50014, 1), (0x50018, 3), (0x5001A, 1), (0x5001C, 1), (0x50020, BitVec.ofNat 8 inq), (0x50021, BitVec.ofNat 8 (inq / 256)), (0x50022, 1), (0x50028, 4), (0x50030, 1), (0x50040, 2)] ++ (paged mappedLeaf).mem.hbm }
                          tabs := { (paged mappedLeaf).tabs with graphs := [graph] }
                          work := { queues := [{ gidx := 0, qid := 1 }, { gidx := 0, qid := 2, recs := [record] }], ranges := [{ gidx := 0, stage := 3, insts := [{ id := 1, range := 4, l := 5, next := 0, join := none }], offered := [], nextId := 2, changed := false }], attempts := [a] } }
def attempt (phase : Nat) (block : Option (Nat × Nat × Nat)) (popped : Option (List Rec)) : Attempt := { id := 1, core := 0, slot := 0, gidx := 0, stage := 3, phase := phase, popped := popped, block := block, refused := false }
theorem witness_reservation : ∃ a e q, (attempting 2 (attempt 0 none none)).attempt? 1 = some a ∧ a.id = 1 ∧ a.refused = false ∧ (attempting 2 (attempt 0 none none)).queue? 0 1 = some q ∧ (attempting 2 (attempt 0 none none)).queueEnt 0 1 = some e := ⟨_, _, _, rfl, rfl, rfl, rfl, rfl⟩
theorem witness_attempt_stage : (((attempting 2 (attempt 0 none none)).attemptStage (attempt 0 none none)).map fun x => (x.2.2.nout, x.2.2.outq.getD 0 0, x.2.2.emit.getD 0 0, x.2.2.inq)) = some (1, 1, 2, 2) := by decide +kernel
theorem witness_range : (((attempting 0xFFFF (attempt 1 none none)).attemptStage (attempt 1 none none)).map fun x => (x.2.2.nout, x.2.2.inq)) = some (1, 0xFFFF) ∧ (((attempting 0xFFFF (attempt 1 none none)).range? 0 3).bind RangeState.peek) = some (1, 0, 0) := by decide +kernel
theorem witness_confirmation : (attempting 0xFFFF (attempt 1 (some (1, 0, 0)) none)).attempt? 1 = some (attempt 1 (some (1, 0, 0)) none) ∧ (attempt 1 (some (1, 0, 0)) none).refused = false := ⟨rfl, rfl⟩
theorem witness_group_launch : ∃ h, ({ ready with g := { group with st := .launching }, units := { quads := [(0, { released := true })] } } : State).group? 1 = some h ∧ h.st = .launching ∧ h.record = [] ∧ h.stopping = false := ⟨_, rfl, rfl, rfl, rfl⟩
/-- The block's one group has retired. -/
def retired : State := { inBlock [] with g := { (inBlock []).g with st := .retired }, work := { (inBlock []).work with blocks := [{ block with resv := [] }] } }
theorem witness_block : ∃ b, retired.block? 0 = some b ∧ retired.blockDone b = true ∧ b.groups ≠ [] ∧ b.resv = [] ∧ b.tent = [] ∧ b.heldRecs = [] ∧ b.join = none := ⟨_, rfl, rfl, by decide, rfl, rfl, rfl, rfl⟩
def offering : State := { attempting 0xFFFF (attempt 1 none none) with work := { (attempting 0xFFFF (attempt 1 none none)).work with pending := [(0, 3, 1, 2, 1)] } }
theorem witness_offer : ∃ r, (offering.work.pending.find? fun o => o.1 == 0 && o.2.1 == 3 && o.2.2.1 == 1 && o.2.2.2.1 == 2) = some (0, 3, 1, 2, 1) ∧ offering.range? 0 3 = some r := ⟨_, rfl, rfl⟩
theorem witness_checkpoint_words : (∃ w, wordOf (.ckpt { d := 4 }) = some w ∧ handler.executes w { illegal := (0 : BitVec 8) != 0 } = true) ∧ handler.g.ccc = false ∧ (handler.inProgress 0).isNone = true ∧ ∃ w, wordOf (.ckstat { d := 4, a := 3 }) = some w ∧ handler.executes w {} = true := ⟨⟨_, rfl, rfl⟩, rfl, rfl, ⟨_, rfl, rfl⟩⟩
/-- A checkpoint in progress whose only group has been saved. -/
def saving : State := { ready with g := { group with st := .preempted }, plat := { ckpts := [Checkpoint.start 0 1] } }
/-- A dirty line of the partition lies in a tile that fails its check. -/
def savingBad : State := { saving with mem := { l2 := [(0xA00, { dirty := true, verified := false })], tiles := [(80, { ver := 1 })] }, tabs := { saving.tabs with parts := [(0, { st := .active, frames := [5] })] } }
theorem witness_checkpoint_alarm : savingBad.inProgress 0 = some (Checkpoint.start 0 1) ∧ savingBad.ckptQuiet 0 = true ∧ (savingBad.cleanPart 0).alarmed = true ∧ (saving.cleanPart 0).alarmed = false ∧ ((((saving.cleanPart 0).markCow 0).sweepPart 0).standing 0).isNone = true := by decide +kernel
theorem witness_checkpoint : saving.inProgress 0 = some (Checkpoint.start 0 1) ∧ saving.ckptQuiet 0 = true ∧ (saving.standing 0).isNone = true := ⟨rfl, rfl, rfl⟩
theorem witness_preemption : ∃ h, ready.group? 1 = some h ∧ h.canStop = true ∧ h.inreg = false ∧ h.wait = .none := ⟨_, rfl, rfl, rfl, rfl⟩
def stopped : State := { ready with g := { group with stopping := true } }
theorem witness_save : ∃ h, stopped.group? 1 = some h ∧ h.saveReady = true ∧ h.wait = .none ∧ (stopped.ctx h.part h.ctx).save.toNat + Config.saveRecordBytes * stopped.freeRecord h + Config.saveRecordBytes ≤ Config.hbmBytes := ⟨_, rfl, rfl, rfl, by decide⟩
def saved : State := { mapped with g := { mapped.g with st := .preempted, left := .ready, saveAt := some 0 } }
theorem witness_restore : ∃ h, saved.group? 1 = some h ∧ h.wait = .none ∧ h.left = .ready ∧ h.reqs = [] ∧ (saved.withdraw 1).poolHolds 0 1 ({ h with v := [] } : Group).spilled = true ∧ h.v = [] ∧ saved.canRestore h 0 47 = true := by
  refine ⟨_, rfl, rfl, rfl, rfl, rfl, rfl, ?_⟩
  decide +kernel
/-- The saved group holds a name above its floor, and the floors of eight others take every register of the quadrant. -/
def crowded : State := { saved with g := { saved.g with v := [(4, { alloc := true, pooled := true })] }, groups := (List.range 8).map fun i => { group with uid := 2 + i, slot := i, floor := 255 } }
theorem witness_restore_parked : crowded.canRestore crowded.g 0 47 = true ∧ (crowded.withdraw 1).poolHolds 0 1 ({ crowded.g with v := crowded.g.v.map fun (e : Nat × VReg) => (e.1, { e.2 with pooled := !crowded.g.isFloor e.1 }) } : Group).spilled = false := by decide +kernel
theorem witness_park : ready.quadGroups 0 = [group] ∧ group.st ∈ [SlotState.ready, .handler, .waitStall, .waitCounter, .waitBatch] := ⟨rfl, by decide⟩
/-- A parked group whose spilled register lies at page 2. -/
def parked : State := { mapped with g := { mapped.g with st := .parked, left := .waitStall, spillAt := 0x20000, v := [(4, { alloc := true, pooled := true })] } }
theorem witness_parked : ∃ h, parked.group? 1 = some h ∧ h.st = .parked ∧ h.spilled = [4] ∧ (∀ x ∈ parked.quadGroups h.quad, x.wantsRegs = false) ∧ parked.poolHolds h.quad 1 h.spilled = true ∧ h.left = .waitStall ∧ h.wait ≠ .other ∧ (parked.spillPlace h h.spillAt .read 4).2.mem.bad = none := by
  refine ⟨_, rfl, rfl, rfl, ?_⟩
  decide +kernel
/-- The group waits for registers and holds one above its floor. -/
def needy : State := { mapped with g := { mapped.g with st := .waitAlloc, wait := .alloc [9], v := [(4, { alloc := true, pooled := true, base := List.replicate 32 1 })] } }
theorem witness_spill : needy.quadGroups 0 = [needy.g] ∧ needy.g.st = .waitAlloc ∧ needy.g.spilled ≠ [] ∧ (needy.spill needy.g).mem.bad = none := by
  refine ⟨rfl, rfl, ?_⟩
  decide +kernel
theorem witness_kill : ∃ h, ready.group? 1 = some h ∧ h.ccc = false ∧ h.st ≠ .retired ∧ (ready.allGroups.all fun x => (brokenBy h x).isNone) = true := ⟨_, rfl, rfl, by decide, rfl⟩
/-- A forwarding pair with one record and credit for one. -/
def forwarding (kind : Nat) (q : Queue) : State := { ready with tabs := { ready.tabs with graphs := [{ graph with queues := [queueEnt 2 kind] }] }, work := { queues := [q] }, plat := { device := some 0 } }
def sending : Queue := { gidx := 0, qid := 2, recs := [record], cred := 1 }
theorem witness_forward : (forwarding 3 sending).queue? 0 2 = some sending ∧ (forwarding 3 sending).queueEnt 0 2 = some (queueEnt 2 3) ∧ 1 ≤ sending.backlog (queueEnt 2 3) ∧ sending.remoteB + sending.remoteSent < sending.backlog (queueEnt 2 3) ∧ sending.segUsed < 64 := by decide +kernel
/-- A stage of this device reads the queue that the pair forwards into, so that its header gives the weight. -/
def weighing : State :=
  { attempting 5 (attempt 0 none none) with tabs := { (attempting 5 (attempt 0 none none)).tabs with graphs := [{ graph with stages := [{ hdr := 0x20000, stage := 3, inq := 5 }], queues := [queueEnt 2 3] }] }, work := { queues := [sending] }, plat := { device := some 0 } }
theorem witness_forward_weight : (weighing.tabs.graphs.map fun gr => weighing.forwardWeight gr (queueEnt 2 3)) = [1] ∧ weighing.queue? 0 2 = some sending ∧ (weighing.popRecs 0 2 1).2.mem.bad = none := by decide +kernel
theorem witness_forward_send : 0 < Config.ports ∧ ((forwarding 3 sending).popRecs 0 2 1).2.mem.bad = none ∧ ((forwarding 3 sending).port 0).down = false ∧ ((forwarding 3 sending).port 0).xoff = false ∧ sending.halted = false := by decide +kernel
/-- The queue's one record stands on its shelf. -/
def shelved : Queue := { gidx := 0, qid := 2, recs := [{ record with shelf := true }] }
theorem witness_shelf : shelved.recs.find? Rec.shelf = some { record with shelf := true } ∧ sending.recs.find? Rec.shelf = none ∧ shelved.segUsed < (queueEnt 2 0).segcap ∧ ((forwarding 0 shelved).ringLoad 0 ((queueEnt 2 0).shelfPlace 0) 8).2.mem.bad = none := by decide +kernel
/-- A peer holds credit for two records and sends one. -/
def credited : Queue := { gidx := 0, qid := 2, granted := [(1, 2)], resv := 2 }
theorem witness_arrives : [record.data].length ≤ tget 0 credited.granted 1 ∧ (∀ r ∈ [record.data], r.length = (queueEnt 2 0).rsize) ∧ credited.popWait = [] ∧
    (((forwarding 0 credited).putQueue { credited with granted := [(1, 1)] }).commitRec 0 2 { acc := 0, data := record.data }).mem.bad = none := by decide +kernel
theorem witness_credit_grant : 32 ≤ ({ gidx := 0, qid := 2 } : Queue).free (queueEnt 2 0) ∧ tget 0 ({ gidx := 0, qid := 2, granted := [(1, 64)] } : Queue).granted 1 = 64 ∧ (forwarding 0 sending).queueEnt 0 2 = some (queueEnt 2 0) := by decide
def doorbell (gidx qid : Nat) : List Byte := leBytes 2 gidx ++ leBytes 2 qid ++ leBytes 4 0 ++ leBytes 8 5
theorem witness_doorbell : (doorbell 0 2).length = 16 ∧ natAt (doorbell 0 2) 2 2 = 2 ∧ natAt (doorbell 0xFFFF 0xFFFF) 0 2 = 0xFFFF ∧ natAt (doorbell 0 2) 8 8 = 5 ∧ ({ forwarding 1 sending with tabs := { (forwarding 1 sending).tabs with parts := [(0, { st := .active, vf := 1 })] } } : State).vfPart 1 = some 0 ∧ ready.vfPart 1 = none := by decide +kernel
/-- Rings of both kinds, and an index that keeps each consistent. -/
theorem witness_bell : ∀ kind ∈ [1, 2], (∃ g e, (forwarding kind sending).graph? 0 = some g ∧ g.part = 0 ∧ g.queue? 2 = some e ∧ e.kind = kind ∧ e.cap = 32) ∧ (forwarding kind { sending with w := 5 }).queueEnt 0 2 = some (queueEnt 2 kind) := by
  intro kind h
  simp only [List.mem_cons, List.not_mem_nil, or_false] at h
  rcases h with rfl | rfl <;> exact ⟨⟨_, _, rfl, rfl, rfl, rfl, rfl⟩, rfl⟩
/-- Every tile the partition holds passes its check; one does not; a dirty line lies in one that does not. -/
theorem witness_rekey_asked : managed.accepts owned = true ∧ managed.live 0 = true ∧ (managed.part 0).rekeying = none := by decide +kernel
theorem witness_rekey : ((managed.cleanPart 0).alarmed = false ∧ (((managed.cleanPart 0).heldTiles 0).all fun x => (managed.cleanPart 0).tagOk x && ((managed.cleanPart 0).pathFault x).isNone) = true) ∧
    (let s : State := { managed with mem := { managed.mem with tiles := [(80, { ver := 1 })] } }
     (s.cleanPart 0).alarmed = false ∧ (((s.cleanPart 0).heldTiles 0).find? fun x => !(s.cleanPart 0).tagOk x) = some 80) ∧ ((tiled 1 0).cleanPart 0).alarmed = true := by decide +kernel
/-- A partition on its way to this device. -/
def traveller : Migrant := { part := 3, entry := { st := .paused, vf := 5, quads := [8], frames := [40], metaFrames := [40] }, saved := Checkpoint.start 3 0, img := [], tiles := [] }
def receiving : State := { managed with plat := { managed.plat with transit := [traveller] } }
theorem witness_migration : receiving.accepts owned = true ∧ (receiving.plat.transit.find? fun m => m.part == 3) = some traveller ∧ receiving.canTakeUp traveller = true ∧ ({ managed with plat := { managed.plat with migrating := some (0, 3) } } : State).live 0 = true ∧
    (({ managed with plat := { managed.plat with migrating := some (0, 3) } } : State).cleanPart 0).alarmed = false := by decide +kernel
theorem witness_management : managed.accepts owned = true ∧ managed.maySet owned 0 0 = true ∧ managed.mayChange owned 0 = true ∧ managed.accepts { sender := 2, epoch := 0 } = false ∧ managed.accepts { sender := 1, epoch := 1 } = false ∧ managed.plat.migrating = none ∧ managed.live 0 = true := by decide +kernel
theorem witness_setting : mgmtOf (.setDefaultMode owned 0 0 0x10000000) = some owned ∧ (settingOf (.setDefaultMode owned 0 0 0x10000000) {}).map (fun x => (x.1, x.2.1, x.2.2.1)) = some (0, 0, true) := ⟨rfl, rfl⟩
def setup : PartSetup := { vf := 2, quads := [4], l2ways := 0xFFFF, resq := 0, lend := false, aes := 0, kmac := 0, pool := [100], ckpool := [101], evring := 0x10000, evlog := 4, metaFrames := [102] }
def ctxSetup : CtxSetup := { ptroot := 0, catbase := 0, htbase := 0, tvec := 0, frec := 0, spill := 0, save := 0, mode := 0x10000000, iweight := 1, quota := 8, wdog := 0, tokens := 0 }
theorem witness_platform : ({ managed with plat := { managed.plat with owner := 0 } } : State).ran 3 = true ∧ managed.canCreate 1 setup = true ∧ setupOk ctxSetup = true ∧ (managed.ctx 0 1).st = 0 ∧ managed.quadOwner 0 = some 0 ∧ managed.quadOwner 500 = none ∧ managed.ran 4 = true ∧ managed.work.blocks = [] := by decide +kernel
theorem witness_graph : (managed.graph? 0).isNone = true ∧ ({ managed with tabs := { managed.tabs with graphs := [graph] } } : State).graph? 0 = some graph ∧ ({ managed with tabs := { managed.tabs with graphs := [graph] } } : State).graphIdle graph = true := by decide +kernel
theorem witness_spdm : managed.plat.booted = true ∧ (spdmOf .getCapabilities managed).isSome = true ∧ (spdmOf .getDigests managed).map (fun x => x.1) = some 4 ∧ State.reset.plat.booted = false := ⟨rfl, rfl, rfl, rfl⟩

/-! ### The wider clauses: path switches, failing lanes, regions, faults -/

/-- The pending path of the group has reached MODE.AGE, and k2 lies below PC. -/
def agedPath : State := { twoPaths false with g := { (twoPaths false).g with mode := 0x00010000, k := [(2, { base := 0x8000 })] } }
theorem witness_switch : (∃ w, wordOf (.bra { d := 0xFF, a := 0xFF, b := 0xFF }) = some w ∧ branchOf (.bra { d := 0xFF, a := 0xFF, b := 0xFF }) w agedPath.g = some (true, 0xFFF8, none) ∧ agedPath.executes w {} = true) ∧ agedPath.g.roomForConstraint = true ∧ pcBits 0xFFF8 = 0xFFF8 ∧ agedPath.g.switchAt 0xFFF8 = some 0 ∧
    (∃ w, wordOf (.jcall { d := 5, a := 2 }) = some w ∧ jumpOf (.jcall { d := 5, a := 2 }) agedPath.g = some (0x8000, some 5, 0x3C4) ∧ agedPath.executes w {} = true) ∧ agedPath.g.switchAt 0x8000 = some 0 ∧
    (∃ w, wordOf (.pfork { a := 1 } 0xFFFF) = some w ∧ agedPath.executes w {} = true) ∧ agedPath.g.m0 &&& ~~~agedPath.g.readM 1 ≠ 0 ∧ agedPath.g.m0 &&& agedPath.g.readM 1 = 0 :=
  ⟨⟨_, rfl, rfl, rfl⟩, rfl, rfl, rfl, ⟨_, rfl, rfl, rfl⟩, rfl, ⟨_, rfl, rfl⟩, by decide, rfl⟩
/-- Lane 0 is inside m1 and lane 1 outside; every entry of the path table is taken, or none. -/
def forking (paths : List PathEnt) : State := { ready with g := { group with m0 := 3, m := [(1, { base := 1 })], paths := paths } }
theorem witness_fork : (∃ w, wordOf (.pfork { a := 1 } 4) = some w ∧ (forking (List.replicate 8 { valid := true })).executes w {} = true ∧ (forking (List.replicate 8 {})).executes w {} = true) ∧
    freePath (forking (List.replicate 8 { valid := true })).g.paths = none ∧ freePath (forking (List.replicate 8 {})).g.paths = some 0 ∧ (3 : Mask) &&& ~~~(forking []).g.readM 1 ≠ 0 ∧ (3 : Mask) &&& (forking []).g.readM 1 ≠ 0 :=
  ⟨⟨_, rfl, rfl, rfl⟩, rfl, rfl, by decide, by decide⟩
/-- Lane 1 stores to a page without a translation; lane 0 does not. -/
def halfMapped : State := { mapped with g := { mapped.g with m0 := 3, v := [(4, { alloc := true, fresh := false, base := 0 :: List.replicate 31 0x40000 }), (6, { alloc := true, fresh := false, base := [] })] } }
theorem witness_lane_fails : ∃ w a, wordOf (.vst { d := 6, a := 2, b := 4, rnd := 4 }) = some w ∧ accessOf (.vst { d := 6, a := 2, b := 4, rnd := 4 }) w (halfMapped.begun w {}).g = some a ∧ halfMapped.executes w {} = true ∧ misaligned a.size a.at_ = none ∧
    (let q := a.reach (halfMapped.begun w {})
     q.1.stop = none ∧ q.2.mem.bad = none ∧ q.1.ok ≠ [] ∧ (q.1.ok.all fun o => o.2.2 != 3) = true ∧ q.1.bad ≠ [] ∧ q.2.g.packets < 16) := by
  refine ⟨_, _, rfl, rfl, rfl, ?_⟩
  decide +kernel
theorem witness_all_fail : ∃ w a, wordOf (.kst { d := 3, a := 9, rnd := 4 }) = some w ∧ accessOf (.kst { d := 3, a := 9, rnd := 4 }) w (mapped.begun w {}).g = some a ∧ mapped.executes w {} = true ∧ misaligned a.size a.at_ = none ∧
    (let q := a.reach (mapped.begun w {})
     q.1.stop = none ∧ q.2.mem.bad = none ∧ q.1.ok = [] ∧ q.1.bad ≠ []) := by
  refine ⟨_, _, rfl, rfl, rfl, ?_⟩
  decide +kernel
/-- A region with these tags and this many words in its read and word sets. -/
def tagging (tags : List (TagKey × Tag)) (n : Nat) : State :=
  { mapped with g := { mapped.g with region := some { region [] with tags := tags, words := (List.range n).map fun i => ⟨.hbm, 0x60000 + 8 * i⟩ } } }
def tag : Tag := { j := 0, width := 64, ext := 6 }
theorem witness_region_store : ∃ w a, wordOf (.kst { d := 3, a := 2, rnd := 4 }) = some w ∧ accessOf (.kst { d := 3, a := 2, rnd := 4 }) w ((tagging [] 1).begun w {}).g = some a ∧ (tagging [] 1).executes w {} = true ∧ (tagging [] 1).g.abortStays ((tagging [] 1).g.region.getD (region [])) = true ∧
    (let q := a.reach ((tagging [] 1).begun w {})
     q.1.stop = none ∧ q.2.mem.bad = none ∧ q.1.bad = [] ∧ (q.1.ok.all fun o => o.2.2 == 0) = true ∧ q.2.g.region.isSome = true ∧ ((tagging [] 1).begun w {}).g.storeTagged w true 0 = false ∧
     ((tagging [(.ctl 2, tag)] 1).begun w {}).g.storeTagged w true 0 = true ∧ (q.2.g.region.any fun x => (a.stores w ((tagging [] 1).begun w {}).g q.1.ok x).toOption.isSome) = true ∧
     (((tagging [] 64).begun w {}).g.region.any fun x => (a.stores w ((tagging [] 64).begun w {}).g q.1.ok x).toOption.isNone) = true) := by
  refine ⟨_, _, rfl, rfl, rfl, rfl, ?_⟩
  decide +kernel
theorem witness_region_load : ∃ w a, wordOf (.kld { d := 6, a := 2, rnd := 6 }) = some w ∧ accessOf (.kld { d := 6, a := 2, rnd := 6 }) w ((tagging [] 1).begun w {}).g = some a ∧ (tagging [] 1).executes w {} = true ∧
    (let b := (tagging [] 1).begun w {}
     let q := a.reach b
     let full := (a.loader w ((tagging [] 64).begun w {}).g)
     q.1.stop = none ∧ q.2.mem.bad = none ∧ q.1.bad = [] ∧ (q.1.ok.all fun o => o.2.2 == 0) = true ∧ (b.g.region.bind fun z => b.regionHold w z a.size q.1.ok) = none ∧
     ((a.loader w q.2.g).region.any fun z => ((a.reads w q.1.ok z { q.2 with g := a.loader w q.2.g }).any fun y => y.2.2.mem.bad.isNone)) = true ∧
     (full.region.any fun z => (a.reads w q.1.ok { z with reads := [] } { q.2 with g := full }).isNone) = true) := by
  refine ⟨_, _, rfl, rfl, rfl, ?_⟩
  decide +kernel
/-- Page 2 lies in host memory. -/
def hosted : State :=
  { tagging [] 1 with mem := { (tagging [] 1).mem with tlb := [{ core := 0, part := 0, ctx := 0, leaf := { leaf 2 5 with target := 1 } }], hostHeld := [5] } }
theorem witness_region_far : ∃ w a, wordOf (.kst { d := 3, a := 2, rnd := 4 }) = some w ∧ accessOf (.kst { d := 3, a := 2, rnd := 4 }) w (hosted.begun w {}).g = some a ∧ hosted.executes w {} = true ∧
    (let q := a.reach (hosted.begun w {})
     q.1.stop = none ∧ q.1.bad = [] ∧ (q.1.ok.any fun o => o.2.2 != 0) = true ∧ (hosted.begun w {}).g.storeTagged w true 0 = false) := by
  refine ⟨_, _, rfl, rfl, rfl, ?_⟩
  decide +kernel
/-- Tags on a control register, on a lane and on a lane of a pair; k3, v8 and lane 1 of v4 are bare. -/
theorem witness_tags : (let r := { region [] with tags := [(.ctl 5, tag), (.lane 4 0, tag), (.pair 6 0, tag)] }
    r.alone (.ctl 5, tag) ∧ r.alone (.lane 4 0, tag) ∧ r.alone (.pair 6 0, tag) ∧ r.bare (.ctl 3) ∧ r.bare (.lane 4 1) ∧ r.bare (.lane 8 0)) := ⟨rfl, rfl, rfl, rfl, rfl, rfl⟩
/-- The tile that the region stores to fails its check. -/
theorem witness_commit_store_alarm : (verifyStores [{ loc := ⟨.hbm, 0x50000⟩, size := 8, sym := none, data := 1 }] { inRegion [] with mem := { (inRegion []).mem with tiles := [(0x50, { ver := 1 })] } }).alarmed = true ∧
    (verifyStores [{ loc := ⟨.hbm, 0x50000⟩, size := 8, sym := none, data := 1 }] (inRegion [])).alarmed = false := by decide +kernel
/-- A fault in a region, with a path due at its fallback or none; the fallback lies above the `abeg`, or at it. -/
theorem witness_region_fault : (∃ r, (inRegion []).g.region = some r ∧ (inRegion []).g.replay = none ∧ ¬r.fallback.toNat ≤ r.opened.toNat) ∧
    ((0x10100 : W64).toNat ≤ (0x10100 : W64).toNat ∧ oldestPend (twoPaths false).g.paths (fun e => decide (((0x00010000 : W64).extractLsb' 16 16).toNat ≤ e.age.toNat)) = some 0) := ⟨⟨_, rfl, rfl, by decide⟩, by decide, rfl⟩
/-- A supervisor, a group whose record lies on no page, and one whose vector does; with room for the docket, and with none. -/
theorem witness_failed_entry : handler.g.sup = true ∧ handler.g.replay = none ∧
    (({ mapped with g := mapped.g.faulting 3 3 0 none } : State).recordPlaces [0, 1, 2, 3] []).1.isNone = true ∧
    (({ inHandler with g := { inHandler.g with sup := false }, tabs := mapped.tabs } : State).recordPlaces [0, 1, 2, 3] []).1.isSome = true ∧
    ((({ inHandler with g := { inHandler.g with sup := false }, tabs := mapped.tabs } : State).recordPlaces [0, 1, 2, 3] []).2.vector 0x1B).1.isNone = true ∧
    (mapped.part 0).evRoom = true ∧ (mapped.part 0).evheld = [] ∧ ({ mapped.part 0 with evhalt := true } : Partition).evRoom = false := by decide +kernel
/-- The pool is empty, or holds one frame for which a group waits already; and no table is missing, or more than the pool's frame serves. -/
theorem witness_pool : ((paged []).part 0).pool = [6] ∧ ((paged []).part 0).poolFor 1 ≠ 0 ∧ ({ (paged []).part 0 with poolWait := [9] } : Partition).poolFor 1 = 0 ∧ (((paged reservedLeaf).poolEmpty 0x20000).1.mem.bad = none) ∧
    ((paged []).buildTables group 0x2000000 [1, 2, 3] ((paged []).root group.who)).1 = true ∧ ((paged []).buildTables group 0xFF0000000000 [1, 2, 3] ((paged []).root group.who)).1 = true ∧
    (({ paged [] with tabs := { (paged []).tabs with parts := [(0, { (paged []).part 0 with pool := [] })] } } : State).buildTables group 0xFF0000000000 [1, 2, 3] ((paged []).root group.who)).1 = false := by decide +kernel
/-- The leaf of page 2 is valid and loses a permission, or keeps all; it is none; it is of a large page. -/
theorem witness_leaf_kinds : ((0x50033 &&& 0x70) &&& (0x70 - 3 * 16) = 0 ∧ (0x50033 &&& 0x70) &&& (0x70 - 1 * 16) ≠ 0) ∧ (({ at_ := 0x106010, val := 0, large := false } : LeafEnt).val.testBit 0 || (0 : Nat).testBit 1) = false ∧ ({ at_ := 0x106010, val := 0x50033, large := false } : LeafEnt).target = 0 := by decide
/-- The page that an invalidation sends to another device when it completes. -/
theorem witness_sends : ({ id := 1, part := 0, ctx := 0, lo := 2, hi := 3, free := [5], seen := true, send := some (3, 5, 9) } : Inval).send = some (3, 5, 9) ∧ (managed.sendPage 3 5 9).mem.bad = none := by decide +kernel
theorem witness_coherence_more : shared.live 0 = true ∧ shared.plat.device = some 1 ∧ shared.pageMoves 0 0 2 = false ∧ (shared.findLeaf { part := 0, ctx := 0, core := 128 } 0x20000).2.alarmed = false ∧
    ({ shared with mem := { shared.mem with invals := [{ id := 1, part := 0, ctx := 0, lo := 2, hi := 3, free := [] }] } } : State).pageMoves 0 0 2 = true ∧ managed.pageMoves 0 0 2 = false ∧ managed.live 0 = true := by decide +kernel
theorem witness_remote_more : remoted.live 0 = true ∧ (remoted.replica? 0 0 2).map (fun r => (r.owner == remoted.self, r.remote)) = some (true, true) ∧
    (∀ kind ∈ [RemoteAccess.load, .store, .atomic 0 0], ((remoted.walk { part := 0, ctx := 0, core := 128 } (if kind = .load then .read else .write) false 0x20000).2.remoteAccess 0 ⟨.hbm, 0x50000⟩ kind [1, 2, 3, 4]).mem.bad = none) := by decide +kernel
theorem witness_device_runs : managed.plat.stuck = false ∧ (managed.part 0).resuming = [] ∧ managed.ran 3 = true ∧ State.reset.ran 3 = false ∧ State.reset.plat.stuck = false := by decide +kernel
/-- The watchdog has reached its limit, but a group has gone on since. -/
theorem witness_progress : ((watched 2).ctx 0 0).progress = false ∧ ({ (watched 2).ctx 0 0 with progress := true } : Context).progress = true := ⟨rfl, rfl⟩
/-- The segment is full, and the lowest place of the shelf is free. -/
def shelfEnt : QueueEnt := { queueEnt 2 0 with segcap := 1, shelfcap := 4, store := 0x50000 }
def filled : Queue := { gidx := 0, qid := 2, recs := [record], granted := [(1, 1)], resv := 1 }
def shelving : State := { forwarding 0 filled with tabs := { (forwarding 0 filled).tabs with graphs := [{ graph with queues := [shelfEnt] }] } }
theorem witness_shelf_arrival : shelving.queueEnt 0 2 = some shelfEnt ∧ shelfEnt.segcap ≤ filled.segUsed ∧ shelving.shelfFree filled shelfEnt = some 0 ∧ (shelving.ringStore 0 (shelfEnt.shelfPlace 0) record.data).mem.bad = none ∧ credited.recs.any Rec.shelf = false ∧ credited.segUsed + 1 ≤ (queueEnt 2 0).segcap := by decide +kernel
/-- Cluster 0 runs at point 2. -/
def powered : State := { managed with plat := { managed.plat with clusters := [(0, { managed.cluster 0 with point := 2 })] } }
theorem witness_points : (powered.cluster 0).point = 2 ∧ ((1 : BitVec 3).toNat < 2 ∧ 2 ≤ (7 : BitVec 3).toNat) ∧ 3 ≤ powered.allowedPoint 0 ∧ min (powered.cluster 0).hint (powered.allowedPoint 0) ≤ 3 := by decide +kernel
/-- A switch tree of three members, two of them behind the switch at port 1. -/
theorem witness_tree : treeOk [[0], [1, 0], [1, 1]] = true ∧ ascending [1, 2, 3] = true := by decide
/-- A way mask that waits for the window's close. -/
theorem witness_ways : (({ managed with tabs := { managed.tabs with parts := [(0, { managed.part 0 with waysSet := some (0x00FF, 0) })] } } : State).part 0).waysSet = some (0x00FF, 0) := by decide
/-- A re-keying under way, of a partition whose tiles pass, and of one with a dirty line in a tile that does not. -/
def rekeying (s : State) : State := s.setPart 0 { s.part 0 with st := .paused, keySt := 2, rekeying := some (1, 2, .active) }
def resumed (s : State) : State := s.setPart 0 { s.part 0 with st := .active, keySt := 1, rekeying := none }
theorem witness_rekey_finish : ((rekeying managed).part 0).rekeying = some (1, 2, .active) ∧ ((rekeying (tiled 1 0)).part 0).rekeying = some (1, 2, .active) := by decide +kernel
theorem witness_rekey_sound : ((resumed (rekeying managed)).cleanPart 0).alarmed = false ∧ ((((resumed (rekeying managed)).cleanPart 0).heldTiles 0).all fun x => ((resumed (rekeying managed)).cleanPart 0).tagOk x && (((resumed (rekeying managed)).cleanPart 0).pathFault x).isNone) = true := by decide +kernel
theorem witness_rekey_alarm : ((resumed (rekeying (tiled 1 0))).cleanPart 0).alarmed = true := by decide +kernel
/-- Every group of the partition is saved, and nothing of it is under way. -/
theorem witness_migration_ends : (let s : State := { managed with g := { managed.g with st := .preempted }, plat := { managed.plat with migrating := some (0, 3) } }
    s.ckptQuiet 0 = true ∧ s.live 0 = true ∧ (((s.work.attempts.filter fun a => (s.partGraphs 0).contains a.gidx).foldl State.returnGrants s).cleanPart 0).alarmed = false) := by decide +kernel
/-- A virtual function of an active partition, and one of none. -/
theorem witness_function : ({ managed with tabs := { managed.tabs with parts := [(0, { managed.part 0 with vf := 1 })] } } : State).vfPart 1 = some 0 ∧ managed.vfPart 7 = none := by decide +kernel
/-- The tables of a context in frames of the partition. -/
def tables : CtxSetup := { ctxSetup with ptroot := 0x640000, catbase := 0x650000, htbase := 0x690000 }
def roomy : State := { managed with tabs := { managed.tabs with parts := [(0, { managed.part 0 with frames := [100, 101, 102, 103, 104, 105], pool := [100, 105] })] } }
theorem witness_context : roomy.mayChange owned 0 = true ∧ setupOk tables = true ∧ roomy.tablesFit 0 tables = true ∧ (roomy.ctx 0 0).st ≠ 0 ∧ (roomy.ctx 0 1).st = 0 ∧ tables.catbase.toNat + 262144 ≤ Config.hbmBytes := by decide +kernel
/-- An error strikes quadrant 0: no block is there, one that may not restart, one that may, and one that has failed twice before. -/
def struck (restartable : Bool) (fails : Nat) : State :=
  { inBlock [] with work := { (inBlock []).work with blocks := [{ block with hdr := { header with flags := if restartable then 1 else 0 }, fails := fails }] } }
theorem witness_struck : (struck true 0).quadOwner 0 = some 0 ∧ (∀ x ∈ [(true, 0), (true, 2), (false, 0)], ((struck x.1 x.2).work.blocks.filter fun b => ((struck x.1 x.2).quadGroups 0).any fun h => h.blk == b.id).map (fun b => (b.hdr.restartable, b.failsNow)) = [(x.1, x.2 + 1)]) ∧
    (managed.work.blocks.filter fun b => (managed.quadGroups 0).any fun h => h.blk == b.id) = [] := by decide +kernel
/-- An interface whose partition runs or is paused, and one that no partition has. -/
theorem witness_interface : (((({ managed with tabs := { managed.tabs with parts := [(0, { managed.part 0 with vf := 1 })] } } : State).tabs.parts.find? fun e => e.2.vf == 1 && (e.2.st == .active || e.2.st == .paused))).map Prod.fst) = some 0 ∧ (∀ e ∈ managed.tabs.parts, e.2.vf ≠ 7) := by decide +kernel
/-- A graph of stage 3 and queue 2 described at page 2, whose header lies in the same page. -/
def describedGraph : State :=
  { managed with mem := { managed.mem with hbm := [(0x50002, 1), (0x50004, 1), (0x50021, 1), (0x50022, 2), (0x50028, 3), (0x5002A, 2), (0x50030, 2), (0x50033, 8), (0x50034, 4), (0x50118, 3), (0x50120, 2)] ++ managed.mem.hbm } }
theorem witness_install : describedGraph.live 0 = true ∧ (describedGraph.ctx 0 0).st ≠ 0 ∧ (describedGraph.graph? 0).isNone = true ∧ (describedGraph.imageBytes 0 0 2 0x20000 32).map (fun hd => (natAt hd 2 2, natAt hd 4 2)) = some (1, 1) ∧
    ((describedGraph.imageBytes 0 0 2 0x20000 80).bind fun bs => (describedGraph.graphOf 0 0 0 0x20000 bs []).map fun g => (g.stages.map StageEnt.stage, g.queues.map QueueEnt.qid)) = some ([3], [2]) := by decide +kernel
/-- A group that a checkpoint keeps has the number of no other. -/
theorem witness_numbers_kept : ({ saving with plat := { saving.plat with ckpts := [{ Checkpoint.start 0 1 with groups := [{ group with st := .preempted }] }] }, work := { saving.work with nextUid := 2 } } : State).Numbered :=
  ⟨by decide, by decide, by decide, fun _ h => (List.not_mem_nil h).elim, by decide, by decide, by decide, by decide, fun _ h => (List.not_mem_nil h).elim⟩

end Sys2Proof.Tests
end

section
/-! Words of the control family: `nop` (R167), and the jumps through a register `jmp`, `jcall` and `ret` (R150) with the path switch at their end (R21, R151). -/

namespace Sys2Proof.Machine

open Sys2Proof

/-! ### Words without operands -/

/-- Without a vector operand to broadcast, every broadcast bit is zero (R45). -/
theorem midOk_bare (op : Nat) (f : FForm) (h : midOk { op := op } f = true) : f.bsel = 0 ∧ f.bfirst = false ∧ f.blane = 0 := by
  simp only [midOk, vecSrc, Option.isSome_none, Bool.false_and] at h
  split at h
  · next hs => exact ⟨BitVec.eq_of_toNat_eq hs, by simpa using h⟩
  · cases h
  · cases h
  · cases h

/-- A word whose entry uses no field is well formed exactly where every field but STALL is zero (R40, R45 to R47). -/
theorem formOk_bare_iff (op : Nat) (f : FForm) : formOk { op := op } f .none = true ↔ f = { stall := f.stall } := by
  constructor
  · intro h
    simp only [formOk, Bool.and_eq_true] at h
    obtain ⟨⟨⟨⟨⟨⟨⟨⟨⟨⟨⟨⟨⟨hd, ha⟩, hb⟩, hp⟩, hr⟩, hx⟩, -⟩, -⟩, -⟩, hla⟩, hlb⟩, hld⟩, hm⟩, hn⟩ := h
    obtain ⟨hbs, hbf, hbl⟩ := midOk_bare op f hm
    simp [unusedOk, xfOk, lastReadOk, lastReadDOk, negOk, vecSrc] at hd ha hb hp hr hx hla hlb hld hn
    have hr0 : f.rnd = 0 := BitVec.eq_of_toNat_eq hr
    have hx0 : f.xf = 0 := BitVec.eq_of_toNat_eq hx
    cases f
    simp_all
  · intro h
    rw [h]
    rfl

/-- The fields of `nop` are checked as those of a word that uses none (R167). -/
theorem wellFormed_nop (f : FForm) : (Instr.nop f).wellFormed = formOk { op := 0x300 } f .none := by
  change ((formOk shapeNop f .none && true) && true) = _
  rw [Bool.and_true, Bool.and_true, shapeNop]

/-- OPCODE is bits [61:52] of a word (Table 3-2). -/
theorem opcode_fformWord (op : Nat) (f : FForm) : (fformWord op f).extractLsb' 52 10 = BitVec.ofNat 10 op := by
  simp only [fformWord, BitVec.extractLsb'_append_eq_of_le, BitVec.extractLsb'_append_eq_right, Nat.reduceSub, Nat.reduceLeDiff]

/-! ### Targets -/

theorem getLsbD_pcBits (t : W64) (i : Nat) : (pcBits t).getLsbD i = (t.getLsbD i && decide (3 ≤ i ∧ i < 56)) := by
  have mask : ∀ j : Fin 64, (0x00FFFFFFFFFFFFF8 : W64).getLsbD j = decide (3 ≤ j.val ∧ j.val < 56) := by decide
  by_cases hi : i < 64
  · rw [pcBits, BitVec.getLsbD_and, mask ⟨i, hi⟩]
  · rw [BitVec.getLsbD_of_ge _ _ (by omega), BitVec.getLsbD_of_ge _ _ (by omega), Bool.false_and]

/-- A field of a word is zero exactly where each of its bits is. -/
theorem extractLsb'_eq_zero_iff (x : W64) (start len : Nat) : x.extractLsb' start len = 0 ↔ ∀ i, start ≤ i → i < start + len → x.getLsbD i = false := by
  constructor
  · intro h i h1 h2
    have bit : (x.extractLsb' start len).getLsbD (i - start) = false := by rw [h]; exact BitVec.getLsbD_zero
    simpa [BitVec.getLsbD_extractLsb', Nat.add_sub_cancel' h1, show i - start < len by omega] using bit
  · intro h
    refine BitVec.eq_of_getLsbD_eq fun i hi => ?_
    rw [BitVec.getLsbD_extractLsb', h (start + i) (by omega) (by omega), Bool.and_false]
    exact BitVec.getLsbD_zero.symm

/-- PC keeps a target exactly where its reserved bits [2:0] and [63:56] are zero (Table 6-6). -/
theorem pcBits_eq_self_iff (t : W64) : pcBits t = t ↔ t.extractLsb' 0 3 = 0 ∧ t.extractLsb' 56 8 = 0 := by
  rw [extractLsb'_eq_zero_iff, extractLsb'_eq_zero_iff]
  constructor
  · intro h
    have reserved : ∀ i, ¬(3 ≤ i ∧ i < 56) → t.getLsbD i = false := fun i hi => by
      rw [← h, getLsbD_pcBits, decide_eq_false hi, Bool.and_false]
    exact ⟨fun i _ hi => reserved i (by omega), fun i hi _ => reserved i (by omega)⟩
  · rintro ⟨low, high⟩
    refine BitVec.eq_of_getLsbD_eq fun i hi => ?_
    rw [getLsbD_pcBits]
    by_cases hm : 3 ≤ i ∧ i < 56
    · rw [decide_eq_true hm, Bool.and_true]
    · rcases Nat.lt_or_ge i 3 with h | h
      · rw [low i (by omega) (by omega), Bool.false_and]
      · rw [high i (by omega) (by omega), Bool.false_and]

/-! ### The path switch at the end of a transfer (R21, R151) -/

/-- A pending path is due at the end of a transfer to t where no region is open, t does not lie above the word, and it is the oldest that has reached MODE.AGE. -/
theorem switchAt_eq_some_iff (g : Group) (t : W64) (p : Nat) :
    g.switchAt t = some p ↔ g.inreg = false ∧ t.toNat ≤ g.pc.toNat ∧ oldestPend (agePaths g.paths) (fun e => decide ((g.mode.extractLsb' 16 16).toNat ≤ e.age.toNat)) = some p := by
  unfold Group.switchAt
  cases g.inreg <;> by_cases h : g.pc.toNat < t.toNat <;> simp [h, Nat.le_of_not_lt]

/-- Where the switch may happen and none does, no path has reached MODE.AGE. -/
theorem oldestPend_of_switchAt_none (g : Group) (t : W64) (h : g.switchAt t = none) (hin : ¬g.inreg) (ht : t.toNat ≤ g.pc.toNat) :
    oldestPend (agePaths g.paths) (fun e => decide ((g.mode.extractLsb' 16 16).toNat ≤ e.age.toNat)) = none := by
  unfold Group.switchAt at h
  rwa [if_neg] at h
  simpa [hin] using ht

/-- The end of a transfer that does not go up, outside a region, is the end of any word and then the ageing check. -/
theorem finish_checked (s : State) (w : Word) (rel : List Nat) (pc : W64) (space : Nat) (hr : s.g.replay = none) (hin : s.g.inreg = false) (hle : pc.toNat ≤ s.g.pc.toNat) :
    s.finish w rel pc space true = { s.finish w rel pc space false with g := ((s.finish w rel pc space false).g.ageSwitch pc).getD (s.finish w rel pc space false).g } := by
  obtain ⟨-, -, hpc, -, -⟩ := releaseNames_keeps s rel
  have hkeep := releases_region s w rel pc space false hr rfl
  simp only [State.finish, issued_g, Bool.false_and, Bool.false_eq_true, if_false] at hkeep ⊢
  simp only [hkeep, hin, hpc, hle, Bool.true_and, Bool.not_false, decide_true, if_true]

/-- A word whose body leaves the group x, apart from region, UNINIT and wait, and transfers control to a place not above it, while path i is due: path i runs, and the path of the transfer pends there. -/
theorem word_switch (w : Word) (ex : Extra) (body : State → State × Flow) (s b : State) (x : Group) (r : Option Region) (u : Bool) (pc : W64) (i : Nat) (h : s.executes w ex = true)
    (hb : body (s.begun w ex) = ({ b with g := { x with region := r, uninit := u, wait := .none } }, .goto pc true)) (hm : b.mem.bad = none) (hx : x.replay = none) (hr : r.isSome = x.inreg)
    (hin : x.inreg = false) (hle : (pcBits pc).toNat ≤ x.pc.toNat) (hi : oldestPend x.paths (fun e => decide ((x.mode.extractLsb' 16 16).toNat ≤ e.age.toNat)) = some i) :
    ∃ t, runWord w ex body s = .next t ∧
      WordDone b t w ex { x with m0 := (x.paths.getD i {}).mask, paths := x.paths.set i { x.paths.getD i {} with pc := pcBits pc, mask := x.m0, age := 0 } } (x.paths.getD i {}).pc (max 3 (w.stall + 1)) := by
  set c : State := { b with g := { x with region := r, uninit := u, wait := .none } }
  obtain ⟨-, v, rr, hv, -, hg⟩ := finish_past c w (w.releases ex) (pcBits pc) (max 3 (w.stall + 1)) hx
  have hkeep := releases_region c w (w.releases ex) (pcBits pc) (max 3 (w.stall + 1)) false hx rfl
  have hf := finish_checked c w (w.releases ex) (pcBits pc) (max 3 (w.stall + 1)) hx (hr.trans hin) hle
  have hold : oldestPend c.g.paths (fun e => decide ((c.g.mode.extractLsb' 16 16).toNat ≤ e.age.toNat)) = some i := hi
  simp only [Group.ageSwitch, hg, hold, Option.getD_some] at hf
  have hsame := finish_same c w (w.releases ex) (pcBits pc) (max 3 (w.stall + 1)) true
  refine ⟨c.finish w (w.releases ex) (pcBits pc) (max 3 (w.stall + 1)) true, ?_, SameUnits.trans (SameUnits.of_g b _) hsame, ?_, ?_⟩
  · rw [runWord_executes w ex body s h, hb]
    exact answer_next _ ((congrArg MemState.bad hsame.mem).trans hm)
  · rw [hf]
    exact ⟨rfl, rfl, rfl, rfl⟩
  · refine kept_of _ _ _ v rr _ _ _ _ _ _ _ _ _ _ _ _ hv ?_ (by rw [hf])
    rw [Group.inreg, hg] at hkeep
    exact hkeep.trans hr

/-! ### Jumps through a register (R150) -/

/-- The control registers after a jump: a call leaves PC + 8 in its register. -/
def Group.linked (g : Group) : Option Nat → Tbl KReg
  | none => g.k
  | some n => (g.writeK 2 n (g.pc + 8)).k

/-- A jump leaves every register but that of its call. -/
theorem linked_other (g : Group) (link : Option Nat) (n : Nat) (h : link ≠ some n) : tget ({} : KReg) (g.linked link) n = tget {} g.k n := by
  cases link with
  | none => rfl
  | some m => exact writeK_other g 2 m n (g.pc + 8) fun e => h (congrArg some e)

/-- The register of a call reads PC + 8 once the write is ready. -/
theorem kAt_linked (g h : Group) (n d : Nat) (hk : h.k = g.linked (some n)) (hn : n ≠ 0) (hd : g.dist + 2 ≤ d) : h.kAt d n = g.pc + 8 :=
  readK_writeK g { h with dist := d } 2 n (g.pc + 8) hn hk hd

/-- The three jumps. -/
theorem jumpOf_cases {i : Instr} {g : Group} {t : W64} {link : Option Nat} {op : Nat} (h : jumpOf i g = some (t, link, op)) :
    (∃ f, i = .jmp f ∧ t = g.readK f.a.toNat ∧ link = none ∧ op = 0x3C3) ∨ (∃ f, i = .jcall f ∧ t = g.readK f.a.toNat ∧ link = some f.d.toNat ∧ op = 0x3C4) ∨
      ∃ f, i = .ret f ∧ t = g.readK 31 ∧ link = none ∧ op = 0x3C2 := by
  unfold jumpOf at h
  split at h <;> cases h
  · exact .inl ⟨_, rfl, rfl, rfl, rfl⟩
  · exact .inr (.inl ⟨_, rfl, rfl, rfl, rfl⟩)
  · exact .inr (.inr ⟨_, rfl, rfl, rfl, rfl⟩)

/-- The one word of a jump has the jump's opcode. -/
theorem opcode_jump {i : Instr} {g : Group} {t : W64} {link : Option Nat} {op : Nat} (h : jumpOf i g = some (t, link, op)) :
    ((encode i).map fun x => (x.extractLsb' 52 10).toNat) = [op] := by
  obtain ⟨f, rfl, -, -, rfl⟩ | ⟨f, rfl, -, -, rfl⟩ | ⟨f, rfl, -, -, rfl⟩ := jumpOf_cases h
  · exact congrArg (fun x : BitVec 10 => [x.toNat]) (opcode_fformWord 0x3C3 f)
  · exact congrArg (fun x : BitVec 10 => [x.toNat]) (opcode_fformWord 0x3C4 f)
  · exact congrArg (fun x : BitVec 10 => [x.toNat]) (opcode_fformWord 0x3C2 f)

/-- The body of `jmp` and `ret` makes the registers read concrete in an open region (R268), and writes none. -/
theorem concreteKs_begin (g : Group) (w : Word) : ∃ r, (g.begin w {}).concreteKs w = { g.begin w {} with k := g.linked none, region := r } ∧ r.isSome = g.inreg := by
  obtain ⟨q, hq, hqs⟩ := concreteKs_form (g.begin w {}) w
  obtain ⟨hk, -⟩ := begin_kept g w {}
  refine ⟨q, ?_, hqs.trans (begin_inreg g w {})⟩
  rw [hq, Group.linked, ← hk]

/-- The body of `jcall` does the same, and writes its register. -/
theorem setK_concreteKs_begin (g : Group) (w : Word) (n : Nat) :
    ∃ r, ((g.begin w {}).concreteKs w).setK 2 n ((g.begin w {}).pc + 8) = { g.begin w {} with k := g.linked (some n), region := r } ∧ r.isSome = g.inreg := by
  obtain ⟨q, hq, hqs⟩ := concreteKs_form (g.begin w {}) w
  obtain ⟨r, hr, hrs⟩ := setK_shape { g.begin w {} with region := q } 2 n (g.pc + 8)
  obtain ⟨hk, -, -, -, -, hdist, -, -, hpc, -⟩ := begin_kept g w {}
  refine ⟨r, ?_, hrs.trans (hqs.trans (begin_inreg g w {}))⟩
  have hret : (g.begin w {}).pc + 8 = g.pc + 8 := by rw [hpc]
  rw [hq, hret, hr, writeK_k g { g.begin w {} with region := q } 2 n (g.pc + 8) hk hdist, Group.linked]

/-- A jump runs as a word that takes its target from the registers before the word, and whose body changes control registers and the region's tags only. -/
theorem exec_jump {i : Instr} {w : Word} {s : State} {t : W64} {link : Option Nat} {op : Nat} (hw : wordOf i = some w) (hj : jumpOf i s.g = some (t, link, op)) :
    ∃ body r, exec i s = runWord w {} body s ∧ body (s.begun w {}) = jumpTo t { s.begun w {} with g := { s.g.begin w {} with k := s.g.linked link, region := r } } ∧
      r.isSome = s.g.inreg ∧ (w.allWrites {}).v = [] := by
  have target : ∀ v n, (s.begun v {}).g.readK n = s.g.readK n := fun v n => Alike.readK (begin_alike s.g v {}) n
  obtain ⟨f, rfl, rfl, rfl, -⟩ | ⟨f, rfl, rfl, rfl, -⟩ | ⟨f, rfl, rfl, rfl, -⟩ := jumpOf_cases hj
  · obtain rfl : mkWord shapeJmp f = w := Option.some.inj hw
    obtain ⟨r, hg, hr⟩ := concreteKs_begin s.g (mkWord shapeJmp f)
    exact ⟨_, r, rfl, congrArg₂ (fun t g => jumpTo t { s.begun (mkWord shapeJmp f) {} with g := g }) (target _ _) hg, hr, rfl⟩
  · obtain rfl : mkWord shapeJcall f = w := Option.some.inj hw
    obtain ⟨r, hg, hr⟩ := setK_concreteKs_begin s.g (mkWord shapeJcall f) f.d.toNat
    exact ⟨_, r, rfl, congrArg₂ (fun t g => jumpTo t { s.begun (mkWord shapeJcall f) {} with g := g }) (target _ _) hg, hr, rfl⟩
  · obtain rfl : mkWord shapeRet f = w := Option.some.inj hw
    obtain ⟨r, hg, hr⟩ := concreteKs_begin s.g (mkWord shapeRet f)
    exact ⟨_, r, rfl, congrArg₂ (fun t g => jumpTo t { s.begun (mkWord shapeRet f) {} with g := g }) (target _ _) hg, hr, rfl⟩

/-- A jump to a target with clear reserved bits goes there, or the due path runs in its place. -/
theorem jump_done (w : Word) (body : State → State × Flow) (s : State) (K : Tbl KReg) (r : Option Region) (t : W64) (h : s.executes w {} = true) (hw : (w.allWrites {}).v = [])
    (hb : body (s.begun w {}) = jumpTo t { s.begun w {} with g := { s.g.begin w {} with k := K, region := r } }) (hr : r.isSome = s.g.inreg) (ht : pcBits t = t) :
    ∃ u, runWord w {} body s = .next u ∧ (s.g.switchAt t = none → WordDone s u w {} { s.g.aged with k := K } t (max 3 (w.stall + 1))) ∧
      ∀ p, s.g.switchAt t = some p → WordDone s u w {} { s.g.switched p t with k := K } (s.g.pathPc p) (max 3 (w.stall + 1)) := by
  rw [jumpTo, if_pos ht, begin_aged s.g w {} hw] at hb
  cases hs : s.g.switchAt t with
  | none =>
    obtain ⟨u, e, d⟩ := word_goto w {} body s s { s.g.aged with k := K } r _ t true h hb (executes_sound h) (executes_replay h) hr fun _ hin hle =>
      oldestPend_of_switchAt_none s.g t hs hin (by rwa [ht] at hle)
    rw [ht] at d
    exact ⟨u, e, fun _ => d, nofun⟩
  | some p =>
    obtain ⟨hin, hle, hold⟩ := (switchAt_eq_some_iff s.g t p).1 hs
    obtain ⟨u, e, d⟩ := word_switch w {} body s s { s.g.aged with k := K } r _ t p h hb (executes_sound h) (executes_replay h) hr hin (by rwa [ht]) hold
    rw [ht] at d
    refine ⟨u, e, nofun, fun p' hp => ?_⟩
    cases hp
    exact d

/-- A jump to any other target raises ALIGN at the jump, and nothing its body did remains. -/
theorem jump_traps (w : Word) (body : State → State × Flow) (s b : State) (t : W64) (h : s.executes w {} = true) (hb : body (s.begun w {}) = jumpTo t b) (ht : pcBits t ≠ t) :
    runWord w {} body s = answer (s.trap w 0x08 0 t) := by
  rw [runWord_executes w {} body s h, hb, jumpTo, if_neg ht]
  rfl

/-- Settles O45: the three jumps run as one word, which ends at its target, at the path that is due there, or in ALIGN. -/
theorem jumpTargets : Obligations.JumpTargets := by
  intro i w s t link op hw hj hwf
  obtain ⟨body, r, he, hb, hr, hv⟩ := exec_jump hw hj
  refine ⟨?_, opcode_jump hj, fun h => ⟨fun low high => ?_, fun reserved => ?_⟩⟩
  · rintro f rfl
    exact (formOk_bare_iff 0x3C2 f).1 (wf_form (i := .ret f) rfl hwf)
  · obtain ⟨u, hu, stays, switches⟩ := jump_done w body s _ r t h hv hb hr ((pcBits_eq_self_iff t).2 ⟨low, high⟩)
    have hk : u.g.k = s.g.linked link := by
      cases hs : s.g.switchAt t with
      | none => exact (stays hs).kept.k
      | some p => exact (switches p hs).kept.k
    rw [← hk] at stays switches
    refine ⟨u, he.trans hu, ?_, fun n hn => ?_, ?_⟩
    · cases hs : s.g.switchAt t with
      | none => exact stays hs
      | some p => exact switches p hs
    · rw [hk, linked_other s.g link n hn]
    · rintro n rfl hn d hd
      exact kAt_linked s.g u.g n d hk hn hd
  · rw [he]
    refine jump_traps w body s _ t h hb fun ht => ?_
    obtain ⟨low, high⟩ := (pcBits_eq_self_iff t).1 ht
    exact reserved.elim (· low) (· high)

/-- A word that only ages the paths leaves all else of the control thread alone. -/
theorem threadFrame_of_aged {s t : State} {w : Word} {ex : Extra} (h : WordDone s t w ex s.g.aged (w.next s.g.pc) (w.stall + 1)) : ThreadFrame s t w ex := by
  obtain ⟨units, past, kept⟩ := h
  have e := kept.system
  exact ⟨units, ⟨past.1, past.2, past.3, past.4⟩, ⟨e.1, e.2, e.3, e.4, e.5, e.6, e.7, e.8, e.9, e.10, e.11, e.12⟩, kept.names, kept.m0⟩

/-- `nop` ends where its body, which does nothing, leaves it. -/
theorem exec_nop (f : FForm) (s : State) (h : s.executes (mkWord shapeNop f) {} = true) :
    ∃ t, exec (.nop f) s = .next t ∧ WordDone s t (mkWord shapeNop f) {} s.g.aged ((mkWord shapeNop f).next s.g.pc) ((mkWord shapeNop f).stall + 1) :=
  ⟨_, runWord_done (mkWord shapeNop f) {} (fun s => (s, .done)) s (s.begun (mkWord shapeNop f) {}) h rfl (executes_sound (s := s) h), begun_done _ {} s h rfl _ _⟩

/-- Settles O46: no field of `nop` but STALL is used, and a word that does nothing only ages the paths. -/
theorem nopWord : Obligations.NopWord := by
  refine ⟨fun f => ?_, rfl, fun f w s hw h => ?_⟩
  · rw [wellFormed_nop, formOk_bare_iff]
  · obtain rfl : mkWord shapeNop f = w := Option.some.inj hw
    obtain ⟨t, run, done⟩ := exec_nop f s h
    exact ⟨t, run, threadFrame_of_aged done, rfl, done.kept.k, done.kept.m, done.kept.mode, done.kept.gens⟩

end Sys2Proof.Machine
end

section
/-! Encodings: the decoder reads back what the encoder writes, and drops no bit of what it reads (R37 to R54, R61, R67). -/

namespace Sys2Proof.Machine

open Sys2Proof

/-! ### Opcodes and the instructions they name -/


/-- The opcodes that name one instruction, by the literal they expect. -/
def soleOps : LitKind → List Nat
  | .none => [0x001, 0x002, 0x003, 0x004, 0x005, 0x006, 0x007, 0x008, 0x009, 0x00A, 0x00B, 0x00C, 0x00D, 0x00E, 0x00F, 0x010, 0x011, 0x012, 0x013, 0x014, 0x015, 0x016, 0x017, 0x018, 0x019, 0x01A, 0x01B, 0x01C, 0x01D, 0x01E, 0x041, 0x042, 0x043, 0x044, 0x045, 0x046, 0x047, 0x049, 0x04A, 0x04C, 0x04D, 0x04E, 0x04F, 0x050, 0x051, 0x052, 0x053, 0x05C, 0x05D, 0x05F, 0x101, 0x102, 0x103, 0x104, 0x105, 0x106, 0x107, 0x108, 0x109, 0x10A, 0x10B, 0x10C, 0x10D, 0x10E, 0x10F, 0x110, 0x111, 0x112, 0x114, 0x116, 0x117, 0x118, 0x119, 0x11A, 0x11D, 0x153, 0x155, 0x156, 0x158, 0x159, 0x15A, 0x15B, 0x15C, 0x201, 0x202, 0x203, 0x204, 0x208, 0x209, 0x20B, 0x20C, 0x210, 0x241, 0x242, 0x252, 0x253, 0x255, 0x261, 0x263, 0x264, 0x265, 0x266, 0x267, 0x268, 0x269, 0x26B, 0x274, 0x276, 0x277, 0x279, 0x282, 0x283, 0x290, 0x291, 0x300, 0x301, 0x302, 0x303, 0x304, 0x305, 0x306, 0x307, 0x308, 0x309, 0x30A, 0x30B, 0x30C, 0x30D, 0x341, 0x342, 0x343, 0x344, 0x345, 0x346, 0x347, 0x348, 0x349, 0x34A, 0x34B, 0x34C, 0x34D, 0x3C0, 0x3C1, 0x3C2, 0x3C3, 0x3C4, 0x3C5, 0x3C7, 0x3C8, 0x3D1, 0x3D2, 0x3D8, 0x3D9, 0x3DA, 0x3DB, 0x3DC, 0x3DD, 0x3DE, 0x3DF, 0x3E0, 0x3E1, 0x3E8, 0x3E9, 0x3EA, 0x3EC, 0x3ED, 0x3EE, 0x3EF, 0x3F0, 0x3F1, 0x3F2, 0x3F3, 0x3F8, 0x3F9]
  | .imm32 => [0x081, 0x082, 0x083, 0x084, 0x085, 0x086, 0x087, 0x089, 0x08A, 0x08C, 0x08D, 0x08E, 0x08F, 0x094, 0x095, 0x09C, 0x09D, 0x181, 0x182, 0x183, 0x184, 0x185, 0x186, 0x188, 0x196, 0x221, 0x222, 0x223, 0x224, 0x22A, 0x240, 0x381, 0x382, 0x383, 0x384, 0x385, 0x386, 0x387, 0x388, 0x389, 0x38A, 0x38B, 0x38D, 0x3C6, 0x3D0]
  | .wide => [0x38C]
  | .set => [0x205, 0x206, 0x207, 0x20D, 0x20E, 0x20F, 0x251, 0x254, 0x256, 0x270, 0x272]

/-- The opcodes whose RND field tells several instructions apart (R61). -/
def sharedOps : LitKind → List Nat
  | .none => [0x20A, 0x260, 0x262, 0x26A, 0x273, 0x275, 0x278, 0x280, 0x281, 0x284, 0x3EB]
  | .set => [0x250, 0x271]
  | _ => []

theorem named_of_contains {l : List Nat} {k : LitKind} {op : Nat} (h : ∀ x ∈ l, x ∈ soleOps k ∨ x ∈ sharedOps k) (hc : l.contains op = true) : op ∈ soleOps k ∨ op ∈ sharedOps k :=
  h op (List.contains_iff_mem.mp hc)

/-- An assigned opcode names one instruction, or several that RND tells apart. -/
theorem litKindOf_ops {op : Nat} {k : LitKind} (h : litKindOf op = some k) : op ∈ soleOps k ∨ op ∈ sharedOps k := by
  unfold litKindOf at h
  split at h
  · next hc =>
    cases h
    exact named_of_contains (by decide +kernel) hc
  · split at h
    · next hc =>
      cases h
      exact named_of_contains (by decide +kernel) hc
    · split at h
      · next hc =>
        cases h
        exact named_of_contains (by decide +kernel) hc
      · split at h
        · next hc =>
          cases h
          exact named_of_contains (by decide +kernel) hc
        · cases h

/-- The instruction has this opcode, these fields and this literal. -/
def Built (op : Nat) (f : FForm) (l : Literal) (i : Instr) : Prop := ∃ sh, shape i = some sh ∧ sh.op = op ∧ fieldsOf i = f ∧ literalOf i = l

theorem buildInstr_sole_none : ∀ op ∈ soleOps .none, ∀ f i, buildInstr op f .none = some i → Built op f .none i := by
  unfold soleOps
  repeat' refine List.forall_mem_cons.2 ⟨?_, ?_⟩
  case refine_2 => exact fun _ h => absurd h List.not_mem_nil
  all_goals intro f i h; cases h; exact ⟨_, rfl, rfl, rfl, rfl⟩

theorem buildInstr_sole_imm32 : ∀ op ∈ soleOps .imm32, ∀ f v i, buildInstr op f (.imm32 v) = some i → Built op f (.imm32 v) i := by
  unfold soleOps
  repeat' refine List.forall_mem_cons.2 ⟨?_, ?_⟩
  case refine_2 => exact fun _ h => absurd h List.not_mem_nil
  all_goals intro f v i h; cases h; exact ⟨_, rfl, rfl, rfl, rfl⟩

theorem buildInstr_sole_set : ∀ op ∈ soleOps .set, ∀ f v i, buildInstr op f (.set v) = some i → Built op f (.set v) i := by
  unfold soleOps
  repeat' refine List.forall_mem_cons.2 ⟨?_, ?_⟩
  case refine_2 => exact fun _ h => absurd h List.not_mem_nil
  all_goals intro f v i h; cases h; exact ⟨_, rfl, rfl, rfl, rfl⟩

theorem buildInstr_sole_wide : ∀ op ∈ soleOps .wide, ∀ f v i, buildInstr op f (.wide v) = some i → Built op f (.wide v) i := by
  unfold soleOps
  refine List.forall_mem_cons.2 ⟨fun f v i h => ?_, fun _ h => absurd h List.not_mem_nil⟩
  cases h
  exact ⟨_, rfl, rfl, rfl, rfl⟩

theorem rnd_cases (r : BitVec 3) : r = 0 ∨ r = 1 ∨ r = 2 ∨ r = 3 ∨ r = 4 ∨ r = 5 ∨ r = 6 ∨ r = 7 := by revert r; decide

theorem buildInstr_shared_none : ∀ op ∈ sharedOps .none, ∀ f i, buildInstr op f .none = some i → Built op f .none i := by
  unfold sharedOps
  repeat' refine List.forall_mem_cons.2 ⟨?_, ?_⟩
  case refine_2 => exact fun _ h => absurd h List.not_mem_nil
  all_goals
    rintro ⟨_, _, r⟩ i h
    rcases rnd_cases r with rfl | rfl | rfl | rfl | rfl | rfl | rfl | rfl <;> cases h <;> exact ⟨_, rfl, rfl, rfl, rfl⟩

theorem buildInstr_shared_set : ∀ op ∈ sharedOps .set, ∀ f v i, buildInstr op f (.set v) = some i → Built op f (.set v) i := by
  unfold sharedOps
  repeat' refine List.forall_mem_cons.2 ⟨?_, ?_⟩
  case refine_2 => exact fun _ h => absurd h List.not_mem_nil
  all_goals
    rintro ⟨_, _, r⟩ v i h
    rcases rnd_cases r with rfl | rfl | rfl | rfl | rfl | rfl | rfl | rfl <;> cases h <;> exact ⟨_, rfl, rfl, rfl, rfl⟩

/-- What the opcode map builds has the opcode, the fields and the literal it was built from. -/
theorem buildInstr_built {op : Nat} {k : LitKind} {f : FForm} {w : W64} {i : Instr} (hk : litKindOf op = some k)
    (h : buildInstr op f (literalRead k w) = some i) : Built op f (literalRead k w) i := by
  cases litKindOf_ops hk with
  | inl sole =>
    cases k with
    | none => exact buildInstr_sole_none op sole f i h
    | imm32 => exact buildInstr_sole_imm32 op sole f _ i h
    | wide => exact buildInstr_sole_wide op sole f _ i h
    | set => exact buildInstr_sole_set op sole f _ i h
  | inr shared =>
    cases k with
    | none => exact buildInstr_shared_none op shared f i h
    | imm32 => exact absurd shared List.not_mem_nil
    | wide => exact absurd shared List.not_mem_nil
    | set => exact buildInstr_shared_set op shared f _ i h

theorem rnd_of_contains {f : FForm} {k : Nat} (h : [k].contains f.rnd.toNat = true) : f.rnd = BitVec.ofNat 3 k := by
  simp only [List.contains_cons, List.contains_nil, Bool.or_false, beq_iff_eq] at h
  rw [← h, BitVec.ofNat_toNat, BitVec.setWidth_eq]

/-- The kind of a literal (Table 3-6). -/
def Literal.kind : Literal → LitKind
  | .none => .none
  | .imm32 _ => .imm32
  | .wide _ => .wide
  | .set _ => .set

/-- The opcode map gives an instruction back from its opcode, fields and literal. -/
theorem buildInstr_shape (i : Instr) (sh : Shape) (hs : shape i = some sh) (hf : sh.rnd.contains (fieldsOf i).rnd.toNat = true) :
    litKindOf sh.op = some (literalOf i).kind ∧ sh.op < 1024 ∧ buildInstr sh.op (fieldsOf i) (literalOf i) = some i := by
  cases i <;> cases hs
  case pref f | prefL1 f | qpop f | qpopTry f | qlenVb f | qlenVf f | qlenB f | qlenF f | qlenH f | qlenR f | evpop f | evpopWait f | hnewB f | hnewQ f | hnewJ f | preserve f | preserveRel f
    | tlbinv f | tlbinvAll f | barExpect f | barExpectN f | barArrive f | barArriveX f | jstat f | jstatS f | kwmode f | kwmodeFlags f | kwmodeCtl f
    | xcast f _ | xcastT f _ | tpatch f _ | tpatchAdd f _ =>
    obtain ⟨_⟩ := f
    cases rnd_of_contains hf
    exact ⟨rfl, by decide, rfl⟩
  all_goals exact ⟨rfl, by decide, rfl⟩

/-! ### Bits of a word -/

theorem getLsbD_field {n : Nat} (w : BitVec (n + 2)) (i : Nat) : w.getLsbD i = (w.extractLsb' i 1).getLsbD 0 := by simp

theorem ofBool_getLsbD {n : Nat} (w : BitVec n) (i : Nat) : BitVec.ofBool (w.getLsbD i) = w.extractLsb' i 1 := by
  ext j hj
  obtain rfl : j = 0 := by omega
  simp

/-- The fields of an F-form word are those it was made of. -/
theorem fformOf_fformWord (op : Nat) (f : FForm) : fformOf (fformWord op f) = f := by
  obtain ⟨⟩ := f
  simp only [fformOf, bitsOf, getLsbD_field, fformWord, BitVec.extractLsb'_append_eq_of_le, BitVec.extractLsb'_append_eq_right, Nat.reduceSub, Nat.reduceLeDiff]
  simp

theorem class_fformWord (op : Nat) (f : FForm) : bitsOf (fformWord op f) 62 2 = 0 := by
  simp only [bitsOf, fformWord, BitVec.extractLsb'_append_eq_of_le, Nat.reduceSub, Nat.reduceLeDiff, BitVec.extractLsb'_eq_self]
  rfl

/-- An F-form word is made of its opcode and its fields. -/
theorem fformWord_fformOf (w : W64) (h : bitsOf w 62 2 = 0) : fformWord (bitsOf w 52 10).toNat (fformOf w) = w := by
  have h' : (0#2) = w.extractLsb' 62 2 := h.symm
  simp only [fformWord, fformOf, bitsOf, ofBool_getLsbD, BitVec.ofNat_toNat, BitVec.setWidth_eq, h']
  simp only [BitVec.extractLsb'_append_extractLsb'_eq_extractLsb']
  exact BitVec.extractLsb'_eq_self

/-- A literal word fits its kind and has clear reserved bits, and reads as the literal it was made of. -/
theorem literalRead_literalWord (l : Literal) (w : W64) (h : literalWord l = [w]) : literalFits l.kind w = true ∧ literalClean l.kind w = true ∧ literalRead l.kind w = l := by
  cases l <;> cases h <;>
    simp only [Literal.kind, literalFits, literalClean, literalRead, bitsOf, setLitOf, BitVec.extractLsb'_append_eq_of_le, BitVec.extractLsb'_append_eq_right, Nat.reduceSub, Nat.reduceLeDiff] 
  all_goals simp

/-- A literal word of its kind with clear reserved bits is made of the literal that it reads as. -/
theorem literalWord_literalRead (k : LitKind) (w : W64) (hf : literalFits k w = true) (hc : literalClean k w = true) : literalWord (literalRead k w) = [w] := by
  cases k <;> simp only [literalFits, literalClean, Bool.and_eq_true, beq_iff_eq, Bool.and_false, Bool.false_eq_true, bitsOf] at hf hc
  case imm32 =>
    have fields : (w.extractLsb' 62 2 ++ w.extractLsb' 60 2 ++ w.extractLsb' 32 28 ++ w.extractLsb' 0 32 : BitVec 64) = w := by
      simp only [BitVec.extractLsb'_append_extractLsb'_eq_extractLsb']
      exact BitVec.extractLsb'_eq_self
    rw [hf.1, hf.2, hc] at fields
    exact congrArg (fun x => [x]) fields
  case wide =>
    have fields : (w.extractLsb' 62 2 ++ w.extractLsb' 60 2 ++ w.extractLsb' 0 60 : BitVec 64) = w := by
      simp only [BitVec.extractLsb'_append_extractLsb'_eq_extractLsb']
      exact BitVec.extractLsb'_eq_self
    rw [hf.1, hf.2] at fields
    exact congrArg (fun x => [x]) fields
  case set =>
    have fields : (w.extractLsb' 62 2 ++ w.extractLsb' 60 2 ++ w.extractLsb' 44 16 ++ w.extractLsb' 28 16 ++ w.extractLsb' 24 4 ++ w.extractLsb' 16 8 ++ w.extractLsb' 8 8 ++ w.extractLsb' 4 4
        ++ w.extractLsb' 0 4 : BitVec 64) = w := by
      simp only [BitVec.extractLsb'_append_extractLsb'_eq_extractLsb']
      exact BitVec.extractLsb'_eq_self
    rw [hf.1, hf.2, hc] at fields
    exact congrArg (fun x => [x]) fields

/-! ### Halves of a pair word -/

theorem pairOpOf_pairCode (op : PairOp) : pairOpOf (pairCode op).toNat = some op := by cases op <;> rfl

theorem pairCode_of_pairOpOf {c : BitVec 7} {op : PairOp} (h : pairOpOf c.toNat = some op) : pairCode op = c := by
  revert c op
  decide +kernel

/-- One half of a pair word, read from its own 31 bits (Table 3-8). -/
def halfFields (x : BitVec 31) : Option PHalf :=
  (pairOpOf (x.extractLsb' 24 7).toNat).map fun op =>
    { op := op, stall := x.extractLsb' 22 2, pred := x.extractLsb' 20 2, d := x.extractLsb' 12 8, s := x.extractLsb' 4 8,
      lrs := x.getLsbD 3, lrd := x.getLsbD 2, xf2 := x.extractLsb' 0 2 }

theorem extractLsb'_half (w : W64) (lo a n : Nat) (h : a + n ≤ 31) : (w.extractLsb' lo 31).extractLsb' a n = w.extractLsb' (lo + a) n := by
  ext i hi
  simp only [BitVec.getElem_extractLsb', BitVec.getLsbD_extractLsb', Nat.add_assoc, show a + i < 31 by omega, decide_true, Bool.true_and]

theorem halfOf_eq (w : W64) (lo : Nat) : halfOf w lo = halfFields (w.extractLsb' lo 31) := by
  simp only [halfOf, halfFields, bitsOf, BitVec.getLsbD_extractLsb', Nat.reduceLT, decide_true, Bool.true_and]
  rw [extractLsb'_half w lo 24 7 (by decide), extractLsb'_half w lo 22 2 (by decide), extractLsb'_half w lo 20 2 (by decide), extractLsb'_half w lo 12 8 (by decide),
    extractLsb'_half w lo 4 8 (by decide), extractLsb'_half w lo 0 2 (by decide)]
  rfl

theorem halfFields_halfBits (h : PHalf) : halfFields (halfBits h) = some h := by
  obtain ⟨⟩ := h
  simp only [halfFields, halfBits, getLsbD_field, BitVec.extractLsb'_append_eq_of_le, BitVec.extractLsb'_append_eq_right, Nat.reduceSub, Nat.reduceLeDiff]
  simp [pairOpOf_pairCode]

theorem halfBits_of_halfFields {x : BitVec 31} {h : PHalf} (hx : halfFields x = some h) : halfBits h = x := by
  obtain ⟨op, hop, rfl⟩ := Option.map_eq_some_iff.1 hx
  simp only [halfBits, pairCode_of_pairOpOf hop, ofBool_getLsbD, BitVec.extractLsb'_append_extractLsb'_eq_extractLsb']
  exact BitVec.extractLsb'_eq_self

/-- A pair word is made of its class and its two halves. -/
theorem pair_fields (w : W64) (h : bitsOf w 62 2 = 1) : (1#2 ++ w.extractLsb' 31 31 ++ w.extractLsb' 0 31 : BitVec 64) = w := by
  have class_ : (1#2) = w.extractLsb' 62 2 := h.symm
  rw [class_]
  simp only [BitVec.extractLsb'_append_extractLsb'_eq_extractLsb']
  exact BitVec.extractLsb'_eq_self

theorem class_pair (x y : BitVec 31) : bitsOf (1#2 ++ x ++ y : BitVec 64) 62 2 = 1 ∧ (1#2 ++ x ++ y : BitVec 64).extractLsb' 31 31 = x ∧ (1#2 ++ x ++ y : BitVec 64).extractLsb' 0 31 = y := by
  simp only [bitsOf, BitVec.extractLsb'_append_eq_of_le, BitVec.extractLsb'_append_eq_right, Nat.reduceSub, Nat.reduceLeDiff]
  exact ⟨rfl, trivial, trivial⟩

/-! ### Decoding and encoding -/

theorem checked_ok_iff (i j : Instr) : checked i = .ok j ↔ i.wellFormed = true ∧ i = j := by
  unfold checked Instr.wellFormed
  cases opcodeOk i <;> cases pairRuleOk i <;> simp

theorem encode_shape {i : Instr} {sh : Shape} (h : shape i = some sh) : encode i = fformWord sh.op (fieldsOf i) :: literalWord (literalOf i) := by
  unfold encode
  split
  · cases h
  · rw [h]

theorem rnd_of_wellFormed {i : Instr} {sh : Shape} (hs : shape i = some sh) (h : i.wellFormed = true) : sh.rnd.contains (fieldsOf i).rnd.toNat = true := by
  have hf := wf_form hs h
  simp only [formOk, Bool.and_eq_true] at hf
  exact hf.1.1.1.1.1.1.1.1.1.2

/-- An F-form word decodes to the instruction of its opcode, fields and literal. -/
theorem decode_fformWord {i : Instr} {sh : Shape} {w1 : W64} (hs : shape i = some sh) (hwf : i.wellFormed = true) (hl : literalOf i = .none ∨ literalWord (literalOf i) = [w1]) :
    decode (fformWord sh.op (fieldsOf i)) w1 = .ok i := by
  obtain ⟨hk, hop, hb⟩ := buildInstr_shape i sh hs (rnd_of_wellFormed hs hwf)
  have hlit : ((literalOf i).kind != .none && !literalFits (literalOf i).kind w1) = false ∧ literalClean (literalOf i).kind w1 = true ∧ literalRead (literalOf i).kind w1 = literalOf i := by
    rcases hl with hl | hl
    · rw [hl]; exact ⟨rfl, rfl, rfl⟩
    · obtain ⟨h1, h2, h3⟩ := literalRead_literalWord _ w1 hl
      exact ⟨by rw [h1, Bool.not_true, Bool.and_false], h2, h3⟩
  obtain ⟨h1, h2, h3⟩ := hlit
  have hopn : (bitsOf (fformWord sh.op (fieldsOf i)) 52 10).toNat = sh.op := by
    rw [bitsOf, opcode_fformWord, BitVec.toNat_ofNat]
    omega
  unfold decode
  rw [class_fformWord]
  simp only [decodeFull, hopn, hk, h1, h2, h3, fformOf_fformWord, hb, Bool.not_true, Bool.false_eq_true, if_false]
  exact (checked_ok_iff i i).2 ⟨hwf, rfl⟩

/-- Settles O43: the decoder reads back the opcode, the fields and the literal that the encoder wrote, and the opcode map gives the instruction of these. -/
theorem decodeOfEncode : Obligations.DecodeOfEncode := by
  intro i w0 w1 ws hwf he hws
  by_cases hp : ∃ h0 h1, i = .pairWord h0 h1
  · obtain ⟨h0, h1, rfl⟩ := hp
    obtain ⟨rfl, -⟩ := List.cons.inj he
    obtain ⟨hc, hhi, hlo⟩ := class_pair (halfBits h0) (halfBits h1)
    unfold decode
    rw [hc, halfOf_eq, halfOf_eq, hhi, hlo, halfFields_halfBits, halfFields_halfBits]
    exact (checked_ok_iff _ _).2 ⟨hwf, rfl⟩
  · cases hs : shape i with
    | none =>
      unfold encode at he
      split at he
      · exact absurd ⟨_, _, rfl⟩ hp
      · rw [hs] at he; cases he
    | some sh =>
      rw [encode_shape hs] at he
      obtain ⟨rfl, rfl⟩ := List.cons.inj he
      refine decode_fformWord hs hwf (hws.imp_left fun h => ?_)
      cases hl : literalOf i with
      | none => rfl
      | imm32 v | wide v | set v => rw [hl] at h; cases h

/-- Settles O44: the decoder builds its instruction from all the bits of the words it reads, so the encoder writes the same words. -/
theorem encodeOfDecode : Obligations.EncodeOfDecode := by
  intro i w0 w1 h
  unfold decode at h
  split at h
  case h_1 hclass =>
    have hc : bitsOf w0 62 2 = 0 := BitVec.eq_of_toNat_eq hclass
    simp only [decodeFull] at h
    split at h
    · cases h
    · next k hk =>
      split at h
      · cases h
      · next hfit =>
        split at h
        · cases h
        · next hclean =>
          split at h
          · cases h
          · next j hj =>
            obtain ⟨hwf, rfl⟩ := (checked_ok_iff _ _).1 h
            obtain ⟨sh, hs, hop, hf, hl⟩ := buildInstr_built hk hj
            refine ⟨hwf, ?_⟩
            rw [encode_shape hs, hop, hf, hl, fformWord_fformOf w0 hc]
            by_cases hn : k = .none
            · subst hn; exact .inl rfl
            · rw [literalWord_literalRead k w1 (by simpa [hn] using hfit) (by simpa using hclean)]
              exact .inr rfl
  case h_2 hclass =>
    have hc : bitsOf w0 62 2 = 1 := BitVec.eq_of_toNat_eq hclass
    split at h
    · next h0 h1 e0 e1 =>
      obtain ⟨hwf, rfl⟩ := (checked_ok_iff _ _).1 h
      rw [halfOf_eq] at e0 e1
      refine ⟨hwf, .inl ?_⟩
      simp only [encode, halfBits_of_halfFields e0, halfBits_of_halfFields e1]
      exact congrArg (fun x => [x]) (pair_fields w0 hc)
    · cases h
  case h_3 => cases h

end Sys2Proof.Machine
end

section
/-! SUPPORT. Vector words: what each runs, and that each completes with its result (O1, O2, O3). -/

namespace Sys2Proof.Machine
open Sys2Proof

theorem type_pair (w : Word) : elemPair w.type = (true && codePair w.f.xf.toNat) := (codePair_type _).symm

/-- `vadd` and `vsub` are words of their own; every other integer instruction runs its result as a vector word writing D. -/
theorem integer_exec (i : Instr) (w : Word) (s : State) (body : Group → Mask → VecRes) (hw : wordOf i = some w) (h : integerResult i w s = some body) :
    ∃ sh, shape i = some sh ∧ oneVector sh = true ∧
      ((∃ sub, vecD sh = true ∧ exec i s = runAdd sub w s ∧ body = intResult (if sub then .sub else .add) w) ∨
        exec i s = runVector w body s ∧ ∀ g act, (body g act).n = w.f.d.toNat ∧ (body g act).pair = (vecD sh && codePair w.f.xf.toNat)) := by
  unfold integerResult at h
  split at h <;> cases h <;> (have e := Option.some.inj hw; subst e) <;> refine ⟨_, rfl, rfl, ?_⟩
  case h_1 | h_2 | h_3 => exact .inl ⟨false, rfl, rfl, rfl⟩
  case h_4 | h_5 | h_6 => exact .inl ⟨true, rfl, rfl, rfl⟩
  case h_58 | h_59 => exact .inr ⟨rfl, fun _ _ => ⟨rfl, rfl⟩⟩
  all_goals exact .inr ⟨rfl, fun _ _ => ⟨rfl, type_pair _⟩⟩

/-- Settles O1: `vadd` and `vsub` by `runAdd_word`, the others by `runVector_word`. -/
theorem integerVectorWords : Obligations.IntegerVectorWords := by
  intro i w s body hw hb hwf hx
  obtain ⟨sh, hs, hO, ⟨sub, hd, he, rfl⟩ | ⟨he, hf⟩⟩ := integer_exec i w s body hw hb
  · exact he ▸ runAdd_word sub i w s sh hs hw hwf hx hO hd
  · exact he ▸ runVector_word i w s body sh hs hw hwf hx hO (fun _ e => integerResult_congr i w s body hb e _)
      (integerResult_plain i w s body hb _ _) (hf _ _).1 (hf _ _).2


theorem float_exec (i : Instr) (w : Word) (s : State) (body : Group → Mask → VecRes) (hw : wordOf i = some w) (h : floatResult i w = some body) :
    ∃ sh, shape i = some sh ∧ oneVector sh = true ∧ exec i s = runVector w body s ∧
      ∀ g act, (body g act).n = w.f.d.toNat ∧ (body g act).pair = (vecD sh && codePair w.f.xf.toNat) := by
  unfold floatResult at h
  split at h <;> cases h <;> (have e := Option.some.inj hw; subst e) <;> refine ⟨_, rfl, rfl, rfl, fun _ _ => ⟨rfl, ?_⟩⟩
  case h_25 | h_26 => rfl
  all_goals exact type_pair _

theorem move_exec (i : Instr) (w : Word) (s : State) (body : Group → Mask → VecRes) (hw : wordOf i = some w) (h : moveResult i w = some body) :
    ∃ sh, shape i = some sh ∧ oneVector sh = true ∧
      ((∃ lanes f, vecD sh = true ∧ exec i s = runPermute w lanes f s ∧ body = permResult w f) ∨
        exec i s = runVector w body s ∧ ∀ g act, (body g act).n = w.f.d.toNat ∧ (body g act).pair = (vecD sh && codePair w.f.xf.toNat)) := by
  unfold moveResult at h
  split at h <;> cases h <;> (have e := Option.some.inj hw; subst e) <;> refine ⟨_, rfl, rfl, ?_⟩
  case h_5 => exact .inl ⟨fun _ b => if b.testBit 31 then [] else [b % 32], permLane, rfl, rfl, rfl⟩
  case h_6 => exact .inl ⟨fun l b => [l ^^^ (b % 32)], xorLane, rfl, rfl, rfl⟩
  case h_7 | h_8 => exact .inl ⟨fun l b => [(l + b % 32) % 32], rotLane, rfl, rfl, rfl⟩
  case h_9 => exact .inl ⟨fun l _ => [l], shflLane, rfl, rfl, rfl⟩
  case h_10 => exact .inl ⟨fun l _ => [l], shflImmLane, rfl, rfl, rfl⟩
  all_goals exact .inr ⟨rfl, fun _ _ => ⟨rfl, type_pair _⟩⟩

/-- Settles O2: each is a vector word with one result. -/
theorem floatVectorWords : Obligations.FloatVectorWords := by
  intro i w s body hw hb hwf hx hplain
  obtain ⟨sh, hs, hO, he, hf⟩ := float_exec i w s body hw hb
  exact he ▸ runVector_word i w s body sh hs hw hwf hx hO (fun _ e => floatResult_congr i w body hb e _) hplain (hf _ _).1 (hf _ _).2

/-- Settles O3: permutes by `runPermute_word`, the others by `runVector_word`. -/
theorem moveVectorWords : Obligations.MoveVectorWords := by
  intro i w s body hw hb hwf hx hplain
  obtain ⟨sh, hs, hO, ⟨lanes, f, hd, he, rfl⟩ | ⟨he, hf⟩⟩ := move_exec i w s body hw hb
  · exact he ▸ runPermute_word lanes f i w s sh hs hw hwf hx hO hd
  · exact he ▸ runVector_word i w s body sh hs hw hwf hx hO (fun _ e => moveResult_congr i w body hb e _) hplain (hf _ _).1 (hf _ _).2

end Sys2Proof.Machine
end

section
/-! SUPPORT. Words of the control thread: control registers and masks (O4, O5). -/

namespace Sys2Proof.Machine
open Sys2Proof

/-- `ktime` reads TIME of the partition, which the start of the word leaves alone. -/
theorem time_begun (s : State) (w : Word) (ex : Extra) : (s.begun w ex).time = s.time := by
  obtain ⟨v, r, u, h, _⟩ := begin_fields s.g w ex
  simp only [State.time, State.part, State.begun, h]

theorem ktime_done (f : FForm) (s : State) (h : s.executes (mkWord shapeKtime f) {} = true) :
    ∃ t, execKtime f s = .next t ∧ ControlDone s t (mkWord shapeKtime f) {} s.time := by
  refine control_done (mkWord shapeKtime f) {} _ s s.time _ h rfl ?_ (setK_form' _ _ _ _)
  rw [← time_begun s (mkWord shapeKtime f) {}]
  rfl

theorem flagsOut_begin (g : Group) (w : Word) (ex : Extra) : (g.begin w ex).flagsOut = g.flagsOut := by
  obtain ⟨v, r, u, h, _⟩ := begin_fields g w ex
  rw [h]; rfl

theorem kmode_done (f : FForm) (s : State) (hf : s.g.flagsOut = false) (h : s.executes (mkWord shapeKmode f) {} = true) :
    ∃ t, execKmode f s = .next t ∧ ControlDone s t (mkWord shapeKmode f) {} s.g.mode := by
  refine control_done (mkWord shapeKmode f) {} _ s s.g.mode _ h rfl ?_ (setK_form' _ _ _ _)
  simp only [begun_g, flagsOut_begin, hf, Bool.false_eq_true, if_false, (begin_alike s.g _ {}).mode]
  rfl

theorem mget_done (w : Word) (s : State) (h : s.executes w {} = true) (hw : (w.allWrites {}).v = []) :
    ∃ t, runMaskToK BitVec.toNat w s = .next t ∧ ControlDone s t w {} ((s.g.readM w.f.a.toNat).zeroExtend 64) := by
  have e : (s.g.readM w.f.a.toNat).zeroExtend 64 = BitVec.ofNat 64 (s.g.readM w.f.a.toNat).toNat := by bv_omega
  rw [e]
  exact maskToK_done BitVec.toNat w s h hw

/-- Settles O4: each arm by the law of what it runs. -/
theorem controlWords : Obligations.ControlWords := by
  intro i w s x hw hx h hroom
  unfold controlValue at hx
  simp only at hx
  split at hx
  case h_47 => cases hx
  all_goals (have e := Option.some.inj hw; subst e)
  case h_1 | h_2 | h_3 => cases hx; exact runKAdd_done false _ s h rfl
  case h_4 | h_5 | h_6 => cases hx; exact runKAdd_done true _ s h rfl
  case h_28 | h_29 | h_30 => cases hx; rw [← kminmax_kmin]; exact runK_done _ _ _ s h rfl
  case h_31 | h_32 | h_33 => cases hx; rw [← kminmax_kmax]; exact runK_done _ _ _ s h rfl
  case h_37 | h_38 | h_39 => cases hx; exact runKCompare_done _ s h rfl hroom
  case h_40 => cases hx; exact mget_done _ s h rfl
  case h_41 => cases hx; exact maskToK_done popcount _ s h rfl
  case h_42 => cases hx; exact maskToK_done lowest _ s h rfl
  case h_43 => exact kget_done _ s x h rfl hx
  case h_44 => cases hx; exact ktime_done _ s h
  case h_45 =>
    split at hx
    · cases hx
    · next hf => cases hx; exact kmode_done _ s (by simpa using hf) h
  case h_46 => cases hx; exact ksys_done _ s h
  case h_7 | h_8 | h_9 => cases hx; exact runK_done .signed (fun a b => a * b) _ s h rfl
  case h_10 | h_11 | h_12 => cases hx; exact runK_done .logic (fun a b => a &&& b) _ s h rfl
  case h_13 | h_14 | h_15 => cases hx; exact runK_done .logic (fun a b => a ||| b) _ s h rfl
  case h_16 | h_17 | h_18 => cases hx; exact runK_done .logic (fun a b => a ^^^ b) _ s h rfl
  case h_19 | h_20 | h_21 => cases hx; exact runK_done .shift kShl _ s h rfl
  case h_22 | h_23 | h_24 => cases hx; exact runK_done .shift kShr _ s h rfl
  case h_25 | h_26 | h_27 => cases hx; exact runK_done .shift kSra _ s h rfl
  case h_34 | h_35 | h_36 => cases hx; exact runK_done .signed (fun _ b => b) _ s h rfl

theorem mset_done (f : FForm) (s : State) (h : s.executes (mkWord shapeMset f) {} = true) :
    ∃ t, execMset f s = .next t ∧ MaskDone s t (mkWord shapeMset f) ((s.g.readK f.a.toNat).truncate 32) := by
  obtain ⟨q, hq⟩ := concreteKs_region (s.g.begin (mkWord shapeMset f) {}) (mkWord shapeMset f)
  refine mask_done (mkWord shapeMset f) _ s ((s.g.readK f.a.toNat).truncate 32) _ h rfl ?_ ⟨q, rfl⟩
  simp only [begun_g, Alike.readK (begin_alike s.g _ {}), hq]
  rfl

/-- Settles O5. -/
theorem maskWords : Obligations.MaskWords := by
  intro i w s x hw hx h
  unfold maskValue at hx
  simp only at hx
  split at hx
  case h_8 => cases hx
  all_goals (have e := Option.some.inj hw; subst e)
  case h_1 => cases hx; exact runMask_done (fun a b => a &&& b) _ s h rfl
  case h_2 => cases hx; exact runMask_done (fun a b => a ||| b) _ s h rfl
  case h_3 => cases hx; exact runMask_done (fun a b => a ^^^ b) _ s h rfl
  case h_4 => cases hx; exact runMask_done (fun a b => a &&& ~~~b) _ s h rfl
  case h_5 => cases hx; exact runMask_done (fun a _ => ~~~a) _ s h rfl
  case h_6 => cases hx; exact runMask_done (fun a _ => a) _ s h rfl
  case h_7 => cases hx; exact mset_done _ s h

end Sys2Proof.Machine
end

section
/-! SUPPORT. Branches, jumps and calls, and the words of MODE, GANG, PAIR and the system registers (O6, O7). -/

namespace Sys2Proof.Machine
open Sys2Proof

/-! ### Branches, jumps and calls -/

/-- Where the body of a branch leaves control. -/
def branchFlow (taken : Bool) (target : W64) : Flow := if taken then .goto target true else .done

/-- A body that leaves the link register and the tags of a region, and goes to its target or on. -/
structure BranchBody (s : State) (w : Word) (taken : Bool) (target : W64) (link : Option Nat) (body : State → State × Flow) (r : Option Region) : Prop where
  runs     : body (s.begun w {}) = ({ s.begun w {} with g := { s.g.begin w {} with k := s.g.linked link, region := r } }, branchFlow taken target)
  region   : r.isSome = s.g.inreg
  writes   : (w.allWrites {}).v = []
  releases : w.releases {} = []

theorem begin_linked (g : Group) (w : Word) : g.begin w {} = { g.begin w {} with k := g.linked none, region := (g.begin w {}).region } := by
  obtain ⟨hk, -⟩ := begin_kept g w {}
  rw [Group.linked, ← hk]

theorem branchIf_begun (taken : Bool) (offset : W64) (s : State) (w : Word) (r : Option Region) :
    branchIf taken offset { s.begun w {} with g := { s.g.begin w {} with region := r } } =
      ({ s.begun w {} with g := { s.g.begin w {} with k := s.g.linked none, region := r } }, branchFlow taken (pcBits (s.g.pc + 8 * offset))) := by
  obtain ⟨hk, -, -, -, -, -, -, -, hpc, -⟩ := begin_kept s.g w {}
  cases taken <;> simp [branchIf, branchFlow, branchTarget, hpc, Group.linked, ← hk]

/-- A jump through a register runs as such a body. -/
theorem jump_body {i : Instr} {w : Word} {s : State} {t : W64} {link : Option Nat} {op : Nat} (hw : wordOf i = some w) (hj : jumpOf i s.g = some (t, link, op)) (ht : pcBits t = t)
    (hrel : w.releases {} = []) : ∃ body r, exec i s = runWord w {} body s ∧ BranchBody s w true t link body r := by
  obtain ⟨body, r, he, hb, hr, hv⟩ := exec_jump hw hj
  rw [jumpTo, if_pos ht] at hb
  exact ⟨body, r, he, hb, hr, hv, hrel⟩

/-- A conditional branch compares two control registers, for whose constraint an open region has room. -/
theorem bcc_body (offset : W64) (w : Word) (s : State) (hroom : s.g.roomForConstraint = true) (hw : (w.allWrites {}).v = []) (hrel : w.releases {} = []) :
    ∃ body r, runBcc offset w s = runWord w {} body s ∧
      BranchBody s w (condWord w.f.xf.toNat (s.g.readK w.f.a.toNat) (s.g.readK w.f.b.toNat)) (pcBits (s.g.pc + 8 * offset)) none body r := by
  obtain ⟨r, hr, hrs⟩ := recordK_shape w (s.g.readK w.f.a.toNat) (s.g.readK w.f.b.toNat) (condWord w.f.xf.toNat (s.g.readK w.f.a.toNat) (s.g.readK w.f.b.toNat)) (s.g.begin w {})
    (room_begin _ _ _ hroom)
  refine ⟨_, r, rfl, ?_, hrs.trans (begin_inreg s.g w {}), hw, hrel⟩
  simp only [begun_g, Alike.readK (begin_alike s.g w {}), hr]
  exact branchIf_begun _ offset s w r

/-- A branch on lanes in a mask. -/
theorem mask_branch_body (taken : Group → Bool) (offset : W64) (w : Word) (s : State) (hc : ∀ g', s.g.Alike g' → taken g' = taken s.g) (hw : (w.allWrites {}).v = []) (hrel : w.releases {} = []) :
    BranchBody s w (taken s.g) (pcBits (s.g.pc + 8 * offset)) none (fun s => branchIf (taken s.g) offset s) (s.g.begin w {}).region := by
  refine ⟨?_, begin_inreg s.g w {}, hw, hrel⟩
  simp only [begun_g, hc _ (begin_alike s.g w {})]
  exact branchIf_begun _ offset s w _

/-- `bra` goes to its target and does nothing else. -/
theorem bra_body (f : FForm) (s : State) : ∃ body r, execBra f s = runWord (mkWord shapeBra f) {} body s ∧
    BranchBody s (mkWord shapeBra f) true (pcBits (s.g.pc + 8 * (f.d ++ f.a ++ f.b).signExtend 64)) none body r := by
  refine ⟨_, (s.g.begin (mkWord shapeBra f) {}).region, rfl, ?_, begin_inreg s.g _ {}, rfl, releases_nil _ rfl rfl rfl⟩
  exact branchIf_begun true _ s _ _

/-- `call` writes k31 and goes to its target. -/
theorem call_body (f : FForm) (s : State) : ∃ body r, execCall f s = runWord (mkWord shapeCall f) {} body s ∧
    BranchBody s (mkWord shapeCall f) true (pcBits (s.g.pc + 8 * (f.d ++ f.a ++ f.b).signExtend 64)) (some 31) body r := by
  obtain ⟨r, hr, hrs⟩ := setK_shape (s.g.begin (mkWord shapeCall f) {}) 2 31 (s.g.pc + 8)
  obtain ⟨hk, -, -, -, -, hdist, -, -, hpc, -⟩ := begin_kept s.g (mkWord shapeCall f) {}
  refine ⟨_, r, rfl, ?_, hrs.trans (begin_inreg s.g _ {}), rfl, releases_nil _ rfl rfl rfl⟩
  simp only [begun_g, hpc, branchTarget, Group.linked, branchFlow, if_true, show (mkWord shapeCall f).lat = 2 from rfl]
  rw [hr, writeK_k s.g (s.g.begin (mkWord shapeCall f) {}) 2 31 (s.g.pc + 8) hk hdist]
  rfl

/-- A branch, jump or call runs as such a body. -/
theorem branch_exec {i : Instr} {w : Word} {s : State} {taken : Bool} {target : W64} {link : Option Nat} (hw : wordOf i = some w) (hb : branchOf i w s.g = some (taken, target, link))
    (hroom : s.g.roomForConstraint = true) (ht : pcBits target = target) :
    ∃ body r, exec i s = runWord w {} body s ∧ BranchBody s w taken target link body r := by
  unfold branchOf at hb
  simp only at hb
  split at hb
  case h_10 => cases hb
  all_goals (have e := Option.some.inj hw; subst e; cases hb)
  case h_1 => exact bra_body _ s
  case h_2 => exact call_body _ s
  case h_3 f => exact jump_body (i := .ret f) rfl rfl ht (releases_nil _ rfl rfl rfl)
  case h_4 f => exact jump_body (i := .jmp f) rfl rfl ht (releases_nil _ rfl rfl rfl)
  case h_5 f => exact jump_body (i := .jcall f) rfl rfl ht (releases_nil _ rfl rfl rfl)
  case h_6 f => exact bcc_body (f.d.signExtend 64) _ s hroom rfl (releases_nil _ rfl rfl rfl)
  case h_7 f imm => exact bcc_body (imm.signExtend 64) _ s hroom rfl (releases_nil _ rfl rfl rfl)
  case h_8 f => exact ⟨_, _, rfl, mask_branch_body (fun g => g.readM f.a.toNat &&& g.m0 != 0) ((f.d ++ f.b).signExtend 64) _ s (fun _ e => by simp only [Alike.readM e, e.m0]) rfl (releases_nil _ rfl rfl rfl)⟩
  case h_9 f => exact ⟨_, _, rfl, mask_branch_body (fun g => g.readM f.a.toNat &&& g.m0 == g.m0) ((f.d ++ f.b).signExtend 64) _ s (fun _ e => by simp only [Alike.readM e, e.m0]) rfl (releases_nil _ rfl rfl rfl)⟩

/-- A transfer that is not taken, or is taken while no path is due, ends at its target or the next word. -/
theorem BranchBody.stays {s : State} {w : Word} {taken : Bool} {target : W64} {link : Option Nat} {body : State → State × Flow} {r : Option Region}
    (b : BranchBody s w taken target link body r) (h : s.executes w {} = true) (ht : pcBits target = target) (hs : taken = true → s.g.switchAt target = none) :
    ∃ t, runWord w {} body s = .next t ∧
      WordDone s t w {} { s.g.aged with k := s.g.linked link } (if taken then target else w.next s.g.pc) (if taken then max 3 (w.stall + 1) else w.stall + 1) := by
  have hb := b.runs
  cases taken with
  | true =>
    obtain ⟨u, e, d, -⟩ := jump_done w body s _ r target h b.writes (by rw [jumpTo, if_pos ht]; exact hb) b.region ht
    exact ⟨u, e, d (hs rfl)⟩
  | false =>
    rw [begin_aged s.g w {} b.writes] at hb
    obtain ⟨u, e, d, -⟩ := word_done w {} body s s { s.g.aged with k := s.g.linked link } r _ h hb (executes_sound h) (executes_replay h) b.region
    exact ⟨u, e, d⟩

/-- Settles O6: every transfer runs as one body, which ends as `BranchBody.stays` says or gives way to the path that is due. -/
theorem branches : Obligations.Branches := by
  intro i w s taken target link hw hb h hroom ht
  obtain ⟨body, r, he, b⟩ := branch_exec hw hb hroom ht
  rw [he]
  have links : ∀ t : State, t.g.k = s.g.linked link →
      (∀ n, link ≠ some n → tget ({} : KReg) t.g.k n = tget {} s.g.k n) ∧ ∀ n, link = some n → n ≠ 0 → ∀ d, s.g.dist + 2 ≤ d → t.g.kAt d n = s.g.pc + 8 := by
    intro t hk
    refine ⟨fun n hn => by rw [hk, linked_other s.g link n hn], ?_⟩
    rintro n rfl hn d hd
    exact kAt_linked s.g t.g n d hk hn hd
  refine ⟨fun hs => ?_, fun htaken p hp => ?_⟩
  · obtain ⟨t, e, units, past, kept⟩ := b.stays h ht (fun htk => by simpa [Group.staysOn] using hs htk)
    have sys := kept.system
    exact ⟨t, e, units, ⟨sys.1, sys.2, sys.3, sys.4, sys.5, sys.6, sys.7, sys.8, sys.9, sys.10, sys.11, sys.12⟩, ⟨past.1, past.2, past.3, past.4⟩,
      fun n => kept.names n (by simp [b.releases]), kept.m, kept.m0, kept.mode, kept.gens, kept.paths, links t kept.k⟩
  · subst htaken
    obtain ⟨t, e, -, d⟩ := jump_done w body s _ r target h b.writes (by rw [jumpTo, if_pos ht]; exact b.runs) b.region ht
    have done := d p hp
    have hk : t.g.k = s.g.linked link := done.kept.k
    exact ⟨t, e, hk ▸ done, links t hk⟩

end Sys2Proof.Machine
end

section
/-! SUPPORT. The words of MODE, GANG, PAIR and the system registers (O7). -/

namespace Sys2Proof.Machine
open Sys2Proof

theorem runKwmode_done (bits : W64) (reseed : Bool) (w : Word) (s : State) (h : s.executes w {} = true) (hf : s.g.flagsOut = false) (hw : (w.allWrites {}).v = []) :
    let mode := (s.g.mode &&& ~~~bits) ||| (s.g.readK w.f.a.toNat &&& bits)
    ∃ t, runKwmode bits reseed w s = .next t ∧
      WordDone s t w {} { s.g.aged with mode := mode, gens := if reseed then seedGens (mode.extractLsb' 32 32) else s.g.gens } (w.next s.g.pc) (w.stall + 1) := by
  intro mode
  have hb := begin_aged s.g w {} hw
  have hal := begin_alike s.g w {}
  obtain ⟨t, e, d, -⟩ := word_done w {} (fun s =>
      if s.g.flagsOut then (s, .hold .waitStall (.until_ .flags))
      else
        let mode := (s.g.mode &&& ~~~bits) ||| (s.g.readK w.f.a.toNat &&& bits)
        ({ s with g := { s.g with mode := mode, gens := if reseed then seedGens (mode.extractLsb' 32 32) else s.g.gens } }, .done)) s s
    { s.g.aged with mode := mode, gens := if reseed then seedGens (mode.extractLsb' 32 32) else s.g.gens } (s.g.countInRegion w).region
    (s.g.uninit || (w.allReads s.g {}).v.any s.g.unwrittenV) h (by
      simp only [begun_g, flagsOut_begin, hf, Bool.false_eq_true, if_false, hal.mode, Alike.readK hal, hal.gens]
      rw [hb]; rfl)
    (executes_sound h) (executes_replay h) (by simp [Group.inreg, Group.countInRegion, Group.aged])
  exact ⟨t, e, d⟩

theorem kgangStatus_begun (s : State) (w : Word) (ex : Extra) (x : W64) : kgangStatus (s.begun w ex) x = kgangStatus s x := by
  obtain ⟨v, r, u, h, _⟩ := begin_fields s.g w ex
  have e1 : (s.begun w ex).g.slot = s.g.slot := by rw [begun_g, h]
  have e2 : (s.begun w ex).g.part = s.g.part := by rw [begun_g, h]
  have e3 : (s.begun w ex).g.ctx = s.g.ctx := by rw [begun_g, h]
  have e4 : (s.begun w ex).g.core = s.g.core := by rw [begun_g, h]
  have e5 : (s.begun w ex).g.qd = s.g.qd := by rw [begun_g, h]; rfl
  simp only [kgangStatus, holdsMember_begun, e1, e2, e3, e4, e5]

theorem kpairStatus_begun (s : State) (w : Word) (ex : Extra) (x : W64) : kpairStatus (s.begun w ex) x = kpairStatus s x := by
  obtain ⟨v, r, u, h, _⟩ := begin_fields s.g w ex
  have e2 : (s.begun w ex).g.part = s.g.part := by rw [begun_g, h]
  have e3 : (s.begun w ex).g.ctx = s.g.ctx := by rw [begun_g, h]
  simp only [kpairStatus, holdsMember_begun, e2, e3]

theorem inreg_counted (g : Group) (w : Word) : (g.countInRegion w).region.isSome = g.inreg := by simp [Group.inreg, Group.countInRegion]

/-- `kgang` writes its status, and GANG where that is 0. -/
theorem kgang_done (f : FForm) (s : State) (h : s.executes (mkWord shapeKgang f) {} = true) :
    let x := s.g.readK f.a.toNat
    let st := kgangStatus s x
    ∃ t, execKgang f s = .next t ∧
      ControlDone { s with g := { s.g with gang := if st = 0 then x &&& 0x00FFFFFFFFFFFF07 else s.g.gang } } t (mkWord shapeKgang f) {} (BitVec.ofNat 64 st) := by
  intro x st
  refine word_control (mkWord shapeKgang f) {} _ s s { s.g with gang := if st = 0 then x &&& 0x00FFFFFFFFFFFF07 else s.g.gang } (agePaths s.g.paths) (s.g.countInRegion (mkWord shapeKgang f)).region
    (s.g.uninit || ((mkWord shapeKgang f).allReads s.g {}).v.any s.g.unwrittenV) (BitVec.ofNat 64 st) h ?_ (executes_sound h) (executes_replay h) (inreg_counted _ _) rfl
  simp only [begun_g, Alike.readK (begin_alike s.g _ {}), kgangStatus_begun]
  rw [begin_aged s.g _ {} rfl]
  by_cases hst : st = 0
  · rw [if_pos hst, if_pos hst]; rfl
  · rw [if_neg hst, if_neg hst]; rfl

/-- `kpair` writes its status, and PAIR where that is 0. -/
theorem kpair_done (f : FForm) (s : State) (h : s.executes (mkWord shapeKpair f) {} = true) :
    let x := s.g.readK f.a.toNat
    let st := kpairStatus s x
    ∃ t, execKpair f s = .next t ∧
      ControlDone { s with g := { s.g with pair := if st = 0 then (if x.getLsbD 15 then x &&& 0xFFFF else 0) else s.g.pair } } t (mkWord shapeKpair f) {} (BitVec.ofNat 64 st) := by
  intro x st
  refine word_control (mkWord shapeKpair f) {} _ s s { s.g with pair := if st = 0 then (if x.getLsbD 15 then x &&& 0xFFFF else 0) else s.g.pair } (agePaths s.g.paths)
    (s.g.countInRegion (mkWord shapeKpair f)).region (s.g.uninit || ((mkWord shapeKpair f).allReads s.g {}).v.any s.g.unwrittenV) (BitVec.ofNat 64 st) h ?_ (executes_sound h) (executes_replay h)
    (inreg_counted _ _) rfl
  simp only [begun_g, Alike.readK (begin_alike s.g _ {}), kpairStatus_begun]
  rw [begin_aged s.g _ {} rfl]
  by_cases hst : st = 0
  · rw [if_pos hst, if_pos hst]; rfl
  · rw [if_neg hst, if_neg hst]; rfl

/-- The body of `kwsys`. -/
def kwsysBody (f : FForm) (s : State) : State × Flow :=
  let x := s.g.readK f.a.toNat
  let c := s.ctx s.g.part s.g.ctx
  match (f.d ++ f.b).toNat with
  | 0x002 => ({ s with g := { s.g with uninit := s.g.uninit && !x.getLsbD 1 } }, .done)
  | 0x007 => ({ s with g := { s.g with frec := x &&& 0x00FFFFFFFFFFFFC0 } }, .done)
  | 0x104 => (s.setCtx s.g.part s.g.ctx { c with spill := x &&& 0x00FFFFFFFFFF8000 }, .done)
  | 0x107 => (s.setCtx s.g.part s.g.ctx { c with tvec := x &&& 0x00FFFFFFFFFFF000 }, .done)
  | _ => (s, .done)

theorem exec_kwsys (f : FForm) (s : State) : exec (.kwsys f) s = runWord (mkWord shapeKwsys f) (extraOf (.kwsys f) s) (kwsysBody f) s := rfl

/-- `kwsys` reads no vector register, so its start finds nothing unwritten. -/
theorem begin_kwsys (f : FForm) (s : State) : s.g.begin (mkWord shapeKwsys f) (extraOf (.kwsys f) s) =
    { s.g.aged with region := (s.g.countInRegion (mkWord shapeKwsys f)).region, uninit := s.g.uninit, wait := .none } := by
  have hr : ((mkWord shapeKwsys f).allReads s.g (extraOf (.kwsys f) s)).v = [] := by
    unfold Word.allReads Word.readsOf
    split <;> rfl
  rw [begin_aged s.g _ _ rfl, hr]
  simp

/-- `kwsys` with a body that leaves the group x, apart from UNINIT, and the units of b. -/
theorem kwsys_done (f : FForm) (s b : State) (x : Group) (u : Bool) (h : s.executes (mkWord shapeKwsys f) (extraOf (.kwsys f) s) = true)
    (hb : kwsysBody f (s.begun (mkWord shapeKwsys f) (extraOf (.kwsys f) s)) =
      ({ b with g := { x with region := (s.g.countInRegion (mkWord shapeKwsys f)).region, uninit := u, wait := .none } }, .done))
    (hm : b.mem = s.mem) (hx : x.replay = s.g.replay) (hr : x.inreg = s.g.inreg) :
    ∃ t, exec (.kwsys f) s = .next t ∧
      WordDone b t (mkWord shapeKwsys f) (extraOf (.kwsys f) s) x ((mkWord shapeKwsys f).next s.g.pc) ((mkWord shapeKwsys f).stall + 1) ∧ t.g.uninit = u := by
  obtain ⟨t, e, d, hu⟩ := word_done _ _ (kwsysBody f) s b x _ u h hb (by rw [hm]; exact executes_sound h) (hx.trans (executes_replay h)) ((inreg_counted _ _).trans hr.symm)
  exact ⟨t, e, d, hu (releases_nil _ rfl rfl rfl)⟩

theorem kwsys_words (f : FForm) (s : State) (h : s.executes (mkWord shapeKwsys f) (extraOf (.kwsys f) s) = true) :
    let w := mkWord shapeKwsys f
    let n := (f.d ++ f.b).toNat
    let x := s.g.readK f.a.toNat
    let c := s.ctx s.g.part s.g.ctx
    (n = 0x002 → ∃ t, exec (.kwsys f) s = .next t ∧ WordDone s t w (extraOf (.kwsys f) s) s.g.aged (w.next s.g.pc) (w.stall + 1) ∧ t.g.uninit = (s.g.uninit && !x.getLsbD 1)) ∧
    (n = 0x007 → ∃ t, exec (.kwsys f) s = .next t ∧ WordDone s t w (extraOf (.kwsys f) s) { s.g.aged with frec := x &&& 0x00FFFFFFFFFFFFC0 } (w.next s.g.pc) (w.stall + 1)) ∧
    (n = 0x104 → ∃ t, exec (.kwsys f) s = .next t ∧
      WordDone (s.setCtx s.g.part s.g.ctx { c with spill := x &&& 0x00FFFFFFFFFF8000 }) t w (extraOf (.kwsys f) s) s.g.aged (w.next s.g.pc) (w.stall + 1)) ∧
    (n = 0x107 → ∃ t, exec (.kwsys f) s = .next t ∧
      WordDone (s.setCtx s.g.part s.g.ctx { c with tvec := x &&& 0x00FFFFFFFFFFF000 }) t w (extraOf (.kwsys f) s) s.g.aged (w.next s.g.pc) (w.stall + 1)) := by
  intro w n x c
  have hbegun : s.begun w (extraOf (.kwsys f) s) = { s with g := { s.g.aged with region := (s.g.countInRegion w).region, uninit := s.g.uninit, wait := .none } } := by
    rw [State.begun, begin_kwsys]
  refine ⟨fun hn => ?_, fun hn => ?_, fun hn => ?_, fun hn => ?_⟩
  · exact kwsys_done f s s s.g.aged (s.g.uninit && !x.getLsbD 1) h (by rw [hbegun, kwsysBody, show (f.d ++ f.b).toNat = 0x002 from hn]; rfl) rfl rfl rfl
  · obtain ⟨t, e, d, -⟩ := kwsys_done f s s { s.g.aged with frec := x &&& 0x00FFFFFFFFFFFFC0 } s.g.uninit h (by rw [hbegun, kwsysBody, show (f.d ++ f.b).toNat = 0x007 from hn]; rfl) rfl rfl rfl
    exact ⟨t, e, d⟩
  · obtain ⟨t, e, d, -⟩ := kwsys_done f s (s.setCtx s.g.part s.g.ctx { c with spill := x &&& 0x00FFFFFFFFFF8000 }) s.g.aged s.g.uninit h
      (by rw [hbegun, kwsysBody, show (f.d ++ f.b).toNat = 0x104 from hn]; rfl) rfl rfl rfl
    exact ⟨t, e, d⟩
  · obtain ⟨t, e, d, -⟩ := kwsys_done f s (s.setCtx s.g.part s.g.ctx { c with tvec := x &&& 0x00FFFFFFFFFFF000 }) s.g.aged s.g.uninit h
      (by rw [hbegun, kwsysBody, show (f.d ++ f.b).toNat = 0x107 from hn]; rfl) rfl rfl rfl
    exact ⟨t, e, d⟩

/-- Settles O7: each word by the law of its body. -/
theorem systemWords : Obligations.SystemWords := by
  refine ⟨?_, ⟨?_, ?_⟩, ?_⟩
  · intro i w s bits reseed hw hm h hf
    unfold modeBits at hm
    split at hm
    case h_4 => cases hm
    all_goals
      have e := Option.some.inj hw
      subst e
      cases hm
      exact runKwmode_done _ _ _ s h hf rfl
  · intro f w s hw h
    obtain rfl : mkWord shapeKgang f = w := Option.some.inj hw
    exact kgang_done f s h
  · intro f w s hw h
    obtain rfl : mkWord shapeKpair f = w := Option.some.inj hw
    exact kpair_done f s h
  · intro f w s hw h
    obtain rfl : mkWord shapeKwsys f = w := Option.some.inj hw
    exact kwsys_words f s h

end Sys2Proof.Machine
end

section
/-! SUPPORT. The words of the path table: `pfork`, `pjoin` and `pyield` (O8). -/

namespace Sys2Proof.Machine
open Sys2Proof

/-- Ageing changes no path's validity. -/
theorem getD_agePaths (ps : List PathEnt) (i : Nat) : ∃ a, (agePaths ps).getD i {} = { ps.getD i {} with age := a } := by
  simp only [agePaths, List.getD_eq_getElem?_getD, List.getElem?_map]
  cases ps[i]? with
  | none => exact ⟨_, rfl⟩
  | some e =>
    simp only [Option.map_some, Option.getD_some]
    split
    · exact ⟨_, rfl⟩
    · exact ⟨e.age, rfl⟩

theorem freePath_agePaths (ps : List PathEnt) : freePath (agePaths ps) = freePath ps := by
  unfold freePath
  congr 1
  funext i
  obtain ⟨a, h⟩ := getD_agePaths ps i
  rw [h]

/-! ### A word whose body leaves the issuing group as it began -/

/-- A transfer that does nothing else goes to its target, or gives way to the path that is due. -/
theorem goto_done (w : Word) (body : State → State × Flow) (s : State) (t : W64) (h : s.executes w {} = true) (hw : (w.allWrites {}).v = [])
    (hb : body (s.begun w {}) = (s.begun w {}, .goto t true)) (ht : pcBits t = t) :
    (s.g.staysOn t = true → ∃ u, runWord w {} body s = .next u ∧ WordDone s u w {} s.g.aged t (max 3 (w.stall + 1))) ∧
      ∀ p, s.g.switchAt t = some p → ∃ u, runWord w {} body s = .next u ∧ WordDone s u w {} (s.g.switched p t) (s.g.pathPc p) (max 3 (w.stall + 1)) := by
  obtain ⟨u, e, d1, d2⟩ := jump_done w body s s.g.k (s.g.begin w {}).region t h hw (by rw [jumpTo, if_pos ht, hb, State.begun, begin_linked s.g w]; rfl) (begin_inreg s.g w {}) ht
  exact ⟨fun hs => ⟨u, e, d1 (by simpa [Group.staysOn] using hs)⟩, fun p hp => ⟨u, e, d2 p hp⟩⟩

/-- A word that does nothing only ages the paths. -/
theorem idle_done (w : Word) (body : State → State × Flow) (s : State) (h : s.executes w {} = true) (hw : (w.allWrites {}).v = []) (hb : body (s.begun w {}) = (s.begun w {}, .done)) :
    ∃ t, runWord w {} body s = .next t ∧ WordDone s t w {} s.g.aged (w.next s.g.pc) (w.stall + 1) :=
  ⟨_, runWord_done w {} body s _ h hb (executes_sound (s := s) h), begun_done w {} s h hw _ _⟩

/-- A body that traps: the word faults, and nothing it did remains. -/
theorem trap_done (w : Word) (ex : Extra) (body : State → State × Flow) (s b : State) (code : Nat) (addr : W64) (h : s.executes w ex = true) (hb : body (s.begun w ex) = (b, .trap code addr)) :
    runWord w ex body s = answer (s.trap w code 0 addr) := by
  rw [runWord_executes w ex body s h, hb]
  rfl

/-! ### pfork -/

/-- The body of `pfork`. -/
def pforkBody (f : FForm) (imm : BitVec 32) (s : State) : State × Flow :=
  let g := s.g
  let m := g.readM f.a.toNat
  let n := g.m0 &&& m
  let q := g.m0 &&& ~~~m
  let target := branchTarget g.pc ((imm.extractLsb' 0 16).signExtend 64)
  if q = 0 then (s, .done)
  else if n = 0 then (s, .goto target true)
  else match freePath g.paths with
    | none => (s, .trap 0x12 0)
    | some i =>
      let e : PathEnt := { valid := true, arrived := false, pc := target, mask := q, tag := imm.extractLsb' 16 16, age := 0 }
      ({ s with g := { g with paths := g.paths.set i e, m0 := n } }, .done)

theorem begin_paths (g : Group) (w : Word) (ex : Extra) : (g.begin w ex).paths = agePaths g.paths := by
  obtain ⟨v, r, u, h, _⟩ := begin_fields g w ex
  rw [h]

/-- The body of `pfork` by the state before the word. -/
theorem pforkBody_begun (f : FForm) (imm : BitVec 32) (w : Word) (s : State) : pforkBody f imm (s.begun w {}) =
    if s.g.m0 &&& ~~~s.g.readM f.a.toNat = 0 then (s.begun w {}, .done)
    else if s.g.m0 &&& s.g.readM f.a.toNat = 0 then (s.begun w {}, .goto (pcBits (s.g.pc + 8 * (imm.extractLsb' 0 16).signExtend 64)) true)
    else match freePath s.g.paths with
      | none => (s.begun w {}, .trap 0x12 0)
      | some i =>
        ({ s.begun w {} with g := { s.g.begin w {} with
            paths := (agePaths s.g.paths).set i { valid := true, arrived := false, pc := pcBits (s.g.pc + 8 * (imm.extractLsb' 0 16).signExtend 64), mask := s.g.m0 &&& ~~~s.g.readM f.a.toNat,
                                                  tag := imm.extractLsb' 16 16, age := 0 }
            m0 := s.g.m0 &&& s.g.readM f.a.toNat } }, .done) := by
  obtain ⟨-, -, -, -, hm0, -, -, -, hpc, -⟩ := begin_kept s.g w {}
  simp only [pforkBody, begun_g, Alike.readM (begin_alike s.g w {}), hm0, hpc, begin_paths, freePath_agePaths, branchTarget]

theorem pfork_words (f : FForm) (imm : BitVec 32) (s : State) (h : s.executes (mkWord shapePfork f (.imm32 imm)) {} = true) :
    let w := mkWord shapePfork f (.imm32 imm)
    let inside := s.g.m0 &&& s.g.readM f.a.toNat
    let outside := s.g.m0 &&& ~~~s.g.readM f.a.toNat
    let target := pcBits (s.g.pc + 8 * (imm.extractLsb' 0 16).signExtend 64)
    (outside = 0 → ∃ t, exec (.pfork f imm) s = .next t ∧ WordDone s t w {} s.g.aged (w.next s.g.pc) (w.stall + 1)) ∧
    (outside ≠ 0 → inside = 0 → s.g.staysOn target = true →
      ∃ t, exec (.pfork f imm) s = .next t ∧ WordDone s t w {} s.g.aged target (max 3 (w.stall + 1))) ∧
    (outside ≠ 0 → inside = 0 → ∀ p, s.g.switchAt target = some p →
      ∃ t, exec (.pfork f imm) s = .next t ∧ WordDone s t w {} (s.g.switched p target) (s.g.pathPc p) (max 3 (w.stall + 1))) ∧
    (outside ≠ 0 → inside ≠ 0 → freePath s.g.paths = none → exec (.pfork f imm) s = answer (s.trap w 0x12 0 0)) ∧
    (outside ≠ 0 → inside ≠ 0 → ∀ i, freePath s.g.paths = some i →
      ∃ t, exec (.pfork f imm) s = .next t ∧
        WordDone s t w {} { s.g with m0 := inside, paths := (agePaths s.g.paths).set i { valid := true, arrived := false, pc := target, mask := outside, tag := imm.extractLsb' 16 16, age := 0 } }
          (w.next s.g.pc) (w.stall + 1)) := by
  intro w inside outside target
  have he : exec (.pfork f imm) s = runWord w {} (pforkBody f imm) s := rfl
  have hb := pforkBody_begun f imm w s
  rw [he]
  have transfer : outside ≠ 0 → inside = 0 → _ := fun ho hi => goto_done w (pforkBody f imm) s target h rfl (by rw [hb, if_neg ho, if_pos hi]) (pcBits_idem _)
  refine ⟨fun ho => ?_, fun ho hi => (transfer ho hi).1, fun ho hi => (transfer ho hi).2, fun ho hi hf => ?_, fun ho hi i hf => ?_⟩
  · exact idle_done w _ s h rfl (by rw [hb, if_pos ho])
  · refine trap_done w {} _ s (s.begun w {}) 0x12 0 h ?_
    rw [hb, if_neg ho, if_neg hi, hf]
  · obtain ⟨t, e, d, -⟩ := word_done w {} (pforkBody f imm) s s
      { s.g with m0 := inside, paths := (agePaths s.g.paths).set i { valid := true, arrived := false, pc := target, mask := outside, tag := imm.extractLsb' 16 16, age := 0 } }
      (s.g.countInRegion w).region (s.g.uninit || (w.allReads s.g {}).v.any s.g.unwrittenV) h
      (by rw [hb, if_neg ho, if_neg hi, hf, State.begun, begin_aged s.g w {} rfl]; rfl) (executes_sound h) (executes_replay h) (inreg_counted _ _)
    exact ⟨t, e, d⟩

/-! ### pjoin -/

/-- An ARRIVED entry of the tag, which a merge takes in. -/
def PathEnt.merges (tag : W16) (e : PathEnt) : Bool := e.valid && e.arrived && e.tag == tag

/-- The lanes of a merge are those of m0 and of every entry it takes in. -/
theorem getLsbD_merged (tag : W16) (l : Nat) (ps : List PathEnt) (m : Mask) :
    (ps.foldl (fun m e => if e.merges tag then m ||| e.mask else m) m).getLsbD l = (m.getLsbD l || ps.any fun e => e.merges tag && e.mask.getLsbD l) := by
  induction ps generalizing m with
  | nil => simp
  | cons e es ih =>
    rw [List.foldl_cons, ih]
    cases he : e.merges tag <;> simp [he, Bool.or_assoc]

/-- A merge that takes an entry in frees it, so the path table changes. -/
theorem merge_changes (tag : W16) (ps : List PathEnt) (h : ps.any (PathEnt.merges tag) = true) : (ps.map fun e => if e.merges tag then {} else e) ≠ ps := by
  obtain ⟨e, he, hm⟩ := List.any_eq_true.1 h
  intro heq
  have hfix : (if e.merges tag then ({} : PathEnt) else e) = e := List.map_inj_left.1 (heq.trans (List.map_id ps).symm) e he
  rw [if_pos hm] at hfix
  rw [← hfix] at hm
  cases hm

theorem merge_none (tag : W16) (ps : List PathEnt) (h : ps.any (PathEnt.merges tag) = false) : (ps.map fun e => if e.merges tag then {} else e) = ps := by
  rw [List.any_eq_false] at h
  exact (List.map_congr_left fun e he => if_neg (h e he)).trans (List.map_id ps)

/-- A merge, by whether there is an entry to take in. -/
theorem mergeArrived_eq (g : Group) (tag : W16) : g.mergeArrived tag =
    if g.paths.any (PathEnt.merges tag) then
      { g with m0 := g.paths.foldl (fun m e => if e.merges tag then m ||| e.mask else m) g.m0, paths := g.paths.map fun e => if e.merges tag then {} else e }
    else g := rfl

/-- The body of `pjoin`. -/
def pjoinBody (f : FForm) (s : State) : State × Flow :=
  let g := s.g
  let tag : W16 := f.d ++ f.b
  match oldestPend g.paths fun e => e.tag == tag with
  | some i =>
    let e := g.paths.getD i {}
    let here : PathEnt := { valid := true, arrived := true, pc := (mkWord shapePjoin f).next g.pc, mask := g.m0, tag := tag, age := 0 }
    ({ s with g := { g with paths := g.paths.set i here, m0 := e.mask } }, .goto e.pc false)
  | none =>
    let h := g.mergeArrived tag
    if h.paths = g.paths then (s, .done) else ({ s with g := { h.orderReads with epoch := g.epoch + 1 } }, .done)

/-- With a pending path of the tag, the path that arrives gives way to the oldest. -/
theorem pjoinBody_some (f : FForm) (s : State) (i : Nat) (h : oldestPend s.g.paths (fun e => e.tag == f.d ++ f.b) = some i) : pjoinBody f s =
    ({ s with g := { s.g with paths := s.g.paths.set i { valid := true, arrived := true, pc := (mkWord shapePjoin f).next s.g.pc, mask := s.g.m0, tag := f.d ++ f.b, age := 0 }
                              m0 := (s.g.paths.getD i {}).mask } }, .goto (s.g.paths.getD i {}).pc false) := by
  simp only [pjoinBody, h]

/-- The group after a merge of the tag's entries. -/
def Group.merged (g : Group) (tag : W16) : Group :=
  { g with m0 := g.paths.foldl (fun m e => if e.merges tag then m ||| e.mask else m) g.m0, paths := g.paths.map (fun e => if e.merges tag then {} else e)
           epoch := g.epoch + 1, notBefore := max g.notBefore g.seen }

/-- With none pending, a merge takes in what has arrived, if anything. -/
theorem pjoinBody_none (f : FForm) (s : State) (h : oldestPend s.g.paths (fun e => e.tag == f.d ++ f.b) = none) : pjoinBody f s =
    if s.g.paths.any (PathEnt.merges (f.d ++ f.b)) then ({ s with g := s.g.merged (f.d ++ f.b) }, .done) else (s, .done) := by
  simp only [pjoinBody, h]
  rw [mergeArrived_eq]
  cases hany : s.g.paths.any (PathEnt.merges (f.d ++ f.b)) with
  | true =>
    rw [if_pos rfl]
    exact if_neg (merge_changes _ _ hany)
  | false => simp

theorem Group.Kept.epoch {x h : Group} {rel : List Nat} (e : x.Kept h rel) : h.epoch = x.epoch := (Prod.mk.inj (Prod.mk.inj e.counts).2).1

theorem Group.Kept.notBefore {x h : Group} {rel : List Nat} (e : x.Kept h rel) : h.notBefore = x.notBefore := by
  have hl := e.launch
  simp only [Prod.mk.injEq] at hl
  exact hl.2.2.2.2.2.2.2.2.2.2.2.2.2.2.2

theorem pjoin_words (f : FForm) (s : State) (h : s.executes (mkWord shapePjoin f) {} = true) :
    let w := mkWord shapePjoin f
    let tag : W16 := f.d ++ f.b
    let ps := agePaths s.g.paths
    (∀ i, oldestPend ps (fun e => e.tag == tag) = some i →
      ∃ t, exec (.pjoin f) s = .next t ∧
        WordDone s t w {} { s.g with m0 := (ps.getD i {}).mask, paths := ps.set i { valid := true, arrived := true, pc := w.next s.g.pc, mask := s.g.m0, tag := tag, age := 0 } }
          (pcBits (ps.getD i {}).pc) (max 3 (w.stall + 1))) ∧
    (oldestPend ps (fun e => e.tag == tag) = none →
      ∃ t, exec (.pjoin f) s = .next t ∧
        WordDone s t w {}
          { s.g with m0 := t.g.m0, paths := ps.map (fun e => if e.valid && e.arrived && e.tag == tag then {} else e), epoch := t.g.epoch, notBefore := t.g.notBefore } (w.next s.g.pc) (w.stall + 1) ∧
        (∀ l, l < 32 → t.g.m0.getLsbD l = (s.g.m0.getLsbD l || ps.any fun e => e.valid && e.arrived && e.tag == tag && e.mask.getLsbD l)) ∧
        (if ps.any fun e => e.valid && e.arrived && e.tag == tag then t.g.epoch = s.g.epoch + 1 ∧ t.g.notBefore = max s.g.notBefore s.g.seen
         else t.g.epoch = s.g.epoch ∧ t.g.notBefore = s.g.notBefore)) := by
  intro w tag ps
  have he : exec (.pjoin f) s = runWord w {} (pjoinBody f) s := rfl
  have hbegun : s.begun w {} = { s with g := { s.g.aged with region := (s.g.countInRegion w).region, uninit := s.g.uninit || (w.allReads s.g {}).v.any s.g.unwrittenV, wait := .none } } := by
    rw [State.begun, begin_aged s.g w {} rfl]
  rw [he]
  refine ⟨fun i hi => ?_, fun hn => ?_⟩
  · have hi' : oldestPend (s.g.aged).paths (fun e => e.tag == f.d ++ f.b) = some i := hi
    refine word_goto w {} (pjoinBody f) s s _ (s.g.countInRegion w).region _ _ false h (by rw [hbegun]; simp only [pjoinBody, hi']; rfl) (executes_sound h) (executes_replay h)
      (inreg_counted _ _) nofun
  · have hn' : oldestPend (s.begun w {}).g.paths (fun e => e.tag == f.d ++ f.b) = none := by rw [begun_g, begin_paths]; exact hn
    have hbody := pjoinBody_none f (s.begun w {}) hn'
    rw [begun_g, begin_paths] at hbody
    have hm0 : ∀ l, (ps.foldl (fun m e => if e.merges tag then m ||| e.mask else m) s.g.m0).getLsbD l = (s.g.m0.getLsbD l || ps.any fun e => e.valid && e.arrived && e.tag == tag && e.mask.getLsbD l) :=
      fun l => getLsbD_merged tag l ps s.g.m0
    change ∃ t, _ ∧ _ ∧ _ ∧ if ps.any (PathEnt.merges tag) then _ else _
    cases hany : ps.any (PathEnt.merges tag) with
    | true =>
      rw [if_pos hany] at hbody
      obtain ⟨t, e, d, -⟩ := word_done w {} (pjoinBody f) s s (s.g.aged.merged tag) (s.g.countInRegion w).region _ h
        (hbody.trans (by rw [hbegun, begin_aged s.g w {} rfl]; rfl)) (executes_sound h) (executes_replay h) (inreg_counted _ _)
      have hepoch : t.g.epoch = s.g.epoch + 1 := d.kept.epoch
      have hnot : t.g.notBefore = max s.g.notBefore s.g.seen := d.kept.notBefore
      refine ⟨t, e, ?_, fun l _ => by rw [d.kept.m0]; exact hm0 l, hepoch, hnot⟩
      rw [d.kept.m0, hepoch, hnot]
      exact d
    | false =>
      rw [hany, if_neg Bool.false_ne_true] at hbody
      obtain ⟨t, e, d⟩ := idle_done w (pjoinBody f) s h rfl hbody
      have hm : t.g.m0 = s.g.m0 := d.kept.m0
      have hepoch : t.g.epoch = s.g.epoch := d.kept.epoch
      have hnot : t.g.notBefore = s.g.notBefore := d.kept.notBefore
      refine ⟨t, e, ?_, fun l _ => ?_, hepoch, hnot⟩
      · rw [hm, hepoch, hnot, show (ps.map fun e => if e.valid && e.arrived && e.tag == tag then {} else e) = ps from merge_none tag ps hany]
        exact d
      · have hno : (ps.any fun e => e.merges tag && e.mask.getLsbD l) = false := by
          rw [List.any_eq_false] at hany ⊢
          intro e he
          simp [hany e he]
        rw [hm, show (ps.any fun e => e.valid && e.arrived && e.tag == tag && e.mask.getLsbD l) = false from hno, Bool.or_false]

/-! ### pyield -/

/-- The end of `pyield` where no path is due, or in a region: it only goes on. -/
theorem pyield_stays (w : Word) (s : State) (h : s.executes w {} = true) (hw : (w.allWrites {}).v = []) (hrel : w.releases {} = [])
    (hd : (if s.g.inreg then none else (s.g.begin w {}).ageSwitch (w.next s.g.pc)) = none) :
    ∃ t, runWord w {} (fun s => (s, .yield)) s = .next t ∧ WordDone s t w {} s.g.aged (w.next s.g.pc) (w.stall + 1) := by
  have d := begun_done w {} s h hw (w.next s.g.pc) (w.stall + 1)
  have hc : s.conclude w {} (s.begun w {}, .yield) = (s.begun w {}).finish w (w.releases {}) (w.next s.g.pc) (w.stall + 1) false := by
    rw [hrel]
    unfold State.conclude
    simp only [begun_g, begin_inreg, hd]
  refine ⟨_, ?_, d⟩
  rw [runWord_executes w {} _ s h, hc]
  exact answer_next _ ((congrArg MemState.bad d.units.mem).trans (executes_sound h))

/-- The end of `pyield` outside a region where path i is due: the paths change places. -/
theorem pyield_switches (w : Word) (s : State) (i : Nat) (h : s.executes w {} = true) (hw : (w.allWrites {}).v = []) (hrel : w.releases {} = []) (hin : s.g.inreg = false)
    (hi : oldestPend (agePaths s.g.paths) (fun e => decide ((s.g.mode.extractLsb' 16 16).toNat ≤ e.age.toNat)) = some i) :
    ∃ t, runWord w {} (fun s => (s, .yield)) s = .next t ∧ WordDone s t w {} (s.g.switched i (w.next s.g.pc)) (s.g.pathPc i) (max 3 (w.stall + 1)) := by
  have d := begun_done w {} s h hw (s.g.pathPc i) (max 3 (w.stall + 1))
  rw [hrel] at d
  set u := (s.begun w {}).finish w [] (s.g.pathPc i) (max 3 (w.stall + 1)) false with hu
  obtain ⟨-, -, hmode, -, hm0, -⟩ := begin_kept s.g w {}
  have hc : s.conclude w {} (s.begun w {}, .yield) = { u with g := { u.g with m0 := (s.g.switched i (w.next s.g.pc)).m0, paths := (s.g.switched i (w.next s.g.pc)).paths } } := by
    unfold State.conclude
    simp only [begun_g, begin_inreg, hin, Bool.false_eq_true, if_false, Group.ageSwitch, begin_paths, hmode, hi, hm0]
    rfl
  obtain ⟨units, past, kept⟩ := d
  refine ⟨{ u with g := { u.g with m0 := (s.g.switched i (w.next s.g.pc)).m0, paths := (s.g.switched i (w.next s.g.pc)).paths } }, ?_,
    SameUnits.trans units (SameUnits.of_g u _), ⟨past.1, past.2, past.3, past.4⟩, ?_⟩
  · rw [runWord_executes w {} _ s h, hc]
    exact answer_next _ ((congrArg MemState.bad units.mem).trans (executes_sound h))
  · have e := kept.system
    exact ⟨kept.names, kept.k, kept.m, rfl, kept.mode, kept.gens, rfl, kept.inreg, ⟨e.1, e.2, e.3, e.4, e.5, e.6, e.7, e.8, e.9, e.10, e.11, e.12⟩, kept.counts, kept.pending, kept.launch⟩

/-- Settles O8. -/
theorem pathWords : Obligations.PathWords := by
  refine ⟨fun f imm w s hw h => ?_, fun f w s hw h => ?_, fun f w s hw h => ?_⟩
  · obtain rfl : mkWord shapePfork f (.imm32 imm) = w := Option.some.inj hw
    exact pfork_words f imm s h
  · obtain rfl : mkWord shapePjoin f = w := Option.some.inj hw
    exact pjoin_words f s h
  · obtain rfl : mkWord shapePyield f = w := Option.some.inj hw
    refine ⟨fun hd => pyield_stays _ s h rfl (releases_nil _ rfl rfl rfl) ?_, fun hin i hi => pyield_switches _ s i h rfl (releases_nil _ rfl rfl rfl) hin hi⟩
    obtain ⟨-, -, hmode, -⟩ := begin_kept s.g (mkWord shapePyield f) {}
    cases hin : s.g.inreg with
    | true => rfl
    | false =>
      have hnone := hd.resolve_left (by simp [hin])
      simp only [Bool.false_eq_true, if_false, Group.ageSwitch, begin_paths, hmode, hnone]

end Sys2Proof.Machine
end

section
/-! SUPPORT. What one step runs, the words of the encoding tables, and what reset leaves (O39, O40, O41). -/

namespace Sys2Proof.Machine
open Sys2Proof

/-- The turn of a selected group that may issue, with no fault to take first, is its issue. -/
theorem step_selected (s : State) (uid : Nat) (rest : List Nat) (hsel : s.sched.sel = uid :: rest) :
    let c := ({ s with sched := { s.sched with sel := rest } } : State).checkout uid
    c.g.uid = uid → c.mayIssue c.g = true → c.g.pendFaults = [] ∨ c.g.atBoundary = false → step s = settled c.issue := by
  intro c huid hmay hf
  have hno : (!c.g.pendFaults.isEmpty && c.g.atBoundary) = false := by
    rcases hf with hf | hf <;> simp [hf]
  have ht : State.turn { s with sched := { s.sched with sel := rest } } uid = c.issue := by
    change (if c.g.uid = uid && c.mayIssue c.g then if !c.g.pendFaults.isEmpty && c.g.atBoundary then execAsyncFaultTake uid c else c.issue else _) = _
    rw [if_pos (by simp [huid, hmay]), hno, if_neg Bool.false_ne_true]
  unfold step State.advanceOne
  rw [hsel]
  exact congrArg settled ht

/-- A step with no group selected takes the next event of the agenda. -/
theorem step_agenda (s : State) (i : Instr) (rest : List Instr) (hsel : s.sched.sel = []) (ha : s.sched.agenda = i :: rest) (he : isEvent i = true) :
    step s = settled (exec i { s with sched := { s.sched with agenda := rest } }) := by
  unfold step State.advanceOne
  rw [hsel, ha]
  exact congrArg settled (if_pos he)

theorem mbytes_slice (m : Memory) (a n i k : Nat) (h : i + k ≤ n) : ((mbytes m a n).drop i).take k = mbytes m (a + i) k := by
  unfold mbytes
  apply List.ext_getElem
  · simp only [List.length_take, List.length_drop, List.length_map, List.length_range]; omega
  · intro j h1 h2
    simp [Nat.add_assoc]

theorem inMemory_line (l : Loc) (hs : l.space = .hbm) (h : l.inMemory 128 = true) : (⟨l.space, l.addr / 128 * 128⟩ : Loc).inMemory 128 = true := by
  simp only [Loc.inMemory, hs, Bool.and_eq_true, Bool.or_eq_true, decide_eq_true_eq] at h ⊢
  refine ⟨h.1, .inr ?_⟩
  have h2 := h.2.resolve_left (by simp)
  omega

/-- A word that the instruction cache does not hold is that of its verified line. -/
theorem fetchWord_read (s r : State) (va : Nat) (l : Loc) (leaf : Option Leaf) (hc : s.cachedLine s.g va = none) (ha : inAperture va = false) (hl : s.lookup s.g.who .exec va = (.ok l leaf, r))
    (h8 : va % 8 = 0) (hoff : l.addr % 128 = va % 128) (hs : l.space = .hbm) (hm : l.inMemory 128 = true) (hal : (s.fetchWord va).2.alarmed = false) :
    (s.fetchWord va).1 = .ok (BitVec.ofNat 64 (leNat (r.peek l 8))) := by
  set q := r.loadVerified s.g.who ⟨l.space, l.addr / 128 * 128⟩ 128 with hq
  have hf : s.fetchWord va = if q.2.alarmed then (.error .hardware, q.2) else
      (.ok (lineWord q.1 va), { q.2 with mem := q.2.mem.icacheInstall { core := s.g.core, part := s.g.part, ctx := s.g.ctx, line := va / 128, bytes := q.1, phys := some ⟨l.space, l.addr / 128 * 128⟩ } }) := by
    unfold State.fetchWord
    rw [hc]
    simp only [ha, Bool.false_eq_true, if_false, hl]
    rfl
  have hna : q.2.alarmed = false := by
    rw [hf] at hal
    cases hb : q.2.alarmed with
    | false => rfl
    | true => rw [if_pos hb, hb] at hal; cases hal
  rw [hf, hna, if_neg Bool.false_ne_true]
  have hbytes : q.1 = mbytes r.mem.hbm (l.addr / 128 * 128) 128 := by
    rw [hq, (loadVerified_same r s.g.who _ 128 (inMemory_line l hs hm)).2, State.peek, hs]
  have hslice : (q.1.drop (va % 128)).take 8 = r.peek l 8 := by
    rw [hbytes, mbytes_slice _ _ _ _ _ (by omega), State.peek, hs]
    congr 1
    omega
  rw [lineWord, hslice]

/-- Settles O39. -/
theorem stepRunsDecoded : Obligations.StepRunsDecoded := by
  refine ⟨?_, step_agenda, fun s hs => answer_next _ hs, fetchWord_read⟩
  intro s d uid rest w0 w1 lit hsel c huid hmay hf hfetch
  have hstep := step_selected s uid rest hsel huid hmay hf
  refine ⟨fun i hi => hstep.trans (congrArg settled ?_), fun e he => hstep.trans (congrArg settled ?_)⟩
  · change c.issue = _
    simp only [State.issue, hfetch, hi]
  · change c.issue = _
    simp only [State.issue, hfetch, he]

/-- Settles O40: the decoder, run on each. -/
theorem decodedWords : Obligations.DecodedWords := ⟨rfl, rfl, rfl, rfl, rfl, rfl, rfl⟩

theorem reset_numbered : State.reset.Numbered :=
  ⟨by decide, by decide, by decide, fun _ h => (List.not_mem_nil h).elim, by decide, fun _ h => (List.not_mem_nil h).elim, fun _ h => (List.not_mem_nil h).elim,
    fun _ h => (List.not_mem_nil h).elim, fun _ h => (List.not_mem_nil h).elim⟩

theorem reset_peek (l : Loc) (hl : l.space.isMemory = true) : State.reset.peek l 1 = [0] := by
  unfold State.peek
  cases hs : l.space with
  | acc q t => simp [hs, Space.isMemory] at hl
  | regs c k => simp [hs, Space.isMemory] at hl
  | hbm | host | peer d | spad c => rfl

/-- Settles O41. -/
theorem resetInvariant : Obligations.ResetInvariant :=
  ⟨⟨reset_memoriesWf, reset_numbered, ⟨rfl, rfl⟩, fun _ h => (List.not_mem_nil h).elim, rfl, rfl, rfl⟩, reset_memoriesWf, rfl, rfl, rfl, rfl, rfl, rfl, reset_peek⟩

end Sys2Proof.Machine
end

section
/-! SUPPORT. Vector compares and the shrinking of an allotment (O14, O16). -/

namespace Sys2Proof.Machine
open Sys2Proof

/-- A word that leaves a mask register written, and MODE as given, has completed as a mask word. -/
theorem mask_of_done {s t : State} {w : Word} {x : Mask} {mode : W64} (h : WordDone s t w {} { s.g.aged with m := (s.g.writeM w.lat w.f.d.toNat x).m, mode := mode } (w.next s.g.pc) (w.stall + 1)) :
    MaskDone s t w x ∧ t.g.mode = mode := by
  obtain ⟨units, past, kept⟩ := h
  have e := kept.system
  refine ⟨⟨⟨units, ⟨past.1, past.2, past.3, past.4⟩, ⟨e.1, e.2, e.3, e.4, e.5, e.6, e.7, e.8, e.9, e.10, e.11, e.12⟩, kept.names, kept.m0⟩, ?_, ?_, kept.k, kept.gens⟩, kept.mode⟩
  · intro hd d hdist
    exact readM_writeM s.g { t.g with dist := d } w.lat w.f.d.toNat x hd kept.m hdist
  · intro n hn
    rw [kept.m]
    exact writeM_other s.g w.lat w.f.d.toNat n x (Ne.symm hn)

theorem writeM_begin (g : Group) (w : Word) (lat n : Nat) (x : Mask) : ((g.begin w {}).writeM lat n x).m = (g.writeM lat n x).m := by
  obtain ⟨-, hm, -, -, -, hdist, -⟩ := begin_kept g w {}
  simp only [Group.writeM, hm, hdist]

/-- What a write of a mask register, flags and a change of the region leave of a group. -/
theorem setFlags_writeM (b : Group) (q : Option Region) (lat n : Nat) (x : Mask) (fl : W64) :
    (({ b with region := q } : Group).writeM lat n x).setFlags fl = { b with m := (b.writeM lat n x).m, mode := b.mode ||| (fl &&& 0xF800), region := q } := rfl

theorem writeM_fields (b : Group) (lat n : Nat) (x : Mask) : b.writeM lat n x = { b with m := (b.writeM lat n x).m, mode := b.mode, region := b.region } := rfl

theorem writeM_region (b : Group) (q : Option Region) (lat n : Nat) (x : Mask) :
    ({ b.writeM lat n x with region := q } : Group) = { b with m := (b.writeM lat n x).m, mode := b.mode, region := q } := rfl

/-- A body that writes one mask register, and of the group's other fields only MODE and a region. -/
theorem word_mask (w : Word) (body : State → State × Flow) (s : State) (x : Mask) (mode mode' : W64) (q : Option Region) (g : Group) (h : s.executes w {} = true) (hw : (w.allWrites {}).v = [])
    (hb : body (s.begun w {}) = ({ s.begun w {} with g := g }, .done))
    (hg : g = { s.g.begin w {} with m := ((s.g.begin w {}).writeM w.lat w.f.d.toNat x).m, mode := mode', region := q }) (hmode : mode' = mode) (hr : q.isSome = s.g.inreg) :
    ∃ t, runWord w {} body s = .next t ∧ MaskDone s t w x ∧ t.g.mode = mode := by
  subst hmode
  rw [writeM_begin] at hg
  obtain ⟨t, e, d, -⟩ := word_done w {} body s s { s.g.aged with m := (s.g.writeM w.lat w.f.d.toNat x).m, mode := mode' } q (s.g.uninit || (w.allReads s.g {}).v.any s.g.unwrittenV) h
    (by rw [hb, hg, begin_aged s.g w {} hw]; rfl) (executes_sound h) (executes_replay h) hr
  exact ⟨t, e, mask_of_done d⟩

/-! ### Constraints of the lanes of a compare -/

theorem concreteTags_cons (ts : List (TagKey × Tag)) (r : Region) : (r.concreteTags ts).cons = r.cons := by
  unfold Region.concreteTags
  induction ts generalizing r with
  | nil => rfl
  | cons t ts ih => rw [List.foldl_cons, ih]; rfl

theorem constrain_some (r : Region) (e : ConEnt) (h : r.cons.length < 64) : ∃ r', r.constrain e = some r' ∧ r'.cons.length ≤ r.cons.length + 1 := by
  unfold Region.constrain
  split
  · exact ⟨r, rfl, by omega⟩
  · rw [if_neg (by omega)]
    exact ⟨_, rfl, by simp⟩

/-- A region with room for one constraint of each lane records them all. -/
theorem compareLanes_some (w : Word) (t : ElemType) (act res : Mask) (a b : List Nat) (ls : List Nat) (r : Region) (h : r.cons.length + ls.length ≤ 64) :
    ∃ r', compareLanes w t act res a b ls r = some r' := by
  induction ls generalizing r with
  | nil => exact ⟨r, rfl⟩
  | cons l ls ih =>
    rw [List.length_cons] at h
    have next : ∀ o : Option Region, (∃ r', o = some r' ∧ r'.cons.length ≤ r.cons.length + 1) → ∃ q, (match (generalizing := false) o with
        | some r' => compareLanes w t act res a b ls r'
        | none => none) = some q := by
      rintro _ ⟨r', rfl, hr'⟩
      exact ih r' (by omega)
    simp only [compareLanes]
    refine next _ ?_
    split
    · exact ⟨r, rfl, by omega⟩
    · split
      · exact constrain_some r _ (by omega)
      · exact constrain_some r _ (by omega)
      · exact ⟨_, rfl, by rw [concreteTags_cons]; omega⟩

theorem lanesOf_length (m : Mask) : (lanesOf m).length ≤ 32 := (List.length_filter_le _ _).trans_eq rfl

/-- The start of a word adds no constraint. -/
theorem begin_cons (g : Group) (w : Word) (ex : Extra) (r : Region) (h : (g.begin w ex).region = some r) : ∃ r0, g.region = some r0 ∧ r.cons = r0.cons := by
  obtain ⟨v, q, u, e, -, hq, -⟩ := begin_fields g w ex
  rw [e, hq] at h
  simp only [Group.countInRegion, Option.map_eq_some_iff] at h
  obtain ⟨r0, h0, rfl⟩ := h
  exact ⟨r0, h0, rfl⟩

/-! ### The two compares -/

theorem laneFlags_zero (act : Mask) (p : Nat → Bool) : laneFlags act (fun l => (p l, 0)) = 0 := by
  unfold laneFlags
  induction lanesOf act with
  | nil => rfl
  | cons l ls ih => simp

theorem runCompare_done (w : Word) (s : State) (h : s.executes w {} = true) (hw : (w.allWrites {}).v = []) (hroom : s.g.roomForLanes = true) :
    let act := s.g.active w.f.pred.toNat
    ∃ t, runCompare w s = .next t ∧ MaskDone s t w (compareMask w act w.type (w.source s.g act 1 w.type) (w.operandB s.g act w.type)) ∧ t.g.mode = s.g.mode := by
  intro act
  have al := begin_alike s.g w {}
  set res := compareMask w act w.type (w.source s.g act 1 w.type) (w.operandB s.g act w.type)
  have hin := begin_inreg s.g w {}
  cases hr : (s.g.begin w {}).region with
  | none =>
    refine word_mask w _ s res s.g.mode _ (s.g.begin w {}).region ((s.g.begin w {}).writeM w.lat w.f.d.toNat res) h hw ?_ (writeM_fields _ _ _ _) al.mode hin
    simp only [begun_g, Alike.active al, Alike.source al, Alike.operandB al, hr]
    rfl
  | some r =>
    obtain ⟨r0, h0, hc⟩ := begin_cons s.g w {} r hr
    rw [Group.roomForLanes, h0, decide_eq_true_eq, ← hc] at hroom
    obtain ⟨r', hr'⟩ := compareLanes_some w w.type act res (w.source s.g act 1 w.type) (w.operandB s.g act w.type) (lanesOf act) r ((Nat.add_le_add_left (lanesOf_length act) _).trans hroom)
    refine word_mask w _ s res s.g.mode _ (some r') { (s.g.begin w {}).writeM w.lat w.f.d.toNat res with region := some r' } h hw ?_ (writeM_region _ _ _ _ _) al.mode (by rw [← hin, Group.inreg, hr]; rfl)
    simp only [begun_g, Alike.active al, Alike.source al, Alike.operandB al, hr]
    rw [hr']

/-- `vfcmp` writes its mask, adds the flags of its lanes, and makes what it reads concrete. -/
theorem runFpCompare_done (w : Word) (s : State) (h : s.executes w {} = true) (hw : (w.allWrites {}).v = []) :
    let act := s.g.active w.f.pred.toNat
    let p := fun l => fpCompare w.f.rnd.toNat w.type s.g.mode ((w.source s.g act 1 w.type).getD l 0) ((w.operandB s.g act w.type).getD l 0)
    ∃ t, runFpCompare w s = .next t ∧ MaskDone s t w (maskOf fun l => act.getLsbD l && (p l).1) ∧ t.g.mode = s.g.mode ||| (laneFlags act p &&& 0xF800) := by
  intro act p
  have al := begin_alike s.g w {}
  refine word_mask w _ s (maskOf fun l => act.getLsbD l && (p l).1) _ _ _ ((((s.g.begin w {}).concreteReads w act).writeM w.lat w.f.d.toNat (maskOf fun l => act.getLsbD l && (p l).1)).setFlags (laneFlags act p)) h hw ?_
    (setFlags_writeM (s.g.begin w {}) ((s.g.begin w {}).concreteReads w act).region _ _ _ _) (congrArg (· ||| (laneFlags act p &&& 0xF800)) al.mode) ?_
  · simp only [begun_g, Alike.active al, Alike.source al, Alike.operandB al, al.mode]
    rfl
  · rw [← begin_inreg s.g w {}]
    exact Option.isSome_map

/-- Settles O14. -/
theorem compareWords : Obligations.CompareWords := by
  intro i w s p hw hp h hroom act
  unfold compareOf at hp
  simp only at hp
  split at hp
  case h_6 => cases hp
  all_goals (have e := Option.some.inj hw; subst e; cases hp)
  case h_1 | h_2 | h_3 =>
    obtain ⟨t, e, d, hmode⟩ := runCompare_done _ s h rfl hroom
    exact ⟨t, e, d, by rw [hmode, laneFlags_zero]; simp⟩
  all_goals exact runFpCompare_done _ s h rfl

/-! ### The allotment (R144) -/

/-- Releasing names gives up their registers and leaves every other name. -/
theorem releaseV_all (ns : List Nat) (g : Group) :
    ∃ v, ns.foldl Group.releaseV g = { g with v := v } ∧ ∀ n, tget ({} : VReg) v n = if n ∈ ns ∧ n ≠ 255 then {} else tget {} g.v n := by
  induction ns generalizing g with
  | nil => exact ⟨g.v, rfl, fun n => by simp⟩
  | cons a as ih =>
    obtain ⟨v, hv, hn⟩ := ih (g.releaseV a)
    by_cases ha : a = 255
    · have e : g.releaseV a = g := if_pos ha
      rw [e] at hv hn
      rw [List.foldl_cons, e]
      refine ⟨v, hv, fun n => ?_⟩
      rw [hn]
      by_cases h : n = 255 <;> simp [h, ha]
    · have e : g.releaseV a = { g with v := tdel g.v a } := if_neg ha
      rw [e] at hv hn
      rw [List.foldl_cons, e]
      refine ⟨v, hv, fun n => ?_⟩
      rw [hn, tget_tdel]
      by_cases h : a = n
      · subst h; simp [ha]
      · simp [h, Ne.symm h]

/-- The group after `vshrink n`. -/
def Group.shrunk (g : Group) (n : Nat) : Group :=
  { ((List.range g.regs).filter fun m => n ≤ m).foldl Group.releaseV g with regs := n, floor := min g.floor n }

theorem shrunk_fields (g : Group) (n : Nat) :
    ∃ v, g.shrunk n = { g with v := v, regs := n, floor := min g.floor n } ∧ (∀ x, n ≤ x → x < g.regs → x ≠ 255 → tget ({} : VReg) v x = {}) ∧
      ∀ x, x < n ∨ g.regs ≤ x → tget ({} : VReg) v x = tget {} g.v x := by
  obtain ⟨v, hv, hn⟩ := releaseV_all ((List.range g.regs).filter fun m => n ≤ m) g
  refine ⟨v, by rw [Group.shrunk, hv], fun x h1 h2 h3 => ?_, fun x hx => ?_⟩
  · rw [hn, if_pos]
    simp [h1, h2, h3]
  · rw [hn, if_neg]
    simp only [List.mem_filter, List.mem_range, decide_eq_true_eq]
    omega

/-- The body of `vshrink`. -/
def vshrinkBody (f : FForm) (s : State) : State × Flow :=
  let n := f.b.toNat
  if s.g.inreg then (s, .trap 0x02 0)
  else if s.g.locked.v.any fun m => n ≤ m && m != 255 then (s, .hold .waitStall (.until_ (.regs (s.g.locked.v.filter fun m => n ≤ m && m != 255) [])))
  else if n = 0 || s.g.regs < n then (s, .trap 0x04 0)
  else
    let names := (List.range s.g.regs).filter fun m => n ≤ m
    let g := names.foldl Group.releaseV s.g
    (State.grant { s with g := { g with regs := n, floor := min g.floor n } } g.quad, .done)

theorem exec_vshrink (f : FForm) (s : State) : exec (.vshrink f) s = runWord (mkWord shapeVshrink f) {} (vshrinkBody f) s := rfl

theorem vshrinkBody_done (f : FForm) (s : State) (hin : s.g.inreg = false) (h0 : f.b.toNat ≠ 0) (hle : f.b.toNat ≤ s.g.regs) (hlock : ∀ m ∈ s.g.locked.v, f.b.toNat ≤ m → m = 255) :
    ∃ q, vshrinkBody f s = (State.grant { s with g := s.g.shrunk f.b.toNat } q, .done) := by
  have hany : (s.g.locked.v.any fun m => decide (f.b.toNat ≤ m) && m != 255) = false := by
    rw [List.any_eq_false]
    intro m hm
    simpa using hlock m hm
  have hn : (decide (f.b.toNat = 0) || decide (s.g.regs < f.b.toNat)) = false := by simp [h0, hle]
  obtain ⟨v, hv, -⟩ := releaseV_all ((List.range s.g.regs).filter fun m => f.b.toNat ≤ m) s.g
  refine ⟨({ s.g with v := v } : Group).quad, ?_⟩
  simp only [vshrinkBody, Group.shrunk, hin, hany, hn, hv, Bool.false_eq_true, if_false]

/-- Settles O16: freed registers go to other groups, of which only the state changes. -/
theorem allotmentShrinks : Obligations.AllotmentShrinks := by
  intro f w s hw h hin n h0 hle hlock
  obtain rfl : mkWord shapeVshrink f = w := Option.some.inj hw
  have hb := begin_aged s.g (mkWord shapeVshrink f) {} rfl
  have hin' : (s.begun (mkWord shapeVshrink f) {}).g.inreg = false := by rw [begun_g, begin_inreg, hin]
  obtain ⟨q, hbody⟩ := vshrinkBody_done f (s.begun (mkWord shapeVshrink f) {}) hin' h0 (by rw [begun_g, hb]; exact hle) (by rw [begun_g, hb]; exact hlock)
  set b := State.grant { s.begun (mkWord shapeVshrink f) {} with g := (s.begun (mkWord shapeVshrink f) {}).g.shrunk f.b.toNat } q with hbdef
  have hunits : s.SameUnits b := SameUnits.trans (SameUnits.of_g s _) (grant_same _ q)
  obtain ⟨v, hv, hfree, hkeep⟩ := shrunk_fields (s.begun (mkWord shapeVshrink f) {}).g f.b.toNat
  obtain ⟨st, hg⟩ := grant_g { s.begun (mkWord shapeVshrink f) {} with g := (s.begun (mkWord shapeVshrink f) {}).g.shrunk f.b.toNat } q
  simp only [begun_g, hb] at hv hfree hkeep
  rw [← hbdef] at hg
  simp only [begun_g, hb, hv] at hg
  obtain ⟨t, e, units, past, kept⟩ := body_done _ {} (vshrinkBody f) s b h hbody ((congrArg MemState.bad hunits.mem).trans (executes_sound h)) (by rw [hg]; exact executes_replay h)
  have hnames : ∀ x, t.g.vreg x = tget {} v x := fun x => (kept.names x (by rw [releases_nil _ rfl rfl rfl]; exact List.not_mem_nil)).trans (by rw [hg]; rfl)
  have sys := kept.system
  refine ⟨t, e, ⟨SameUnits.trans hunits units, ?_, ?_⟩, fun x h1 h2 h3 => by rw [hnames, hfree x h1 h2 h3], fun x hx => (hnames x).trans (hkeep x hx)⟩
  · rw [hg] at past
    exact ⟨past.1, past.2, past.3, past.4⟩
  · rw [hg] at kept sys
    exact ⟨fun _ _ => rfl, kept.k, kept.m, kept.m0, kept.mode, kept.gens, kept.paths, kept.inreg.trans (inreg_counted _ _),
      ⟨sys.1, sys.2, sys.3, sys.4, sys.5, sys.6, sys.7, sys.8, sys.9, sys.10, sys.11, sys.12⟩, kept.counts, kept.pending, kept.launch⟩

end Sys2Proof.Machine
end

section
/-! The refutation of O10: the acquire that ends an atomic may land a fill of another group. -/

namespace Sys2Proof.Machine

open Sys2Proof

/-- An atomic of group 1 that acquires at scope P, with its one element at the first byte of the host's memory. -/
def acquiringAtomic : Req :=
  { id := 0, gen := 0, kind := .atomic, scope := 5, acq := true, rel := false, code := 0, ty := 1, rm := 0, dest := .none, epoch := 0,
    elems := [{ lane := 0, loc := ⟨.host, 0⟩, size := 4, x := 7 }] }

/-- A load of group 2 that has left the L1, for a line beyond local HBM. -/
def strayLoad : Req :=
  { id := 0, gen := 0, kind := .load, scope := 5, acq := false, rel := false, code := 4, ty := 1, rm := 0, dest := .none, epoch := 0, stamp := some {},
    elems := [{ lane := 0, loc := ⟨.hbm, Config.hbmBytes⟩, size := 4 }] }

/-- Both groups run in one context of one core, whose version of scope P stands at 15: the acquire lets the fills in flight land first (R179). -/
def strayFill : State :=
  { g := { uid := 1, st := .ready, m0 := 1, regs := 255, reqs := [acquiringAtomic], nextReq := 1 }
    groups := [{ uid := 2, st := .ready, m0 := 1, regs := 255, slot := 1, reqs := [strayLoad], nextReq := 1 }]
    mem := { vers := [(0, { p := 15 })] } }

/-- Does the step end in a next state? -/
def goesOn : Answer → Bool
  | .next _ => true
  | _ => false

theorem strayFill_faults : goesOn (exec (.atomicRunAtHome 1 0 0) strayFill) = false := by decide

theorem strayFill_performable : strayFill.Performable 1 0 0 strayFill.g acquiringAtomic { lane := 0, loc := ⟨.host, 0⟩, size := 4, x := 7 } :=
  ⟨rfl, rfl, rfl, rfl, rfl, rfl, rfl, rfl, rfl, fun _ _ => rfl⟩

/-- Refutes O10: the atomic is the last element of an acquire at scope P, whose version stands at 15, so the fills in flight of its context land (R179);
one of them lies beyond local HBM, and the step ends in the model's fault (log 7) instead of a next state. -/
theorem not_accessesArePerformed : ¬ Obligations.AccessesArePerformed := by
  unfold Obligations.AccessesArePerformed
  rintro ⟨-, hatomic⟩
  obtain ⟨t, ht, -, -⟩ := hatomic 1 0 0 strayFill _ _ _ strayFill_performable rfl rfl (by decide)
  have h := strayFill_faults
  rw [ht] at h
  cases h

end Sys2Proof.Machine
end

section
/-! Prefetches and cache maintenance (O20, O21): what use and write-back of lines change. -/

namespace Sys2Proof.Machine

open Sys2Proof

/-- The state t is s but for the lines of the caches, the tiles behind them, alarms and messages: what fetching and writing back lines change. -/
structure State.Lines (s t : State) : Prop where
  eq : t = { s with mem := { s.mem with l1 := t.mem.l1, l2 := t.mem.l2, metas := t.mem.metas, img := t.mem.img, tiles := t.mem.tiles, alarms := t.mem.alarms }
                    work := { s.work with msgs := t.work.msgs } }

theorem State.Lines.refl (s : State) : s.Lines s := ⟨rfl⟩

theorem State.Lines.trans {s t u : State} (h : s.Lines t) (k : t.Lines u) : s.Lines u := by
  obtain ⟨k⟩ := k
  rw [h.eq] at k
  exact ⟨k⟩

theorem State.Lines.fold {α : Type} (f : State → α → State) (h : ∀ (s : State) (a : α), s.Lines (f s a)) (l : List α) (s : State) : s.Lines (l.foldl f s) := by
  induction l generalizing s with
  | nil => exact State.Lines.refl s
  | cons a as ih => exact (h s a).trans (ih _)

theorem State.Lines.same {s t : State} (h : s.Lines t) : s.SameBytes t := by
  rw [h.eq]
  exact ⟨rfl, rfl, rfl, rfl, rfl, rfl⟩

theorem checkPath_lines (s : State) (tile : Nat) : s.Lines (s.checkPath tile).2 := by
  unfold State.checkPath
  split <;> exact ⟨rfl⟩

theorem checkTile_lines (s : State) (tile : Nat) : s.Lines (s.checkTile tile).2 := by
  have h := checkPath_lines s tile
  unfold State.checkTile
  dsimp only
  split
  · exact h
  · exact h.trans ⟨rfl⟩

theorem putTile_lines (s : State) (tile : Nat) (img : Memory) : s.Lines (s.putTile tile img) := by
  unfold State.putTile
  split
  · exact ⟨rfl⟩
  · dsimp only
    split <;> exact ⟨rfl⟩

theorem writeback_lines (s : State) (tile : Nat) : s.Lines (s.writeback tile) := by
  have h := checkTile_lines s tile
  unfold State.writeback
  dsimp only
  split
  · exact h
  · split
    · exact h.trans ⟨rfl⟩
    · exact (h.trans ⟨rfl⟩).trans (putTile_lines _ _ _)

theorem evict_lines (s : State) (line : Nat) (e : L2Line) : s.Lines (s.evict line e) := by
  unfold State.evict
  refine State.Lines.trans ?_ ⟨rfl⟩
  split
  · exact writeback_lines s _
  · exact State.Lines.refl s

theorem insertLine_lines (s : State) (line : Nat) (mask : W16) (e : L2Line) : s.Lines (s.insertLine line mask e) := by
  unfold State.insertLine
  dsimp only
  split
  · exact ⟨rfl⟩
  · split
    · exact ⟨rfl⟩
    · exact (State.Lines.trans ⟨rfl⟩ (evict_lines _ _ _)).trans ⟨rfl⟩

theorem touch_lines (s : State) (w : Who) (line : Nat) : s.Lines (s.touch w line) := by
  unfold State.touch
  dsimp only
  split
  · exact ⟨rfl⟩
  · split
    · exact ⟨rfl⟩
    · exact insertLine_lines s _ _ _

/-! ### With no dirty line in L2, nothing is written back -/

/-- No line of L2 is dirty. -/
def MemState.l2Clean (m : MemState) : Prop := ∀ e ∈ m.l2, e.2.dirty = false

/-- Both have clean lines in L2 alone, and no alarm or message tells them apart. -/
structure State.Silent (s t : State) : Prop where
  clean  : t.mem.l2Clean
  alarms : t.mem.alarms = s.mem.alarms
  work   : t.work = s.work

theorem clean_tput (l2 : Tbl L2Line) (line : Nat) (e : L2Line) (h : ∀ x ∈ l2, x.2.dirty = false) (he : e.dirty = false) : ∀ x ∈ tput l2 line e, x.2.dirty = false := by
  intro x hx
  rcases mem_tput l2 line e x hx with rfl | h'
  · exact he
  · exact h x h'

theorem clean_raised (xs : List (Nat × L2Line)) (up : Nat) (l2 : Tbl L2Line) (h : ∀ x ∈ l2, x.2.dirty = false) (hx : ∀ x ∈ xs, x.2.dirty = false) :
    ∀ x ∈ xs.foldl (fun t y => tput t y.1 { y.2 with rank := y.2.rank + up }) l2, x.2.dirty = false := by
  induction xs generalizing l2 with
  | nil => exact h
  | cons y ys ih => exact ih _ (clean_tput l2 y.1 _ h (hx y List.mem_cons_self)) fun x hx' => hx x (List.mem_cons_of_mem _ hx')

theorem mem_of_twice_filtered {α : Type} {x : α} {l : List α} {p q : α → Bool} (h : x ∈ (l.filter p).filter q) : x ∈ l :=
  List.mem_of_mem_filter (List.mem_of_mem_filter h)

theorem insertLine_silent (s : State) (line : Nat) (mask : W16) (e : L2Line) (h : s.mem.l2Clean) (he : e.dirty = false) : s.Silent (s.insertLine line mask e) := by
  unfold State.insertLine
  dsimp only
  split
  · exact ⟨clean_tput _ _ _ h he, rfl, rfl⟩
  · split
    · exact ⟨h, rfl, rfl⟩
    · next x hf =>
      obtain ⟨way, -, hway⟩ := List.exists_of_findSome?_eq_some hf
      have hmem := mem_of_twice_filtered (List.mem_of_find?_eq_some hway)
      unfold State.evict
      rw [h x hmem]
      exact ⟨clean_tput _ _ _ (fun y hy => clean_raised _ _ s.mem.l2 h (fun z hz => h z (mem_of_twice_filtered hz)) y (List.mem_of_mem_filter hy)) he, rfl, rfl⟩

theorem touch_silent (s : State) (w : Who) (line : Nat) (h : s.mem.l2Clean) : s.Silent (s.touch w line) := by
  unfold State.touch
  dsimp only
  split
  · next e hf => exact ⟨clean_tput _ _ _ h (h _ (List.mem_of_find?_eq_some hf)), rfl, rfl⟩
  · split
    · exact ⟨h, rfl, rfl⟩
    · exact insertLine_silent s _ _ _ h rfl

/-! ### Prefetches -/

theorem l1Install_lines (s : State) (w : Who) (stamp : Vers) (line : Nat) : s.Lines (s.l1Install w stamp line) := ⟨rfl⟩

/-- A prefetch uses a line of L2, and may bring it into the L1. -/
theorem prefetch_cases (s : State) (l1 : Bool) (va : Nat) :
    s.prefetch l1 va = s ∨ ∃ a, s.prefetch l1 va = s.touch s.g.who a ∨ s.prefetch l1 va = (s.touch s.g.who a).l1Install (s.touch s.g.who a).g.who ((s.touch s.g.who a).vers (s.touch s.g.who a).g.who) a := by
  unfold State.prefetch
  split
  · exact .inl rfl
  · dsimp only
    split
    · next a _ _ =>
      split
      · exact .inr ⟨a / 128, .inr rfl⟩
      · exact .inr ⟨a / 128, .inl rfl⟩
    · exact .inl rfl

theorem prefetch_lines (s : State) (l1 : Bool) (va : Nat) : s.Lines (s.prefetch l1 va) := by
  obtain h | ⟨a, h | h⟩ := prefetch_cases s l1 va <;> rw [h]
  · exact State.Lines.refl s
  · exact touch_lines _ _ _
  · exact (touch_lines s s.g.who a).trans (l1Install_lines _ _ _ _)

theorem prefetch_silent (s : State) (l1 : Bool) (va : Nat) (hs : s.mem.l2Clean) : s.Silent (s.prefetch l1 va) := by
  obtain h | ⟨a, h | h⟩ := prefetch_cases s l1 va <;> rw [h]
  · exact ⟨hs, rfl, rfl⟩
  · exact touch_silent _ _ _ hs
  · obtain ⟨h1, h2, h3⟩ := touch_silent s s.g.who a hs
    exact ⟨h1, h2, h3⟩

theorem prefetches_silent (l1 : Bool) (as : List (Nat × Nat)) (s : State) (hs : s.mem.l2Clean) : s.Silent (as.foldl (fun s x => s.prefetch l1 x.2) s) := by
  induction as generalizing s with
  | nil => exact ⟨hs, rfl, rfl⟩
  | cons a as ih =>
    obtain ⟨h1, h2, h3⟩ := prefetch_silent s l1 a.2 hs
    obtain ⟨k1, k2, k3⟩ := ih _ h1
    exact ⟨k1, k2.trans h2, k3.trans h3⟩

/-- A word whose body changes nothing of the issuing group: it completes in the state b, the paths aged. -/
theorem aged_done (w : Word) (body : State → State × Flow) (s b : State) (h : s.executes w {} = true) (hw : (w.allWrites {}).v = [])
    (hb : body (s.begun w {}) = ({ b with g := s.g.begin w {} }, .done)) (hm : b.mem.bad = none) :
    ∃ t, runWord w {} body s = .next t ∧ WordDone b t w {} s.g.aged (w.next s.g.pc) (w.stall + 1) := by
  have hg := begin_aged s.g w {} hw
  have hreg : (s.g.begin w {}).inreg = s.g.inreg := begin_inreg _ _ _
  rw [hg] at hb hreg
  obtain ⟨t, ht, hd, -⟩ := word_done w {} body s b s.g.aged _ _ h hb hm (executes_replay h) hreg
  exact ⟨t, ht, hd⟩

/-- The state of a prefetch's lines, with the group that the word began with. -/
theorem State.Lines.begun {s c : State} (w : Word) (h : (s.begun w {}).Lines c) : c = { ({ s with mem := c.mem, work := { s.work with msgs := c.work.msgs } } : State) with g := s.g.begin w {} } := by
  exact h.eq.trans (by rw [h.eq]; rfl)

/-- A word whose body only uses lines: it completes with them, and no byte of any memory has changed. -/
theorem lines_done (w : Word) (body : State → State × Flow) (s c : State) (hx : s.executes w {} = true) (hw : (w.allWrites {}).v = [])
    (hb : body (s.begun w {}) = (c, .done)) (hl : (s.begun w {}).Lines c) :
    ∃ t, runWord w {} body s = .next t ∧ WordDone { s with mem := t.mem, work := { s.work with msgs := t.work.msgs } } t w {} s.g.aged (w.next s.g.pc) (w.stall + 1) ∧
      t.mem = c.mem ∧ t.work = c.work ∧ s.SameMemory t := by
  have hm : c.mem.bad = none := hl.same.bad.trans (executes_sound (s := s) hx)
  obtain ⟨t, ht, hd⟩ := aged_done w body s { s with mem := c.mem, work := { s.work with msgs := c.work.msgs } } hx hw (hb.trans (by rw [← State.Lines.begun w hl])) hm
  have hmem : t.mem = c.mem := hd.units.mem
  have hwork : t.work = c.work := hd.units.work.trans (by rw [hl.eq]; rfl)
  have hsame : s.SameBytes t := SameBytes.trans (SameBytes.trans (SameBytes.of_mem (t := s.begun w {}) rfl) hl.same) (SameBytes.of_mem hmem)
  refine ⟨t, ht, ?_, hmem, hwork, fun l hl' => SameBytes.peek hsame l 1 hl'⟩
  rw [hmem, hwork]
  exact hd

def prefBody (w : Word) (s : State) : State × Flow :=
  if s.g.inreg then (s, .done) else ((w.addresses s.g (s.g.active w.f.pred.toNat)).foldl (fun s x => s.prefetch (w.f.rnd == 1) x.2) s, .done)

theorem prefBody_lines (w : Word) (s : State) : ∃ c, prefBody w s = (c, .done) ∧ s.Lines c ∧ (s.mem.l2Clean → s.Silent c) := by
  unfold prefBody
  split
  · exact ⟨s, rfl, State.Lines.refl s, fun h => ⟨h, rfl, rfl⟩⟩
  · exact ⟨_, rfl, State.Lines.fold _ (fun s x => prefetch_lines s _ _) _ s, prefetches_silent _ _ s⟩

theorem pref_exec (i : Instr) (w : Word) (s : State) (hi : (∃ f, i = .pref f) ∨ (∃ f, i = .prefL1 f) ∨ (∃ f imm, i = .prefOffset f imm)) (hw : wordOf i = some w) :
    exec i s = runWord w {} (prefBody w) s ∧ (w.allWrites {}).v = [] := by
  rcases hi with ⟨f, rfl⟩ | ⟨f, rfl⟩ | ⟨f, imm, rfl⟩ <;> (have e := Option.some.inj hw; subst e) <;> exact ⟨rfl, rfl⟩

/-- Settles O20: a prefetch uses lines of the caches and nothing else, and writes back a tile only for a dirty line. -/
theorem prefetchesAreSilent : Obligations.PrefetchesAreSilent := by
  intro i w s hi hw hx
  obtain ⟨he, hv⟩ := pref_exec i w s hi hw
  obtain ⟨c, hc, hl, hs⟩ := prefBody_lines w (s.begun w {})
  obtain ⟨t, ht, hd, hmem, hwork, hsame⟩ := lines_done w (prefBody w) s c hx hv hc hl
  refine ⟨t, he.trans ht, hd, hsame, by rw [hmem, hl.eq]; rfl, fun hcl => ?_⟩
  obtain ⟨-, h2, h3⟩ := hs hcl
  exact ⟨by rw [hmem, h2]; rfl, hwork.trans h3⟩

/-! ### Write-back of a range -/

/-- No copy in L2 of this line is dirty. -/
def MemState.cleanAt (m : MemState) (line : Nat) : Prop := ∀ e ∈ m.l2, e.1 = line → e.2.dirty = false

/-- From s to t lines are only cleaned, and no alarm is taken back. -/
structure State.Cleans (s t : State) : Prop where
  lines  : s.Lines t
  alarms : t.alarmed = false → s.alarmed = false
  keeps  : ∀ line, s.mem.cleanAt line → t.mem.cleanAt line

theorem State.Cleans.refl (s : State) : s.Cleans s := ⟨State.Lines.refl s, id, fun _ => id⟩

theorem State.Cleans.trans {s t u : State} (h : s.Cleans t) (k : t.Cleans u) : s.Cleans u :=
  ⟨h.lines.trans k.lines, fun a => h.alarms (k.alarms a), fun l c => k.keeps l (h.keeps l c)⟩

theorem alarmed_congr {s t : State} (h : t.mem = s.mem) : t.alarmed = s.alarmed := congrArg (fun m : MemState => !m.alarms.isEmpty) h

theorem alarm_alarmed (s : State) (a : Alarm) : (s.alarm a).alarmed = true := by
  simp [State.alarm, State.alarmed]

/-- An alarm changes no line, and stands from then on. -/
theorem alarm_cleans (s : State) (a : Alarm) : s.Cleans (s.alarm a) :=
  ⟨⟨rfl⟩, fun h => absurd h (by rw [alarm_alarmed]; decide), fun _ h => h⟩

theorem checkPath_cleans (s : State) (tile : Nat) : s.Cleans (s.checkPath tile).2 ∧ ((s.checkPath tile).1 = false → (s.checkPath tile).2.alarmed = true) := by
  unfold State.checkPath
  split
  · exact ⟨alarm_cleans s _, fun _ => alarm_alarmed s _⟩
  · exact ⟨⟨⟨rfl⟩, id, fun _ => id⟩, fun h => by cases h⟩

/-- A check that fails leaves an alarm. -/
theorem checkTile_cleans (s : State) (tile : Nat) : s.Cleans (s.checkTile tile).2 ∧ ((s.checkTile tile).1 = false → (s.checkTile tile).2.alarmed = true) := by
  obtain ⟨h, hf⟩ := checkPath_cleans s tile
  unfold State.checkTile
  dsimp only
  split
  · next hc =>
    refine ⟨h, hf⟩
  · exact ⟨h.trans (alarm_cleans _ _), fun _ => alarm_alarmed _ _⟩

theorem putTile_cleans (s : State) (tile : Nat) (img : Memory) : s.Cleans (s.putTile tile img) := by
  refine ⟨putTile_lines s tile img, ?_, ?_⟩ <;> unfold State.putTile <;> split
  · exact (alarm_cleans s _).alarms
  · dsimp only
    split <;> exact id
  · exact (alarm_cleans s _).keeps
  · dsimp only
    split <;> exact fun _ => id

/-- The lines of a tile marked clean. -/
theorem cleaned_l2 (l2 : Tbl L2Line) (tile : Nat) (e : Nat × L2Line)
    (he : e ∈ l2.map fun e => if e.1 / 32 = tile then (e.1, { e.2 with dirty := false }) else e) :
    (e.1 / 32 = tile → e.2.dirty = false) ∧ ∃ x ∈ l2, x.1 = e.1 ∧ (x.2.dirty = false → e.2.dirty = false) := by
  obtain ⟨x, hx, rfl⟩ := List.mem_map.1 he
  by_cases h : x.1 / 32 = tile
  · rw [if_pos h]
    exact ⟨fun _ => rfl, x, hx, rfl, fun _ => rfl⟩
  · rw [if_neg h]
    exact ⟨fun h' => absurd h' h, x, hx, rfl, id⟩

theorem markClean_cleans (s : State) (tile : Nat) :
    let t : State := { s with mem := { s.mem with l2 := s.mem.l2.map fun e => if e.1 / 32 = tile then (e.1, { e.2 with dirty := false }) else e } }
    s.Cleans t ∧ ∀ line, line / 32 = tile → t.mem.cleanAt line := by
  refine ⟨⟨⟨rfl⟩, id, fun line h e he hl => ?_⟩, fun line hl e he hle => ?_⟩
  · obtain ⟨-, x, hx, hxe, hd⟩ := cleaned_l2 _ _ _ he
    exact hd (h x hx (hxe.trans hl))
  · exact (cleaned_l2 _ _ _ he).1 (hle ▸ hl)

/-- A write-back cleans the lines of its tile, or leaves an alarm. -/
theorem writeback_cleans (s : State) (tile : Nat) :
    s.Cleans (s.writeback tile) ∧ ((s.writeback tile).alarmed = false → ∀ line, line / 32 = tile → (s.writeback tile).mem.cleanAt line) := by
  obtain ⟨h, hf⟩ := checkTile_cleans s tile
  unfold State.writeback
  dsimp only
  split
  · next hc =>
    have ha := hf (by simpa using hc)
    exact ⟨h, fun h' => by rw [ha] at h'; cases h'⟩
  · split
    · exact ⟨h.trans (alarm_cleans _ _), fun h' => by rw [alarm_alarmed] at h'; cases h'⟩
    · obtain ⟨k, kc⟩ := markClean_cleans (s.checkTile tile).2 tile
      have p := putTile_cleans { (s.checkTile tile).2 with mem := { (s.checkTile tile).2.mem with l2 := (s.checkTile tile).2.mem.l2.map fun e => if e.1 / 32 = tile then (e.1, { e.2 with dirty := false }) else e } }
        tile (mcopyRange (s.checkTile tile).2.mem.img (s.checkTile tile).2.mem.hbm (4096 * tile) (4096 * tile + 4096))
      exact ⟨(h.trans k).trans p, fun _ line hl => p.keeps line (kc line hl)⟩

/-- What `cwb` does to one line of its range. -/
def cwbLine (s : State) (line : Nat) : State := if s.mem.l2.any fun e => e.1 == line && e.2.dirty then s.cleanTile (line / 32) else s

theorem cwbLine_cleans (s : State) (line : Nat) : s.Cleans (cwbLine s line) ∧ ((cwbLine s line).alarmed = false → (cwbLine s line).mem.cleanAt line) := by
  have hclean : ∀ (p : Nat → Bool), p line = true → ¬(s.mem.l2.any fun e => p e.1 && e.2.dirty) = true → s.mem.cleanAt line := by
    intro p hp h e he hl
    have := fun hd : e.2.dirty = true => h (List.any_eq_true.2 ⟨e, he, by rw [hl, hp, hd]; rfl⟩)
    simpa using this
  unfold cwbLine State.cleanTile
  split
  · split
    · exact ⟨(writeback_cleans s _).1, fun h => (writeback_cleans s _).2 h line rfl⟩
    · next h => exact ⟨State.Cleans.refl s, fun _ => hclean (fun l => l / 32 == line / 32) (beq_self_eq_true _) h⟩
  · next h => exact ⟨State.Cleans.refl s, fun _ => hclean (fun l => l == line) (beq_self_eq_true _) h⟩

theorem cwbLines_clean (ls : List Nat) (s : State) : s.Cleans (ls.foldl cwbLine s) ∧ ((ls.foldl cwbLine s).alarmed = false → ∀ line ∈ ls, (ls.foldl cwbLine s).mem.cleanAt line) := by
  induction ls generalizing s with
  | nil => exact ⟨State.Cleans.refl s, fun _ _ h => nomatch h⟩
  | cons l ls ih =>
    obtain ⟨h, hl⟩ := cwbLine_cleans s l
    obtain ⟨k, kl⟩ := ih (cwbLine s l)
    refine ⟨h.trans k, fun ha line hm => ?_⟩
    rcases List.mem_cons.1 hm with rfl | hm
    · exact k.keeps _ (hl (k.alarms ha))
    · exact kl ha line hm

/-! ### The words of cache maintenance -/

def maintainBody (w : Word) (held : Group → Bool) (page : Nat → Bool) (act : State → Nat → State) (s : State) : State × Flow :=
  let a := (s.g.readK w.f.a.toNat).toNat
  let n := (s.g.readK w.f.b.toNat).toNat
  if a % 128 != 0 || n % 128 != 0 then (s, .trap 0x08 (BitVec.ofNat 64 (if a % 128 != 0 then a else n)))
  else if Config.vaBytes < a + n then (s, .trap 0x04 0)
  else if n = 0 then (s, .done)
  else if held s.g then (s, .hold .waitStall (.until_ .released))
  else
    let pages := (s.localPages s.g.part s.g.ctx a (a + n)).filter fun e => page e.2
    (pages.foldl (fun s e => (pageLines e a (a + n)).foldl act s) s, .done)

theorem foldl_flatMap_lines (pages : List (Nat × Nat)) (lines : Nat × Nat → List Nat) (act : State → Nat → State) (s : State) :
    pages.foldl (fun s e => (lines e).foldl act s) s = (pages.flatMap lines).foldl act s := by
  induction pages generalizing s with
  | nil => rfl
  | cons p ps ih => rw [List.foldl_cons, ih, List.flatMap_cons, List.foldl_append]

theorem rangeLines_empty (s : State) (lo : Nat) (page : Nat → Bool) : s.rangeLines lo 0 page = [] := by
  unfold State.rangeLines
  refine List.flatMap_eq_nil_iff.2 fun e _ => ?_
  unfold pageLines
  rw [List.map_eq_nil_iff, List.filter_eq_nil_iff]
  intro i _
  simp only [Nat.add_zero, Bool.and_eq_true, decide_eq_true_eq]
  omega

/-- The pages and lines of a range are those the word began with. -/
theorem rangeLines_begun (s : State) (w : Word) (lo n : Nat) (page : Nat → Bool) : (s.begun w {}).rangeLines lo n page = s.rangeLines lo n page := by
  have hp : (s.g.begin w {}).part = s.g.part ∧ (s.g.begin w {}).ctx = s.g.ctx := by
    obtain ⟨v, r, u, h, -⟩ := begin_fields s.g w {}
    rw [h]
    exact ⟨rfl, rfl⟩
  unfold State.rangeLines
  rw [show (s.begun w {}).g.part = s.g.part from hp.1, show (s.begun w {}).g.ctx = s.g.ctx from hp.2]
  rfl

/-- What a group holds outstanding is as its word found it. -/
theorem begin_waits (g : Group) (w : Word) (ex : Extra) :
    (g.begin w ex).allPerformed = g.allPerformed ∧ (g.begin w ex).unver = g.unver ∧ (g.begin w ex).loadsReturned = g.loadsReturned ∧ (g.begin w ex).who = g.who ∧ (g.begin w ex).packets = g.packets := by
  obtain ⟨v, r, u, h, -⟩ := begin_fields g w ex
  rw [h]
  exact ⟨rfl, rfl, rfl, rfl, rfl⟩

theorem begin_readK (g : Group) (w : Word) (ex : Extra) (n : Nat) : (g.begin w ex).readK n = g.readK n := by
  obtain ⟨v, r, u, h, -⟩ := begin_fields g w ex
  rw [h]
  rfl

theorem begun_peek (s : State) (w : Word) (l : Loc) (n : Nat) (hl : l.space.isMemory = true) : (s.begun w {}).peek l n = s.peek l n :=
  SameBytes.peek (SameBytes.of_mem (s := s) (t := s.begun w {}) rfl) l n hl

/-- A maintenance word whose operands pass acts on the lines of its range. -/
theorem maintainBody_done (w : Word) (held : Group → Bool) (page : Nat → Bool) (act : State → Nat → State) (s : State) :
    let a := (s.g.readK w.f.a.toNat).toNat
    let n := (s.g.readK w.f.b.toNat).toNat
    a % 128 = 0 → n % 128 = 0 → a + n ≤ Config.vaBytes → held (s.g.begin w {}) = false →
    maintainBody w held page act (s.begun w {}) = ((s.rangeLines a n page).foldl act (s.begun w {}), .done) := by
  intro a n ha hn hle hh
  unfold maintainBody
  rw [show (s.begun w {}).g.readK w.f.a.toNat = s.g.readK w.f.a.toNat from begin_readK _ _ _ _, show (s.begun w {}).g.readK w.f.b.toNat = s.g.readK w.f.b.toNat from begin_readK _ _ _ _]
  dsimp only
  rw [if_neg (by simp [ha, hn, a, n] at *), if_neg (by omega)]
  split
  · next h0 => simp only [show n = 0 from h0, rangeLines_empty, List.foldl_nil]
  · rw [if_neg (by rw [show (s.begun w {}).g = s.g.begin w {} from rfl, hh]; decide), foldl_flatMap_lines, ← rangeLines_begun s w]
    rfl

theorem cwb_exec (f : FForm) (s : State) : exec (.cwb f) s = runWord (mkWord shapeCwb f) {} (maintainBody (mkWord shapeCwb f) (fun g => !g.allPerformed) (fun _ => true) cwbLine) s := rfl

theorem cwb_done (w : Word) (s : State) (hw : (w.allWrites {}).v = []) (hx : s.executes w {} = true) (hp : s.g.allPerformed = true) :
     let a := (s.g.readK w.f.a.toNat).toNat
     let n := (s.g.readK w.f.b.toNat).toNat
     a % 128 = 0 → n % 128 = 0 → a + n ≤ Config.vaBytes →
     ∃ t, runWord w {} (maintainBody w (fun g => !g.allPerformed) (fun _ => true) cwbLine) s = .next t ∧
       WordDone { s with mem := t.mem, work := { s.work with msgs := t.work.msgs } } t w {} s.g.aged (w.next s.g.pc) (w.stall + 1) ∧ s.SameMemory t ∧
       (t.alarmed = false → ∀ line ∈ s.rangeLines a n (fun _ => true), ∀ e ∈ t.mem.l2, e.1 = line → e.2.dirty = false) := by
  intro a n ha hn hle
  have hb := maintainBody_done w (fun g => !g.allPerformed) (fun _ => true) cwbLine s ha hn hle (by rw [(begin_waits _ _ _).1, hp]; rfl)
  obtain ⟨hc, hl⟩ := cwbLines_clean (s.rangeLines a n fun _ => true) (s.begun w {})
  obtain ⟨t, ht, hd, hmem, -, hsame⟩ := lines_done w _ s _ hx hw hb hc.lines
  have hal : t.alarmed = ((s.rangeLines a n fun _ => true).foldl cwbLine (s.begun w {})).alarmed := alarmed_congr hmem
  refine ⟨t, ht, hd, hsame, fun h line hline => ?_⟩
  have hclean := hl (hal.symm.trans h) line hline
  rw [← hmem] at hclean
  exact hclean

/-! ### Discarded lines -/

theorem mget_filter (m : Memory) (p : Nat → Bool) (a : Nat) (h : p a = true) : mget (m.filter fun c => p c.1) a = mget m a := by
  unfold mget
  induction m with
  | nil => rfl
  | cons c cs ih =>
    obtain ⟨k, v⟩ := c
    by_cases hk : p k = true
    · rw [List.filter_cons_of_pos (by exact hk)]
      simp only [tget, ih]
    · rw [List.filter_cons_of_neg (by exact hk), ih]
      simp only [tget]
      rw [if_neg (fun (e : k = a) => hk (e ▸ h))]

theorem mget_foldl_mset (cs m : Memory) (a : Nat) (h : ∀ c ∈ cs, c.1 ≠ a) : mget (cs.foldl (fun m c => mset m c.1 c.2) m) a = mget m a := by
  induction cs generalizing m with
  | nil => rfl
  | cons c cs ih => rw [List.foldl_cons, ih _ fun x hx => h x (List.mem_cons_of_mem _ hx), mget_mset, if_neg (h c List.mem_cons_self)]

/-- A copied range changes no byte outside it. -/
theorem mget_mcopyRange_outside (m src : Memory) (lo hi a : Nat) (h : a < lo ∨ hi ≤ a) : mget (mcopyRange m src lo hi) a = mget m a := by
  unfold mcopyRange mclear
  rw [mget_foldl_mset, mget_filter m (fun a => decide (a < lo) || decide (hi ≤ a)) a (by simpa using h)]
  intro c hc
  have := (List.mem_filter.1 hc).2
  simp only [Bool.and_eq_true, decide_eq_true_eq] at this
  omega

/-- What `cinv` does to one line of its range. -/
def cinvLine (s : State) (line : Nat) : State :=
  let s := { s with mem := { s.mem with l1 := s.mem.l1.filter fun c => c.line != line } }
  let s := if thas s.mem.l2 line then { s with mem := s.mem.discardLine line } else s
  let s := { s with mem := (s.mem.stir ⟨.hbm, 128 * line⟩ 128).tick }
  markConflicts s none ⟨.hbm, 128 * line⟩

/-- No copy of this line stands in an L1 or in L2. -/
def MemState.absent (m : MemState) (line : Nat) : Prop := (∀ c ∈ m.l1, c.line ≠ line) ∧ thas m.l2 line = false

/-- From s to t copies of the lines ls have gone: bytes elsewhere are as before, and of the groups only open regions may have changed. -/
structure State.Drops (s t : State) (ls : List Nat) : Prop where
  frame  : t = { s with mem := t.mem, g := { s.g with region := t.g.region }, groups := t.groups }
  groups : (t.groups.map fun h => { h with st := .free, region := none }) = (s.groups.map fun h => { h with st := .free, region := none })
  region : t.g.region.isSome = s.g.region.isSome
  bad    : t.mem.bad = s.mem.bad
  keeps  : ∀ line, s.mem.absent line → t.mem.absent line
  gone   : ∀ line ∈ ls, t.mem.absent line
  bytes  : ∀ l : Loc, l.space.isMemory = true → ¬(l.space = .hbm ∧ l.addr / 128 ∈ ls) → t.peek l 1 = s.peek l 1

theorem State.Drops.refl (s : State) : s.Drops s [] := ⟨rfl, rfl, rfl, rfl, fun _ h => h, fun _ h => (List.not_mem_nil h).elim, fun _ _ _ => rfl⟩

theorem State.Drops.trans {s t u : State} {ls ms : List Nat} (h : s.Drops t ls) (k : t.Drops u ms) : s.Drops u (ls ++ ms) := by
  refine ⟨?_, k.groups.trans h.groups, k.region.trans h.region, k.bad.trans h.bad, fun l a => k.keeps l (h.keeps l a), fun l hl => ?_, fun l hl hn => ?_⟩
  · refine k.frame.trans ?_
    rw [h.frame]
  · rcases List.mem_append.1 hl with hl | hl
    · exact k.keeps l (h.gone l hl)
    · exact k.gone l hl
  · rw [k.bytes l hl fun hc => hn ⟨hc.1, List.mem_append_right _ hc.2⟩, h.bytes l hl fun hc => hn ⟨hc.1, List.mem_append_left _ hc.2⟩]

theorem absent_of_filter (m : MemState) (p : Nat → Bool) (line : Nat) (h : m.absent line) : (∀ c ∈ m.l1.filter fun c => p c.line, c.line ≠ line) :=
  fun c hc => h.1 c (List.mem_of_mem_filter hc)

theorem thas_tdel (t : Tbl L2Line) (k j : Nat) : thas (tdel t k) j = (thas t j && j != k) := by
  unfold thas tdel
  rw [Bool.eq_iff_iff]
  simp only [List.any_eq_true, List.mem_filter, Bool.and_eq_true, bne_iff_ne, beq_iff_eq]
  constructor
  · rintro ⟨e, ⟨he, hk⟩, rfl⟩
    exact ⟨⟨e, he, rfl⟩, hk⟩
  · rintro ⟨⟨e, he, rfl⟩, hk⟩
    exact ⟨e, ⟨he, hk⟩, rfl⟩

/-- Conflicts marked in open regions. -/
theorem markConflicts_frame (s : State) (l : Loc) :
    markConflicts s none l = { s with g := { s.g with region := (markConflicts s none l).g.region }, groups := (markConflicts s none l).groups } ∧
      ((markConflicts s none l).groups.map fun h => { h with st := .free, region := none }) = (s.groups.map fun h => { h with st := .free, region := none }) ∧
      (markConflicts s none l).g.region.isSome = s.g.region.isSome := by
  unfold markConflicts State.mapGroups
  refine ⟨?_, ?_, ?_⟩
  · dsimp only
    split <;> rfl
  · dsimp only
    rw [List.map_map]
    refine List.map_congr_left fun h _ => ?_
    rw [Function.comp_apply]
    split <;> rfl
  · dsimp only
    split
    · exact Option.isSome_map
    · rfl

/-- What `cinv` does to the memories for one line. -/
def MemState.dropLine (m : MemState) (line : Nat) : MemState :=
  let m := { m with l1 := m.l1.filter fun c => c.line != line }
  ((if thas m.l2 line then m.discardLine line else m).stir ⟨.hbm, 128 * line⟩ 128).tick

theorem cinvLine_eq (s : State) (line : Nat) : cinvLine s line = markConflicts { s with mem := s.mem.dropLine line } none ⟨.hbm, 128 * line⟩ := by
  unfold cinvLine MemState.dropLine
  dsimp only
  split <;> rfl

theorem dropLine_fields (m : MemState) (line : Nat) :
    (m.dropLine line).bad = m.bad ∧ (m.dropLine line).host = m.host ∧ (m.dropLine line).peers = m.peers ∧ (m.dropLine line).spad = m.spad ∧
      (∀ c ∈ (m.dropLine line).l1, c ∈ m.l1 ∧ c.line ≠ line) ∧ (∀ j, thas (m.dropLine line).l2 j = (thas m.l2 j && j != line)) ∧
      ∀ a, a / 128 ≠ line → mget (m.dropLine line).hbm a = mget m.hbm a := by
  have hl1 : ∀ c, c ∈ m.l1.filter (fun c => c.line != line) → c ∈ m.l1 ∧ c.line ≠ line := fun c hc => ⟨List.mem_of_mem_filter hc, by simpa using List.of_mem_filter hc⟩
  unfold MemState.dropLine
  dsimp only
  split
  · refine ⟨rfl, rfl, rfl, rfl, fun c hc => hl1 c (List.mem_of_mem_filter hc), fun j => thas_tdel _ _ _, fun a ha => mget_mcopyRange_outside _ _ _ _ _ (by omega)⟩
  · next h =>
    refine ⟨rfl, rfl, rfl, rfl, hl1, fun j => ?_, fun _ _ => rfl⟩
    by_cases hj : j = line
    · subst hj
      have h0 : thas m.l2 j = false := by simpa using h
      exact h0.trans (by rw [h0]; rfl)
    · rw [show (j != line) = true by simpa using hj, Bool.and_true]
      rfl

/-- One line of its range goes. -/
theorem cinvLine_drops (s : State) (line : Nat) : s.Drops (cinvLine s line) [line] := by
  obtain ⟨hbad, hhost, hpeers, hspad, hl1, hl2, hhbm⟩ := dropLine_fields s.mem line
  obtain ⟨hframe, hgroups, hregion⟩ := markConflicts_frame { s with mem := s.mem.dropLine line } ⟨.hbm, 128 * line⟩
  rw [cinvLine_eq]
  refine ⟨hframe, hgroups, hregion, hbad, fun j hj => ⟨fun c hc => hj.1 c (hl1 c hc).1, ?_⟩, fun j hj => ?_, fun l hl hn => ?_⟩
  · exact (hl2 j).trans (by rw [hj.2]; rfl)
  · obtain rfl := List.mem_singleton.1 hj
    exact ⟨fun c hc => (hl1 c hc).2, (hl2 j).trans (by simp)⟩
  · rw [SameBytes.peek (markConflicts_same _ _ _) l 1 hl]
    unfold State.peek
    cases hs : l.space with
    | hbm =>
      rw [mbytes_one, mbytes_one]
      exact congrArg (fun b => [b]) (hhbm l.addr fun h => hn ⟨hs, by rw [h]; exact List.mem_singleton_self _⟩)
    | host => exact congrArg (fun m => mbytes m l.addr 1) hhost
    | peer d => exact congrArg (fun m => mbytes (tget [] m d) l.addr 1) hpeers
    | spad c => exact congrArg (fun m => mbytes (tget [] m c) l.addr 1) hspad
    | acc q t => rw [hs] at hl; cases hl
    | regs c k => rw [hs] at hl; cases hl

theorem cinvLines_drop (ls : List Nat) (s : State) : s.Drops (ls.foldl cinvLine s) ls := by
  induction ls generalizing s with
  | nil => exact State.Drops.refl s
  | cons l ls ih => exact (cinvLine_drops s l).trans (ih _)

/-- A word whose body drops lines completes with them gone. -/
theorem drops_done (w : Word) (body : State → State × Flow) (s c : State) (ls : List Nat) (hx : s.executes w {} = true) (hw : (w.allWrites {}).v = [])
    (hb : body (s.begun w {}) = (c, .done)) (hc : (s.begun w {}).Drops c ls) :
    ∃ t, runWord w {} body s = .next t ∧ WordDone { s with mem := t.mem, groups := t.groups } t w {} s.g.aged (w.next s.g.pc) (w.stall + 1) ∧ t.mem = c.mem ∧
      (t.groups.map fun h => { h with st := .free, region := none }) = (c.groups.map fun h => { h with st := .free, region := none }) := by
  have hm : c.mem.bad = none := hc.bad.trans (executes_sound (s := s) hx)
  have hreg : c.g.region.isSome = s.g.inreg := hc.region.trans (begin_inreg s.g w {})
  have hform : c = ({ ({ s with mem := c.mem, groups := c.groups } : State) with g := { s.g.aged with region := c.g.region, uninit := s.g.uninit || (w.allReads s.g {}).v.any s.g.unwrittenV, wait := .none } } : State) := by
    refine hc.frame.trans ?_
    rw [show (s.begun w {}).g = s.g.begin w {} from rfl, begin_aged s.g w {} hw]
    rfl
  obtain ⟨t, ht, ⟨hu, hp, hk⟩, -⟩ := word_done w {} body s { s with mem := c.mem, groups := c.groups } s.g.aged _ _ hx (hb.trans (congrArg (fun x => (x, Flow.done)) hform)) hm (executes_replay hx) hreg
  refine ⟨t, ht, ⟨⟨hu.sched, rfl, hu.work, hu.units, hu.plat, hu.parts, hu.graphs, hu.replicas, hu.ctxs, rfl⟩, hp, hk⟩, hu.mem, ?_⟩
  have hg := congrArg (List.map fun h : Group => { h with region := none }) hu.others
  rw [List.map_map, List.map_map] at hg
  exact hg

theorem cinv_done (w : Word) (s : State) (page : Nat → Bool) (hw : (w.allWrites {}).v = []) (hx : s.executes w {} = true) (hp : s.g.allPerformed = true) (hu : s.g.unver = false) :
    let a := (s.g.readK w.f.a.toNat).toNat
    let n := (s.g.readK w.f.b.toNat).toNat
    let lines := s.rangeLines a n page
    a % 128 = 0 → n % 128 = 0 → a + n ≤ Config.vaBytes →
    ∃ t, runWord w {} (maintainBody w (fun g => !g.allPerformed || g.unver) page cinvLine) s = .next t ∧ WordDone { s with mem := t.mem, groups := t.groups } t w {} s.g.aged (w.next s.g.pc) (w.stall + 1) ∧
      (t.groups.map fun h => { h with st := .free, region := none }) = (s.groups.map fun h => { h with st := .free, region := none }) ∧
      (∀ line ∈ lines, (∀ c ∈ t.mem.l1, c.line ≠ line) ∧ thas t.mem.l2 line = false) ∧
      ∀ l : Loc, l.space.isMemory = true → ¬(l.space = .hbm ∧ l.addr / 128 ∈ lines) → t.peek l 1 = s.peek l 1 := by
  intro a n lines ha hn hle
  have hb := maintainBody_done w (fun g => !g.allPerformed || g.unver) page cinvLine s ha hn hle (by rw [(begin_waits _ _ _).1, (begin_waits _ _ _).2.1, hp, hu]; rfl)
  have hc := cinvLines_drop lines (s.begun w {})
  obtain ⟨t, ht, hd, hmem, hgroups⟩ := drops_done w _ s _ lines hx hw hb hc
  refine ⟨t, ht, hd, hgroups.trans hc.groups, fun line hl => ?_, fun l hl hn => ?_⟩
  · have hgone := hc.gone line hl
    rw [← hmem] at hgone
    exact hgone
  · exact (SameBytes.peek (SameBytes.of_mem hmem) l 1 hl).trans ((hc.bytes l hl hn).trans (begun_peek s w l 1 hl))

theorem cinv_exec (f : FForm) (s : State) :
    exec (.cinv f) s = runWord (mkWord shapeCinv f) {} (maintainBody (mkWord shapeCinv f) (fun g => !g.allPerformed || g.unver) (fun e => e.testBit 5 && !e.testBit 10) cinvLine) s := rfl

/-- Settles O21: `cwb` cleans the lines of its range, `cinv` drops them. -/
theorem cacheRanges : Obligations.CacheRanges := by
  refine ⟨fun f w s hw hx hp => ?_, fun f w s hw hx hp hu => ?_⟩
  · have e := Option.some.inj hw
    subst e
    exact cwb_done (mkWord shapeCwb f) s rfl hx hp
  · have e := Option.some.inj hw
    subst e
    intro a n lines ha hn _ hle
    exact cinv_done (mkWord shapeCinv f) s (fun e => e.testBit 5 && !e.testBit 10) rfl hx hp hu ha hn hle

end Sys2Proof.Machine
end

section
/-! The refutation of O42: a step may leave the issuing group in a free slot with its number. -/

namespace Sys2Proof.Machine

open Sys2Proof

/-- Group 1 is parked, and the state that its slot left is FREE, which the invariant does not forbid. -/
def parkedFromFree : State := { g := { uid := 1, st := .parked, left := .free }, work := { nextUid := 2 } }

/-- Its restore stands on the agenda. -/
noncomputable def restoreDue : State := { parkedFromFree with sched := { agenda := [.parkedRestore 1] } }

theorem restoreDue_inv : restoreDue.Inv where
  memories := by decide
  numbered :=
    ⟨by decide, by decide, by decide, fun _ h => (List.not_mem_nil h).elim, ⟨by decide, fun _ h => (List.not_mem_nil h).elim⟩, fun _ h => (List.not_mem_nil h).elim,
      fun _ h => (List.not_mem_nil h).elim, fun _ h => (List.not_mem_nil h).elim, fun _ h => (List.not_mem_nil h).elim⟩
  issuing := ⟨by decide, by decide⟩
  others := fun _ h => (List.not_mem_nil h).elim
  settled := rfl
  quiet := rfl
  sound := rfl

/-- The state after the step: the slot of group 1 is FREE, and its number stands. -/
def freeWithNumber : State := { g := { uid := 1, st := .free, left := .free }, work := { nextUid := 2 } }

theorem parkedRestore_frees : exec (.parkedRestore 1) parkedFromFree = .next freeWithNumber := rfl

theorem freeWithNumber_settles : settled (.next freeWithNumber) = .next freeWithNumber := by
  have h : freeWithNumber.settle = freeWithNumber := by decide
  exact congrArg answer h

/-- Refutes O42: a parked group may have come from a FREE slot, and its restore (R108) leaves that slot FREE with the group's number, where the invariant lets no free slot hold one. -/
theorem not_stepKeepsInvariant : ¬ Obligations.StepKeepsInvariant := by
  intro h
  have hstep : step restoreDue = .next freeWithNumber :=
    (step_agenda restoreDue (.parkedRestore 1) [] rfl rfl rfl).trans ((congrArg settled parkedRestore_frees).trans freeWithNumber_settles)
  have hinv := h restoreDue freeWithNumber restoreDue_inv hstep
  exact absurd (hinv.numbered.idle rfl) (by decide)

end Sys2Proof.Machine
end

section
/-! The refutation of O19: a fence of a group whose slot is free. -/

namespace Sys2Proof.Machine

open Sys2Proof

/-- What f reads in the next state of an answer, d where there is none. -/
def inNext {α : Type} (d : α) (f : State → α) : Answer → α
  | .next t => f t
  | _ => d

theorem inNext_eq {α : Type} {d x : α} {f : State → α} {a : Answer} {t : State} (h : inNext d f a = x) (ht : a = .next t) : f t = x := by
  rw [ht] at h
  exact h

/-- An acquire fence at scope G. -/
def acquireFence : FForm := { xf := 8 }

/-- The issuing group stands in a FREE slot and has seen the memory of moment 1. -/
def freeReader : State := { g := { uid := 1, st := .free, pc := 0x10000, m0 := 1, mode := 0x10000000, regs := 255, seen := 1 }, tabs := { parts := [(0, { st := .active })], ctxs := [(0, { st := 1 })] } }

theorem freeReader_unmoved : inNext 1 (fun t => t.g.notBefore) (exec (.fence acquireFence) freeReader) = 0 := by decide

/-- Refutes O19: what an acquire at scope G does, it does to groups in slots that are not FREE (`mapGroups`); a fence that issues from a FREE slot leaves
`notBefore` at 0, though the group has seen the memory of moment 1. -/
theorem not_fencesComplete : ¬ Obligations.FencesComplete := by
  intro h
  obtain ⟨⟨hfence, -⟩, -⟩ := h
  obtain ⟨t, ht, -, -, -, -, -, -, hg, -⟩ := hfence acquireFence (mkWord shapeFence acquireFence) freeReader rfl (by decide) (fun _ => rfl) (fun h => absurd h (by decide)) (by decide)
  have h1 := (hg rfl (.inl rfl)).2
  rw [inNext_eq freeReader_unmoved ht] at h1
  exact absurd h1 (by decide)

end Sys2Proof.Machine
end

section
/-! The refutation of O17: a partner under the issuing group's own number. -/

namespace Sys2Proof.Machine

open Sys2Proof

/-- A `vxchg` that sends zeros and keeps nothing. -/
def idleExchange : FForm := { d := 255, a := 255 }

/-- Group 1 issues; the partner that waits in slot 1 has its number, and a replay that would bring back the mask 5. -/
def sameNumbers : State :=
  { g := { uid := 1, st := .ready, pc := 0x10000, m0 := 1, mode := 0x10000000, regs := 255, pair := 0x8001 }
    groups := [{ uid := 1, slot := 1, st := .waitPair, wait := .pair, pair := 0x8000, mode := 0x10000000, regs := 255,
                 sent := some { ty := 0, vals := [], d := 255, active := 0 }, replay := some { lanes := 1, back := 5 } }]
    tabs := { parts := [(0, { st := .active })], ctxs := [(0, { st := 1 })] } }

/-- The partner that the exchange finds. -/
def namesake : Group :=
  { uid := 1, slot := 1, st := .waitPair, wait := .pair, pair := 0x8000, mode := 0x10000000, regs := 255,
    sent := some { ty := 0, vals := [], d := 255, active := 0 }, replay := some { lanes := 1, back := 5 } }

theorem sameNumbers_m0 : inNext 0 (fun t => t.g.m0) (exec (.vxchg idleExchange) sameNumbers) = 5 := by decide

/-- Refutes O17: where the partner has the issuing group's own number, what is delivered to the partner takes the issuing group's place (`putGroup`), and its
pending replay ends with the word: m0 is then 5, not the mask 0 with which the group was put back. -/
theorem not_exchangeRendezvous : ¬ Obligations.ExchangeRendezvous := by
  intro h
  obtain ⟨-, hmeet⟩ := h idleExchange (mkWord shapeVxchg idleExchange) sameNumbers namesake rfl (by decide) rfl (by decide) (by decide)
  obtain ⟨t, ht, -, -, hk⟩ := hmeet _ rfl rfl rfl rfl
  have hm := hk.m0
  rw [inNext_eq sameNumbers_m0 ht] at hm
  exact absurd hm (by decide)

end Sys2Proof.Machine
end

section
/-! The refutations of O30, O33, O50, O55, O56 and O58. -/

namespace Sys2Proof.Machine

open Sys2Proof

/-- An empty region of scope P, opened by the word before. -/
def emptyRegion : Region :=
  { scope := 5, fallback := 0x10000, opened := 0x10000, reads := [], words := [], pages := [], cons := [], stores := [], tags := [],
    v := [], k := [], m := [], mode := 0x10000000, gens := [], count := 0 }

/-- An `acom` whose answer is discarded. -/
def silentCommit : FForm := {}

/-- Group 1 has an empty region open; group 2 has the stray load of its context in flight, and the version of scope P stands at 15. -/
def strayCommit : State :=
  { g := { uid := 1, st := .ready, pc := 0x10008, m0 := 1, mode := 0x10000000, regs := 255, region := some emptyRegion }
    groups := [{ uid := 2, st := .ready, m0 := 1, regs := 255, slot := 1, reqs := [strayLoad], nextReq := 1 }]
    mem := { vers := [(0, { p := 15 })] }
    tabs := { parts := [(0, { st := .active })], ctxs := [(0, { st := 1 })] } }

theorem strayCommit_faults : goesOn (exec (.acom silentCommit) strayCommit) = false := by decide

/-- Refutes O30: the commit is an acquire at the region's scope; where the version of that scope stands at 15, the fills in flight of the context land
(R179), and one beyond local HBM ends the step in the model's fault (log 7), though every store of the region was made. -/
theorem not_regionsCommit : ¬ Obligations.RegionsCommit := by
  intro h
  obtain ⟨-, hcommit, -⟩ := h silentCommit (mkWord shapeAcom silentCommit) strayCommit emptyRegion rfl rfl (by decide) rfl rfl
  obtain ⟨t, ht, -⟩ := hcommit (by decide) (by decide) (by decide) (by decide)
  have hf := strayCommit_faults
  rw [ht] at hf
  cases hf

/-- Group 1 launches with nothing left to load; group 2 of its context has the stray load in flight, and the version of scope P stands at 15. -/
def strayLaunch : State :=
  { g := {}
    groups := [{ uid := 1, st := .launching, m0 := 1, regs := 255 }, { uid := 2, st := .ready, m0 := 1, regs := 255, slot := 1, reqs := [strayLoad], nextReq := 1 }]
    mem := { vers := [(0, { p := 15 })] }
    units := { quads := [(0, { released := true })] }
    tabs := { parts := [(0, { st := .active })], ctxs := [(0, { st := 1 })] } }

theorem strayLaunch_faults : goesOn (exec (.groupLaunchComplete 1) strayLaunch) = false := by decide

/-- Refutes O55: a group that becomes ready acquires at package scope; where that version stands at 15, the fills in flight of its context land (R179), and
one beyond local HBM ends the step in the model's fault (log 7). -/
theorem not_launchSteps : ¬ Obligations.LaunchSteps := by
  intro h
  obtain ⟨-, -, -, hready, -⟩ := h
  obtain ⟨t, x, ht, -⟩ := hready 1 strayLaunch _ rfl rfl rfl (by decide) (by decide) rfl (by decide) rfl
  have hf := strayLaunch_faults
  rw [ht] at hf
  cases hf

/-- Two groups have the number 1: a parked one that left WAIT_EXT, and one that waits for the end of a window. -/
def parkedTwin : State :=
  { g := {}
    groups := [{ uid := 1, st := .parked, left := .waitExt, m0 := 1, regs := 255 }, { uid := 1, st := .waitExt, wait := .other, m0 := 1, regs := 255, slot := 1 }] }

/-- The parked one. -/
def parkedFirst : Group := { uid := 1, st := .parked, left := .waitExt, m0 := 1, regs := 255 }

theorem parkedTwin_woken : inNext .waitExt (fun t => ((t.group? 1).map Group.st).getD .waitExt) (exec (.parkedRestore 1) parkedTwin) = .ready := by decide

/-- Refutes O56: what comes back from the pool wakes the groups that wait for the end of a window, by their numbers (`wakeWindows`); where one of them has
the number of the parked group, the parked group is woken as well, and is READY instead of in the state it left. -/
theorem not_savedStateSteps : ¬ Obligations.SavedStateSteps := by
  intro h
  obtain ⟨-, -, -, -, -, -, -, hback, -⟩ := h
  obtain ⟨t, x, ht, hx, hst, -⟩ := hback 1 parkedTwin parkedFirst rfl rfl (by decide) (by decide) (by decide) (by decide) (by decide) rfl
  have hw := inNext_eq parkedTwin_woken ht
  simp only [hx, Option.map_some, Option.getD_some, hst] at hw
  exact absurd hw (by decide)

/-! ### O33 -/

/-- One 4-byte element on virtual page 5. -/
def oneElement : Tensor := { base := 0x50000, sbase := 0, dims := [1, 1], strs := [4], fmt := 8, planar := false, baxis := 0, rank := 2, planes := 0, reuse := 0 }

/-- The slice of group 1 that holds the operation. -/
def loadSlice : Slice := { uid := 1, seq := 0, batch := 0, after := 0, z := 0, word0 := 0, word1 := 0 }

/-- An `mload` of the element; an earlier request for host frame 9 was refused. -/
def refusedLoad : MatOp := { kind := 2, core := 0, slices := [loadSlice], tel := some oneElement, refused := [9] }

/-- The group whose tile is loaded. -/
def tileOwner : Group := { uid := 1, st := .ready, m0 := 1, regs := 255, tiles := [0], matOps := [(0, 0)] }

/-- Page 5 lies on host frame 9, whose translation has come since, and whose first byte is 7. -/
def refusedHost : State :=
  { g := tileOwner
    units := { quads := [(0, { mat := [refusedLoad] })] }
    mem := { host := [(0x90000, 7)], hostHeld := [9]
             tlb := [{ core := 0, part := 0, ctx := 0, leaf := { vpn := 5, frame := 9, target := 1, peer := 0, r := true, w := false, x := false, repl := false, large := false } }] } }

theorem loadTile_cons_outside {h : Group} {o : MatOp} {t : Tensor} {n : Nat} {ns : List Nat} {vs : List Nat} {s u : State}
    (hn : t.cell (o.origin.toNat % 2 ^ 32 + n / 64) (o.origin.toNat / 2 ^ 32 + n % 64) = none) (hns : State.loadTile h o t ns s = (.ok vs, u)) :
    State.loadTile h o t (n :: ns) s = (.ok (0 :: vs), u) := by
  simp only [State.loadTile, hn, hns]

theorem loadTile_cons_inside {h : Group} {o : MatOp} {t : Tensor} {n v : Nat} {ns : List Nat} {vs : List Nat} {idx : List Nat} {s s' u : State}
    (hn : t.cell (o.origin.toNat % 2 ^ 32 + n / 64) (o.origin.toNat / 2 ^ 32 + n % 64) = some idx) (hr : s.engineRead h t.reuse (t.addr idx) 4 = (.ok v, s'))
    (hns : State.loadTile h o t ns s' = (.ok vs, u)) : State.loadTile h o t (n :: ns) s = (.ok (v :: vs), u) := by
  simp only [State.loadTile, hn, hr, hns]

/-- Elements outside the source read 0 and change nothing. -/
theorem loadTile_outside (h : Group) (o : MatOp) (t : Tensor) (s : State) : ∀ ns : List Nat,
    (∀ n ∈ ns, t.cell (o.origin.toNat % 2 ^ 32 + n / 64) (o.origin.toNat / 2 ^ 32 + n % 64) = none) → State.loadTile h o t ns s = (.ok (ns.map fun _ => 0), s)
  | [], _ => rfl
  | n :: ns, hn => loadTile_cons_outside (hn n List.mem_cons_self) (loadTile_outside h o t s ns fun k hk => hn k (List.mem_cons_of_mem n hk))

theorem oneElement_cell (r c : Nat) (h : 0 < r ∨ 0 < c) : oneElement.cell r c = none := by
  simp only [Tensor.cell, oneElement, Tensor.dim, List.range_succ]
  rcases h with h | h <;> simp <;> omega

theorem refusedHost_reads : State.loadTile tileOwner refusedLoad oneElement (List.range 4096) refusedHost = (.ok (7 :: ((List.range 4095).map Nat.succ).map fun _ => 0), refusedHost) := by
  rw [List.range_succ_eq_map]
  refine loadTile_cons_inside (idx := [0, 0]) (by decide) rfl (loadTile_outside _ _ _ _ _ fun n hn => oneElement_cell _ _ ?_)
  obtain ⟨m, -, rfl⟩ := List.mem_map.mp hn
  simp only [refusedLoad]
  omega

theorem refusedHost_untouched : inNext 7 (fun t => (t.accTile 0 0).getD 0 7) (exec (.matrixOpComplete 0) refusedHost) = 0 := by decide +kernel

/-- Refutes O33: the unit runs an `mload` with the host frames whose requests were refused (`runMat`), the statement reads the elements without them. The
page of this source lies on such a frame, of which the host has granted another request: the operation faults and leaves the tile as it was, 0, not 7. -/
theorem not_matrixOpsComplete : ¬ Obligations.MatrixOpsComplete := by
  intro h
  obtain ⟨-, hload, -⟩ := h 0 refusedHost refusedLoad [] loadSlice tileOwner ⟨rfl, rfl, rfl, rfl, rfl, rfl, fun h => absurd h (by decide), rfl⟩
  obtain ⟨t, ht, htile, -⟩ := hload oneElement _ _ rfl rfl refusedHost_reads rfl (by decide)
  have hw := inNext_eq refusedHost_untouched ht
  have he : t.accTile 0 0 = _ := htile.tile
  rw [he] at hw
  exact absurd hw (by decide)

/-! ### O50 -/

/-- A `tpatch` of field 0 of entry 1 by the value of k0, its answer discarded. -/
def patchBase : FForm := {}

/-- Entry 1, field 0. -/
def entryOne : SetLit := { t1 := 1 }

/-- Entry 1 of context 0 stands valid at 0x80040; a line of it that context 1 has read lies in the same core's L1. -/
def sharedEntry : State :=
  { g := { uid := 1, st := .ready, pc := 0x10000, m0 := 1, mode := 0x10000000, regs := 255 }
    tabs := { parts := [(0, { st := .active })], ctxs := [(0, { st := 1, catbase := 0x80000 })] }
    mem := { hbm := [(0x80078, 8), (0x80079, 0x82)], l2 := [(0x1000, {})], l1 := [{ core := 0, part := 0, ctx := 1, line := 0x1000, bytes := [] }] } }

/-- The bytes of the entry. -/
def entryBytes : List Byte := List.replicate 56 0 ++ [8, 0x82] ++ List.replicate 6 0

theorem sharedEntry_dropped : inNext 1 (fun t => t.mem.l1.length) (exec (.tpatch patchBase entryOne) sharedEntry) = 0 := by decide

/-- Refutes O50: the word writes the entry as its own core does, which drops that core's L1 lines of the entry (R178); the statement writes it as the
hardware does, at no core, and then a line that another context of the core holds would stay. -/
theorem not_catalogueAndHandles : ¬ Obligations.CatalogueAndHandles := by
  intro h
  obtain ⟨-, hpatch, -⟩ := h
  have hp := hpatch (.tpatch patchBase entryOne) patchBase entryOne false (mkWord shapeTpatch patchBase (.set entryOne)) sharedEntry (.inl ⟨rfl, rfl⟩) rfl
    (by decide) (by decide) (by decide) (by decide)
  obtain ⟨ha, -⟩ := hp.1 entryBytes 0 (by decide)
  obtain ⟨t, ht, hd, -⟩ := ha (by decide) (by decide)
  have hl := inNext_eq sharedEntry_dropped ht
  rw [hd.units.mem] at hl
  exact absurd hl (by decide)

/-! ### O58 -/

/-- Partition 0 holds frame 0; its metadata lists tile 1 at levels 1 and 3, and the data tile 2 at level 2 beside tile 320, whose entry is not the one it was
handed over with. A re-keying is under way. -/
def twiceListed : State :=
  { tabs := { parts := [(0, { st := .paused, frames := [0], metas := [[1], [320, 2], [1]], rekeying := some (0, 0, .active) })] }
    mem := { tiles := [(2, {}), (3, {}), (320, { ver := 1 })] } }

/-- The re-keying's second step. -/
def rekeyRequest : MgmtReq := { sender := 0, epoch := 0 }

theorem twiceListed_unalarmed : inNext false (fun t => t.mem.alarms.isEmpty) (exec (.rekey rekeyRequest 0 0 0) twiceListed) = true := by decide

/-- Refutes O58: the check of tile 2 brings tile 1 on die as its level 3; the path of tile 3 then ends at tile 1, its level 1, and the tile 320 above it is
not read. No alarm stands, though the path of tile 3 has a fault before the re-keying. -/
theorem not_managementRequests : ¬ Obligations.ManagementRequests := by
  intro h
  obtain ⟨-, -, -, -, -, -, -, -, -, -, -, hkey, -⟩ := h
  obtain ⟨-, -, hfault⟩ := hkey rekeyRequest 0 0 0 0 0 .active twiceListed rfl rfl
  obtain ⟨t, ht, -, -, -, halarm, -⟩ := hfault (by decide) ⟨3, by decide, .inr (by decide)⟩
  have hu := inNext_eq twiceListed_unalarmed ht
  exact halarm (List.isEmpty_iff.mp hu)

end Sys2Proof.Machine
end

section
/-! O60: the SPDM responder (R409, R410). -/

namespace Sys2Proof.Machine

open Sys2Proof

theorem freeBytes_length : ∀ (n : Nat) (s : State), (freeBytes n s).1.length = 8 * n
  | 0, _ => rfl
  | n + 1, s => by
    simp only [freeBytes, List.length_append, leBytes_length, freeBytes_length n]
    omega

theorem freeBytes_state : ∀ (n : Nat) (s : State), (freeBytes n s).2 = { s with sched := { s.sched with free := s.sched.free + n } }
  | 0, _ => rfl
  | n + 1, s => by
    simp only [freeBytes, freeBytes_state n, State.freeValue]
    simp only [Nat.add_assoc, Nat.add_comm 1 n]

/-- A request has been recorded and answered with what the spec names and, if signed, a signature (R410). -/
def State.Replied (s t : State) (code : Nat) (known : List Byte) (signed : Bool) : Prop :=
  ∃ sig : List Byte, sig.length = (if signed then 3309 else 0) ∧ t.plat.spdm = s.plat.spdm ++ [code] ∧ t.plat.replies = s.plat.replies ++ [known ++ sig] ∧
    (signed = false → t.sched = s.sched) ∧ { t with sched := { t.sched with free := s.sched.free }, plat := s.plat } = s

theorem spdmReply_version (s : State) (known : List Byte) :
    s.spdmReply 1 known = { s with plat := { s.plat with spdm := s.plat.spdm ++ [1], replies := s.plat.replies ++ [known] } } := by
  simp [State.spdmReply]

theorem spdmReply_replied {s : State} (code : Nat) (known : List Byte) (hb : s.plat.booted = true) : s.Replied (s.spdmReply code known) code known false := by
  simp only [State.spdmReply, hb]
  exact ⟨[], rfl, rfl, by simp, fun _ => rfl, rfl⟩

theorem spdmSigned_replied {s : State} (code : Nat) (known : List Byte) (hb : s.plat.booted = true) : s.Replied (s.spdmSigned code known) code known true := by
  simp only [State.spdmSigned, hb, State.spdmReply, freeBytes_state]
  refine ⟨_, ?_, rfl, rfl, fun h => absurd h (by decide), rfl⟩
  simp [freeBytes_length, signatureBytes]

theorem spdmReply_silent {s : State} {code : Nat} (known : List Byte) (hb : s.plat.booted = false) (hc : code ≠ 1) : s.spdmReply code known = s := by
  simp [State.spdmReply, hb, hc]

theorem spdmSigned_silent {s : State} (code : Nat) (known : List Byte) (hb : s.plat.booted = false) : s.spdmSigned code known = s := by
  simp [State.spdmSigned, hb]

/-- What the responder does with a request that is answered by this state. -/
def State.Responds (s : State) (i : Instr) (u : State) (code : Nat) (known : List Byte) (signed : Bool) : Prop :=
  exec i s = answer u ∧ (s.plat.booted = false → u = s) ∧ (s.plat.booted = true → s.Replied u code known signed)

theorem reply_responds {s : State} {i : Instr} {code : Nat} {known : List Byte} (hi : exec i s = answer (s.spdmReply code known)) (hc : code ≠ 1) :
    s.Responds i (s.spdmReply code known) code known false :=
  ⟨hi, fun h => spdmReply_silent known h hc, spdmReply_replied code known⟩

theorem signed_responds {s : State} {i : Instr} {code : Nat} {known : List Byte} (hi : exec i s = answer (s.spdmSigned code known)) :
    s.Responds i (s.spdmSigned code known) code known true :=
  ⟨hi, spdmSigned_silent code known, spdmSigned_replied code known⟩

theorem getMeasurements_responds {s : State} {index vf : Nat} {nonce : BitVec 256} (h : (decide (1 ≤ index) && decide (index ≤ 7)) = true) :
    ∃ u, s.Responds (.getMeasurements index vf nonce) u 7
      (leBytes 32 nonce.toNat ++ (if index = 7 then [tdispByte (tget TdispState.configUnlocked s.plat.tdisp vf)] else tget [] s.plat.measures index)) true :=
  ⟨_, signed_responds (show execGetMeasurements index vf nonce s = _ from congrArg answer (if_pos h))⟩

theorem keyExchange_exec {s : State} (session : Nat) (exchange : List Byte) (hb : s.plat.booted = true) :
    exec (.keyExchange session exchange) s =
      answer { s.spdmSigned 8 exchange with plat := { (s.spdmSigned 8 exchange).plat with session := some (session, exchange) } } :=
  congrArg answer (if_neg (by rw [hb]; decide))

theorem keyExchange_responds (s : State) (session : Nat) (exchange : List Byte) : ∃ u, s.Responds (.keyExchange session exchange) u 8 exchange true := by
  cases hb : s.plat.booted with
  | false => exact ⟨s, congrArg answer (if_pos (by rw [hb]; rfl)), fun _ => rfl, fun h => absurd h (by rw [hb]; decide)⟩
  | true =>
    refine ⟨_, keyExchange_exec session exchange hb, fun h => absurd h (by rw [hb]; decide), fun h => ?_⟩
    obtain ⟨sig, hsig, hspdm, hreplies, -, hrest⟩ := spdmSigned_replied 8 exchange h
    exact ⟨sig, hsig, hspdm, hreplies, fun h => absurd h (by decide), hrest⟩

theorem spdmOf_responds {i : Instr} {s : State} {code : Nat} {known : List Byte} {signed : Bool} (h : spdmOf i s = some (code, known, signed)) :
    ∃ u, s.Responds i u code known signed := by
  cases i
  case getMeasurements index vf nonce =>
    simp only [spdmOf] at h
    split at h
    case isTrue hk =>
      cases h
      exact getMeasurements_responds hk
    case isFalse => cases h
  case keyExchange session exchange => cases h; exact keyExchange_responds s session _
  case getCapabilities => cases h; exact ⟨_, reply_responds rfl (by decide)⟩
  case negotiateAlgorithms => cases h; exact ⟨_, reply_responds rfl (by decide)⟩
  case getDigests => cases h; exact ⟨_, reply_responds rfl (by decide)⟩
  case getCertificate => cases h; exact ⟨_, reply_responds rfl (by decide)⟩
  case challenge => cases h; exact ⟨_, signed_responds rfl⟩
  all_goals cases h

/-- Settles O60: each request is one of the two kinds of reply, of which only the signed one draws free values. -/
theorem attestationReplies : Obligations.AttestationReplies := by
  refine ⟨fun s hm => ⟨_, (congrArg answer (spdmReply_version s [1, 4])).trans (answer_next _ hm), rfl, rfl⟩, fun i s code known signed hm h => ?_, fun session exchange s t hb h => ?_⟩
  · obtain ⟨u, hu, hsilent, hreplied⟩ := spdmOf_responds h
    refine ⟨fun hb => by rw [hu, hsilent hb, answer_next _ hm], fun hb => ?_⟩
    obtain ⟨sig, hsig, hspdm, hreplies, hsched, hrest⟩ := hreplied hb
    have hmem : u.mem = s.mem := (congrArg State.mem hrest :)
    exact ⟨u, sig, by rw [hu, answer_next _ (by rw [hmem]; exact hm)], hsig, hspdm, hreplies, hsched, hrest⟩
  · rw [keyExchange_exec session exchange hb, answer] at h
    split at h
    · cases h
    · cases h
      rfl

end Sys2Proof.Machine
end

section
/-! O24: the return from a fault (R164). -/

namespace Sys2Proof.Machine

open Sys2Proof

/-- One 64-byte quarter of the record is read. -/
def readQuarter (acc : Except Trans (List Byte) × State) (q : Nat) : Except Trans (List Byte) × State :=
  match acc with
  | (.error t, s) => (.error t, s)
  | (.ok bs, s) =>
    let r := s.translate s.g .read (s.g.frecAt.toNat + 64 * q)
    match r.1 with
    | .ok l _ => let e := r.2.loadVerified s.g.who l 64; (.ok (bs ++ e.1), e.2)
    | t => (.error t, r.2)

theorem readQuarter_drift (acc : Except Trans (List Byte) × State) (q : Nat) : acc.2.Drift (readQuarter acc q).2 := by
  obtain ⟨x, s⟩ := acc
  cases x with
  | error t => exact Drift.refl s
  | ok bs =>
    have ht := translate_drift s s.g .read (s.g.frecAt.toNat + 64 * q)
    simp only [readQuarter]
    split
    · exact Drift.trans ht (loadVerified_drift _ _ _ _)
    · exact ht

theorem readRecord_eq (s : State) : s.readRecord = (List.range 4).foldl readQuarter (.ok [], s) := rfl

theorem readQuarters_drift (qs : List Nat) (acc : Except Trans (List Byte) × State) : acc.2.Drift (qs.foldl readQuarter acc).2 := by
  induction qs generalizing acc with
  | nil => exact Drift.refl _
  | cons q qs ih => exact Drift.trans (readQuarter_drift acc q) (ih _)

theorem readRecord_drift (s : State) : s.Drift s.readRecord.2 := by
  rw [readRecord_eq]
  exact readQuarters_drift _ (.ok [], s)

/-- The return changes the path table, m0, PC, SUP, the state of the slot and a replay. -/
theorem returnFrom_fields (g : Group) (bs : List Byte) :
    g.returnFrom bs = { g with paths := (List.range 8).map fun i => pathOfBytes ((bs.drop (0x40 + 16 * i)).take 16), m0 := BitVec.ofNat 32 (leNat ((bs.drop 8).take 4)), sup := false, st := .ready,
                               pc := (g.returnFrom bs).pc, replay := (g.returnFrom bs).replay } := by
  unfold Group.returnFrom
  dsimp only
  split
  · rfl
  · split <;> rfl

/-- Where the return goes (log 16). -/
theorem returnFrom_place (g : Group) (bs : List Byte) :
    let nat := fun a n => leNat ((bs.drop a).take n)
    let flags := nat 1 1
    let replay : Mask := BitVec.ofNat 32 (nat 4 4)
    let pc := pcBits (BitVec.ofNat 64 (nat 0x10 8))
    let h := g.returnFrom bs
    (flags % 2 = 1 → h.pc = pc ∧ h.replay = g.replay) ∧
      (flags % 2 = 0 → replay = 0 → h.pc = pcBits (pc + (if flags / 2 % 2 = 1 then 16 else 8)) ∧ h.replay = g.replay) ∧
      (flags % 2 = 0 → replay ≠ 0 → h.pc = pc ∧ h.replay = some { lanes := replay, back := BitVec.ofNat 32 (nat 8 4) }) := by
  dsimp only [Group.returnFrom]
  refine ⟨fun h1 => ?_, fun h0 hz => ?_, fun h0 hz => ?_⟩
  · rw [if_pos h1]
    exact ⟨rfl, rfl⟩
  · rw [if_neg (by omega), if_pos hz]
    exact ⟨rfl, rfl⟩
  · rw [if_neg (by omega), if_neg hz]
    exact ⟨rfl, rfl⟩

theorem returned_next (w : Word) (ex : Extra) (body : State → State × Flow) (s b : State) (h : s.executes w ex = true) (hb : body (s.begun w ex) = (b, .returned)) (hm : b.mem.bad = none) :
    ∃ t, runWord w ex body s = .next t ∧ b.SameUnits t ∧ t.g = b.g.advance w b.g.pc (max 3 (w.stall + 1)) := by
  refine ⟨{ b.issued with g := b.issued.g.advance w b.issued.g.pc (max 3 (w.stall + 1)) }, ?_, SameUnits.trans (issued_same b) (SameUnits.of_g _ _), by rw [issued_g]⟩
  rw [runWord_executes w ex body s h, hb]
  refine answer_next _ ?_
  rw [show (s.conclude w ex (b, Flow.returned)).mem = b.issued.mem from rfl, (issued_same b).mem]
  exact hm

/-- The body of `eret`. -/
def eretBody (s : State) : State × Flow :=
  match s.readRecord.1 with
  | .ok bs => ({ s.readRecord.2 with g := s.readRecord.2.g.returnFrom bs }, .returned)
  | .error t => (s.readRecord.2, t.flow s.g.frecAt)

theorem eret_exec (f : FForm) (s : State) : exec (.eret f) s = runWord (mkWord shapeEret f) (extraOf (.eret f) s) eretBody s := rfl

theorem eretBody_ok {s s1 : State} {bs : List Byte} (hr : s.readRecord = (.ok bs, s1)) : eretBody s = ({ s1 with g := s1.g.returnFrom bs }, .returned) := by
  simp only [eretBody, hr]

/-- `eret` reads its record without a change of what it keeps, and leaves the group as `returnFrom` says. -/
theorem eret_done (f : FForm) (s s1 : State) (bs : List Byte) (hx : s.executes (mkWord shapeEret f) (extraOf (.eret f) s) = true)
    (hr : (s.begun (mkWord shapeEret f) (extraOf (.eret f) s)).readRecord = (.ok bs, s1)) (hm : s1.mem.bad = none) :
    ∃ t lp r u pt, exec (.eret f) s = .next t ∧ s1.SameUnits t ∧ s1.g = { s.g.aged with lastPage := lp, region := r, uninit := u, pendTiles := pt, wait := .none } ∧
      t.g = (s1.g.returnFrom bs).advance (mkWord shapeEret f) (s1.g.returnFrom bs).pc (max 3 ((mkWord shapeEret f).stall + 1)) := by
  obtain ⟨lp, r, pt, hg⟩ := (readRecord_drift (s.begun (mkWord shapeEret f) (extraOf (.eret f) s))).g
  rw [hr, begun_g, begin_aged s.g _ _ rfl] at hg
  obtain ⟨t, ht, hu, htg⟩ := returned_next (mkWord shapeEret f) (extraOf (.eret f) s) eretBody s { s1 with g := s1.g.returnFrom bs } hx (eretBody_ok hr) hm
  exact ⟨t, lp, r, _, pt, (eret_exec f s).trans ht, SameUnits.trans (SameUnits.of_g s1 _) hu, hg, htg⟩

/-- Settles O24: `eret` completes where its record is read, and the group stands where the record says. -/
theorem returnFromFault : Obligations.ReturnFromFault := by
  intro f w s s1 bs hw hx hr hm
  have e := Option.some.inj hw
  subst e
  obtain ⟨t, lp, r, u, pt, ht, hu, hs1, hg⟩ := eret_done f s s1 bs hx hr hm
  obtain ⟨hfull, hnext, hagain⟩ := returnFrom_place s1.g bs
  have hrep : s1.g.replay = none := by rw [hs1]; exact executes_replay hx
  rw [hrep] at hfull hnext
  have hf := returnFrom_fields s1.g bs
  generalize s1.g.returnFrom bs = x at hf hfull hnext hagain hg
  rw [hf] at hg
  rw [hs1] at hg
  refine ⟨t, ht, hu, ?_⟩
  rw [hg]
  exact ⟨rfl, rfl, rfl, rfl, rfl, hfull, hnext, hagain, rfl, rfl, rfl, rfl, rfl, rfl, rfl, rfl⟩

end Sys2Proof.Machine
end

section
/-! O29: regions open with a checkpoint and abort to it (R277, R279, R281). -/

namespace Sys2Proof.Machine

open Sys2Proof

/-- A body that changes the issuing group alone, in a word that releases no name: the word completes, and the group keeps its region. -/
theorem alone_done (w : Word) (ex : Extra) (body : State → State × Flow) (s : State) (x : Group) (r : Option Region) (u : Bool) (h : s.executes w ex = true)
    (hb : body (s.begun w ex) = ({ s with g := { x with region := r, uninit := u, wait := .none } }, .done)) (hx : x.replay = none) (hr : r.isSome = x.inreg) (hrel : w.releases ex = []) :
    ∃ t, runWord w ex body s = .next t ∧ t.g.region = r ∧ WordDone s t w ex x (w.next s.g.pc) (w.stall + 1) := by
  have hm : s.mem.bad = none := executes_sound h
  obtain ⟨-, v, rr, -, hkeep, hg⟩ := finish_past { s with g := { x with region := r, uninit := u, wait := .none } } w (w.releases ex) (w.next s.g.pc) (w.stall + 1) hx
  refine ⟨_, runWord_done w ex body s _ h hb hm, ?_, finish_done w ex s x r u _ _ hx hr⟩
  rw [hg]
  exact (hkeep hrel).2

/-- `abeg` opens its region. -/
theorem abeg_done (f : FForm) (imm : BitVec 32) (s : State) (h : s.executes (mkWord shapeAbeg f (.imm32 imm)) { illegal := s.g.sup || s.g.ccc } = true) (hl : s.g.landed = true) :
    let w := mkWord shapeAbeg f (.imm32 imm)
    let r : Region := { scope := w.scope, fallback := branchTarget s.g.pc (imm.signExtend 64), opened := s.g.pc, reads := [], words := [], pages := [], cons := [], stores := []
                        tags := [], v := s.g.v, k := s.g.k, m := s.g.m, mode := s.g.mode, gens := s.g.gens, count := 0 }
    ∃ t, exec (.abeg f imm) s = .next t ∧ t.g.region = some r ∧ WordDone s t w { illegal := s.g.sup || s.g.ccc } { s.g.aged with region := some r } (w.next s.g.pc) (w.stall + 1) := by
  intro w r
  have hb := begin_aged s.g w { illegal := s.g.sup || s.g.ccc } rfl
  refine alone_done w _ _ s { s.g.aged with region := some r } (some r) (s.g.uninit || (w.allReads s.g { illegal := s.g.sup || s.g.ccc }).v.any s.g.unwrittenV) h ?_ (executes_replay h) rfl
    (releases_nil w rfl rfl rfl)
  have hland : (s.g.begin w { illegal := s.g.sup || s.g.ccc }).landed = true := by
    rw [hb]
    exact hl
  refine (if_neg (by rw [begun_g, hland]; decide)).trans ?_
  simp only [begun_g, hb]
  rfl

/-- A group brought back by the abort of its region, before the ageing check (R277). -/
def Group.fallen (g : Group) (cause : Nat) (w : Word) : Group :=
  { g.abortRegion cause with dist := g.dist + max 3 (w.stall + 1), lastSpace := max 3 (w.stall + 1), gage := 0, st := g.awake, wait := .none, word0 := w.w0, word1 := w.w1 }

/-- The same after that check (R151). -/
def Group.fallenTo (g : Group) (cause : Nat) (w : Word) : Group :=
  if g.abortChecks then ((g.fallen cause w).ageSwitch (g.fallen cause w).pc).getD (g.fallen cause w) else g.fallen cause w

theorem conclude_abort (s0 b : State) (w : Word) (ex : Extra) (cause : Nat) :
    s0.conclude w ex (b, .abort cause) =
      (({ b with g := { ({ s0.g.endReplay with paths := agePaths s0.g.paths } : Group).fallenTo cause w with lastPage := b.g.lastPage } } : State).grant
        (({ s0.g.endReplay with paths := agePaths s0.g.paths } : Group).fallenTo cause w).quad).issued := rfl

theorem endReplay_aged {g : Group} (h : g.replay = none) : ({ g.endReplay with paths := agePaths g.paths } : Group) = g.aged := by
  simp only [Group.endReplay, h, Group.aged]

theorem abortRegion_some {g : Group} {r : Region} (cause : Nat) (hr : g.region = some r) :
    g.abortRegion cause = { g with v := r.v, k := r.k, m := r.m, mode := r.mode, gens := r.gens, reqs := g.reqs.filter fun (q : Req) => q.kind != .exchange
                                   region := none, acause := BitVec.ofNat 4 cause, pc := r.fallback, assist := none, took := [] } := by
  simp only [Group.abortRegion, hr]

theorem ageSwitch_none {g : Group} (next : W64) (h : oldestPend g.paths (fun e => decide ((g.mode.extractLsb' 16 16).toNat ≤ e.age.toNat)) = none) : g.ageSwitch next = none := by
  simp only [Group.ageSwitch, h]

theorem fallenTo_stays {g : Group} {r : Region} (cause : Nat) (w : Word) (hr : g.region = some r) (hs : g.abortStays r = true) :
    g.aged.fallenTo cause w = g.aged.fallen cause w := by
  have hc : g.aged.abortChecks = decide (r.fallback.toNat ≤ r.opened.toNat) := by simp only [Group.abortChecks, show g.aged.region = some r from hr]
  unfold Group.fallenTo
  split
  case isFalse => rfl
  case isTrue h =>
    rw [hc, decide_eq_true_eq] at h
    simp only [Group.abortStays, Bool.or_eq_true, decide_eq_true_eq, Option.isNone_iff_eq_none] at hs
    have hold := hs.resolve_left (by omega)
    rw [ageSwitch_none]
    · rfl
    · rw [Group.fallen, abortRegion_some cause (show g.aged.region = some r from hr)]
      exact hold

/-- Freed registers change no group that does not wait for any. -/
theorem grant_awake (s : State) (q : Nat) (h : s.g.st ≠ .waitAlloc) : (s.grant q).g = s.g := by
  have hg := (progresses_same (s.allGroups.filter fun h => h.quad == q && s.servable h) s).2
  have hst : s.servable s.g = false := by simp [State.servable, h]
  simp only [State.grant, State.mapGroups, hg, hst, Bool.and_false]
  rfl

theorem awake_holds (g : Group) : g.awake ≠ .waitAlloc := by
  unfold Group.awake
  split <;> decide

/-- An abort that leaves no path due leaves the group at the fallback with what the `abeg` recorded (R277). -/
theorem abort_done (w : Word) (ex : Extra) (body : State → State × Flow) (s : State) (r : Region) (cause : Nat) (h : s.executes w ex = true)
    (hb : body (s.begun w ex) = (s.begun w ex, .abort cause)) (hr : s.g.region = some r) (hs : s.g.abortStays r = true) :
    ∃ t, runWord w ex body s = .next t ∧ s.g.Aborted r (BitVec.ofNat 4 cause) w t.g ∧ s.SameUnits t := by
  have hc := conclude_abort s (s.begun w ex) w ex cause
  rw [endReplay_aged (executes_replay h), fallenTo_stays cause w hr hs] at hc
  have hu : s.SameUnits (s.conclude w ex (s.begun w ex, .abort cause)) := by
    rw [hc]
    exact SameUnits.trans (SameUnits.trans (SameUnits.of_g s _) (grant_same _ _)) (issued_same _)
  refine ⟨_, ?_, ?_, hu⟩
  · rw [runWord_executes w ex body s h, hb]
    exact answer_next _ (by rw [hu.mem]; exact executes_sound h)
  · rw [hc, issued_g, grant_awake _ _ (awake_holds s.g), Group.fallen, abortRegion_some cause (show s.g.aged.region = some r from hr)]
    exact ⟨rfl, rfl, rfl, rfl, rfl, rfl, rfl, rfl, rfl, rfl, rfl, rfl, rfl, rfl⟩

/-- Settles O29. -/
theorem regionsOpenAndAbort : Obligations.RegionsOpenAndAbort := by
  refine ⟨fun f imm w s hw => ?_, fun f w s r hw hr hx hs => ?_⟩
  · have e := Option.some.inj hw
    subst e
    intro ex hx hn hl
    obtain ⟨t, ht, hreg, hd⟩ := abeg_done f imm s hx hl
    exact ⟨t, _, ht, hreg, hd, rfl, rfl, rfl⟩
  · have e := Option.some.inj hw
    subst e
    exact abort_done (mkWord shapeAabt f) _ _ s r 1 hx rfl hr hs

end Sys2Proof.Machine
end

section
/-! O32, O36 and O47: batches, the quantities of a queue, and reads before readiness. -/

namespace Sys2Proof.Machine

open Sys2Proof

/-! ### Batches (R284, R297, R298) -/

/-- The group with another region, UNINIT and wait. -/
def Group.placed (g : Group) (r : Option Region) (u : Bool) : Group := { g with region := r, uninit := u, wait := .none }

theorem lateFlags_placed (g : Group) (r : Option Region) (u : Bool) (x : W64) (hr : r.isSome = g.inreg) :
    ∃ r', (g.placed r u).lateFlags x = (g.lateFlags x).placed r' u ∧ r'.isSome = (g.lateFlags x).inreg :=
  ⟨_, rfl, by simpa [Group.lateFlags, Group.setFlags, Group.inreg, Group.placed] using hr⟩

theorem lateFlags_fold_placed (os : List BatchOut) (g : Group) (r : Option Region) (u : Bool) (hr : r.isSome = g.inreg) :
    ∃ r', os.foldl (fun g o => g.lateFlags o.flags) (g.placed r u) = (os.foldl (fun g o => g.lateFlags o.flags) g).placed r' u ∧
      r'.isSome = (os.foldl (fun g o => g.lateFlags o.flags) g).inreg := by
  induction os generalizing g r with
  | nil => exact ⟨r, rfl, hr⟩
  | cons o os ih =>
    obtain ⟨r', h1, h2⟩ := lateFlags_placed g r u o.flags hr
    simp only [List.foldl_cons, h1]
    exact ih _ r' h2

/-- Batches settle by what was closed and what the operations left: region, UNINIT and wait have no part in it. -/
theorem settleBatches_placed (n : Nat) (g : Group) (r : Option Region) (u : Bool) (hr : r.isSome = g.inreg) :
    ∃ r', Group.settleBatches n (g.placed r u) = (g.settleBatches n).placed r' u ∧ r'.isSome = (g.settleBatches n).inreg := by
  induction n generalizing g r with
  | zero => exact ⟨r, rfl, hr⟩
  | succ n ih =>
    obtain ⟨r', h1, h2⟩ := lateFlags_fold_placed (g.batchOut.filter fun o => o.batch == g.lastBatch + 1) g r u hr
    simp only [Group.settleBatches]
    rw [show (g.placed r u).batchOut = g.batchOut from rfl, show (g.placed r u).lastBatch = g.lastBatch from rfl, show (g.placed r u).batch = g.batch from rfl,
      show (g.placed r u).matOps = g.matOps from rfl, show (g.placed r u).pendFaults = g.pendFaults from rfl, h1]
    split
    · exact ih { (g.batchOut.filter fun o => o.batch == g.lastBatch + 1).foldl (fun g o => g.lateFlags o.flags) g with
        lastBatch := g.lastBatch + 1, batchOut := g.batchOut.filter fun o => o.batch != g.lastBatch + 1, pendFaults := _ } r' h2
    · exact ⟨r, rfl, hr⟩

theorem closeBatch_placed (g : Group) (r : Option Region) (u : Bool) (hr : r.isSome = g.inreg) :
    ∃ r', (g.placed r u).closeBatch = g.closeBatch.placed r' u ∧ r'.isSome = g.closeBatch.inreg :=
  settleBatches_placed _ { g with batch := g.batch + 1 } r u hr

theorem lateFlags_fold_keeps (os : List BatchOut) (g : Group) :
    (os.foldl (fun g o => g.lateFlags o.flags) g).replay = g.replay ∧ (os.foldl (fun g o => g.lateFlags o.flags) g).k = g.k := by
  induction os generalizing g with
  | nil => exact ⟨rfl, rfl⟩
  | cons o os ih => exact ih _

theorem settleBatches_keeps (n : Nat) (g : Group) : (g.settleBatches n).replay = g.replay ∧ (g.settleBatches n).k = g.k := by
  induction n generalizing g with
  | zero => exact ⟨rfl, rfl⟩
  | succ n ih =>
    simp only [Group.settleBatches]
    split
    · obtain ⟨h1, h2⟩ := lateFlags_fold_keeps (g.batchOut.filter fun o => o.batch == g.lastBatch + 1) g
      exact ⟨(ih _).1.trans h1, (ih _).2.trans h2⟩
    · exact ⟨rfl, rfl⟩

theorem closeBatch_keeps (g : Group) : g.closeBatch.replay = g.replay ∧ g.closeBatch.k = g.k := settleBatches_keeps _ { g with batch := g.batch + 1 }

/-- `mfence` answers the number of the batch it closes. -/
theorem mfence_done (f : FForm) (s : State) (h : s.executes (mkWord shapeMfence f) {} = true) :
    let w := mkWord shapeMfence f
    let K := (s.g.aged.writeK w.lat f.d.toNat (BitVec.ofNat 64 s.g.batch)).k
    ∃ t, exec (.mfence f) s = .next t ∧ WordDone s t w {} ({ s.g.aged with k := K } : Group).closeBatch (w.next s.g.pc) (w.stall + 1) := by
  intro w K
  have hb := begin_aged s.g w {} rfl
  obtain ⟨r, hr1, hr2⟩ := setK_shape (s.g.begin w {}) w.lat f.d.toNat (BitVec.ofNat 64 s.g.batch)
  have hk := writeK_k s.g.aged (s.g.begin w {}) w.lat f.d.toNat (BitVec.ofNat 64 s.g.batch) (by rw [hb]) (by rw [hb])
  have hset : (s.g.begin w {}).setK w.lat f.d.toNat (BitVec.ofNat 64 s.g.batch) = ({ s.g.aged with k := K } : Group).placed r (s.g.begin w {}).uninit := by
    rw [hr1, hk, hb]
    rfl
  obtain ⟨r', h1, h2⟩ := closeBatch_placed { s.g.aged with k := K } r (s.g.begin w {}).uninit (hr2.trans (begin_inreg s.g w {}))
  obtain ⟨t, ht, hd, -⟩ := word_done w {} (fun s => ({ s with g := (s.g.setK w.lat f.d.toNat (BitVec.ofNat 64 s.g.batch)).closeBatch }, .done)) s s
    ({ s.g.aged with k := K } : Group).closeBatch r' (s.g.begin w {}).uninit h (by
      have hbatch : (s.g.begin w {}).batch = s.g.batch := by rw [hb]; rfl
      simp only [begun_g, hbatch, hset, h1]
      rfl) (executes_sound h) ((closeBatch_keeps _).1.trans (executes_replay h)) h2
  exact ⟨t, ht, hd⟩

/-- `mwait` goes on once its batch is complete, and bars lines filled before (R229). -/
theorem mwait_done (f : FForm) (s : State) (h : s.executes (mkWord shapeMwait f) {} = true) (hopen : (s.g.readK f.a.toNat).toNat < s.g.batch) (hdone : (s.g.readK f.a.toNat).toNat ≤ s.g.lastBatch) :
    let w := mkWord shapeMwait f
    ∃ t, exec (.mwait f) s = .next t ∧ WordDone s t w {} { s.g.aged with notBefore := max s.g.notBefore s.mem.clock } (w.next s.g.pc) (w.stall + 1) := by
  intro w
  have hb := begin_aged s.g w {} rfl
  have hbatch : (s.g.begin w {}).batch = s.g.batch ∧ (s.g.begin w {}).lastBatch = s.g.lastBatch := by
    rw [hb]
    exact ⟨rfl, rfl⟩
  obtain ⟨t, ht, hd, -⟩ := word_done w {} (fun s =>
      let b := (s.g.readK f.a.toNat).toNat
      if s.g.batch ≤ b then (s, .trap 0x04 0) else if b ≤ s.g.lastBatch then (s.fresh, .done) else (s, .hold .waitBatch (.batch b))) s s
    { s.g.aged with notBefore := max s.g.notBefore s.mem.clock } (s.g.countInRegion w).region (s.g.begin w {}).uninit h (by
      dsimp only
      rw [begun_g, begin_readK, hbatch.1, hbatch.2, if_neg (by omega), if_pos hdone, State.fresh, begun_g, hb]
      rfl) (executes_sound h) (executes_replay h) (inreg_counted s.g w)
  exact ⟨t, ht, hd⟩

/-- Settles O32: `mfence` by `mfence_done`; `mwait` goes on in a state that only bars older lines. -/
theorem batchWords : Obligations.BatchWords := by
  refine ⟨fun f w s hw hx => ?_, fun f w s hw hx hopen hdone => ?_⟩
  · have e := Option.some.inj hw
    subst e
    obtain ⟨t, ht, hd⟩ := mfence_done f s hx
    have hk : t.g.k = (s.g.aged.writeK (mkWord shapeMfence f).lat f.d.toNat (BitVec.ofNat 64 s.g.batch)).k := hd.kept.k.trans (closeBatch_keeps _).2
    refine ⟨t, ht, by rw [hk]; exact hd, fun hn d hl => ?_, fun n hn => ?_⟩
    · exact readK_writeK s.g.aged { t.g with dist := d } _ _ _ (by bv_omega) hk hl
    · rw [hk]
      exact writeK_other s.g.aged _ _ _ _ (Ne.symm hn)
  · have e := Option.some.inj hw
    subst e
    exact mwait_done f s hx hopen hdone

/-! ### The quantities of a queue (R344) -/

theorem namedQueue_begun (s : State) (w : Word) (n : Nat) (hw : (w.allWrites {}).v = []) : (s.begun w {}).namedQueue (s.begun w {}).g n = s.namedQueue s.g n := by
  rw [begun_g, begin_aged s.g w {} hw]
  rfl

/-- A form of `qlen` answers what it picks of the queue named. -/
theorem runQlen_done {pick : State → Group → Graph → QueueEnt → Queue → W64} {w : Word} {s : State} {b : Block} {gr : Graph} {e : QueueEnt} {q : Queue} (hx : s.executes w {} = true)
    (hn : s.namedQueue s.g w.f.a.toNat = some (b, gr, e)) (hq : s.queue? gr.gidx e.qid = some q) (hw : (w.allWrites {}).v = [])
    (hp : pick (s.begun w {}) (s.begun w {}).g gr e q = pick s s.g gr e q) :
    ∃ t, runQlen pick w s = .next t ∧ ControlDone s t w {} (pick s s.g gr e q) := by
  refine control_done w {} _ s _ _ hx hw ?_ (setK_form' _ _ _ _)
  simp only [namedQueue_begun s w _ hw, hn, show (s.begun w {}).queue? gr.gidx e.qid = s.queue? gr.gidx e.qid from rfl, hq, hp]
  rfl

/-- A core's view of a queue depends on no group. -/
theorem view_begun (s : State) (w : Word) (ex : Extra) (gidx key : Nat) : (s.begun w ex).view (s.begun w ex).g.core gidx key = s.view s.g.core gidx key := by
  obtain ⟨v, r, u, h, -⟩ := begin_fields s.g w ex
  rw [begun_g, h]
  rfl

/-- Settles O36: each form is `runQlen` of its quantity. -/
theorem queueLengths : Obligations.QueueLengths := by
  intro i w s b gr e q x hw hx hn hq hl
  unfold lengthOf at hl
  split at hl
  case h_7 => cases hl
  all_goals
    cases hl
    have he := Option.some.inj hw
    subst he
  case h_1 => exact runQlen_done (pick := fun s g gr e _ => BitVec.ofNat 64 (s.view g.core gr.gidx e.qid).1.toNat) hx hn hq rfl (by simp only [view_begun])
  case h_2 => exact runQlen_done (pick := fun s g gr e _ => BitVec.ofNat 64 (s.view g.core gr.gidx e.qid).2.toNat) hx hn hq rfl (by simp only [view_begun])
  case h_3 => exact runQlen_done (pick := fun _ _ _ e q => if e.kind = 1 || e.kind = 2 then q.w - q.r else BitVec.ofNat 64 (q.backlog e)) hx hn hq rfl rfl
  case h_4 => exact runQlen_done (pick := fun _ _ _ e q => BitVec.ofNat 64 (q.free e)) hx hn hq rfl rfl
  case h_5 => exact runQlen_done (pick := fun _ _ _ _ q => BitVec.ofNat 64 q.held) hx hn hq rfl rfl
  case h_6 => exact runQlen_done (pick := fun _ _ _ _ q => BitVec.ofNat 64 q.resv) hx hn hq rfl rfl

/-! ### Reads before readiness (R58, R60) -/

/-- Every word of the tables runs as a word, with the names and checks of `extraOf`. -/
theorem tabled_runs {i : Instr} {w : Word} {s : State} (hw : wordOf i = some w) (h : tabled i w s = true) : ∃ body, exec i s = runWord w (extraOf i s) body s := by
  have he : ∀ sh, shape i = some sh → w = mkWord sh (fieldsOf i) (literalOf i) := fun sh hs => by
    rw [wordOf, hs] at hw
    exact (Option.some.inj hw).symm
  simp only [tabled, Bool.or_eq_true, Option.isSome_iff_exists] at h
  rcases h with (((⟨x, hx⟩ | ⟨x, hx⟩) | ⟨x, hx⟩) | ⟨x, hx⟩) | ⟨x, hx⟩
  · unfold integerResult at hx
    split at hx <;> cases hx <;> (cases he _ rfl; exact ⟨_, rfl⟩)
  · unfold floatResult at hx
    split at hx <;> cases hx <;> (cases he _ rfl; exact ⟨_, rfl⟩)
  · unfold moveResult at hx
    split at hx <;> cases hx <;> (cases he _ rfl; exact ⟨_, rfl⟩)
  · unfold controlValue at hx
    dsimp only at hx
    split at hx
    case h_47 => cases hx
    all_goals (cases he _ rfl; exact ⟨_, rfl⟩)
  · unfold maskValue at hx
    dsimp only at hx
    split at hx
    case h_8 => cases hx
    all_goals (cases he _ rfl; exact ⟨_, rfl⟩)

/-- A word that no earlier check stops raises the fault of its issue. -/
theorem runWord_faults {w : Word} {ex : Extra} {body : State → State × Flow} {s : State} {code : Nat} (hr : s.g.replay = none) (hb : regionBar s.g w = none) (hf : issueFault s.g w ex = some code) :
    runWord w ex body s = answer (s.trap w code 0 0) := by
  simp only [runWord, Group.skipsReplay, Group.enterReplay, hr, Bool.false_eq_true, if_false, issueWord, hb, hf]

/-- Settles O47: the check of the scoreboard is the first that fails. -/
theorem scoreboardStalls : Obligations.ScoreboardStalls := by
  intro i w s hw ht hschk hrep hlate hbar hlock hpriv hill hden hok hscope hrange
  obtain ⟨body, hrun⟩ := tabled_runs hw ht
  rw [hrun]
  have hreads : ((w.allReads s.g (extraOf i s)).v.any s.g.lateV || (w.allReads s.g (extraOf i s)).m.any s.g.lateM || (w.allReads s.g (extraOf i s)).k.any s.g.lateK) = true := by
    simp only [Word.allReads, Names.append, List.any_append, Bool.or_eq_true] at hlate ⊢
    tauto
  have hden : ((extraOf i s).denied || (w.sh.sup || (extraOf i s).priv) && !(s.g.sup || s.g.ccc)) = false := by
    rw [hden]
    cases h : (s.g.sup || s.g.ccc)
    · simpa [h] using hpriv
    · simp
  refine runWord_faults hrep hbar ?_
  simp only [issueFault, hill, hden, hscope, hrange, hok, hlock, hschk, hreads, Bool.false_eq_true, if_false, Bool.not_true, Bool.and_true, if_true]

end Sys2Proof.Machine
end

section
/-! SUPPORT. How a word ends, for any body: it completes, it answers in one control register, or it waits at its own address. -/

namespace Sys2Proof.Machine

open Sys2Proof

theorem completes_of_body {i : Instr} {w : Word} {ex : Extra} {body : State → State × Flow} {s u : State} (he : exec i s = runWord w ex body s) (hx : s.executes w ex = true)
    (hb : body (s.begun w ex) = (u, .done)) : s.Completes u i w ex :=
  fun hm hr => he ▸ body_done w ex body s u hx hb hm hr

/-- What is written with no latency is read at every distance. -/
theorem kAt_writeK_now {g h : Group} {n : Nat} {x : W64} (hn : n ≠ 0) (hk : h.k = (g.writeK 0 n x).k) (d : Nat) : h.kAt d n = x := by
  simp only [Group.kAt, Group.readK, if_neg hn, hk, Group.writeK, tget_tset, if_true]
  split
  · rfl
  · simp [List.filter_append]

/-- A body that leaves the state u with one control register written at once: it reads the value at every distance. -/
theorem answered {i : Instr} {w : Word} {ex : Extra} {body : State → State × Flow} {s u : State} {d : Nat} {x : W64} (he : exec i s = runWord w ex body s) (hx : s.executes w ex = true)
    (hb : body (s.begun w ex) = ({ u with g := u.g.setK 0 d x }, .done)) (hm : u.mem.bad = none) (hr : u.g.replay = none) :
    ∃ t, exec i s = .next t ∧ WordDone u t w ex { u.g with k := t.g.k } (w.next s.g.pc) (w.stall + 1) ∧ u.g.SameK t.g [d] ∧ (d ≠ 0 → ∀ n, t.g.kAt n d = x) := by
  obtain ⟨r, hs, hreg⟩ := setK_shape u.g 0 d x
  obtain ⟨t, ht, hdone⟩ := body_done w ex body s { u with g := u.g.setK 0 d x } hx hb hm (by rw [hs]; exact hr)
  have hk : t.g.k = (u.g.writeK 0 d x).k := by
    rw [hdone.kept.k, hs]
  obtain ⟨⟨h1, h2, h3, h4, h5, h6, h7, h8, h9, h10⟩, ⟨p1, p2, p3, p4⟩, kept⟩ := hdone
  rw [hs] at kept p2 p4
  refine ⟨t, he ▸ ht, ⟨⟨h1, h2, h3, h4, h5, h6, h7, h8, h9, h10⟩, ⟨p1, p2, p3, p4⟩, ?_⟩, fun n hn => ?_, fun hd n => kAt_writeK_now hd hk n⟩
  · obtain ⟨hnames, -, hm, hm0, hmode, hgens, hpaths, hinreg, ⟨a1, a2, a3, a4, a5, a6, a7, a8, a9, a10, a11, a12⟩, hcounts, hpend, hlaunch⟩ := kept
    exact ⟨hnames, rfl, hm, hm0, hmode, hgens, hpaths, hinreg.trans hreg, ⟨a1, a2, a3, a4, a5, a6, a7, a8, a9, a10, a11, a12⟩, hcounts, hpend, hlaunch⟩
  · rw [hk]
    exact writeK_other u.g 0 d n x fun h => hn (by rw [h]; exact List.mem_singleton_self n)

theorem answers_of_body {i : Instr} {w : Word} {ex : Extra} {body : State → State × Flow} {s u : State} {d : Nat} {x : W64} (he : exec i s = runWord w ex body s) (hx : s.executes w ex = true)
    (hb : body (s.begun w ex) = ({ u with g := u.g.setK 0 d x }, .done)) : s.Answers u i w d x ex := fun hm hr => by
  obtain ⟨t, ht, hd, hk, hv⟩ := answered he hx hb hm hr
  exact ⟨t, ht, hd, hk, fun h n _ => hv h n⟩

/-- A body that ends in a wait: the word waits at its own address, what it did stands. -/
theorem body_waits {w : Word} {ex : Extra} {body : State → State × Flow} {s b : State} {st : SlotState} {wt : Wait} (hx : s.executes w ex = true)
    (hb : body (s.begun w ex) = (b, .wait st wt)) (hm : b.mem.bad = none) :
    ∃ t, runWord w ex body s = .next t ∧ b.SameUnits t ∧ t.g.st = st ∧ t.g.wait = wt ∧ t.g.pc = b.g.pc := by
  obtain ⟨g', hc, hst, hwt, hpc⟩ : ∃ g' : Group, s.conclude w ex (b, .wait st wt) = State.issued { b with g := g' } ∧ g'.st = st ∧ g'.wait = wt ∧ g'.pc = b.g.pc := ⟨_, rfl, rfl, rfl, rfl⟩
  rw [runWord_executes w ex body s hx, hb, hc]
  have hsame := SameUnits.trans (SameUnits.of_g b g') (issued_same _)
  refine ⟨_, answer_next _ (by rw [hsame.mem]; exact hm), hsame, ?_, ?_, ?_⟩ <;> rw [issued_g] <;> assumption

/-- A body that holds its word: nothing but where the group stands has changed. -/
theorem body_holds {w : Word} {ex : Extra} {body : State → State × Flow} {s b : State} {st : SlotState} {wt : Wait} (hx : s.executes w ex = true)
    (hb : body (s.begun w ex) = (b, .hold st wt)) :
    ∃ t, runWord w ex body s = .next t ∧ s.SameUnits t ∧ t.g = { s.g with st := st, wait := wt, word0 := w.w0, word1 := w.w1 } := by
  rw [runWord_executes w ex body s hx, hb]
  exact ⟨_, answer_next _ (executes_sound (s := s) hx), SameUnits.of_g s _, rfl⟩

/-- A body that asks for its word again: what it did but to the group's own start stands. -/
theorem body_retries {w : Word} {ex : Extra} {body : State → State × Flow} {s b : State} {st : SlotState} {wt : Wait} (hx : s.executes w ex = true)
    (hb : body (s.begun w ex) = (b, .retry st wt)) (hm : b.mem.bad = none) :
    ∃ t, runWord w ex body s = .next t ∧ b.SameUnits t ∧ t.g = { b.g.unissued s.g with st := st, wait := wt, word0 := w.w0, word1 := w.w1 } := by
  rw [runWord_executes w ex body s hx, hb]
  exact ⟨_, answer_next _ hm, SameUnits.of_g b _, rfl⟩

end Sys2Proof.Machine
end

section
/-! O37: handle queues (R335, R336). -/

namespace Sys2Proof.Machine

open Sys2Proof

/-! ### Numbers as bytes (R7) -/

theorem leBytes_succ (n x : Nat) : leBytes (n + 1) x = BitVec.ofNat 8 x :: leBytes n (x / 256) := by
  simp only [leBytes, List.range_succ_eq_map, List.map_cons, List.map_map, Nat.pow_zero, Nat.div_one]
  refine congrArg (BitVec.ofNat 8 x :: ·) (List.map_congr_left fun i _ => ?_)
  simp only [Function.comp, Nat.pow_succ, Nat.div_div_eq_div_mul, Nat.mul_comm]

theorem leNat_leBytes (n x : Nat) : leNat (leBytes n x) = x % 256 ^ n := by
  induction n generalizing x with
  | zero => simp [leBytes, leNat, Nat.mod_one]
  | succ n ih =>
    have h := ih (x / 256)
    simp only [leNat] at h
    rw [leBytes_succ, leNat, List.foldr_cons, h, BitVec.toNat_ofNat, show 2 ^ 8 = 256 from rfl, Nat.pow_succ', Nat.mod_mul]

theorem natAt_skip (xs ys : List Byte) (a n : Nat) : natAt (xs ++ ys) (xs.length + a) n = natAt ys a n := by
  rw [natAt, List.drop_append, List.drop_eq_nil_of_le (by omega), List.nil_append, Nat.add_sub_cancel_left, natAt]

theorem natAt_leBytes (n x : Nat) (ys : List Byte) : natAt (leBytes n x ++ ys) 0 n = x % 256 ^ n := by
  rw [natAt, List.drop_zero, List.take_append_of_le_length (by simp), List.take_of_length_le (by simp), leNat_leBytes]

theorem natAt_after (k n a x : Nat) (ys : List Byte) : natAt (leBytes k x ++ ys) (k + a) n = natAt ys a n := by
  have h := natAt_skip (leBytes k x) ys a n
  rwa [leBytes_length] at h

/-! ### A descriptor's header -/

/-- The bytes of a header after its free words. -/
def HqHead.bytes (h : HqHead) : List Byte := leBytes 3 0 ++ (leBytes 1 h.depth ++ (leBytes 1 h.count ++ (leBytes 1 h.head ++ leBytes 2 h.allow)))

theorem HqHead.bytes_length (h : HqHead) : h.bytes.length = 8 := by simp [HqHead.bytes]

theorem HqHead.bytes_fields (h : HqHead) :
    natAt h.bytes 3 1 = h.depth % 256 ∧ natAt h.bytes 4 1 = h.count % 256 ∧ natAt h.bytes 5 1 = h.head % 256 ∧ natAt h.bytes 6 2 = h.allow % 65536 := by
  have h0 : ∀ a n, natAt h.bytes (3 + a) n = natAt (leBytes 1 h.depth ++ (leBytes 1 h.count ++ (leBytes 1 h.head ++ leBytes 2 h.allow))) a n := fun a n => natAt_after 3 n a 0 _
  refine ⟨?_, ?_, ?_, ?_⟩
  · rw [h0 0, natAt_leBytes, Nat.pow_one]
  · rw [h0 1, natAt_after 1 1 0, natAt_leBytes, Nat.pow_one]
  · rw [h0 2, natAt_after 1 1 1, natAt_after 1 1 0, natAt_leBytes, Nat.pow_one]
  · rw [h0 3, natAt_after 1 2 2, natAt_after 1 2 1, natAt_after 1 2 0, ← List.append_nil (leBytes 2 h.allow), natAt_leBytes, show 256 ^ 2 = 65536 from rfl]

theorem putHq_eq (s : State) (core off : Nat) (h : HqHead) : s.putHq core off h = s.freeValue.2.poke ⟨.spad core, off⟩ (leBytes 8 s.freeValue.1.toNat ++ h.bytes) := by
  simp only [State.putHq, HqHead.bytes, List.append_assoc]

theorem header_length (s : State) (h : HqHead) : (leBytes 8 s.freeValue.1.toNat ++ h.bytes).length = 16 := by simp [HqHead.bytes_length]

/-- Bytes put in a scratchpad stand there, and those of the same scratchpad elsewhere stay. -/
theorem spad_poke (s : State) (core a : Nat) (bs : List Byte) : s.poke ⟨.spad core, a⟩ bs = { s with mem := { s.mem with spad := tset [] s.mem.spad core (msetBytes (tget [] s.mem.spad core) a bs) } } := rfl

theorem peek_putHq (s : State) (core off : Nat) (h : HqHead) : (s.putHq core off h).peek ⟨.spad core, off⟩ 16 = leBytes 8 s.freeValue.1.toNat ++ h.bytes := by
  have hp := (poke_peek s.freeValue.2 ⟨.spad core, off⟩ (leBytes 8 s.freeValue.1.toNat ++ h.bytes) (by simp [Loc.inMemory, Space.isMemory])).1
  rwa [header_length, ← putHq_eq] at hp

/-- A header written is read back from its fields, whatever its free words (log 6). -/
theorem hqHead_putHq (s : State) (core off : Nat) (h : HqHead) :
    (s.putHq core off h).hqHead core off = { depth := h.depth % 256, count := h.count % 256, head := h.head % 256, allow := h.allow % 65536 } := by
  obtain ⟨h3, h4, h5, h6⟩ := h.bytes_fields
  simp only [State.hqHead, peek_putHq]
  rw [natAt_after 8 1 3, natAt_after 8 1 4, natAt_after 8 1 5, natAt_after 8 2 6, h3, h4, h5, h6]

theorem peek_putHq_item (s : State) (core off a : Nat) (h : HqHead) (ha : off + 16 ≤ a) : (s.putHq core off h).peek ⟨.spad core, a⟩ 4 = s.peek ⟨.spad core, a⟩ 4 := by
  rw [putHq_eq, spad_poke]
  simp only [State.peek, State.freeValue, tget_tset, if_true, mbytes]
  refine List.map_congr_left fun i _ => mget_msetBytes_other _ _ _ _ (.inr ?_)
  have := header_length s h
  simp only [State.freeValue] at this
  omega

/-! ### Push and pop -/

/-- A push goes to the tail where no group waits for an item. -/
theorem hqPush_tail {s u : State} {core off : Nat} {item : W32} (hw : s.hqWaiters core off false = []) (hp : s.hqPush core off item = some u) :
    u = (s.poke ⟨.spad core, off + 16 + 4 * (((s.hqHead core off).head + (s.hqHead core off).count) % 64)⟩ (leBytes 4 item.toNat)).putHq core off
      { s.hqHead core off with allow := (s.hqHead core off).allow - 1, count := (s.hqHead core off).count + 1 } := by
  simp only [State.hqPush, hw] at hp
  split at hp
  · cases hp
  · exact (Option.some.inj hp).symm

/-- An empty queue gives back the item that a push has put into it. -/
theorem hqPop_pushed {s u : State} {core off : Nat} {item : W32} (hc : (s.hqHead core off).count = 0) (hh : (s.hqHead core off).head < 64) (hw : s.work.hqWait = []) (hp : s.hqPush core off item = some u) :
    ∃ v, u.hqPop core off = some (item, v) := by
  have hu := hqPush_tail (by simp [State.hqWaiters, hw]) hp
  have hplace : ((s.hqHead core off).head + (s.hqHead core off).count) % 64 = (s.hqHead core off).head := by omega
  rw [hplace] at hu
  have hhead : (u.hqHead core off).count = 1 ∧ (u.hqHead core off).head = (s.hqHead core off).head := by
    rw [hu, hqHead_putHq, hc]
    exact ⟨rfl, Nat.mod_eq_of_lt (Nat.lt_trans hh (by decide))⟩
  have hitem : u.peek ⟨.spad core, off + 16 + 4 * (s.hqHead core off).head⟩ 4 = leBytes 4 item.toNat := by
    rw [hu, peek_putHq_item _ _ _ _ _ (by omega)]
    have hk := (poke_peek s ⟨.spad core, off + 16 + 4 * (s.hqHead core off).head⟩ (leBytes 4 item.toNat) (by simp [Loc.inMemory, Space.isMemory])).1
    rwa [leBytes_length] at hk
  have hx : BitVec.ofNat 32 (leNat (u.peek ⟨.spad core, off + 16 + 4 * (u.hqHead core off).head⟩ 4)) = item := by
    rw [hhead.2, hitem, leNat_leBytes, Nat.mod_eq_of_lt (by simpa using item.isLt), BitVec.ofNat_toNat, BitVec.setWidth_eq]
  exact ⟨_, by simp only [State.hqPop, hhead.1, Nat.one_ne_zero, if_false, hx]; rfl⟩

/-! ### The words -/

theorem handle_drift (s : State) (p c : Nat) (h : W64) (kind : Nat) : s.Drift (s.handle p c h kind).2 := hbmNat_drift s _ _ _

theorem handleOf_drift (s : State) (g : Group) (h : W64) (kind : Nat) : s.Drift (s.handleOf g h kind).2 := by
  have hd := handle_drift s g.part g.ctx h kind
  unfold State.handleOf
  dsimp only
  split <;> exact hd

theorem hqOf_some {s c : State} {h : W64} {core off : Nat} (hq : s.hqOf h = some (core, off, c)) : ∃ e, s.handleOf s.g h 2 = (some e, c) ∧ c.hqPlace e.1 = (core, off) := by
  obtain ⟨e, he, hp⟩ := Option.map_eq_some_iff.mp hq
  cases hp
  exact ⟨e, Prod.ext he rfl, rfl⟩

/-- Reading a word's handle changes nothing that a body reads of the group. -/
structure Group.ReadsAs (g h : Group) : Prop where
  k      : ∀ n, h.readK n = g.readK n
  active : ∀ p, h.active p = g.active p
  dist   : h.dist = g.dist
  replay : h.replay = g.replay
  place  : (h.uid, h.pc, h.part, h.ctx, h.core, h.blk) = (g.uid, g.pc, g.part, g.ctx, g.core, g.blk)

theorem drift_reads {s c : State} {w : Word} {ex : Extra} (h : (s.begun w ex).Drift c) : s.g.ReadsAs c.g := by
  obtain ⟨lp, r, pt, hc⟩ := h.g
  obtain ⟨v, r', u, hb, -⟩ := begin_fields s.g w ex
  rw [begun_g] at hc
  have ha := begin_alike s.g w ex
  refine ⟨fun n => ?_, fun p => ?_, ?_, ?_, ?_⟩
  · rw [hc]
    exact Alike.readK ha n
  · rw [hc]
    exact Alike.active ha p
  all_goals rw [hc, hb]

/-- The body of a handle-queue word: on the queue that its handle names. -/
def hqBody (w : Word) (body : Nat → Nat → State → State × Flow) (s : State) : State × Flow :=
  let r := s.handleOf s.g (s.g.readK w.f.a.toNat) 2
  match r.1 with
  | none => (s, .trap 0x15 0)
  | some e => let p := r.2.hqPlace e.1; body p.1 p.2 r.2

theorem runHq_eq (w : Word) (body : Nat → Nat → State → State × Flow) (s : State) : runHq w body s = runWord w {} (hqBody w body) s := rfl

theorem hqBody_begun {w : Word} {body : Nat → Nat → State → State × Flow} {s c : State} {core off : Nat} (hq : (s.begun w {}).hqOf (s.g.readK w.f.a.toNat) = some (core, off, c)) :
    hqBody w body (s.begun w {}) = body core off c ∧ s.g.ReadsAs c.g := by
  obtain ⟨e, he, hp⟩ := hqOf_some hq
  have hd := handleOf_drift (s.begun w {}) (s.begun w {}).g (s.g.readK w.f.a.toNat) 2
  rw [he] at hd
  refine ⟨?_, drift_reads hd⟩
  simp only [hqBody, begun_g, begin_readK]
  rw [← begun_g, he]
  simp only [hp]

theorem putHq_frame (s : State) (core off : Nat) (h : HqHead) : (s.putHq core off h).g = s.g ∧ (s.putHq core off h).work = s.work ∧ (s.putHq core off h).mem.bad = s.mem.bad := by
  rw [putHq_eq, spad_poke]
  exact ⟨rfl, rfl, rfl⟩

/-- The waiter joins its list, and its word waits. -/
theorem hq_waits {i : Instr} {w : Word} {body : State → State × Flow} {s c : State} {core off : Nat} {x : HqWait} {wt : Wait} (he : exec i s = runWord w {} body s) (hx : s.executes w {} = true)
    (hb : body (s.begun w {}) = (({ c with work := { c.work with hqWait := c.work.hqWait ++ [x] } } : State).putHq core off (c.hqHead core off), .wait .waitQueue wt)) (hm : c.mem.bad = none) (hc : s.g.ReadsAs c.g) :
    ∃ t, exec i s = .next t ∧ t.g.st = .waitQueue ∧ t.g.wait = wt ∧ t.g.pc = s.g.pc ∧ t.work.hqWait = c.work.hqWait ++ [x] := by
  obtain ⟨hg, hwork, hbad⟩ := putHq_frame { c with work := { c.work with hqWait := c.work.hqWait ++ [x] } } core off (c.hqHead core off)
  obtain ⟨t, ht, hu, hst, hwt, hpc⟩ := body_waits hx hb (hbad.trans hm)
  refine ⟨t, he ▸ ht, hst, hwt, ?_, ?_⟩
  · rw [hpc, hg]
    exact congrArg (fun p => p.2.1) hc.place
  · rw [hu.work, hwork]

/-- What each handle-queue word does with its queue. -/
def hpushBody (f : FForm) (core off : Nat) (s : State) : State × Flow :=
  if s.g.unver || !s.g.allPerformed then (s, .hold .waitStall (.until_ .released))
  else
    let item := (s.g.readK f.b.toNat).extractLsb' 0 32
    match s.hqPush core off item with
    | some s => (s.raiseVersion s.g.who 1, .done)
    | none => (({ s with work := { s.work with hqWait := s.work.hqWait ++ [{ core := core, off := off, uid := s.g.uid, push := true, item := item }] } } : State).putHq core off (s.hqHead core off), .wait .waitQueue (.hpush core off))

def hpopBody (f : FForm) (core off : Nat) (s : State) : State × Flow :=
  let act := s.g.active f.pred.toNat
  match s.hqPop core off with
  | some (item, s) =>
    let s := s.raiseVersion s.g.who 1
    ({ s with g := s.g.writeV 0 f.d.toNat act 0xFFFFFFFF (laneNumbers.map fun _ => item) }, .done)
  | none => (({ s with work := { s.work with hqWait := s.work.hqWait ++ [{ core := core, off := off, uid := s.g.uid, push := false, item := 0 }] } } : State).putHq core off (s.hqHead core off), .wait .waitQueue (.hpop core off act f.d.toNat))

def htryBody (f : FForm) (core off : Nat) (s : State) : State × Flow :=
  match s.hqPop core off with
  | some (item, s) =>
    let s := s.raiseVersion s.g.who 1
    ({ s with g := s.g.setK 0 f.d.toNat (item.zeroExtend 64) }, .done)
  | none => ({ s with g := s.g.setK 0 f.d.toNat (BitVec.allOnes 64) }, .done)

def hallowBody (f : FForm) (core off : Nat) (s : State) : State × Flow :=
  if s.g.unver || !s.g.allPerformed then (s, .hold .waitStall (.until_ .released))
  else
    let h := s.hqHead core off
    ((s.putHq core off { h with allow := min (h.allow + min (s.g.readK f.b.toNat).toNat 65535) 65535 }).hqServeAll core off, .done)

theorem hpush_exec (f : FForm) (s : State) : exec (.hpush f) s = runWord (mkWord shapeHpush f) {} (hqBody (mkWord shapeHpush f) (hpushBody f)) s := rfl
theorem hpop_exec (f : FForm) (s : State) : exec (.hpop f) s = runWord (mkWord shapeHpop f) {} (hqBody (mkWord shapeHpop f) (hpopBody f)) s := rfl
theorem htry_exec (f : FForm) (s : State) : exec (.htry f) s = runWord (mkWord shapeHtry f) {} (hqBody (mkWord shapeHtry f) (htryBody f)) s := rfl
theorem hallow_exec (f : FForm) (s : State) : exec (.hallow f) s = runWord (mkWord shapeHallow f) {} (hqBody (mkWord shapeHallow f) (hallowBody f)) s := rfl

theorem writeV_replay (g : Group) (lat n : Nat) (mask : Mask) (bits : W32) (vals : Lanes) : (g.writeV lat n mask bits vals).replay = g.replay := by
  obtain ⟨v, h⟩ := writeV_fields g lat n mask bits vals
  rw [h]

theorem hpushBody_put {f : FForm} {core off : Nat} {c u : State} (hu : c.g.unver = false) (ha : c.g.allPerformed = true) (hp : c.hqPush core off ((c.g.readK f.b.toNat).extractLsb' 0 32) = some u) :
    hpushBody f core off c = (u.raiseVersion u.g.who 1, .done) := by
  simp [hpushBody, hu, ha, hp]

theorem hpushBody_none {f : FForm} {core off : Nat} {c : State} (hu : c.g.unver = false) (ha : c.g.allPerformed = true) (hp : c.hqPush core off ((c.g.readK f.b.toNat).extractLsb' 0 32) = none) :
    hpushBody f core off c = (({ c with work := { c.work with hqWait := c.work.hqWait ++ [{ core := core, off := off, uid := c.g.uid, push := true, item := (c.g.readK f.b.toNat).extractLsb' 0 32 }] } } : State).putHq core off
      (c.hqHead core off), .wait .waitQueue (.hpush core off)) := by
  simp [hpushBody, hu, ha, hp]

/-- Settles O37: each word by what it does with the queue that its handle names; a queue gives back what was pushed by `hqPop_pushed`. -/
theorem handleQueues : Obligations.HandleQueues := by
  refine ⟨fun f w s c core off hw hx hq hu ha => ?_, fun f w s c core off hw hx hq => ?_, fun f w s c core off hw hx hq => ?_, fun f w s c core off hw hx hq hu ha => ?_,
    fun s u core off item hc hh _ hw hp => hqPop_pushed hc hh hw hp⟩
  · have e := Option.some.inj hw
    subst e
    obtain ⟨hb, hc⟩ := hqBody_begun (w := mkWord shapeHpush f) (body := hpushBody f) hq
    have huid : c.g.uid = s.g.uid := congrArg Prod.fst hc.place
    refine ⟨fun u hp hm hr => body_done _ {} _ s _ hx (hb.trans (hpushBody_put hu ha (by rw [hc.k]; exact hp))) hm hr, fun hp hm => ?_⟩
    have hn := hpushBody_none hu ha (by rw [hc.k]; exact hp)
    rw [hc.k, huid] at hn
    exact hq_waits (hpush_exec f s) hx (hb.trans hn) hm hc
  · have e := Option.some.inj hw
    subst e
    obtain ⟨hb, hc⟩ := hqBody_begun (w := mkWord shapeHpop f) (body := hpopBody f) hq
    have huid : c.g.uid = s.g.uid := congrArg Prod.fst hc.place
    refine ⟨fun item u hp hm hr => body_done _ {} _ s { u.raiseVersion u.g.who 1 with g := (u.raiseVersion u.g.who 1).g.writeV 0 f.d.toNat (s.g.active f.pred.toNat) 0xFFFFFFFF (laneNumbers.map fun _ => item) } hx
      (hb.trans ?_) hm ((writeV_replay _ _ _ _ _ _).trans hr), fun hp hm => hq_waits (core := core) (off := off) (hpop_exec f s) hx (hb.trans ?_) hm hc⟩
    · simp only [hpopBody, hp, hc.active]
    · simp only [hpopBody, hp, hc.active, huid]
  · have e := Option.some.inj hw
    subst e
    obtain ⟨hb, hc⟩ := hqBody_begun (w := mkWord shapeHtry f) (body := htryBody f) hq
    refine ⟨fun item u hp hm hr => ?_, fun hp hm hr => ?_⟩
    · obtain ⟨t, ht, hd, hk, hv⟩ := answered (u := u.raiseVersion u.g.who 1) (d := f.d.toNat) (x := item.zeroExtend 64) (htry_exec f s) hx (hb.trans (by simp only [htryBody, hp])) hm hr
      exact ⟨t, ht, hd, hk, fun hn d _ => hv (by bv_omega) d⟩
    · obtain ⟨t, ht, hd, hk, hv⟩ := answered (u := c) (d := f.d.toNat) (x := BitVec.allOnes 64) (htry_exec f s) hx (hb.trans (by simp only [htryBody, hp])) hm hr
      exact ⟨t, ht, hd, hk, fun hn d _ => hv (by bv_omega) d⟩
  · have e := Option.some.inj hw
    subst e
    obtain ⟨hb, hc⟩ := hqBody_begun (w := mkWord shapeHallow f) (body := hallowBody f) hq
    intro h u hm hr
    exact body_done _ {} _ s u hx (hb.trans (by simp [hallowBody, hu, ha, u, h])) hm hr

end Sys2Proof.Machine
end

section
/-! O34 and O38: pushes and event words. -/

namespace Sys2Proof.Machine

open Sys2Proof

/-- A body that leaves the group y with one control register written at once, in a word that takes no register: it reads the value at every distance. -/
theorem word_answers {w : Word} {ex : Extra} {body : State → State × Flow} {s b : State} {y : Group} {q : Option Region} {u : Bool} {n : Nat} {x : W64} (h : s.executes w ex = true)
    (hb : body (s.begun w ex) = ({ b with g := ({ y with region := q, uninit := u, wait := .none } : Group).setK 0 n x }, .done)) (hm : b.mem.bad = none) (hx : y.replay = none) (hr : q.isSome = y.inreg) :
    ∃ t, runWord w ex body s = .next t ∧ WordDone b t w ex { y with k := t.g.k } (w.next s.g.pc) (w.stall + 1) ∧ y.SameK t.g [n] ∧ (n ≠ 0 → ∀ d, t.g.kAt d n = x) := by
  obtain ⟨r, hr1, hr2⟩ := setK_shape { y with region := q, uninit := u, wait := .none } 0 n x
  have hk := writeK_k y { y with region := q, uninit := u, wait := .none } 0 n x rfl rfl
  obtain ⟨t, ht, hd, -⟩ := word_done w ex body s b { y with k := (y.writeK 0 n x).k } r u h (by rw [hb, hr1, hk]) hm hx (hr2.trans hr)
  have hkt : t.g.k = (y.writeK 0 n x).k := hd.kept.k
  refine ⟨t, ht, by rw [hkt]; exact hd, fun m hm => ?_, fun hn d => kAt_writeK_now hn hkt d⟩
  rw [hkt]
  exact writeK_other y 0 n m x fun e => hm (by rw [e]; exact List.mem_singleton_self m)

/-! ### qpush (R342) -/

theorem record_named {w : Word} {g : Group} {b : Block} {gr : Graph} {e : QueueEnt} {names : List Nat} (hn : recordNames g w.f.d.toNat e.rsize = some names) :
    w.record g (some (b, gr, e)) = (names, true) := by
  simp only [Word.record, Option.map_some, hn]

/-- The records of the lanes, from the state in which the word issued. -/
theorem laneRecord_begun (g : Group) (w : Word) (ex : Extra) (names : List Nat) (l : Nat) : laneRecord (g.begin w ex) names l = laneRecord g names l := by
  simp only [laneRecord, begin_readV]

/-- What `qpush` does with a queue that it may push into. -/
def qpushBody (f : FForm) (b : Block) (e : QueueEnt) (names : List Nat) (s : State) : State × Flow :=
  let act := s.g.active f.pred.toNat
  if act = 0 then ({ s with g := s.g.setK 0 f.b.toNat 0 }, .done)
  else if s.g.unver then (s, .hold .waitStall (.until_ .verified))
  else
    let lanes := (lanesOf act).take (b.resvIn e.qid - b.tentIn e.qid)
    let s1 := s.putBlock { b with tent := b.tent ++ lanes.map fun l => (e.qid, laneRecord s.g names l) }
    ({ s1 with g := s1.g.setK 0 f.b.toNat (BitVec.ofNat 64 lanes.length) }, .done)

theorem qpushBody_idle {f : FForm} {b : Block} {e : QueueEnt} {names : List Nat} {t : State} (h0 : t.g.active f.pred.toNat = 0) :
    qpushBody f b e names t = ({ t with g := t.g.setK 0 f.b.toNat 0 }, .done) := if_pos h0

theorem qpushBody_takes {f : FForm} {b : Block} {e : QueueEnt} {names : List Nat} {t : State} (h0 : t.g.active f.pred.toNat ≠ 0) (hu : t.g.unver = false) :
    let lanes := (lanesOf (t.g.active f.pred.toNat)).take (b.resvIn e.qid - b.tentIn e.qid)
    qpushBody f b e names t =
      ({ t.putBlock { b with tent := b.tent ++ lanes.map fun l => (e.qid, laneRecord t.g names l) } with g := t.g.setK 0 f.b.toNat (BitVec.ofNat 64 lanes.length) }, .done) :=
  (if_neg h0).trans (if_neg (by rw [hu]; decide))

/-- The same with the checks before it (R341). -/
def qpushWord (f : FForm) (q : Option (Block × Graph × QueueEnt)) (names : List Nat) (s : State) : State × Flow :=
  match q with
  | none => (s, .trap 0x04 0)
  | some (b, _, e) =>
    if !(b.hdr.outq.take b.hdr.nout).contains e.qid || (recordNames s.g f.d.toNat e.rsize).isNone then (s, .trap 0x04 0) else qpushBody f b e names s

theorem qpush_exec (f : FForm) (s : State) :
    let r := (mkWord shapeQpush f).record s.g (s.namedQueue s.g f.a.toNat)
    exec (.qpush f) s = runWord (mkWord shapeQpush f) { r := { v := r.1 }, ok := r.2 } (qpushWord f (s.namedQueue s.g f.a.toNat) r.1) s := rfl

theorem recordNames_begun (g : Group) (w : Word) (ex : Extra) (d n : Nat) : recordNames (g.begin w ex) d n = recordNames g d n := by
  obtain ⟨v, r, u, h, -⟩ := begin_fields g w ex
  rw [h]
  rfl

theorem qpush_runs {f : FForm} {s : State} {b : Block} {gr : Graph} {e : QueueEnt} {names : List Nat} (hq : s.namedQueue s.g f.a.toNat = some (b, gr, e)) (hn : recordNames s.g f.d.toNat e.rsize = some names)
    (ho : ((b.hdr.outq.take b.hdr.nout).contains e.qid) = true) :
    ∃ body, exec (.qpush f) s = runWord (mkWord shapeQpush f) { r := { v := names } } body s ∧
      body (s.begun (mkWord shapeQpush f) { r := { v := names } }) = qpushBody f b e names (s.begun (mkWord shapeQpush f) { r := { v := names } }) := by
  have he := qpush_exec f s
  rw [hq, record_named (w := mkWord shapeQpush f) hn] at he
  exact ⟨_, he, if_neg (by simpa [begun_g, recordNames_begun, hn] using ho)⟩

/-- Settles O34: `qpush` answers the number of records that the reservation takes. -/
theorem pushesAreTentative : Obligations.PushesAreTentative := by
  intro f w s b gr e names hw hq hn ho
  have ew := Option.some.inj hw
  subst ew
  intro ex act hx lanes
  obtain ⟨body, he, hb⟩ := qpush_runs hq hn ho
  have hbegin := begin_aged s.g (mkWord shapeQpush f) ex rfl
  have hact : (s.g.begin (mkWord shapeQpush f) ex).active f.pred.toNat = act := Alike.active (begin_alike s.g _ ex) _
  have hreg := inreg_counted s.g (mkWord shapeQpush f)
  rw [he]
  refine ⟨fun h0 => ?_, fun h0 hu => ?_⟩
  · have hidle := qpushBody_idle (b := b) (e := e) (names := names) (t := s.begun (mkWord shapeQpush f) ex) (hact.trans h0)
    rw [begun_g, hbegin] at hidle
    obtain ⟨t, ht, hd, hk, hv⟩ := word_answers (b := s) (y := s.g.aged) (n := f.b.toNat) (x := 0) hx (hb.trans hidle) (executes_sound hx) (executes_replay hx) hreg
    exact ⟨t, ht, hd, hk, fun hn d _ => hv (by bv_omega) d⟩
  · have htakes := qpushBody_takes (b := b) (e := e) (names := names) (t := s.begun (mkWord shapeQpush f) ex) (by rw [begun_g, hact]; exact h0) ((begin_waits s.g _ ex).2.1.trans hu)
    simp only [begun_g, hact, laneRecord_begun] at htakes
    rw [hbegin] at htakes
    obtain ⟨t, ht, hd, hk, hv⟩ := word_answers (b := s.putBlock { b with tent := b.tent ++ lanes.map fun l => (e.qid, laneRecord s.g names l) }) (y := s.g.aged) (n := f.b.toNat) (x := BitVec.ofNat 64 lanes.length)
      hx (hb.trans htakes) (executes_sound hx) (executes_replay hx) hreg
    exact ⟨t, ht, hd, hk, fun hn d _ => hv (by bv_omega) d⟩

end Sys2Proof.Machine
end

section
/-! O38: event words (R338, R339, R351 to R353). -/

namespace Sys2Proof.Machine

open Sys2Proof

/-- A word that is done with control registers and the region changed has completed as one that changed its control registers. -/
theorem done_of_k {u t : State} {w : Word} {ex : Extra} {h : Group} {K : Tbl KReg} {r : Option Region} {pc : W64} {n : Nat} (he : h = { u.g with k := K, region := r }) (hr : r.isSome = u.g.inreg)
    (hd : WordDone { u with g := h } t w ex h pc n) : WordDone u t w ex { u.g with k := t.g.k } pc n ∧ t.g.k = K := by
  subst he
  have hk : t.g.k = K := hd.kept.k
  obtain ⟨⟨h1, h2, h3, h4, h5, h6, h7, h8, h9, h10⟩, ⟨p1, p2, p3, p4⟩, kept⟩ := hd
  obtain ⟨hnames, -, hm, hm0, hmode, hgens, hpaths, hinreg, ⟨a1, a2, a3, a4, a5, a6, a7, a8, a9, a10, a11, a12⟩, hcounts, hpend, hlaunch⟩ := kept
  exact ⟨⟨⟨h1, h2, h3, h4, h5, h6, h7, h8, h9, h10⟩, ⟨p1, p2, p3, p4⟩, hnames, rfl, hm, hm0, hmode, hgens, hpaths, hinreg.trans hr, ⟨a1, a2, a3, a4, a5, a6, a7, a8, a9, a10, a11, a12⟩, hcounts, hpend, hlaunch⟩, hk⟩

/-! ### A docket in four registers -/

/-- What the four writes of a docket do to the control registers. -/
theorem takeDocket_shape (g : Group) (d : Nat) (bs : List Byte) :
    ∃ r, g.takeDocket d bs = { g with k := (g.takeDocket d bs).k, region := r } ∧ r.isSome = g.inreg := by
  have h : ∀ (l : List Nat) (x : Group), ∃ r, l.foldl (fun h i => h.setK 0 (d + i) (BitVec.ofNat 64 (natAt bs (8 * i) 8))) x =
      { x with k := (l.foldl (fun h i => h.setK 0 (d + i) (BitVec.ofNat 64 (natAt bs (8 * i) 8))) x).k, region := r } ∧ r.isSome = x.inreg := by
    intro l
    induction l with
    | nil => exact fun x => ⟨x.region, rfl, rfl⟩
    | cons a l ih =>
      intro x
      obtain ⟨r1, h1, hr1⟩ := setK_shape x 0 (d + a) (BitVec.ofNat 64 (natAt bs (8 * a) 8))
      obtain ⟨r, h2, hr2⟩ := ih (x.setK 0 (d + a) (BitVec.ofNat 64 (natAt bs (8 * a) 8)))
      refine ⟨r, ?_, hr2.trans ?_⟩
      · rw [List.foldl_cons]
        conv_lhs => rw [h2]
        rw [h1]
      · rw [Group.inreg, h1]
        exact hr1
  exact h (List.range 4) g

theorem setK_other (g : Group) (lat n m : Nat) (x : W64) (h : n ≠ m) : tget ({} : KReg) (g.setK lat n x).k m = tget {} g.k m := writeK_other g lat n m x h

/-- A register written at once and left alone since reads its value. -/
theorem kAt_setK_now {g h : Group} {n d : Nat} {x : W64} (hn : n ≠ 0) (hk : tget ({} : KReg) h.k n = tget {} (g.setK 0 n x).k n) : h.kAt d n = x := by
  have hw : (g.setK 0 n x).kAt d n = x := kAt_writeK_now (g := g) hn rfl d
  rw [← hw]
  simp only [Group.kAt, Group.readK, hk]

theorem takeDocket_reads {g h : Group} {d : Nat} {bs : List Byte} (hd : d ≠ 0) (hk : h.k = (g.takeDocket d bs).k) :
    g.SameK h [d, d + 1, d + 2, d + 3] ∧ ∀ j, j < 4 → ∀ n, h.kAt n (d + j) = BitVec.ofNat 64 (natAt bs (8 * j) 8) := by
  have e : g.takeDocket d bs = (((g.setK 0 (d + 0) (BitVec.ofNat 64 (natAt bs (8 * 0) 8))).setK 0 (d + 1) (BitVec.ofNat 64 (natAt bs (8 * 1) 8))).setK 0 (d + 2) (BitVec.ofNat 64 (natAt bs (8 * 2) 8))).setK 0 (d + 3) (BitVec.ofNat 64 (natAt bs (8 * 3) 8)) := rfl
  refine ⟨fun m hm => ?_, fun j hj n => ?_⟩
  · simp only [List.mem_cons, List.not_mem_nil, or_false, not_or] at hm
    rw [hk, e, setK_other _ _ _ _ _ (by omega), setK_other _ _ _ _ _ (by omega), setK_other _ _ _ _ _ (by omega), setK_other _ _ _ _ _ (by omega)]
  · rw [e] at hk
    obtain rfl | rfl | rfl | rfl : j = 0 ∨ j = 1 ∨ j = 2 ∨ j = 3 := by omega
    · exact kAt_setK_now (by omega) (by rw [hk, setK_other _ _ _ _ _ (by omega), setK_other _ _ _ _ _ (by omega), setK_other _ _ _ _ _ (by omega)])
    · exact kAt_setK_now (by omega) (by rw [hk, setK_other _ _ _ _ _ (by omega), setK_other _ _ _ _ _ (by omega)])
    · exact kAt_setK_now (by omega) (by rw [hk, setK_other _ _ _ _ _ (by omega)])
    · exact kAt_setK_now (by omega) (by rw [hk])

/-- A word whose body leaves the state u with a docket taken completes with the docket in its registers. -/
theorem docket_taken {w : Word} {ex : Extra} {body : State → State × Flow} {s u : State} {d : Nat} {bs : List Byte} (hx : s.executes w ex = true) (hd : d ≠ 0)
    (hb : body (s.begun w ex) = ({ u with g := u.g.takeDocket d bs }, .done)) (hm : u.mem.bad = none) (hr : u.g.replay = none) :
    ∃ t, runWord w ex body s = .next t ∧ WordDone u t w ex { u.g with k := t.g.k } (w.next s.g.pc) (w.stall + 1) ∧ u.g.SameK t.g [d, d + 1, d + 2, d + 3] ∧
      ∀ j, j < 4 → ∀ n, t.g.kAt n (d + j) = BitVec.ofNat 64 (natAt bs (8 * j) 8) := by
  obtain ⟨r, hs, hreg⟩ := takeDocket_shape u.g d bs
  obtain ⟨t, ht, hdone⟩ := body_done w ex body s { u with g := u.g.takeDocket d bs } hx hb hm (by rw [hs]; exact hr)
  obtain ⟨hdone', hk⟩ := done_of_k hs hreg hdone
  obtain ⟨hsame, hread⟩ := takeDocket_reads hd hk
  exact ⟨t, ht, hdone', hsame, hread⟩

/-! ### The words -/

/-- What `evpost` does. -/
def evpostBody (w : Word) (s : State) : State × Flow :=
  if s.g.unver || !s.g.allPerformed then (s, .hold .waitStall (.until_ .released))
  else if !s.evqRoom s.g.cluster then (s, .hold .waitExt .evpost)
  else (s.postCluster s.g.cluster (docketBytes 1 0 s.g.source s.g.part s.g.ctx 0 (s.part s.g.part).time (signalBytes s.g w)), .done)

theorem evpost_exec (f : FForm) (s : State) : exec (.evpost f) s = runWord (mkWord shapeEvpost f) {} (evpostBody (mkWord shapeEvpost f)) s := rfl

/-- What `ksig` does. -/
def ksigBody (w : Word) (s : State) : State × Flow :=
  if s.g.unver || !s.g.allPerformed then (s, .hold .waitStall (.until_ .released))
  else if !(s.part s.g.part).evhalt && 2 ^ (s.part s.g.part).evlog ≤ (s.part s.g.part).evUsed then (s, .hold .waitExt .ksig)
  else (s.docket 9 0 s.g.source s.g.part s.g.ctx (signalBytes s.g w), .done)

theorem ksig_exec (f : FForm) (s : State) : exec (.ksig f) s = runWord (mkWord shapeKsig f) {} (ksigBody (mkWord shapeKsig f)) s := rfl

theorem released_begun {g : Group} {w : Word} {ex : Extra} (hu : g.unver = false) (hp : g.allPerformed = true) : ((g.begin w ex).unver || !(g.begin w ex).allPerformed) = false := by
  obtain ⟨h1, h2, -⟩ := begin_waits g w ex
  rw [h1, h2, hu, hp]
  rfl

theorem begun_place (g : Group) (w : Word) (ex : Extra) : (g.begin w ex).cluster = g.cluster ∧ (g.begin w ex).part = g.part ∧ (g.begin w ex).ctx = g.ctx ∧ (g.begin w ex).uid = g.uid ∧ (g.begin w ex).pc = g.pc := by
  obtain ⟨v, r, u, h, -⟩ := begin_fields g w ex
  rw [h]
  exact ⟨rfl, rfl, rfl, rfl, rfl⟩

theorem evpostBody_posts {w : Word} {s : State} {ex : Extra} (hu : s.g.unver = false) (hp : s.g.allPerformed = true) (hroom : s.evqRoom s.g.cluster = true) :
    let b := s.begun w ex
    evpostBody w b = (b.postCluster b.g.cluster (docketBytes 1 0 b.g.source b.g.part b.g.ctx 0 (b.part b.g.part).time (signalBytes b.g w)), .done) := by
  refine (if_neg (by rw [begun_g, released_begun hu hp]; decide)).trans (if_neg ?_)
  rw [begun_g, (begun_place s.g w ex).1, show (s.begun w ex).evqRoom s.g.cluster = s.evqRoom s.g.cluster from rfl, hroom]
  decide

theorem ksigBody_posts {w : Word} {s : State} {ex : Extra} (hu : s.g.unver = false) (hp : s.g.allPerformed = true)
    (hroom : (s.part s.g.part).evhalt = true ∨ (s.part s.g.part).evUsed < 2 ^ (s.part s.g.part).evlog) :
    let b := s.begun w ex
    ksigBody w b = (b.docket 9 0 b.g.source b.g.part b.g.ctx (signalBytes b.g w), .done) := by
  refine (if_neg (by rw [begun_g, released_begun hu hp]; decide)).trans (if_neg ?_)
  rw [begun_g, (begun_place s.g w ex).2.1, show (s.begun w ex).part s.g.part = s.part s.g.part from rfl]
  rcases hroom with h | h
  · simp [h]
  · simp only [Bool.and_eq_true, decide_eq_true_eq, not_and, Nat.not_le]
    exact fun _ => h

/-- What `evpop` and `evpop.wait` do with a legal D. -/
def evpopBody (wait : Bool) (d : Nat) (s : State) : State × Flow :=
  match s.evQueue s.g.cluster with
  | x :: rest =>
    let u := (((s.setEvQueue s.g.cluster rest).evqRefill s.g.cluster).wakePosters s.g.cluster).raiseVersion s.g.who 6
    ({ u with g := u.g.takeDocket d x }, .done)
  | [] => if wait then ({ s with units := { s.units with evWait := s.units.evWait ++ [s.g.uid] } }, .wait .waitExt (.evpop d)) else ({ s with g := s.g.takeDocket d [] }, .done)

theorem evpopBody_item {wait : Bool} {d : Nat} {s : State} {x : List Byte} {rest : List (List Byte)} (h : s.evQueue s.g.cluster = x :: rest) :
    let u := (((s.setEvQueue s.g.cluster rest).evqRefill s.g.cluster).wakePosters s.g.cluster).raiseVersion s.g.who 6
    evpopBody wait d s = ({ u with g := u.g.takeDocket d x }, .done) := by
  simp only [evpopBody, h]

theorem evpopBody_none {d : Nat} {s : State} (h : s.evQueue s.g.cluster = []) : evpopBody false d s = ({ s with g := s.g.takeDocket d [] }, .done) := by
  simp [evpopBody, h]

theorem evpopBody_waits {d : Nat} {s : State} (h : s.evQueue s.g.cluster = []) :
    evpopBody true d s = ({ s with units := { s.units with evWait := s.units.evWait ++ [s.g.uid] } }, .wait .waitExt (.evpop d)) := by
  simp [evpopBody, h]

/-- The body with its check of D. -/
def evpopWord (wait : Bool) (d : Nat) (s : State) : State × Flow := if d = 0 || 28 < d then (s, .trap 0x04 0) else evpopBody wait d s

theorem runEvpop_eq (wait : Bool) (w : Word) (s : State) :
    runEvpop wait w s = runWord w { w := { k := [w.f.d.toNat + 1, w.f.d.toNat + 2, w.f.d.toNat + 3] } } (evpopWord wait w.f.d.toNat) s := rfl

theorem evpopWord_legal {wait : Bool} {d : Nat} (h0 : d ≠ 0) (h28 : d ≤ 28) (s : State) : evpopWord wait d s = evpopBody wait d s :=
  if_neg (by simp; omega)

/-- What `evpop` leaves of the machine when it takes the first docket of a cluster's queue. -/
def State.evTaken (s : State) (cl : Nat) (rest : List (List Byte)) : State :=
  (((s.setEvQueue cl rest).evqRefill cl).wakePosters cl).raiseVersion s.g.who 6

/-- The names of a docket's other three registers, which `evpop` writes beside D. -/
def evpopExtra (d : Nat) : Extra := { w := { k := [d + 1, d + 2, d + 3] } }

theorem evpop_takes (wait : Bool) {w : Word} {s : State} {x : List Byte} {rest : List (List Byte)} (hx : s.executes w (evpopExtra w.f.d.toNat) = true) (h0 : w.f.d.toNat ≠ 0) (h28 : w.f.d.toNat ≤ 28)
    (hq : s.evQueue s.g.cluster = x :: rest) (hm : ((s.begun w (evpopExtra w.f.d.toNat)).evTaken s.g.cluster rest).mem.bad = none)
    (hr : ((s.begun w (evpopExtra w.f.d.toNat)).evTaken s.g.cluster rest).g.replay = none) :
    let d := w.f.d.toNat
    let u := (s.begun w (evpopExtra d)).evTaken s.g.cluster rest
    ∃ t, runEvpop wait w s = .next t ∧ WordDone u t w (evpopExtra d) { u.g with k := t.g.k } (w.next s.g.pc) (w.stall + 1) ∧ u.g.SameK t.g [d, d + 1, d + 2, d + 3] ∧
      ∀ j, j < 4 → ∀ n, t.g.kAt n (d + j) = BitVec.ofNat 64 (natAt x (8 * j) 8) := by
  have hcl := (begun_place s.g w (evpopExtra w.f.d.toNat)).1
  have hitem := evpopBody_item (wait := wait) (d := w.f.d.toNat) (s := s.begun w (evpopExtra w.f.d.toNat)) (x := x) (rest := rest) (by rw [begun_g, hcl]; exact hq)
  rw [show (s.begun w (evpopExtra w.f.d.toNat)).g.cluster = s.g.cluster from hcl] at hitem
  exact docket_taken hx h0 ((evpopWord_legal h0 h28 _).trans hitem) hm hr

theorem evpop_empty {w : Word} {s : State} (hx : s.executes w (evpopExtra w.f.d.toNat) = true) (hv : (w.allWrites (evpopExtra w.f.d.toNat)).v = []) (h0 : w.f.d.toNat ≠ 0) (h28 : w.f.d.toNat ≤ 28)
    (hq : s.evQueue s.g.cluster = []) :
    let d := w.f.d.toNat
    ∃ t, runEvpop false w s = .next t ∧ WordDone s t w (evpopExtra d) { s.g.aged with k := t.g.k } (w.next s.g.pc) (w.stall + 1) ∧ s.g.SameK t.g [d, d + 1, d + 2, d + 3] ∧
      ∀ j, j < 4 → ∀ n, t.g.kAt n (d + j) = 0 := by
  intro d
  have hcl := (begun_place s.g w (evpopExtra d)).1
  obtain ⟨r, hs, hreg⟩ := takeDocket_shape (s.g.begin w (evpopExtra d)) d []
  have hbody := (evpopWord_legal (wait := false) h0 h28 _).trans (evpopBody_none (d := d) (s := s.begun w (evpopExtra d)) (by rw [begun_g, hcl]; exact hq))
  generalize hK : ((s.g.begin w (evpopExtra d)).takeDocket d []).k = K at hs
  rw [begun_g, hs, begin_aged s.g w _ hv] at hbody
  obtain ⟨t, ht, hd, -⟩ := word_done w _ _ s s { s.g.aged with k := K } r _ hx hbody (executes_sound hx) (executes_replay hx) (hreg.trans (begin_inreg s.g w _))
  have hk : t.g.k = K := hd.kept.k
  obtain ⟨hsame, hread⟩ := takeDocket_reads (g := s.g.begin w (evpopExtra d)) h0 (hk.trans hK.symm)
  refine ⟨t, ht, by rw [hk]; exact hd, fun m hm => ?_, fun j hj n => ?_⟩
  · rw [hsame m hm, begin_aged s.g w _ hv]
    rfl
  · rw [hread j hj n]
    simp [natAt, leNat]

theorem evpop_waits {w : Word} {s : State} (hx : s.executes w (evpopExtra w.f.d.toNat) = true) (h0 : w.f.d.toNat ≠ 0) (h28 : w.f.d.toNat ≤ 28) (hq : s.evQueue s.g.cluster = []) :
    ∃ t, runEvpop true w s = .next t ∧ t.g.st = .waitExt ∧ t.g.wait = .evpop w.f.d.toNat ∧ t.g.pc = s.g.pc ∧ t.units = { s.units with evWait := s.units.evWait ++ [s.g.uid] } := by
  obtain ⟨hcl, -, -, huid, hpc⟩ := begun_place s.g w (evpopExtra w.f.d.toNat)
  have hwaits := evpopBody_waits (d := w.f.d.toNat) (s := s.begun w (evpopExtra w.f.d.toNat)) (by rw [begun_g, hcl]; exact hq)
  obtain ⟨t, ht, hsame, hst, hwt, hp⟩ := body_waits hx ((evpopWord_legal h0 h28 _).trans hwaits) (executes_sound (s := s) hx)
  refine ⟨t, ht, hst, hwt, hp.trans hpc, ?_⟩
  rw [hsame.units, ← huid]
  rfl

theorem evpost_completes {f : FForm} {s : State} (hx : s.executes (mkWord shapeEvpost f) {} = true) (hu : s.g.unver = false) (hp : s.g.allPerformed = true) (hroom : s.evqRoom s.g.cluster = true) :
    let b := s.begun (mkWord shapeEvpost f) {}
    s.Completes (b.postCluster b.g.cluster (docketBytes 1 0 b.g.source b.g.part b.g.ctx 0 (b.part b.g.part).time (signalBytes b.g (mkWord shapeEvpost f)))) (.evpost f) (mkWord shapeEvpost f) {} :=
  completes_of_body (evpost_exec f s) hx (evpostBody_posts hu hp hroom)

theorem ksig_completes {f : FForm} {s : State} (hx : s.executes (mkWord shapeKsig f) {} = true) (hu : s.g.unver = false) (hp : s.g.allPerformed = true)
    (hroom : (s.part s.g.part).evhalt = true ∨ (s.part s.g.part).evUsed < 2 ^ (s.part s.g.part).evlog) :
    let b := s.begun (mkWord shapeKsig f) {}
    s.Completes (b.docket 9 0 b.g.source b.g.part b.g.ctx (signalBytes b.g (mkWord shapeKsig f))) (.ksig f) (mkWord shapeKsig f) {} :=
  completes_of_body (ksig_exec f s) hx (ksigBody_posts hu hp hroom)

/-- Settles O38. -/
theorem eventWords : Obligations.EventWords := by
  refine ⟨fun f w s hw => ?_, fun f w s hw => ?_, fun i f wait w s hi hw => ?_⟩
  · cases hw
    exact evpost_completes
  · cases hw
    exact ksig_completes
  · have hpop : exec i s = runEvpop wait w s ∧ (w.allWrites (evpopExtra w.f.d.toNat)).v = [] ∧ w.f.d = f.d := by
      rcases hi with ⟨rfl, rfl⟩ | ⟨rfl, rfl⟩
      · cases hw
        exact ⟨rfl, rfl, rfl⟩
      · cases hw
        exact ⟨rfl, rfl, rfl⟩
    obtain ⟨he, hv, hd⟩ := hpop
    rw [he, ← hd]
    intro d ex hx h0 h28
    refine ⟨?_, fun hq hwait => ?_, fun hq hwait => ?_⟩
    · intro x rest hq b u hm hr
      have hu : u = (s.begun w (evpopExtra w.f.d.toNat)).evTaken s.g.cluster rest := rfl
      clear_value u
      subst hu
      obtain ⟨t, ht, hdone, hk, hread⟩ := evpop_takes wait hx h0 h28 hq hm hr
      exact ⟨t, ht, hdone, hk, fun j hj n _ => hread j hj n⟩
    · subst hwait
      obtain ⟨t, ht, hdone, hk, hread⟩ := evpop_empty hx hv h0 h28 hq
      exact ⟨t, ht, hdone, hk, fun j hj n _ => hread j hj n⟩
    · subst hwait
      exact evpop_waits hx h0 h28 hq

end Sys2Proof.Machine
end

section
/-! O31: matrix words (R284 to R287, R291, R293 to R295). -/

namespace Sys2Proof.Machine

open Sys2Proof

/-- Units are compared without the issuing group. -/
theorem WordDone.regroup {u t : State} {w : Word} {ex : Extra} {h x : Group} {pc : W64} {n : Nat} (hd : WordDone { u with g := h } t w ex x pc n) : WordDone u t w ex x pc n :=
  ⟨SameUnits.trans (SameUnits.of_g u h) hd.units, hd.past, hd.kept⟩

/-- The group of a word that waits, in full. -/
def Group.waiting (g s : Group) (w : Word) (ex : Extra) (st : SlotState) (wt : Wait) : Group :=
  { g with st := st, wait := wt, word0 := w.w0, word1 := w.w1, gage := 0, stall := w.stall, resume := some ⟨w.next s.pc, w.stall + 1, w.releases ex⟩
           took := (w.allWrites ex).v.filter fun n => n != 255 && !(s.vreg n).alloc }

theorem body_waits_as {w : Word} {ex : Extra} {body : State → State × Flow} {s b : State} {st : SlotState} {wt : Wait} (hx : s.executes w ex = true)
    (hb : body (s.begun w ex) = (b, .wait st wt)) (hm : b.mem.bad = none) :
    ∃ t, runWord w ex body s = .next t ∧ b.SameUnits t ∧ t.g = b.g.waiting s.g w ex st wt := by
  have hc : s.conclude w ex (b, .wait st wt) = State.issued { b with g := b.g.waiting s.g w ex st wt } := rfl
  rw [runWord_executes w ex body s hx, hb, hc]
  have hsame := SameUnits.trans (SameUnits.of_g b (b.g.waiting s.g w ex st wt)) (issued_same _)
  exact ⟨_, answer_next _ (by rw [hsame.mem]; exact hm), hsame, issued_g _⟩

theorem readEntry_drift (s : State) (g : Group) (tid : Nat) : s.Drift (s.readEntry g tid).2 := by
  unfold State.readEntry
  dsimp only
  split
  · exact Drift.refl s
  · exact Drift.trans (loadVerified_drift s _ _ _) (drift_mem _ _)

theorem tensor_drift (s : State) (g : Group) (tid : Nat) : s.Drift (s.tensor g tid).2 := by
  unfold State.tensor
  split
  · exact Drift.refl s
  · exact readEntry_drift s g tid

/-! ### Words of one group -/

theorem issueMat_accepts {s : State} {o : MatOp} (h : s.g.matFull = false) : issueMat s o = ({ s.accept s.g.quad o with g := s.g.joinBatch }, .done) := by
  simp [issueMat, h]

/-- What `mload` does. -/
def mloadBody (f : FForm) (l : SetLit) (w : Word) (s : State) : State × Flow :=
  let t := s.tensor s.g l.t1.toNat
  match t.1 with
  | some x =>
    if x.planar || x.fmt != 8 || x.rank != 2 then (s, .trap 0x14 0)
    else issueMat t.2 { kind := 2, core := s.g.core, slices := [s.g.slice f.d.toNat w.w0 (w.w1.getD 0)], origin := s.g.readK f.a.toNat, tel := some x }
  | none => (s, .trap 0x14 0)

/-- Does the scale tensor of an `mpour` go with its element type? -/
def pourScale (mx : Prop) [Decidable mx] (tsc : Option Tensor) : Bool :=
  match tsc with
  | some x => mx && !x.planar && x.fmt == 19 && x.rank == 2
  | none => !mx

/-- The operation of an `mpour`. -/
def pourOp (f : FForm) (l : SetLit) (w : Word) (g : Group) (tel : Tensor) (tsc : Option Tensor) : MatOp :=
  let sl := { (g.slice f.d.toNat w.w0 (w.w1.getD 0)) with rm := roundingMode f.rnd.toNat g.mode }
  { kind := 3, core := g.core, slices := [sl], origin := g.readK f.a.toNat, tel := some tel, tsc := tsc, axis := l.p1.toNat, clr := l.p2 == 1, ty := f.xf.toNat }

/-- The first coordinate of an `mpour`'s block within its axis. -/
def pourPlace (l : SetLit) (org : W64) : Nat := if l.p1 = 1 then org.toNat % 2 ^ 32 else org.toNat / 2 ^ 32

/-- What `mpour` does. -/
def mpourBody (f : FForm) (l : SetLit) (w : Word) (s : State) : State × Flow :=
  let ty := f.xf.toNat
  let t1 := s.tensor s.g l.t1.toNat
  let t2 := t1.2.tensorOpt s.g l.t2.toNat
  match t1.1, t2.1 with
  | some tel, some tsc =>
    if tel.planar || tel.fmt != ty || tel.rank != 2 || !pourScale (13 ≤ ty) tsc then (s, .trap 0x14 0)
    else if 13 ≤ ty && pourPlace l (s.g.readK f.a.toNat) % 32 != 0 then (s, .trap 0x08 0)
    else issueMat t2.2 (pourOp f l w s.g tel tsc)
  | _, _ => (s, .trap 0x14 0)

theorem matrixOf_mpour (f : FForm) (l : SetLit) (w : Word) (s : State) :
    matrixOf (.mpour f l) w s =
      match (s.tensor s.g l.t1.toNat).1, ((s.tensor s.g l.t1.toNat).2.tensorOpt s.g l.t2.toNat).1 with
      | some tel, some tsc =>
        if !tel.planar && tel.fmt == f.xf.toNat && tel.rank == 2 && pourScale (13 ≤ f.xf.toNat) tsc && (!decide (13 ≤ f.xf.toNat) || pourPlace l (s.g.readK w.f.a.toNat) % 32 == 0) then
          some ({ pourOp f l w s.g tel tsc with origin := s.g.readK w.f.a.toNat }, ((s.tensor s.g l.t1.toNat).2.tensorOpt s.g l.t2.toNat).2)
        else none
      | _, _ => none := rfl

theorem mload_exec (f : FForm) (l : SetLit) (s : State) : exec (.mload f l) s = runWord (mkWord shapeMload f (.set l)) {} (mloadBody f l (mkWord shapeMload f (.set l))) s := rfl

theorem mpour_exec (f : FForm) (l : SetLit) (s : State) : exec (.mpour f l) s = runWord (mkWord shapeMpour f (.set l)) {} (mpourBody f l (mkWord shapeMpour f (.set l))) s := rfl

theorem mloadBody_issues {f : FForm} {l : SetLit} {w : Word} {s b : State} {o : MatOp} (hw : w.f = f) (h : matrixOf (.mload f l) w s = some (o, b)) : mloadBody f l w s = issueMat b o := by
  subst hw
  simp only [matrixOf] at h
  unfold mloadBody
  split at h
  · next x ht =>
    split at h
    · next hc =>
      cases h
      simp only [Bool.and_eq_true, Bool.not_eq_true', beq_iff_eq] at hc
      obtain ⟨⟨hp, hf⟩, hr⟩ := hc
      simp [ht, hp, hf, hr]
    · cases h
  · cases h

theorem mpourBody_issues {f : FForm} {l : SetLit} {w : Word} {s b : State} {o : MatOp} (hw : w.f = f) (h : matrixOf (.mpour f l) w s = some (o, b)) : mpourBody f l w s = issueMat b o := by
  subst hw
  rw [matrixOf_mpour] at h
  unfold mpourBody
  split at h
  · next tel tsc h1 h2 =>
    obtain ⟨hc, he⟩ := Option.ite_none_right_eq_some.mp h
    cases he
    simp only [Bool.and_eq_true, Bool.not_eq_true', beq_iff_eq] at hc
    obtain ⟨⟨⟨⟨hp, hf⟩, hr⟩, hs⟩, ha⟩ := hc
    simp only [h1, h2]
    rw [if_neg (by simp [hp, hf, hr, hs]), if_neg (by simpa [Decidable.imp_iff_not_or] using ha)]
    rfl
  · cases h

/-- Every matrix word of one group gives its operation to the unit. -/
theorem matrix_exec {i : Instr} {w : Word} {s b : State} {o : MatOp} (hw : wordOf i = some w) (h : matrixOf i w (s.begun w {}) = some (o, b)) :
    ∃ body, exec i s = runWord w {} body s ∧ body (s.begun w {}) = issueMat b o := by
  cases i
  case mzero f =>
    cases hw
    cases h
    exact ⟨_, rfl, rfl⟩
  case mload f l =>
    cases hw
    exact ⟨_, mload_exec f l s, mloadBody_issues rfl h⟩
  case mpour f l =>
    cases hw
    exact ⟨_, mpour_exec f l s, mpourBody_issues rfl h⟩
  all_goals cases h

/-! ### mma -/

/-- What an `mma` that arrives does. -/
def State.arrives (b : State) (gang : W64) : State × Flow := if gangSize gang < 2 then (b.acceptGang [b.g], .done) else b.arrive

/-- What `mma` does. -/
def mmaBody (f : FForm) (l : SetLit) (w : Word) (s : State) : State × Flow :=
  let t1 := s.tensor s.g l.t1.toNat
  let t2 := t1.2.tensor s.g l.t2.toNat
  match t1.1, t2.1 with
  | some ta, some tb =>
    if !ta.planar || !tb.planar then (s, .trap 0x14 0)
    else
      let ka := s.g.readK f.a.toNat
      let pa := if l.p1 = 0 then ta.planes else l.p1.toNat
      let pb := if l.p2 = 0 then tb.planes else l.p2.toNat
      match t2.2.ownTile ta ka, t2.2.ownTile tb (s.g.readK f.b.toNat) with
      | some a, some b =>
        if pa = 0 || 15 < pa || pb = 0 || 15 < pb then (s, .trap 0x04 0)
        else if s.g.matFull then (s, .hold .waitStall (.until_ .matrix))
        else
          let arr : Arrival := { ta := l.t1.toNat, ka := ka, pa := pa, pb := pb, rnd := f.rnd.toNat, a := a, b := b, z := f.d.toNat, word0 := w.w0, word1 := w.w1.getD 0 }
          State.arrives { t2.2 with g := { t2.2.g with arrival := some arr } } s.g.gang
      | _, _ => (s, .trap 0x04 0)
  | _, _ => (s, .trap 0x14 0)

theorem mma_exec (f : FForm) (l : SetLit) (s : State) : exec (.mma f l) s = runWord (mkWord shapeMma f (.set l)) {} (mmaBody f l (mkWord shapeMma f (.set l))) s := rfl

/-- The arrival that an `mma` records, its planes as its fields and its tensors say. -/
def mmaArrival (f : FForm) (l : SetLit) (w : Word) (g : Group) (ta tb : Tensor) (a b : Nat) : Arrival :=
  { ta := l.t1.toNat, ka := g.readK f.a.toNat, pa := if l.p1 = 0 then ta.planes else l.p1.toNat, pb := if l.p2 = 0 then tb.planes else l.p2.toNat, rnd := f.rnd.toNat, a := a, b := b, z := f.d.toNat,
    word0 := w.w0, word1 := w.w1.getD 0 }

/-- What stands where an `mma` arrives: both tensors are planar, both tiles its own core's, and the planes from 1 to 15. -/
theorem mmaArrives_some {f : FForm} {l : SetLit} {w : Word} {s b : State} (h : mmaArrives f l w s = some b) :
    let t1 := s.tensor s.g l.t1.toNat
    let t2 := t1.2.tensor s.g l.t2.toNat
    ∃ ta tb a b', t1.1 = some ta ∧ t2.1 = some tb ∧ t2.2.ownTile ta (s.g.readK f.a.toNat) = some a ∧ t2.2.ownTile tb (s.g.readK f.b.toNat) = some b' ∧ ta.planar = true ∧ tb.planar = true ∧
      (1 ≤ (mmaArrival f l w s.g ta tb a b').pa ∧ (mmaArrival f l w s.g ta tb a b').pa ≤ 15 ∧ 1 ≤ (mmaArrival f l w s.g ta tb a b').pb ∧ (mmaArrival f l w s.g ta tb a b').pb ≤ 15) ∧
      b = { t2.2 with g := { t2.2.g with arrival := some (mmaArrival f l w s.g ta tb a b') } } := by
  simp only [mmaArrives] at h
  split at h
  · next ta tb h1 h2 =>
    split at h
    · next a b' ha hb =>
      obtain ⟨hc, he⟩ := Option.ite_none_right_eq_some.mp h
      simp only [Bool.and_eq_true, decide_eq_true_eq] at hc
      obtain ⟨⟨⟨⟨⟨hpa, hpb⟩, h3⟩, h4⟩, h5⟩, h6⟩ := hc
      exact ⟨ta, tb, a, b', h1, h2, ha, hb, hpa, hpb, ⟨h3, h4, h5, h6⟩, (Option.some.inj he).symm⟩
    · cases h
  · cases h

theorem mmaBody_arrives {f : FForm} {l : SetLit} {w : Word} {s b : State} (h : mmaArrives f l w s = some b) (hf : s.g.matFull = false) : mmaBody f l w s = b.arrives s.g.gang := by
  obtain ⟨ta, tb, a, b', h1, h2, ha, hb, hpa, hpb, ⟨h3, h4, h5, h6⟩, rfl⟩ := mmaArrives_some h
  simp only [mmaArrival] at h3 h4 h5 h6
  simp only [mmaBody, h1, h2, ha, hb, hpa, hpb, hf]
  rw [if_neg (by decide), if_neg (by simp only [Bool.or_eq_true, decide_eq_true_eq]; omega)]
  rfl

theorem mmaArrives_pc {f : FForm} {l : SetLit} {w : Word} {s b : State} (h : mmaArrives f l w s = some b) : b.g.pc = s.g.pc := by
  obtain ⟨ta, tb, a, b', -, -, -, -, -, -, -, rfl⟩ := mmaArrives_some h
  obtain ⟨lp, r, pt, hg⟩ := (Drift.trans (tensor_drift s s.g l.t1.toNat) (tensor_drift _ s.g l.t2.toNat)).g
  rw [hg]

theorem arrives_alone {b : State} {gang : W64} (h : gangSize gang < 2) : b.arrives gang = (b.acceptGang [b.g], .done) := if_pos h

theorem arrives_waits {b : State} {gang : W64} (h : 2 ≤ gangSize gang) (hh : b.gangHole b.g = false) (hr : b.rendezvous b.g = none) : b.arrives gang = (b, .wait .waitGang .gang) := by
  simp [State.arrives, Nat.not_lt.mpr h, State.arrive, hh, hr]

theorem arrives_meets {b : State} {gang : W64} {ms : List Group} (h : 2 ≤ gangSize gang) (hh : b.gangHole b.g = false) (hr : b.rendezvous b.g = some ms) (hs : (ms.all fun m => sameArrival b.g m) = true) :
    b.arrives gang = (b.acceptGang ms, .done) := by
  simp only [State.arrives, Nat.not_lt.mpr h, if_false, State.arrive, hh, hr, hs, if_true, Bool.false_eq_true]

theorem begun_gang (s : State) (w : Word) (ex : Extra) : (s.begun w ex).g.gang = s.g.gang := by
  obtain ⟨v, r, u, h, -⟩ := begin_fields s.g w ex
  rw [begun_g, h]

/-- Settles O31. -/
theorem matrixOpsIssue : Obligations.MatrixOpsIssue := by
  refine ⟨fun i w s b o hw hx hm hf hr hbad => ?_, fun f l w s b hw hx hm hf hbad => ?_⟩
  · obtain ⟨body, he, hb⟩ := matrix_exec hw hm
    rw [issueMat_accepts hf] at hb
    obtain ⟨t, ht, hd⟩ := body_done w {} body s _ hx hb hbad hr
    exact ⟨t, he ▸ ht, hd.regroup⟩
  · cases hw
    have hb := mmaBody_arrives hm hf
    rw [begun_gang] at hb
    refine ⟨fun h => ?_, fun h hh hn => ?_, fun ms h hh hn hs => ?_⟩
    · exact completes_of_body (mma_exec f l s) hx (hb.trans (arrives_alone h))
    · obtain ⟨t, ht, hsame, hg⟩ := body_waits_as hx (hb.trans (arrives_waits h hh hn)) hbad
      have hpc : b.g.pc = s.g.pc := (mmaArrives_pc hm).trans (begun_place s.g _ {}).2.2.2.2
      exact ⟨t, (mma_exec f l s).trans ht, by rw [hg]; rfl, by rw [hg]; rfl, by rw [hg]; rfl, by rw [hg]; exact hpc, hsame.units⟩
    · exact completes_of_body (mma_exec f l s) hx (hb.trans (arrives_meets h hh hn hs))

end Sys2Proof.Machine
end

section
/-! O26: engine words and `xwait` (R228, R256 to R261, R264, R289). -/

namespace Sys2Proof.Machine

open Sys2Proof

/-- An operation as it joins the group's list. -/
def EngineOp.joining (o : EngineOp) (g : Group) : EngineOp := { o with seq := g.nextOp, after := g.nextReq }

/-- The group that an operation has joined. -/
def Group.joined (g : Group) (o : EngineOp) : Group := { g with ops := g.ops ++ [o.joining g], nextOp := g.nextOp + 1 }

theorem arriveBar_group (s : State) (g h : Group) (o : EngineOp) (e : h.part = g.part) (e' : h.ctx = g.ctx) (x : Group) : State.arriveBar { s with g := x } h o = { s.arriveBar g o with g := x } := by
  unfold State.arriveBar
  split
  · rw [e, e']
  · rfl

/-- An operation that finds room joins its class, and one without bytes is over at once. -/
theorem issueEngine_joins {s : State} {o : EngineOp} (h : s.g.counter o.cls < 32) :
    issueEngine s o = ({ (if o.ended then s.arriveBar s.g (o.joining s.g) else s) with g := if o.ended then (s.g.joined o).drainOps o.cls else s.g.joined o }, .done) := by
  have e : issueEngine s o = if o.ended then (State.arriveBar { s with g := (s.g.joined o).drainOps o.cls } (s.g.joined o) (o.joining s.g), .done) else ({ s with g := s.g.joined o }, .done) :=
    if_neg (Nat.not_le.mpr h)
  rw [e]
  cases o.ended with
  | false => rfl
  | true => exact Prod.ext (arriveBar_group s s.g (s.g.joined o) _ rfl rfl _) rfl

/-- The tensors and the barrier of a copy or gather, and the machine after they are read. -/
def State.engineTables (s : State) (l : SetLit) : Option (Option Tensor × Option Tensor × Option W64 × State) :=
  let t1 := s.tensorOpt s.g l.t1.toNat
  let t2 := t1.2.tensorOpt s.g l.t2.toNat
  let br := t2.2.barrierOf l
  match t1.1, t2.1, br.1 with
  | some d, some c, some bar => some (d, c, bar, br.2)
  | _, _, _ => none

theorem engineTables_some {s : State} {l : SetLit} {x : Option Tensor × Option Tensor × Option W64 × State} (h : s.engineTables l = some x) :
    let t1 := s.tensorOpt s.g l.t1.toNat
    let t2 := t1.2.tensorOpt s.g l.t2.toNat
    let br := t2.2.barrierOf l
    t1.1 = some x.1 ∧ t2.1 = some x.2.1 ∧ br.1 = some x.2.2.1 ∧ br.2 = x.2.2.2 := by
  simp only [State.engineTables] at h
  split at h
  · next h1 h2 h3 =>
    cases h
    exact ⟨h1, h2, h3, rfl⟩
  · cases h

theorem find?_unaligned {xs : List Nat} {n : Nat} (h : ∀ x ∈ xs, x % n = 0) : (xs.find? fun x => x % n != 0) = none :=
  List.find?_eq_none.mpr fun x hx => by simp [h x hx]

/-- A word's body gives this operation to the group, from the state c on. -/
def Issues (i : Instr) (w : Word) (c b : State) (o : EngineOp) : Prop := ∃ body, (∀ s, exec i s = runWord w {} body s) ∧ body c = issueEngine b o

theorem xcopy_issues {f : FForm} {l : SetLit} {c b : State} {o : EngineOp} (h : engineOf (.xcopy f l) (mkWord shapeXcopy f (.set l)) c = some (o, b)) :
    Issues (.xcopy f l) (mkWord shapeXcopy f (.set l)) c b o := by
  refine ⟨_, fun _ => rfl, ?_⟩
  obtain ⟨hok, he⟩ := Option.ite_none_right_eq_some.mp h
  obtain ⟨x, hx, hxe⟩ := Option.map_eq_some_iff.mp he
  obtain ⟨h1, h2, h3, h4⟩ := engineTables_some hx
  cases hxe
  simp only [Bool.and_eq_true, Bool.not_eq_true', decide_eq_true_eq] at hok
  obtain ⟨⟨⟨⟨hd, hs⟩, hn⟩, hlt⟩, hmeet⟩ := hok
  dsimp only
  rw [find?_unaligned (by simpa using ⟨hd, hs, hn⟩)]
  dsimp only
  rw [if_neg (by simpa using ⟨hlt, hmeet⟩), h1, h2, h3, h4]
  rfl

theorem xgath_issues {f : FForm} {l : SetLit} {c b : State} {o : EngineOp} (h : engineOf (.xgath f l) (mkWord shapeXgath f (.set l)) c = some (o, b)) :
    Issues (.xgath f l) (mkWord shapeXgath f (.set l)) c b o := by
  refine ⟨_, fun _ => rfl, ?_⟩
  obtain ⟨hok, he⟩ := Option.ite_none_right_eq_some.mp h
  obtain ⟨x, hx, hxe⟩ := Option.map_eq_some_iff.mp he
  obtain ⟨h1, h2, h3, h4⟩ := engineTables_some hx
  cases hxe
  simp only [Bool.and_eq_true, List.all_eq_true, Bool.or_eq_true, beq_iff_eq, Bool.not_eq_true', List.isEmpty_iff] at hok
  obtain ⟨hrows, hdst⟩ := hok
  dsimp only
  rw [find?_unaligned, if_neg, h1, h2, h3, h4]
  · rfl
  · simp only [List.any_eq_true, not_exists, not_and, Bool.not_eq_true]
    exact fun x hx => (hrows x hx).2
  · intro y hy
    split at hy
    · cases hy
    · next hne =>
      rcases List.mem_append.mp hy with hm | hm
      · obtain ⟨x, hx, rfl⟩ := List.mem_map.mp hm
        exact (hrows x hx).1
      · obtain rfl := List.mem_singleton.mp hm
        exact hdst.resolve_left fun e => hne (List.isEmpty_iff.mpr e)

/-- A collective's operation has bytes to come: it joins, and the round is counted. -/
theorem xcoll_issues {f : FForm} {l : SetLit} {c b : State} {o : EngineOp} (h : engineOf (.xcoll f l) (mkWord shapeXcoll f (.set l)) c = some (o, b)) (hc : b.g.counter o.cls < 32) :
    Issues (.xcoll f l) (mkWord shapeXcoll f (.set l)) c b o := by
  refine ⟨_, fun _ => rfl, ?_⟩
  obtain ⟨hok, he⟩ := Option.ite_none_right_eq_some.mp h
  obtain ⟨bar, hb, hxe⟩ := Option.map_eq_some_iff.mp he
  cases hxe
  simp only [Bool.and_eq_true, decide_eq_true_eq] at hok
  obtain ⟨⟨⟨⟨hd, hs⟩, hx⟩, hv⟩, hp⟩ := hok
  simp only [show (mkWord shapeXcoll f (.set l)).f = f from rfl] at hd hs hx hv
  clear h he
  dsimp only
  generalize (l.p1 != 4 || (c.collPort l.t1.toNat).any fun m => m.1 == l.t2.toNat) = reads at hs ⊢
  rw [if_neg (by simpa using hd), if_neg, if_neg, if_neg (by simpa [Option.isSome_iff_ne_none] using hp), hb]
  · refine Eq.trans ?_ (issueEngine_joins hc).symm
    dsimp only
    rw [issueEngine_joins (by exact hc)]
    rfl
  · simp only [Bool.or_eq_true, Bool.and_eq_true, not_or, not_and]
    refine ⟨⟨by simpa using hx, ?_⟩, fun hr hm => by rw [hr, hm] at hs; simp at hs⟩
    split at hv
    · next hl =>
      rw [if_pos hl]
      simpa using hv
    · next hl =>
      rw [if_neg hl]
      simpa using hv
  · intro hr
    simp only [Bool.and_eq_true, bne_iff_ne, ne_eq] at hr
    simp [hr.1, hr.2] at hs

/-- The operation of a cast. -/
def castOp (transp : Bool) (w : Word) (g : Group) (d s : Tensor) (bar : Option W64) : EngineOp :=
  { seq := 0, cls := 1, scope := w.scope, after := 0, dst := d.base + Config.castTileBytes * (g.readK w.f.d.toNat).toNat, src := (g.readK w.f.a.toNat).toNat
    count := Config.castTileBytes, unit := Config.castTileBytes, dstT := some d, srcT := some s, tile := (g.readK w.f.d.toNat).toNat, transp := transp, bar := bar
    word0 := w.w0, word1 := w.w1.getD 0 }

/-- The operation that a cast gives, and the machine after its tables are read. -/
def castOf (transp : Bool) (l : SetLit) (w : Word) (s : State) : Option (EngineOp × State) :=
  let t1 := s.tensor s.g l.t1.toNat
  let t2 := t1.2.tensor s.g l.t2.toNat
  let br := t2.2.barrierOf l
  match t1.1, t2.1, br.1 with
  | some d, some c, some bar =>
    if d.planar && !c.planar && c.fmt ≤ 18 && (t2.2.castTile s.g d (s.g.readK w.f.d.toNat).toNat).isSome then some (castOp transp w s.g d c bar, br.2) else none
  | _, _, _ => none

theorem xcast_issues {transp : Bool} {i : Instr} {l : SetLit} {w : Word} {c b : State} {o : EngineOp} (he : ∀ s, exec i s = runXcast transp l w s) (h : castOf transp l w c = some (o, b)) : Issues i w c b o := by
  refine ⟨_, fun s => (he s).trans rfl, ?_⟩
  simp only [castOf] at h
  split at h
  · next d s bar h1 h2 h3 =>
    obtain ⟨hc, ho⟩ := Option.ite_none_right_eq_some.mp h
    cases ho
    simp only [Bool.and_eq_true, Bool.not_eq_true', decide_eq_true_eq] at hc
    obtain ⟨⟨⟨hd, hs⟩, hf⟩, ht⟩ := hc
    obtain ⟨tile, ht⟩ := Option.isSome_iff_exists.mp ht
    simp only [h1, h2, ht, h3]
    exact if_neg (by simp [hd, hs, hf])
  · cases h

/-- Every engine word whose checks pass gives its operation to the group. -/
theorem engine_issues {i : Instr} {w : Word} {c b : State} {o : EngineOp} (hw : wordOf i = some w) (h : engineOf i w c = some (o, b)) (hc : b.g.counter o.cls < 32) : Issues i w c b o := by
  cases i
  case xcopy f l =>
    cases hw
    exact xcopy_issues h
  case xgath f l =>
    cases hw
    exact xgath_issues h
  case xcoll f l =>
    cases hw
    exact xcoll_issues h hc
  case xcast f l =>
    cases hw
    exact xcast_issues (transp := false) (l := l) (fun _ => rfl) h
  case xcastT f l =>
    cases hw
    exact xcast_issues (transp := true) (l := l) (fun _ => rfl) h
  all_goals cases h

/-- `xwait` goes on once its counter is low enough, and bars lines filled before (R228). -/
theorem xwait_done {f : FForm} {s : State} (h : s.executes (mkWord shapeXwait f) {} = true) (hc : s.g.counter f.rnd.toNat ≤ f.b.toNat) :
    let w := mkWord shapeXwait f
    ∃ t, exec (.xwait f) s = .next t ∧ WordDone s t w {} { s.g.aged with notBefore := max s.g.notBefore s.mem.clock } (w.next s.g.pc) (w.stall + 1) := by
  intro w
  have hb := begin_aged s.g w {} rfl
  have hcount : (s.begun w {}).g.counter f.rnd.toNat ≤ f.b.toNat := by
    rw [begun_g, hb]
    exact hc
  obtain ⟨body, he, hbody⟩ : ∃ body, exec (.xwait f) s = runWord w {} body s ∧ body (s.begun w {}) = ((s.begun w {}).fresh, .done) := ⟨_, rfl, if_pos hcount⟩
  obtain ⟨t, ht, hd, -⟩ := word_done w {} body s s { s.g.aged with notBefore := max s.g.notBefore s.mem.clock } (s.g.countInRegion w).region (s.g.begin w {}).uninit h (by
    rw [hbody, State.fresh, begun_g, hb]
    rfl) (executes_sound h) (executes_replay h) (inreg_counted s.g w)
  exact ⟨t, he ▸ ht, hd⟩

theorem drainOps_replay (g : Group) (cls : Nat) : (g.drainOps cls).replay = g.replay := rfl

theorem arriveBar_bad (s : State) (g : Group) (o : EngineOp) : (s.arriveBar g o).mem.bad = s.mem.bad := by
  unfold State.arriveBar
  split <;> rfl

/-- Settles O26. -/
theorem engineOpsIssue : Obligations.EngineOpsIssue := by
  refine ⟨fun i w s b o hw hx ho hc hr hbad => ?_, fun f w s hw => ?_⟩
  · obtain ⟨body, he, hb⟩ := engine_issues hw ho hc
    rw [issueEngine_joins hc] at hb
    obtain ⟨t, ht, hd⟩ := body_done w {} body s _ hx hb (by cases o.ended <;> simp [arriveBar_bad, hbad]) (by cases o.ended <;> exact hr)
    exact ⟨t, (he s).trans ht, hd.regroup⟩
  · cases hw
    exact fun h hc => xwait_done h hc

end Sys2Proof.Machine
end

section
/-! The refutation of O48. -/

namespace Sys2Proof.Machine

open Sys2Proof

/-- `bar.arrive` on the barrier that k1 names, with the phase to k2. -/
def arriveOn : FForm := { a := 1, d := 2 }

/-- A block whose fields are all zero. -/
def blankBlock : Block :=
  { id := 0, gidx := 0, stage := 0, part := 0, ctx := 0, inst := 0, number := 0, cores := [], slots := [], spad := [], hdr := headerOf [], hdrAddr := 0, groups := [], resv := [], tent := []
    heldRecs := [], join := none, fails := 0 }

/-- The issuing group has the number 1 and a slot that is free; another group of that number waits for phase 1 of the barrier, which is in phase 1 and needs one arrival. -/
def barrierNamesake : State :=
  { g := { uid := 1, pc := 0x10008, m0 := 1, regs := 255 }
    groups := [{ uid := 1, st := .waitBarrier, wait := .barrier 0 1 }]
    mem := { hbm := [(7, 0xA0), (8, 1), (12, 1)], l2 := [(0, {})] }
    work := { blocks := [blankBlock] }
    tabs := { parts := [(0, { st := .active })], ctxs := [(0, { st := 1 })] } }

/-- The machine after the handle table is read. -/
def barrierRead : State := ((barrierNamesake.begun (mkWord shapeBarArrive arriveOn) {}).handleOf barrierNamesake.g 0 1).2

/-- The barrier after the arrival. -/
def barrierFull : Bar := { phase := 1, arrived := 1, need := 1, bal := 0 }

theorem barrierRead_bar : barrierRead.bar 0 = { barrierFull with arrived := 0 } := by decide

/-- The waiter that wakes is put back under the number of the issuing group, whose registers are lost. -/
theorem barrierNamesake_overwritten : (({ barrierRead with g := barrierRead.g.setK 0 2 1 } : State).barTest 0 0 barrierFull).g.kAt 0 2 = 0 := by decide

/-- Refutes O48: where the issuing group stands in a slot that is free, its own number finds another group of that number, which waits at the barrier; as it
wakes, it is put back in the issuing group's place, and k2 reads that group's 0 and not the phase 1. -/
theorem not_barrierWords : ¬ Obligations.BarrierWords := by
  intro h
  obtain ⟨-, harrive, -⟩ := h
  obtain ⟨-, hphase⟩ := harrive (.barArrive arriveOn) (mkWord shapeBarArrive arriveOn) barrierNamesake barrierRead 0 barrierFull rfl (by decide) (by rfl) (by rw [barrierRead_bar]; rfl) rfl rfl
  have hread := hphase (by decide) 0 (Nat.le_refl 0)
  rw [barrierRead_bar] at hread
  exact absurd (barrierNamesake_overwritten.symm.trans hread) (by decide)

end Sys2Proof.Machine
end

section
/-! What a run of bytes that the hardware writes to local HBM leaves: its bytes, and every other byte as before. -/

namespace Sys2Proof.Machine

open Sys2Proof

/-- The state t holds the bytes bs from a on in local HBM, and every other byte of every memory as s does; neither has met an address that does not exist. -/
structure State.Wrote (s t : State) (a : Nat) (bs : List Byte) : Prop where
  bytes : mbytes t.mem.hbm a bs.length = bs
  other : ∀ x, ¬(a ≤ x ∧ x < a + bs.length) → mget t.mem.hbm x = mget s.mem.hbm x
  host  : t.mem.host = s.mem.host
  peers : t.mem.peers = s.mem.peers
  spad  : t.mem.spad = s.mem.spad
  hqs   : t.mem.hqs = s.mem.hqs
  bad   : s.mem.bad = none

theorem mbytes_getElem (m : Memory) (a n i : Nat) (h : i < (mbytes m a n).length) : (mbytes m a n)[i] = mget m (a + i) := by simp [mbytes]

theorem mbytes_congr {m m' : Memory} {a n : Nat} (h : ∀ x, a ≤ x → x < a + n → mget m' x = mget m x) : mbytes m' a n = mbytes m a n :=
  List.map_congr_left fun i hi => h _ (Nat.le_add_right a i) (Nat.add_lt_add_left (List.mem_range.mp hi) a)

theorem mbytes_append (m : Memory) (a n k : Nat) : mbytes m a (n + k) = mbytes m a n ++ mbytes m (a + n) k := by
  simp only [mbytes, List.range_add, List.map_append, List.map_map]
  congr 1
  exact List.map_congr_left fun i _ => by simp [Nat.add_assoc]

theorem State.Wrote.nothing {s : State} (h : s.mem.bad = none) (a : Nat) : s.Wrote s a [] := ⟨rfl, fun _ _ => rfl, rfl, rfl, rfl, rfl, h⟩

/-- Bytes written one run behind the other are one run. -/
theorem State.Wrote.append {s t u : State} {a : Nat} {xs ys : List Byte} (h : s.Wrote t a xs) (k : t.Wrote u (a + xs.length) ys) : s.Wrote u a (xs ++ ys) where
  bytes := by
    rw [List.length_append, mbytes_append, k.bytes]
    congr 1
    rw [mbytes_congr fun x h1 h2 => k.other x (by omega), h.bytes]
  other x hx := by
    rw [List.length_append] at hx
    rw [k.other x (by omega), h.other x (by omega)]
  host := k.host.trans h.host
  peers := k.peers.trans h.peers
  spad := k.spad.trans h.spad
  hqs := k.hqs.trans h.hqs
  bad := h.bad

/-- What moves no byte may follow. -/
theorem State.Wrote.then {s t u : State} {a : Nat} {bs : List Byte} (h : s.Wrote t a bs) (k : t.SameBytes u) : s.Wrote u a bs := by
  obtain ⟨h1, h2, h3, h4, h5, h6, h7⟩ := h
  exact ⟨by rw [k.hbm]; exact h1, by rw [k.hbm]; exact h2, k.host.trans h3, k.peers.trans h4, k.spad.trans h5, k.hqs.trans h6, h7⟩

theorem poke_wrote {s : State} {a : Nat} {bs : List Byte} (h : (s.poke ⟨.hbm, a⟩ bs).mem.bad = none) : s.Wrote (s.poke ⟨.hbm, a⟩ bs) a bs := by
  have hp : s.poke ⟨.hbm, a⟩ bs = if Config.hbmBytes < a + bs.length then s.setBad (.outsideHbm a) else { s with mem := { s.mem with hbm := msetBytes s.mem.hbm a bs } } := rfl
  rw [hp] at h ⊢
  split at h
  · cases h
  · next hr =>
    rw [if_neg hr]
    exact ⟨mbytes_msetBytes bs _ a, fun x hx => mget_msetBytes_other _ _ _ _ (by omega), rfl, rfl, rfl, rfl, h⟩

theorem storeAt_wrote {s : State} {w : Who} {uid : Option Nat} {plain : Bool} {a : Nat} {bs : List Byte} (h : (s.storeAt w uid plain ⟨.hbm, a⟩ bs).mem.bad = none) :
    s.Wrote (s.storeAt w uid plain ⟨.hbm, a⟩ bs) a bs := by
  have hs := storeAt_same s w uid plain ⟨.hbm, a⟩ bs nofun
  exact (poke_wrote (hs.bad.symm.trans h)).then hs

/-- The pieces of a run, written one after the other, are the run. -/
theorem pieces_wrote (w : Who) (n a : Nat) (bs : List Byte) (s : State) (hn : bs.length + a % 128 ≤ 128 * n)
    (h : ((linePieces n a bs).foldl (fun s p => s.storeAt w none false ⟨.hbm, p.1⟩ p.2) s).mem.bad = none) :
    s.Wrote ((linePieces n a bs).foldl (fun s p => s.storeAt w none false ⟨.hbm, p.1⟩ p.2) s) a bs := by
  induction n generalizing a bs s with
  | zero =>
    obtain rfl := List.length_eq_zero_iff.mp (show bs.length = 0 by omega)
    exact State.Wrote.nothing h a
  | succ n ih =>
    cases bs with
    | nil => exact State.Wrote.nothing h a
    | cons b r =>
      have hlen : (b :: r).length = ((b :: r).take (128 - a % 128)).length + ((b :: r).drop (128 - a % 128)).length := by
        rw [← List.length_append, List.take_append_drop]
      rw [linePieces, List.foldl_cons] at h ⊢
      have hrest := ih (a + (128 - a % 128)) ((b :: r).drop (128 - a % 128)) _ (by simp only [List.length_drop]; omega) h
      have hfirst := storeAt_wrote hrest.bad
      by_cases hk : (b :: r).length ≤ 128 - a % 128
      · rw [List.drop_eq_nil_of_le hk] at hrest ⊢
        rw [List.take_of_length_le hk] at hfirst hrest ⊢
        have hnil : linePieces n (a + (128 - a % 128)) [] = [] := by cases n <;> rfl
        rw [hnil]
        exact hfirst
      · have hk' : ((b :: r).take (128 - a % 128)).length = 128 - a % 128 := by
          rw [List.length_take]
          omega
        have happ := hfirst.append (by rw [hk']; exact hrest)
        rwa [List.take_append_drop] at happ

theorem storeRun_wrote {s : State} {w : Who} {a : Nat} {bs : List Byte} (h : (s.storeRun w ⟨.hbm, a⟩ bs).mem.bad = none) : s.Wrote (s.storeRun w ⟨.hbm, a⟩ bs) a bs :=
  pieces_wrote w _ a bs s (by omega) h

/-! ### Words of tables -/

theorem putWord_wrote {s : State} {p a v : Nat} (h : (s.putWord p a v).mem.bad = none) : s.Wrote (s.putWord p a v) a (leBytes 8 v) := storeRun_wrote h

/-- A word of a table reads back. -/
theorem putWord_reads {s : State} {p a v : Nat} (h : (s.putWord p a v).mem.bad = none) : mnat (s.putWord p a v).mem.hbm a 8 = v % 2 ^ 64 := by
  have hb := (putWord_wrote h).bytes
  rw [leBytes_length] at hb
  rw [mnat, hb, leNat_leBytes, show 256 ^ 8 = 2 ^ 64 from rfl]

/-- Bytes apart from the word are as before. -/
theorem putWord_apart {s : State} {p a v b n : Nat} (h : (s.putWord p a v).mem.bad = none) (hd : b + n ≤ a ∨ a + 8 ≤ b) : mnat (s.putWord p a v).mem.hbm b n = mnat s.mem.hbm b n := by
  have ho := (putWord_wrote h).other
  rw [leBytes_length] at ho
  rw [mnat, mbytes_congr fun x h1 h2 => ho x (by omega)]
  rfl

theorem putWord_drift (s : State) (p a v : Nat) : s.Drift (s.putWord p a v) := storeRun_drift s _ _ _ rfl

end Sys2Proof.Machine
end

section
/-! O49: joins, launches and continuations (R346 to R350, R395, R396). -/

namespace Sys2Proof.Machine

open Sys2Proof

/-! ### Words that read a join -/

/-- The body of a word on the join that its handle names. -/
def joinBody (w : Word) (body : Nat → State → State × Flow) (s : State) : State × Flow :=
  let r := s.handleOf s.g (s.g.readK w.f.a.toNat) 3
  match r.1 with
  | none => (s, .trap 0x15 0)
  | some e => body e.1 r.2

theorem runJoin_eq (w : Word) (body : Nat → State → State × Flow) (s : State) : runJoin w body s = runWord w {} (joinBody w body) s := rfl

theorem objectOf_some {s c : State} {h : W64} {kind e : Nat} (ho : s.objectOf h kind = some (e, c)) : ∃ y, s.handleOf s.g h kind = (some (e, y), c) := by
  obtain ⟨x, hx, he⟩ := Option.map_eq_some_iff.mp ho
  cases he
  exact ⟨x.2, Prod.ext hx rfl⟩

/-- Reading a handle's entry changes nothing that a body reads of the group. -/
theorem objectOf_reads {s c : State} {w : Word} {h : W64} {kind e : Nat} (ho : (s.begun w {}).objectOf h kind = some (e, c)) : s.g.ReadsAs c.g := by
  obtain ⟨y, hy⟩ := objectOf_some ho
  have hd := handleOf_drift (s.begun w {}) (s.begun w {}).g h kind
  rw [hy] at hd
  exact drift_reads hd

theorem joinBody_begun {w : Word} {body : Nat → State → State × Flow} {s c : State} {e : Nat} (ho : (s.begun w {}).objectOf (s.g.readK w.f.a.toNat) 3 = some (e, c)) :
    joinBody w body (s.begun w {}) = body e c := by
  obtain ⟨y, hy⟩ := objectOf_some ho
  have hk : (s.begun w {}).g.readK w.f.a.toNat = s.g.readK w.f.a.toNat := begin_readK s.g w {} _
  simp only [joinBody, hk, hy]

/-- What `jwait` does with its join. -/
def jwaitBody (e : Nat) (s : State) : State × Flow := if s.joinCount e = 0 then (s.raiseVersion s.g.who 5, .done) else (s, .wait .waitJoin (.join e))

theorem jwait_exec (f : FForm) (s : State) : exec (.jwait f) s = runWord (mkWord shapeJwait f) {} (joinBody (mkWord shapeJwait f) jwaitBody) s := rfl

theorem jwait_ends {f : FForm} {s c : State} {e : Nat} (hx : s.executes (mkWord shapeJwait f) {} = true) (ho : (s.begun (mkWord shapeJwait f) {}).objectOf (s.g.readK f.a.toNat) 3 = some (e, c)) :
    (c.joinCount e = 0 → s.Completes (c.raiseVersion c.g.who 5) (.jwait f) (mkWord shapeJwait f)) ∧ (c.joinCount e ≠ 0 → c.mem.bad = none → s.WaitsAt (.jwait f) .waitJoin (.join e)) := by
  have hb := joinBody_begun (body := jwaitBody) ho
  refine ⟨fun h0 => completes_of_body (jwait_exec f s) hx (hb.trans (if_pos h0)), fun h0 hm => ?_⟩
  obtain ⟨t, ht, -, hst, hwt, hpc⟩ := body_waits hx (hb.trans (if_neg h0)) hm
  exact ⟨t, (jwait_exec f s).trans ht, hst, hwt, hpc.trans (congrArg (fun p => p.2.1) (objectOf_reads ho).place)⟩

theorem jstat_answers {f : FForm} {s c : State} {e : Nat} (hx : s.executes (mkWord shapeJstat f) {} = true) (ho : (s.begun (mkWord shapeJstat f) {}).objectOf (s.g.readK f.a.toNat) 3 = some (e, c)) :
    s.Answers c (.jstat f) (mkWord shapeJstat f) f.d.toNat (BitVec.ofNat 64 (c.joinCount e)) :=
  answers_of_body (body := joinBody (mkWord shapeJstat f) fun e s => ({ s with g := s.g.setK 0 f.d.toNat (BitVec.ofNat 64 (s.joinCount e)) }, .done)) rfl hx (joinBody_begun ho)

theorem jstatS_answers {f : FForm} {s c : State} {e : Nat} (hx : s.executes (mkWord shapeJstatS f) {} = true) (ho : (s.begun (mkWord shapeJstatS f) {}).objectOf (s.g.readK f.a.toNat) 3 = some (e, c)) :
    s.Answers c (.jstatS f) (mkWord shapeJstatS f) f.d.toNat (BitVec.ofNat 64 (mnat c.mem.hbm (e + 16) 8)) :=
  answers_of_body (body := joinBody (mkWord shapeJstatS f) fun e s => ({ s with g := s.g.setK 0 f.d.toNat (BitVec.ofNat 64 (mnat s.mem.hbm (e + 16) 8)) }, .done)) rfl hx (joinBody_begun ho)

/-! ### The end of a child -/

/-- The machine once a child's end has counted the join down: its status word counts a fault or a kill. -/
def State.counted (c : State) (part e : Nat) (faulted killed : Bool) : State :=
  let v := c.setJoinCount part e (c.joinCount e - 1)
  let x := mnat v.mem.hbm (e + 16) 8
  v.putWord part (e + 16) (min (x % 2 ^ 32 + if faulted && !killed then 1 else 0) (2 ^ 32 - 1) + 2 ^ 32 * min (x / 2 ^ 32 + if killed then 1 else 0) (2 ^ 32 - 1))

theorem counted_joinCount {c : State} {part e : Nat} {faulted killed : Bool} (h : (c.counted part e faulted killed).mem.bad = none) : (c.counted part e faulted killed).joinCount e = c.joinCount e - 1 := by
  have hv : (c.setJoinCount part e (c.joinCount e - 1)).mem.bad = none := (putWord_wrote h).bad
  have hlt : c.joinCount e < 2 ^ 48 := Nat.mod_lt _ (by decide)
  have hread := putWord_reads hv
  have happ := putWord_apart (b := e + 8) (n := 8) h (.inl (Nat.le_refl _))
  have hsub : c.joinCount e - 1 < 2 ^ 48 := by omega
  calc (c.counted part e faulted killed).joinCount e
      = mnat (c.setJoinCount part e (c.joinCount e - 1)).mem.hbm (e + 8) 8 % 2 ^ 48 := congrArg (· % 2 ^ 48) happ
    _ = (c.joinCount e - 1) % 2 ^ 48 % 2 ^ 64 % 2 ^ 48 := congrArg (· % 2 ^ 48) hread
    _ = c.joinCount e - 1 := by rw [Nat.mod_eq_of_lt hsub, Nat.mod_eq_of_lt (Nat.lt_trans hsub (by decide)), Nat.mod_eq_of_lt hsub]

/-- What a child's end does once the handle of its join is read. -/
def State.childEnded (part ctx : Nat) (faulted killed : Bool) (r : Option (Nat × Nat) × State) : State :=
  match r.1 with
  | none => r.2
  | some (e, _) =>
    let u := r.2.counted part e faulted killed
    if u.joinCount e = 0 then (u.wakeJoin e).fireJoin part ctx e else u

theorem joinDecrement_eq (part ctx : Nat) (handle : W64) (faulted killed : Bool) (s : State) :
    exec (.joinDecrement part ctx handle faulted killed) s = answer (if !s.units.decrements.contains (part, ctx, handle, faulted, killed) then s
      else State.childEnded part ctx faulted killed (({ s with units := { s.units with decrements := s.units.decrements.erase (part, ctx, handle, faulted, killed) } } : State).handle part ctx handle 3)) := rfl

theorem joinDecrement_exec {part ctx : Nat} {handle : W64} {faulted killed : Bool} {s c : State} {e y : Nat} (hd : (part, ctx, handle, faulted, killed) ∈ s.units.decrements)
    (hh : ({ s with units := { s.units with decrements := s.units.decrements.erase (part, ctx, handle, faulted, killed) } } : State).handle part ctx handle 3 = (some (e, y), c)) :
    let u := c.counted part e faulted killed
    exec (.joinDecrement part ctx handle faulted killed) s = answer (if u.joinCount e = 0 then (u.wakeJoin e).fireJoin part ctx e else u) := by
  rw [joinDecrement_eq, if_neg (by simpa using hd), hh]
  rfl

/-! ### launch -/

theorem joinOf_some {s c : State} {j : W64} {e : Nat} (h : s.joinOf j = some (e, c)) : ∃ y, (if j = 0 then (some (0, 0), s) else s.handleOf s.g j 3) = (some (e, y), c) := by
  unfold State.joinOf at h
  split at h
  · next h0 =>
    cases h
    exact ⟨0, if_pos h0⟩
  · next h0 =>
    obtain ⟨y, hy⟩ := objectOf_some h
    exact ⟨y, (if_neg h0).trans hy⟩

/-- The machine c with a status written to D. -/
def State.status (c : State) (d : Nat) (x : W64) : State × Flow := ({ c with g := c.g.setK 0 d x }, .done)

/-- What `launch` does with a launch of n blocks. -/
def State.launches (c : State) (d : Nat) (h : Header) (n : Nat) (j : W64) (e : Nat) (x : Nat × Nat) : State × Flow :=
  if n = 0 then c.status d 0
  else if !(c.ctx c.g.part c.g.ctx).quotaWait.isEmpty then c.status d 1
  else match c.takeQuota c.g.part c.g.ctx n with
    | none => c.status d 1
    | some s => ((if j = 0 then s else s.setJoinCount c.g.part e (s.joinCount e + n)).addInstance x.1 x.2 h.range (blockBits h) (if j = 0 then none else some j)).status d 0

/-- The blocks of a launch. -/
def blocksOf (h : Header) : Nat := (h.range + 2 ^ blockBits h - 1) / 2 ^ blockBits h

/-- The body of `launch`, its header and join read. -/
theorem launch_runs {f : FForm} {s c0 c : State} {bs : List Byte} {e : Nat} (hq : (s.begun (mkWord shapeLaunch f) {}).readHeader (s.g.readK f.a.toNat).toNat = (.ok bs, c0))
    (hj : c0.joinOf (s.g.readK f.b.toNat) = some (e, c)) (hu : s.g.unver = false) (hp : s.g.allPerformed = true) :
    ∃ body, exec (.launch f) s = runWord (mkWord shapeLaunch f) {} body s ∧ body (s.begun (mkWord shapeLaunch f) {}) =
      match c.instanceOf c.g (s.g.readK f.a.toNat).toNat bs with
      | none => c.status f.d.toNat 2
      | some x => c.launches f.d.toNat (headerOf bs) (blocksOf (headerOf bs)) (s.g.readK f.b.toNat) e x := by
  obtain ⟨y, hy⟩ := joinOf_some hj
  have hk : ∀ n, (s.begun (mkWord shapeLaunch f) {}).g.readK n = s.g.readK n := begin_readK s.g _ {}
  refine ⟨_, rfl, ?_⟩
  dsimp only
  rw [hk, hk, hq]
  dsimp only
  rw [hy]
  dsimp only
  rw [if_neg (by rw [begun_g, released_begun hu hp]; decide)]
  cases c.instanceOf c.g (s.g.readK f.a.toNat).toNat bs with
  | none => rfl
  | some x => rfl

theorem launches_refused {c : State} {d n : Nat} {h : Header} {j : W64} {e : Nat} {x : Nat × Nat} (hn : n ≠ 0)
    (hq : (c.ctx c.g.part c.g.ctx).quotaWait ≠ [] ∨ (c.ctx c.g.part c.g.ctx).quota.toNat < n) : c.launches d h n j e x = c.status d 1 := by
  refine (if_neg hn).trans ?_
  by_cases hw : (c.ctx c.g.part c.g.ctx).quotaWait = []
  · rw [if_neg (by simp [hw]), show c.takeQuota c.g.part c.g.ctx n = none from if_pos (hq.resolve_left fun hne => hne hw)]
  · exact if_pos (by simp [hw])

/-- The machine in which a launch has taken its quota and counts at its join. -/
def State.launched (c : State) (n : Nat) (j : W64) (e : Nat) : State :=
  let q := c.setCtx c.g.part c.g.ctx { c.ctx c.g.part c.g.ctx with quota := (c.ctx c.g.part c.g.ctx).quota - BitVec.ofNat 64 n }
  if j = 0 then q else q.setJoinCount c.g.part e (q.joinCount e + n)

theorem launches_takes {c : State} {d n : Nat} {h : Header} {j : W64} {e : Nat} {x : Nat × Nat} (hn : n ≠ 0) (hw : (c.ctx c.g.part c.g.ctx).quotaWait = []) (hq : n ≤ (c.ctx c.g.part c.g.ctx).quota.toNat) :
    c.launches d h n j e x = ((c.launched n j e).addInstance x.1 x.2 h.range (blockBits h) (if j = 0 then none else some j)).status d 0 := by
  refine (if_neg hn).trans ?_
  rw [if_neg (by simp [hw]), show c.takeQuota c.g.part c.g.ctx n = some _ from if_neg (Nat.not_lt.mpr hq)]
  rfl

/-! ### cont -/

/-- The body of `cont`. -/
def contWord (f : FForm) (s : State) : State × Flow :=
  let a := (s.g.readK f.a.toNat).toNat
  let jr := s.handleOf s.g (s.g.readK f.b.toNat) 3
  match jr.1 with
  | none => (s, .trap 0x15 0)
  | some (e, _) =>
    let q := jr.2.readHeader a
    match q.1 with
    | .error fl => (if (match fl with
        | .retry _ _ => true
        | _ => false) then q.2 else s, fl)
    | .ok bs =>
      if (q.2.instanceOf s.g a bs).isNone then (s, .trap 0x04 0)
      else if s.g.unver || !s.g.allPerformed then (s, .hold .waitStall (.until_ .released))
      else ((q.2.putWord s.g.part (e + 24) (a + 1)).fireJoin s.g.part s.g.ctx e, .done)

theorem cont_exec (f : FForm) (s : State) : exec (.cont f) s = runWord (mkWord shapeCont f) {} (contWord f) s := rfl

theorem instanceOf_place (s : State) (g h : Group) (a : Nat) (bs : List Byte) (hp : h.part = g.part) (hc : h.ctx = g.ctx) : s.instanceOf h a bs = s.instanceOf g a bs := by
  unfold State.instanceOf
  rw [hp, hc]

theorem contWord_begun {f : FForm} {s c0 c : State} {w : Word} {bs : List Byte} {e : Nat} (ho : (s.begun w {}).objectOf (s.g.readK f.b.toNat) 3 = some (e, c0))
    (hq : c0.readHeader (s.g.readK f.a.toNat).toNat = (.ok bs, c)) (hi : (c.instanceOf s.g (s.g.readK f.a.toNat).toNat bs).isSome = true) (hu : s.g.unver = false) (hp : s.g.allPerformed = true) :
    contWord f (s.begun w {}) = ((c.putWord s.g.part (e + 24) ((s.g.readK f.a.toNat).toNat + 1)).fireJoin s.g.part s.g.ctx e, .done) := by
  obtain ⟨y, hy⟩ := objectOf_some ho
  obtain ⟨-, hpart, hctx, -, -⟩ := begun_place s.g w {}
  have hk : ∀ n, (s.begun w {}).g.readK n = s.g.readK n := begin_readK s.g w {}
  simp only [contWord, hk, hy, hq]
  rw [instanceOf_place c s.g _ _ bs (show (s.begun w {}).g.part = s.g.part from hpart) (show (s.begun w {}).g.ctx = s.g.ctx from hctx), if_neg (by simpa [Option.isSome_iff_ne_none] using hi),
    if_neg (by rw [begun_g, released_begun hu hp]; decide), show (s.begun w {}).g.part = s.g.part from hpart, show (s.begun w {}).g.ctx = s.g.ctx from hctx]

/-- Settles O49. -/
theorem joinsAndLaunches : Obligations.JoinsAndLaunches := by
  refine ⟨fun f w s c e hw hx ho => ?_, fun f w s c e hw hx ho => ?_, fun f w s c e hw hx ho => ?_, fun part ctx handle faulted killed s c e y hd hh => ?_, fun f w s c0 c bs e hw hx => ?_,
    fun f w s c0 c bs e hw hx => ?_⟩
  · cases hw
    exact jwait_ends hx ho
  · cases hw
    exact jstat_answers hx ho
  · cases hw
    exact jstatS_answers hx ho
  · have he := joinDecrement_exec hd hh
    intro v x u
    have hu : u = c.counted part e faulted killed := rfl
    clear_value u
    subst hu
    refine ⟨counted_joinCount, fun h0 hm => ?_, fun h0 hm => ?_⟩
    · rw [he, if_neg h0]
      exact answer_next _ hm
    · rw [he, if_pos h0]
      exact answer_next _ hm
  · cases hw
    intro a j hq hj hu hp h n x
    obtain ⟨body, he, hb⟩ := launch_runs (f := f) hq hj hu hp
    refine ⟨fun hi => ?_, fun gidx stage hi => ?_⟩
    · rw [show c.instanceOf c.g (s.g.readK f.a.toNat).toNat bs = none from hi] at hb
      exact answers_of_body he hx hb
    · rw [show c.instanceOf c.g (s.g.readK f.a.toNat).toNat bs = some (gidx, stage) from hi] at hb
      refine ⟨fun hn => ?_, fun hn hr => ?_, fun hn hw hle => ?_⟩
      · exact answers_of_body he hx (hb.trans (if_pos hn))
      · exact answers_of_body he hx (hb.trans (launches_refused hn hr))
      · exact answers_of_body he hx (hb.trans (launches_takes hn hw hle))
  · cases hw
    intro a ho hq hi hu hp
    exact completes_of_body (cont_exec f s) hx (contWord_begun ho hq hi hu hp)

end Sys2Proof.Machine
end

section
/-! Groups by their numbers: what finding one gives after one is put back or all are mapped; and the waits that a group's end breaks. -/

namespace Sys2Proof.Machine

open Sys2Proof

theorem group?_eq (s : State) (u : Nat) : s.group? u = if s.g.st ≠ .free ∧ s.g.uid = u then some s.g else s.groups.find? fun h => h.uid == u := by
  unfold State.group? State.allGroups
  by_cases hf : s.g.st = .free
  · simp [hf]
  · by_cases hu : s.g.uid = u
    · simp [hf, hu]
    · simp [hf, hu]

/-- A group that is found has the number sought. -/
theorem group?_uid {s : State} {u : Nat} {h : Group} (hf : s.group? u = some h) : h.uid = u := by
  have := List.find?_some hf
  simpa using this

theorem find?_map_congr {α : Type} {p q : α → Bool} {f : α → α} (l : List α) (h : ∀ a ∈ l, p (f a) = q a) : (l.map f).find? p = (l.find? q).map f := by
  induction l with
  | nil => rfl
  | cons a l ih =>
    rw [List.map_cons, List.find?_cons, List.find?_cons, h a List.mem_cons_self]
    cases q a with
    | true => rfl
    | false => exact ih fun b hb => h b (List.mem_cons_of_mem a hb)

/-- A group put back is found. -/
theorem putGroup_found {s : State} {h x : Group} (hf : s.group? h.uid = some x) (hst : h.st ≠ .free) : (s.putGroup h).group? h.uid = some h := by
  rw [group?_eq] at hf ⊢
  unfold State.putGroup
  by_cases hu : s.g.uid = h.uid
  · rw [if_pos hu, if_pos ⟨hst, rfl⟩]
  · rw [if_neg hu]
    rw [if_neg fun e => hu e.2] at hf ⊢
    rw [find?_map_congr (q := fun y => y.uid == h.uid) _ fun y _ => by split <;> simp_all, hf]
    simp [show x.uid = h.uid by simpa using List.find?_some hf]

/-- The others are found as before. -/
theorem putGroup_others {s : State} {h : Group} {u : Nat} (hu : u ≠ h.uid) : (s.putGroup h).group? u = s.group? u := by
  rw [group?_eq, group?_eq]
  unfold State.putGroup
  by_cases hg : s.g.uid = h.uid
  · rw [if_pos hg, if_neg fun e => hu e.2.symm, if_neg fun e => hu (e.2.symm.trans hg)]
  · rw [if_neg hg, find?_map_congr (q := fun y => y.uid == u) _ fun y _ => by split <;> simp_all]
    have hmap : (s.groups.find? fun y => y.uid == u).map (fun x => if x.uid = h.uid then h else x) = s.groups.find? fun y => y.uid == u := by
      cases hx : s.groups.find? fun y => y.uid == u with
      | none => rfl
      | some y => simp [show y.uid = u by simpa using List.find?_some hx, hu]
    rw [hmap]

theorem putGroup_units (s : State) (h : Group) : (s.putGroup h).sched = s.sched ∧ (s.putGroup h).tabs = s.tabs ∧ (s.putGroup h).work = s.work ∧ (s.putGroup h).units = s.units ∧ (s.putGroup h).plat = s.plat := by
  unfold State.putGroup
  split <;> exact ⟨rfl, rfl, rfl, rfl, rfl⟩

/-- A map of groups that leaves their numbers, and frees none, acts on what is found. -/
theorem mapGroups_found (s : State) (p : Group → Bool) (f : Group → Group) (hu : ∀ h, (f h).uid = h.uid) (hf : ∀ h, h.st ≠ .free → (f h).st ≠ .free) (u : Nat) :
    (s.mapGroups p f).group? u = (s.group? u).map fun h => if p h then f h else h := by
  have hmap : ((s.groups.map fun h => if p h then f h else h).find? fun h => h.uid == u) = (s.groups.find? fun h => h.uid == u).map fun h => if p h then f h else h :=
    find?_map_congr _ fun y _ => by split <;> simp [hu]
  rw [group?_eq, group?_eq]
  unfold State.mapGroups
  rw [hmap]
  by_cases hfree : s.g.st = .free
  · simp [hfree]
  · cases hp : p s.g with
    | false => by_cases hg : s.g.uid = u <;> simp [hfree, hp, hg]
    | true => by_cases hg : s.g.uid = u <;> simp [hfree, hp, hg, hu, hf]

theorem awake_ne_free (g : Group) : g.awake ≠ .free := by
  unfold Group.awake
  split <;> simp

/-- A grant changes the states of groups and nothing else of them. -/
theorem grant_found (s : State) (q u : Nat) : (s.grant q).group? u = (s.group? u).map fun h => if h.quad == q && s.servable h then { h with st := h.awake } else h := by
  have hg : ∀ (l : List Group) (s : State), (l.foldl (fun s h => s.progress h.part h.ctx) s).g = s.g ∧ (l.foldl (fun s h => s.progress h.part h.ctx) s).groups = s.groups := by
    intro l
    induction l with
    | nil => exact fun s => ⟨rfl, rfl⟩
    | cons h l ih => exact fun s => ih (s.progress h.part h.ctx)
  obtain ⟨h1, h2⟩ := hg (s.allGroups.filter fun h => h.quad == q && s.servable h) s
  unfold State.grant
  dsimp only
  rw [mapGroups_found _ _ (fun h => { h with st := h.awake }) (fun _ => rfl) fun h _ => awake_ne_free h, group?_eq, group?_eq, h1, h2]

theorem foldl_idle {α β : Type} {f : β → α → β} {b : β} {l : List α} (h : ∀ a ∈ l, f b a = b) : l.foldl f b = b := by
  induction l with
  | nil => rfl
  | cons a l ih =>
    rw [List.foldl_cons, h a List.mem_cons_self]
    exact ih fun c hc => h c (List.mem_cons_of_mem a hc)

/-- A group in whose word no other waits breaks no wait. -/
theorem broken_alone {s : State} {x : Group} (h : ∀ y ∈ s.allGroups, brokenBy x y = none) : s.broken x = s := by
  unfold State.broken
  rw [State.breakWaits, foldl_idle fun y hy => by rw [h y hy]]
  cases s.allGroups.length <;> rfl

theorem putGroup_all {s : State} {h y : Group} (hy : y ∈ (s.putGroup h).allGroups) : y = h ∨ y ∈ s.allGroups := by
  unfold State.putGroup State.allGroups at hy
  split at hy
  · dsimp only at hy
    rcases List.mem_append.mp hy with hm | hm
    · split at hm
      · cases hm
      · exact .inl (List.mem_singleton.mp hm)
    · exact .inr (List.mem_append_right _ hm)
  · dsimp only at hy
    rcases List.mem_append.mp hy with hm | hm
    · exact .inr (List.mem_append_left _ hm)
    · obtain ⟨z, hz, rfl⟩ := List.mem_map.mp hm
      split
      · exact .inl rfl
      · exact .inr (List.mem_append_right _ hz)

end Sys2Proof.Machine
end

section
/-! O25: the end of a path and of a group (R165, R32). -/

namespace Sys2Proof.Machine

open Sys2Proof

/-! ### Retirement -/

/-- What a retired group is. -/
def Group.retired (h : Group) : Group :=
  { h with st := .retired, wait := .none, resume := none, v := [], floor := 0, tiles := [], region := none, sent := none, arrival := none, assist := none, replay := none, paths := List.replicate 8 {} }

theorem mget_mclear (m : Memory) (lo hi a : Nat) : mget (mclear m lo hi) a = if lo ≤ a ∧ a < hi then 0 else mget m a := by
  split
  · next h =>
    unfold mget mclear
    induction m with
    | nil => rfl
    | cons c m ih =>
      by_cases hc : (c.1 < lo || hi ≤ c.1) = true
      · rw [List.filter_cons_of_pos (p := fun c : Host.Cell => c.1 < lo || hi ≤ c.1) hc]
        simp only [tget]
        rw [if_neg (by simp only [Bool.or_eq_true, decide_eq_true_eq] at hc; omega)]
        exact ih
      · rw [List.filter_cons_of_neg (p := fun c : Host.Cell => c.1 < lo || hi ≤ c.1) hc]
        exact ih
  · exact mget_filter m (fun k => k < lo || hi ≤ k) a (by simp only [Bool.or_eq_true, decide_eq_true_eq]; omega)

theorem grant_sameButState (s : State) (q u : Nat) : (((s.grant q).group? u).map fun x => { x with st := .free }) = (s.group? u).map fun x => { x with st := .free } := by
  rw [grant_found, Option.map_map]
  cases s.group? u with
  | none => rfl
  | some h =>
    simp only [Option.map_some, Function.comp]
    split <;> rfl

/-- The tiles of a list read zero once they are cleared. -/
theorem clearTiles_zero (quad : Nat) (tiles : List Nat) (s : State) {n a : Nat} (hn : n ∈ tiles) (h1 : 0x4000 * n ≤ a) (h2 : a < 0x4000 * n + 0x4000) : mget (tget [] (s.clearTiles quad tiles).mem.acc quad) a = 0 := by
  have hfold : ∀ (l : List Nat) (m : Memory), (n ∈ l ∨ mget m a = 0) → mget (l.foldl (fun m t => mclear m (0x4000 * t) (0x4000 * t + 0x4000)) m) a = 0 := by
    intro l
    induction l with
    | nil => exact fun m h => h.resolve_left List.not_mem_nil
    | cons t l ih =>
      intro m h
      rw [List.foldl_cons]
      refine ih _ ?_
      rw [mget_mclear]
      rcases h with h | h
      · rcases List.mem_cons.mp h with rfl | h
        · exact .inr (if_pos ⟨h1, h2⟩)
        · exact .inl h
      · right
        split
        · rfl
        · exact h
  unfold State.clearTiles
  split
  · next he =>
    rw [List.isEmpty_iff.mp he] at hn
    cases hn
  · rw [tget_tset, if_pos rfl]
    exact hfold _ _ (.inl hn)

theorem clearTiles_frame (s : State) (quad : Nat) (tiles : List Nat) : s.SameBytes (s.clearTiles quad tiles) ∧ (s.clearTiles quad tiles).g = s.g ∧ (s.clearTiles quad tiles).groups = s.groups ∧
    (s.clearTiles quad tiles).sched = s.sched ∧ (s.clearTiles quad tiles).units = s.units ∧ (s.clearTiles quad tiles).plat = s.plat := by
  unfold State.clearTiles
  split
  · exact ⟨SameBytes.refl s, rfl, rfl, rfl, rfl, rfl⟩
  · exact ⟨⟨rfl, rfl, rfl, rfl, rfl, rfl⟩, rfl, rfl, rfl, rfl, rfl⟩

/-- The block of a group learns how the group has ended. -/
def State.blockEnded (s : State) (h : Group) (faulted killed : Bool) : State :=
  match s.block? h.blk with
  | some b => s.putBlock { b with faulted := b.faulted || faulted, killed := b.killed || killed }
  | none => s

theorem blockEnded_eq (s : State) (h : Group) (faulted killed : Bool) : ∃ bs, s.blockEnded h faulted killed = { s with work := { s.work with blocks := bs } } := by
  unfold State.blockEnded
  split
  · exact ⟨_, rfl⟩
  · exact ⟨s.work.blocks, rfl⟩

theorem retire_eq {s : State} {h : Group} {faulted killed : Bool} (hf : s.group? h.uid = some h) :
    s.retire h.uid faulted killed = ((((s.clearTiles h.quad h.tiles).putGroup h.retired).blockEnded h faulted killed).broken h).grant h.quad := by
  simp only [State.retire, hf]
  rfl

/-- What retirement leaves: the group retired, its tiles cleared, and every other group but for its state as before. -/
theorem retire_leaves {s : State} {h : Group} {faulted killed : Bool} (hf : s.group? h.uid = some h) (ha : (s.allGroups.all fun x => (brokenBy h x).isNone) = true) :
    let t := s.retire h.uid faulted killed
    t.RetiredGroup h ∧ s.SameBytes t ∧ t.sched = s.sched ∧ t.units = s.units ∧ t.plat = s.plat ∧
      ∀ u, u ≠ h.uid → ((t.group? u).map fun x => { x with st := .free }) = (s.group? u).map fun x => { x with st := .free } := by
  obtain ⟨hbytes, hg, hgroups, hsched, hunits, hplat⟩ := clearTiles_frame s h.quad h.tiles
  have hzero := fun n (hn : n ∈ h.tiles) a h1 h2 => clearTiles_zero h.quad h.tiles s hn (a := a) h1 h2
  rw [retire_eq hf]
  generalize s.clearTiles h.quad h.tiles = c at *
  have hfind : ∀ u, c.group? u = s.group? u := fun u => by rw [group?_eq, group?_eq, hg, hgroups]
  have hcf := (hfind h.uid).trans hf
  have hall : c.allGroups = s.allGroups := by rw [State.allGroups, State.allGroups, hg, hgroups]
  obtain ⟨p1, -, -, p2, p3⟩ := putGroup_units c h.retired
  have p4 := putGroup_mem c h.retired
  obtain ⟨bs, hb⟩ := blockEnded_eq (c.putGroup h.retired) h faulted killed
  have halone : ((c.putGroup h.retired).blockEnded h faulted killed).broken h = (c.putGroup h.retired).blockEnded h faulted killed := by
    refine broken_alone fun y hy => ?_
    rw [hb] at hy
    rcases putGroup_all hy with rfl | hy
    · simp [brokenBy, Group.retired]
    · rw [hall] at hy
      simpa using List.all_eq_true.mp ha y hy
  rw [halone, hb]
  have hsame := grant_same { c.putGroup h.retired with work := { (c.putGroup h.retired).work with blocks := bs } } h.quad
  refine ⟨?_, ?_, ?_, ?_, ?_, fun u hu => ?_⟩
  · have hret : ({ c.putGroup h.retired with work := { (c.putGroup h.retired).work with blocks := bs } } : State).group? h.uid = some h.retired := putGroup_found (h := h.retired) hcf nofun
    refine ⟨h.retired, ?_, rfl, rfl, rfl, rfl, rfl, rfl, ?_⟩
    · rw [grant_found, hret, Option.map_some, if_neg (by simp [State.servable, Group.retired])]
    · rw [hsame.mem]
      simpa only [p4] using hzero
  · exact SameBytes.trans hbytes (SameBytes.of_mem (by rw [hsame.mem]; exact p4))
  · exact hsame.sched.trans (p1.trans hsched)
  · exact hsame.units.trans (p2.trans hunits)
  · exact hsame.plat.trans (p3.trans hplat)
  · rw [grant_sameButState, ← hfind u, ← putGroup_others (s := c) (h := h.retired) hu]
    rfl

theorem retiredGroup_congr {t : State} {g h : Group} (hu : g.uid = h.uid) (hq : g.quad = h.quad) (ht : g.tiles = h.tiles) (hr : t.RetiredGroup g) : t.RetiredGroup h := by
  unfold State.RetiredGroup at hr ⊢
  rwa [hu, hq, ht] at hr

/-! ### gexit -/

/-- A group with nothing left to do retires, or its word waits to issue again. -/
def State.departs (s : State) (g : Group) : State × Flow :=
  if s.g.retireReady then (s.retire g.uid g.sup false, Flow.retired) else (s, .retry .waitCounter .retire)

/-- What `gexit` does. -/
def gexitBody (s : State) : State × Flow :=
  let g := s.g
  let open_ := g.matOps.any (fun o => o.2 == g.batch) || g.batchOut.any fun o => o.batch == g.batch
  let s1 := if open_ then { s with g := g.closeBatch } else s
  if g.sup then s1.departs g
  else match oldestPend g.paths fun _ => true with
    | some i => ({ s with g := { g with paths := g.paths.set i {}, m0 := (g.paths.getD i {}).mask } }, .goto (g.paths.getD i {}).pc false)
    | none => match g.paths.find? fun e => e.valid && e.arrived with
      | some e => ({ s with g := Group.mergeArrived { g with m0 := 0 } e.tag }, .goto e.pc false)
      | none => s1.departs g

theorem gexit_exec (f : FForm) (s : State) : exec (.gexit f) s = runWord (mkWord shapeGexit f) {} gexitBody s := rfl

theorem gexitBody_pend {s : State} {i : Nat} (hs : s.g.sup = false) (hp : oldestPend s.g.paths (fun _ => true) = some i) :
    gexitBody s = ({ s with g := { s.g with paths := s.g.paths.set i {}, m0 := (s.g.paths.getD i {}).mask } }, .goto (s.g.paths.getD i {}).pc false) := by
  simp only [gexitBody, hs, hp]
  rfl

theorem gexitBody_merge {s : State} {e : PathEnt} (hs : s.g.sup = false) (hp : oldestPend s.g.paths (fun _ => true) = none) (he : (s.g.paths.find? fun e => e.valid && e.arrived) = some e) :
    gexitBody s = ({ s with g := Group.mergeArrived { s.g with m0 := 0 } e.tag }, .goto e.pc false) := by
  simp only [gexitBody, hs, hp, he]
  rfl

/-- A table without a path has none pending. -/
theorem oldestPend_invalid {ps : List PathEnt} {p : PathEnt → Bool} (h : ∀ e ∈ ps, e.valid = false) : oldestPend ps p = none := by
  have hd : ∀ i, (ps.getD i {}).valid = false := by
    intro i
    rw [List.getD_eq_getElem?_getD]
    cases he : ps[i]? with
    | none => rfl
    | some e => exact h e (List.mem_of_getElem? he)
  exact foldl_idle fun i _ => if_neg (by rw [hd i, Bool.false_and, Bool.false_and]; exact Bool.false_ne_true)

/-- With no path left, or in the handler, a group with nothing outstanding retires. -/
theorem gexitBody_retires {s : State} (hl : s.g.sup = true ∨ (s.g.paths.all fun e => !e.valid) = true) (hr : s.g.retireReady = true) (hb : s.g.batchOut = []) :
    gexitBody s = (s.retire s.g.uid s.g.sup false, .retired) := by
  have hops : s.g.matOps = [] := by
    simp only [Group.retireReady, Bool.and_eq_true, List.isEmpty_iff] at hr
    exact hr.1.1.1.2
  have hleave : s.departs s.g = (s.retire s.g.uid s.g.sup false, .retired) := if_pos hr
  simp only [gexitBody, hops, hb, List.any_nil, Bool.or_self, Bool.false_eq_true, if_false]
  rcases hl with hs | hv
  · rw [if_pos hs]
    exact hleave
  · have hinvalid : ∀ e ∈ s.g.paths, e.valid = false := fun e he => by simpa using List.all_eq_true.mp hv e he
    have hnone : oldestPend s.g.paths (fun _ => true) = none := oldestPend_invalid hinvalid
    have harr : (s.g.paths.find? fun e => e.valid && e.arrived) = none := List.find?_eq_none.mpr fun e he => by simp [hinvalid e he]
    rw [hnone, harr]
    split
    · exact hleave
    · exact hleave

/-- The group as a `gexit` begins: only its paths have aged. -/
theorem gexit_begin (f : FForm) (s : State) : s.g.begin (mkWord shapeGexit f) {} =
    { s.g.aged with region := (s.g.countInRegion (mkWord shapeGexit f)).region, uninit := (s.g.begin (mkWord shapeGexit f) {}).uninit, wait := .none } := begin_aged s.g _ {} rfl

theorem gexit_follows {f : FForm} {s : State} {i : Nat} (hx : s.executes (mkWord shapeGexit f) {} = true) (hs : s.g.sup = false) (hp : oldestPend (agePaths s.g.paths) (fun _ => true) = some i) :
    let w := mkWord shapeGexit f
    let ps := agePaths s.g.paths
    ∃ t, exec (.gexit f) s = .next t ∧ WordDone s t w {} { s.g with m0 := (ps.getD i {}).mask, paths := ps.set i {} } (pcBits (ps.getD i {}).pc) (max 3 (w.stall + 1)) := by
  intro w ps
  have hb := gexit_begin f s
  have hbody := gexitBody_pend (s := s.begun w {}) (i := i) (by rw [begun_g, hb]; exact hs) (by rw [begun_g, begin_paths]; exact hp)
  rw [begun_g, begin_paths, hb] at hbody
  exact word_goto w {} gexitBody s s { s.g with m0 := (ps.getD i {}).mask, paths := ps.set i {} } (s.g.countInRegion w).region _ _ false hx hbody (executes_sound hx) (executes_replay hx) (inreg_counted s.g w) nofun

theorem gexit_merges {f : FForm} {s : State} {e : PathEnt} (hx : s.executes (mkWord shapeGexit f) {} = true) (hs : s.g.sup = false) (hp : oldestPend (agePaths s.g.paths) (fun _ => true) = none)
    (he : ((agePaths s.g.paths).find? fun e => e.valid && e.arrived) = some e) :
    let w := mkWord shapeGexit f
    let ps := agePaths s.g.paths
    ∃ t, exec (.gexit f) s = .next t ∧
      WordDone s t w {} { s.g with m0 := t.g.m0, paths := ps.map fun x => if x.merges e.tag then {} else x } (pcBits e.pc) (max 3 (w.stall + 1)) ∧
      ∀ l, l < 32 → t.g.m0.getLsbD l = ps.any fun x => x.merges e.tag && x.mask.getLsbD l := by
  intro w ps
  have hb := gexit_begin f s
  have hbody := gexitBody_merge (s := s.begun w {}) (e := e) (by rw [begun_g, hb]; exact hs) (by rw [begun_g, begin_paths]; exact hp) (by rw [begun_g, begin_paths]; exact he)
  have hany : ps.any (PathEnt.merges e.tag) = true := List.any_eq_true.mpr ⟨e, List.mem_of_find?_eq_some he, by
    have := List.find?_some he
    simpa [PathEnt.merges] using this⟩
  rw [begun_g, mergeArrived_eq, if_pos (by rw [begin_paths]; exact hany), begin_paths, hb] at hbody
  obtain ⟨t, ht, hd⟩ := word_goto w {} gexitBody s s { s.g with m0 := ps.foldl (fun m x => if x.merges e.tag then m ||| x.mask else m) 0, paths := ps.map fun x => if x.merges e.tag then {} else x }
    (s.g.countInRegion w).region _ _ false hx hbody (executes_sound hx) (executes_replay hx) (inreg_counted s.g w) nofun
  have hm0 : t.g.m0 = ps.foldl (fun m x => if x.merges e.tag then m ||| x.mask else m) 0 := hd.kept.m0
  refine ⟨t, ht, by rw [hm0]; exact hd, fun l _ => ?_⟩
  rw [hm0, getLsbD_merged]
  simp

theorem gexit_retires {f : FForm} {s : State} (hx : s.executes (mkWord shapeGexit f) {} = true) (hl : s.g.sup = true ∨ ((agePaths s.g.paths).all fun e => !e.valid) = true) (hr : s.g.retireReady = true)
    (hbatch : s.g.batchOut = []) (hst : s.g.st ≠ .free) (ha : (s.allGroups.all fun x => (brokenBy s.g x).isNone) = true) :
    ∃ t, exec (.gexit f) s = .next t ∧ t.RetiredGroup s.g ∧ s.SameMemory t ∧ t.mem.hbm = s.mem.hbm := by
  let w := mkWord shapeGexit f
  have hb := gexit_begin f s
  have hbody := gexitBody_retires (s := s.begun w {}) (by rw [begun_g, begin_paths, hb]; exact hl) (by rw [begun_g, hb]; exact hr) (by rw [begun_g, hb]; exact hbatch)
  have hfind : (s.begun w {}).group? (s.begun w {}).g.uid = some (s.begun w {}).g := by
    rw [group?_eq, if_pos ⟨by rw [begun_g, hb]; exact hst, rfl⟩]
  have halone : ((s.begun w {}).allGroups.all fun x => (brokenBy (s.begun w {}).g x).isNone) = true := by
    rw [List.all_eq_true] at ha ⊢
    intro y hy
    rcases List.mem_append.mp hy with hm | hm
    · split at hm
      · cases hm
      · obtain rfl := List.mem_singleton.mp hm
        simp [brokenBy]
    · have hy' := ha y (List.mem_append_right _ hm)
      rw [begun_g, hb]
      exact hy'
  have huid : (s.begun w {}).g.uid = s.g.uid := by rw [begun_g, hb]; rfl
  have hquad : (s.begun w {}).g.quad = s.g.quad := by rw [begun_g, hb]; rfl
  have htiles : (s.begun w {}).g.tiles = s.g.tiles := by rw [begun_g, hb]; rfl
  obtain ⟨hret, hsame, -⟩ := retire_leaves (faulted := (s.begun w {}).g.sup) (killed := false) hfind halone
  have hbytes : s.SameBytes ((s.begun w {}).retire (s.begun w {}).g.uid (s.begun w {}).g.sup false) := SameBytes.trans (t := s.begun w {}) ⟨rfl, rfl, rfl, rfl, rfl, rfl⟩ hsame
  refine ⟨((s.begun w {}).retire (s.begun w {}).g.uid (s.begun w {}).g.sup false).progress s.g.part s.g.ctx, ?_, ?_, fun l hl => SameBytes.peek (s := s) ?_ l 1 hl, hbytes.hbm⟩
  · rw [gexit_exec, runWord_executes _ _ _ _ hx, hbody]
    exact answer_next _ (hbytes.bad.trans (executes_sound hx))
  · have hprogress : ∀ v : State, v.RetiredGroup s.g → (v.progress s.g.part s.g.ctx).RetiredGroup s.g := fun _ h => h
    exact hprogress _ (retiredGroup_congr huid hquad htiles hret)
  · exact SameBytes.trans hbytes ⟨rfl, rfl, rfl, rfl, rfl, rfl⟩

/-- Settles O25. -/
theorem groupsRetire : Obligations.GroupsRetire := by
  refine ⟨fun f w s hw hx => ?_, fun uid s h hf hst hwt hr hm ha => ?_⟩
  · cases hw
    exact ⟨fun i hs hp => gexit_follows hx hs hp, fun e hs hp he => gexit_merges hx hs hp he, fun hl hr hb hst ha => gexit_retires hx hl hr hb hst ha⟩
  · obtain rfl := group?_uid hf
    obtain ⟨hret, hbytes, hsched, hunits, hplat, hothers⟩ := retire_leaves (faulted := h.sup) (killed := false) hf ha
    refine ⟨s.retire h.uid h.sup false, ?_, hret, fun l hl => SameBytes.peek hbytes l 1 hl, hsched, hunits, hplat, hothers⟩
    have he : exec (.groupRetirement h.uid) s = answer (s.retire h.uid h.sup false) := by
      refine congrArg answer ?_
      simp only [hf, hst, hwt, hr, decide_true, Bool.and_self, if_true]
    exact he.trans (answer_next _ (hbytes.bad.trans hm))

end Sys2Proof.Machine
end

section
/-! Engine operations complete (O27): waking one group, alarms that stand, and a unit that is carried. -/

namespace Sys2Proof.Machine

open Sys2Proof

/-! ### A group that is woken -/

theorem rouse_ne_free {h : Group} : h.rouse.st ≠ .free := by
  unfold Group.rouse
  split
  · next hp => rcases (by simpa using hp : h.st = .parked ∨ h.st = .preempted) with hp | hp <;> simp [hp]
  · exact awake_ne_free h

theorem rouse_uid (h : Group) : h.rouse.uid = h.uid := by
  unfold Group.rouse
  split <;> rfl

/-- A group that is put back roused is found so. -/
theorem putGroup_rouse_found {s : State} {uid : Nat} {h : Group} (hg : s.group? uid = some h) : (s.putGroup h.rouse).group? uid = some h.rouse := by
  have hu : h.rouse.uid = uid := (rouse_uid h).trans (group?_uid hg)
  rw [← hu] at hg ⊢
  exact putGroup_found hg rouse_ne_free

theorem wake_eq {s : State} {uid : Nat} {h : Group} (hg : s.group? uid = some h) :
    s.wake uid = if h.wait.again then s.putGroup h.rouse else (s.putGroup h.rouse).progress h.part h.ctx := by
  unfold State.wake
  rw [hg]

theorem wake_found {s : State} {uid : Nat} {h : Group} (hg : s.group? uid = some h) : (s.wake uid).group? uid = some h.rouse := by
  rw [wake_eq hg]
  split <;> exact putGroup_rouse_found hg

/-- Waking a group changes its context's note of progress, and nothing else outside the groups. -/
theorem wake_units {s : State} {uid : Nat} :
    (s.wake uid).mem = s.mem ∧ (s.wake uid).sched = s.sched ∧ (s.wake uid).work = s.work ∧ (s.wake uid).units = s.units ∧ (s.wake uid).plat = s.plat ∧
      { (s.wake uid).tabs with ctxs := s.tabs.ctxs } = s.tabs := by
  unfold State.wake
  cases s.group? uid with
  | none => exact ⟨rfl, rfl, rfl, rfl, rfl, rfl⟩
  | some h =>
    obtain ⟨h1, h2, h3, h4, h5⟩ := putGroup_units s h.rouse
    have h6 := putGroup_mem s h.rouse
    dsimp only
    split
    · exact ⟨h6, h1, h3, h4, h5, by rw [h2]⟩
    · exact ⟨h6, h1, h3, h4, h5, congrArg (fun t : TableState => { t with ctxs := s.tabs.ctxs }) h2⟩

/-! ### Alarms that stand -/

/-- No alarm of s is taken back in t. -/
structure State.KeepsAlarms (s t : State) : Prop where
  before : t.alarmed = false → s.alarmed = false

theorem State.KeepsAlarms.refl (s : State) : s.KeepsAlarms s := ⟨id⟩

theorem State.KeepsAlarms.trans {s t u : State} (h : s.KeepsAlarms t) (k : t.KeepsAlarms u) : s.KeepsAlarms u := ⟨fun a => h.before (k.before a)⟩

theorem State.KeepsAlarms.of_eq {s t : State} (h : t.mem.alarms = s.mem.alarms) : s.KeepsAlarms t :=
  ⟨fun a => by rw [State.alarmed, h] at a; exact a⟩

theorem State.KeepsAlarms.fold {α : Type} (f : State → α → State) (h : ∀ (s : State) (a : α), s.KeepsAlarms (f s a)) (l : List α) (s : State) : s.KeepsAlarms (l.foldl f s) := by
  induction l generalizing s with
  | nil => exact .refl s
  | cons a l ih => exact (h s a).trans (ih _)

theorem writeback_keepsAlarms (s : State) (tile : Nat) : s.KeepsAlarms (s.writeback tile) := ⟨(writeback_cleans s tile).1.alarms⟩

theorem evict_keepsAlarms (s : State) (line : Nat) (e : L2Line) : s.KeepsAlarms (s.evict line e) := by
  unfold State.evict
  dsimp only
  split
  · exact (writeback_keepsAlarms s (line / 32)).trans (.of_eq rfl)
  · exact .of_eq rfl

theorem insertLine_keepsAlarms (s : State) (line : Nat) (mask : W16) (e : L2Line) : s.KeepsAlarms (s.insertLine line mask e) := by
  unfold State.insertLine
  dsimp only
  split
  · exact .of_eq rfl
  · split
    · exact .refl s
    · next x _ =>
      have h := fun l2 => (State.KeepsAlarms.of_eq (s := s) (t := { s with mem := { s.mem with l2 := l2 } }) rfl).trans (evict_keepsAlarms _ x.1 x.2)
      exact (h _).trans (.of_eq rfl)

theorem touch_keepsAlarms (s : State) (w : Who) (line : Nat) : s.KeepsAlarms (s.touch w line) := by
  unfold State.touch
  dsimp only
  split
  · exact .of_eq rfl
  · split
    · exact .refl _
    · exact insertLine_keepsAlarms s _ _ _

theorem installTile_keepsAlarms (s : State) (tile part : Nat) : s.KeepsAlarms (s.installTile tile part) := by
  refine State.KeepsAlarms.fold _ (fun s i => ?_) _ s
  dsimp only
  split
  · exact .of_eq rfl
  · exact insertLine_keepsAlarms s _ _ _

theorem verifyTile_keepsAlarms (s : State) (part tile : Nat) : s.KeepsAlarms (s.verifyTile part tile) := by
  have h : s.KeepsAlarms (s.checkTile tile).2 := ⟨(checkTile_cleans s tile).1.alarms⟩
  unfold State.verifyTile
  dsimp only
  split
  · have hmap := fun u : State => State.KeepsAlarms.of_eq (s := u) (congrArg MemState.alarms (mapGroups_mem u (fun h => h.pendTiles.contains tile) fun h => { h with pendTiles := h.pendTiles.filter fun t => t != tile }))
    split
    · exact h.trans (hmap _)
    · exact (h.trans (installTile_keepsAlarms _ tile part)).trans (hmap _)
  · exact h

theorem needVerified_keepsAlarms (s : State) (part tile : Nat) : s.KeepsAlarms (s.needVerified part tile) := by
  unfold State.needVerified
  split
  · exact .refl s
  · exact verifyTile_keepsAlarms s part tile

theorem loadVerified_keepsAlarms (s : State) (w : Who) (l : Loc) (n : Nat) : s.KeepsAlarms (s.loadVerified w l n).2 := by
  unfold State.loadVerified
  dsimp only
  split
  · split
    · exact .of_eq rfl
    · exact ((needVerified_keepsAlarms s _ _).trans (touch_keepsAlarms _ _ _)).trans (.of_eq rfl)
  · exact .refl s

theorem poke_alarms (s : State) (l : Loc) (bs : List Byte) : (s.poke l bs).mem.alarms = s.mem.alarms := by
  unfold State.poke
  cases l.space with
  | hbm => dsimp only; split <;> rfl
  | acc q t => dsimp only; split <;> rfl
  | regs c k =>
    dsimp only
    split
    · split <;> exact congrArg MemState.alarms (putGroup_mem _ _)
    · rfl
  | host => rfl
  | peer d => rfl
  | spad c => rfl

theorem pokeStore_keepsAlarms (s : State) (l : Loc) (bs : List Byte) : s.KeepsAlarms (s.pokeStore l bs) := by
  unfold State.pokeStore
  split
  · split
    · exact .of_eq (poke_alarms s l bs)
    · refine State.KeepsAlarms.fold _ (fun s i => ?_) _ s
      split
      · exact .refl _
      · exact .of_eq (poke_alarms _ _ _)
  · exact .of_eq (poke_alarms s l bs)

theorem markDirty_alarms (s : State) (a : Nat) : (s.markDirty a).mem.alarms = s.mem.alarms := by
  unfold State.markDirty
  split <;> rfl

theorem storeAt_keepsAlarms (s : State) (w : Who) (uid : Option Nat) (plain : Bool) (l : Loc) (bs : List Byte) : s.KeepsAlarms (s.storeAt w uid plain l bs) := by
  have h := pokeStore_keepsAlarms s l bs
  have hm := fun m : MemState => fun hm : m.alarms = (s.pokeStore l bs).mem.alarms =>
    (h.trans (.of_eq (t := { s.pokeStore l bs with mem := m }) hm)).trans (.of_eq (t := markConflicts (State.markDirty { s.pokeStore l bs with mem := m } l.addr) uid l) (markDirty_alarms _ _))
  unfold State.storeAt
  dsimp only
  split
  · have ht := (hm (((s.pokeStore l bs).mem.stir l bs.length).tick.l1Write w plain l.addr bs) rfl).trans (touch_keepsAlarms _ w (l.addr / 128))
    split
    · exact ht.trans (writeback_keepsAlarms _ _)
    · exact ht.trans (.of_eq rfl)
  · exact h.trans (.of_eq rfl)
  · exact h.trans (.of_eq rfl)

/-! ### A unit that is carried -/

theorem peek_append (s : State) (sp : Space) (a n k : Nat) (hm : sp.isMemory = true) : s.peek ⟨sp, a⟩ (n + k) = s.peek ⟨sp, a⟩ n ++ s.peek ⟨sp, a + n⟩ k := by
  cases sp with
  | acc q t => cases hm
  | regs c k => cases hm
  | hbm | host | peer d | spad c => exact mbytes_append _ _ _ _

/-- Bytes that are each as before are together as before. -/
theorem peek_of_ones {s t : State} {sp : Space} (hm : sp.isMemory = true) (a n : Nat) (h : ∀ x, a ≤ x → x < a + n → t.peek ⟨sp, x⟩ 1 = s.peek ⟨sp, x⟩ 1) :
    t.peek ⟨sp, a⟩ n = s.peek ⟨sp, a⟩ n := by
  induction n with
  | zero =>
    cases sp with
    | acc q t => cases hm
    | regs c k => cases hm
    | hbm | host | peer d | spad c => rfl
  | succ n ih =>
    rw [peek_append _ _ _ _ _ hm, peek_append _ _ _ _ _ hm, ih fun x h1 h2 => h x h1 (by omega), h (a + n) (by omega) (by omega)]

/-- Bytes apart from those that changed are as before. -/
theorem SameBut.peek {s t : State} {l x : Loc} {n k : Nat} (h : s.SameBut t l n) (hm : x.space.isMemory = true) (hd : x.space ≠ l.space ∨ x.addr + k ≤ l.addr ∨ l.addr + n ≤ x.addr) :
    t.peek x k = s.peek x k :=
  peek_of_ones hm x.addr k fun y h1 h2 => h ⟨x.space, y⟩ hm fun ⟨h3, h4, h5⟩ => by
    rcases hd with hd | hd | hd
    · exact hd h3
    · dsimp only at h4 h5; omega
    · dsimp only at h4 h5; omega

theorem SameBytes.sameBut {s t : State} (h : s.SameBytes t) (l : Loc) (n : Nat) : s.SameBut t l n := fun x hx _ => SameBytes.peek h x 1 hx

/-- What two steps change lies where one of them changes bytes. -/
theorem SameBut.join {s t u : State} {l k : Loc} {n m : Nat} (h : s.SameBut t l n) (h' : t.SameBut u k m) (d : Loc) (c : Nat)
    (hl : l.space = d.space ∧ d.addr ≤ l.addr ∧ l.addr + n ≤ d.addr + c) (hk : k.space = d.space ∧ d.addr ≤ k.addr ∧ k.addr + m ≤ d.addr + c) : s.SameBut u d c := by
  intro x hx hn
  rw [h' x hx fun ⟨h1, h2, h3⟩ => hn ⟨h1.trans hk.1, by omega, by omega⟩, h x hx fun ⟨h1, h2, h3⟩ => hn ⟨h1.trans hl.1, by omega, by omega⟩]

theorem poke_hqs {s : State} {l : Loc} {bs : List Byte} (hm : l.space.isMemory = true) : (s.poke l bs).mem.hqs = s.mem.hqs := by
  unfold State.poke
  cases hs : l.space with
  | hbm => dsimp only; split <;> rfl
  | acc q t => rw [hs] at hm; cases hm
  | regs c k => rw [hs] at hm; cases hm
  | host | peer d | spad c => rfl

/-- One element of a move: 8 bytes from a to b, nothing where a tile has failed its check. -/
def moveEight (h : Group) (o : EngineOp) (a b : Loc) (s : State) (i : Nat) : State :=
  let r := s.loadVerified { h.who with cls := reuseOf o.srcT } ⟨a.space, a.addr + i⟩ 8
  if r.2.alarmed then r.2 else r.2.storeAt { h.who with cls := reuseOf o.dstT } none false ⟨b.space, b.addr + i⟩ r.1

theorem moveElems_unit (s : State) (h : Group) (o : EngineOp) (a b : Loc) : s.moveElems h o [(a, b)] = moveEight h o a b (moveEight h o a b s 0) 8 := rfl

theorem peek_length (s : State) (l : Loc) (n : Nat) (hm : l.space.isMemory = true) : (s.peek l n).length = n := by
  unfold State.peek
  cases hs : l.space with
  | acc q t => rw [hs] at hm; cases hm
  | regs c k => rw [hs] at hm; cases hm
  | hbm | host | peer d | spad c => simp [mbytes]

/-- An element that is moved without an alarm stands at its place, and no other byte changes. -/
theorem moveEight_moves {h : Group} {o : EngineOp} {a b : Loc} {s : State} {i : Nat} (ha : (⟨a.space, a.addr + i⟩ : Loc).inMemory 8 = true) (hb : (⟨b.space, b.addr + i⟩ : Loc).inMemory 8 = true)
    (hq : ∀ c, b.space = .spad c → s.mem.hqs = []) :
    s.KeepsAlarms (moveEight h o a b s i) ∧ s.SameBut (moveEight h o a b s i) ⟨b.space, b.addr + i⟩ 8 ∧ (moveEight h o a b s i).mem.hqs = s.mem.hqs ∧
      ((moveEight h o a b s i).alarmed = false → (moveEight h o a b s i).peek ⟨b.space, b.addr + i⟩ 8 = s.peek ⟨a.space, a.addr + i⟩ 8) := by
  have hma : a.space.isMemory = true := by
    simp only [Loc.inMemory, Bool.and_eq_true] at ha
    exact ha.1
  have hmb : b.space.isMemory = true := by
    simp only [Loc.inMemory, Bool.and_eq_true] at hb
    exact hb.1
  obtain ⟨hsame, hread⟩ := loadVerified_same s { h.who with cls := reuseOf o.srcT } ⟨a.space, a.addr + i⟩ 8 ha
  have hkeep := loadVerified_keepsAlarms s { h.who with cls := reuseOf o.srcT } ⟨a.space, a.addr + i⟩ 8
  unfold moveEight
  dsimp only
  split
  · next hal => exact ⟨hkeep, SameBytes.sameBut hsame _ _, hsame.hqs, fun h => by rw [hal] at h; cases h⟩
  · rw [hread]
    have hlen : (s.peek ⟨a.space, a.addr + i⟩ 8).length = 8 := peek_length s _ 8 hma
    have hq' : ∀ c, (⟨b.space, b.addr + i⟩ : Loc).space = .spad c → (s.loadVerified { h.who with cls := reuseOf o.srcT } ⟨a.space, a.addr + i⟩ 8).2.mem.hqs = [] :=
      fun c hc => hsame.hqs.trans (hq c hc)
    obtain ⟨h1, h2, -⟩ := storeAt_peek _ { h.who with cls := reuseOf o.dstT } none false ⟨b.space, b.addr + i⟩ _ (hlen.symm ▸ hb) hq'
    have hst := storeAt_same _ { h.who with cls := reuseOf o.dstT } none false ⟨b.space, b.addr + i⟩ (s.peek ⟨a.space, a.addr + i⟩ 8) hq'
    rw [hlen] at h1 h2
    refine ⟨hkeep.trans (storeAt_keepsAlarms _ _ _ _ _ _), fun x hx hn => (h2 x hx hn).trans (SameBytes.peek hsame x 1 hx), ?_, fun _ => h1⟩
    exact (hst.hqs.trans (poke_hqs hmb)).trans hsame.hqs

/-- A 16-byte unit is carried, or an alarm stands; no other byte changes. -/
theorem moveElems_carries (s : State) (h : Group) (o : EngineOp) (a b : Loc) (ha : a.inMemory 16 = true) (hb : b.inMemory 16 = true)
    (hd : a.space ≠ b.space ∨ a.addr + 16 ≤ b.addr ∨ b.addr + 16 ≤ a.addr) (hq : s.mem.hqs = [] ∨ ∀ c, b.space ≠ .spad c) :
    ((s.moveElems h o [(a, b)]).alarmed = false → (s.moveElems h o [(a, b)]).peek b 16 = s.peek a 16) ∧ s.SameBut (s.moveElems h o [(a, b)]) b 16 := by
  have hin : ∀ (l : Loc) (i : Nat), l.inMemory 16 = true → i ≤ 8 → (⟨l.space, l.addr + i⟩ : Loc).inMemory 8 = true := by
    intro l i hl hi
    simp only [Loc.inMemory, Bool.and_eq_true, Bool.or_eq_true, decide_eq_true_eq] at hl ⊢
    exact ⟨hl.1, hl.2.imp_right fun h => by omega⟩
  have hmem : ∀ l : Loc, l.inMemory 16 = true → l.space.isMemory = true := by
    intro l hl
    simp only [Loc.inMemory, Bool.and_eq_true] at hl
    exact hl.1
  have hq0 : ∀ c, b.space = .spad c → s.mem.hqs = [] := fun c hc => hq.resolve_right fun h => h c hc
  rw [moveElems_unit]
  obtain ⟨-, hs1, hh1, hp1⟩ := moveEight_moves (h := h) (o := o) (hin a 0 ha (by omega)) (hin b 0 hb (by omega)) hq0
  obtain ⟨hk2, hs2, -, hp2⟩ := moveEight_moves (h := h) (o := o) (s := moveEight h o a b s 0) (hin a 8 ha (by omega)) (hin b 8 hb (by omega)) fun c hc => hh1.trans (hq0 c hc)
  refine ⟨fun hal => ?_, SameBut.join hs1 hs2 b 16 ⟨rfl, by dsimp only; omega, by dsimp only; omega⟩ ⟨rfl, by dsimp only; omega, by dsimp only; omega⟩⟩
  have hlow : (moveEight h o a b (moveEight h o a b s 0) 8).peek b 8 = s.peek a 8 :=
    (SameBut.peek hs2 (hmem b hb) (.inr (.inl (Nat.le_refl _)))).trans (hp1 (hk2.before hal))
  have hhigh : (moveEight h o a b (moveEight h o a b s 0) 8).peek ⟨b.space, b.addr + 8⟩ 8 = s.peek ⟨a.space, a.addr + 8⟩ 8 :=
    (hp2 hal).trans (SameBut.peek hs1 (hmem a ha) (hd.imp_right fun h => by dsimp only; omega))
  exact (peek_append _ b.space b.addr 8 8 (hmem b hb)).trans ((congrArg₂ _ hlow hhigh).trans (peek_append s a.space a.addr 8 8 (hmem a ha)).symm)

/-! ### An operation that has run to its end -/

theorem stopped_ended {o : EngineOp} {p : Progress} (hs : p.stop = none) (hl : p.lost = false) : o.stopped p = { o with bytes := p.bytes, ended := true, awaits := none } := by
  unfold EngineOp.stopped
  rw [hs, hl]
  rfl

/-- The group x with one of its operations put back, its class drained as far as it goes. -/
def Group.withOp (x : Group) (o : EngineOp) : Group := Group.drainOps { x with ops := x.ops.map fun q => if q.seq = o.seq then o else q } o.cls

/-- A wait for a counter or a batch, settled, wakes the group or leaves it. -/
theorem settleWaits_eq (s : State) (uid : Nat) : s.settleWaits uid = s ∨ s.settleWaits uid = s.wake uid := by
  unfold State.settleWaits
  cases s.group? uid with
  | none => exact .inl rfl
  | some h =>
    dsimp only
    split
    · split
      · exact .inr rfl
      · exact .inl rfl
    · split
      · exact .inr rfl
      · exact .inl rfl
    · exact .inl rfl

theorem putOp_eq (s : State) (uid : Nat) (o : EngineOp) : s.putOp uid o = (s.mapGroups (fun h => h.uid == uid) fun h => h.withOp o).settleWaits uid := rfl

/-- An operation put back changes nothing outside the groups but their contexts' notes of progress. -/
theorem putOp_units (s : State) (uid : Nat) (o : EngineOp) :
    (s.putOp uid o).mem = s.mem ∧ (s.putOp uid o).sched = s.sched ∧ (s.putOp uid o).work = s.work ∧ (s.putOp uid o).units = s.units ∧ (s.putOp uid o).plat = s.plat := by
  rw [putOp_eq]
  rcases settleWaits_eq (s.mapGroups (fun h => h.uid == uid) fun h => h.withOp o) uid with he | he <;> rw [he]
  · exact ⟨rfl, rfl, rfl, rfl, rfl⟩
  · obtain ⟨h1, h2, h3, h4, h5, -⟩ := wake_units (s := s.mapGroups (fun h => h.uid == uid) fun h => h.withOp o) (uid := uid)
    exact ⟨h1, h2, h3, h4, h5⟩

/-- It stands in its group, which may have left its wait for it. -/
theorem putOp_found {s : State} {uid : Nat} {x : Group} (o : EngineOp) (hx : s.group? uid = some x) :
    ∃ y, (s.putOp uid o).group? uid = some y ∧ (y = x.withOp o ∨ y = (x.withOp o).rouse) := by
  have hfound : (s.mapGroups (fun h => h.uid == uid) fun h => h.withOp o).group? uid = some (x.withOp o) := by
    rw [mapGroups_found _ _ (fun h => h.withOp o) (fun _ => rfl) fun _ h => h, hx]
    simp [group?_uid hx]
  rw [putOp_eq]
  rcases settleWaits_eq (s.mapGroups (fun h => h.uid == uid) fun h => h.withOp o) uid with he | he <;> rw [he]
  · exact ⟨_, hfound, .inl rfl⟩
  · exact ⟨_, wake_found hfound, .inr rfl⟩

/-- The group keeps all but its operations, its pending faults, and where a parked or pre-empted one goes on. -/
theorem withOp_kept (x : Group) (o : EngineOp) (y : Group) (hy : y = x.withOp o ∨ y = (x.withOp o).rouse) :
    (y.ops, y.pendFaults) = ((x.withOp o).ops, (x.withOp o).pendFaults) ∧ x.Kept { y with ops := x.ops, pendFaults := x.pendFaults, left := x.left } [] := by
  rcases hy with rfl | rfl
  · exact ⟨rfl, ⟨fun _ _ => rfl, rfl, rfl, rfl, rfl, rfl, rfl, rfl, ⟨rfl, rfl, rfl, rfl, rfl, rfl, rfl, rfl, rfl, rfl, rfl, rfl⟩, rfl, rfl, rfl⟩⟩
  · unfold Group.rouse
    split <;> exact ⟨rfl, ⟨fun _ _ => rfl, rfl, rfl, rfl, rfl, rfl, rfl, rfl, ⟨rfl, rfl, rfl, rfl, rfl, rfl, rfl, rfl, rfl, rfl, rfl, rfl⟩, rfl, rfl, rfl⟩⟩

/-- An arrival is noted among the units, and changes nothing else. -/
theorem arriveBar_eq (s : State) (h : Group) (o : EngineOp) :
    s.arriveBar h o = { s with units := { s.units with arrivals := s.units.arrivals ++ (match o.bar with
      | some b => [(h.part, h.ctx, b, o.count)]
      | none => []) } } := by
  unfold State.arriveBar
  cases o.bar with
  | none => simp
  | some b => rfl

/-- What the end of an operation without an obstacle does to the machine that its steps have left. -/
theorem engineCompletion_eq {uid op : Nat} {c : CollInput} {s : State} {h : Group} {o : EngineOp} (hg : s.group? uid = some h) (ho : (h.ops.find? fun o => o.seq == op && !o.ended) = some o)
    (hu : h.unver = false) (he : h.earlierDone o.after = true) (hf : o.fault = none) (hs : (s.runOp h o c).1.stop = none) (hl : (s.runOp h o c).1.lost = false) :
    exec (.engineCompletion uid op c) s =
      answer ((((s.runOp h o c).2.putOp uid { o with bytes := (s.runOp h o c).1.bytes, ended := true, awaits := none }).progress h.part h.ctx).arriveBar h o) := by
  show execEngineCompletion uid op c s = _
  unfold execEngineCompletion
  rw [hg]
  dsimp only [Option.bind_some]
  rw [ho]
  dsimp only [Option.map_some]
  rw [hu, he, stopped_ended hs hl]
  simp [hf]

/-- The machine u after an operation of group h has ended in it and has arrived on its barrier. -/
def State.opEnds (u : State) (uid : Nat) (o' : EngineOp) (h : Group) (o : EngineOp) : State := ((u.putOp uid o').progress h.part h.ctx).arriveBar h o

theorem opEnds_units (u : State) (uid : Nat) (o' : EngineOp) (h : Group) (o : EngineOp) :
    (u.opEnds uid o' h o).mem = u.mem ∧ (u.opEnds uid o' h o).sched = u.sched ∧ (u.opEnds uid o' h o).work = u.work ∧ (u.opEnds uid o' h o).plat = u.plat ∧
      (u.opEnds uid o' h o).units = { u.units with arrivals := u.units.arrivals ++ (match o.bar with
        | some b => [(h.part, h.ctx, b, o.count)]
        | none => []) } := by
  obtain ⟨h1, h2, h3, h4, h5⟩ := putOp_units u uid o'
  rw [State.opEnds, arriveBar_eq, ← h4]
  exact ⟨h1, h2, h3, h5, rfl⟩

theorem opEnds_found {u : State} {uid : Nat} {x : Group} (o' : EngineOp) (h : Group) (o : EngineOp) (hx : u.group? uid = some x) :
    ∃ y, (u.opEnds uid o' h o).group? uid = some y ∧ (y = x.withOp o' ∨ y = (x.withOp o').rouse) := by
  have hsame : (u.opEnds uid o' h o).group? uid = (u.putOp uid o').group? uid := by
    rw [group?_eq, group?_eq, State.opEnds, arriveBar_eq]
    rfl
  rw [hsame]
  exact putOp_found o' hx

/-- Settles O27: an operation that no obstacle stops is put back ended, which may wake its group, and arrives on its barrier; a unit is two elements, of which
the second reads no byte that the first has stored. -/
theorem engineOpsComplete : Obligations.EngineOpsComplete := by
  unfold Obligations.EngineOpsComplete
  refine ⟨?_, fun s h o a b ha hb hd hq => moveElems_carries s h o a b ha hb hd hq⟩
  intro uid op c s h o hg ho hu he hf r o' hs hl hbad
  have hseq : o.seq = op := by
    have := List.find?_some ho
    simp only [Bool.and_eq_true, beq_iff_eq] at this
    exact this.1
  obtain ⟨h1, h2, h3, h4, h5⟩ := opEnds_units r.2 uid o' h o
  have hx : exec (.engineCompletion uid op c) s = answer (r.2.opEnds uid o' h o) := engineCompletion_eq hg ho hu he hf hs hl
  have hsq : o'.seq = op := hseq
  have hcls : o'.cls = o.cls := rfl
  clear_value o' r
  refine ⟨_, hx.trans (answer_next _ (by rw [h1]; exact hbad)), h1, h2, h3, h4, h5, fun x hx => ?_⟩
  obtain ⟨y, hy, hxy⟩ := opEnds_found o' h o hx
  obtain ⟨hops, hkept⟩ := withOp_kept x o' y hxy
  refine ⟨y, hy, ?_, hkept⟩
  rw [hops, Group.withOp, hsq, hcls]

end Sys2Proof.Machine
end

section
/-! What the memory system's own operations leave: accesses change groups' regions, memories, caches and messages; the changes of page tables and dockets also
partitions' pools and rings, checkpoints and TLBs. -/

namespace Sys2Proof.Machine

open Sys2Proof

/-! ### Accesses -/

/-- The state t is s but for the groups, the memories, the caches and tiles behind them, alarms and messages: what accesses change. -/
structure State.Accesses (s t : State) : Prop where
  eq : t = { s with
    g := t.g, groups := t.groups
    mem := { s.mem with
      hbm := t.mem.hbm, img := t.mem.img, l2 := t.mem.l2, tiles := t.mem.tiles, metas := t.mem.metas, host := t.mem.host, peers := t.mem.peers, spad := t.mem.spad, acc := t.mem.acc
      l1 := t.mem.l1, clock := t.mem.clock, hostHeld := t.mem.hostHeld, dirtyMap := t.mem.dirtyMap, stirred := t.mem.stirred, alarms := t.mem.alarms, bad := t.mem.bad }
    work := { s.work with msgs := t.work.msgs } }

theorem State.Accesses.refl (s : State) : s.Accesses s := ⟨rfl⟩

theorem State.Accesses.trans {s t u : State} (h : s.Accesses t) (k : t.Accesses u) : s.Accesses u := by
  obtain ⟨k⟩ := k
  rw [h.eq] at k
  exact ⟨k⟩

theorem State.Accesses.fold {α : Type} (f : State → α → State) (h : ∀ (s : State) (a : α), s.Accesses (f s a)) (l : List α) (s : State) : s.Accesses (l.foldl f s) := by
  induction l generalizing s with
  | nil => exact .refl s
  | cons a l ih => exact (h s a).trans (ih _)

theorem State.Accesses.of_lines {s t : State} (h : s.Lines t) : s.Accesses t := by
  rw [h.eq]
  exact ⟨rfl⟩

/-- Only the groups differ. -/
theorem accesses_groups (s : State) (g : Group) (gs : List Group) : s.Accesses { s with g := g, groups := gs } := ⟨rfl⟩

theorem putGroup_accesses (s : State) (h : Group) : s.Accesses (s.putGroup h) := by
  unfold State.putGroup
  split <;> exact ⟨rfl⟩

theorem verifyTile_accesses (s : State) (part tile : Nat) : s.Accesses (s.verifyTile part tile) := by
  have h := State.Accesses.of_lines (checkTile_lines s tile)
  have hinstall : ∀ u : State, u.Accesses (u.installTile tile part) := fun u => State.Accesses.fold _ (fun s i => by
    dsimp only
    split
    · exact ⟨rfl⟩
    · exact .of_lines (insertLine_lines _ _ _ _)) _ u
  have hmap : ∀ u : State, u.Accesses (u.mapGroups (fun h => h.pendTiles.contains tile) fun h => { h with pendTiles := h.pendTiles.filter fun t => t != tile }) := fun u => accesses_groups u _ _
  unfold State.verifyTile
  dsimp only
  split
  · split
    · exact h.trans (hmap _)
    · exact (h.trans (hinstall _)).trans (hmap _)
  · exact h

theorem needVerified_accesses (s : State) (part tile : Nat) : s.Accesses (s.needVerified part tile) := by
  unfold State.needVerified
  split
  · exact .refl s
  · exact verifyTile_accesses s part tile

theorem loadVerified_accesses (s : State) (w : Who) (l : Loc) (n : Nat) : s.Accesses (s.loadVerified w l n).2 := by
  unfold State.loadVerified
  dsimp only
  split
  · split
    · exact ⟨rfl⟩
    · exact ((needVerified_accesses s _ _).trans (.of_lines (touch_lines _ _ _))).trans ⟨rfl⟩
  · exact .refl s

theorem poke_accesses (s : State) (l : Loc) (bs : List Byte) : s.Accesses (s.poke l bs) := by
  unfold State.poke
  cases l.space with
  | hbm => dsimp only; split <;> exact ⟨rfl⟩
  | acc q t => dsimp only; split <;> exact ⟨rfl⟩
  | regs c k =>
    dsimp only
    split
    · split <;> exact putGroup_accesses _ _
    · exact .refl s
  | host | peer d | spad c => exact ⟨rfl⟩

theorem pokeStore_accesses (s : State) (l : Loc) (bs : List Byte) : s.Accesses (s.pokeStore l bs) := by
  unfold State.pokeStore
  split
  · split
    · exact poke_accesses s l bs
    · refine State.Accesses.fold _ (fun s i => ?_) _ s
      split
      · exact .refl s
      · exact poke_accesses _ _ _
  · exact poke_accesses s l bs

theorem markDirty_accesses (s : State) (a : Nat) : s.Accesses (s.markDirty a) := by
  unfold State.markDirty
  split
  · exact .refl s
  · exact ⟨rfl⟩

theorem markConflicts_accesses (s : State) (uid : Option Nat) (l : Loc) : s.Accesses (markConflicts s uid l) := accesses_groups s _ _

theorem storeAt_accesses (s : State) (w : Who) (uid : Option Nat) (plain : Bool) (l : Loc) (bs : List Byte) : s.Accesses (s.storeAt w uid plain l bs) := by
  have h := pokeStore_accesses s l bs
  unfold State.storeAt
  generalize s.pokeStore l bs = u at h ⊢
  have hm : ∀ m : MemState, u.Accesses { u with mem := m } → s.Accesses (markConflicts (State.markDirty { u with mem := m } l.addr) uid l) := fun m k =>
    (h.trans k).trans ((markDirty_accesses _ _).trans (markConflicts_accesses _ _ _))
  dsimp only
  split
  · have ht := (hm ((u.mem.stir l bs.length).tick.l1Write w plain l.addr bs) ⟨by rfl⟩).trans (.of_lines (touch_lines _ w (l.addr / 128)))
    split
    · exact ht.trans (.of_lines (writeback_lines _ _))
    · exact ht.trans ⟨by rfl⟩
  · exact (h.trans (u := { u with mem := u.mem.stir l bs.length }) ⟨by rfl⟩).trans (markConflicts_accesses _ _ _)
  · exact h.trans ⟨by rfl⟩

theorem storeRun_accesses (s : State) (w : Who) (l : Loc) (bs : List Byte) : s.Accesses (s.storeRun w l bs) :=
   State.Accesses.fold (fun (s : State) (p : Nat × List Byte) => s.storeAt w none false ⟨l.space, p.1⟩ p.2) (fun s p => storeAt_accesses s w none false ⟨l.space, p.1⟩ p.2) _ s

theorem rmwAt_accesses (s : State) (w : Who) (uid : Option Nat) (l : Loc) (n : Nat) (f : Nat → Nat) : s.Accesses (s.rmwAt w uid l n f).2 :=
  (loadVerified_accesses s w l n).trans (storeAt_accesses _ w uid false l _)

theorem translated_accesses (s : State) (a n : Nat) : s.Accesses (s.translated a n) := by
  unfold State.translated
  split
  · exact .refl s
  · exact ⟨by rfl⟩

theorem ringStore_accesses (s : State) (p a : Nat) (bs : List Byte) : s.Accesses (s.ringStore p a bs) := (translated_accesses s a _).trans (storeRun_accesses _ _ _ _)

/-- One piece of a read of a ring. -/
def ringPiece (p : Nat) (acc : List Byte × State) (x : Nat × List Byte) : List Byte × State :=
  let r := acc.2.loadVerified (partWho p) (ringLoc x.1) x.2.length
  (acc.1 ++ r.1, r.2)

theorem ringLoad_eq (s : State) (p a n : Nat) : s.ringLoad p a n = (linePieces (n / 128 + 2) a (List.replicate n 0)).foldl (ringPiece p) ([], s.translated a n) := rfl

theorem ringPieces_accesses (p : Nat) (xs : List (Nat × List Byte)) (acc : List Byte × State) : acc.2.Accesses (xs.foldl (ringPiece p) acc).2 := by
  induction xs generalizing acc with
  | nil => exact .refl _
  | cons x xs ih => exact (loadVerified_accesses _ _ _ _).trans (ih (ringPiece p acc x))

theorem ringLoad_accesses (s : State) (p a n : Nat) : s.Accesses (s.ringLoad p a n).2 := by
  rw [ringLoad_eq]
  exact (translated_accesses s a n).trans (ringPieces_accesses p _ ([], s.translated a n))

theorem dirtyLine_accesses (s : State) (p line : Nat) (whole : Bool) : s.Accesses (s.dirtyLine p line whole) := by
  unfold State.dirtyLine
  split
  · exact ⟨by rfl⟩
  · have h := State.Accesses.of_lines (insertLine_lines s line (s.part p).l2ways { dirty := true, part := p, verified := whole || s.mem.tileVerified (line / 32) })
    dsimp only
    split
    · exact h
    · exact h.trans (.of_lines (writeback_lines _ _))

theorem dirtyLines_accesses (s : State) (p lo hi : Nat) : s.Accesses (s.dirtyLines p lo hi) := by
  unfold State.dirtyLines
  dsimp only
  split
  · exact State.Accesses.fold _ (fun s t => .of_lines (writeback_lines s t)) _ s
  · exact State.Accesses.fold _ (fun s l => dirtyLine_accesses s p l _) _ s

theorem bulkStore_accesses (s : State) (p a n : Nat) (cells : Memory) : s.Accesses (s.bulkStore p a n cells) := by
  have key : ∀ m : MemState, s.Accesses { s with mem := m } → s.Accesses (State.dirtyLines (State.conflictRange { s with mem := m } a (a + n)) p (a / 128) (a / 128 + (n + 127) / 128)) :=
    fun m h => (h.trans (accesses_groups _ _ _)).trans (dirtyLines_accesses _ p _ _)
  unfold State.bulkStore
  split
  · exact ⟨by rfl⟩
  · exact key _ ⟨by rfl⟩

theorem zeroFrame_accesses (s : State) (frame : Nat) : s.Accesses (s.zeroFrame frame) := by
  unfold State.zeroFrame
  dsimp only
  refine State.Accesses.trans (t := { s with mem := { s.mem with
    hbm := mclear s.mem.hbm (65536 * frame) (65536 * frame + 65536), l2 := s.mem.l2.filter fun e => e.1 / 512 != frame, l1 := s.mem.l1.filter fun c => c.line / 512 != frame } }) ⟨by rfl⟩ ?_
  refine State.Accesses.fold _ (fun s i => ?_) _ _
  have h := State.Accesses.of_lines (checkPath_lines s (16 * frame + i))
  split
  · exact h.trans (.of_lines (putTile_lines _ _ _))
  · exact h

/-- The tiles of a list checked, from a tile on. -/
def State.checkTiles (src : Nat) (s : State) (l : List Nat) : State := l.foldl (fun s i => (s.checkTile (src + i)).2) s

theorem checkTiles_accesses (src : Nat) (l : List Nat) (s : State) : s.Accesses (s.checkTiles src l) := by
  induction l generalizing s with
  | nil => exact .refl s
  | cons i l ih => exact (State.Accesses.of_lines (checkTile_lines s (src + i))).trans (ih _)

theorem copyFrame_accesses (s : State) (p src dst : Nat) : s.Accesses (s.copyFrame p src dst) := by
  have h := checkTiles_accesses (16 * src) (List.range 16) s
  unfold State.copyFrame
  dsimp only
  split
  · exact h
  · exact h.trans (bulkStore_accesses _ _ _ _ _)

theorem sendPage_accesses (s : State) (dev src dst : Nat) : s.Accesses (s.sendPage dev src dst) := by
  have h := checkTiles_accesses (16 * src) (List.range 16) s
  unfold State.checkTiles at h
  have hpeers : ∀ (u : State) (m : Tbl Memory), u.Accesses { u with mem := { u.mem with peers := m } } := fun _ _ => ⟨rfl⟩
  unfold State.sendPage
  dsimp only
  split
  · exact h
  · exact h.trans (hpeers _ _)

theorem hbmNat_accesses (s : State) (w : Who) (a n : Nat) : s.Accesses (s.hbmNat w a n).2 := loadVerified_accesses s w _ n

theorem walkTable_accesses (w : Who) (va : Nat) (ks : List Nat) (s : State) (t : Nat) : s.Accesses (s.walkTable w va ks t).2 := by
  induction ks generalizing s t with
  | nil => exact .refl s
  | cons k ks ih =>
    unfold State.walkTable
    dsimp only
    split
    · exact hbmNat_accesses s w _ _
    · exact (hbmNat_accesses s w _ _).trans (ih _ _)

theorem findLeaf_accesses (s : State) (w : Who) (va : Nat) : s.Accesses (s.findLeaf w va).2 := by
  have h := walkTable_accesses w va [1, 2, 3] s (s.root w)
  unfold State.findLeaf
  split
  · next e => rw [e] at h; exact h
  · next e =>
    rw [e] at h
    dsimp only
    split
    · exact h.trans (hbmNat_accesses _ w _ _)
    · exact h.trans ((hbmNat_accesses _ w _ _).trans (hbmNat_accesses _ w _ _))

theorem writeEntry_accesses (s : State) (w : Who) (a v : Nat) : s.Accesses (s.writeEntry w a v) := storeRun_accesses s w _ _

/-! ### Page tables and dockets -/

/-- The state t is s but for what accesses change, TLBs, pools and event rings of partitions, checkpoints and messages to the host: what entries of page tables and
dockets change. The clocks of partitions stand. -/
structure State.Enters (s t : State) : Prop where
  eq : t = { s with
    g := t.g, groups := t.groups
    mem := { s.mem with
      hbm := t.mem.hbm, img := t.mem.img, l2 := t.mem.l2, tiles := t.mem.tiles, metas := t.mem.metas, host := t.mem.host, peers := t.mem.peers, spad := t.mem.spad, acc := t.mem.acc
      l1 := t.mem.l1, clock := t.mem.clock, tlb := t.mem.tlb, hostHeld := t.mem.hostHeld, dirtyMap := t.mem.dirtyMap, stirred := t.mem.stirred, alarms := t.mem.alarms, bad := t.mem.bad }
    tabs := { s.tabs with parts := t.tabs.parts }
    work := { s.work with msgs := t.work.msgs }
    plat := { s.plat with ckpts := t.plat.ckpts, msix := t.plat.msix } }
  clocks : ∀ p, ((t.part p).st, (t.part p).time, (t.part p).resuming) = ((s.part p).st, (s.part p).time, (s.part p).resuming)

theorem State.Enters.refl (s : State) : s.Enters s := ⟨rfl, fun _ => rfl⟩

theorem State.Enters.trans {s t u : State} (h : s.Enters t) (k : t.Enters u) : s.Enters u := by
  obtain ⟨k, kc⟩ := k
  have hc := h.clocks
  rw [h.eq] at k
  exact ⟨k, fun p => (kc p).trans (hc p)⟩

theorem State.Enters.fold {α : Type} (f : State → α → State) (h : ∀ (s : State) (a : α), s.Enters (f s a)) (l : List α) (s : State) : s.Enters (l.foldl f s) := by
  induction l generalizing s with
  | nil => exact .refl s
  | cons a l ih => exact (h s a).trans (ih _)

theorem State.Enters.of_accesses {s t : State} (h : s.Accesses t) : s.Enters t := by
  rw [h.eq]
  exact ⟨rfl, fun _ => rfl⟩

theorem setPart_enters (s : State) (p : Nat) (x : Partition) (h : (x.st, x.time, x.resuming) = ((s.part p).st, (s.part p).time, (s.part p).resuming)) : s.Enters (s.setPart p x) := by
  refine ⟨rfl, fun q => ?_⟩
  by_cases hq : q = p
  · rw [hq, part_setPart, h]
  · rw [part_setPart_other s p q x hq]

theorem putCkpt_enters (s : State) (k : Checkpoint) : s.Enters (s.putCkpt k) := ⟨rfl, fun _ => rfl⟩

theorem msix_enters (s : State) (m : List (Nat × Nat)) : s.Enters { s with plat := { s.plat with msix := m } } := ⟨rfl, fun _ => rfl⟩

theorem evWrite_enters (s : State) (pn : Nat) (d : List Byte) : s.Enters (s.evWrite pn d) := by
  have h : ∀ (a b : Nat) (n : W64) (e : List Byte), s.Enters (((s.ringStore pn a (s.stamped pn d)).setPart pn { (s.ringStore pn a (s.stamped pn d)).part pn with evw := n }).ringStore pn b e) := fun a b n e =>
    (State.Enters.trans (.of_accesses (ringStore_accesses s pn a (s.stamped pn d))) (setPart_enters _ pn _ (by rfl))).trans (.of_accesses (ringStore_accesses _ pn b e))
  unfold State.evWrite
  dsimp only
  split
  · exact (h _ _ _ _).trans (msix_enters _ _)
  · exact h _ _ _ _

theorem evDrain_enters (n : Nat) (s : State) (pn : Nat) : s.Enters (State.evDrain n s pn) := by
  induction n generalizing s with
  | zero => exact .refl s
  | succ n ih =>
    unfold State.evDrain
    dsimp only
    split
    · split
      · exact ((setPart_enters s pn _ (by rfl)).trans (evWrite_enters _ pn _)).trans (ih _)
      · exact .refl s
    · exact .refl s

theorem postDocket_enters (s : State) (pn : Nat) (d : List Byte) : s.Enters (s.postDocket pn d) := (setPart_enters s pn _ (by rfl)).trans (evDrain_enters _ _ pn)

theorem docket_enters (s : State) (kind code src pn c : Nat) (payload : List Byte) : s.Enters (s.docket kind code src pn c payload) := postDocket_enters s pn _

theorem clearCow_enters (s : State) (p : Nat) : s.Enters (s.clearCow p) := by
  unfold State.clearCow
  refine State.Enters.fold _ (fun s c => State.Enters.fold _ (fun s e => ?_) _ s) _ s
  split
  · exact .of_accesses (writeEntry_accesses s _ _ _)
  · exact .refl s

theorem endCheckpoint_enters (s : State) (k : Checkpoint) (status : Nat) : s.Enters (s.endCheckpoint k status) := by
  unfold State.endCheckpoint
  exact ((putCkpt_enters s _).trans (setPart_enters _ k.part _ (by rfl))).trans (State.Enters.fold _ (fun s f => .of_accesses (zeroFrame_accesses s f)) _ _)

theorem abandonCheckpoint_enters (s : State) (p : Nat) : s.Enters (s.abandonCheckpoint p) := by
  unfold State.abandonCheckpoint
  split
  · exact clearCow_enters s p
  · exact (((endCheckpoint_enters s _ 4).trans (clearCow_enters _ p)).trans (setPart_enters _ p _ (by rfl))).trans (docket_enters _ _ _ _ _ _ _)

theorem breakTable_enters (s : State) (p frame : Nat) : s.Enters (s.breakTable p frame) := by
  unfold State.breakTable
  split
  · exact .refl s
  · split
    · exact .refl s
    · split
      · exact ((setPart_enters s p _ (by rfl)).trans (.of_accesses (copyFrame_accesses _ _ _ _))).trans (putCkpt_enters _ _)
      · exact abandonCheckpoint_enters s _

theorem setEntry_enters (s : State) (w : Who) (a v : Nat) : s.Enters (s.setEntry w a v) := (breakTable_enters s _ _).trans (.of_accesses (writeEntry_accesses _ w a v))

theorem splitLarge_enters (s : State) (w : Who) (e : LeafEnt) : s.Enters (s.splitLarge w e) := State.Enters.fold _ (fun s _ => setEntry_enters s w _ _) _ s

theorem copyOnWrite_enters (s : State) (w : Who) (e : LeafEnt) : s.Enters (s.copyOnWrite w e) := by
  unfold State.copyOnWrite
  dsimp only
  split
  · exact (((setPart_enters s w.part _ (by rfl)).trans (.of_accesses (copyFrame_accesses _ _ _ _))).trans (putCkpt_enters _ _)).trans (.of_accesses (writeEntry_accesses _ _ _ _))
  · exact abandonCheckpoint_enters s _

theorem breakCow_enters (s : State) (w : Who) (va : Nat) (e : LeafEnt) : s.Enters (s.breakCow w va e) := by
  have h := breakTable_enters s w.part (e.at_ / 65536)
  unfold State.breakCow
  dsimp only
  have hs : s.Enters (if (e.large && ((s.breakTable w.part (e.at_ / 65536)).standing w.part).isSome) = true then (s.breakTable w.part (e.at_ / 65536)).splitLarge w e else s.breakTable w.part (e.at_ / 65536)) := by
    split
    · exact h.trans (splitLarge_enters _ w e)
    · exact h
  have hf := fun u : State => State.Enters.of_accesses (findLeaf_accesses u w va)
  split
  · next hx =>
    have := hs.trans (hf _)
    rw [hx] at this
    split
    · exact this.trans (copyOnWrite_enters _ w _)
    · exact this
  · next hx =>
    have := hs.trans (hf _)
    rw [hx] at this
    exact this

theorem takeLeaf_enters (s : State) (w : Who) (write : Bool) (va : Nat) : s.Enters (s.takeLeaf w write va).2 := by
  have h := State.Enters.of_accesses (findLeaf_accesses s w va)
  have hset : ∀ (b : State) (c : Prop) [Decidable c] (x fr : Nat) (f : Nat → Nat), b.Enters (if c then b else ((b.breakTable w.part fr).rmwAt w none ⟨.hbm, x⟩ 8 f).2) := by
    intro b c _ x fr f
    split
    · exact .refl b
    · exact (breakTable_enters b w.part fr).trans (.of_accesses (rmwAt_accesses _ w none _ 8 f))
  have htlb := fun (b : State) (l : Leaf) => (⟨rfl, fun _ => rfl⟩ : b.Enters { b with mem := b.mem.tlbInstall w l })
  unfold State.takeLeaf
  split
  · next e =>
    rw [e] at h
    exact h
  · next e =>
    rw [e] at h
    split
    · exact h
    · split
      · exact h
      · exact h.trans ((hset _ _ _ _ _).trans (htlb _ _))

theorem enters_ite {α : Type} {s : State} {a b : α × State} (c : Prop) [Decidable c] (ha : s.Enters a.2) (hb : s.Enters b.2) : s.Enters (if c then a else b).2 := by
  split
  · exact ha
  · exact hb

theorem walk_enters (s : State) (w : Who) (kind : AccessKind) (quiet : Bool) (va : Nat) : s.Enters (s.walk w kind quiet va).2 := by
  have h := State.Enters.of_accesses (findLeaf_accesses s w va)
  unfold State.walk
  split
  · next e =>
    rw [e] at h
    exact h
  · next e u hu =>
    rw [hu] at h
    have halarm : u.Enters (u.alarm (.hwError w.part none)) := ⟨rfl, fun _ => rfl⟩
    have hcow : ∀ (c : Prop) [Decidable c], u.Enters (if c then u.breakCow w va e else u) := by
      intro c _
      split
      · exact breakCow_enters u w va e
      · exact .refl u
    refine enters_ite _ h (enters_ite _ (h.trans halarm) (enters_ite _ h (enters_ite _ h (enters_ite _ h (enters_ite _ h ?_)))))
    exact h.trans ((hcow _).trans (takeLeaf_enters _ w _ va))

theorem lookup_enters (s : State) (w : Who) (kind : AccessKind) (va : Nat) : s.Enters (s.lookup w kind va).2 := by
  unfold State.lookup
  split
  · exact .refl s
  · split
    · exact .refl s
    · exact walk_enters s w kind false va

theorem translate_enters (s : State) (g : Group) (kind : AccessKind) (va : Nat) : s.Enters (s.translate g kind va).2 := by
  unfold State.translate
  split
  · exact .refl s
  · exact lookup_enters s _ _ _

end Sys2Proof.Machine
end

section
/-! A group that is woken alone, and the refutation of O53: a refusal is lost where the group's slot is free. -/

namespace Sys2Proof.Machine

open Sys2Proof

theorem wake_lost {s : State} {v : Nat} (h : s.group? v = none) : s.wake v = s := by
  unfold State.wake
  rw [h]

/-- A wait that ends changes its group alone. -/
theorem wake_only {s : State} {uid : Nat} : s.OnlyGroup (s.wake uid) uid := by
  obtain ⟨h1, h2, h3, h4, h5, h6⟩ := wake_units (s := s) (uid := uid)
  refine ⟨h2, h1, h3, h4, h5, congrArg (fun t => t.parts) h6, congrArg (fun t => t.graphs) h6, congrArg (fun t => t.replicas) h6, fun p c => ?_, fun u hu => ?_⟩
  · cases hg : s.group? uid with
    | none => rw [wake_lost hg]
    | some h =>
      have hput : (s.putGroup h.rouse).ctx p c = s.ctx p c := by rw [State.ctx, (putGroup_units s h.rouse).2.1]; rfl
      rw [wake_eq hg]
      split
      · rw [hput]
      · rw [← hput]
        exact (progress_same _ _ _).ctxs p c
  · cases hg : s.group? uid with
    | none => rw [wake_lost hg]
    | some h =>
      have : (s.wake uid).group? u = (s.putGroup h.rouse).group? u := by
        rw [wake_eq hg]
        split <;> rfl
      rw [this, putGroup_others (by rw [rouse_uid, group?_uid hg]; exact hu)]

/-- A group that is not parked or pre-empted stands in its slot once roused. -/
theorem rouse_placed {h : Group} (hp : h.st ≠ .parked) (hq : h.st ≠ .preempted) : h.rouse = { h with st := h.awake, wait := .none } := by
  unfold Group.rouse
  rw [if_neg (by simp [hp, hq])]

/-- A group in a free slot waits for the answer to a page request; the issuing group, in a free slot as well, has its number. -/
def freeAsker : State := { g := { uid := 1 }, groups := [{ uid := 1, wait := .hostPage 5 }] }

/-- The list of refused frames is put back in the issuing group's slot, where no one finds it; the group that wakes has none. -/
theorem freeAsker_unrefused : inNext false (fun t => (t.group? 1).any fun h => h.refused.isEmpty) (exec (.hostPageRequestAnswer 1 false) freeAsker) = true := by decide

/-- Refutes O53: where the group that asked stands in a free slot, and the issuing slot is free under the same number, the refusal is put back in the issuing
slot and then not found; the group wakes without the frame among those refused to it. -/
theorem not_coherenceAndHostSteps : ¬ Obligations.CoherenceAndHostSteps := by
  intro h
  obtain ⟨-, -, hhost, -⟩ := h
  obtain ⟨-, t, ht, hfound, -⟩ := hhost 1 5 freeAsker { uid := 1, wait := .hostPage 5 } rfl rfl (by decide) (by decide) rfl
  have hu := inNext_eq freeAsker_unrefused ht
  rw [hfound] at hu
  exact absurd hu (by decide)

end Sys2Proof.Machine
end

section
/-! What a load reads (O11). -/

namespace Sys2Proof.Machine

open Sys2Proof

section
variable (s : State) (who : Who) (scope : Nat) (stamp : Vers) (l : Loc) (n : Nat)

/-- A load off local HBM reads its memory. -/
theorem loadAt_apart (hs : l.space ≠ .hbm) : s.loadAt who scope stamp l n = (s.peek l n, none, s) := by
  unfold State.loadAt
  split
  · next h => exact absurd h hs
  · rfl

variable (hl : l.inMemory n = true)
include hl

theorem inMemory_bounds (hs : l.space = .hbm) : ¬(Config.hbmBytes < l.addr + n) := by
  simp only [Loc.inMemory, Bool.and_eq_true, Bool.or_eq_true, decide_eq_true_eq] at hl
  rcases hl.2 with h | h
  · simp [hs] at h
  · omega

/-- A line that L1 may serve is read as L1 holds it. -/
theorem loadAt_hit (hs : l.space = .hbm) {c : CacheLine} (hc : s.l1Hit who scope (l.addr / 128) = some c) :
    s.loadAt who scope stamp l n = ((c.bytes.drop (l.addr % 128)).take n, none, s) := by
  have hb := inMemory_bounds l n hl hs
  unfold State.loadAt
  simp only [hs]
  rw [if_neg hb, hc]

/-- Else the line comes from its home, and L1 takes it where its tile is verified. -/
theorem loadAt_miss (hs : l.space = .hbm) (hc : s.l1Hit who scope (l.addr / 128) = none) :
    s.loadAt who scope stamp l n =
      if (s.touch who (l.addr / 128)).mem.tileVerified (l.addr / 128 / 32) then (((s.touch who (l.addr / 128)).l1Install who stamp (l.addr / 128)).peek l n, none, (s.touch who (l.addr / 128)).l1Install who stamp (l.addr / 128))
      else ((s.touch who (l.addr / 128)).peek l n, some (l.addr / 128 / 32), { s.touch who (l.addr / 128) with mem := (s.touch who (l.addr / 128)).mem.dropL1 who (l.addr / 128) }) := by
  have hb := inMemory_bounds l n hl hs
  unfold State.loadAt
  simp only [hs]
  rw [if_neg hb, hc]
end

/-- A line that L1 takes for a context is the home's as it now stands, with the stamp of its fill. -/
theorem l1Install_brings {s : State} {w : Who} {stamp : Vers} {line : Nat} {c : CacheLine} (hc : c ∈ (s.l1Install w stamp line).mem.l1) (hw : c.mine w = true) (hl : c.line = line) :
    c.stamp = stamp ∧ c.bytes = mbytes s.mem.hbm (128 * line) 128 := by
  have hgone : c ∉ (s.mem.dropL1 w line).l1 := fun h => by
    have := (List.mem_filter.mp h).2
    simp [hw, hl] at this
  unfold State.l1Install at hc
  dsimp only at hc
  rcases List.mem_append.mp hc with h | h
  · refine absurd ?_ hgone
    split at h
    · exact h
    · split at h
      · exact List.mem_of_mem_erase h
      · exact h
  · rw [List.mem_singleton.mp h]
    exact ⟨rfl, rfl⟩

theorem dropL1_gone {m : MemState} {w : Who} {line : Nat} {c : CacheLine} (hc : c ∈ (m.dropL1 w line).l1) (hw : c.mine w = true) : c.line ≠ line := fun h => by
  have := (List.mem_filter.mp hc).2
  simp [hw, h] at this

/-- What a load reads, by L1 or home, and what it brings in (R178). -/
theorem loadAt_views (s : State) (who : Who) (scope : Nat) (stamp : Vers) (l : Loc) (n : Nat) (hl : l.inMemory n = true) :
    (l.space ≠ .hbm ∨ s.l1Hit who scope (l.addr / 128) = none → (s.loadAt who scope stamp l n).1 = s.peek l n) ∧
    (l.space = .hbm → ∀ c, s.l1Hit who scope (l.addr / 128) = some c → (s.loadAt who scope stamp l n).1 = (c.bytes.drop (l.addr % 128)).take n) ∧
    (l.space = .hbm → s.l1Hit who scope (l.addr / 128) = none → ∀ c ∈ (s.loadAt who scope stamp l n).2.2.mem.l1, c.mine who = true → c.line = l.addr / 128 →
      c.stamp = stamp ∧ c.bytes = mbytes s.mem.hbm (128 * c.line) 128) := by
  have hm : l.space.isMemory = true := by
    simp only [Loc.inMemory, Bool.and_eq_true] at hl
    exact hl.1
  have htouch := touch_same s who (l.addr / 128)
  refine ⟨fun h => ?_, fun hs c hc => by rw [loadAt_hit s who scope stamp l n hl hs hc], fun hs hmiss c hc hw hline => ?_⟩
  · by_cases hs : l.space = .hbm
    · rw [loadAt_miss s who scope stamp l n hl hs (h.resolve_left fun k => k hs)]
      split
      · exact SameBytes.peek (SameBytes.trans htouch (l1Install_same _ _ _ _)) l n hm
      · exact SameBytes.peek htouch l n hm
    · rw [loadAt_apart s who scope stamp l n hs]
  · rw [loadAt_miss s who scope stamp l n hl hs hmiss] at hc
    split at hc
    · obtain ⟨h1, h2⟩ := l1Install_brings hc hw hline
      exact ⟨h1, by rw [h2, hline, htouch.hbm]⟩
    · exact absurd hline (dropL1_gone hc hw)

/-! ### The answer of a line -/

/-- The request r with its element i read: the value `x`, in the moment `moment`. -/
def Req.read (r : Req) (i : Nat) (e : Elem) (moment x : Nat) : Req := { r with moment := max r.moment moment, elems := r.elems.set i { e with done := true, val := x } }

theorem putReq_req {s : State} {uid rid : Nat} {h : Group} {q r : Req} (hg : s.group? uid = some h) (hr : (h.reqs.find? fun q => q.id == rid) = some q) (hq : r.id = rid) :
    (s.putReq uid r).req? uid rid = some r := by
  have hfound : (s.putReq uid r).group? uid = some { h with reqs := h.reqs.map fun q => if q.id = r.id then r else q } := by
    unfold State.putReq
    rw [mapGroups_found _ _ (fun h => { h with reqs := h.reqs.map fun q => if q.id = r.id then r else q }) (fun _ => rfl) fun _ h => h, hg]
    simp [group?_uid hg]
  unfold State.req?
  rw [hfound, Option.bind_some]
  dsimp only
  rw [find?_map_congr (q := fun q => q.id == rid) _ fun y _ => by split <;> simp_all, hr, Option.map_some]
  have : q.id = r.id := by rw [hq]; simpa using List.find?_some hr
  rw [if_pos this]

/-- A load's answer leaves all but the lines of the caches. -/
theorem loadAt_lines (s : State) (who : Who) (scope : Nat) (stamp : Vers) (l : Loc) (n : Nat) (hl : l.inMemory n = true) : s.Lines (s.loadAt who scope stamp l n).2.2 := by
  by_cases hs : l.space = .hbm
  · cases hc : s.l1Hit who scope (l.addr / 128) with
    | some c => rw [loadAt_hit s who scope stamp l n hl hs hc]; exact State.Lines.refl s
    | none =>
      rw [loadAt_miss s who scope stamp l n hl hs hc]
      split
      · exact (touch_lines s who _).trans (l1Install_lines _ _ _ _)
      · exact (touch_lines s who _).trans ⟨rfl⟩
  · rw [loadAt_apart s who scope stamp l n hs]
    exact State.Lines.refl s

theorem State.Lines.group? {s t : State} (h : s.Lines t) (u : Nat) : t.group? u = s.group? u := by
  rw [h.eq]
  rfl

theorem consume_reqs (h : Group) (tile : Option Nat) : (h.consume tile).reqs = h.reqs ∧ (h.consume tile).uid = h.uid ∧ (h.consume tile).st = h.st := by
  unfold Group.consume
  split
  · split <;> exact ⟨rfl, rfl, rfl⟩
  · exact ⟨rfl, rfl, rfl⟩

/-- A group after an element of a load of its has been read: it has consumed the tile and seen the moment. -/
def Group.answered (h : Group) (tile : Option Nat) (moment late : Nat) : Group := { ((h.consume tile).sees moment) with notBefore := max h.notBefore late }

/-- The landing of an element read: the request of the group holds it. -/
theorem loaded_req {s : State} {uid rid i : Nat} {h : Group} {r : Req} (hg : s.group? uid = some h) (hr : (h.reqs.find? fun q => q.id == rid) = some r) (e : Elem) (moment : Nat)
    (q : List Byte × Option Nat × State) (hq : s.Lines q.2.2) : (State.loaded h r i e moment q).req? uid rid = some (r.read i e moment (leNat q.1)) := by
  have huid := group?_uid hg
  have hfound : ∀ late, (q.2.2.mapGroups (fun x => x.uid == h.uid) fun x => x.answered q.2.1 moment late).group? uid = some (h.answered q.2.1 moment late) := fun late => by
    rw [mapGroups_found _ _ (fun x => x.answered q.2.1 moment late) (fun x => (consume_reqs x q.2.1).2.1) fun x hx => by show (x.consume q.2.1).st ≠ _; rwa [(consume_reqs x q.2.1).2.2],
      hq.group?, hg, Option.map_some, if_pos (by simp)]
  have hid : r.id = rid := by simpa using List.find?_some hr
  unfold State.loaded
  dsimp only
  rw [huid]
  refine putReq_req (q := r) (r := r.read i e moment (leNat q.1)) (huid ▸ hfound _) ?_ hid
  show ((h.consume q.2.1).reqs.find? fun q => q.id == rid) = some r
  rw [(consume_reqs h q.2.1).1, hr]

theorem loaded_same (h : Group) (r : Req) (i : Nat) (e : Elem) (moment : Nat) (q : List Byte × Option Nat × State) : q.2.2.SameBytes (State.loaded h r i e moment q) :=
  SameBytes.of_mem rfl

/-- A load that finds room reads its element: the request holds it, and no byte of any memory changes. -/
theorem readElem_reads {s : State} {uid rid i : Nat} {tokens : Tbl Nat} {h : Group} {r : Req} {e : Elem} (hg : s.group? uid = some h) (hr : (h.reqs.find? fun q => q.id == rid) = some r)
    (hp : e.loc.inMemory e.size = true)
    (hfull : h.tilesFull (s.loadAt h.who r.scope (r.stamp.getD (s.vers h.who)) e.loc e.size).2.1 = false)
    (hroom : (s.loadAt h.who r.scope (r.stamp.getD (s.vers h.who)) e.loc e.size).2.1 = none ∨ h.overPackets = false) :
    s.SameBytes (s.readElem true tokens h r i e) ∧
      (s.readElem true tokens h r i e).req? uid rid = some (r.read i e (s.momentAt h.who r.scope e.loc) (leNat (s.loadAt h.who r.scope (r.stamp.getD (s.vers h.who)) e.loc e.size).1)) := by
  have hsame := loadAt_same s h.who r.scope (r.stamp.getD (s.vers h.who)) e.loc e.size hp
  have hlines := loadAt_lines s h.who r.scope (r.stamp.getD (s.vers h.who)) e.loc e.size hp
  unfold State.readElem
  generalize s.loadAt h.who r.scope (r.stamp.getD (s.vers h.who)) e.loc e.size = q at *
  dsimp only
  rw [hfull, if_neg (by simp), if_neg (by rcases hroom with h | h <;> simp [h])]
  exact ⟨SameBytes.trans (SameBytes.trans hsame (loaded_same h r i e (s.momentAt h.who r.scope e.loc) q)) (SameBytes.of_mem rfl), loaded_req hg hr e _ q hlines⟩

/-- The answer of the line in which a request's one element lies. -/
theorem l2FillReturn_reads {uid rid : Nat} {s : State} {h : Group} {r : Req} {e : Elem} (hp : s.Performable uid rid 0 h r e) (he : r.elems = [e]) (hk : r.kind = .load) (ha : r.acq = false)
    (hs : e.loc.space = .hbm) : ∃ tokens, answer (s.readElem true tokens h r 0 e) = exec (.l2FillReturn uid rid (e.loc.addr / 128)) s := by
  obtain ⟨c, hc⟩ := Option.isSome_iff_exists.mp hp.token
  have hload : s.performElem uid rid 0 = s.readElem true c.units.tokens h r 0 e := by
    unfold State.performElem
    simp only [hp.group, hp.req, hp.elem, hp.todo, hp.there, hp.may, hp.free, hc, hk]
    simp [State.performLoad, ha]
  refine ⟨c.units.tokens, ?_⟩
  show _ = execL2FillReturn uid rid _ s
  unfold execL2FillReturn State.performAll
  simp [hp.group, hp.req, hk, he, hs, hload]

/-- Settles O11, by what `loadAt` answers in each of its cases and how the element lands in its request. -/
theorem loadsReadTheView : Obligations.LoadsReadTheView := by
  unfold Obligations.LoadsReadTheView
  refine ⟨fun uid rid s h r e hp he hk ha hs hbad => ?_, loadAt_views⟩
  dsimp only
  intro hfull hroom
  have hover : (s.loadAt h.who r.scope (r.stamp.getD (s.vers h.who)) e.loc e.size).2.1 = none ∨ h.overPackets = false := by
    refine hroom.imp id fun h => ?_
    rcases h with h | h <;> simp [Group.overPackets, h]
  obtain ⟨tokens, hstep⟩ := l2FillReturn_reads hp he hk ha hs
  obtain ⟨hsame, hreq⟩ := readElem_reads (i := 0) (tokens := tokens) hp.group hp.req hp.place hfull hover
  refine ⟨_, _, hstep.symm.trans (answer_next _ ((hsame.bad).trans hbad)), hreq, ?_, fun x hx => SameBytes.peek hsame x 1 hx⟩
  simp [Req.read, he]

end Sys2Proof.Machine
end

section
/-! Requests of the memory instructions, and the issue of an atomic (O13). -/

namespace Sys2Proof.Machine

open Sys2Proof

theorem begin_replay (g : Group) (w : Word) (ex : Extra) : (g.begin w ex).replay = g.replay := by
  obtain ⟨-, -, -, -, -, -, h, -⟩ := begin_kept g w ex
  exact h

/-- A request as it joins the requests of a group that has read its versions. -/
def Req.joining (r : Req) (s : State) : Req :=
  let r := { r with id := s.g.nextReq, gen := s.g.gen, epoch := s.g.epoch }
  { r with stamp := if r.kind == .load && !r.acq && r.elems.all fun e => s.g.canPerform r e then some (s.vers s.g.who) else none }

/-- The group that a request has joined. -/
def Group.asked (g : Group) (r : Req) : Group := { g with reqs := g.reqs ++ [r], nextReq := g.nextReq + 1 }

/-- A request with elements, none of them on the on-chip map, that finds room among the packets joins its group. -/
theorem issueRequest_joins {s0 s : State} {reach : Reach} {r : Req} (he : r.elems ≠ []) (hmap : ∀ o ∈ reach.ok, o.2.2 ≠ 3) (hroom : s.g.packets < 16 ∨ r.kind = .store ∧ s.g.unver = false) :
    issueRequest s0 s reach r = ({ s with g := s.g.asked (r.joining s) }, reach.flow (some s.g.nextReq)) := by
  have hnone : (reach.ok.filter fun o => o.2.2 == 3).isEmpty = true := by
    rw [List.isEmpty_iff, List.filter_eq_nil_iff]
    exact fun o ho => by simpa using hmap o ho
  have hpack : (decide (16 ≤ s.g.packets) && (r.kind != .store || r.kind != .load && s.g.unver)) = false := by
    rcases hroom with h | ⟨h, h'⟩
    · simp [Nat.not_le.mpr h]
    · simp [h, h']
  unfold issueRequest
  dsimp only
  rw [hnone, hpack, if_neg (by simpa using he), if_neg (by simp), if_neg (by simp)]
  rfl

theorem atomTargets_off (q : Reach) (op : Nat) (t : ElemType) (as : List (Nat × Nat)) : ∀ o ∈ (q.atomTargets op t as).ok, o.2.2 ≠ 3 := fun o ho => by
  have := (List.mem_filter.mp ho).2
  intro h
  simp [h] at this

/-- The request of an atomic. -/
def atomicReq (op : Nat) (l : SetLit) (dest : Bool) (w : Word) (g : Group) (gens : List W32) (hit : Reach) : Req :=
  let ty := l.t1.toNat % 32
  let t := (elemOf ty).getD .n32
  { w.request .atomic (if dest && w.f.d != 255 then .vec w.f.d.toNat (elemPair t) else .none)
      ((hit.elems (elemWidth t / 8) (fun i => (g.readOp l.x.toNat (elemPair t)).getD i 0) fun i => (if op = 7 then g.readOp l.y.toNat (elemPair t) else []).getD i 0).map fun e => { e with draw := (genAt gens e.lane).toNat }) with
    code := op, ty := ty, rm := w.rm g }

/-- The generators after an atomic's draws (log 38). -/
def atomicGens (op : Nat) (l : SetLit) (w : Word) (g : Group) (old : List W32) (hit : Reach) : List W32 :=
  if elemIeee ((elemOf (l.t1.toNat % 32)).getD .n32) && op == 0 && w.rm g == 6 then hit.ok.foldl (fun gs o => gs.set o.1 (drawNext (genAt gs o.1))) (laneNumbers.map (genAt old)) else old

theorem atomic_runs {i : Instr} {w : Word} {op : Nat} {l : SetLit} {dest : Bool} (hw : wordOf i = some w) (ha : atomicOf i = some (op, l, dest)) (s : State) : exec i s = runAtomic op l dest w s := by
  unfold atomicOf at ha
  split at ha <;> cases ha <;> cases hw <;> rfl

/-- The answer of the request of an atomic, with the generators after its draws where its lanes act. -/
def keepsGens (gens : List W32) (res : State × Flow) : State × Flow :=
  match res.2 with
  | .done | .lanes _ _ _ _ => ({ res.1 with g := { res.1.g with gens := gens } }, res.2)
  | f => (res.1, f)

/-- What an atomic's word does once it has begun, its lanes all translating to memory that takes it. -/
theorem atomic_body (op : Nat) (l : SetLit) (dest : Bool) (w : Word) {c : State} {q : Reach × State} (hal : misaligned (elemWidth ((elemOf (l.t1.toNat % 32)).getD .n32) / 8) (w.addresses c.g (c.g.active w.f.pred.toNat)) = none)
    (hq : c.reach .write (w.addresses c.g (c.g.active w.f.pred.toNat)) = q) (hstop : q.1.stop = none) {hit : Reach}
    (hh : q.1.atomTargets op ((elemOf (l.t1.toNat % 32)).getD .n32) (w.addresses c.g (c.g.active w.f.pred.toNat)) = hit) {g : Group}
    (hj : issueRequest c q.2 hit (atomicReq op l dest w c.g (atomicGens op l w c.g q.2.g.gens hit) hit) = ({ q.2 with g := g }, .done)) :
    ∃ body, (∀ s, runAtomic op l dest w s = runWord w {} body s) ∧ body c = ({ q.2 with g := { g with gens := atomicGens op l w c.g q.2.g.gens hit } }, .done) := by
  refine ⟨_, fun _ => rfl, ?_⟩
  dsimp only
  rw [hal]
  dsimp only
  rw [hq, hstop]
  dsimp only
  rw [hh]
  exact congrArg (keepsGens (atomicGens op l w c.g q.2.g.gens hit)) hj

/-- Settles O13: the lanes that translated make one request, which joins the group, and only a stochastic add draws. -/
theorem atomicsIssue : Obligations.AtomicsIssue := by
  unfold Obligations.AtomicsIssue
  intro i w s op l dest hw ha hx
  dsimp only
  intro hal hstop hbad hok hroom hmem
  have hrep : _ = none := (Drift.replay (reach_drift (s.begun w {}) .write (w.addresses (s.begun w {}).g ((s.begun w {}).g.active w.f.pred.toNat)))).trans ((begin_replay s.g w {}).trans (executes_replay hx))
  generalize hb : s.begun w {} = c at *
  generalize hq : c.reach .write (w.addresses c.g (c.g.active w.f.pred.toNat)) = q at *
  generalize hh : q.1.atomTargets op ((elemOf (l.t1.toNat % 32)).getD .n32) (w.addresses c.g (c.g.active w.f.pred.toNat)) = hit at *
  have hjoin := issueRequest_joins (s0 := c) (s := q.2) (reach := hit) (r := atomicReq op l dest w c.g (atomicGens op l w c.g q.2.g.gens hit) hit)
    (by simpa [atomicReq, Word.request, Reach.elems] using hok) (hh ▸ atomTargets_off q.1 op _ _) (.inl hroom)
  rw [Reach.flow, hbad] at hjoin
  obtain ⟨body, he, hbody⟩ := atomic_body op l dest w hal hq hstop hh hjoin
  obtain ⟨t, ht, hd⟩ := body_done w {} body s _ hx ((congrArg body hb).trans hbody) hmem hrep
  have hgens : t.g.gens = atomicGens op l w c.g q.2.g.gens hit := hd.kept.gens
  refine ⟨t, (atomicReq op l dest w c.g (atomicGens op l w c.g q.2.g.gens hit) hit).joining q.2, (atomic_runs hw ha s).trans ((he s).trans ht), ?_, rfl, rfl, ?_, fun hno => hgens.trans ?_⟩
  · rw [hgens]
    exact hd.regroup
  · simp [Req.joining, atomicReq, Word.request, Reach.elems, Function.comp_def]
  · unfold atomicGens
    rw [if_neg (by simpa using hno)]

end Sys2Proof.Machine
end

section
/-! SUPPORT. An agent completes the word in which a group waits. -/

namespace Sys2Proof.Machine

open Sys2Proof

/-- The group h as it goes past the word in which it waits. -/
def Group.gone (h : Group) (r : Resume) : Group :=
  let x := h.releaseAll r.rel
  Group.rouse { x.endReplay with pc := pcBits r.next, dist := x.dist + r.space, lastSpace := r.space, resume := none, assist := none, took := [] }

theorem completeWait_eq {s : State} {uid : Nat} {h : Group} {r : Resume} (hg : s.group? uid = some h) (hr : h.resume = some r) :
    s.completeWait uid = State.grant ((s.putGroup (h.gone r)).progress (h.gone r).part (h.gone r).ctx) (h.gone r).quad := by
  have hp : ∀ x : Group, (x.rouse.part, x.rouse.ctx, x.rouse.quad) = (x.part, x.ctx, x.quad) := fun x => by
    unfold Group.rouse
    split <;> rfl
  unfold State.completeWait
  rw [hg]
  dsimp only
  rw [hr]
  unfold Group.gone
  dsimp only
  obtain ⟨h1, h2⟩ := Prod.mk.inj (hp { (h.releaseAll r.rel).endReplay with pc := pcBits r.next, dist := (h.releaseAll r.rel).dist + r.space, lastSpace := r.space, resume := none, assist := none, took := [] })
  obtain ⟨h2, h3⟩ := Prod.mk.inj h2
  rw [h1, h2, h3]

theorem releaseAll_inreg (g : Group) (ns : List Nat) : (g.releaseAll ns).inreg = g.inreg := by
  have h : ∀ (l : List Nat) (g : Group), (l.foldl Group.releaseV g).region = g.region := fun l => by
    induction l with
    | nil => exact fun _ => rfl
    | cons n l ih => exact fun g => (ih _).trans (by unfold Group.releaseV; split <;> rfl)
  unfold Group.releaseAll Group.inreg
  rw [h]
  simp

/-- A group that goes past its word in its slot. -/
theorem gone_resumed {h : Group} (r : Resume) (hrep : h.replay = none) (hp : h.st ≠ .parked) (hq : h.st ≠ .preempted) : h.Resumed r (h.gone r) ∧ (h.gone r).uid = h.uid ∧ (h.gone r).st = h.awake := by
  obtain ⟨v, rr, he, hv⟩ := releaseAll_fields h r.rel
  have hin := releaseAll_inreg h r.rel
  have hgone : h.gone r = { h with v := v, region := rr, pc := pcBits r.next, dist := h.dist + r.space, lastSpace := r.space, resume := none, assist := none, took := [], st := h.awake, wait := .none } := by
    unfold Group.gone
    rw [he]
    simp only [Group.endReplay, hrep]
    exact rouse_placed hp hq
  rw [he] at hin
  rw [hgone]
  exact ⟨⟨rfl, rfl, rfl, rfl, rfl, hv, rfl, rfl, rfl, rfl, rfl, rfl, hin, ⟨rfl, rfl, rfl, rfl, rfl, rfl, rfl, rfl, rfl, rfl, rfl, rfl⟩, rfl, rfl, rfl⟩, rfl, rfl⟩

theorem servable_waits {s : State} {h : Group} (hs : h.st ≠ .waitAlloc) : s.servable h = false := by
  simp [State.servable, hs]

theorem awake_ne_alloc (g : Group) : g.awake ≠ .waitAlloc := by
  unfold Group.awake
  split <;> simp

/-- The group that waited goes past its word, and all else is as before. -/
theorem completeWait_resumes {s : State} {uid : Nat} {h : Group} {r : Resume} (hw : s.Waits uid h r) : s.Resumes (s.completeWait uid) uid h r := by
  obtain ⟨hg, hr, hrep, hp, hq, -⟩ := hw
  obtain ⟨hres, huid, hst⟩ := gone_resumed r hrep hp hq
  have hid : (h.gone r).uid = uid := huid.trans (group?_uid hg)
  obtain ⟨h1, h2, h3, h4, h5⟩ := putGroup_units s (h.gone r)
  have hput : s.OnlyGroup (s.putGroup (h.gone r)) uid := ⟨h1, putGroup_mem s _, h3, h4, h5, by rw [h2], by rw [h2], by rw [h2], fun p c => by rw [State.ctx, h2]; rfl,
    fun u hu => by rw [putGroup_others (by rw [hid]; exact hu)]⟩
  have hfound : (s.putGroup (h.gone r)).group? uid = some (h.gone r) := by
    have := putGroup_found (s := s) (h := h.gone r) (x := h) (by rw [hid]; exact hg) (by rw [hst]; exact awake_ne_free h)
    rwa [hid] at this
  rw [completeWait_eq hg hr]
  generalize s.putGroup (h.gone r) = u at hput hfound
  have hsame := SameUnits.trans (progress_same u (h.gone r).part (h.gone r).ctx) (grant_same (u.progress (h.gone r).part (h.gone r).ctx) (h.gone r).quad)
  have hgrant : ∀ v, (State.grant (u.progress (h.gone r).part (h.gone r).ctx) (h.gone r).quad).group? v = (u.group? v).map fun x => if x.quad == (h.gone r).quad && (u.progress (h.gone r).part (h.gone r).ctx).servable x then { x with st := x.awake } else x :=
    fun v => grant_found _ _ v
  refine ⟨⟨_, ?_, hres⟩, ⟨?_, ?_, ?_, ?_, ?_, ?_, ?_, ?_, ?_, fun v hv => ?_⟩⟩
  · rw [hgrant, hfound, Option.map_some, servable_waits (by rw [hst]; exact awake_ne_alloc h), Bool.and_false, if_neg (by simp)]
  · exact hsame.sched.trans hput.sched
  · exact hsame.mem.trans hput.mem
  · exact hsame.work.trans hput.work
  · exact hsame.units.trans hput.units
  · exact hsame.plat.trans hput.plat
  · exact hsame.parts.trans hput.parts
  · exact hsame.graphs.trans hput.graphs
  · exact hsame.replicas.trans hput.replicas
  · exact fun p c => (hsame.ctxs p c).trans (hput.ctxs p c)
  · rw [hgrant, ← hput.others v hv, Option.map_map]
    cases u.group? v with
    | none => rfl
    | some x =>
      simp only [Option.map_some, Function.comp]
      split <;> rfl

/-! ### Waits on memory (R162) -/

/-- The group h is g but for its pages, requests and tiles and what it has seen. -/
def Group.Reads (g h : Group) : Prop := ∃ lp r pt rq se nb, h = { g with lastPage := lp, region := r, pendTiles := pt, reqs := rq, seen := se, notBefore := nb }

/-- The issuing group has only read. -/
structure State.Reads (s t : State) : Prop where
  g : s.g.Reads t.g

theorem State.Reads.of_drift {s t : State} (h : s.Drift t) : s.Reads t := by
  obtain ⟨lp, r, pt, h⟩ := h.g
  exact ⟨lp, r, pt, _, _, _, h⟩

theorem State.Reads.trans {s t u : State} (h : s.Reads t) (k : t.Reads u) : s.Reads u := by
  obtain ⟨lp', r', pt', rq', se', nb', h⟩ := h
  obtain ⟨lp, r, pt, rq, se, nb, k⟩ := k
  exact ⟨lp, r, pt, rq, se, nb, by rw [k, h]⟩

theorem State.Reads.fold {α : Type} {f : State → α → State} (h : ∀ (s : State) (a : α), s.Reads (f s a)) (l : List α) (s : State) : s.Reads (l.foldl f s) := by
  induction l generalizing s with
  | nil => exact .of_drift (Drift.refl s)
  | cons a l ih => exact (h s a).trans (ih _)

theorem mapGroups_reads (s : State) (p : Group → Bool) {f : Group → Group} (hf : ∀ h : Group, h.Reads (f h)) : s.Reads (s.mapGroups p f) := by
  refine ⟨?_⟩
  show s.g.Reads (if _ then _ else _)
  split
  · exact hf s.g
  · exact ⟨_, _, _, _, _, _, rfl⟩

theorem consume_reads (h : Group) (tile : Option Nat) (moment late : Nat) : h.Reads (h.answered tile moment late) := by
  unfold Group.answered Group.consume Group.sees
  split
  · split <;> exact ⟨_, _, _, _, _, _, rfl⟩
  · exact ⟨_, _, _, _, _, _, rfl⟩

theorem loaded_reads (h : Group) (r : Req) (i : Nat) (e : Elem) (moment : Nat) (q : List Byte × Option Nat × State) : q.2.2.Reads (State.loaded h r i e moment q) := by
  unfold State.loaded
  dsimp only
  exact (mapGroups_reads _ _ fun x => consume_reads x _ _ _).trans (mapGroups_reads _ _ fun x => ⟨_, _, _, _, _, _, rfl⟩)

theorem readElem_keeps (s : State) (tokens : Tbl Nat) (h : Group) (r : Req) (i : Nat) (e : Elem) : s.Reads (s.readElem false tokens h r i e) := by
  unfold State.readElem
  dsimp only
  rw [if_neg (by simp)]
  split
  · split
    · exact .of_drift (loadVerified_drift s _ _ _)
    · exact ((State.Reads.of_drift (loadVerified_drift s _ _ _)).trans (loaded_reads h r i e _ (_, none, _))).trans (.of_drift (Drift.of_g rfl))
  · exact ((State.Reads.of_drift (loadAt_drift s _ _ _ _ _)).trans (loaded_reads h r i e _ _)).trans (.of_drift (Drift.of_g rfl))

theorem landFills_keeps (s : State) (w : Who) : s.Reads (s.landFills w) := by
  refine State.Reads.fold (fun s _ => State.Reads.fold (fun s _ => State.Reads.fold (fun s _ => ?_) _ s) _ s) _ s
  split
  · split
    · exact readElem_keeps s _ _ _ _ _
    · exact .of_drift (Drift.refl s)
  · exact .of_drift (Drift.refl s)

theorem raiseVersion_keeps (s : State) (w : Who) (scope : Nat) : s.Reads (s.raiseVersion w scope) := by
  unfold State.raiseVersion
  split
  · exact .of_drift (Drift.refl s)
  · split
    · exact (landFills_keeps s w).trans (.of_drift (bumpVersion_drift _ w scope))
    · exact .of_drift (bumpVersion_drift s w scope)

/-- The acquire of a `kwait` before its read. -/
def State.kwaitRaised (q : State) (scope : Nat) : State := q.raiseVersion q.g.who scope

/-- What a `kwait` reads, the tile behind it and the machine after the read: the tile is verified first where the group's requests would else be more than a save can carry (R304). -/
def State.kwaitLoad (c : State) (scope : Nat) (l : Loc) : List Byte × Option Nat × State :=
  let v := c.loadAt c.g.who scope (c.vers c.g.who) l 8
  if v.2.1.isSome && c.g.overPackets then ((c.loadVerified c.g.who l 8).1, none, (c.loadVerified c.g.who l 8).2) else v

/-- The machine after the read of a `kwait`. -/
def State.kwaitRead (c : State) (scope : Nat) (l : Loc) : State :=
  { (c.kwaitLoad scope l).2.2 with g := (c.kwaitLoad scope l).2.2.g.answered (c.kwaitLoad scope l).2.1 (c.momentAt c.g.who scope l) (c.momentAt c.g.who scope l) }

/-- The load of a `kwait`, for what orders it. -/
def kwaitReq (w : Word) (g : Group) : Req := { w.request .load .none [] with id := g.nextReq, acq := true, epoch := g.epoch }

/-- What a `kwait` does once it may read. -/
theorem kwait_body (f : FForm) {b : State} {o : Nat × Loc × Nat} (ha : (b.g.readK f.a.toNat).toNat % 8 = 0) {q : Reach × State} (hq : b.reachK .read (b.g.readK f.a.toNat).toNat = q)
    (hstop : q.1.stop = none) (hok : q.1.ok = [o]) (hheld : b.windowHeld o.2.1 = false) (hcan : b.g.canPerform (kwaitReq (mkWord shapeKwait f) b.g) { lane := 0, loc := o.2.1, size := 8 } = true)
    {c : State} (hc : q.2.raiseVersion q.2.g.who (mkWord shapeKwait f).scope = c) (hfull : c.g.tilesFull (c.loadAt c.g.who (mkWord shapeKwait f).scope (c.vers c.g.who) o.2.1 8).2.1 = false) :
    ∃ body, (∀ s, exec (.kwait f) s = runWord (mkWord shapeKwait f) {} body s) ∧
      body b = if BitVec.ofNat 64 (leNat (c.kwaitLoad (mkWord shapeKwait f).scope o.2.1).1) = b.g.readK f.b.toNat
        then ({ c.kwaitRead (mkWord shapeKwait f).scope o.2.1 with g := { (c.kwaitRead (mkWord shapeKwait f).scope o.2.1).g with watch := some o.2.1, gage := 0 } }, .retry .waitExt (.kwait (b.kwaitExternal (mkWord shapeKwait f).scope)))
        else ({ c.kwaitRead (mkWord shapeKwait f).scope o.2.1 with g := (c.kwaitRead (mkWord shapeKwait f).scope o.2.1).g.setK 0 f.d.toNat (BitVec.ofNat 64 (leNat (c.kwaitLoad (mkWord shapeKwait f).scope o.2.1).1)) }, .done) := by
  refine ⟨_, fun _ => rfl, ?_⟩
  dsimp only
  rw [if_neg (by simp [ha]), hq, hstop, hok]
  dsimp only
  unfold kwaitReq at hcan
  dsimp only at hcan
  rw [hcan, hheld, if_neg (by simp), hc, if_neg (by rw [hfull]; simp)]
  rfl

theorem kwaitRead_keeps (c : State) (scope : Nat) (l : Loc) : c.Reads (c.kwaitRead scope l) := by
  have hload : c.Drift (c.kwaitLoad scope l).2.2 := by
    unfold State.kwaitLoad
    dsimp only
    split
    · exact loadVerified_drift c _ _ _
    · exact loadAt_drift c _ _ _ _ _
  exact (State.Reads.of_drift hload).trans ⟨consume_reads _ _ _ _⟩

/-- A `kwait` that may read: it goes on with a value that differs from its operand, and else waits. -/
theorem kwait_reads (f : FForm) {s : State} {o : Nat × Loc × Nat} (hx : s.executes (mkWord shapeKwait f) {} = true) (ha : (s.g.readK f.a.toNat).toNat % 8 = 0)
    {q : Reach × State} (hq : (s.begun (mkWord shapeKwait f) {}).reachK .read (s.g.readK f.a.toNat).toNat = q) (hstop : q.1.stop = none) (hok : q.1.ok = [o])
    (hheld : (s.begun (mkWord shapeKwait f) {}).windowHeld o.2.1 = false)
    (hcan : (s.begun (mkWord shapeKwait f) {}).g.canPerform (kwaitReq (mkWord shapeKwait f) (s.begun (mkWord shapeKwait f) {}).g) { lane := 0, loc := o.2.1, size := 8 } = true)
    {c u : State} {x : W64} (hc : q.2.raiseVersion q.2.g.who (mkWord shapeKwait f).scope = c) (hfull : c.g.tilesFull (c.loadAt c.g.who (mkWord shapeKwait f).scope (c.vers c.g.who) o.2.1 8).2.1 = false)
    (hu : c.kwaitRead (mkWord shapeKwait f).scope o.2.1 = u) (hv : BitVec.ofNat 64 (leNat (c.kwaitLoad (mkWord shapeKwait f).scope o.2.1).1) = x) (hbad : u.mem.bad = none) :
    let w := mkWord shapeKwait f
    (x ≠ s.g.readK f.b.toNat → ∃ t, exec (.kwait f) s = .next t ∧ WordDone u t w {} { u.g with k := t.g.k } (w.next s.g.pc) (w.stall + 1) ∧
      (f.d ≠ 0 → ∀ d, s.g.dist ≤ d → t.g.kAt d f.d.toNat = x) ∧ ∀ n, n ≠ f.d.toNat → tget ({} : KReg) t.g.k n = tget {} s.g.k n) ∧
    (x = s.g.readK f.b.toNat → ∃ t, exec (.kwait f) s = .next t ∧ t.g.st = .waitExt ∧ t.g.wait = .kwait ((s.begun w {}).kwaitExternal w.scope) ∧ t.g.watch = some o.2.1 ∧ t.g.pc = s.g.pc ∧ t.g.k = s.g.k) := by
  intro w
  have hread : ∀ n, (s.begun w {}).g.readK n = s.g.readK n := begin_readK s.g w {}
  have hu' : (s.begun w {}).Reads u := ((State.Reads.of_drift (hq ▸ reachK_drift _ _ _)).trans (hc ▸ raiseVersion_keeps q.2 _ _)).trans (hu ▸ kwaitRead_keeps c _ _)
  have hkeep : u.g.k = s.g.k ∧ u.g.pc = s.g.pc ∧ u.g.replay = s.g.replay := by
    obtain ⟨lp, r, pt, rq, se, nb, h⟩ := hu'.g
    obtain ⟨hk, -, -, -, -, -, hrep, -, hpc, -⟩ := begin_kept s.g w {}
    rw [h]
    exact ⟨hk, hpc, hrep⟩
  obtain ⟨hk, hpc, hrep⟩ := hkeep
  obtain ⟨body, he, hb⟩ := kwait_body f (b := s.begun w {}) (by rw [hread]; exact ha) (by rw [hread]; exact hq) hstop hok hheld hcan hc hfull
  rw [hread, hu, hv] at hb
  refine ⟨fun hne => ?_, fun heq => ?_⟩
  · rw [if_neg hne] at hb
    obtain ⟨t, ht, hd, hsame, hval⟩ := answered (he s) hx hb hbad (hrep.trans (executes_replay hx))
    exact ⟨t, ht, hd, fun hn d _ => hval (by bv_omega) d, fun n hn => (hsame n (by simpa using hn)).trans (by rw [hk])⟩
  · rw [if_pos heq] at hb
    obtain ⟨t, ht, -, hg⟩ := body_retries hx hb hbad
    refine ⟨t, (he s).trans ht, ?_⟩
    rw [hg]
    exact ⟨rfl, rfl, rfl, hpc, hk⟩

/-! ### Sleeps and wakes -/

/-- The wake of a group leaves the others as they are. -/
theorem wake_others {s : State} {u v : Nat} (hu : u ≠ v) : (s.wake v).group? u = s.group? u := by
  cases hg : s.group? v with
  | none => rw [wake_lost hg]
  | some h =>
    have hput : (s.putGroup h.rouse).group? u = s.group? u := putGroup_others (by rw [rouse_uid, group?_uid hg]; exact hu)
    rw [wake_eq hg]
    split
    · exact hput
    · exact hput

theorem ksleep_done (f : FForm) {s : State} (hx : s.executes (mkWord shapeKsleep f) {} = true) (hn : s.g.readK f.a.toNat = 0) :
    let w := mkWord shapeKsleep f
    ∃ t, exec (.ksleep f) s = .next t ∧ WordDone s t w {} s.g.aged (w.next s.g.pc) (w.stall + 1) := by
  intro w
  exact aged_done w _ s s hx rfl (by dsimp only; rw [begun_g, begin_readK, if_pos hn]; rfl) (executes_sound hx)

theorem ksleep_waits (f : FForm) {s : State} (hx : s.executes (mkWord shapeKsleep f) {} = true) (hn : s.g.readK f.a.toNat ≠ 0) :
    let w := mkWord shapeKsleep f
    ∃ t, exec (.ksleep f) s = .next t ∧ s.SameUnits t ∧ t.g.st = .waitExt ∧ t.g.wait = .sleep (BitVec.ofNat 64 (min (s.time.toNat + (s.g.readK f.a.toNat).toNat) (2 ^ 64 - 1))) ∧ t.g.pc = s.g.pc ∧
      t.g.resume = some ⟨w.next s.g.pc, w.stall + 1, w.releases {}⟩ := by
  intro w
  have htime : (s.begun w {}).time = s.time := by
    obtain ⟨v, r, u, h, -⟩ := begin_fields s.g w {}
    rw [State.time, begun_g, h]
    rfl
  obtain ⟨-, -, -, -, -, -, -, -, hpc, -⟩ := begin_kept s.g w {}
  obtain ⟨body, he, hb⟩ : ∃ body, (∀ s, exec (.ksleep f) s = runWord w {} body s) ∧
      body (s.begun w {}) = (s.begun w {}, .wait .waitExt (.sleep (BitVec.ofNat 64 (min (s.time.toNat + (s.g.readK f.a.toNat).toNat) (2 ^ 64 - 1))))) := by
    refine ⟨_, fun _ => rfl, ?_⟩
    dsimp only
    rw [begun_g, begin_readK, if_neg hn, htime]
  generalize BitVec.ofNat 64 (min (s.time.toNat + (s.g.readK f.a.toNat).toNat) (2 ^ 64 - 1)) = d at *
  have hbad : (s.begun w {}).mem.bad = none := executes_sound (s := s) hx
  obtain ⟨t, ht, hsame, hg⟩ := body_waits_as hx hb hbad
  refine ⟨t, (he s).trans ht, SameUnits.trans (SameUnits.of_g s _) hsame, ?_⟩
  rw [hg]
  exact ⟨rfl, rfl, hpc, rfl⟩

/-- A run of wakes: a group among them is roused, in whatever order. -/
theorem wakes_found {h : Group} (hp : h.st ≠ .parked) (hq : h.st ≠ .preempted) (l : List Group) {s : State} (hg : s.group? h.uid = some h ∧ h ∈ l ∨ s.group? h.uid = some h.rouse) :
    (l.foldl (fun s x => s.wake x.uid) s).group? h.uid = some h.rouse := by
  induction l generalizing s with
  | nil => exact hg.resolve_left fun hn => by cases hn.2
  | cons x l ih =>
    rw [List.foldl_cons]
    by_cases hx : x.uid = h.uid
    · refine ih (.inr ?_)
      rw [hx]
      rcases hg with ⟨hg, -⟩ | hg
      · exact wake_found hg
      · rw [wake_found hg, rouse_placed hp hq, rouse_placed (by unfold Group.awake; split <;> simp) (by unfold Group.awake; split <;> simp)]
        rfl
    · have hsame : (s.wake x.uid).group? h.uid = s.group? h.uid := wake_others fun e => hx e.symm
      refine ih ?_
      rw [hsame]
      refine hg.imp_left fun hn => ⟨hn.1, (List.mem_cons.mp hn.2).resolve_left fun e => hx (by rw [e])⟩

/-- A write to the watched line has the read made again. -/
theorem stirWakes_wakes {s : State} {uid : Nat} {h : Group} {e : Bool} {l : Loc} (hg : s.group? uid = some h) (hwait : h.wait = .kwait e) (hwatch : h.watch = some l) (hp : h.st ≠ .parked) (hq : h.st ≠ .preempted)
    (hhit : (s.mem.stirred.any fun x => lineTouched l x.1 x.2) = true) : s.stirWakes.group? uid = some { h with st := if h.sup then .handler else .ready, wait := .none } := by
  have hne : s.mem.stirred.isEmpty = false := by
    cases hl : s.mem.stirred with
    | nil => rw [hl] at hhit; cases hhit
    | cons _ _ => rfl
  have huid := group?_uid hg
  subst huid
  refine Eq.trans ?_ (congrArg some (rouse_placed hp hq))
  unfold State.stirWakes
  rw [hne, if_neg (by simp)]
  refine wakes_found hp hq _ (.inl ⟨hg, List.mem_filter.mpr ⟨List.mem_of_find?_eq_some hg, ?_⟩⟩)
  rw [hwait, hwatch]
  simpa using hhit

/-- Settles O22: `ksleep` by its two flows, `kwait` by `kwait_reads`, and the wakes by what a completed wait and a word that issues again leave. -/
theorem sleepsAndWaits : Obligations.SleepsAndWaits := by
  unfold Obligations.SleepsAndWaits
  refine ⟨fun f w s hw hx => ?_, fun uid s h r d hw hsleep hd => ?_, fun f w s o hw hx => ?_, fun uid s h e hg hwait hp hq hbad => ?_, fun uid s h e l hg _ hwait hwatch hp hq hhit => ?_⟩
  · cases hw
    exact ⟨ksleep_done f hx, ksleep_waits f hx⟩
  · have hres := completeWait_resumes hw
    refine ⟨_, ?_, hres⟩
    show answer _ = _
    rw [hw.group]
    dsimp only
    rw [hsleep]
    dsimp only
    rw [if_pos hd]
    exact answer_next _ (hres.rest.mem ▸ hw.sound)
  · cases hw
    exact fun ha hstop hok hheld hcan hfull hbad => kwait_reads f hx ha rfl hstop hok hheld hcan rfl hfull rfl rfl hbad
  · refine ⟨s.wake uid, ?_, (wake_found hg).trans (congrArg some (rouse_placed hp hq)), wake_only⟩
    show answer _ = _
    rw [hg]
    dsimp only
    rw [hwait]
    exact answer_next _ (by rw [(wake_only (s := s) (uid := uid)).mem]; exact hbad)
  · exact stirWakes_wakes hg hwait hwatch hp hq hhit

end Sys2Proof.Machine
end

section
/-! O35: `qpop` and `qpop.try` (R343). -/

namespace Sys2Proof.Machine

open Sys2Proof

/-! ### Reads of rings and shelves leave the issuing group -/

theorem ringPieces_drift (p : Nat) (xs : List (Nat × List Byte)) (acc : List Byte × State) : acc.2.Drift (xs.foldl (ringPiece p) acc).2 := by
  induction xs generalizing acc with
  | nil => exact Drift.refl _
  | cons x xs ih => exact Drift.trans (loadVerified_drift _ _ _ _) (ih (ringPiece p acc x))

theorem ringLoad_drift (s : State) (p a n : Nat) : s.Drift (s.ringLoad p a n).2 := by
  rw [ringLoad_eq]
  exact Drift.trans (translated_drift s a n) (ringPieces_drift p _ ([], s.translated a n))

theorem readShelf_drift (gidx : Nat) (e : QueueEnt) (rs : List Rec) (s : State) : s.Drift (s.readShelf gidx e rs).2 := by
  induction rs generalizing s with
  | nil => exact Drift.refl s
  | cons r rs ih =>
    unfold State.readShelf
    split
    · exact Drift.trans (ringLoad_drift s _ _ _) (ih _)
    · exact ih s

theorem ringEntries_drift (p : Nat) (e : QueueEnt) (n i : Nat) (s : State) : s.Drift (s.ringEntries p e n i).2 := by
  induction n generalizing i s with
  | zero => exact Drift.refl s
  | succ n ih => exact Drift.trans (ringLoad_drift s _ _ _) (ih (i + 1) _)

theorem popRecs_drift (s : State) (gidx qid n : Nat) : s.Drift (s.popRecs gidx qid n).2 := by
  unfold State.popRecs
  split
  · dsimp only
    refine Drift.trans ?_ (Drift.trans (ringEntries_drift _ _ _ _ _) (Drift.of_g rfl))
    split
    · exact Drift.refl s
    · exact readShelf_drift gidx _ _ s
  · exact Drift.refl s

/-! ### Masks as sets of lanes -/

/-- The sum that a mask of the lanes below n is made of. -/
def laneSum (p : Nat → Bool) (n : Nat) : Nat := (List.range n).foldl (fun acc l => if p l then acc + 2 ^ l else acc) 0

theorem laneSum_succ (p : Nat → Bool) (n : Nat) : laneSum p (n + 1) = if p n then laneSum p n + 2 ^ n else laneSum p n := by
  unfold laneSum
  rw [List.range_succ, List.foldl_append]
  rfl

theorem laneSum_lt (p : Nat → Bool) (n : Nat) : laneSum p n < 2 ^ n := by
  induction n with
  | zero => exact Nat.one_pos
  | succ n ih =>
    rw [laneSum_succ]
    split <;> omega

theorem laneSum_bit (p : Nat → Bool) (n l : Nat) (hl : l < n) : (laneSum p n).testBit l = p l := by
  induction n with
  | zero => omega
  | succ n ih =>
    have hlt := laneSum_lt p n
    rw [laneSum_succ]
    by_cases hn : l = n
    · subst hn
      cases hp : p l with
      | false => rw [if_neg (by simp), Nat.testBit_lt_two_pow hlt]
      | true => rw [if_pos rfl, Nat.add_comm, Nat.testBit_two_pow_add_eq, Nat.testBit_lt_two_pow hlt]; rfl
    · rw [← ih (by omega)]
      split
      · rw [Nat.add_comm, Nat.testBit_two_pow_add_gt (by omega)]
      · rfl

/-- A lane is in the mask of a predicate where the predicate holds of it. -/
theorem getLsbD_maskOf (p : Nat → Bool) {l : Nat} (hl : l < 32) : (maskOf p).getLsbD l = p l := by
  rw [show maskOf p = BitVec.ofNat 32 (laneSum p 32) from rfl, BitVec.getLsbD_ofNat, laneSum_bit p 32 l hl]
  simp [hl]

theorem lanesOf_nodup (m : Mask) : (lanesOf m).Nodup := List.nodup_range.filter _

theorem lanesOf_lt {m : Mask} {l : Nat} (h : l ∈ lanesOf m) : l < 32 := List.mem_range.mp (List.mem_filter.mp h).1

/-- In a pairing of distinct keys, each key finds its own value. -/
theorem find?_zip {α : Type} {xs : List Nat} {ys : List α} (hx : xs.Nodup) {j a : Nat} {b : α} (ha : xs[j]? = some a) (hb : ys[j]? = some b) : ((xs.zip ys).find? fun x => x.1 == a) = some (a, b) := by
  induction xs generalizing ys j with
  | nil => simp at ha
  | cons x xs ih =>
    cases ys with
    | nil => simp at hb
    | cons y ys =>
      obtain ⟨hnot, hnd⟩ := List.nodup_cons.mp hx
      cases j with
      | zero =>
        cases ha
        cases hb
        simp
      | succ j =>
        have hne : x ≠ a := fun e => hnot (e ▸ List.mem_of_getElem? ha)
        rw [List.zip_cons_cons, List.find?_cons_of_neg (by simpa using hne)]
        exact ih hnd ha hb

/-! ### Records in registers -/

/-- The lanes that receive a record. -/
def gotMask (act : Mask) (rs : List Rec) : Mask := maskOf fun l => ((lanesOf act).take rs.length).contains l

/-- The word w of the records, lane by lane. -/
def recLanes (act : Mask) (rs : List Rec) (w : Nat) : Lanes := laneNumbers.map fun l => ((((lanesOf act).zip rs).find? fun x => x.1 == l).map fun x => recWord x.2.data w).getD 0

/-- Registers d on, written with the words of the records. -/
def Group.recordWords (h : Group) (act : Mask) (d words : Nat) (rs : List Rec) : Group :=
  (List.range words).foldl (fun h w => h.writeV 0 (d + w) (maskOf fun l => ((lanesOf act).zip rs).any fun x => x.1 == l) 0xFFFFFFFF (recLanes act rs w)) h

theorem takeRecords_eq (h : Group) (act : Mask) (d m words : Nat) (rs : List Rec) :
    h.takeRecords act d m words rs = (h.recordWords act d words rs).writeM 0 m (maskOf fun l => ((lanesOf act).zip rs).any fun x => x.1 == l) := rfl

theorem zip_any (xs : List Nat) (rs : List Rec) (l : Nat) : ((xs.zip rs).any fun x => x.1 == l) = (xs.take rs.length).contains l := by
  induction xs generalizing rs with
  | nil => simp
  | cons x xs ih =>
    cases rs with
    | nil => simp
    | cons r rs =>
      rw [List.zip_cons_cons, List.any_cons, ih, List.length_cons, List.take_succ_cons, List.contains_cons]
      rw [show (x == l) = (l == x) from Bool.beq_comm]

theorem recordWords_succ (h : Group) (act : Mask) (d n : Nat) (rs : List Rec) :
    h.recordWords act d (n + 1) rs = (h.recordWords act d n rs).writeV 0 (d + n) (maskOf fun l => ((lanesOf act).zip rs).any fun x => x.1 == l) 0xFFFFFFFF (recLanes act rs n) := by
  unfold Group.recordWords
  rw [List.range_succ, List.foldl_append]
  rfl

theorem recordWords_fields (h : Group) (act : Mask) (d n : Nat) (rs : List Rec) : ∃ v, h.recordWords act d n rs = { h with v := v } := by
  induction n with
  | zero => exact ⟨h.v, rfl⟩
  | succ n ih =>
    obtain ⟨v, hv⟩ := ih
    obtain ⟨v', hv'⟩ := writeV_fields (h.recordWords act d n rs) 0 (d + n) (maskOf fun l => ((lanesOf act).zip rs).any fun x => x.1 == l) 0xFFFFFFFF (recLanes act rs n)
    exact ⟨v', by rw [recordWords_succ, hv', hv]⟩

/-- The words written so far leave the registers to come. -/
theorem recordWords_other (h : Group) (act : Mask) (d n m : Nat) (rs : List Rec) (hm : d + n ≤ m) : (h.recordWords act d n rs).vreg m = h.vreg m := by
  induction n with
  | zero => rfl
  | succ n ih =>
    rw [recordWords_succ, writeV_other _ _ _ _ _ _ _ (by omega), ih (by omega)]

/-- What a name reads in a lane of a whole write with no latency. -/
theorem readAt_writeV_now (g : Group) (n : Nat) (mask : Mask) (vals : Lanes) {d l : Nat} (hn : n ≠ 255) (ha : (g.vreg n).alloc = true) (hd : g.dist ≤ d) (hl : l < 32) (hm : mask.getLsbD l = true) :
    laneAt ((g.writeV 0 n mask 0xFFFFFFFF vals).readAt d n) l = laneAt vals l := by
  have hval := laneAt_writeV g 0 n mask 0xFFFFFFFF vals d l hl hn hd
  have hw := unwritten_writeV g 0 n mask 0xFFFFFFFF vals d hn hd ha
  rw [if_pos hm] at hval
  unfold Group.readAt Group.readV
  rw [if_neg hn, show (({ g.writeV 0 n mask 0xFFFFFFFF vals with dist := d } : Group).vreg n) = (g.writeV 0 n mask 0xFFFFFFFF vals).vreg n from rfl, hw, if_neg (by simp), hval, show (0xFFFFFFFF : W32) = BitVec.allOnes 32 from rfl, BitVec.and_allOnes]
  simp

/-- A lane that receives a record reads its words. -/
theorem recordWords_reads (h : Group) (act : Mask) (d n : Nat) (rs : List Rec) (hd : d + n ≤ 255) (ha : ∀ k, k < n → (h.vreg (d + k)).alloc = true) {j k l dd : Nat} {x : Rec} (hk : k < n) (hg : h.dist ≤ dd)
    (hx : rs[j]? = some x) (hl : (lanesOf act)[j]? = some l) : laneAt ((h.recordWords act d n rs).readAt dd (d + k)) l = recWord x.data k := by
  have hlt := lanesOf_lt (List.mem_of_getElem? hl)
  have hfind := find?_zip (lanesOf_nodup act) hl hx
  induction n with
  | zero => omega
  | succ n ih =>
    rw [recordWords_succ]
    by_cases hkn : k = n
    · subst hkn
      obtain ⟨v, hv⟩ := recordWords_fields h act d k rs
      rw [readAt_writeV_now _ _ _ _ (by omega) (by rw [recordWords_other h act d k (d + k) rs (Nat.le_refl _)]; exact ha k hk) (by rw [hv]; exact hg) hlt
        (by rw [getLsbD_maskOf _ hlt]; exact List.any_eq_true.mpr ⟨_, List.mem_of_find?_eq_some hfind, by simp⟩)]
      simp [recLanes, laneAt, laneNumbers, List.getElem?_range hlt, hfind]
    · rw [← ih (by omega) (fun j hj => ha j (by omega)) (by omega)]
      unfold Group.readAt Group.readV
      have := writeV_other (h.recordWords act d n rs) 0 (d + n) (d + k) (maskOf fun l => ((lanesOf act).zip rs).any fun x => x.1 == l) 0xFFFFFFFF (recLanes act rs n) (by omega)
      unfold Group.vreg at this ⊢
      rw [this]

/-! ### The words -/

/-- What `qpop` and `qpop.try` do with the queue of their stage, with lanes active. -/
def qpopBody (wait : Bool) (w : Word) (gr : Graph) (e : QueueEnt) (qu : Queue) (s : State) : State × Flow :=
  let act := s.g.active w.f.pred.toNat
  let m := w.f.b.toNat
  if qu.available e = 0 then
    if wait then (s.putQueue { qu with popWait := qu.popWait ++ [s.g.uid] }, .wait .waitQueue (.pop gr.gidx e.qid act w.f.d.toNat m))
    else ({ s with g := s.g.writeM 0 m 0 }, .done)
  else (s.popInto s.g.uid gr.gidx e.qid act w.f.d.toNat m, .done)

/-- The same with the checks before it (R341, R343). -/
def qpopWord (wait : Bool) (w : Word) (q : Option (Block × Graph × QueueEnt)) (s : State) : State × Flow :=
  match q with
  | none => (s, .trap 0x04 0)
  | some (b, gr, e) =>
    if b.hdr.inq != e.qid || b.hdr.inq = 0xFFFF || (recordNames s.g w.f.d.toNat e.rsize).isNone then (s, .trap 0x04 0)
    else if s.g.active w.f.pred.toNat = 0 then ({ s with g := s.g.writeM 0 w.f.b.toNat 0 }, .done)
    else match s.queue? gr.gidx e.qid with
      | none => (s, .trap 0x04 0)
      | some qu => qpopBody wait w gr e qu s

theorem runQpop_exec (wait : Bool) (w : Word) (s : State) :
    let r := w.record s.g (s.namedQueue s.g w.f.a.toNat)
    runQpop wait w s = runWord w { w := { v := r.1 }, ok := r.2 } (qpopWord wait w (s.namedQueue s.g w.f.a.toNat)) s := rfl

/-- The names of the record that a pop writes. -/
def popExtra (names : List Nat) : Extra := { w := { v := names } }

theorem runQpop_body (wait : Bool) {w : Word} {s : State} {b : Block} {gr : Graph} {e : QueueEnt} {qu : Queue} {names : List Nat} (hq : s.namedQueue s.g w.f.a.toNat = some (b, gr, e))
    (hn : recordNames s.g w.f.d.toNat e.rsize = some names) (hin : b.hdr.inq = e.qid) (hne : b.hdr.inq ≠ 0xFFFF) (hqu : s.queue? gr.gidx e.qid = some qu) :
    ∃ body, runQpop wait w s = runWord w (popExtra names) body s ∧
      body (s.begun w (popExtra names)) = if s.g.active w.f.pred.toNat = 0 then ({ s.begun w (popExtra names) with g := (s.begun w (popExtra names)).g.writeM 0 w.f.b.toNat 0 }, .done)
        else qpopBody wait w gr e qu (s.begun w (popExtra names)) := by
  have he := runQpop_exec wait w s
  rw [hq, record_named hn] at he
  refine ⟨_, he, ?_⟩
  have hguard : (b.hdr.inq != e.qid || decide (b.hdr.inq = 0xFFFF) || (recordNames (s.begun w (popExtra names)).g w.f.d.toNat e.rsize).isNone) = false := by
    rw [begun_g, recordNames_begun, hn, ← hin]
    simp [hne]
  unfold qpopWord
  dsimp only
  rw [hguard, if_neg (by simp), show (s.begun w (popExtra names)).g.active w.f.pred.toNat = s.g.active w.f.pred.toNat from Alike.active (begin_alike s.g w _) _,
    show (s.begun w (popExtra names)).queue? gr.gidx e.qid = some qu from hqu]

theorem popExtra_releases {w : Word} {names : List Nat} (ha : (w.useNames true w.sh.a w.f.a).v = []) (hb : (w.useNames true w.sh.b w.f.b).v = []) (hd : (w.useNames true w.sh.d w.f.d).v = []) :
    w.releases (popExtra names) = [] := by
  simp [Word.releases, ha, hb, hd, popExtra]

/-- A pop without a record: the mask reads 0. -/
theorem pop_empty {w : Word} {s : State} {names : List Nat} {body : State → State × Flow} (hx : s.executes w (popExtra names) = true)
    (hb : body (s.begun w (popExtra names)) = ({ s.begun w (popExtra names) with g := (s.begun w (popExtra names)).g.writeM 0 w.f.b.toNat 0 }, .done)) :
    let c := s.begun w (popExtra names)
    ∃ t, runWord w (popExtra names) body s = .next t ∧ WordDone { s with g := c.g } t w (popExtra names) { c.g with m := t.g.m } (w.next s.g.pc) (w.stall + 1) ∧
      (w.f.b ≠ 0 → ∀ d, s.g.dist ≤ d → t.g.mAt d w.f.b.toNat = 0) := by
  intro c
  obtain ⟨-, -, -, -, -, hdist, hrep, -⟩ := begin_kept s.g w (popExtra names)
  obtain ⟨t, ht, hd⟩ := body_done w _ body s _ hx hb (executes_sound (s := s) hx) (hrep.trans (executes_replay hx))
  have hm : t.g.m = (c.g.writeM 0 w.f.b.toNat 0).m := hd.kept.m
  refine ⟨t, ht, ?_, fun hn d hdd => readM_writeM c.g { t.g with dist := d } 0 _ 0 (by bv_omega) hm (by show (s.g.begin w _).dist + 0 ≤ d; omega)⟩
  rw [hm]
  exact hd.regroup

theorem holdRecs_g (s : State) (blk qid : Nat) (rs : List Rec) : (s.holdRecs blk qid rs).g = s.g := by
  unfold State.holdRecs
  split <;> rfl

theorem correct_g (s : State) (core gidx key : Nat) (db df : Int) : (s.correct core gidx key db df).g = s.g := by
  unfold State.correct State.correctAt
  split <;> rfl

/-- A group that pops has read, and takes the records. -/
theorem popInto_g {s : State} (gidx qid : Nat) (act : Mask) (d m : Nat) {e : QueueEnt} (hst : s.g.st ≠ .free) (he : s.queueEnt gidx qid = some e) :
    ∃ y, s.g.Reads y ∧ (s.popInto s.g.uid gidx qid act d m).g = y.takeRecords act d m (e.rsize / 4) (s.popRecs gidx qid (popcount act)).1 := by
  have hg : s.group? s.g.uid = some s.g := by rw [group?_eq, if_pos ⟨hst, rfl⟩]
  unfold State.popInto
  rw [hg, he]
  dsimp only
  generalize hr : s.popRecs gidx qid (popcount act) = r
  have h1 : s.Reads ((r.2.holdRecs s.g.blk qid r.1).correct s.g.core gidx qid (-(r.1.length : Int)) 0) :=
    .of_drift (Drift.trans (hr ▸ popRecs_drift s gidx qid _) (Drift.of_g ((correct_g _ _ _ _ _ _).trans (holdRecs_g _ _ _ _))))
  have h2 := h1.trans (raiseVersion_keeps _ s.g.who 5)
  generalize ((r.2.holdRecs s.g.blk qid r.1).correct s.g.core gidx qid (-(r.1.length : Int)) 0).raiseVersion s.g.who 5 = u at h2
  have h3 : s.Reads (if (e.kind == 1 || (u.queue? gidx qid).any fun q => !q.granted.isEmpty) = true then u.raiseVersion s.g.who 6 else u) := by
    split
    · exact h2.trans (raiseVersion_keeps u _ 6)
    · exact h2
  generalize (if (e.kind == 1 || (u.queue? gidx qid).any fun q => !q.granted.isEmpty) = true then u.raiseVersion s.g.who 6 else u) = v at h3
  refine ⟨v.g, h3.g, ?_⟩
  obtain ⟨lp, rg, pt, rq, se, nb, hv⟩ := h3.g
  exact if_pos (by rw [hv]; simpa using hst)

theorem readAt_congr {g h : Group} {n : Nat} (hv : g.vreg n = h.vreg n) (d : Nat) : g.readAt d n = h.readAt d n := by
  unfold Group.readAt Group.readV
  unfold Group.vreg at hv ⊢
  dsimp only
  rw [hv]

/-- The registers of a record have been taken when the word begins. -/
theorem popped_alloc {g : Group} {w : Word} {d n k : Nat} {names : List Nat} (hn : recordNames g d n = some names) (hk : k < n / 4) (hd : d + k ≠ 255) : ((g.begin w (popExtra names)).vreg (d + k)).alloc = true := by
  have hmem : d + k ∈ names := by
    unfold recordNames at hn
    dsimp only at hn
    split at hn
    · cases hn
    · cases hn
      exact List.mem_map.mpr ⟨k, List.mem_range.mpr hk, rfl⟩
  rw [begin_vreg, (allocAll_vreg _ _ _).1]
  simp [Word.allWrites, Names.append, popExtra, hmem, hd]

/-- A pop that finds records: its registers and mask read them at once. -/
theorem pop_takes {w : Word} {s : State} {names : List Nat} {body : State → State × Flow} {gidx qid : Nat} {act : Mask} {e : QueueEnt} (hx : s.executes w (popExtra names) = true) (hst : s.g.st ≠ .free)
    (he : s.queueEnt gidx qid = some e) (hn : recordNames s.g w.f.d.toNat e.rsize = some names) (hd : w.f.d.toNat + e.rsize / 4 ≤ 255) (hrel : w.releases (popExtra names) = [])
    (hb : body (s.begun w (popExtra names)) = ((s.begun w (popExtra names)).popInto s.g.uid gidx qid act w.f.d.toNat w.f.b.toNat, .done)) :
    let c := s.begun w (popExtra names)
    let u := c.popInto s.g.uid gidx qid act w.f.d.toNat w.f.b.toNat
    let recs := (c.popRecs gidx qid (popcount act)).1
    u.mem.bad = none →
    ∃ t, runWord w (popExtra names) body s = .next t ∧ WordDone u t w (popExtra names) u.g (w.next s.g.pc) (w.stall + 1) ∧
      (∀ (j : Nat) (x : Rec), (recs : List Rec)[j]? = some x → ∀ l, (lanesOf act)[j]? = some l → ∀ k, k < e.rsize / 4 → ∀ d, s.g.dist ≤ d → laneAt (t.g.readAt d (w.f.d.toNat + k)) l = recWord x.data k) ∧
      (w.f.b ≠ 0 → ∀ d, s.g.dist ≤ d → t.g.mAt d w.f.b.toNat = maskOf fun l => ((lanesOf act).take recs.length).contains l) := by
  intro c u recs hbad
  obtain ⟨v0, r0, u0, hbegin, -⟩ := begin_fields s.g w (popExtra names)
  obtain ⟨y, hy, hug⟩ := popInto_g (s := c) gidx qid act w.f.d.toNat w.f.b.toNat (by show (s.g.begin w _).st ≠ _; rw [hbegin]; exact hst) he
  rw [show c.g.uid = s.g.uid from (begun_place s.g w _).2.2.2.1] at hug
  change u.g = y.takeRecords act w.f.d.toNat w.f.b.toNat (e.rsize / 4) recs at hug
  obtain ⟨lp, rg, pt, rq, se, nb, hyc⟩ := hy
  have hyv : y.v = c.g.v ∧ y.m = c.g.m ∧ y.dist = s.g.dist ∧ y.replay = s.g.replay := by
    rw [hyc]
    exact ⟨rfl, rfl, by show (s.g.begin w _).dist = _; rw [hbegin], by show (s.g.begin w _).replay = _; rw [hbegin]⟩
  obtain ⟨hyv, -, hydist, hyrep⟩ := hyv
  obtain ⟨v, hv⟩ := recordWords_fields y act w.f.d.toNat (e.rsize / 4) recs
  have hfields : u.g = (y.recordWords act w.f.d.toNat (e.rsize / 4) recs).writeM 0 w.f.b.toNat (gotMask act recs) := by
    rw [hug, takeRecords_eq, gotMask]
    exact congrArg _ (congrArg maskOf (funext fun l => zip_any _ _ _))
  obtain ⟨t, ht, hdone⟩ := body_done w _ body s u hx hb hbad (by rw [hfields, hv]; exact hyrep.trans (executes_replay hx))
  refine ⟨t, ht, hdone, fun j x hj l hl k hk d hdd => ?_, fun hb0 d hdd => ?_⟩
  · have hread := recordWords_reads (dd := d) y act w.f.d.toNat (e.rsize / 4) recs hd (fun k hk => ?_) hk (by rw [hydist]; exact hdd) hj hl
    · refine Eq.trans (congrArg (laneAt · l) (readAt_congr ?_ d)) hread
      rw [hdone.kept.names _ (by rw [hrel]; simp), hfields]
      rfl
    · rw [show y.vreg (w.f.d.toNat + k) = c.g.vreg (w.f.d.toNat + k) from congrArg (tget ({} : VReg) · _) hyv]
      exact popped_alloc hn hk (by omega)
  · exact readM_writeM _ { t.g with dist := d } 0 w.f.b.toNat _ (by bv_omega) (hdone.kept.m.trans (congrArg Group.m hfields)) (by rw [hv]; show y.dist + 0 ≤ d; omega)

theorem putQueue_queue {s : State} {gidx qid : Nat} {qu q : Queue} (h : s.queue? gidx qid = some qu) (hg : q.gidx = qu.gidx) (hi : q.qid = qu.qid) : (s.putQueue q).queue? gidx qid = some q := by
  unfold State.queue? at h ⊢
  have hkey := List.find?_some h
  simp only [Bool.and_eq_true, beq_iff_eq] at hkey
  unfold State.putQueue
  dsimp only
  rw [find?_map_congr (q := fun x => x.gidx == gidx && x.qid == qid) _ fun x _ => by split <;> simp_all, h, Option.map_some, if_pos (by simp [hg, hi])]

/-- A pop of an empty queue joins those that wait there. -/
theorem pop_waits {w : Word} {s : State} {names : List Nat} {body : State → State × Flow} {qu : Queue} {gidx qid : Nat} {act : Mask} (hx : s.executes w (popExtra names) = true) (hqu : s.queue? gidx qid = some qu)
    (hb : body (s.begun w (popExtra names)) = ((s.begun w (popExtra names)).putQueue { qu with popWait := qu.popWait ++ [s.g.uid] }, .wait .waitQueue (.pop gidx qid act w.f.d.toNat w.f.b.toNat))) :
    ∃ t, runWord w (popExtra names) body s = .next t ∧ t.g.st = .waitQueue ∧ t.g.wait = .pop gidx qid act w.f.d.toNat w.f.b.toNat ∧ t.g.pc = s.g.pc ∧
      t.queue? gidx qid = some { qu with popWait := qu.popWait ++ [s.g.uid] } := by
  obtain ⟨t, ht, hsame, hst, hwt, hp⟩ := body_waits hx hb (executes_sound (s := s) hx)
  refine ⟨t, ht, hst, hwt, hp.trans (begun_place s.g w _).2.2.2.2, ?_⟩
  rw [State.queue?, hsame.work]
  exact putQueue_queue (q := { qu with popWait := qu.popWait ++ [s.g.uid] }) hqu rfl rfl

/-- Settles O35: both words are `runQpop`, which finds records, or none, or no lane to give them to. -/
theorem popsTakeTheHead : Obligations.PopsTakeTheHead := by
  unfold Obligations.PopsTakeTheHead
  intro i f wait w s b gr e qu names hi hw hq hn hin hne hqu hent
  dsimp only
  intro hx hst hd
  have hword : exec i s = runQpop wait w s ∧ w.f = f ∧ w.releases (popExtra names) = [] := by
    rcases hi with ⟨rfl, rfl⟩ | ⟨rfl, rfl⟩ <;> cases hw <;> exact ⟨rfl, rfl, popExtra_releases rfl rfl rfl⟩
  obtain ⟨he, rfl, hrel⟩ := hword
  obtain ⟨body, hrun, hbody⟩ := runQpop_body wait hq hn hin hne hqu
  rw [he, hrun]
  have huid := (begun_place s.g w (popExtra names)).2.2.2.1
  have hact : (s.begun w (popExtra names)).g.active w.f.pred.toNat = s.g.active w.f.pred.toNat := Alike.active (begin_alike s.g w _) _
  unfold qpopBody at hbody
  dsimp only at hbody
  rw [hact, show (s.begun w (popExtra names)).g.uid = s.g.uid from huid] at hbody
  refine ⟨fun h0 => ?_, fun h0 ha => ?_, fun h0 ha hwait => ?_, fun h0 ha hwait => ?_⟩
  · exact pop_empty hx (hbody.trans (if_pos h0))
  · exact pop_takes hx hst hent hn hd hrel (hbody.trans ((if_neg h0).trans (if_neg ha)))
  · subst hwait
    exact pop_empty hx (hbody.trans ((if_neg h0).trans ((if_pos ha).trans (if_neg (by decide)))))
  · subst hwait
    exact pop_waits hx hqu (hbody.trans ((if_neg h0).trans ((if_pos ha).trans (if_pos rfl))))

end Sys2Proof.Machine
end

section
/-! Results of which some lanes come later, and two results of one word: O15 and O18. -/

namespace Sys2Proof.Machine

open Sys2Proof

/-! ### Runs of register writes -/

theorem writeV_v_congr {g h : Group} (hv : g.v = h.v) (hd : g.dist = h.dist) (lat n : Nat) (mask : Mask) (bits : W32) (vals : Lanes) : (g.writeV lat n mask bits vals).v = (h.writeV lat n mask bits vals).v := by
  unfold Group.writeV
  split
  · exact hv
  · simp only [Group.setVreg, Group.vreg, hv, hd]

theorem writeV_dist (g : Group) (lat n : Nat) (mask : Mask) (bits : W32) (vals : Lanes) : (g.writeV lat n mask bits vals).dist = g.dist := by
  obtain ⟨v, hv⟩ := writeV_fields g lat n mask bits vals
  rw [hv]

theorem putValues_v_congr (ws : List RegWrite) {g h : Group} (hv : g.v = h.v) (hd : g.dist = h.dist) : (g.putValues ws).v = (h.putValues ws).v := by
  induction ws generalizing g h with
  | nil => exact hv
  | cons x ws ih => exact ih (writeV_v_congr hv hd _ _ _ _ _) (by rw [writeV_dist, writeV_dist, hd])

theorem putValues_fields (ws : List RegWrite) (g : Group) : ∃ v, g.putValues ws = { g with v := v } := by
  induction ws generalizing g with
  | nil => exact ⟨g.v, rfl⟩
  | cons x ws ih =>
    obtain ⟨v, hv⟩ := writeV_fields g x.lat x.n x.mask x.bits x.vals
    obtain ⟨v', hv'⟩ := ih (g.writeV x.lat x.n x.mask x.bits x.vals)
    exact ⟨v', hv'.trans (by rw [hv])⟩

/-- The registers after the writes of a word, whose tags are another matter. -/
theorem putWrites_v (ws : List RegWrite) (g : Group) : (g.putWrites ws).v = (g.putValues ws).v := by
  have h : ∀ (ws : List RegWrite) (names : RegWrite → List Nat) (g h : Group), g.v = h.v → g.dist = h.dist →
      (ws.foldl (fun g x => (g.writeV x.lat x.n x.mask x.bits x.vals).untagV (names x) x.mask x.lat) g).v = (h.putValues ws).v := by
    intro ws names
    induction ws with
    | nil => exact fun g h hv _ => hv
    | cons x ws ih => exact fun g h hv hd => ih _ _ (writeV_v_congr hv hd _ _ _ _ _) (by rw [writeV_dist, ← hd]; exact writeV_dist g _ _ _ _ _)
  exact h ws _ g g rfl rfl

theorem writeV_vreg_congr {g h : Group} {n : Nat} (hv : g.vreg n = h.vreg n) (hd : g.dist = h.dist) (x : RegWrite) :
    (g.writeV x.lat x.n x.mask x.bits x.vals).vreg n = (h.writeV x.lat x.n x.mask x.bits x.vals).vreg n := by
  by_cases hn : x.n = n
  · subst hn
    unfold Group.writeV
    split
    · exact hv
    · simp only [vreg_setVreg, if_true, hv, hd]
  · rw [writeV_other _ _ _ _ _ _ _ hn, writeV_other _ _ _ _ _ _ _ hn, hv]

/-- A name holds what the writes of the run that name it leave there. -/
theorem putValues_vreg (ws : List RegWrite) (n : Nat) {g h : Group} (hv : g.vreg n = h.vreg n) (hd : g.dist = h.dist) : (g.putValues ws).vreg n = (h.putValues (ws.filter fun x => x.n == n)).vreg n := by
  induction ws generalizing g h with
  | nil => exact hv
  | cons x ws ih =>
    rw [List.filter_cons]
    split
    · exact ih (writeV_vreg_congr hv hd x) (by rw [writeV_dist, writeV_dist, hd])
    · next hn => exact ih ((writeV_other _ _ _ _ _ _ _ (by simpa using hn)).trans hv) (by rw [writeV_dist, hd])

theorem putValues_append (ws vs : List RegWrite) (g : Group) : (g.putValues ws).putValues vs = g.putValues (ws ++ vs) := List.foldl_append.symm

/-- A name of which some lanes are written first and the others of the mask after them reads as if they were written together. -/
theorem wrote_twice (g b h : Group) (lat n : Nat) (mask t : Mask) (bits : W32) (vals : Lanes) (hn : n ≠ 255) (hd : b.dist = g.dist)
    (ha : (b.vreg n).alloc = true) (hv : ∀ d, (b.vreg n).value d = if (g.vreg n).alloc then (g.vreg n).value d else zeroLanes)
    (hh : h.vreg n = ((b.writeV lat n (mask &&& ~~~t) bits vals).writeV lat n (mask &&& t) bits vals).vreg n) : g.Wrote h lat n mask bits vals := by
  have hd1 := writeV_dist b lat n (mask &&& ~~~t) bits vals
  have hfirst := wrote_of g b (b.writeV lat n (mask &&& ~~~t) bits vals) lat n (mask &&& ~~~t) bits vals hn hd ha hv rfl
  have ha1 : ((b.writeV lat n (mask &&& ~~~t) bits vals).vreg n).alloc = true := by
    unfold Group.writeV
    rw [if_neg hn, vreg_setVreg, if_pos rfl, alloc_settle]
    exact (alloc_settle _ _).trans ha
  have hsecond := wrote_of (b.writeV lat n (mask &&& ~~~t) bits vals) (b.writeV lat n (mask &&& ~~~t) bits vals) h lat n (mask &&& t) bits vals hn rfl ha1 (fun d => by rw [if_pos ha1]) hh
  intro d l hdl hl
  have hheld : (b.writeV lat n (mask &&& ~~~t) bits vals).held d n l = laneAt ((b.writeV lat n (mask &&& ~~~t) bits vals).readAt d n) l := by
    unfold Group.held Group.readAt Group.readV
    rw [if_pos ha1, if_neg hn, show (({ b.writeV lat n (mask &&& ~~~t) bits vals with dist := d } : Group).vreg n) = (b.writeV lat n (mask &&& ~~~t) bits vals).vreg n from rfl,
      unwritten_writeV b lat n _ bits vals d hn (by omega) ha]
    rfl
  rw [hsecond d l (by omega) hl, hheld, hfirst d l hdl hl, BitVec.getLsbD_and, BitVec.getLsbD_and, BitVec.getLsbD_not, decide_eq_true hl]
  cases mask.getLsbD l <;> cases t.getLsbD l <;> simp

/-! ### The names of one result -/

/-- The write of a result to its own name, and to the next. -/
def VecRes.low (r : VecRes) (m : Mask) : RegWrite := ⟨r.lat, r.n, m, BitVec.ofNat 32 r.bits, (outVals r.outs).map (BitVec.ofNat 32)⟩
def VecRes.high (r : VecRes) (m : Mask) : RegWrite := ⟨r.lat, r.n + 1, m, BitVec.ofNat 32 (r.bits / 2 ^ 32), (outVals r.outs).map fun x => BitVec.ofNat 32 (x / 2 ^ 32)⟩

theorem writes_eq (r : VecRes) (mask : Mask) (hn : r.n ≠ 255) : r.writes mask = r.low (outMask r.outs &&& mask) :: if r.pair then [r.high (outMask r.outs &&& mask)] else [] := by
  unfold VecRes.writes
  rw [if_neg hn]
  rfl

theorem writes_low (r : VecRes) (mask : Mask) (hn : r.n ≠ 255) : (r.writes mask).filter (fun x => x.n == r.n) = [r.low (outMask r.outs &&& mask)] := by
  rw [writes_eq r mask hn]
  split <;> simp [VecRes.low, VecRes.high]

theorem writes_high (r : VecRes) (mask : Mask) (hn : r.n ≠ 255) (hp : r.pair = true) : (r.writes mask).filter (fun x => x.n == r.n + 1) = [r.high (outMask r.outs &&& mask)] := by
  rw [writes_eq r mask hn, if_pos hp]
  simp [VecRes.low, VecRes.high]

/-- A result whose lanes outside t are written first, and those of t after them, stands. -/
theorem stands_twice {g b h : Group} {r : VecRes} {t : Mask} (hd : b.dist = g.dist) (hp : r.pair = true → r.n ≠ 254)
    (ha : r.n ≠ 255 → ∀ n, n ≠ 255 → (n = r.n ∨ r.pair = true ∧ n = r.n + 1) → (b.vreg n).alloc = true ∧ ∀ d, (b.vreg n).value d = if (g.vreg n).alloc then (g.vreg n).value d else zeroLanes)
    (hh : r.n ≠ 255 → ∀ n, n ≠ 255 → (n = r.n ∨ r.pair = true ∧ n = r.n + 1) → h.vreg n = (b.putValues (r.writes (~~~t) ++ r.writes t)).vreg n) : r.Stands g h := by
  intro hn
  refine ⟨?_, fun hpair => ?_⟩
  · obtain ⟨h1, h2⟩ := ha hn r.n hn (.inl rfl)
    refine wrote_twice g b h r.lat r.n (outMask r.outs) t _ _ hn hd h1 h2 ?_
    rw [hh hn r.n hn (.inl rfl), putValues_vreg _ r.n rfl rfl, List.filter_append, writes_low r _ hn, writes_low r _ hn]
    rfl
  · have hne : r.n + 1 ≠ 255 := by have := hp hpair; omega
    obtain ⟨h1, h2⟩ := ha hn (r.n + 1) hne (.inr ⟨hpair, rfl⟩)
    refine wrote_twice g b h r.lat (r.n + 1) (outMask r.outs) t _ _ hne hd h1 h2 ?_
    rw [hh hn (r.n + 1) hne (.inr ⟨hpair, rfl⟩), putValues_vreg _ (r.n + 1) rfl rfl, List.filter_append, writes_high r _ hn hpair, writes_high r _ hn hpair]
    rfl

/-! ### The assist routine (R94) -/

/-- The lanes of a result that are left to the assist routine. -/
def VecRes.tinyMask (r : VecRes) : Mask := maskOf fun l => r.outs.any fun o => o.lane == l && o.tiny

/-- What the assist routine is left to do. -/
def VecRes.assisting (r : VecRes) (gens : List W32) : Assist :=
  { mask := r.tinyMask, vs := r.writes r.tinyMask, flags := outFlags (r.outs.filter fun o => r.tinyMask.getLsbD o.lane), gens := outGens gens r.outs }

/-- The group of a word whose flagged lanes the assist routine has yet to write. -/
def Group.assisted (g : Group) (r : VecRes) : Group :=
  let x := ((g.putWrites (r.writes (~~~r.tinyMask))).setFlags (outFlags (r.outs.filter fun o => !r.tinyMask.getLsbD o.lane))).untagResults [r] r.tinyMask
  { x with assist := some (r.assisting g.gens) }

theorem tinyMask_ne {r : VecRes} (hl : ∀ o ∈ r.outs, o.lane < 32) (h : r.plain = false) : r.tinyMask ≠ 0 := by
  obtain ⟨o, ho, ht⟩ := List.all_eq_false.mp h
  intro h0
  have := getLsbD_maskOf (fun l => r.outs.any fun o => o.lane == l && o.tiny) (hl o ho)
  rw [show maskOf _ = r.tinyMask from rfl, h0, show (r.outs.any fun x => x.lane == o.lane && x.tiny) = true from List.any_eq_true.mpr ⟨o, ho, by simpa using ht⟩] at this
  simp at this

theorem putResults_assisted {s : State} {r : VecRes} (hl : ∀ o ∈ r.outs, o.lane < 32) (h : r.plain = false) (hok : s.plat.assistOk = true) :
    putResults s [r] = ({ s with g := s.g.assisted r }, .assist) := by
  have h0 := tinyMask_ne hl h
  unfold VecRes.tinyMask at h0
  simp only [putResults, List.flatMap_cons, List.flatMap_nil, List.append_nil, List.foldl_cons, List.foldl_nil, hok, if_neg h0, if_true, Bool.or_true]
  rfl

theorem outFlags_from (os : List LaneOut) (x : W64) : os.foldl (fun acc o => acc ||| o.flags) x = x ||| outFlags os := by
  unfold outFlags
  induction os generalizing x with
  | nil => simp
  | cons a os ih =>
    rw [List.foldl_cons, List.foldl_cons, ih, ih (0 ||| a.flags)]
    simp [BitVec.or_assoc]

theorem outFlags_cons (o : LaneOut) (os : List LaneOut) : outFlags (o :: os) = o.flags ||| outFlags os := by
  refine (outFlags_from os (0 ||| o.flags)).trans ?_
  simp

/-- The flags of a list are those of any part of it and of the rest. -/
theorem outFlags_split (p : LaneOut → Bool) (os : List LaneOut) : outFlags (os.filter fun o => !p o) ||| outFlags (os.filter p) = outFlags os := by
  induction os with
  | nil => simp [outFlags]
  | cons o os ih =>
    rw [outFlags_cons, ← ih]
    cases hp : p o with
    | true =>
      rw [List.filter_cons_of_neg (by simp [hp]), List.filter_cons_of_pos (by simp [hp]), outFlags_cons]
      ac_rfl
    | false =>
      rw [List.filter_cons_of_pos (by simp [hp]), List.filter_cons_of_neg (by simp [hp]), outFlags_cons]
      ac_rfl

theorem assisted_eq (g : Group) (r : VecRes) :
    ∃ rg, g.assisted r = { g with v := (g.putValues (r.writes (~~~r.tinyMask))).v, region := rg, mode := g.mode ||| (outFlags (r.outs.filter fun o => !r.tinyMask.getLsbD o.lane) &&& 0xF800), assist := some (r.assisting g.gens) } := by
  obtain ⟨v, rg, hput, -⟩ := putWrites_fields (r.writes (~~~r.tinyMask)) g
  rw [← putWrites_v]
  unfold Group.assisted
  rw [hput]
  exact ⟨_, rfl⟩

/-- The assist routine writes what it is left: every lane of the result stands written, and its flags and draws take effect. -/
theorem finishAssist_of {x g : Group} {r : VecRes} (ha : x.assist = some (r.assisting g.gens)) (hv : x.v = (g.putValues (r.writes (~~~r.tinyMask))).v) (hd : x.dist = g.dist)
    (hm : x.mode = g.mode ||| (outFlags (r.outs.filter fun o => !r.tinyMask.getLsbD o.lane) &&& 0xF800)) :
    x.finishAssist = { x with v := (g.putValues (r.writes (~~~r.tinyMask) ++ r.writes r.tinyMask)).v, mode := g.mode ||| (outFlags r.outs &&& 0xF800), gens := outGens g.gens r.outs, assist := none } := by
  obtain ⟨v1, h1⟩ := putValues_fields (r.writes (~~~r.tinyMask)) g
  obtain ⟨v', hv'⟩ := putValues_fields (r.writes r.tinyMask) x
  have hlast : v' = (g.putValues (r.writes (~~~r.tinyMask) ++ r.writes r.tinyMask)).v := by
    rw [← putValues_append, ← putValues_v_congr (g := x) _ hv (by rw [hd, h1]), hv']
  have hmode : x.mode ||| ((r.assisting g.gens).flags &&& 0xF800) = g.mode ||| (outFlags r.outs &&& 0xF800) := by
    rw [hm, ← outFlags_split (fun o => r.tinyMask.getLsbD o.lane) r.outs, BitVec.or_assoc]
    congr 1
    ext j
    simp [VecRes.assisting, Bool.and_or_distrib_right]
  unfold Group.finishAssist
  rw [ha]
  dsimp only
  rw [show (r.assisting g.gens).vs = r.writes r.tinyMask from rfl, hv', ← hlast, Group.setFlags]
  dsimp only
  rw [hmode]
  rfl

/-- The group of a word that waits for its assist routine. -/
def Group.assistWait (g : Group) (w : Word) (next : W64) : Group :=
  { g with st := .waitStall, wait := .assist, word0 := w.w0, word1 := w.w1, gage := 0, stall := w.stall, resume := some ⟨next, w.stall + 1, w.releases {}⟩ }

theorem body_assists {w : Word} {body : State → State × Flow} {s b : State} (hx : s.executes w {} = true) (hb : body (s.begun w {}) = (b, .assist)) (hm : b.mem.bad = none) :
    ∃ t, runWord w {} body s = .next t ∧ b.SameUnits t ∧ t.g = b.g.assistWait w (w.next s.g.pc) := by
  have hc : s.conclude w {} (b, .assist) = State.issued { b with g := b.g.assistWait w (w.next s.g.pc) } := rfl
  rw [runWord_executes w {} body s hx, hb, hc]
  have hsame := SameUnits.trans (SameUnits.of_g b (b.g.assistWait w (w.next s.g.pc))) (issued_same _)
  exact ⟨_, answer_next _ (by rw [hsame.mem]; exact hm), hsame, issued_g _⟩

/-- The issuing group goes past the word in which it waits. -/
theorem own_completes {t : State} {r : Resume} (hst : t.g.st ≠ .free) (hr : t.g.resume = some r) (hrep : t.g.replay = none) (hp : t.g.st ≠ .parked) (hq : t.g.st ≠ .preempted) :
    t.SameUnits (t.completeWait t.g.uid) ∧ t.g.Resumed r (t.completeWait t.g.uid).g := by
  obtain ⟨hres, huid, hgst⟩ := gone_resumed r hrep hp hq
  have hput : t.putGroup (t.g.gone r) = { t with g := t.g.gone r } := by
    unfold State.putGroup
    rw [if_pos huid.symm]
  have hg : t.group? t.g.uid = some t.g := by rw [group?_eq, if_pos ⟨hst, rfl⟩]
  rw [completeWait_eq hg hr, hput]
  refine ⟨SameUnits.trans (SameUnits.of_g t _) (SameUnits.trans (progress_same _ _ _) (grant_same _ _)), ?_⟩
  rw [grant_awake _ _ (by show (t.g.gone r).st ≠ _; rw [hgst]; exact awake_ne_alloc t.g)]
  exact hres

theorem assistComplete_own {t : State} (hst : t.g.st ≠ .free) (hw : t.g.wait = .assist) (hu : t.g.finishAssist.uid = t.g.uid) :
    exec (.assistComplete t.g.uid) t = answer (State.completeWait { t with g := t.g.finishAssist } t.g.uid) := by
  have hg : t.group? t.g.uid = some t.g := by rw [group?_eq, if_pos ⟨hst, rfl⟩]
  show answer _ = _
  rw [hg]
  dsimp only
  rw [if_pos hw, State.putGroup, if_pos hu.symm]

theorem mem_vecNames {n m : Nat} {pair : Bool} (h : m ≠ 255) (hn : n = m ∨ pair = true ∧ n = m + 1) : n ∈ vecNames m pair := by
  unfold vecNames
  rw [if_neg h]
  rcases hn with rfl | ⟨hp, rfl⟩
  · split <;> simp
  · rw [if_pos hp]; simp

theorem SameSystem.trans {a b c : Group} (h : a.SameSystem b) (k : b.SameSystem c) : a.SameSystem c :=
  ⟨k.1.trans h.1, k.2.trans h.2, k.3.trans h.3, k.4.trans h.4, k.5.trans h.5, k.6.trans h.6, k.7.trans h.7, k.8.trans h.8, k.9.trans h.9, k.10.trans h.10, k.11.trans h.11, k.12.trans h.12⟩

/-- What is kept of a group whose assist routine is done. -/
theorem kept_assisted {x h : Group} {v : Tbl VReg} {m : W64} {gs : List W32} {rel : List Nat} (hk : ({ x with v := v, mode := m, gens := gs, assist := none, took := [] } : Group).Kept h rel) :
    (∀ n, n ∉ rel → h.vreg n = tget {} v n) ∧ h.k = x.k ∧ h.m = x.m ∧ h.m0 = x.m0 ∧ h.mode = m ∧ h.gens = gs ∧ x.SameSystem h := by
  obtain ⟨h1, h2, h3, h4, h5, h6, -, -, ⟨a1, a2, a3, a4, a5, a6, a7, a8, a9, a10, a11, a12⟩, -, -, -⟩ := hk
  exact ⟨h1, h2, h3, h4, h5, h6, ⟨a1, a2, a3, a4, a5, a6, a7, a8, a9, a10, a11, a12⟩⟩

theorem sticky_absorbed (m f : W64) : m ||| (f &&& 0xF800) ||| 0xF800 = m ||| 0xF800 := by
  rw [BitVec.or_assoc]
  congr 1
  ext j
  simp

/-- The waiting group stands where the word found it. -/
theorem assistWait_keeps {g x : Group} {w : Word} {next : W64} (hx : ∃ v rg md a, x = { g.begin w {} with v := v, region := rg, mode := md, assist := a }) :
    let h := x.assistWait w next
    (h.k, h.m, h.m0, h.pc, h.dist, h.sup) = (g.k, g.m, g.m0, g.pc, g.dist, g.sup) ∧ h.uid = g.uid ∧ h.replay = g.replay ∧ g.SameSystem h := by
  obtain ⟨v, rg, md, a, rfl⟩ := hx
  obtain ⟨v0, r0, u0, hbegin, -⟩ := begin_fields g w {}
  rw [hbegin]
  exact ⟨rfl, rfl, rfl, rfl, rfl, rfl, rfl, rfl, rfl, rfl, rfl, rfl, rfl, rfl, rfl⟩

/-- Names that a result does not write are as the word found them. -/
theorem unwritten_kept {g : Group} {w : Word} {r : VecRes} {t : Mask} {n : Nat} (hw : w.writes.v = vecNames r.n r.pair) (hn : n ∉ w.writes.v) :
    ((g.begin w {}).putValues (r.writes (~~~t) ++ r.writes t)).vreg n = g.vreg n := by
  rw [putValues_vreg _ n rfl rfl, List.filter_eq_nil_iff.mpr fun x hx hxn => hn ?_]
  · obtain ⟨v0, r0, u0, hbegin, hv0, -⟩ := begin_fields g w {}
    show tget ({} : VReg) (g.begin w {}).v n = tget {} g.v n
    rw [hbegin]
    exact hv0 n (by simpa [Word.allWrites, Names.append] using hn)
  · obtain ⟨m, hm⟩ : ∃ m, x ∈ r.writes m := (List.mem_append.mp hx).elim (fun h => ⟨_, h⟩) fun h => ⟨_, h⟩
    obtain ⟨h255, hcase⟩ := writes_names r m n (List.mem_map.mpr ⟨x, hm, by simpa using hxn⟩)
    rw [hw]
    exact mem_vecNames h255 hcase

/-- A result's names have their registers when its word begins. -/
theorem result_alloc {g : Group} {w : Word} {r : VecRes} (hw : w.writes.v = vecNames r.n r.pair) (h255 : r.n ≠ 255) {n : Nat} (hn : n ≠ 255) (hcase : n = r.n ∨ r.pair = true ∧ n = r.n + 1) :
    ((g.begin w {}).vreg n).alloc = true ∧ ∀ d, ((g.begin w {}).vreg n).value d = if (g.vreg n).alloc then (g.vreg n).value d else zeroLanes := by
  have hwx : (w.allWrites {}).v = w.writes.v := by simp [Word.allWrites, Names.append]
  obtain ⟨h1, h2⟩ := allocAll_vreg (w.allWrites {}).v g n
  have hal : ((g.allocAll (w.allWrites {}).v).vreg n).alloc = true := by
    rw [h1, hwx, hw]
    simp [mem_vecNames h255 hcase, hn]
  exact ⟨hal, fun d => h2 d hal⟩

/-- The word of a result of which some lane is left to the assist routine: it waits, and is then complete in every lane. -/
theorem result_assisted {w : Word} {body : State → State × Flow} {s : State} {r : VecRes} {q : Option Region} (hx : s.executes w {} = true) (hlat : r.lat = w.lat)
    (hb : body (s.begun w {}) = ({ s.begun w {} with g := ({ s.g.begin w {} with region := q } : Group).assisted r }, .assist))
    (hw : w.writes.v = vecNames r.n r.pair) (hl : w.f.lrd = false) (hp : r.pair = true → r.n ≠ 254) :
    ∃ t u, runWord w {} body s = .next t ∧ t.g.st = .waitStall ∧ t.g.wait = .assist ∧ t.g.pc = s.g.pc ∧ exec (.assistComplete s.g.uid) t = .next u ∧ AssistDone s u w r := by
  obtain ⟨rg, ha⟩ := assisted_eq { s.g.begin w {} with region := q } r
  rw [ha] at hb
  obtain ⟨t, ht, hsame, hg⟩ := body_assists hx hb (executes_sound (s := s) hx)
  have hfin := finishAssist_of (x := t.g) (g := { s.g.begin w {} with region := q }) (r := r) (by rw [hg]; rfl) (by rw [hg]; rfl) (by rw [hg]; rfl) (by rw [hg]; rfl)
  have hv : (({ s.g.begin w {} with region := q } : Group).putValues (r.writes (~~~r.tinyMask) ++ r.writes r.tinyMask)).v = ((s.g.begin w {}).putValues (r.writes (~~~r.tinyMask) ++ r.writes r.tinyMask)).v :=
    putValues_v_congr _ rfl rfl
  rw [hv] at hfin
  obtain ⟨hplace, huid, hrep, hsys⟩ := assistWait_keeps (g := s.g) (w := w) (next := w.next s.g.pc) ⟨_, _, _, _, rfl⟩
  rw [← hg] at hplace huid hrep hsys
  obtain ⟨hk, hm, hm0, hpc, hdist, hsup⟩ : t.g.k = s.g.k ∧ t.g.m = s.g.m ∧ t.g.m0 = s.g.m0 ∧ t.g.pc = s.g.pc ∧ t.g.dist = s.g.dist ∧ t.g.sup = s.g.sup := by simpa using hplace
  have hstall : t.g.st = .waitStall := by rw [hg]; rfl
  obtain ⟨hunits, hres⟩ := own_completes (t := { t with g := t.g.finishAssist }) (r := ⟨w.next s.g.pc, w.stall + 1, w.releases {}⟩) (by rw [hfin]; show t.g.st ≠ _; rw [hstall]; decide)
    (by rw [hfin, hg]; rfl) (by rw [hfin]; exact hrep.trans (executes_replay hx)) (by rw [hfin]; show t.g.st ≠ _; rw [hstall]; decide) (by rw [hfin]; show t.g.st ≠ _; rw [hstall]; decide)
  have hcomplete := assistComplete_own (t := t) (by rw [hstall]; decide) (by rw [hg]; rfl) (by rw [hfin])
  have hF : t.g.finishAssist.uid = t.g.uid := by rw [hfin]
  rw [show ({ t with g := t.g.finishAssist } : State).g.uid = t.g.uid from hF] at hunits hres
  generalize State.completeWait { t with g := t.g.finishAssist } t.g.uid = u at hunits hres hcomplete
  rw [show ({ t with g := t.g.finishAssist } : State).g = t.g.finishAssist from rfl, hfin] at hres
  have hall : s.SameUnits u := SameUnits.trans (SameUnits.of_g s _) (SameUnits.trans hsame (SameUnits.trans (SameUnits.of_g t _) hunits))
  obtain ⟨rpc, rdist, rst, -, -, rkept⟩ := hres
  obtain ⟨hregs, uk, um, um0, umode, ugens, usys⟩ := kept_assisted (x := t.g) rkept
  obtain ⟨-, -, hbmode, hbgens, -⟩ := begin_kept s.g w {}
  rw [show ({ s.g.begin w {} with region := q } : Group).mode = s.g.mode from hbmode] at umode
  rw [show ({ s.g.begin w {} with region := q } : Group).gens = s.g.gens from hbgens] at ugens
  rw [huid] at hcomplete
  refine ⟨t, u, ht, hstall, by rw [hg]; rfl, hpc, hcomplete.trans (answer_next u (by rw [hall.mem]; exact executes_sound hx)), hall, rpc, rdist.trans (congrArg (· + _) hdist), ?_, ?_, ?_, umode, ugens⟩
  · rw [rst]
    exact congrArg (fun x : Bool => if x then SlotState.handler else .ready) hsup
  · rw [← hlat]
    refine stands_twice (b := s.g.begin w {}) (t := r.tinyMask) (begin_alike s.g w {}).dist hp (fun h255 n hn hcase => result_alloc hw h255 hn hcase)
      fun h255 n hn hcase => hregs n (releases_disjoint w n hl (by rw [hw]; exact mem_vecNames h255 hcase))
  · exact ⟨fun n hn hrel => (hregs n hrel).trans (unwritten_kept hw hn), uk.trans hk, um.trans hm, um0.trans hm0, by rw [umode, sticky_absorbed], SameSystem.trans hsys usys⟩

/-! ### Every result lies in lanes -/

theorem laneOut_lane (l w n pos : Nat) (draws : Bool) (gen : W32) (f : Nat → Nat → FRes) : (laneOut l w n pos draws gen f).lane = l := by
  have h : ∀ (is : List Nat) (o : LaneOut), (is.foldl (fun o i =>
      let gen := if draws then drawNext o.gen else o.gen
      let r := f i gen.toNat
      { o with val := o.val + r.bits % 2 ^ w * 2 ^ (w * (pos + i)), flags := o.flags ||| r.flags, gen := gen, tiny := o.tiny || r.tiny }) o).lane = o.lane := by
    intro is
    induction is with
    | nil => exact fun _ => rfl
    | cons i is ih => exact fun o => ih _
  exact h _ _

/-- Outs made of the active lanes, each for its own. -/
theorem map_inLanes {act : Mask} {f : Nat → LaneOut} (hf : ∀ l, (f l).lane = l) : ∀ o ∈ (lanesOf act).map f, o.lane < 32 := by
  intro o ho
  obtain ⟨l, hl, rfl⟩ := List.mem_map.mp ho
  rw [hf]
  exact lanesOf_lt hl

theorem chain_inLanes (k : Nat) (t : ElemType) (rm : Nat) (g : Group) (vals : List Nat) (lanes : List Nat) : ∀ o ∈ (chain k t rm g vals lanes).outs, o.1 ∈ lanes := by
  have h : ∀ (ls : List Nat) (c : Chain) (f : Chain → Nat → Chain), (∀ c l, ∀ o ∈ (f c l).outs, o ∈ c.outs ∨ o.1 = l) → ∀ o ∈ (ls.foldl f c).outs, o ∈ c.outs ∨ o.1 ∈ ls := by
    intro ls
    induction ls with
    | nil => exact fun c f _ o ho => .inl ho
    | cons l ls ih =>
      intro c f hf o ho
      rcases ih (f c l) f hf o ho with hm | hm
      · rcases hf c l o hm with hc | hc
        · exact .inl hc
        · exact .inr (hc ▸ List.mem_cons_self)
      · exact .inr (List.mem_cons_of_mem l hm)
  intro o ho
  refine (h lanes { gens := laneNumbers.map (genAt g.gens) } _ (fun c l o ho => ?_) o ho).resolve_left (by simp)
  dsimp only at ho
  split at ho
  · exact .inr (by rw [List.mem_singleton.mp ho])
  · exact (List.mem_append.mp ho).imp_right fun e => by rw [List.mem_singleton.mp e]

theorem result_inLanes {i : Instr} {w : Word} {body : Group → Mask → VecRes} (hb : floatResult i w = some body ∨ moveResult i w = some body) (g : Group) (act : Mask) : ∀ o ∈ (body g act).outs, o.lane < 32 := by
  rcases hb with hb | hb
  · unfold floatResult at hb
    split at hb <;> cases hb <;> exact map_inLanes fun l => laneOut_lane _ _ _ _ _ _ _
  · unfold moveResult at hb
    split at hb <;> cases hb
    case h_11 | h_12 =>
      intro o ho
      obtain ⟨x, hx, rfl⟩ := List.mem_map.mp ho
      exact lanesOf_lt (chain_inLanes _ _ _ _ _ _ x hx)
    all_goals exact map_inLanes fun _ => rfl

/-- A vector word with one result of which some lane is left to the assist routine. -/
theorem runVector_assisted {w : Word} {body : Group → Mask → VecRes} {s : State} (hx : s.executes w {} = true)
    (hc : ∀ g', s.g.Alike g' → body g' (s.g.active w.f.pred.toNat) = body s.g (s.g.active w.f.pred.toNat))
    (hplain : (body s.g (s.g.active w.f.pred.toNat)).plain = false) (hl : ∀ o ∈ (body s.g (s.g.active w.f.pred.toNat)).outs, o.lane < 32) (hok : s.plat.assistOk = true)
    (hw : w.writes.v = vecNames (body s.g (s.g.active w.f.pred.toNat)).n (body s.g (s.g.active w.f.pred.toNat)).pair) (hlrd : w.f.lrd = false)
    (hp : (body s.g (s.g.active w.f.pred.toNat)).pair = true → (body s.g (s.g.active w.f.pred.toNat)).n ≠ 254) :
    ∃ t u, runVector w body s = .next t ∧ t.g.st = .waitStall ∧ t.g.wait = .assist ∧ t.g.pc = s.g.pc ∧ exec (.assistComplete s.g.uid) t = .next u ∧
      AssistDone s u w (body s.g (s.g.active w.f.pred.toNat)) := by
  have hact : (s.begun w {}).g.active w.f.pred.toNat = s.g.active w.f.pred.toNat := Alike.active (begin_alike s.g w {}) _
  have hal : s.g.Alike ((s.g.begin w {}).concreteReads w (s.g.active w.f.pred.toNat)) := Alike.trans (begin_alike s.g w {}) (concreteReads_alike _ _ _)
  unfold runVector
  obtain ⟨t, u, ht, hst, hwt, hpc, hu, ⟨h1, h2, h3, h4, h5, h6, h7, h8⟩⟩ := result_assisted (w := w) (s := s) (r := { body s.g (s.g.active w.f.pred.toNat) with lat := w.lat })
    (q := (((s.g.begin w {}).concreteReads w (s.g.active w.f.pred.toNat)).concreteKept (body s.g (s.g.active w.f.pred.toNat))).region)
    (body := fun s =>
      let act := s.g.active w.f.pred.toNat
      let g := s.g.concreteReads w act
      let r := body g act
      putResults { s with g := g.concreteKept r } [{ r with lat := w.lat }]) hx rfl (by
      simp only [hact]
      rw [show ∀ m, (s.begun w {}).g.concreteReads w m = (s.g.begin w {}).concreteReads w m from fun _ => rfl, hc _ hal, concreteKept_eq]
      exact putResults_assisted hl hplain hok) hw hlrd hp
  exact ⟨t, u, ht, hst, hwt, hpc, hu, h1, h2, h3, h4, h5, h6, h7, h8⟩

/-- Settles O15: of the words with one result, those whose lanes may be flagged run as `runVector`; a permute's lanes never are. -/
theorem assistedWords : Obligations.AssistedWords := by
  unfold Obligations.AssistedWords
  intro i w s body hw hb hwf hx hplain hok _
  have hform : ∃ sh, shape i = some sh ∧ oneVector sh = true ∧ exec i s = runVector w body s ∧ (∀ g act, (body g act).n = w.f.d.toNat ∧ (body g act).pair = (vecD sh && codePair w.f.xf.toNat)) ∧
      ∀ g', s.g.Alike g' → body g' (s.g.active w.f.pred.toNat) = body s.g (s.g.active w.f.pred.toNat) := by
    rcases hb with hb | hb
    · obtain ⟨sh, hs, hO, he, hf⟩ := float_exec i w s body hw hb
      exact ⟨sh, hs, hO, he, hf, fun _ e => floatResult_congr i w body hb e _⟩
    · obtain ⟨sh, hs, hO, ⟨lanes, f, -, -, rfl⟩ | ⟨he, hf⟩⟩ := move_exec i w s body hw hb
      · rw [show (permResult w f s.g (s.g.active w.f.pred.toNat)).plain = true from mapped_plain _ _ _ _ _ _ fun _ => rfl] at hplain
        cases hplain
      · exact ⟨sh, hs, hO, he, hf, fun _ e => moveResult_congr i w body hb e _⟩
  obtain ⟨sh, hs, hO, he, hf, hc⟩ := hform
  obtain ⟨h1, h2, h3⟩ := oneVector_form i w s sh hs hw hwf hx hO
  obtain ⟨hn, hp⟩ := hf s.g (s.g.active w.f.pred.toNat)
  rw [he]
  exact runVector_assisted hx hc hplain (result_inLanes hb _ _) hok (by rw [hn, hp]; exact h1) h2 (by rw [hn, hp]; exact h3)

end Sys2Proof.Machine
end

section
/-! O18: pair words (R52, R53, R54). -/

namespace Sys2Proof.Machine

open Sys2Proof

/-! ### The halves -/

theorem half_result {h : PHalf} {g : Group} {r : VecRes} (hr : halfResult h g = some r) :
    ∃ p, halfWord h = some p ∧ oneVector p.1.sh = true ∧ p.1.f.d = h.d ∧ r.n = h.d.toNat ∧ (r.pair = elemPair p.1.type ∨ r.pair = false) := by
  obtain ⟨p, hp, rfl⟩ := Option.map_eq_some_iff.mp hr
  refine ⟨p, hp, ?_⟩
  obtain ⟨op, stall, pred, d, s, lrs, lrd, xf2⟩ := h
  cases op <;> cases hp
  case vmov | vmovImm => exact ⟨rfl, rfl, rfl, .inr rfl⟩
  all_goals exact ⟨rfl, rfl, rfl, .inl rfl⟩

theorem intCode_single (x : BitVec 2) : codePair (BitVec.ofNat 5 x.toNat).toNat = false := by
  revert x
  decide

theorem floatCode_single (x : BitVec 2) (h : x ≠ 3) : codePair (BitVec.ofNat 5 (8 + x.toNat)).toNat = false := by
  revert x
  decide

/-- No half acts on register pairs (R52). -/
theorem half_single {h : PHalf} {p : Word × Option IntOp} (hok : halfOk h = true) (hp : halfWord h = some p) : codePair p.1.f.xf.toNat = false := by
  obtain ⟨q, hq, rfl⟩ := Option.map_eq_some_iff.mp hp
  show codePair (BitVec.ofNat 5 (pairType h)).toNat = false
  obtain ⟨op, stall, pred, d, s, lrs, lrd, xf2⟩ := h
  unfold halfOk at hok
  cases op
  case vfadd | vfsub | vfmul | vfmin | vfmax =>
    simp only [pairXfOk, Bool.and_eq_true, reduceCtorEq, if_false, bne_iff_ne] at hok
    exact floatCode_single xf2 hok.1.1
  case vand | vor | vxor | vandn | vandImm | vmov | vmovImm => rfl
  all_goals exact intCode_single xf2

theorem half_name {h : PHalf} {g : Group} {r : VecRes} (hok : halfOk h = true) (hr : halfResult h g = some r) :
    r.n = h.d.toNat ∧ r.pair = false ∧ ∃ p, halfWord h = some p ∧ p.1.writes.v = vecNames h.d.toNat false := by
  obtain ⟨p, hp, hone, hd, hn, hpair⟩ := half_result hr
  have hs := half_single hok hp
  refine ⟨hn, hpair.elim (fun e => e.trans ((type_pair p.1).trans (by rw [hs]; rfl))) id, p, hp, ?_⟩
  rw [oneVector_writes _ hone, hs, hd, Bool.and_false]

theorem halfResult_congr (h : PHalf) {g k : Group} (e : g.Alike k) : halfResult h k = halfResult h g := by
  unfold halfResult
  refine congrArg (Option.map · (halfWord h)) (funext fun p => ?_)
  obtain ⟨w, op⟩ := p
  cases op with
  | some op => simp only [Alike.active e, intResult_congr op w e]
  | none => simp only [Alike.active e, plainResult, elementwise_congr w e, Alike.source e, Alike.operandB e, Word.draws, Alike.rm e, e.mode, e.gens]

theorem half_d_ne {h0 h1 : PHalf} (hp : pairOk h0 h1 = true) (h0p : h0.op ≠ .pnop) (h1p : h1.op ≠ .pnop) (hd : h0.d.toNat ≠ 255) : h1.d.toNat ≠ h0.d.toNat := by
  intro e
  have he : h1.d = h0.d := BitVec.eq_of_toNat_eq e
  have hn : h0.d ≠ 255 := fun hc => hd (by rw [hc]; rfl)
  unfold pairOk at hp
  simp [h0p, h1p, he] at hp
  exact hn hp.1

/-! ### Results side by side -/

/-- Results of which no lane is left to the assist routine are written together, with their flags and draws. -/
theorem putResults_all {s : State} {rs : List VecRes} (h : ∀ r ∈ rs, r.plain = true) :
    putResults s rs = ({ s with g := { (s.g.putWrites (rs.flatMap fun r => r.writes (~~~0#32))).setFlags (outFlags (rs.flatMap VecRes.outs)) with gens := rs.foldl (fun gs r => outGens gs r.outs) s.g.gens } }, .done) := by
  have ht : ∀ o ∈ rs.flatMap VecRes.outs, o.tiny = false := fun o ho => by
    obtain ⟨r, hr, ho⟩ := List.mem_flatMap.mp ho
    simpa using List.all_eq_true.mp (h r hr) o ho
  have h0 : (maskOf fun l => (rs.flatMap VecRes.outs).any fun o => o.lane == l && o.tiny) = 0 := by
    rw [show (fun l : Nat => (rs.flatMap VecRes.outs).any fun o => o.lane == l && o.tiny) = fun _ => false from funext fun l => List.any_eq_false.mpr fun o ho => by simp [ht o ho]]
    rfl
  have hf : ((rs.flatMap VecRes.outs).filter fun o => !(0 : Mask).getLsbD o.lane) = rs.flatMap VecRes.outs := List.filter_eq_self.mpr fun o _ => by simp
  simp only [putResults, h0, if_true, decide_true, Bool.true_or, hf]
  rfl

/-- A result of one name among writes of other names stands. -/
theorem stands_beside {g b h : Group} {r : VecRes} {before after : List RegWrite} (hp : r.pair = false) (hd : b.dist = g.dist) (hb : ∀ x ∈ before, x.n ≠ r.n) (ha : ∀ x ∈ after, x.n ≠ r.n)
    (hal : r.n ≠ 255 → (b.vreg r.n).alloc = true ∧ ∀ d, (b.vreg r.n).value d = if (g.vreg r.n).alloc then (g.vreg r.n).value d else zeroLanes)
    (hh : r.n ≠ 255 → h.vreg r.n = (b.putValues (before ++ r.writes (~~~0#32) ++ after)).vreg r.n) : r.Stands g h := by
  intro hn
  refine ⟨?_, fun e => by rw [hp] at e; cases e⟩
  obtain ⟨h1, h2⟩ := hal hn
  refine wrote_of g b h r.lat r.n (outMask r.outs) _ _ hn hd h1 h2 ?_
  rw [hh hn, putValues_vreg _ r.n rfl rfl, List.filter_append, List.filter_append, writes_low r _ hn, List.filter_eq_nil_iff.mpr fun x hx => by simpa using hb x hx,
    List.filter_eq_nil_iff.mpr fun x hx => by simpa using ha x hx, show (~~~0#32 : Mask) = BitVec.allOnes 32 from rfl, BitVec.and_allOnes]
  rfl

/-! ### The word -/

/-- The results of the halves of a pair word: the second draws after the first. -/
def pairResults (h0 h1 : PHalf) (g : Group) : Option VecRes × Option VecRes :=
  let r0 := halfResult h0 g
  (r0, halfResult h1 { g with gens := match r0 with
    | some r => outGens g.gens r.outs
    | none => g.gens })

/-- The same with the latency of each half. -/
def pairWritten (h0 h1 : PHalf) (q : Option VecRes × Option VecRes) : List VecRes :=
  (q.1.toList.map fun r => { r with lat := halfLat h0 }) ++ q.2.toList.map fun r => { r with lat := halfLat h1 }

theorem pairResults_congr (h0 h1 : PHalf) {g k : Group} (e : g.Alike k) : pairResults h0 h1 k = pairResults h0 h1 g := by
  unfold pairResults
  simp only [halfResult_congr h0 e, e.gens]
  generalize (match halfResult h0 g with
    | some r => outGens g.gens r.outs
    | none => g.gens) = gs
  rw [halfResult_congr h1 (g := { g with gens := gs }) (k := { k with gens := gs }) ⟨e.v, e.m, e.m0, e.k, e.dist, rfl, e.mode, e.wid⟩]

theorem pairWritten_outs (h0 h1 : PHalf) (q : Option VecRes × Option VecRes) : (pairWritten h0 h1 q).flatMap VecRes.outs = (q.1.toList ++ q.2.toList).flatMap VecRes.outs := by
  unfold pairWritten
  rw [List.flatMap_append, List.flatMap_append, List.flatMap_map, List.flatMap_map]

theorem pairWritten_gens (h0 h1 : PHalf) (q : Option VecRes × Option VecRes) (gs : List W32) :
    (pairWritten h0 h1 q).foldl (fun gs r => outGens gs r.outs) gs = (q.1.toList ++ q.2.toList).foldl (fun gs r => outGens gs r.outs) gs := by
  unfold pairWritten
  rw [List.foldl_append, List.foldl_append, List.foldl_map, List.foldl_map]

/-- What a pair word does. -/
def pairBody (h0 h1 : PHalf) (s : State) : State × Flow :=
  let q := putResults s (pairWritten h0 h1 (pairResults h0 h1 s.g))
  ({ q.1 with g := { q.1.g with region := (halfTags h1 (halfTags h0 s.g)).region } }, q.2)

theorem pairWord_exec (h0 h1 : PHalf) (s : State) : exec (.pairWord h0 h1) s = runWord (pairAsWord h0 h1) (pairExtra s.g h0 h1) (pairBody h0 h1) s := rfl

theorem pairBody_plain {h0 h1 : PHalf} {c : State} (h : ((pairWritten h0 h1 (pairResults h0 h1 c.g)).flatMap VecRes.outs).all (fun o => !o.tiny) = true) :
    let rs := pairWritten h0 h1 (pairResults h0 h1 c.g)
    ∃ rg, pairBody h0 h1 c = ({ c with g := { c.g with
      v := (c.g.putValues (rs.flatMap fun r => r.writes (~~~0#32))).v, region := rg, gens := rs.foldl (fun gs r => outGens gs r.outs) c.g.gens, mode := c.g.mode ||| (outFlags (rs.flatMap VecRes.outs) &&& 0xF800) } }, .done) := by
  intro rs
  have hplain : ∀ r ∈ rs, r.plain = true := fun r hr => List.all_eq_true.mpr fun o ho => List.all_eq_true.mp h o (List.mem_flatMap.mpr ⟨r, hr, ho⟩)
  obtain ⟨v, rg, hput, -⟩ := putWrites_fields (rs.flatMap fun r => r.writes (~~~0#32)) c.g
  have hv : v = (c.g.putValues (rs.flatMap fun r => r.writes (~~~0#32))).v := by rw [← putWrites_v, hput]
  refine ⟨(halfTags h1 (halfTags h0 c.g)).region, ?_⟩
  unfold pairBody
  dsimp only
  rw [show pairWritten h0 h1 (pairResults h0 h1 c.g) = rs from rfl, putResults_all hplain, hput, ← hv]
  rfl

theorem mem_writesOf {ws : List Word} {w : Word} {n : Nat} (hw : w ∈ ws) (hn : n ∈ w.writes.v) : n ∈ (ws.foldl (fun n w => n.append w.writes) ({} : Names)).v := by
  have h : ∀ (ws : List Word) (acc : Names), (ws.foldl (fun (n : Names) w => n.append w.writes) acc).v = acc.v ++ ws.flatMap fun w => w.writes.v := fun ws => by
    induction ws with
    | nil => exact fun acc => by simp
    | cons w ws ih => exact fun acc => by rw [List.foldl_cons, ih, List.flatMap_cons, ← List.append_assoc]; rfl
  rw [h]
  exact List.mem_append_right _ (List.mem_flatMap.mpr ⟨w, hw, hn⟩)

/-- The name that a half writes is among those of the pair word. -/
theorem pair_names {h h0 h1 : PHalf} {g : Group} {n : Nat} {p : Word × Option IntOp} (hh : h = h0 ∨ h = h1) (hp : halfWord h = some p) (hw : n ∈ p.1.writes.v) : n ∈ (pairExtra g h0 h1).w.v := by
  refine mem_writesOf (w := p.1) (List.mem_map.mpr ⟨p, List.mem_filterMap.mpr ⟨h, ?_, hp⟩, rfl⟩) hw
  rcases hh with rfl | rfl <;> simp

theorem pair_unreleased {h0 h1 : PHalf} {g : Group} {n : Nat} (hn : n ∈ (pairExtra g h0 h1).w.v) : n ∉ (pairAsWord h0 h1).releases (pairExtra g h0 h1) := by
  unfold Word.releases
  rw [if_neg (show ¬((pairAsWord h0 h1).f.lrd = true) from Bool.false_ne_true), List.append_nil]
  intro h
  have := (List.mem_filter.mp h).2
  simp [hn] at this

/-- A name of a word has its register when the word begins. -/
theorem begun_alloc {g : Group} {w : Word} {ex : Extra} {n : Nat} (hmem : n ∈ ex.w.v) (hn : n ≠ 255) :
    ((g.begin w ex).vreg n).alloc = true ∧ ∀ d, ((g.begin w ex).vreg n).value d = if (g.vreg n).alloc then (g.vreg n).value d else zeroLanes := by
  obtain ⟨h1, h2⟩ := allocAll_vreg (w.allWrites ex).v g n
  have hal : ((g.allocAll (w.allWrites ex).v).vreg n).alloc = true := by
    rw [h1]
    simp [Word.allWrites, Names.append, hmem, hn]
  exact ⟨hal, fun d => h2 d hal⟩

/-- Each result of a pair word is written under a name of its own, which the word has taken. -/
theorem pairWritten_name {h0 h1 : PHalf} {g x y : Group} {r : VecRes} (hok0 : halfOk h0 = true) (hok1 : halfOk h1 = true) (hr : r ∈ (halfResult h0 x).toList ++ (halfResult h1 y).toList) (hn : r.n ≠ 255) :
    r.n ∈ (pairExtra g h0 h1).w.v := by
  rcases List.mem_append.mp hr with h | h
  · obtain ⟨hn', -, p, hp, hw⟩ := half_name hok0 (Option.mem_toList.mp h)
    exact pair_names (.inl rfl) hp (by rw [hw, ← hn']; exact mem_vecNames hn (.inl rfl))
  · obtain ⟨hn', -, p, hp, hw⟩ := half_name hok1 (Option.mem_toList.mp h)
    exact pair_names (.inr rfl) hp (by rw [hw, ← hn']; exact mem_vecNames hn (.inl rfl))

theorem half_op {h : PHalf} {g : Group} {r : VecRes} (hr : halfResult h g = some r) : h.op ≠ .pnop := by
  intro e
  simp [halfResult, halfWord, e, pairShape] at hr

/-- The halves of a pair word write different names (R53). -/
theorem pair_apart {h0 h1 : PHalf} {x y : Group} {r0 r1 : VecRes} (hok0 : halfOk h0 = true) (hok1 : halfOk h1 = true) (hp : pairOk h0 h1 = true) (hr0 : halfResult h0 x = some r0) (hr1 : halfResult h1 y = some r1) :
    r0.pair = false ∧ r1.pair = false ∧ (r0.n ≠ 255 ∨ r1.n ≠ 255 → r0.n ≠ r1.n) := by
  obtain ⟨hn0, hp0, -⟩ := half_name hok0 hr0
  obtain ⟨hn1, hp1, -⟩ := half_name hok1 hr1
  refine ⟨hp0, hp1, fun h e => ?_⟩
  have h255 : h0.d.toNat ≠ 255 := by
    rcases h with h | h
    · rwa [← hn0]
    · rwa [← hn0, e]
  exact half_d_ne hp (half_op hr0) (half_op hr1) h255 (by rw [← hn1, ← hn0, e])

theorem single_names {r : VecRes} {m : Mask} {x : RegWrite} (hp : r.pair = false) (hx : x ∈ r.writes m) : r.n ≠ 255 ∧ x.n = r.n := by
  obtain ⟨h255, hn⟩ := writes_names r m x.n (List.mem_map.mpr ⟨x, hx, rfl⟩)
  exact ⟨h255, hn.resolve_right fun h => by rw [hp] at h; cases h.1⟩

/-- What a half's result writes bears its name. -/
theorem written_names {o : Option VecRes} {lat : Nat} {m : Mask} {x : RegWrite} (hp : ∀ r, o = some r → r.pair = false) (hx : x ∈ (o.toList.map fun r => { r with lat := lat }).flatMap fun r => r.writes m) :
    ∃ r, o = some r ∧ r.n ≠ 255 ∧ x.n = r.n := by
  obtain ⟨y, hy, hx⟩ := List.mem_flatMap.mp hx
  obtain ⟨r, hr, rfl⟩ := List.mem_map.mp hy
  have hr := Option.mem_toList.mp hr
  exact ⟨r, hr, single_names (r := { r with lat := lat }) (hp r hr) hx⟩

/-- Settles O18: the writes of the halves go to different names, so each result stands as if it were alone. -/
theorem pairWords : Obligations.PairWords := by
  unfold Obligations.PairWords
  intro h0 h1 s hwf
  obtain ⟨hok, hpair⟩ := Bool.and_eq_true_iff.mp (show (opcodeOk (.pairWord h0 h1) && pairRuleOk (.pairWord h0 h1)) = true from hwf)
  obtain ⟨hok0, hok1⟩ := Bool.and_eq_true_iff.mp (show (halfOk h0 && halfOk h1) = true from hok)
  change pairOk h0 h1 = true at hpair
  intro w ex r0 r1 outs hx hplain
  have hq : pairResults h0 h1 s.g = (r0, r1) := rfl
  have hal : s.g.Alike (s.begun w ex).g := begin_alike s.g w ex
  have hqc : pairResults h0 h1 (s.begun w ex).g = (r0, r1) := (pairResults_congr h0 h1 hal).trans hq
  have houts : (pairWritten h0 h1 (r0, r1)).flatMap VecRes.outs = outs := pairWritten_outs h0 h1 (r0, r1)
  obtain ⟨rg, hb⟩ := pairBody_plain (h0 := h0) (h1 := h1) (c := s.begun w ex) (by rw [hqc, houts]; exact hplain)
  rw [hqc, houts, pairWritten_gens] at hb
  obtain ⟨hk, hm, hmode, hgens, hm0, hdist, hrep, hsup, -⟩ := begin_kept s.g w ex
  obtain ⟨t, ht, hunits, ⟨ppc, pdist, pstall, pst⟩, ⟨hregs, kk, km, km0, kmode, kgens, -, -, ksys, -⟩⟩ := body_done w ex _ s _ hx hb (executes_sound (s := s) hx) (hrep.trans (executes_replay hx))
  have hnames : ∀ n, n ∈ ex.w.v → t.g.vreg n = ((s.g.begin w ex).putValues ((pairWritten h0 h1 (r0, r1)).flatMap fun r => r.writes (~~~0#32))).vreg n := fun n hn => hregs n (pair_unreleased hn)
  refine ⟨t, (pairWord_exec h0 h1 s).trans ht, SameUnits.trans (SameUnits.of_g s _) hunits, ⟨ppc, pdist.trans (congrArg (· + _) hdist), pstall, pst.trans ?_⟩, fun r hr => ?_, fun r hr => ?_, fun n hn hrel => ?_,
    kk.trans hk, km.trans hm, km0.trans hm0, ?_, kmode.trans (congrArg (· ||| _) hmode), kgens.trans (congrArg (fun gs => (r0.toList ++ r1.toList).foldl (fun gs r => outGens gs r.outs) gs) hgens)⟩
  · exact congrArg (fun b : Bool => if w.stall = 0 then (if b then SlotState.handler else .ready) else .waitStall) hsup
  · obtain ⟨hn, hp, -⟩ := half_name hok0 hr
    have hw : r.n ≠ 255 → r.n ∈ ex.w.v := pairWritten_name (x := s.g) (y := s.g) hok0 hok1 (List.mem_append_left _ (Option.mem_toList.mpr hr))
    refine stands_beside (b := s.g.begin w ex) (before := []) (after := (r1.toList.map fun r => { r with lat := halfLat h1 }).flatMap fun r => r.writes (~~~0#32)) hp hdist (by simp) (fun x hx => ?_)
      (fun h255 => begun_alloc (hw h255) h255) fun h255 => (hnames _ (hw h255)).trans (by simp [pairWritten, hr])
    obtain ⟨z, hz, h255, hxn⟩ := written_names (fun z hz => (half_name hok1 hz).2.1) hx
    rw [hxn]
    exact fun e => (pair_apart hok0 hok1 hpair hr hz).2.2 (.inr h255) e.symm
  · obtain ⟨hn, hp, -⟩ := half_name hok1 hr
    have hw : r.n ≠ 255 → r.n ∈ ex.w.v := pairWritten_name (x := s.g) hok0 hok1 (List.mem_append_right _ (Option.mem_toList.mpr hr))
    refine stands_beside (b := s.g.begin w ex) (before := (r0.toList.map fun r => { r with lat := halfLat h0 }).flatMap fun r => r.writes (~~~0#32)) (after := []) hp hdist (fun x hx => ?_) (by simp)
      (fun h255 => begun_alloc (hw h255) h255) fun h255 => (hnames _ (hw h255)).trans (by simp [pairWritten, hr])
    obtain ⟨z, hz, h255, hxn⟩ := written_names (fun z hz => (half_name hok0 hz).2.1) hx
    rw [hxn]
    exact (pair_apart hok0 hok1 hpair hz hr).2.2 (.inl h255)
  · refine (hregs n hrel).trans ?_
    show ((s.g.begin w ex).putValues _).vreg n = _
    rw [putValues_vreg _ n rfl rfl, List.filter_eq_nil_iff.mpr fun x hx hxn => hn (List.mem_append_right _ ?_)]
    · obtain ⟨v, rr, u, hbegin, hv, -⟩ := begin_fields s.g w ex
      show tget ({} : VReg) (s.g.begin w ex).v n = tget {} s.g.v n
      rw [hbegin]
      exact hv n hn
    · rw [pairWritten, List.flatMap_append] at hx
      rw [← (by simpa using hxn : x.n = n)]
      rcases List.mem_append.mp hx with h | h
      · obtain ⟨z, hz, h255, hxz⟩ := written_names (fun z hz => (half_name hok0 hz).2.1) h
        exact hxz ▸ pairWritten_name hok0 hok1 (y := { s.g with gens := match r0 with
          | some r => outGens s.g.gens r.outs
          | none => s.g.gens }) (List.mem_append_left _ (Option.mem_toList.mpr hz)) h255
      · obtain ⟨z, hz, h255, hxz⟩ := written_names (fun z hz => (half_name hok1 hz).2.1) h
        exact hxz ▸ pairWritten_name hok0 hok1 (x := s.g) (List.mem_append_right _ (Option.mem_toList.mpr hz)) h255
  · exact SameSystem.trans (begin_system s.g w ex) ⟨ksys.1, ksys.2, ksys.3, ksys.4, ksys.5, ksys.6, ksys.7, ksys.8, ksys.9, ksys.10, ksys.11, ksys.12⟩

end Sys2Proof.Machine
end

section
/-! The homes' own steps on queues: credit, forwarding, the shelf, doorbells and ring resets (R318, R322, R331, R334, R398). -/

namespace Sys2Proof.Machine

open Sys2Proof

/-! ### One queue changed -/

theorem queue?_key {s : State} {gidx qid : Nat} {q : Queue} (h : s.queue? gidx qid = some q) : q.gidx = gidx ∧ q.qid = qid := by
  have hkey := List.find?_some h
  simpa using hkey

theorem putQueue_others (s : State) (q : Queue) (g i : Nat) (h : ¬(g = q.gidx ∧ i = q.qid)) : (s.putQueue q).queue? g i = s.queue? g i := by
  unfold State.queue? State.putQueue
  dsimp only
  rw [find?_map_congr (q := fun x => x.gidx == g && x.qid == i) _ fun x _ => by split <;> simp_all]
  cases hx : s.work.queues.find? fun x => x.gidx == g && x.qid == i with
  | none => rfl
  | some x =>
    have hk := List.find?_some hx
    simp only [Bool.and_eq_true, beq_iff_eq] at hk
    rw [Option.map_some, if_neg fun hq => h (by simp_all)]

/-- A queue put back under its own name changes nothing else. -/
theorem putQueue_only {s : State} {gidx qid : Nat} {qu q : Queue} (h : s.queue? gidx qid = some qu) (hg : q.gidx = qu.gidx) (hi : q.qid = qu.qid) : s.OnlyQueue (s.putQueue q) gidx qid := by
  obtain ⟨kg, ki⟩ := queue?_key h
  exact ⟨by rfl, fun g i hn => putQueue_others s q g i (by rwa [hg, hi, kg, ki])⟩

theorem onlyQueue_trans {s t u : State} {gidx qid : Nat} (h : s.OnlyQueue t gidx qid) (k : t.OnlyQueue u gidx qid) : s.OnlyQueue u gidx qid := by
  refine ⟨?_, fun g i hn => (k.others g i hn).trans (h.others g i hn)⟩
  have hk := congrArg (fun x : State => { x with work := { x.work with queues := s.work.queues } }) k.rest
  exact (show _ = _ from hk).trans h.rest

theorem answer_of {s : State} (h : s.mem.bad = none) : answer s = .next s := by
  unfold answer
  rw [h]

theorem queueEnt_accesses {s t : State} (h : s.Accesses t) (gidx qid : Nat) : t.queueEnt gidx qid = s.queueEnt gidx qid := by
  rw [h.eq]
  rfl

theorem queue?_accesses {s t : State} (h : s.Accesses t) (gidx qid : Nat) : t.queue? gidx qid = s.queue? gidx qid := by
  rw [h.eq]
  rfl

/-- Where no pop waits, nothing is served. -/
theorem served_idle {s : State} {gidx qid : Nat} {q : Queue} (h : s.queue? gidx qid = some q) (hp : q.popWait = []) : s.served gidx qid = s := by
  unfold State.served
  rw [h, Option.map_some, Option.getD_some, hp]
  show State.servePops 1 gidx qid s = s
  unfold State.servePops
  rw [h]
  cases s.queueEnt gidx qid with
  | none => rfl
  | some e => simp [hp]

/-! ### Bytes of rings and shelves -/

theorem loadVerified_memory (s : State) (w : Who) (l : Loc) (n : Nat) : s.SameMemory (s.loadVerified w l n).2 := by
  intro x hx
  unfold State.loadVerified
  split
  · split
    · exact SameBytes.peek (s := s) (t := { s with mem := { s.mem with bad := s.mem.bad } }) ⟨rfl, rfl, rfl, rfl, rfl, rfl⟩ x 1 hx
    · exact SameBytes.peek (SameBytes.trans (SameBytes.trans (needVerified_same s _ _) (touch_same _ _ _)) (caches_same _ _ _)) x 1 hx
  · rfl

theorem sameMemory_trans {s t u : State} (h : s.SameMemory t) (k : t.SameMemory u) : s.SameMemory u := fun l hl => (k l hl).trans (h l hl)

theorem translated_same (s : State) (a n : Nat) : s.SameBytes (s.translated a n) := by
  unfold State.translated
  split
  · exact SameBytes.refl s
  · exact ⟨rfl, rfl, rfl, rfl, rfl, rfl⟩

theorem ringPieces_memory (p : Nat) (xs : List (Nat × List Byte)) (acc : List Byte × State) : acc.2.SameMemory (xs.foldl (ringPiece p) acc).2 := by
  induction xs generalizing acc with
  | nil => exact fun _ _ => rfl
  | cons x xs ih => exact sameMemory_trans (loadVerified_memory _ _ _ _) (ih (ringPiece p acc x))

theorem ringLoad_memory (s : State) (p a n : Nat) : s.SameMemory (s.ringLoad p a n).2 := by
  rw [ringLoad_eq]
  exact sameMemory_trans (fun l hl => SameBytes.peek (translated_same s a n) l 1 hl) (ringPieces_memory p _ ([], s.translated a n))

theorem readShelf_memory (gidx : Nat) (e : QueueEnt) (rs : List Rec) (s : State) : s.SameMemory (s.readShelf gidx e rs).2 := by
  induction rs generalizing s with
  | nil => exact fun _ _ => rfl
  | cons r rs ih =>
    unfold State.readShelf
    split
    · exact sameMemory_trans (ringLoad_memory s _ _ _) (ih _)
    · exact ih _

theorem readShelf_accesses (gidx : Nat) (e : QueueEnt) (rs : List Rec) (s : State) : s.Accesses (s.readShelf gidx e rs).2 := by
  induction rs generalizing s with
  | nil => exact .refl s
  | cons r rs ih =>
    unfold State.readShelf
    split
    · exact (ringLoad_accesses s _ _ _).trans (ih _)
    · exact ih _

theorem readShelf_length (gidx : Nat) (e : QueueEnt) (rs : List Rec) (s : State) : (s.readShelf gidx e rs).1.length = rs.length := by
  induction rs generalizing s with
  | nil => rfl
  | cons r rs ih =>
    unfold State.readShelf
    split <;> simp [ih]

theorem readShelf_acc (gidx : Nat) (e : QueueEnt) (rs : List Rec) (s : State) : (s.readShelf gidx e rs).1.map Rec.acc = rs.map Rec.acc := by
  induction rs generalizing s with
  | nil => rfl
  | cons r rs ih =>
    unfold State.readShelf
    split <;> simp [ih]

/-- Records of the segment are read from it alone. -/
theorem readShelf_segment (gidx : Nat) (e : QueueEnt) (rs : List Rec) (s : State) (h : ∀ r ∈ rs, r.shelf = false) : s.readShelf gidx e rs = (rs, s) := by
  induction rs with
  | nil => rfl
  | cons r rs ih =>
    unfold State.readShelf
    rw [if_neg (by simp [h r]), ih fun x hx => h x (List.mem_cons_of_mem r hx)]

theorem SameBytes.symm {s t : State} (h : s.SameBytes t) : t.SameBytes s := ⟨h.hbm.symm, h.host.symm, h.peers.symm, h.spad.symm, h.bad.symm, h.hqs.symm⟩

/-- A store of a ring leaves what it leaves in any machine with the same bytes. -/
theorem storeRing_same {s t : State} (w : Who) {l : Loc} (hl : l.space = .hbm ∨ l.space = .host) (bs : List Byte) (h : s.SameBytes t) :
    (s.storeAt w none false l bs).SameBytes (t.storeAt w none false l bs) := by
  have hq : ∀ c, l.space ≠ .spad c := fun c hc => by rcases hl with k | k <;> rw [k] at hc <;> cases hc
  refine SameBytes.trans (SameBytes.trans (SameBytes.symm (storeAt_same s w none false l bs fun c hc => absurd hc (hq c))) ?_) (storeAt_same t w none false l bs fun c hc => absurd hc (hq c))
  unfold State.poke
  rcases hl with k | k <;> rw [k]
  · dsimp only
    split
    · exact ⟨h.hbm, h.host, h.peers, h.spad, congrArg (fun b : Option Fault => some (b.getD (Fault.outsideHbm l.addr))) h.bad, h.hqs⟩
    · exact ⟨congrArg (msetBytes · l.addr bs) h.hbm, h.host, h.peers, h.spad, h.bad, h.hqs⟩
  · exact ⟨h.hbm, congrArg (msetBytes · l.addr bs) h.host, h.peers, h.spad, h.bad, h.hqs⟩

theorem ringLoc_space (a : Nat) : (ringLoc a).space = .hbm ∨ (ringLoc a).space = .host := by
  unfold ringLoc
  split
  · exact .inl rfl
  · exact .inr rfl

theorem storePieces_same (w : Who) {sp : Space} (hs : sp = .hbm ∨ sp = .host) (xs : List (Nat × List Byte)) {s t : State} (h : s.SameBytes t) :
    (xs.foldl (fun (s : State) p => s.storeAt w none false ⟨sp, p.1⟩ p.2) s).SameBytes (xs.foldl (fun (s : State) p => s.storeAt w none false ⟨sp, p.1⟩ p.2) t) := by
  induction xs generalizing s t with
  | nil => exact h
  | cons x xs ih => exact ih (storeRing_same w (l := ⟨sp, x.1⟩) hs x.2 h)

theorem ringStore_same {s t : State} (h : s.SameBytes t) (p a : Nat) (bs : List Byte) : (s.ringStore p a bs).SameBytes (t.ringStore p a bs) :=
  storePieces_same _ (ringLoc_space a) _ (SameBytes.trans (SameBytes.trans (SameBytes.symm (translated_same s a _)) h) (translated_same t a _))

/-! ### The shelf -/

/-- The head of the shelf moves to the segment; without records there, nothing changes. -/
theorem refillShelf_none {s : State} {gidx qid : Nat} {q : Queue} (hq : s.queue? gidx qid = some q) (h : q.recs.any Rec.shelf = false) : s.refillShelf gidx qid = s := by
  unfold State.refillShelf
  rw [hq]
  cases s.queueEnt gidx qid with
  | none => rfl
  | some e => simp [h]

theorem refillShelf_head {s : State} {gidx qid : Nat} {q : Queue} {e : QueueEnt} {r : Rec} (hq : s.queue? gidx qid = some q) (he : s.queueEnt gidx qid = some e)
    (hk : e.kind = 0 ∨ e.kind = 3) (hseg : q.segUsed < e.segcap) (hr : q.recs.find? Rec.shelf = some r) :
    s.refillShelf gidx qid = (s.ringLoad (s.graphPart gidx) (e.shelfPlace r.place) e.rsize).2.putQueue { q with recs := unshelve (s.ringLoad (s.graphPart gidx) (e.shelfPlace r.place) e.rsize).1 q.recs } := by
  have hany : q.recs.any Rec.shelf = true := List.any_eq_true.mpr ⟨r, List.mem_of_find?_eq_some hr, List.find?_some hr⟩
  have hkind : (e.kind == 0 || e.kind == 3) = true := by rcases hk with h | h <;> simp [h]
  have hread : s.readShelf gidx e [r] = ([{ r with data := (s.ringLoad (s.graphPart gidx) (e.shelfPlace r.place) e.rsize).1 }], (s.ringLoad (s.graphPart gidx) (e.shelfPlace r.place) e.rsize).2) := by
    unfold State.readShelf
    rw [if_pos (List.find?_some hr)]
    rfl
  unfold State.refillShelf
  rw [hq, he]
  dsimp only
  rw [if_pos (by simp [hkind, hseg, hany]), hr, Option.toList_some, hread]
  rfl

/-- A record commits to the segment while it has room and the shelf is empty. -/
theorem commitRec_segment {s : State} {gidx qid : Nat} {q : Queue} {e : QueueEnt} (r : Rec) (hq : s.queue? gidx qid = some q) (he : s.queueEnt gidx qid = some e) (hk : e.kind = 0)
    (hno : q.recs.any Rec.shelf = false) (hseg : q.segUsed < e.segcap) :
    s.commitRec gidx qid r = s.putQueue { q with recs := q.recs ++ [{ r with acc := q.nextAcc, shelf := false, place := 0 }], nextAcc := q.nextAcc + 1, resv := q.resv - 1, changed := true } := by
  have hroom : s.roomOnShelf gidx qid = s := by
    unfold State.roomOnShelf
    rw [hq, he]
    dsimp only
    split
    · exact refillShelf_none hq hno
    · rfl
  unfold State.commitRec
  rw [hroom]
  dsimp only
  rw [hq, he]
  dsimp only
  rw [if_neg (by omega), if_neg (by simp [hno]; omega)]
  rfl

/-- A record commits to the lowest free place of the shelf where the segment is full. -/
theorem commitRec_shelf {s : State} {gidx qid : Nat} {q : Queue} {e : QueueEnt} (r : Rec) {i : Nat} (hq : s.queue? gidx qid = some q) (he : s.queueEnt gidx qid = some e) (hk : e.kind = 0)
    (hseg : e.segcap ≤ q.segUsed) (hf : s.shelfFree q e = some i) :
    s.commitRec gidx qid r = (s.ringStore (s.graphPart gidx) (e.shelfPlace i) r.data).putQueue
      { q with recs := q.recs ++ [{ r with acc := q.nextAcc, shelf := true, place := i }], nextAcc := q.nextAcc + 1, resv := q.resv - 1, changed := true } := by
  have hroom : s.roomOnShelf gidx qid = s := by
    unfold State.roomOnShelf
    rw [hq, he]
    simp [hf]
  unfold State.commitRec
  rw [hroom]
  dsimp only
  rw [hq, he]
  dsimp only
  rw [if_neg (by omega), if_pos (by simp [hseg]), hf]
  rfl

/-- A batch that the segment has room for commits in its order. -/
theorem commits_segment {gidx qid : Nat} {e : QueueEnt} (rs : List (List Byte)) {s : State} {q : Queue} (hq : s.queue? gidx qid = some q) (he : s.queueEnt gidx qid = some e) (hk : e.kind = 0)
    (hno : q.recs.any Rec.shelf = false) (hseg : q.segUsed + rs.length ≤ e.segcap) :
    ∃ x, (rs.foldl (fun (t : State) r => t.commitRec gidx qid { acc := 0, data := r }) s).queue? gidx qid = some x ∧ x.recs.map Rec.data = q.recs.map Rec.data ++ rs ∧
      x.granted = q.granted ∧ x.resv = q.resv - rs.length ∧ x.popWait = q.popWait := by
  induction rs generalizing s q with
  | nil => exact ⟨q, hq, by simp, rfl, rfl, rfl⟩
  | cons r rs ih =>
    rw [List.length_cons] at hseg
    rw [List.foldl_cons, commitRec_segment { acc := 0, data := r } hq he hk hno (by omega)]
    obtain ⟨x, hx, hrecs, hgr, hresv, hpw⟩ := ih (putQueue_queue (q := { q with recs := q.recs ++ [{ acc := q.nextAcc, data := r, shelf := false, place := 0 }], nextAcc := q.nextAcc + 1, resv := q.resv - 1, changed := true }) hq rfl rfl) he
      (by simp [hno]) (by simp only [Queue.segUsed, List.filter_append, List.length_append] at hseg ⊢; simp; omega)
    exact ⟨x, hx, hrecs.trans (by simp), hgr, hresv.trans (by rw [List.length_cons]; dsimp only; omega), hpw⟩

/-! ### The clauses -/

/-- R331: a batch of one record that finds the segment full stands on the shelf. -/
theorem arrival_shelf {s : State} {gidx qid : Nat} {q : Queue} {e : QueueEnt} {peer i : Nat} {r : List Byte} (hq : s.queue? gidx qid = some q) (he : s.queueEnt gidx qid = some e) (hk : e.kind = 0)
    (hg : 1 ≤ tget 0 q.granted peer) (hr : r.length = e.rsize) (hp : q.popWait = []) (hseg : e.segcap ≤ q.segUsed) (hf : s.shelfFree q e = some i)
    (hbad : (s.ringStore (s.graphPart gidx) (e.shelfPlace i) r).mem.bad = none) :
    ∃ t x, exec (.forwardBatchArrival gidx qid peer [r]) s = .next t ∧ t.queue? gidx qid = some x ∧ x.recs = q.recs ++ [{ acc := q.nextAcc, data := r, shelf := true, place := i }] ∧
      (s.ringStore (s.graphPart gidx) (e.shelfPlace i) r).SameMemory t := by
  let q1 := { q with granted := tput q.granted peer (tget 0 q.granted peer - 1) }
  let q2 : Queue := { q1 with recs := q1.recs ++ [{ acc := q1.nextAcc, data := r, shelf := true, place := i }], nextAcc := q1.nextAcc + 1, resv := q1.resv - 1, changed := true }
  let u := (s.putQueue q1).ringStore (s.graphPart gidx) (e.shelfPlace i) r
  have h1 : (s.putQueue q1).queue? gidx qid = some q1 := putQueue_queue hq rfl rfl
  have hu : (u.putQueue q2).queue? gidx qid = some q2 := putQueue_queue ((queue?_accesses (ringStore_accesses _ _ _ _) gidx qid).trans h1) rfl rfl
  have hsame : (s.ringStore (s.graphPart gidx) (e.shelfPlace i) r).SameBytes ((u.putQueue q2).progress ((u.putQueue q2).graphPart gidx) ((u.putQueue q2).graphCtx gidx)) :=
    SameBytes.trans (ringStore_same (SameBytes.of_mem (s := s) (t := s.putQueue q1) rfl) _ _ _) (SameBytes.of_mem rfl)
  have hexec : exec (.forwardBatchArrival gidx qid peer [r]) s = answer ((u.putQueue q2).progress ((u.putQueue q2).graphPart gidx) ((u.putQueue q2).graphCtx gidx)) := by
    show execForwardBatchArrival gidx qid peer [r] s = _
    unfold execForwardBatchArrival
    rw [hq, he]
    dsimp only
    rw [if_neg (by simp [hk, hr]; omega)]
    show answer ((State.served (State.commitRec (s.putQueue q1) gidx qid { acc := 0, data := r }) gidx qid).progress (State.graphPart (State.commitRec (s.putQueue q1) gidx qid { acc := 0, data := r }) gidx)
      (State.graphCtx (State.commitRec (s.putQueue q1) gidx qid { acc := 0, data := r }) gidx)) = _
    rw [commitRec_shelf (s := s.putQueue q1) (q := q1) { acc := 0, data := r } h1 he hk hseg hf]
    show answer ((State.served (u.putQueue q2) gidx qid).progress ((u.putQueue q2).graphPart gidx) ((u.putQueue q2).graphCtx gidx)) = _
    rw [served_idle hu hp]
  refine ⟨_, q2, hexec.trans (answer_of (hsame.bad.trans hbad)), hu, rfl, fun l hl => SameBytes.peek hsame l 1 hl⟩

/-- R331: a batch that the segment has room for stands there. -/
theorem arrival_segment {s : State} {gidx qid : Nat} {q : Queue} {e : QueueEnt} {peer : Nat} {rs : List (List Byte)} (hq : s.queue? gidx qid = some q) (he : s.queueEnt gidx qid = some e) (hk : e.kind = 0)
    (hg : rs.length ≤ tget 0 q.granted peer) (hr : ∀ r ∈ rs, r.length = e.rsize) (hp : q.popWait = []) (hno : q.recs.any Rec.shelf = false) (hseg : q.segUsed + rs.length ≤ e.segcap)
    (hbad : (rs.foldl (fun (t : State) r => t.commitRec gidx qid { acc := 0, data := r }) (s.putQueue { q with granted := tput q.granted peer (tget 0 q.granted peer - rs.length) })).mem.bad = none) :
    ∃ t x, exec (.forwardBatchArrival gidx qid peer rs) s = .next t ∧ t.queue? gidx qid = some x ∧ x.recs.map Rec.data = q.recs.map Rec.data ++ rs ∧
      tget 0 x.granted peer = tget 0 q.granted peer - rs.length ∧ x.resv = q.resv - rs.length := by
  have h1 : (s.putQueue { q with granted := tput q.granted peer (tget 0 q.granted peer - rs.length) }).queue? gidx qid = some { q with granted := tput q.granted peer (tget 0 q.granted peer - rs.length) } := putQueue_queue hq rfl rfl
  obtain ⟨x, hx, hrecs, hgr, hresv, hpw⟩ := commits_segment rs h1 (show (s.putQueue _).queueEnt gidx qid = some e from he) hk hno hseg
  generalize hu : (rs.foldl (fun (t : State) r => t.commitRec gidx qid { acc := 0, data := r }) (s.putQueue { q with granted := tput q.granted peer (tget 0 q.granted peer - rs.length) })) = u at hx hbad
  have hexec : exec (.forwardBatchArrival gidx qid peer rs) s = answer (u.progress (u.graphPart gidx) (u.graphCtx gidx)) := by
    show execForwardBatchArrival gidx qid peer rs s = _
    unfold execForwardBatchArrival
    rw [hq, he]
    dsimp only
    rw [if_neg (by simp only [hk, bne_self_eq_false, Bool.false_or, Bool.or_eq_true, decide_eq_true_eq, List.any_eq_true, bne_iff_ne, not_or, not_lt, not_exists, not_and]; exact ⟨hg, fun r hm => by simp [hr r hm]⟩), hu,
      served_idle hx (hpw.trans hp)]
  exact ⟨_, x, hexec.trans (answer_of hbad), hx, hrecs, (congrArg (tget 0 · peer) hgr).trans (by rw [tget_tput, if_pos rfl]), hresv⟩

/-- R331: a port sends the only pair's batch. -/
theorem send_clause {port : Nat} {s : State} {gr : Graph} {e : QueueEnt} {q : Queue} (hport : port < Config.ports) (hdev : s.plat.device.isSome = true) (hxoff : (s.port port).xoff = false)
    (hdown : (s.port port).down = false) (hgs : s.tabs.graphs = [gr]) (hfil : (gr.queues.filter fun x => x.kind == 3) = [e]) (he : gr.queue? e.qid = some e) (hq : s.queue? gr.gidx e.qid = some q)
    (hb : 1 ≤ q.backlog e) (hc : 1 ≤ q.cred) (hlow : q.remoteB + q.remoteSent < q.backlog e) (hw : 1 ≤ s.forwardWeight gr e) (hh : q.halted = false)
    (hbad : (s.popRecs gr.gidx e.qid (min 32 q.cred)).2.mem.bad = none) :
    ∃ t x, exec (.forwardBatchSend port) s = .next t ∧ t.queue? gr.gidx e.qid = some x ∧ x.sent = q.sent ++ (s.popRecs gr.gidx e.qid (min 32 q.cred)).1 ∧
      (s.popRecs gr.gidx e.qid (min 32 q.cred)).1.map Rec.acc = (q.recs.take (min (min 32 q.cred) q.recs.length)).map Rec.acc ∧ x.recs = q.recs.drop (min (min 32 q.cred) q.recs.length) ∧
      x.cred = q.cred - min (min 32 q.cred) q.recs.length ∧ x.remoteSent = q.remoteSent + min (min 32 q.cred) q.recs.length ∧ s.SameMemory t ∧
      ((∀ y ∈ q.recs.take (min (min 32 q.cred) q.recs.length), y.shelf = false) →
        (s.popRecs gr.gidx e.qid (min 32 q.cred)).1 = q.recs.take (min (min 32 q.cred) q.recs.length) ∧ s.OnlyQueue t gr.gidx e.qid) := by
  have hkind : e.kind = 3 := by
    have hm : e ∈ gr.queues.filter fun x => x.kind == 3 := hfil ▸ List.mem_singleton_self e
    simpa using (List.mem_filter.mp hm).2
  have hent : s.queueEnt gr.gidx e.qid = some e := by
    unfold State.queueEnt State.graph?
    rw [hgs]
    simpa using he
  generalize hn : min (min 32 q.cred) q.recs.length = n
  -- the pop, of a queue whose records are all its own
  let old := q.recs.take n
  let v := (s.readShelf gr.gidx e old).2
  let q1 : Queue := { q with recs := q.recs.drop n, ringPop := q.ringPop + 0, held := q.held + n, heldSeg := q.heldSeg + ((s.readShelf gr.gidx e old).1.filter fun x => !x.shelf).length, changed := true }
  have hav : q.available e = q.recs.length := by simp [Queue.available, Queue.backlog, hh, hkind]
  have hpop : s.popRecs gr.gidx e.qid (min 32 q.cred) = ((s.readShelf gr.gidx e old).1, v.putQueue q1) := by
    unfold State.popRecs
    rw [hq, hent]
    dsimp only
    rw [hav, hn, if_neg (by omega), if_neg (by omega), if_neg (by omega)]
    show ((s.readShelf gr.gidx e old).1 ++ [], _) = _
    rw [List.append_nil]
    rfl
  have hlen : (s.readShelf gr.gidx e old).1.length = n := by
    rw [readShelf_length, List.length_take]
    omega
  have hv : (v.putQueue q1).queue? gr.gidx e.qid = some q1 := putQueue_queue ((queue?_accesses (readShelf_accesses gr.gidx e old s) _ _).trans hq) rfl rfl
  let q2 : Queue := { q1 with sent := q1.sent ++ (s.readShelf gr.gidx e old).1, cred := q1.cred - n, remoteSent := q1.remoteSent + n, changed := true }
  have hbest : exec (.forwardBatchSend port) s = answer ((v.putQueue q1).putQueue q2) := by
    have hd : (0 : Int) < (s.forwardWeight gr e : Int) * ((q.backlog e : Int) - (q.remoteB + q.remoteSent : Nat)) := Int.mul_pos (by omega) (by omega)
    show execForwardBatchSend port s = _
    unfold execForwardBatchSend
    rw [if_neg (by simp [hxoff, hdown]; exact ⟨hport, by cases h : s.plat.device <;> simp_all⟩), hgs]
    simp only [List.flatMap_cons, List.flatMap_nil, List.append_nil, hfil, List.filterMap_cons, List.filterMap_nil, hq]
    rw [if_pos (by simp only [Bool.and_eq_true, decide_eq_true_eq]; exact ⟨⟨hb, hc⟩, hd⟩)]
    simp only [List.foldl_cons, List.foldl_nil]
    rw [hpop]
    unfold State.onQueue
    dsimp only
    rw [hv, hlen]
  refine ⟨_, q2, hbest.trans (answer_of ?_), putQueue_queue hv rfl rfl, congrArg (q.sent ++ ·) (congrArg Prod.fst hpop).symm, ?_, rfl, rfl, rfl, readShelf_memory gr.gidx e old s, fun hno => ?_⟩
  · rw [hpop] at hbad
    exact hbad
  · rw [hpop]
    exact readShelf_acc gr.gidx e old s
  · have hs : s.readShelf gr.gidx e old = (old, s) := readShelf_segment gr.gidx e old s hno
    have hvs : v = s := congrArg Prod.snd hs
    refine ⟨(congrArg Prod.fst hpop).trans (congrArg Prod.fst hs), onlyQueue_trans (t := v.putQueue q1) ?_ (putQueue_only hv rfl rfl)⟩
    rw [hvs]
    exact putQueue_only hq rfl rfl

/-- With no operation of its own in flight, no group learns of a lost link. -/
theorem linkLoss_ops {t : State} {peer : Nat} (h : ∀ x ∈ t.allGroups, x.ops = []) :
    t.allGroups.foldl (fun u h => (h.ops.filter fun o => o.cls == 3 && !o.ended && (u.collMembers o.coll).any fun m => m.1 == peer).foldl (fun s o =>
        (s.putOp h.uid { o with ended := true, fault := some (o.faultRec 0x15 0 o.bytes) }).progress h.part h.ctx) u) t = t :=
  foldl_idle fun x hx => by rw [h x hx]; rfl

theorem setPort_port (s : State) (p p' : Nat) (x : Port) : (s.setPort p x).port p' = if p = p' then x else s.port p' := tget_tset _ _ _ _ _

/-- Only the port that is set differs. -/
theorem setPort_only (s : State) (p : Nat) (x : Port) : s.OnlyPort (s.setPort p x) p := ⟨by rfl, fun p' h => by rw [setPort_port, if_neg (Ne.symm h)]⟩

/-- R334: an index that keeps the ring consistent takes effect. -/
theorem ringIndex_kept {gidx qid : Nat} {x : W64} {s : State} {q q' : Queue} {e : QueueEnt} (hq : s.queue? gidx qid = some q) (he : s.queueEnt gidx qid = some e) (hh : q.halted = false) (hp : q.popWait = [])
    (hq' : q' = { (if e.kind = 1 then { q with w := x } else { q with r := x }) with changed := true }) (hc : q'.r.toNat ≤ q'.w.toNat ∧ q'.w.toNat - q'.r.toNat ≤ e.cap) :
    (s.ringIndex gidx qid x).queue? gidx qid = some q' := by
  have hk : q'.gidx = q.gidx ∧ q'.qid = q.qid ∧ q'.popWait = [] := by
    rw [hq']
    split <;> exact ⟨rfl, rfl, hp⟩
  have h1 : (s.putQueue q').queue? gidx qid = some q' := putQueue_queue hq hk.1 hk.2.1
  have hcheck : (s.putQueue q').ringCheck gidx qid = s.putQueue q' := by
    unfold State.ringCheck
    rw [h1, show (s.putQueue q').queueEnt gidx qid = some e from he]
    dsimp only
    split
    · rfl
    · rw [if_pos (by simp [hc.1, hc.2])]
  unfold State.ringIndex
  rw [hq, he]
  dsimp only
  rw [if_neg (by simp [hh]), ← hq', hcheck, served_idle h1 hk.2.2]
  exact h1

/-- R334: a halted ring without waiting commits runs again empty, at the index given. -/
theorem resetRing_queue {gidx qid : Nat} {x : W64} {s : State} {q : Queue} {e : QueueEnt} (hq : s.queue? gidx qid = some q) (he : s.queueEnt gidx qid = some e) (hwc : q.waitCommit = []) (hp : q.popWait = []) (hh : q.halted = true) :
    (s.resetRing gidx qid x).queue? gidx qid = some { q with halted := false, w := x, r := x, ringPop := x.toNat, recs := [], changed := true } := by
  let q1 : Queue := { q with halted := false, w := x, r := x, ringPop := x.toNat, recs := [], changed := true }
  have h1 : (s.putQueue q1).queue? gidx qid = some q1 := putQueue_queue hq rfl rfl
  unfold State.resetRing
  rw [hq, he]
  dsimp only
  rw [if_neg (by simp [hh])]
  generalize hv : State.ringPublish _ gidx e _ x = v
  have h2 : v.queue? gidx qid = some q1 := by
    rw [← hv]
    exact (queue?_accesses (((ringStore_accesses _ _ _ _)).trans (ringStore_accesses _ _ _ _)) gidx qid).trans h1
  have h3 : (v.commitWaiting gidx qid) = v.putQueue { q1 with waitCommit := [] } := by
    unfold State.commitWaiting
    rw [h2]
    show List.foldl _ _ q.waitCommit = _
    rw [hwc]
    rfl
  have h4 : (v.putQueue { q1 with waitCommit := [] }).queue? gidx qid = some { q1 with waitCommit := [] } := putQueue_queue h2 rfl rfl
  rw [h3, served_idle h4 hp, h4]
  exact congrArg (fun l => some ({ q1 with waitCommit := l } : Queue)) hwc.symm

/-- R331: a lost link returns what its pair had not had acknowledged. -/
theorem returnSent_queue {gidx qid : Nat} {s : State} {q : Queue} {e : QueueEnt} (hq : s.queue? gidx qid = some q) (he : s.queueEnt gidx qid = some e) (hp : q.popWait = []) :
    ∃ x, s.returnSent gidx qid = (s.putQueue { q with sent := [], cred := 0, remoteSent := 0 }).putQueue x ∧ (s.returnSent gidx qid).queue? gidx qid = some x ∧
      x.sent = [] ∧ x.cred = 0 ∧ x.recs = q.sent.foldl (fun l r => insertRec r l) q.recs := by
  let q1 : Queue := { q with sent := [], cred := 0, remoteSent := 0 }
  let q2 : Queue := { (q1.unhold e q.sent) with recs := q.sent.foldl (fun l r => insertRec r l) q1.recs }
  have h1 : (s.putQueue q1).queue? gidx qid = some q1 := putQueue_queue hq rfl rfl
  have h2 : ((s.putQueue q1).putQueue q2).queue? gidx qid = some q2 := putQueue_queue h1 rfl rfl
  have h3 : s.returnSent gidx qid = (s.putQueue q1).putQueue q2 := by
    unfold State.returnSent
    rw [hq]
    show ((s.putQueue q1).requeue gidx qid q.sent).served gidx qid = _
    have hr : (s.putQueue q1).requeue gidx qid q.sent = (s.putQueue q1).putQueue q2 := by
      unfold State.requeue
      rw [h1, show (s.putQueue q1).queueEnt gidx qid = some e from he]
    rw [hr, served_idle h2 hp]
  exact ⟨q2, h3, h3 ▸ h2, rfl, rfl, rfl⟩

/-- Settles O57: each clause follows its function, with the queue or port that it names read back. -/
theorem forwardingAndRings : Obligations.ForwardingAndRings := by
  unfold Obligations.ForwardingAndRings
  refine ⟨fun gidx qid s q e hq he hbad => ⟨fun hk hseg => ⟨fun hnone => ?_, fun r hr => ?_⟩, fun peer hk hpeer => ?_, fun peer hk hfree hgr => ?_, fun peer hk hno => ?_, fun n hk => ?_,
      fun peer r i hk hg hr hp hseg hf => arrival_shelf hq he hk hg hr hp hseg hf, fun peer rs hk hg hr hp hno hseg => arrival_segment hq he hk hg hr hp hno hseg⟩,
    fun port s gr e q hport hdev hxoff hdown hgs hfil he hq hb hc hlow hw hh => send_clause hport hdev hxoff hdown hgs hfil he hq hb hc hlow hw hh, fun port s hstuck hbad => ⟨fun hp => ?_, fun hp => ?_, fun hp => ?_, fun peer hp hgs hops => ?_⟩,
    fun port peer s gr e q hport hgs hqs hk hpeer hq hp hops hstuck hbad => ?_, fun vf pn bytes s hvf hlen hres hbad hmine => ?_, fun n m pn gidx qid x s q e hg hq he hh hp => ⟨fun hk hlo hhi => ?_, fun hk hlo hhi => ?_⟩,
    fun vf bytes s hvf hbad => ?_, fun r gidx qid x s q e hacc hg hq he hwc hp hbad => ⟨fun hh => ?_, fun hh hbad' => ?_⟩⟩
  · exact (congrArg answer (refillShelf_none hq (List.any_eq_false.mpr fun r hm => List.find?_eq_none.mp hnone r hm))).trans (answer_of hbad)
  · intro x hx
    have hpre : x.2.queue? gidx qid = some q := (queue?_accesses (ringLoad_accesses s _ _ _) gidx qid).trans hq
    exact ⟨_, (congrArg answer (refillShelf_head hq he hk hseg hr)).trans (answer_of hx), putQueue_queue hpre rfl rfl, ringLoad_memory s _ _ _, putQueue_only hpre rfl rfl⟩
  · refine ⟨s.putQueue { q with cred := q.cred + 32 }, ?_, putQueue_queue hq rfl rfl, putQueue_only hq rfl rfl⟩
    show execCreditGrant gidx qid peer s = _
    unfold execCreditGrant
    rw [hq, he]
    dsimp only
    rw [if_pos hk, if_pos hpeer]
    exact answer_of hbad
  · refine ⟨s.putQueue { q with granted := tput q.granted peer (tget 0 q.granted peer + 32), resv := q.resv + 32, changed := true }, ?_, putQueue_only hq rfl rfl, _, putQueue_queue hq rfl rfl, rfl, by simp [tget_tput], rfl⟩
    show execCreditGrant gidx qid peer s = _
    unfold execCreditGrant
    rw [hq, he]
    dsimp only
    rw [if_neg (by omega), if_pos (by simp [hk, hfree, hgr])]
    exact answer_of hbad
  · show execCreditGrant gidx qid peer s = _
    unfold execCreditGrant
    rw [hq, he]
    dsimp only
    rw [if_neg (by omega), if_neg (by simp [hk]; omega)]
    exact answer_of hbad
  · have h1 : (s.putQueue { q with sent := q.sent.drop n }).queue? gidx qid = some { q with sent := q.sent.drop n } := putQueue_queue hq rfl rfl
    refine ⟨(s.putQueue { q with sent := q.sent.drop n }).putQueue (Queue.unhold { q with sent := q.sent.drop n } e (q.sent.take n)), ?_, onlyQueue_trans (t := s.putQueue { q with sent := q.sent.drop n }) (putQueue_only hq rfl rfl) (putQueue_only h1 rfl rfl),
      _, putQueue_queue h1 rfl rfl, rfl, rfl, rfl⟩
    show execForwardAck gidx qid n s = _
    unfold execForwardAck
    rw [hq]
    dsimp only
    unfold State.releaseRecs
    rw [h1, show (s.putQueue { q with sent := q.sent.drop n }).queueEnt gidx qid = some e from he]
    dsimp only
    rw [if_neg (by simp [hk])]
    exact answer_of hbad
  · refine ⟨_, (congrArg answer (if_neg (by simp [hstuck]; omega))).trans (answer_of hbad), setPort_only s port _, by rw [setPort_port, if_pos rfl]⟩
  · refine ⟨_, (congrArg answer (if_neg (by simp [hstuck]; omega))).trans (answer_of hbad), setPort_only s port _, by rw [setPort_port, if_pos rfl]⟩
  · exact ⟨(congrArg answer (if_pos (by simp [hp]))).trans (answer_of hbad), (congrArg answer (if_pos (by simp [hp]))).trans (answer_of hbad)⟩
  · refine ⟨s.setPort port { s.port port with down := true }, ?_, setPort_only s port _, by rw [setPort_port, if_pos rfl]⟩
    show execLinkLoss port peer s = _
    unfold execLinkLoss
    rw [if_neg (by simp [hstuck]; exact hp)]
    dsimp only
    rw [show (s.setPort port { s.port port with down := true }).tabs.graphs = [] from hgs, List.foldl_nil, linkLoss_ops (t := s.setPort port { s.port port with down := true }) hops]
    exact answer_of hbad
  · let u := s.setPort port { s.port port with down := true }
    have hent : u.queueEnt gr.gidx e.qid = some e := by
      show ((s.tabs.graphs.find? fun g => g.gidx == gr.gidx).bind fun g => g.queue? e.qid) = some e
      rw [hgs, List.find?_cons_of_pos (by simp), Option.bind_some, Graph.queue?, hqs, List.find?_cons_of_pos (by simp)]
    obtain ⟨x, hret, hx, hsent, hcred, hrecs⟩ := returnSent_queue (s := u) hq hent hp
    refine ⟨u.returnSent gr.gidx e.qid, x, ?_, ?_, hx, hsent, hcred, hrecs⟩
    · show execLinkLoss port peer s = _
      unfold execLinkLoss
      rw [if_neg (by simp [hstuck]; exact hport)]
      dsimp only
      rw [show (s.setPort port { s.port port with down := true }).tabs.graphs = [gr] from hgs, List.foldl_cons, List.foldl_nil, hqs, List.foldl_cons, List.foldl_nil, if_pos (by simp [hk, hpeer]),
        linkLoss_ops (t := u.returnSent gr.gidx e.qid) (by rw [hret]; exact hops)]
      exact answer_of (by rw [hret]; exact hbad)
    · rw [hret]
      show (u.port port).down = true
      rw [setPort_port, if_pos rfl]
  · have hok : (natAt bytes 0 2 == 0xFFFF && natAt bytes 2 2 == 0xFFFF || (s.graph? (natAt bytes 0 2)).any fun g => g.part == pn && (g.queue? (natAt bytes 2 2)).any fun e => e.kind == 1 || e.kind == 2) = true := by
      rcases hmine with ⟨ha, hb⟩ | ⟨g, e, hg, hpn, hqe, hkind⟩
      · simp [ha, hb]
      · rcases hkind with hk | hk <;> simp [hg, hpn, hqe, hk]
    refine ⟨{ s with work := { s.work with msgs := s.work.msgs ++ [⟨s.sched.window, 290, .doorbell pn (natAt bytes 0 2) (natAt bytes 2 2) (BitVec.ofNat 64 (natAt bytes 8 8))⟩] } }, ?_, rfl, rfl⟩
    show execDoorbell vf bytes s = _
    unfold execDoorbell
    rw [hvf]
    dsimp only
    rw [if_neg (by rw [hok]; simp [hlen, hres])]
    exact answer_of hbad
  · show (s.ringBell pn gidx qid x).queue? gidx qid = _
    rw [State.ringBell, if_neg hg]
    exact ringIndex_kept hq he hh hp (by rw [if_pos hk]) ⟨hlo, hhi⟩
  · show (s.ringBell pn gidx qid x).queue? gidx qid = _
    rw [State.ringBell, if_neg hg]
    exact ringIndex_kept hq he hh hp (by rw [if_neg (by omega)]) ⟨hlo, hhi⟩
  · exact (show exec (.doorbell vf bytes) s = answer s by show execDoorbell vf bytes s = _; unfold execDoorbell; rw [hvf]).trans (answer_of hbad)
  · have hreset : s.resetRing gidx qid x = s := by
      unfold State.resetRing
      rw [hq, he]
      simp [hh]
    show answer (managed r s _) = _
    rw [managed, if_pos hacc, if_neg hg, hreset]
    exact answer_of hbad
  · refine ⟨_, _, ?_, resetRing_queue (x := x) hq he hwc hp hh, rfl, rfl, rfl, rfl, rfl⟩
    show answer (managed r s _) = _
    rw [managed, if_pos hacc, if_neg hg]
    exact answer_of hbad'

end Sys2Proof.Machine
end

section
/-! The memory system's own steps: walks, tile checks, write-backs, and the frames of a partition (R174, R177, R193 to R201, R369, R371). -/

namespace Sys2Proof.Machine

open Sys2Proof

/-! ### Memories as tables -/

/-- Cells in the order of their addresses, set one after the other, read back as the table they came from. -/
theorem mget_foldl_mset_sorted (cs m : Memory) (hs : cs.Pairwise fun x y => x.1 < y.1) (a : Nat) :
    mget (cs.foldl (fun m c => mset m c.1 c.2) m) a = if (cs.any fun c => c.1 == a) = true then mget cs a else mget m a := by
  induction cs generalizing m with
  | nil => rfl
  | cons c cs ih =>
    obtain ⟨hc, hs⟩ := List.pairwise_cons.mp hs
    rw [List.foldl_cons, ih _ hs]
    by_cases hca : c.1 = a
    · have hno : (cs.any fun x => x.1 == a) = false := List.any_eq_false.mpr fun x hx => by
        have := hc x hx
        simp only [beq_iff_eq]
        omega
      rw [hno, if_neg (by simp), if_pos (by simp [hca]), mget_mset, if_pos hca]
      simp [mget, tget, hca]
    · rw [List.any_cons, show (c.1 == a) = false by simpa using hca, Bool.false_or]
      split
      · simp [mget, tget, hca]
      · rw [mget_mset, if_neg hca]

theorem mget_unlisted (m : Memory) (a : Nat) (h : (m.any fun c => c.1 == a) = false) : mget m a = 0 := by
  unfold mget
  induction m with
  | nil => rfl
  | cons c m ih =>
    rw [List.any_cons, Bool.or_eq_false_iff] at h
    rw [tget, if_neg (by simpa using h.1)]
    exact ih h.2

/-- A copied range reads as its source. -/
theorem mget_mcopyRange_inside (m src : Memory) (lo hi a : Nat) (hw : src.wf = true) (h : lo ≤ a ∧ a < hi) : mget (mcopyRange m src lo hi) a = mget src a := by
  have hs : (src.filter fun c => lo ≤ c.1 && c.1 < hi).Pairwise fun x y => x.1 < y.1 := ((wf_iff src).mp hw).1.filter _
  have hf : mget (src.filter fun c => lo ≤ c.1 && c.1 < hi) a = mget src a := mget_filter src (fun a => decide (lo ≤ a) && decide (a < hi)) a (by simpa using h)
  unfold mcopyRange
  rw [mget_foldl_mset_sorted _ _ hs, hf]
  split
  · rfl
  · next hno =>
    rw [mget_mclear, if_pos h, ← hf, mget_unlisted _ _ (Bool.eq_false_iff.mpr hno)]

theorem peek_zero {s : State} {a : Nat} (h : mget s.mem.hbm a = 0) : s.peek ⟨.hbm, a⟩ 1 = [0] := by
  show mbytes s.mem.hbm a 1 = [0]
  rw [mbytes_one, h]

/-! ### Walks -/

/-- A place that was found by a leaf names it. -/
theorem place_leaf {s : State} {w : Who} {k leaf : Leaf} {va : Nat} {l : Loc} (h : s.place w k va = .ok l (some leaf)) : leaf = k := by
  unfold State.place at h
  dsimp only at h
  split at h
  · cases h; rfl
  · split at h
    · cases h
    · split at h
      · cases h; rfl
      · cases h
  · cases h; rfl
  · generalize s.onChip w _ = r at h
    cases r <;> cases h
    rfl

/-- A leaf that the walker takes is of the page asked for, and the last that the TLB has received. -/
theorem takeLeaf_installs {s : State} {w : Who} {write : Bool} {va : Nat} {l : Loc} {leaf : Leaf} (h : (s.takeLeaf w write va).1 = .ok l (some leaf)) :
    leaf.vpn = vpnOf va ∧ (s.takeLeaf w write va).2.mem.tlb.getLast? = some { core := w.core, part := w.part, ctx := w.ctx, leaf := leaf } := by
  unfold State.takeLeaf at h ⊢
  split at h
  · split at h <;> cases h
  · next e u _ =>
    split at h
    · cases h
    · split at h
      · cases h
      · next ha hx =>
        dsimp only at h ⊢
        have hl := place_leaf h
        rw [if_neg ha, if_neg hx]
        exact ⟨hl ▸ rfl, hl ▸ List.getLast?_concat⟩

/-- A translation that answers a place has the permission. -/
theorem permitted {ok : Bool} {s : State} {r : Trans × State} {l : Loc} {x : Option Leaf} (h : (if (!ok) = true then (Trans.fault 0x0A, s) else r).1 = .ok l x) :
    (if (!ok) = true then (Trans.fault 0x0A, s) else r) = r := by
  cases ok
  · cases h
  · rfl

theorem walk_installs {s : State} {w : Who} {kind : AccessKind} {va : Nat} {l : Loc} {leaf : Leaf} (h : (s.walk w kind false va).1 = .ok l (some leaf)) :
    leaf.vpn = vpnOf va ∧ (s.walk w kind false va).2.mem.tlb.getLast? = some { core := w.core, part := w.part, ctx := w.ctx, leaf := leaf } := by
  unfold State.walk at h ⊢
  split at h
  · split at h <;> cases h
  · next e u _ =>
    dsimp only at h ⊢
    split at h
    · split at h <;> cases h
    · split at h
      · cases h
      · next h1 h2 =>
        rw [if_neg h1, if_neg h2]
        split at h
        · cases h
        · next h3 =>
          rw [if_neg h3]
          split at h
          · cases h
          · next h4 =>
            rw [if_neg h4]
            have hok := permitted h
            rw [hok] at h ⊢
            exact takeLeaf_installs h

/-! ### Checks and write-backs of tiles -/

theorem checkPath_passes {s : State} {tile : Nat} (h : s.pathFault tile = none) :
    s.checkPath tile = (true, { s with mem := { s.mem with metas := (s.pathToRead tile).foldl (fun c m => tput c m.2 false) s.mem.metas } }) := by
  unfold State.checkPath
  rw [h]

theorem checkPath_fails {s : State} {tile x level : Nat} (h : s.pathFault tile = some (x, level)) : s.checkPath tile = (false, s.alarm (.integrity (s.tileOwner x) x level)) := by
  unfold State.checkPath
  rw [h]

/-- A tile that is verified, or whose tag is right, passes its check where its path does. -/
theorem checkTile_passes {s : State} {tile : Nat} (h : s.pathFault tile = none) (ht : s.mem.tileVerified tile = true ∨ s.tagOk tile = true) :
    s.checkTile tile = (true, { s with mem := { s.mem with metas := (s.pathToRead tile).foldl (fun c m => tput c m.2 false) s.mem.metas } }) := by
  unfold State.checkTile
  rw [checkPath_passes h]
  refine if_pos ?_
  show (!true || s.mem.tileVerified tile || s.tagOk tile) = true
  simpa using ht

theorem checkTile_untagged {s : State} {tile : Nat} (hv : s.mem.tileVerified tile = false) (h : s.pathFault tile = none) (ht : s.tagOk tile = false) :
    (s.checkTile tile).1 = false ∧ Alarm.integrity (s.tileOwner tile) tile 0 ∈ (s.checkTile tile).2.mem.alarms := by
  unfold State.checkTile
  rw [checkPath_passes h]
  dsimp only
  rw [show State.tagOk { s with mem := { s.mem with metas := (s.pathToRead tile).foldl (fun c m => tput c m.2 false) s.mem.metas } } tile = s.tagOk tile from rfl, ht,
    show MemState.tileVerified { s.mem with metas := (s.pathToRead tile).foldl (fun c m => tput c m.2 false) s.mem.metas } tile = s.mem.tileVerified tile from rfl, hv]
  exact ⟨rfl, List.mem_append_right _ (List.mem_singleton_self _)⟩

theorem checkTile_offPath {s : State} {tile x level : Nat} (h : s.pathFault tile = some (x, level)) :
    (s.checkTile tile).1 = false ∧ Alarm.integrity (s.tileOwner x) x level ∈ (s.checkTile tile).2.mem.alarms := by
  unfold State.checkTile
  rw [checkPath_fails h]
  exact ⟨rfl, List.mem_append_right _ (List.mem_singleton_self _)⟩

theorem verifyTile_fails {s : State} {p tile : Nat} (h : (s.checkTile tile).1 = false) : s.verifyTile p tile = (s.checkTile tile).2 := by
  unfold State.verifyTile
  dsimp only
  rw [if_neg (by simp [h])]

/-- R201: no group waits for a tile that passes. -/
theorem verifyTile_releases {s : State} {p tile : Nat} (h : (s.checkTile tile).1 = true) :
    (∀ x ∈ (s.verifyTile p tile).groups, tile ∉ x.pendTiles) ∧ (s.g.st ≠ .free → tile ∉ (s.verifyTile p tile).g.pendTiles) := by
  have hmap : ∀ u : State, u.g = s.g → let t := u.mapGroups (fun h => h.pendTiles.contains tile) fun h => { h with pendTiles := h.pendTiles.filter fun t => t != tile }
      (∀ x ∈ t.groups, tile ∉ x.pendTiles) ∧ (s.g.st ≠ .free → tile ∉ t.g.pendTiles) := by
    intro u hu
    refine ⟨fun x hx => ?_, fun hst => ?_⟩
    · obtain ⟨y, -, rfl⟩ := List.mem_map.mp hx
      split
      · simp
      · next hc => simpa using hc
    · show tile ∉ (if _ then _ else _ : Group).pendTiles
      rw [hu]
      split
      · simp
      · next hc =>
        have : (s.g.st != .free) = true := by simpa using hst
        rw [this, Bool.true_and] at hc
        simpa using hc
  unfold State.verifyTile
  dsimp only
  rw [if_pos h]
  refine hmap _ ?_
  split
  · exact (checkTile_backs s tile).g
  · exact (installTile_backs _ _ _).g.trans (checkTile_backs s tile).g

/-- R194: a tile that has a version left gets the next one, and its tag. -/
theorem putTile_written {s : State} {tile : Nat} (img : Memory) (h : s.tileSpent tile = false) :
    (s.putTile tile img).mem.img = img ∧ (tget ({} : Tile) (s.putTile tile img).mem.tiles tile).ver = (tget ({} : Tile) s.mem.tiles tile).ver + 1 ∧ (s.putTile tile img).tagOk tile = true := by
  have key : ∀ (p : Partition) (e : Tile) (u : State), u.mem.img = img → u.part (u.tileOwner tile) = p → tget ({} : Tile) u.mem.tiles tile = e →
      e.ver = (tget ({} : Tile) s.mem.tiles tile).ver + 1 → e.tag = some (tileTag p.kmac tile e.ver (tileCipher p.aes tile e.ver (mbytes img (4096 * tile) 4096))) →
      u.mem.img = img ∧ (tget ({} : Tile) u.mem.tiles tile).ver = (tget ({} : Tile) s.mem.tiles tile).ver + 1 ∧ u.tagOk tile = true := by
    intro p e u hi hp he hv htag
    refine ⟨hi, he ▸ hv, ?_⟩
    unfold State.tagOk State.ciphertext
    simp only [he, hp, hi, htag, beq_self_eq_true]
  unfold State.putTile
  rw [if_neg (by simp [h])]
  dsimp only
  split <;> exact key _ _ _ rfl rfl (by rw [tget_tset, if_pos rfl]) rfl rfl

/-- A dirty tile that passes its check and has a version left is written back. -/
theorem writeback_written {s : State} {tile : Nat} (h : s.pathFault tile = none) (ht : s.mem.tileVerified tile = true ∨ s.tagOk tile = true) (hs : s.tileSpent tile = false) (hw : s.mem.hbm.wf = true) :
    (tget ({} : Tile) (s.writeback tile).mem.tiles tile).ver = (tget ({} : Tile) s.mem.tiles tile).ver + 1 ∧ (s.writeback tile).tagOk tile = true ∧
      mbytes (s.writeback tile).mem.img (4096 * tile) 4096 = mbytes s.mem.hbm (4096 * tile) 4096 := by
  unfold State.writeback
  rw [checkTile_passes h ht]
  dsimp only
  rw [if_neg (by simp), if_neg (by rw [Bool.not_eq_true]; exact hs)]
  obtain ⟨himg, hver, htag⟩ := putTile_written (s := { s with mem := { s.mem with
      metas := (s.pathToRead tile).foldl (fun c m => tput c m.2 false) s.mem.metas
      l2 := s.mem.l2.map fun e => if e.1 / 32 = tile then (e.1, { e.2 with dirty := false }) else e } }) (mcopyRange s.mem.img s.mem.hbm (4096 * tile) (4096 * tile + 4096)) hs
  refine ⟨hver, htag, ?_⟩
  rw [himg]
  exact mbytes_congr fun x h1 h2 => mget_mcopyRange_inside _ _ _ _ _ hw ⟨h1, h2⟩

theorem cleanTile_same (s : State) (tile : Nat) : s.SameBytes (s.cleanTile tile) := by
  unfold State.cleanTile
  split
  · exact writeback_same s tile
  · exact SameBytes.refl s

theorem putTile_same (s : State) (tile : Nat) (img : Memory) : s.SameBytes (s.putTile tile img) := by
  unfold State.putTile
  split
  · exact ⟨rfl, rfl, rfl, rfl, rfl, rfl⟩
  · dsimp only
    split <;> exact ⟨rfl, rfl, rfl, rfl, rfl, rfl⟩

theorem checkPath_same (s : State) (tile : Nat) : s.SameBytes (s.checkPath tile).2 := SameBytes.of_backs (checkPath_backs s tile)

theorem dropMeta_same (s : State) (tile : Nat) : s.SameBytes (s.dropMeta tile) := by
  unfold State.dropMeta
  split
  · dsimp only
    split
    · exact checkPath_same s tile
    · exact SameBytes.trans (checkPath_same s tile) (SameBytes.trans (putTile_same _ tile _) ⟨rfl, rfl, rfl, rfl, rfl, rfl⟩)
  · exact ⟨rfl, rfl, rfl, rfl, rfl, rfl⟩

/-- R201 item 5: a metadata tile whose path passes leaves the metadata cache. -/
theorem dropMeta_leaves {s : State} {tile : Nat} (h : s.pathFault tile = none) : thas (s.dropMeta tile).mem.metas tile = false := by
  have hdel : ∀ t : Tbl Bool, thas (tdel t tile) tile = false := fun t => List.any_eq_false.mpr fun x hx => by
    have := (List.mem_filter.mp hx).2
    simpa using this
  unfold State.dropMeta
  rw [checkPath_passes h]
  dsimp only
  split
  · exact hdel _
  · exact hdel _

theorem dropMeta_version {s : State} {tile : Nat} (hd : tget false s.mem.metas tile = true) (h : s.pathFault tile = none) (hs : s.tileSpent tile = false) :
    (tget ({} : Tile) (s.dropMeta tile).mem.tiles tile).ver = (tget ({} : Tile) s.mem.tiles tile).ver + 1 := by
  unfold State.dropMeta
  rw [if_pos hd, checkPath_passes h]
  exact (putTile_written (s := { s with mem := { s.mem with metas := (s.pathToRead tile).foldl (fun c m => tput c m.2 false) s.mem.metas } }) _ hs).2.1

/-! ### Frames -/

/-- The bytes of a frame that was cleared read zero. -/
theorem zeroFrame_hbm (s : State) (frame : Nat) : (s.zeroFrame frame).SameBytes { s with mem := { s.mem with hbm := mclear s.mem.hbm (65536 * frame) (65536 * frame + 65536) } } := by
  unfold State.zeroFrame
  dsimp only
  have hfold : ∀ (l : List Nat) (u : State), u.SameBytes (l.foldl (fun s i =>
      if (s.checkPath (16 * frame + i)).1 then (s.checkPath (16 * frame + i)).2.putTile (16 * frame + i) (mclear (s.checkPath (16 * frame + i)).2.mem.img (4096 * (16 * frame + i)) (4096 * (16 * frame + i) + 4096))
      else (s.checkPath (16 * frame + i)).2) u) := by
    intro l
    induction l with
    | nil => exact fun u => SameBytes.refl u
    | cons i l ih =>
      intro u
      refine SameBytes.trans ?_ (ih _)
      dsimp only
      split
      · exact SameBytes.trans (checkPath_same u _) (putTile_same _ _ _)
      · exact checkPath_same u _
  exact SameBytes.trans (SameBytes.symm (hfold _ _)) ⟨rfl, rfl, rfl, rfl, rfl, rfl⟩

theorem zeroFrame_zero (s : State) (frame : Nat) {a : Nat} (h : a < 65536) : mget (s.zeroFrame frame).mem.hbm (65536 * frame + a) = 0 := by
  rw [show (s.zeroFrame frame).mem.hbm = mclear s.mem.hbm (65536 * frame) (65536 * frame + 65536) from (zeroFrame_hbm s frame).hbm.symm, mget_mclear, if_pos (by omega)]

theorem zeroFrame_bad (s : State) (frame : Nat) : (s.zeroFrame frame).mem.bad = s.mem.bad := (zeroFrame_hbm s frame).bad.symm

/-- A frame with nothing listed in it reads zero already. -/
theorem cleared_zero (s : State) (frame : Nat) {a : Nat} (h : a < 65536) : mget (s.cleared frame).mem.hbm (65536 * frame + a) = 0 := by
  unfold State.cleared
  split
  · exact zeroFrame_zero s frame h
  · next hno =>
    refine mget_unlisted _ _ (List.any_eq_false.mpr fun c hc => ?_)
    simp only [Bool.or_eq_true, not_or, List.any_eq_true, not_exists, not_and, beq_iff_eq] at hno ⊢
    exact fun he => hno.1 c hc (by omega)

theorem cleared_accesses (s : State) (frame : Nat) : s.Accesses (s.cleared frame) := by
  unfold State.cleared
  split
  · exact zeroFrame_accesses s frame
  · exact .refl s

theorem cleared_bad (s : State) (frame : Nat) : (s.cleared frame).mem.bad = s.mem.bad := by
  unfold State.cleared
  split
  · exact zeroFrame_bad s frame
  · rfl

theorem part_accesses {s t : State} (h : s.Accesses t) (p : Nat) : t.part p = s.part p := by
  rw [h.eq]
  rfl

/-- With no `pcommit` waiting, a frame of the pool serves nobody. -/
theorem servePool_idle {s : State} {p : Nat} (h : (s.part p).poolWait = []) : s.servePool p = s := by
  unfold State.servePool
  dsimp only
  rw [h, List.take_nil]
  rfl

theorem setPart_only (s : State) (p : Nat) (x : Partition) : s.OnlyPart (s.setPart p x) p := ⟨by rfl, fun p' h => part_setPart_other s p p' x h⟩

theorem ckpt_key {s : State} {p : Nat} {k : Checkpoint} (h : s.standing p = some k) : k.part = p ∧ k.status = 2 := by
  have := List.find?_some h
  simpa using this

/-- A standing checkpoint put back under its own number stands. -/
theorem putCkpt_standing {s : State} {p : Nat} {k x : Checkpoint} (h : s.standing p = some k) (hp : x.part = k.part) (hn : x.num = k.num) (hs : x.status = k.status) : (s.putCkpt x).standing p = some x := by
  obtain ⟨kp, ks⟩ := ckpt_key h
  unfold State.standing State.putCkpt at *
  dsimp only
  have hx : (x.part == p && x.status == 2) = true := by simp [hp, hs, kp, ks]
  generalize s.plat.ckpts = l at h ⊢
  induction l with
  | nil => cases h
  | cons c l ih =>
    rw [List.map_cons]
    by_cases hc : (c.part = x.part && c.num = x.num) = true
    · rw [if_pos hc, List.find?_cons_of_pos (p := fun k : Checkpoint => k.part == p && k.status == 2) hx]
    · by_cases hq : (c.part == p && c.status == 2) = true
      · rw [List.find?_cons_of_pos (p := fun k : Checkpoint => k.part == p && k.status == 2) hq] at h
        cases h
        exact absurd (by simp [hp, hn]) hc
      · rw [List.find?_cons_of_neg (p := fun k : Checkpoint => k.part == p && k.status == 2) hq] at h
        rw [if_neg hc, List.find?_cons_of_neg (p := fun k : Checkpoint => k.part == p && k.status == 2) hq]
        exact ih h

/-- A frame that enters an idle pool. -/
def State.pooled (s : State) (p frame : Nat) : State := s.setPart p { s.part p with pool := (s.part p).pool ++ [frame] }

theorem pooled_serves {s : State} {p frame : Nat} (h : (s.part p).poolWait = []) : (s.pooled p frame).servePool p = s.pooled p frame :=
  servePool_idle (by rw [State.pooled, part_setPart]; exact h)

theorem pooled_zero (s : State) (p frame : Nat) {a : Nat} (h : a < 65536) : ((s.zeroFrame frame).pooled p frame).peek ⟨.hbm, 65536 * frame + a⟩ 1 = [0] := by
  have hz := zeroFrame_zero s frame h
  generalize s.zeroFrame frame = u at hz ⊢
  exact peek_zero hz

/-- R369: a frame comes to the pool, or to the checkpoint pool. -/
theorem frame_arrives {part frame : Nat} {s : State} (hp : part < 64) (hf : frame ∈ (s.part part).frames) (hbad : s.mem.bad = none) (h1 : frame ∉ (s.part part).pool) (h2 : frame ∉ (s.part part).ckpool)
    (h3 : frame ∉ (s.part part).metaFrames) (h4 : frame ∉ (s.part part).freeing) (h5 : ∀ x ∈ (s.part part).slices, x / 65536 ≠ frame) (h6 : frame ∉ s.heldFrames part) :
    ((s.part part).poolWait = [] → exec (.poolFrameArrival part frame) s = .next ((s.cleared frame).pooled part frame)) ∧
      exec (.poolFrameArrival (64 + part) frame) s = .next (s.setPart part { s.part part with ckpool := (s.part part).ckpool ++ [frame] }) := by
  have hbusy : ((s.part part).pool.contains frame || (s.part part).ckpool.contains frame || (s.part part).metaFrames.contains frame || (s.part part).freeing.contains frame ||
      ((s.part part).slices.any fun x => x / 65536 == frame) || (s.heldFrames part).contains frame) = false := by
    have h5' : ((s.part part).slices.any fun x => x / 65536 == frame) = false := List.any_eq_false.mpr fun x hx => by simpa using h5 x hx
    simp [h1, h2, h3, h4, h5', h6]
  refine ⟨fun hw => ?_, ?_⟩
  · show execPoolFrameArrival part frame s = _
    unfold execPoolFrameArrival
    dsimp only
    rw [Nat.mod_eq_of_lt hp, hbusy, if_neg (by simp [hf]), if_neg (by simp; omega)]
    exact (congrArg answer (pooled_serves (by rw [part_accesses (cleared_accesses s frame)]; exact hw))).trans (answer_of ((cleared_bad s frame).trans hbad))
  · show execPoolFrameArrival (64 + part) frame s = _
    unfold execPoolFrameArrival
    dsimp only
    rw [show (64 + part) % 64 = part by omega, hbusy, if_neg (by simp [hf]), if_pos (by simp)]
    exact answer_of hbad

/-- R371: an unmapped frame goes to the pool, or where a checkpoint stands to it. -/
theorem frame_freed {part frame : Nat} {s : State} (hbad : s.mem.bad = none) (hf : frame ∈ (s.part part).freeing) :
    (s.standing part = none → (s.part part).poolWait = [] →
      ∃ t, exec (.freedFrameToPool part frame) s = .next t ∧ (t.part part).pool = (s.part part).pool ++ [frame] ∧ (t.part part).freeing = (s.part part).freeing.erase frame ∧
        ∀ a, a < 65536 → t.peek ⟨.hbm, 65536 * frame + a⟩ 1 = [0]) ∧
    ∀ k, s.standing part = some k → ∃ t, exec (.freedFrameToPool part frame) s = .next t ∧ (t.part part).freeing = (s.part part).freeing.erase frame ∧ (t.part part).pool = (s.part part).pool ∧
      t.standing part = some { k with freed := k.freed ++ [frame] } := by
  let u := s.setPart part { s.part part with freeing := (s.part part).freeing.erase frame }
  have hu : u.part part = { s.part part with freeing := (s.part part).freeing.erase frame } := part_setPart _ _ _
  have hz : (u.zeroFrame frame).part part = { s.part part with freeing := (s.part part).freeing.erase frame } := (part_accesses (zeroFrame_accesses u frame) part).trans hu
  refine ⟨fun hs hw => ⟨(u.zeroFrame frame).pooled part frame, ?_, ?_, ?_, fun a ha => pooled_zero u part frame ha⟩, fun k hk => ⟨_, ?_, ?_, ?_, putCkpt_standing (s := { u with mem := { u.mem with
      hbm := mcopyRange u.mem.hbm u.mem.img (65536 * frame) (65536 * frame + 65536), l2 := u.mem.l2.filter fun e => e.1 / 512 != frame, l1 := u.mem.l1.filter fun c => c.line / 512 != frame } }) (x := { k with freed := k.freed ++ [frame] }) hk rfl rfl rfl⟩⟩
  · show execFreedFrameToPool part frame s = _
    unfold execFreedFrameToPool
    dsimp only
    rw [if_neg (by simp [hf]), show (s.setPart part _).standing part = none from hs]
    dsimp only
    have hb : (u.zeroFrame frame).mem.bad = none := (zeroFrame_bad u frame).trans hbad
    have hw' : ((u.zeroFrame frame).part part).poolWait = [] := by rw [hz]; exact hw
    show answer (((u.zeroFrame frame).pooled part frame).servePool part) = _
    generalize u.zeroFrame frame = v at hb hw' ⊢
    rw [pooled_serves hw']
    exact answer_of hb
  · rw [State.pooled, part_setPart, hz]
  · rw [State.pooled, part_setPart, hz]
  · show execFreedFrameToPool part frame s = _
    unfold execFreedFrameToPool
    dsimp only
    rw [if_neg (by simp [hf]), show (s.setPart part _).standing part = some k from hk]
    exact answer_of hbad
  · exact (congrArg Partition.freeing hu).trans rfl
  · exact (congrArg Partition.pool hu).trans rfl

/-- R371: a frame of nobody passes to a partition, with a metadata frame where its tiles need one. -/
theorem frame_handed {part frame : Nat} {s : State} (hst : (s.part part).st = .active) (hin : 65536 * frame < Config.hbmBytes) (ho : s.frameOwner frame = none) (hbad : s.mem.bad = none) :
    ∃ t, exec (.frameHandOver part frame) s = .next t ∧ (t.part part).frames = (s.part part).frames ++ [frame] ∧ (∀ a, a < 65536 → t.peek ⟨.hbm, 65536 * frame + a⟩ 1 = [0]) ∧
      (t.part part).metaFrames = (s.part part).metaFrames ++ (if metaFits (s.part part).metaFrames.length ((s.part part).frames.length + 1) then [] else [frame]) := by
  let p : Partition := { s.part part with frames := (s.part part).frames ++ [frame], metaFrames := if metaFits (s.part part).metaFrames.length ((s.part part).frames.length + 1) then (s.part part).metaFrames else (s.part part).metaFrames ++ [frame] }
  let upper := if p.placeMetas.metas = p.metas then [] else (p.placeMetas.metas.drop 1).filterMap List.getLast?
  let t : State := { ((s.freshFrames [frame]).setPart part p.placeMetas) with mem := { (s.freshFrames [frame]).mem with metas := upper.foldl (fun t m => tput t m true) (s.freshFrames [frame]).mem.metas } }
  have hpart : t.part part = p.placeMetas := part_setPart _ _ _
  refine ⟨t, ?_, congrArg Partition.frames hpart, fun a ha => peek_zero ?_, (congrArg Partition.metaFrames hpart).trans ?_⟩
  · show execFrameHandOver part frame s = _
    unfold execFrameHandOver
    dsimp only
    rw [if_neg (by simp [hst, ho]; omega)]
    exact answer_of hbad
  · refine mget_unlisted _ _ (List.any_eq_false.mpr fun c hc => ?_)
    have := (List.mem_filter.mp hc).2
    simp only [beq_iff_eq]
    intro he
    dsimp only at this
    rw [he, show (65536 * frame + a) / 65536 = frame by omega] at this
    simp at this
  · show (if metaFits _ _ then (s.part part).metaFrames else (s.part part).metaFrames ++ [frame]) = _
    split
    · rw [List.append_nil]
    · rfl

/-- Settles O52: the walker installs what it takes; a check, a write-back and a frame's move are read off their functions. -/
theorem memorySystemSteps : Obligations.MemorySystemSteps := by
  unfold Obligations.MemorySystemSteps
  refine ⟨fun core part ctx va kind s hcore hctx hq hva hap hbad => ⟨?_, fun l leaf h => walk_installs h⟩, fun tile s hbad => ?_, fun tile p s hown hbad => ⟨fun hmeta => ?_, fun place hmeta => ?_⟩,
    fun part frame s hp hf hbad => ⟨fun h1 h2 h3 h4 h5 h6 => ⟨fun hw => ⟨_, (frame_arrives hp hf hbad h1 h2 h3 h4 h5 h6).1 hw, ?_, fun a ha => peek_zero (cleared_zero s frame ha)⟩,
        _, (frame_arrives hp hf hbad h1 h2 h3 h4 h5 h6).2, part_setPart _ _ _, setPart_only _ _ _⟩,
      fun hfr hs hw => (frame_freed hbad hfr).1 hs hw, fun k hfr hk => (frame_freed hbad hfr).2 k hk⟩,
    fun part frame s hst hin ho hbad => frame_handed hst hin ho hbad⟩
  · show execPageWalk core part ctx va kind s = _
    unfold execPageWalk
    rw [if_neg (by simp [hap, hctx, hq]; exact ⟨hcore, hva⟩)]
    exact answer_of hbad
  · have hexec : exec (.tileVerification tile) s = answer (if s.mem.tileVerified tile && s.allGroups.all fun h => !h.pendTiles.contains tile then s else s.verifyTile (s.tileOwner tile) tile) := rfl
    by_cases hidle : (s.mem.tileVerified tile && s.allGroups.all fun h => !h.pendTiles.contains tile) = true
    · rw [if_pos hidle] at hexec
      obtain ⟨hv, hall⟩ := Bool.and_eq_true_iff.mp hidle
      have hnone : ∀ h ∈ s.allGroups, tile ∉ h.pendTiles := fun h hm => by simpa using List.all_eq_true.mp hall h hm
      refine ⟨s, hexec.trans (answer_of hbad), fun _ _ => rfl, fun _ _ => ⟨fun h hm => hnone h (List.mem_append_right _ hm), fun hst => hnone s.g ?_⟩, fun hno => ?_, fun x level hno => ?_⟩
      · exact List.mem_append_left _ (by rw [if_neg hst]; exact List.mem_singleton_self _)
      · rw [hv] at hno; cases hno
      · rw [hv] at hno; cases hno
    · rw [if_neg hidle] at hexec
      have hsame := verifyTile_same s (s.tileOwner tile) tile
      refine ⟨_, hexec.trans (answer_of (hsame.bad.trans hbad)), fun l hl => SameBytes.peek hsame l 1 hl, fun hpath hok => verifyTile_releases (congrArg Prod.fst (checkTile_passes hpath hok)), fun hno hpath htag => ?_, fun x level hno hpath => ?_⟩
      · rw [verifyTile_fails (checkTile_untagged hno hpath htag).1]
        exact (checkTile_untagged hno hpath htag).2
      · rw [verifyTile_fails (checkTile_offPath hpath).1]
        exact (checkTile_offPath hpath).2
  · have hsame := cleanTile_same s tile
    refine ⟨{ s.cleanTile tile with mem := { (s.cleanTile tile).mem with l2 := (s.cleanTile tile).mem.l2.filter fun e => e.1 / 32 != tile } }, ?_, fun l hl => SameBytes.peek hsame l 1 hl, fun e he => by simpa using (List.mem_filter.mp he).2,
      fun hdirty hpath hok hspent hw _ => ?_⟩
    · show execTileWriteback tile s = _
      unfold execTileWriteback
      rw [hown]
      dsimp only
      rw [hmeta, if_neg (by simp)]
      exact answer_of (hsame.bad.trans hbad)
    · have hc : s.cleanTile tile = s.writeback tile := if_pos hdirty
      have hwrite := writeback_written hpath hok hspent hw
      rw [← hc] at hwrite
      exact hwrite
  · refine ⟨s.dropMeta tile, ?_, fun l hl => SameBytes.peek (dropMeta_same s tile) l 1 hl, dropMeta_leaves, dropMeta_version⟩
    show execTileWriteback tile s = _
    unfold execTileWriteback
    rw [hown]
    dsimp only
    rw [hmeta, if_pos (by simp)]
    exact answer_of ((dropMeta_same s tile).bad.trans hbad)
  · rw [State.pooled, part_setPart, part_accesses (cleared_accesses s frame)]

end Sys2Proof.Machine
end

section
/-! What the platform writes and keeps: zeros, the numbers of the blocks, new partitions (R333, R311, R403). -/

namespace Sys2Proof.Machine

open Sys2Proof

/-! ### Zeros written to rings -/

/-- The bytes of t are those of s, but zeros for the k from a on in one memory. -/
structure State.Zeroes (s t : State) (sp : Space) (a k : Nat) : Prop where
  byte : ∀ x : Loc, x.space.isMemory = true → t.peek x 1 = if x.space = sp ∧ a ≤ x.addr ∧ x.addr < a + k then [0] else s.peek x 1

theorem State.Zeroes.nothing (s : State) (sp : Space) (a : Nat) : s.Zeroes s sp a 0 := ⟨fun x _ => (if_neg (by omega)).symm⟩

theorem State.Zeroes.append {s t u : State} {sp : Space} {a k j : Nat} (h : s.Zeroes t sp a k) (g : t.Zeroes u sp (a + k) j) : s.Zeroes u sp a (k + j) := by
  refine ⟨fun x hx => ?_⟩
  rw [g.byte x hx, h.byte x hx]
  by_cases hs : x.space = sp
  · simp only [hs, true_and]
    split
    · rw [if_pos (by omega)]
    · split
      · rw [if_pos (by omega)]
      · rw [if_neg (by omega)]
  · simp [hs]

theorem State.Zeroes.of_same {s t u v : State} {sp : Space} {a k : Nat} (h : s.SameBytes t) (z : t.Zeroes u sp a k) (g : u.SameBytes v) : s.Zeroes v sp a k :=
  ⟨fun x hx => by rw [SameBytes.peek g x 1 hx, z.byte x hx, SameBytes.peek h x 1 hx]⟩

/-- What reads zero still does. -/
theorem State.Zeroes.keeps {s t : State} {sp : Space} {a k : Nat} (z : s.Zeroes t sp a k) {x : Loc} (hx : x.space.isMemory = true) (h : s.peek x 1 = [0]) : t.peek x 1 = [0] := by
  rw [z.byte x hx]
  split
  · rfl
  · exact h

theorem poke_zeroes {s : State} {sp : Space} (hs : sp = .hbm ∨ sp = .host) (a k : Nat) (h : (s.poke ⟨sp, a⟩ (List.replicate k 0)).mem.bad = none) : s.Zeroes (s.poke ⟨sp, a⟩ (List.replicate k 0)) sp a k := by
  have hin : Loc.inMemory ⟨sp, a⟩ (List.replicate k (0 : Byte)).length = true := by
    rcases hs with rfl | rfl
    · unfold State.poke at h
      dsimp only at h
      split at h
      · cases h
      · next hr => simpa [Loc.inMemory, Space.isMemory] using hr
    · rfl
  obtain ⟨hbytes, hother, -⟩ := poke_peek s ⟨sp, a⟩ (List.replicate k 0) hin
  rw [List.length_replicate] at hbytes hother
  refine ⟨fun x hx => ?_⟩
  split
  · next hc =>
    obtain ⟨xs, xa⟩ := x
    obtain ⟨rfl, h1, h2⟩ := hc
    change a ≤ xa at h1
    change xa < a + k at h2
    change xs = .hbm ∨ xs = .host at hs
    have hget : ∀ m : Memory, mbytes m a k = List.replicate k 0 → mbytes m xa 1 = [0] := fun m hm => by
      have := congrArg (fun l => l[xa - a]?) hm
      simp only [mbytes, List.getElem?_map, List.getElem?_range (show xa - a < k by omega), List.getElem?_replicate, if_pos (show xa - a < k by omega), Option.map_some, Option.some.injEq] at this
      rw [mbytes_one, ← this, show a + (xa - a) = xa by omega]
    rcases hs with rfl | rfl
    · exact hget _ hbytes
    · exact hget _ hbytes
  · next hc => exact hother x hx hc

theorem storeAt_zeroes {s : State} {w : Who} {sp : Space} (hs : sp = .hbm ∨ sp = .host) (a k : Nat) (h : (s.storeAt w none false ⟨sp, a⟩ (List.replicate k 0)).mem.bad = none) :
    s.Zeroes (s.storeAt w none false ⟨sp, a⟩ (List.replicate k 0)) sp a k ∧ s.mem.bad = none := by
  have hsame := storeAt_same s w none false ⟨sp, a⟩ (List.replicate k 0) fun c hc => by rcases hs with rfl | rfl <;> cases hc
  have hb : (s.poke ⟨sp, a⟩ (List.replicate k 0)).mem.bad = none := hsame.bad.symm.trans h
  refine ⟨.of_same (SameBytes.refl s) (poke_zeroes hs a k hb) hsame, ?_⟩
  unfold State.poke at hb
  rcases hs with rfl | rfl
  · dsimp only at hb
    split at hb
    · cases hb
    · exact hb
  · exact hb

theorem linePieces_zeros (n a k : Nat) : linePieces (n + 1) a (List.replicate (k + 1) 0) =
    (a, List.replicate (min (128 - a % 128) (k + 1)) 0) :: linePieces n (a + (128 - a % 128)) (List.replicate (k + 1 - (128 - a % 128)) 0) := by
  rw [List.replicate_succ, linePieces, ← List.replicate_succ, List.take_replicate, List.drop_replicate]

theorem pieces_zeroes (w : Who) {sp : Space} (hs : sp = .hbm ∨ sp = .host) (n a k : Nat) (s : State) (hn : k + a % 128 ≤ 128 * n)
    (h : ((linePieces n a (List.replicate k 0)).foldl (fun (s : State) p => s.storeAt w none false ⟨sp, p.1⟩ p.2) s).mem.bad = none) :
    s.Zeroes ((linePieces n a (List.replicate k 0)).foldl (fun (s : State) p => s.storeAt w none false ⟨sp, p.1⟩ p.2) s) sp a k ∧ s.mem.bad = none := by
  induction n generalizing a k s with
  | zero =>
    obtain rfl : k = 0 := by omega
    exact ⟨.nothing s sp a, h⟩
  | succ n ih =>
    cases k with
    | zero => exact ⟨.nothing s sp a, h⟩
    | succ k =>
      rw [linePieces_zeros, List.foldl_cons] at h ⊢
      dsimp only at h ⊢
      obtain ⟨hrest, hbad⟩ := ih (a + (128 - a % 128)) (k + 1 - (128 - a % 128)) _ (by omega) h
      obtain ⟨hfirst, hb⟩ := storeAt_zeroes hs a (min (128 - a % 128) (k + 1)) hbad
      refine ⟨?_, hb⟩
      by_cases hk : k + 1 ≤ 128 - a % 128
      · rw [show k + 1 - (128 - a % 128) = 0 by omega] at hrest ⊢
        have hnil : ∀ m b, linePieces m b (List.replicate 0 (0 : Byte)) = [] := fun m b => by cases m <;> rfl
        rw [hnil] at hrest ⊢
        rw [Nat.min_eq_right hk] at hfirst ⊢
        exact hfirst
      · rw [Nat.min_eq_left (show 128 - a % 128 ≤ k + 1 by omega)] at hfirst hrest ⊢
        have := hfirst.append hrest
        rwa [show 128 - a % 128 + (k + 1 - (128 - a % 128)) = k + 1 by omega] at this

/-- Zeros written to a ring or its control block stand there. -/
theorem ringStore_zeroes {s : State} {p a k : Nat} (h : (s.ringStore p a (List.replicate k 0)).mem.bad = none) :
    s.Zeroes (s.ringStore p a (List.replicate k 0)) (ringLoc a).space a k ∧ s.mem.bad = none := by
  have haddr : (ringLoc a).addr = a := by unfold ringLoc; split <;> rfl
  unfold State.ringStore State.storeRun at h ⊢
  rw [haddr, List.length_replicate] at h ⊢
  obtain ⟨z, hb⟩ := pieces_zeroes (partWho p) (ringLoc_space a) _ a k _ (by omega) h
  exact ⟨.of_same (translated_same s a k) z (SameBytes.refl _), (translated_same s a k).bad.symm.trans hb⟩

/-- A run inside local HBM meets no address that does not exist. -/
theorem pieces_inside (w : Who) (n a : Nat) (bs : List Byte) (s : State) (h : a + bs.length ≤ Config.hbmBytes) :
    ((linePieces n a bs).foldl (fun (s : State) p => s.storeAt w none false ⟨.hbm, p.1⟩ p.2) s).mem.bad = s.mem.bad := by
  induction n generalizing a bs s with
  | zero => rfl
  | succ n ih =>
    cases bs with
    | nil => rfl
    | cons b r =>
      rw [linePieces, List.foldl_cons]
      have hl : ((b :: r).take (128 - a % 128)).length ≤ (b :: r).length := by rw [List.length_take]; omega
      by_cases hd : 128 - a % 128 ≤ (b :: r).length
      · rw [ih _ _ _ (by rw [List.length_drop]; omega)]
        exact (storeAt_peek s w none false ⟨.hbm, a⟩ _ (by simp only [Loc.inMemory, Space.isMemory, bne_self_eq_false, Bool.false_or, Bool.true_and, decide_eq_true_eq]; omega) nofun).2.2
      · rw [List.drop_eq_nil_of_le (by omega), show linePieces n (a + (128 - a % 128)) [] = [] by cases n <;> rfl]
        exact (storeAt_peek s w none false ⟨.hbm, a⟩ _ (by simp only [Loc.inMemory, Space.isMemory, bne_self_eq_false, Bool.false_or, Bool.true_and, decide_eq_true_eq]; omega) nofun).2.2


/-! ### The numbers of the blocks -/

/-- No block comes or goes. -/
structure State.SameIds (s t : State) : Prop where
  ids : t.work.blocks.map Block.id = s.work.blocks.map Block.id

theorem State.SameIds.of_blocks {s t : State} (h : t.work.blocks = s.work.blocks) : s.SameIds t := ⟨by rw [h]⟩

theorem State.SameIds.refl (s : State) : s.SameIds s := ⟨rfl⟩

theorem State.SameIds.trans {s t u : State} (h : s.SameIds t) (k : t.SameIds u) : s.SameIds u := ⟨k.ids.trans h.ids⟩

theorem State.SameIds.fold {α : Type} (f : State → α → State) (h : ∀ (s : State) (a : α), s.SameIds (f s a)) (l : List α) (s : State) : s.SameIds (l.foldl f s) := by
  induction l generalizing s with
  | nil => exact .refl s
  | cons a l ih => exact (h s a).trans (ih _)

theorem State.SameIds.of_enters {s t : State} (h : s.Enters t) : s.SameIds t := .of_blocks (by rw [h.eq])

theorem State.SameIds.of_accesses {s t : State} (h : s.Accesses t) : s.SameIds t := .of_enters (.of_accesses h)

/-- Blocks that keep their numbers. -/
theorem State.SameIds.of_map {s t : State} {f : Block → Block} (h : t.work.blocks = s.work.blocks.map f) (hf : ∀ b, (f b).id = b.id) : s.SameIds t :=
  ⟨by rw [h, List.map_map]; exact List.map_congr_left fun b _ => hf b⟩

theorem mapGroups_ids (s : State) (p : Group → Bool) (f : Group → Group) : s.SameIds (s.mapGroups p f) := .of_blocks rfl

theorem progress_ids (s : State) (p c : Nat) : s.SameIds (s.progress p c) := .of_blocks rfl

theorem putGroup_ids (s : State) (h : Group) : s.SameIds (s.putGroup h) := .of_accesses (putGroup_accesses s h)

theorem putWord_ids (s : State) (p a v : Nat) : s.SameIds (s.putWord p a v) := .of_accesses (storeRun_accesses s _ _ _)

theorem checkout_ids (s : State) (uid : Nat) : s.SameIds (s.checkout uid) := by
  unfold State.checkout
  split
  · exact .refl s
  · split
    · exact .of_blocks rfl
    · exact .refl s

theorem escalate_ids (s : State) (r : FaultRec) : s.SameIds (s.escalate r) := by
  unfold State.escalate
  dsimp only
  refine State.SameIds.trans ?_ (.of_enters (docket_enters _ _ _ _ _ _ _))
  split
  · exact .of_map (f := fun (b : Block) => if b.id = s.g.blk then { b with faulted := true } else b) rfl fun b => by split <;> rfl
  · exact .of_blocks rfl

theorem recordPlaces_enters (qs : List Nat) (ls : List Loc) (s : State) : s.Enters (s.recordPlaces qs ls).2 := by
  induction qs generalizing ls s with
  | nil => exact .of_accesses (.refl s)
  | cons q qs ih =>
    unfold State.recordPlaces
    dsimp only
    split
    · exact (translate_enters s _ _ _).trans (ih _ _)
    · exact translate_enters s _ _ _

theorem vector_enters (s : State) (code : Nat) : s.Enters (s.vector code).2 := by
  unfold State.vector
  dsimp only
  split
  · exact (translate_enters s _ _ _).trans (.of_accesses (loadVerified_accesses _ _ _ _))
  · exact translate_enters s _ _ _

theorem enterHandler_ids (s : State) (r : FaultRec) : s.SameIds (s.enterHandler r).1 := by
  have hplaces := State.SameIds.of_enters (recordPlaces_enters [0, 1, 2, 3] [] s)
  unfold State.enterHandler
  split
  · exact escalate_ids s r
  · generalize s.recordPlaces [0, 1, 2, 3] [] = x at hplaces ⊢
    obtain ⟨places, u⟩ := x
    cases places with
    | none => exact hplaces.trans (escalate_ids u r)
    | some ls =>
      have hvec := State.SameIds.of_enters (vector_enters u r.code)
      dsimp only at hplaces ⊢
      generalize u.vector r.code = y at hvec ⊢
      obtain ⟨entry, v⟩ := y
      cases entry with
      | none => exact hplaces.trans (hvec.trans (escalate_ids v r))
      | some e =>
        refine hplaces.trans (hvec.trans ?_)
        generalize List.range 4 = qs
        exact (State.SameIds.fold _ (fun s q => .of_accesses (storeRun_accesses s _ _ _)) qs v).trans (.of_blocks rfl)

theorem trapRec_ids (s : State) (r : FaultRec) (space : Nat) : s.SameIds (s.trapRec r space).1 := by
  have key : ∀ g h : Group, s.SameIds (if g.inreg then ({ s with g := h }, false) else State.enterHandler { s with g := g } r).1 := fun g h => by
    split
    · exact .of_blocks rfl
    · exact ⟨(enterHandler_ids { s with g := g } r).ids⟩
  exact key _ _

theorem faultWaiter_ids (s : State) (uid code : Nat) (replay : Mask) : s.SameIds (s.faultWaiter uid code replay).1 := by
  have key : ∀ t : State, s.SameIds t → ∀ g own, s.SameIds (State.checkout { t with g := g } own) := fun t h g own => h.trans ⟨(checkout_ids { t with g := g } own).ids⟩
  exact key _ ((checkout_ids s uid).trans (trapRec_ids _ _ _)) _ _

/-- One group met by the end of another. -/
def breakOne (x : Group) (acc : State × List Group) (h : Group) : State × List Group :=
  match brokenBy x h with
  | some (code, replay) =>
    let q := acc.1.faultWaiter h.uid code replay
    (q.1, if q.2 then acc.2 ++ [h] else acc.2)
  | none => acc

theorem breakOne_ids (x : Group) (l : List Group) (acc : State × List Group) : acc.1.SameIds (l.foldl (breakOne x) acc).1 := by
  induction l generalizing acc with
  | nil => exact .refl _
  | cons h l ih =>
    refine State.SameIds.trans ?_ (ih _)
    unfold breakOne
    split
    · exact faultWaiter_ids _ _ _ _
    · exact .refl _

theorem breakWaits_ids (n : Nat) (xs : List Group) (s : State) : s.SameIds (s.breakWaits n xs) := by
  induction n generalizing xs s with
  | zero => exact .refl s
  | succ n ih =>
    cases xs with
    | nil => exact .refl s
    | cons x xs => exact (breakOne_ids x s.allGroups (s, [])).trans (ih _ _)

theorem broken_ids (s : State) (x : Group) : s.SameIds (s.broken x) := breakWaits_ids _ _ s

theorem grant_ids (s : State) (q : Nat) : s.SameIds (s.grant q) := by
  unfold State.grant
  dsimp only
  exact (State.SameIds.fold (fun (s : State) (h : Group) => s.progress h.part h.ctx) (fun s h => progress_ids s _ _) _ s).trans (mapGroups_ids _ _ _)

theorem wake_ids (s : State) (uid : Nat) : s.SameIds (s.wake uid) := by
  unfold State.wake
  split
  · exact .refl s
  · dsimp only
    split
    · exact putGroup_ids s _
    · exact (putGroup_ids s _).trans (progress_ids _ _ _)

theorem withdraw_ids (s : State) (uid : Nat) : s.SameIds (s.withdraw uid) := by
  unfold State.withdraw
  dsimp only
  generalize hu : State.mapGroups (State.mapGroups _ _ _) _ _ = u
  have h : s.SameIds u := .of_blocks (by rw [← hu]; rfl)
  split
  · exact h
  · split
    · exact h.trans (putWord_ids u _ _ _)
    · exact h

theorem dropGroup_ids (s : State) (uid : Nat) : s.SameIds (s.dropGroup uid) := by
  unfold State.dropGroup
  split <;> exact .of_blocks rfl

theorem clearTiles_ids (s : State) (q : Nat) (ts : List Nat) : s.SameIds (s.clearTiles q ts) := by
  unfold State.clearTiles
  split <;> exact .of_blocks rfl

theorem dropSlices_ids (s : State) (uid : Nat) : s.SameIds (s.dropSlices uid) := .of_blocks rfl

theorem wakeWindows_ids (s : State) : s.SameIds s.wakeWindows := State.SameIds.fold (fun (s : State) (h : Group) => s.wake h.uid) (fun s _ => wake_ids s _) _ _

theorem discardGroup_ids (s : State) (uid : Nat) : s.SameIds (s.discardGroup uid) := by
  unfold State.discardGroup
  cases s.group? uid with
  | none => exact .refl s
  | some h => exact ((((withdraw_ids s uid).trans (dropSlices_ids _ uid)).trans (clearTiles_ids _ h.quad h.tiles)).trans (dropGroup_ids _ uid)).trans (wakeWindows_ids _)

theorem freeHandle_ids (s : State) (p e : Nat) : s.SameIds (s.freeHandle p e) := by
  unfold State.freeHandle
  exact putWord_ids s p e _

theorem freeBlockHandles_ids (s : State) (b : Block) : s.SameIds (s.freeBlockHandles b) := by
  have key : ∀ (s v : State) (c d : Bool) (p e : Nat), v.work.blocks = s.work.blocks → s.SameIds (if c = true then State.freeHandle (if d = true then v else s) p e else s) := by
    intro s v c d p e hv
    cases c
    · exact .refl s
    · refine State.SameIds.trans (t := if d = true then v else s) ?_ (freeHandle_ids _ p e)
      cases d
      · exact .refl s
      · exact .of_blocks hv
  unfold State.freeBlockHandles
  refine State.SameIds.fold _ (fun s i => ?_) _ s
  have h := key s { s with mem := { s.mem with hqs := s.mem.hqs.filter fun q => q != s.hqPlace (s.handleAddr b.part b.ctx i) } }
    ((mnat s.mem.hbm (s.handleAddr b.part b.ctx i) 8).testBit 63 && (bitsAt (mnat s.mem.hbm (s.handleAddr b.part b.ctx i) 8) 62 61 == 1 || bitsAt (mnat s.mem.hbm (s.handleAddr b.part b.ctx i) 8) 62 61 == 2) && ownedBy (mnat s.mem.hbm (s.handleAddr b.part b.ctx i) 8) b)
    (decide (bitsAt (mnat s.mem.hbm (s.handleAddr b.part b.ctx i) 8) 62 61 = 2)) b.part (s.handleAddr b.part b.ctx i) rfl
  simp only [decide_eq_true_eq] at h
  exact h

theorem onQueue_ids (s : State) (gidx qid : Nat) (f : Queue → Queue) : s.SameIds (s.onQueue gidx qid f) := by
  unfold State.onQueue
  split <;> exact .of_blocks rfl

theorem correct_ids (s : State) (core gidx key : Nat) (db df : Int) : s.SameIds (s.correct core gidx key db df) := by
  unfold State.correct State.correctAt
  split <;> exact .of_blocks rfl

theorem requeue_ids (s : State) (gidx qid : Nat) (rs : List Rec) : s.SameIds (s.requeue gidx qid rs) := by
  unfold State.requeue
  split <;> exact .of_blocks rfl

theorem completeWait_ids (s : State) (uid : Nat) : s.SameIds (s.completeWait uid) := by
  unfold State.completeWait
  split
  · exact .refl s
  · split
    · exact (putGroup_ids s _).trans (progress_ids _ _ _)
    · exact ((putGroup_ids s _).trans (progress_ids _ _ _)).trans (grant_ids _ _)

theorem ringEntries_accesses (p : Nat) (e : QueueEnt) (n i : Nat) (s : State) : s.Accesses (s.ringEntries p e n i).2 := by
  induction n generalizing i s with
  | zero => exact .refl s
  | succ n ih => exact (ringLoad_accesses s _ _ _).trans (ih (i + 1) _)

theorem popRecs_ids (s : State) (gidx qid n : Nat) : s.SameIds (s.popRecs gidx qid n).2 := by
  unfold State.popRecs
  split
  · dsimp only
    refine State.SameIds.trans ?_ (State.SameIds.trans (.of_accesses (ringEntries_accesses _ _ _ _ _)) (.of_blocks rfl))
    split
    · exact .refl s
    · exact .of_accesses (readShelf_accesses _ _ _ _)
  · exact .refl s

theorem putBlock_ids (s : State) (b : Block) : s.SameIds (s.putBlock b) :=
  .of_map (f := fun x => if x.id = b.id then b else x) rfl fun x => by
    split
    · next h => exact h.symm
    · rfl

theorem holdRecs_ids (s : State) (blk qid : Nat) (rs : List Rec) : s.SameIds (s.holdRecs blk qid rs) := by
  unfold State.holdRecs
  split
  · exact putBlock_ids s _
  · exact .refl s

theorem loadAt_accesses (s : State) (w : Who) (scope : Nat) (stamp : Vers) (l : Loc) (n : Nat) : s.Accesses (s.loadAt w scope stamp l n).2.2 := by
  unfold State.loadAt
  split
  · split
    · exact ⟨rfl⟩
    · dsimp only
      split
      · exact .refl s
      · split
        · exact (State.Accesses.of_lines (touch_lines _ _ _)).trans ⟨rfl⟩
        · exact (State.Accesses.of_lines (touch_lines _ _ _)).trans ⟨rfl⟩
  · exact .refl s

theorem readElem_ids (s : State) (wait : Bool) (tokens : Tbl Nat) (h : Group) (r : Req) (i : Nat) (e : Elem) : s.SameIds (s.readElem wait tokens h r i e) := by
  unfold State.readElem
  dsimp only
  split
  · exact mapGroups_ids s _ _
  · split
    · split
      · exact .of_accesses (loadVerified_accesses s _ _ _)
      · exact (State.SameIds.of_accesses (loadVerified_accesses s _ _ _)).trans (.of_blocks rfl)
    · exact (State.SameIds.of_accesses (loadAt_accesses s _ _ _ _ _)).trans (.of_blocks rfl)

theorem landFills_ids (s : State) (w : Who) : s.SameIds (s.landFills w) := by
  refine State.SameIds.fold _ (fun s _ => State.SameIds.fold _ (fun s _ => State.SameIds.fold _ (fun s _ => ?_) _ s) _ s) _ s
  split
  · split
    · exact readElem_ids s _ _ _ _ _ _
    · exact .refl s
  · exact .refl s

theorem raiseVersion_ids (s : State) (w : Who) (scope : Nat) : s.SameIds (s.raiseVersion w scope) := by
  have hbump : ∀ u : State, u.SameIds (u.bumpVersion w scope) := fun u => by
    unfold State.bumpVersion
    dsimp only
    split <;> exact .of_blocks rfl
  unfold State.raiseVersion
  split
  · exact .refl s
  · refine State.SameIds.trans ?_ (hbump _)
    split
    · exact landFills_ids s w
    · exact .refl s

theorem popInto_ids (s : State) (uid gidx qid : Nat) (act : Mask) (d m : Nat) : s.SameIds (s.popInto uid gidx qid act d m) := by
  unfold State.popInto
  split
  · dsimp only
    refine State.SameIds.trans ?_ (mapGroups_ids _ _ _)
    split
    · exact ((((popRecs_ids s gidx qid (popcount act)).trans (holdRecs_ids _ _ _ _)).trans (correct_ids _ _ _ _ _ _)).trans (raiseVersion_ids _ _ _)).trans (raiseVersion_ids _ _ _)
    · exact (((popRecs_ids s gidx qid (popcount act)).trans (holdRecs_ids _ _ _ _)).trans (correct_ids _ _ _ _ _ _)).trans (raiseVersion_ids _ _ _)
  · exact .refl s

/-- One waiting pop is served. -/
theorem serveOne_ids (s : State) (u : Nat) (w : Option Wait) : s.SameIds (match w with
    | some (.pop g k act d m) => (s.popInto u g k act d m).completeWait u
    | _ => s) := by
  split
  · exact (popInto_ids _ _ _ _ _ _ _).trans (completeWait_ids _ _)
  · exact .refl s

theorem servePops_ids (n gidx qid : Nat) (s : State) : s.SameIds (State.servePops n gidx qid s) := by
  induction n generalizing s with
  | zero => exact .refl s
  | succ n ih =>
    unfold State.servePops
    cases s.queue? gidx qid with
    | none => exact .refl s
    | some q =>
      cases s.queueEnt gidx qid with
      | none => exact .refl s
      | some e =>
        dsimp only
        cases q.popWait with
        | nil => exact .refl s
        | cons u rest =>
          dsimp only
          split
          · exact .refl s
          · exact State.SameIds.trans (t := s.putQueue { q with popWait := rest }) ⟨rfl⟩ ((serveOne_ids _ u _).trans (ih _))

theorem served_ids (s : State) (gidx qid : Nat) : s.SameIds (s.served gidx qid) := servePops_ids _ _ _ s

/-- Its reservations go back to their queues. -/
def State.strikeOuts (s : State) (b : Block) : State :=
  (b.resv.map Prod.fst).eraseDups.foldl (fun s q => (s.onQueue b.gidx q fun x => { x with resv := x.resv - b.resvIn q }).correct (b.cores.getD 0 0) b.gidx q 0 (b.resvIn q)) s

/-- Its records go back to the heads of their queues. -/
def State.strikeHeld (s : State) (b : Block) : State :=
  (b.heldRecs.map Prod.fst).eraseDups.foldl (fun s q =>
    let rs := (b.heldRecs.filter fun r => r.1 == q).map fun r => { r.2 with fails := r.2.fails + 1 }
    ((s.requeue b.gidx q rs).correct (b.cores.getD 0 0) b.gidx q rs.length 0).served b.gidx q) s

/-- A block leaves the machine. -/
def State.dropBlock (s : State) (id : Nat) : State := { s with work := { s.work with blocks := s.work.blocks.filter fun x => x.id != id } }

theorem strikeOuts_ids (s : State) (b : Block) : s.SameIds (s.strikeOuts b) := State.SameIds.fold _ (fun s q => (onQueue_ids s b.gidx q _).trans (correct_ids _ _ _ _ _ _)) _ s

theorem strikeHeld_ids (s : State) (b : Block) : s.SameIds (s.strikeHeld b) := State.SameIds.fold _ (fun s q => ((requeue_ids s b.gidx q _).trans (correct_ids _ _ _ _ _ _)).trans (served_ids _ b.gidx q)) _ s

/-- What is left once the groups of a struck block are gone. -/
def State.strikeRest (s : State) (b : Block) : State :=
  let s := (((s.freeBlockHandles b).dropBlock b.id).strikeOuts b).strikeHeld b
  if b.hdr.inq = 0xFFFF then s.offerAgain b else s

theorem strikeRest_ids {s v : State} {b : Block} (h : s.SameIds v) : (v.strikeRest b).work.blocks.map Block.id = (s.work.blocks.map Block.id).filter fun i => i != b.id := by
  have hpre := h.trans (freeBlockHandles_ids v b)
  unfold State.strikeRest
  rw [← hpre.ids]
  generalize v.freeBlockHandles b = u
  have hrest := (strikeOuts_ids (u.dropBlock b.id) b).trans (strikeHeld_ids _ b)
  have hdrop : (u.dropBlock b.id).work.blocks.map Block.id = (u.work.blocks.map Block.id).filter fun i => i != b.id := by
    rw [List.filter_map]
    rfl
  rw [← hdrop, ← hrest.ids]
  dsimp only
  split <;> rfl

/-- R311: a block that is struck leaves, and its neighbours keep their numbers. -/
theorem restartBlock_ids (s : State) (b : Block) : (s.restartBlock b).work.blocks.map Block.id = (s.work.blocks.map Block.id).filter fun i => i != b.id := by
  refine strikeRest_ids (v := b.groups.foldl _ s) (State.SameIds.fold _ (fun s u => ?_) b.groups s)
  cases s.group? u with
  | none => exact .refl s
  | some h => exact ((discardGroup_ids s u).trans (broken_ids _ h)).trans (grant_ids _ h.quad)

/-- No struck block is left. -/
theorem restartBlocks_gone (bs : List Block) (s : State) {b : Block} (h : b ∈ bs) : (bs.foldl State.restartBlock s).block? b.id = none := by
  have key : ∀ (l : List Block) (u : State), (∀ i ∈ (l.foldl State.restartBlock u).work.blocks.map Block.id, i ∈ u.work.blocks.map Block.id ∧ ∀ x ∈ l, i ≠ x.id) := by
    intro l
    induction l with
    | nil => exact fun u i hi => ⟨hi, fun x hx => absurd hx List.not_mem_nil⟩
    | cons x l ih =>
      intro u i hi
      obtain ⟨h1, h2⟩ := ih _ i hi
      rw [restartBlock_ids, List.mem_filter] at h1
      refine ⟨h1.1, fun y hy => ?_⟩
      rcases List.mem_cons.mp hy with rfl | hy
      · simpa using h1.2
      · exact h2 y hy
  refine List.find?_eq_none.mpr fun x hx => ?_
  have := (key bs s x.id (List.mem_map.mpr ⟨x, hx, rfl⟩)).2 b h
  simpa using this



/-! ### Partitions and contexts -/

theorem scrub_fields (s : State) (q : Nat) : (s.scrub q).mem.hbm = s.mem.hbm ∧ (s.scrub q).mem.bad = s.mem.bad ∧ (s.scrub q).tabs = s.tabs := ⟨rfl, rfl, rfl⟩

/-- R403: the scratchpad region of a scrubbed quadrant reads zero, and what read zero still does. -/
theorem scrub_zero (s : State) (q core a : Nat) (h : (core = q / 4 ∧ Config.spadRegion * (q % 4) ≤ a ∧ a < Config.spadRegion * (q % 4) + Config.spadRegion) ∨ mget (tget [] s.mem.spad core) a = 0) :
    mget (tget [] (s.scrub q).mem.spad core) a = 0 := by
  show mget (tget [] (tset [] s.mem.spad (q / 4) _) core) a = 0
  rw [tget_tset]
  by_cases hc : q / 4 = core
  · rw [if_pos hc, mget_mclear]
    split
    · rfl
    · next hr =>
      rcases h with ⟨-, h1, h2⟩ | h
      · exact absurd ⟨h1, h2⟩ hr
      · rwa [hc]
  · rw [if_neg hc]
    exact h.resolve_left fun k => hc k.1.symm

theorem scrubs_zero (qs : List Nat) (s : State) {core a : Nat} (h : (∃ q ∈ qs, core = q / 4 ∧ Config.spadRegion * (q % 4) ≤ a ∧ a < Config.spadRegion * (q % 4) + Config.spadRegion) ∨ mget (tget [] s.mem.spad core) a = 0) :
    mget (tget [] (qs.foldl State.scrub s).mem.spad core) a = 0 := by
  induction qs generalizing s with
  | nil => exact h.resolve_left fun ⟨q, hq, _⟩ => absurd hq List.not_mem_nil
  | cons q qs ih =>
    refine ih _ ?_
    rcases h with ⟨k, hk, hr⟩ | h
    · rcases List.mem_cons.mp hk with rfl | hk
      · exact .inr (scrub_zero s k core a (.inl hr))
      · exact .inl ⟨k, hk, hr⟩
    · exact .inr (scrub_zero s q core a (.inr h))

theorem scrubs_kept (qs : List Nat) (s : State) : (qs.foldl State.scrub s).mem.bad = s.mem.bad ∧ (qs.foldl State.scrub s).tabs = s.tabs := by
  induction qs generalizing s with
  | nil => exact ⟨rfl, rfl⟩
  | cons q qs ih => exact ⟨(ih _).1.trans rfl, (ih _).2.trans rfl⟩

theorem freshFrames_zero (s : State) {fs : List Nat} {f a : Nat} (hf : f ∈ fs) (ha : a < 65536) : mget (s.freshFrames fs).mem.hbm (65536 * f + a) = 0 := by
  refine mget_unlisted _ _ (List.any_eq_false.mpr fun c hc => ?_)
  have := (List.mem_filter.mp hc).2
  dsimp only at this
  simp only [beq_iff_eq]
  intro he
  rw [he, show (65536 * f + a) / 65536 = f by omega] at this
  simp [hf] at this

theorem tabs_accesses {s t : State} (h : s.Accesses t) : t.tabs = s.tabs := by rw [h.eq]

/-- R403: a partition is created whole. -/
theorem partition_created {q : MgmtReq} {p : Nat} {x : PartSetup} {s : State} (hacc : s.accepts q = true) (hcan : s.canCreate p x = true) (hlo : 64 ≤ x.evring.toNat) (hhi : x.evring.toNat ≤ Config.hbmBytes) (hbad : s.mem.bad = none) :
    ∃ t, exec (.createPartition q p x) s = .next t ∧ (t.part p).st = .active ∧ (t.part p).quads = x.quads ∧ (t.part p).frames = x.pool ++ x.ckpool ++ x.metaFrames ∧ (t.part p).pool = x.pool ∧ (t.part p).vf = x.vf ∧
      (∀ p', p' ≠ p → t.part p' = s.part p') ∧ (∀ f ∈ x.pool ++ x.ckpool ++ x.metaFrames, ∀ a, a < 65536 → t.peek ⟨.hbm, 65536 * f + a⟩ 1 = [0]) ∧
      ∀ k ∈ x.quads, ∀ a, Config.spadRegion * (k % 4) ≤ a → a < Config.spadRegion * (k % 4) + Config.spadRegion → t.peek ⟨.spad (k / 4), a⟩ 1 = [0] := by
  let u := (x.quads.foldl State.scrub s).freshFrames (x.pool ++ x.ckpool ++ x.metaFrames)
  let y : Partition := { st := .active, lend := x.lend, l2ways := x.l2ways, resq := x.resq, vf := x.vf, quads := x.quads, pool := x.pool, ckpool := x.ckpool
                         evring := x.evring, evlog := x.evlog, frames := x.pool ++ x.ckpool ++ x.metaFrames, metaFrames := x.metaFrames, aes := x.aes, kmac := x.kmac, root := Config.rootAt p, keySt := 1 }
  let v := u.setPart p y.placeMetas
  let r := v.ringStore p (x.evring.toNat - 64) (List.replicate 64 0)
  let t : State := { r with plat := { r.plat with tdisp := tset .configUnlocked r.plat.tdisp x.vf .configUnlocked } }
  have hu : u.mem.bad = none ∧ u.tabs = s.tabs := ⟨(scrubs_kept x.quads s).1.trans hbad, (scrubs_kept x.quads s).2⟩
  have hloc : ringLoc (x.evring.toNat - 64) = ⟨.hbm, x.evring.toNat - 64⟩ := if_pos (by omega)
  have hr : r.mem.bad = none := by
    show (State.storeRun _ _ (ringLoc (x.evring.toNat - 64)) _).mem.bad = none
    rw [hloc]
    refine (pieces_inside (partWho p) _ (x.evring.toNat - 64) (List.replicate 64 0) _ (by rw [List.length_replicate]; omega)).trans ((translated_same v _ _).bad.trans hu.1)
  have z : v.Zeroes r (ringLoc (x.evring.toNat - 64)).space (x.evring.toNat - 64) 64 := (ringStore_zeroes hr).1
  have htabs : r.tabs = v.tabs := tabs_accesses (ringStore_accesses v p _ _)
  have hexec : exec (.createPartition q p x) s = .next t := by
    show answer (managed q s _) = _
    rw [managed, if_pos hacc]
    dsimp only
    rw [if_neg (by simp [hcan])]
    exact answer_of hr
  clear_value r
  have hpart : ∀ p', t.part p' = v.part p' := fun p' => congrArg (fun x : TableState => tget ({} : Partition) x.parts p') htabs
  have hp : t.part p = y.placeMetas := (hpart p).trans (part_setPart _ _ _)
  refine ⟨t, hexec, congrArg Partition.st hp, congrArg Partition.quads hp, congrArg Partition.frames hp, congrArg Partition.pool hp, congrArg Partition.vf hp, fun p' hne => ?_, fun f hf a ha => ?_, fun k hk a h1 h2 => ?_⟩
  · rw [hpart, part_setPart_other _ _ _ _ hne]
    show tget {} u.tabs.parts p' = _
    rw [hu.2]
    rfl
  · have hz : mget u.mem.hbm (65536 * f + a) = 0 := freshFrames_zero (x.quads.foldl State.scrub s) hf ha
    show r.peek ⟨.hbm, 65536 * f + a⟩ 1 = [0]
    exact z.keeps rfl (peek_zero (s := v) hz)
  · have hz : mget (tget [] u.mem.spad (k / 4)) a = 0 := scrubs_zero x.quads s (.inl ⟨k, hk, rfl, h1, h2⟩)
    show r.peek ⟨.spad (k / 4), a⟩ 1 = [0]
    refine z.keeps rfl ?_
    show mbytes (tget [] u.mem.spad (k / 4)) a 1 = [0]
    rw [mbytes_one, hz]

/-- A range filled with nothing reads zero, and what read zero still does. -/
theorem bulkStore_empty {s : State} {p a n : Nat} (h : a + n ≤ Config.hbmBytes) : (s.bulkStore p a n []).SameBytes { s with mem := { s.mem with hbm := mclear s.mem.hbm a (a + n) } } := by
  have hdirty : ∀ (u : State) (lo hi : Nat), u.SameBytes (u.dirtyLines p lo hi) := by
    intro u lo hi
    have hfold : ∀ {α : Type} (f : State → α → State), (∀ s a, State.SameBytes s (f s a)) → ∀ (l : List α) (s : State), s.SameBytes (l.foldl f s) := by
      intro α f hf l
      induction l with
      | nil => exact fun s => SameBytes.refl s
      | cons a l ih => exact fun s => SameBytes.trans (hf s a) (ih _)
    unfold State.dirtyLines
    dsimp only
    split
    · exact hfold _ (fun s t => writeback_same s t) _ u
    · refine hfold _ (fun s l => ?_) _ u
      unfold State.dirtyLine
      split
      · exact ⟨rfl, rfl, rfl, rfl, rfl, rfl⟩
      · dsimp only
        have hi := SameBytes.of_backs (insertLine_backs s l (s.part p).l2ways { dirty := true, part := p, verified := (decide (lo ≤ l / 32 * 32) && decide (l / 32 * 32 + 32 ≤ hi)) || s.mem.tileVerified (l / 32) })
        split
        · exact hi
        · exact SameBytes.trans hi (writeback_same _ _)
  unfold State.bulkStore
  rw [if_neg (by omega)]
  have key : ∀ (w v : State) (lo hi : Nat), w.SameBytes v → (v.dirtyLines p lo hi).SameBytes w := fun w v lo hi h => SameBytes.symm (SameBytes.trans h (hdirty v lo hi))
  exact key _ _ _ _ ⟨rfl, rfl, rfl, rfl, rfl, rfl⟩

end Sys2Proof.Machine
end

section
/-! The clauses of the platform: contexts, graphs, hardware errors, operating points, interfaces and reset (R15, R375, R377, R311, R399 to R404, R409). -/
namespace Sys2Proof.Machine

open Sys2Proof

/-- R377: a new context has its entry's values, and empty tables. -/
theorem context_created {q : MgmtReq} {p c : Nat} {x : CtxSetup} {s : State} (hmay : s.mayChange q p = true) (hc : c < Config.contexts) (hok : setupOk x = true) (hfit : s.tablesFit p x = true) (hbad : s.mem.bad = none) :
    ((s.ctx p c).st ≠ 0 → ∃ t, exec (.createContext q p c x) s = .next t ∧ t.part p = { s.part p with pool := (s.part p).pool.filter fun f => !(setupFrames x).contains f } ∧ t.mem = s.mem ∧
      t.ctx p c = { ((s.ctx p c).withSetup x) with modeSet := some (x.mode &&& 0xFFFFFFFFFFFFFFF8), iweightSet := some x.iweight, quotaSet := some (x.quota &&& 0x000000FFFFFFFFFF), wdogSet := some x.wdog, tokensSet := some (x.tokens &&& 0x00000000FFFFFFFF) }) ∧
    ((s.ctx p c).st = 0 → x.catbase.toNat + 262144 ≤ Config.hbmBytes → x.htbase.toNat + 32768 ≤ Config.hbmBytes →
      ∃ t, exec (.createContext q p c x) s = .next t ∧ t.part p = { s.part p with pool := (s.part p).pool.filter fun f => !(setupFrames x).contains f } ∧
        t.ctx p c = { (({} : Context).withSetup x) with st := 1, tvec := x.tvec &&& 0x00FFFFFFFFFFF000, spill := x.spill &&& 0x00FFFFFFFFFF8000, mode := x.mode &&& 0xFFFFFFFFFFFFFFF8, iweight := x.iweight, quota := x.quota &&& 0x000000FFFFFFFFFF
                                                        wdog := x.wdog, tokens := x.tokens &&& 0x00000000FFFFFFFF } ∧
        (∀ a, x.catbase.toNat ≤ a → a < x.catbase.toNat + 262144 → t.peek ⟨.hbm, a⟩ 1 = [0]) ∧ ∀ a, x.htbase.toNat ≤ a → a < x.htbase.toNat + 32768 → t.peek ⟨.hbm, a⟩ 1 = [0]) := by
  have hacc : s.accepts q = true := by
    unfold State.mayChange at hmay
    simp only [Bool.and_eq_true] at hmay
    exact hmay.1.1
  have hexec : ∀ u, (if (s.ctx p c).st = 0 then
        (((s.setPart p { s.part p with pool := (s.part p).pool.filter fun f => !(setupFrames x).contains f }).bulkStore p x.catbase.toNat Config.catalogueBytes []).bulkStore p x.htbase.toNat Config.handleTableBytes []).setCtx p c
          { (({} : Context).withSetup x) with st := 1, tvec := (({} : Context).withSetup x).tvecDef, spill := (({} : Context).withSetup x).spillDef, mode := x.mode &&& 0xFFFFFFFFFFFFFFF8, iweight := x.iweight, quota := x.quota &&& 0x000000FFFFFFFFFF
                                              wdog := x.wdog, tokens := x.tokens &&& 0x00000000FFFFFFFF }
      else (s.setPart p { s.part p with pool := (s.part p).pool.filter fun f => !(setupFrames x).contains f }).setCtx p c
          { ((s.ctx p c).withSetup x) with modeSet := some (x.mode &&& 0xFFFFFFFFFFFFFFF8), iweightSet := some x.iweight, quotaSet := some (x.quota &&& 0x000000FFFFFFFFFF), wdogSet := some x.wdog, tokensSet := some (x.tokens &&& 0x00000000FFFFFFFF) }) = u →
      exec (.createContext q p c x) s = answer u := by
    rintro u rfl
    show answer (managed q s _) = _
    rw [managed, if_pos hacc]
    dsimp only
    rw [if_neg (by simp [hmay, hok, hfit]; exact hc)]
  refine ⟨fun hst => ⟨_, (hexec _ (if_neg hst)).trans (answer_of hbad), ?_, rfl, ctx_setCtx _ _ _ _⟩, fun hst hcat hht => ?_⟩
  · show (s.setPart p _).part p = _
    exact part_setPart _ _ _
  · let u := s.setPart p { s.part p with pool := (s.part p).pool.filter fun f => !(setupFrames x).contains f }
    have h1 : (u.bulkStore p x.catbase.toNat Config.catalogueBytes []).SameBytes { u with mem := { u.mem with hbm := mclear u.mem.hbm x.catbase.toNat (x.catbase.toNat + 262144) } } := bulkStore_empty hcat
    have a1 := bulkStore_accesses u p x.catbase.toNat Config.catalogueBytes []
    have he := hexec _ (if_pos hst)
    change exec (.createContext q p c x) s = answer (((u.bulkStore p x.catbase.toNat Config.catalogueBytes []).bulkStore p x.htbase.toNat Config.handleTableBytes []).setCtx p c _) at he
    generalize u.bulkStore p x.catbase.toNat Config.catalogueBytes [] = v at h1 a1 he
    have h2 : (v.bulkStore p x.htbase.toNat Config.handleTableBytes []).SameBytes { v with mem := { v.mem with hbm := mclear v.mem.hbm x.htbase.toNat (x.htbase.toNat + 32768) } } := bulkStore_empty hht
    have a2 := bulkStore_accesses v p x.htbase.toNat Config.handleTableBytes []
    generalize v.bulkStore p x.htbase.toNat Config.handleTableBytes [] = w at h2 a2 he
    have hhbm : w.mem.hbm = mclear (mclear u.mem.hbm x.catbase.toNat (x.catbase.toNat + 262144)) x.htbase.toNat (x.htbase.toNat + 32768) := h2.hbm.symm.trans (congrArg (mclear · _ _) h1.hbm.symm)
    have hwbad : w.mem.bad = none := (h2.bad.symm.trans h1.bad.symm).trans hbad
    refine ⟨_, he.trans (answer_of hwbad), ?_, ctx_setCtx _ _ _ _, fun a ha hb => ?_, fun a ha hb => ?_⟩
    · show w.part p = _
      rw [part_accesses a2, part_accesses a1]
      exact part_setPart _ _ _
    · refine peek_zero ?_
      show mget w.mem.hbm a = 0
      rw [hhbm, mget_mclear, mget_mclear]
      split
      · rfl
      · rw [if_pos ⟨ha, hb⟩]
    · refine peek_zero ?_
      show mget w.mem.hbm a = 0
      rw [hhbm, mget_mclear, if_pos ⟨ha, hb⟩]

/-! ### Graphs -/

/-- The control blocks of the rings of a list are zero once all are written. -/
theorem controlBlocks_zero (p : Nat) (es : List QueueEnt) (s : State) (h : (es.foldl (fun (t : State) e => t.ringStore p (e.store - 64) (List.replicate 64 0)) s).mem.bad = none) :
    s.mem.bad = none ∧ ∀ x : Loc, x.space.isMemory = true →
      ((∃ e ∈ es, x.space = (ringLoc (e.store - 64)).space ∧ e.store - 64 ≤ x.addr ∧ x.addr < e.store - 64 + 64) ∨ s.peek x 1 = [0]) →
      (es.foldl (fun (t : State) e => t.ringStore p (e.store - 64) (List.replicate 64 0)) s).peek x 1 = [0] := by
  induction es generalizing s with
  | nil => exact ⟨h, fun x _ hx => hx.resolve_left fun ⟨e, he, _⟩ => absurd he List.not_mem_nil⟩
  | cons e es ih =>
    obtain ⟨hb, hrest⟩ := ih _ h
    obtain ⟨z, hbad⟩ := ringStore_zeroes hb
    refine ⟨hbad, fun x hm hx => hrest x hm ?_⟩
    rcases hx with ⟨k, hk, hr⟩ | hx
    · rcases List.mem_cons.mp hk with rfl | hk
      · exact .inr (by rw [z.byte x hm, if_pos hr])
      · exact .inl ⟨k, hk, hr⟩
    · exact .inr (z.keeps hm hx)

theorem controlBlocks_accesses (p : Nat) (es : List QueueEnt) (s : State) : s.Accesses (es.foldl (fun (t : State) e => t.ringStore p (e.store - 64) (List.replicate 64 0)) s) :=
  State.Accesses.fold _ (fun s _ => ringStore_accesses s p _ _) es s

theorem peek_zeros {s : State} {sp : Space} (hm : sp.isMemory = true) (a n : Nat) (h : ∀ x, a ≤ x → x < a + n → s.peek ⟨sp, x⟩ 1 = [0]) : s.peek ⟨sp, a⟩ n = List.replicate n 0 := by
  induction n with
  | zero => exact List.length_eq_zero_iff.mp (peek_length s ⟨sp, a⟩ 0 hm)
  | succ n ih => rw [peek_append _ _ _ _ _ hm, ih fun x h1 h2 => h x h1 (by omega), h (a + n) (by omega) (by omega), List.replicate_succ']

/-- An idle graph is gone. -/
def State.lessGraph (s : State) (gidx : Nat) : State :=
  { s with
    tabs := { s.tabs with graphs := s.tabs.graphs.filter fun (x : Graph) => x.gidx != gidx }
    work := { s.work with queues := s.work.queues.filter fun (x : Queue) => x.gidx != gidx, ranges := s.work.ranges.filter fun (x : RangeState) => x.gidx != gidx
                          views := s.work.views.filter fun (x : View) => x.gidx != gidx, corr := s.work.corr.filter fun (x : Corr) => x.gidx != gidx } }

/-- A graph that is not idle drains. -/
def State.drainGraph (s : State) (gidx : Nat) : State :=
  { s with tabs := { s.tabs with graphs := s.tabs.graphs.map fun (x : Graph) => if x.gidx = gidx then { x with st := 2 } else x } }

theorem graphRemove_eq {s : State} {gidx : Nat} {g : Graph} (h : s.graph? gidx = some g) : (match s.graph? gidx with
    | none => s
    | some g => if s.graphIdle g then s.lessGraph gidx else s.drainGraph gidx) = if s.graphIdle g then s.lessGraph gidx else s.drainGraph gidx := by
  rw [h]

/-! ### Hardware errors -/

/-- R311: the blocks that an error of a quadrant strikes begin again elsewhere, or the partition rolls back. -/
theorem quadError_cases (s : State) (p quad : Nat) :
    let struck := s.work.blocks.filter fun b => (s.quadGroups quad).any fun h => h.blk == b.id
    let why := docketBytes 5 0x19 (quad / 4) p 0 0 0 (leBytes 8 quad)
    (struck = [] ∨ (∃ b ∈ struck, b.hdr.restartable = false ∨ 3 ≤ b.failsNow) → s.quadError p quad = s.rollback p [why]) ∧
    (struck ≠ [] → (∀ b ∈ struck, b.hdr.restartable = true ∧ b.failsNow < 3) →
      let v := struck.foldl State.restartBlock (s.postDocket p why)
      let w := v.setPart p { v.part p with quads := (v.part p).quads.erase quad }
      s.quadError p quad = (w.setQuad quad { w.quad quad with fenced := true }).evalSlots (struck.flatMap fun b => b.cores.zip b.slots)) := by
  intro struck why
  refine ⟨fun h => ?_, fun hne hall => ?_⟩
  · unfold State.quadError
    dsimp only
    refine if_pos ?_
    rcases h with h | ⟨b, hb, h⟩
    · rw [show (s.work.blocks.filter fun b => (s.quadGroups quad).any fun h => h.blk == b.id) = [] from h]
      rfl
    · refine Bool.or_eq_true_iff.mpr (.inr (List.any_eq_true.mpr ⟨b, hb, ?_⟩))
      rcases h with h | h <;> simp [h]
  · unfold State.quadError
    dsimp only
    refine if_neg ?_
    simp only [Bool.or_eq_true, not_or, List.any_eq_true, not_exists, not_and]
    refine ⟨fun he => hne (List.isEmpty_iff.mp he), fun b hb => ?_⟩
    obtain ⟨h1, h2⟩ := hall b hb
    simp [h1, h2]

/-! ### Operating points, interfaces and reset -/


theorem setQuad_only (s : State) (q : Nat) (x : Quadrant) : s.OnlyQuad (s.setQuad q x) q := ⟨by rfl, fun k h => (tget_tset _ _ _ _ _).trans (if_neg (Ne.symm h))⟩

/-- R411: the quadrants of a cluster at another operating point stop issuing. -/
theorem setPoint_held (s : State) (cl point k : Nat) (h : 32 * cl ≤ k ∧ k < 32 * cl + 32) : ((s.setPoint cl point).quad k).released = false := by
  show (tget ({} : Quadrant) (s.units.quads.map fun (e : Nat × Quadrant) => if e.1 / 32 = cl then (e.1, { e.2 with released := false }) else e) k).released = false
  induction s.units.quads with
  | nil => rfl
  | cons e l ih =>
    obtain ⟨j, y⟩ := e
    rw [List.map_cons]
    by_cases hj : j / 32 = cl
    · rw [if_pos hj, tget]
      split
      · rfl
      · exact ih
    · rw [if_neg hj, tget, if_neg (by omega)]
      exact ih

theorem tdisp_set (s : State) (vf : Nat) (x : TdispState) : tget TdispState.configUnlocked (tset .configUnlocked s.plat.tdisp vf x) vf = x := (tget_tset _ _ _ _ _).trans (if_pos rfl)

/-- R409: the monitor runs once an image of its index passes, and the assist routine stands after one of its own. -/
theorem boots (used : List BootImage) (p : PlatState) :
    let t := used.foldl PlatState.boot p
    (t.booted = true ↔ p.booted = true ∨ ∃ i ∈ used, i.index = 2 ∧ imagePasses i = true) ∧ (t.assistOk = true → p.assistOk = true ∨ ∃ i ∈ used, i.index = 5 ∧ imagePasses i = true) ∧
      t.transit = p.transit ∧ t.owner = p.owner ∧ t.staged = p.staged := by
  induction used generalizing p with
  | nil => simp
  | cons i used ih =>
    obtain ⟨hb, ha, ht, ho, hs⟩ := ih (p.boot i)
    have hstep : ((p.boot i).booted = true ↔ p.booted = true ∨ i.index = 2 ∧ imagePasses i = true) ∧ ((p.boot i).assistOk = true → p.assistOk = true ∨ i.index = 5 ∧ imagePasses i = true) ∧
        (p.boot i).transit = p.transit ∧ (p.boot i).owner = p.owner ∧ (p.boot i).staged = p.staged := by
      unfold PlatState.boot
      split
      · next h => simp [h]
      · split
        · next h =>
          simp only [Bool.or_eq_true, Bool.not_eq_true', Bool.and_eq_true, bne_iff_ne] at h
          refine ⟨⟨.inl, fun k => k.resolve_right fun ⟨h2, hp⟩ => ?_⟩, .inl, rfl, rfl, rfl⟩
          rcases h with h | ⟨h, -⟩
          · rw [hp] at h; cases h
          · exact h h2
        · next h =>
          simp only [Bool.or_eq_true, Bool.not_eq_true', Bool.and_eq_true, bne_iff_ne, not_or, Bool.not_eq_false] at h
          simp [h.1]
    dsimp only
    rw [List.foldl_cons]
    refine ⟨hb.trans ?_, fun k => ?_, ht.trans hstep.2.2.1, ho.trans hstep.2.2.2.1, hs.trans hstep.2.2.2.2⟩
    · rw [hstep.1]
      simp only [List.mem_cons, exists_eq_or_imp, or_assoc]
    · rcases ha k with k | ⟨j, hj, hr⟩
      · rcases hstep.2.1 k with k | k
        · exact .inl k
        · exact .inr ⟨i, List.mem_cons_self, k⟩
      · exact .inr ⟨j, List.mem_cons_of_mem i hj, hr⟩

/-- R399: an interface in error loses its partition. -/
theorem interface_lost {s : State} {vf p : Nat} (hp : ((s.tabs.parts.find? fun e => e.2.vf == vf && (e.2.st == .active || e.2.st == .paused)).map Prod.fst) = some p) :
    let v := (({ s with plat := { s.plat with tdisp := tset .configUnlocked s.plat.tdisp vf .error } } : State).stopPart p).docket 8 0x0C 291 p 0 []
    s.interfaceError vf = v.setPart p { v.part p with st := .lost, rekeying := none } := by
  unfold State.interfaceError
  rw [hp]

/-- Settles O59: each clause follows its function; the blocks that an error strikes are gone by their numbers, which no later step of it brings back. -/
theorem platformSteps : Obligations.PlatformSteps := by
  unfold Obligations.PlatformSteps
  refine ⟨fun claims c s hran howner hc hlo hhi hleast hbad => ?_, fun s hbad => ⟨fun q next hacc hlo hhi hne => ?_, fun w hw hin => ?_, fun w c hw hno => ?_, fun w hw hout => ?_, fun howner => ?_⟩,
    fun q p x s hacc hcan hlo hhi hbad => partition_created hacc hcan hlo hhi hbad, fun q p s hacc hst => ⟨fun hbad => ?_, part_setPart _ _ _⟩, fun q p c x s hmay hc hok hfit hbad => context_created hmay hc hok hfit hbad,
    fun q p c s hmay hbad => ?_, fun p c gidx va places s hd bs g hlive hctx hgidx hnone hhd => ?_, fun gidx s g hg hbad => ⟨fun hidle => ?_, fun hidle => ?_⟩, fun cl q s hcl hstuck hfind hbad => ?_, fun cl point s hcl hstuck hbad hup htop hhint => ?_,
    fun quad s hbad howner => ?_, fun quad p s howner => ⟨fun hroll hbad => ?_, fun hne hall => ?_⟩, fun vf s hlo hhi hstuck hbad => ⟨fun p hp => ?_, fun hno => ?_, fun hnow => ?_, fun hnow => ?_, ?_⟩, fun port n s hport hran hbad => ?_, fun images s => ?_⟩
  · have hfirst : ([1, 2, 3] : List (BitVec 3)).find? (fun d => claims.contains d) = some c := by
      have hmem : ∀ d, claims.contains d = true → 1 ≤ d → c ≤ d := fun d hd => hleast d (by simpa using hd)
      have hcc : claims.contains c = true := by simpa using hc
      have hcase : c = 1 ∨ c = 2 ∨ c = 3 := by bv_omega
      have hno : ∀ d : BitVec 3, 1 ≤ d → ¬ c ≤ d → claims.contains d = false := fun d h1 h2 => Bool.eq_false_iff.mpr fun hd => h2 (hmem d hd h1)
      rcases hcase with rfl | rfl | rfl
      · rw [List.find?_cons_of_pos hcc]
      · rw [List.find?_cons_of_neg (Bool.eq_false_iff.mp (hno 1 (by decide) (by decide))), List.find?_cons_of_pos hcc]
      · rw [List.find?_cons_of_neg (Bool.eq_false_iff.mp (hno 1 (by decide) (by decide))), List.find?_cons_of_neg (Bool.eq_false_iff.mp (hno 2 (by decide) (by decide))), List.find?_cons_of_pos hcc]
    refine ⟨s.setOwner c, ?_, rfl, rfl⟩
    show execOwnershipClaim claims s = _
    unfold execOwnershipClaim
    rw [if_neg (by simp [hran, howner]), hfirst]
    exact answer_of hbad
  · refine ⟨{ s with plat := { s.plat with ownerNext := next, handover := some s.sched.window } }, ?_, rfl, rfl⟩
    show answer (managed q s _) = _
    rw [managed, if_pos hacc, if_neg (by bv_omega), if_neg (by simp [hne]; bv_omega)]
    exact answer_of hbad
  · refine ⟨s.setOwner s.plat.ownerNext, ?_, rfl, rfl⟩
    show execHandoverAck s.plat.ownerNext s = _
    unfold execHandoverAck
    rw [hw]
    dsimp only
    rw [if_pos (by simp [hin])]
    exact answer_of hbad
  · show execHandoverAck c s = _
    unfold execHandoverAck
    rw [hw]
    dsimp only
    rw [if_neg fun h => by
      obtain ⟨h1, h2⟩ := Bool.and_eq_true_iff.mp h
      rcases hno with hno | hno
      · exact hno (of_decide_eq_true h1)
      · exact absurd (of_decide_eq_true h2) (by omega)]
    exact answer_of hbad
  · refine ⟨{ s with plat := { s.plat with ownerNext := 0, handover := none } }, ?_, rfl, rfl⟩
    show execHandoverTimeout s = _
    unfold execHandoverTimeout
    rw [hw]
    dsimp only
    rw [if_pos hout]
    exact answer_of hbad
  · exact ⟨s.setOwner 0, (congrArg answer (if_neg howner)).trans (answer_of hbad), rfl, rfl⟩
  · show answer (managed q s _) = _
    rw [managed, if_pos hacc, if_neg hst]
    exact answer_of hbad
  · have hacc : s.accepts q = true := by
      unfold State.maySet State.mayChange at hmay
      simp only [Bool.and_eq_true] at hmay
      exact hmay.1.1.1.1
    show answer (managed q s _) = _
    rw [managed, if_pos hacc, if_neg (by simp [hmay])]
    exact answer_of hbad
  · intro n hbs hgr u hbad
    have hexec : exec (.graphInstall p c va gidx places) s = answer { u with tabs := { u.tabs with graphs := u.tabs.graphs ++ [g] }, work := { u.work with queues := u.work.queues ++ (s.freshWork g).1, ranges := u.work.ranges ++ (s.freshWork g).2 } } := by
      show execGraphInstall p c va gidx places s = _
      unfold execGraphInstall
      rw [if_neg (by simp [hlive, hctx, hnone]; omega), hhd]
      dsimp only
      rw [hbs, Option.bind_some, hgr]
    have hgidx' : g.gidx = gidx := by
      unfold State.graphOf at hgr
      dsimp only at hgr
      split at hgr <;> cases hgr
      rfl
    have hacc := controlBlocks_accesses p (g.queues.filter fun e => e.kind == 1 || e.kind == 2) s
    have hzero := (controlBlocks_zero p (g.queues.filter fun e => e.kind == 1 || e.kind == 2) s hbad).2
    have htabs : u.tabs = s.tabs := tabs_accesses hacc
    refine ⟨_, hexec.trans (answer_of hbad), congrArg (·.graphs ++ [g]) htabs, fun e he => ?_, rfl, fun e he hk _ => ?_⟩
    · exact List.mem_append_right _ (List.mem_map.mpr ⟨e, he, by rw [hgidx']⟩)
    · have hm : (ringLoc (e.store - 64)).space.isMemory = true := by rcases ringLoc_space (e.store - 64) with h | h <;> rw [h] <;> rfl
      have haddr : (ringLoc (e.store - 64)).addr = e.store - 64 := by unfold ringLoc; split <;> rfl
      exact peek_zeros hm _ 64 fun x h1 h2 => hzero ⟨_, x⟩ hm (.inl ⟨e, List.mem_filter.mpr ⟨he, by rcases hk with h | h <;> simp [h]⟩, rfl, haddr ▸ h1, haddr ▸ h2⟩)
  · refine ⟨s.lessGraph gidx, (congrArg answer (graphRemove_eq hg)).trans ((congrArg answer (if_pos hidle)).trans (answer_of hbad)), ?_, fun q => ?_, fun k hk => ?_⟩
    · refine List.find?_eq_none.mpr fun x hx => ?_
      have := (List.mem_filter.mp hx).2
      simpa using this
    · refine List.find?_eq_none.mpr fun x hx => ?_
      have := (List.mem_filter.mp hx).2
      simp only [bne_iff_ne] at this
      simp [this]
    · show (s.tabs.graphs.filter fun x => x.gidx != gidx).find? (fun x => x.gidx == k) = s.tabs.graphs.find? fun x => x.gidx == k
      rw [List.find?_filter]
      congr 1
      funext x
      by_cases hx : x.gidx = k
      · simp [hx, hk]
      · simp [hx]
  · refine ⟨s.drainGraph gidx, (congrArg answer (graphRemove_eq hg)).trans ((congrArg answer (if_neg (by simp [hidle]))).trans (answer_of hbad)), ?_, rfl⟩
    have hkey := List.find?_some hg
    show (s.tabs.graphs.map fun x => if x.gidx = gidx then { x with st := 2 } else x).find? (fun x => x.gidx == gidx) = _
    rw [find?_map_congr (q := fun x => x.gidx == gidx) _ fun x _ => by split <;> simp_all, show s.tabs.graphs.find? (fun x => x.gidx == gidx) = some g from hg, Option.map_some, if_pos (by simpa using hkey)]
  · refine ⟨s.setQuad q { s.quad q with released := true }, ?_, setQuad_only s q _, tget_tset _ _ _ _ _ |>.trans (if_pos rfl)⟩
    show execQuadrantRelease cl s = _
    unfold execQuadrantRelease
    rw [if_neg (by simp [hstuck]; exact hcl), hfind]
    exact answer_of hbad
  · refine ⟨s.setPoint cl point, ?_, tget_tset _ _ _ _ _ |>.trans (if_pos rfl), fun k h1 h2 => setPoint_held s cl point k ⟨h1, h2⟩⟩
    show execOperatingPointChange cl point s = _
    unfold execOperatingPointChange
    dsimp only
    rw [if_neg (by
      simp only [hstuck, Bool.or_eq_true, decide_eq_true_eq, not_or, not_le, not_lt, Bool.false_eq_true, not_false_eq_true, and_true]
      exact ⟨⟨⟨hcl, hup⟩, htop⟩, hhint⟩)]
    exact answer_of hbad
  · show answer (match s.quadOwner quad with | none => s | some p => s.quadError p quad) = _
    rw [howner]
    exact answer_of hbad
  · have hexec : exec (.hwError quad) s = answer (s.quadError p quad) := congrArg answer (show (match s.quadOwner quad with | none => s | some p => s.quadError p quad) = _ by rw [howner])
    rw [hexec, (quadError_cases s p quad).1 hroll]
    exact answer_of hbad
  · have hexec : exec (.hwError quad) s = answer (s.quadError p quad) := congrArg answer (show (match s.quadOwner quad with | none => s | some p => s.quadError p quad) = _ by rw [howner])
    intro v w u
    refine ⟨fun hbad => ?_, congrArg Quadrant.fenced (quad_setQuad w quad _), congrArg Partition.quads (part_setPart v p _), fun b hb => restartBlocks_gone _ _ hb⟩
    rw [hexec, (quadError_cases s p quad).2 hne hall]
    exact answer_of hbad
  · intro v u
    have herr : s.interfaceError vf = u := interface_lost hp
    clear_value u
    refine ⟨fun hu => ?_, fun hnow hu => ?_⟩
    · show execIdeIntegrityFailure vf s = _
      unfold execIdeIntegrityFailure
      rw [if_neg (by simp [hstuck]; omega), herr]
      exact answer_of hu
    · show execTdispInterfaceRequest vf .error s = _
      unfold execTdispInterfaceRequest
      rw [if_neg (by simp [hstuck]; omega)]
      rcases hnow with hnow | hnow <;> rw [hnow]
      · exact (congrArg answer herr).trans (answer_of hu)
      · exact (congrArg answer herr).trans (answer_of hu)
  · have hnone : (s.tabs.parts.find? fun e => e.2.vf == vf && (e.2.st == .active || e.2.st == .paused)) = none := List.find?_eq_none.mpr fun e he => by simp [hno e he]
    refine ⟨{ s with plat := { s.plat with tdisp := tset .configUnlocked s.plat.tdisp vf .error } }, ?_, rfl, tdisp_set s vf .error⟩
    show execIdeIntegrityFailure vf s = _
    unfold execIdeIntegrityFailure State.interfaceError
    rw [if_neg (by simp [hstuck]; omega), hnone]
    exact answer_of hbad
  · refine ⟨{ s with plat := { s.plat with tdisp := tset .configUnlocked s.plat.tdisp vf .configLocked } }, ?_, rfl, tdisp_set s vf .configLocked⟩
    show execTdispInterfaceRequest vf .configLocked s = _
    unfold execTdispInterfaceRequest
    rw [if_neg (by simp [hstuck]; omega), hnow]
    exact answer_of hbad
  · refine ⟨{ s with plat := { s.plat with tdisp := tset .configUnlocked s.plat.tdisp vf .run } }, ?_, rfl, tdisp_set s vf .run⟩
    show execTdispInterfaceRequest vf .run s = _
    unfold execTdispInterfaceRequest
    rw [if_neg (by simp [hstuck]; omega), hnow]
    exact answer_of hbad
  · refine ⟨{ s with plat := { s.plat with tdisp := tset .configUnlocked s.plat.tdisp vf .configUnlocked } }, ?_, rfl, tdisp_set s vf .configUnlocked⟩
    show execTdispInterfaceRequest vf .configUnlocked s = _
    unfold execTdispInterfaceRequest
    rw [if_neg (by simp [hstuck]; omega)]
    exact answer_of hbad
  · refine ⟨{ (s.setPort port { s.port port with down := false, xoff := false }) with plat := { (s.setPort port { s.port port with down := false, xoff := false }).plat with device := some n } }, ?_, rfl, rfl,
      congrArg Port.down ((setPort_port s port port _).trans (if_pos rfl))⟩
    show execDeviceNumberAssign port n s = _
    unfold execDeviceNumberAssign
    rw [if_neg (by simp [hran]; exact hport)]
    exact answer_of hbad
  · let used := images.map fun (x : BootImage) => (s.plat.staged.find? fun i => i.index == x.index).getD x
    obtain ⟨hb, ha, ht, ho, hs⟩ := boots used { State.reset.plat with assistOk := false, transit := s.plat.transit }
    refine ⟨{ State.reset with
      sched := { State.reset.sched with agenda := s.sched.agenda, free := s.sched.free }
      mem := { State.reset.mem with host := s.mem.host, peers := s.mem.peers, hostHeld := s.mem.hostHeld }
      plat := { (used.foldl PlatState.boot { State.reset.plat with assistOk := false, transit := s.plat.transit }) with
        stuck := !(used.foldl PlatState.boot { State.reset.plat with assistOk := false, transit := s.plat.transit }).booted } }, rfl, rfl, rfl, rfl, rfl, rfl, rfl, ht, ho, hs, rfl, ?_, ?_⟩
    · exact hb.trans ⟨fun h => h.resolve_left fun k => absurd (show State.reset.plat.booted = true from k) (by decide), .inr⟩
    · exact fun h => (ha h).resolve_left Bool.false_ne_true

end Sys2Proof.Machine
end

section
/-! The refutations of O23 and O28: a path table that is not eight entries long leaves a record shorter than its 256 bytes (R302). -/

namespace Sys2Proof.Machine

open Sys2Proof

/-- Its record, at the base of the aperture, and the vector table behind it lie in the scratchpad of core 0; the entry of code 0x1B is 0x10000. The path table has no entry. -/
def pathless : State :=
  { g := { uid := 1, st := .ready, pc := 0x10000, m0 := 1, mode := 0x10000000, regs := 255, frec := 0x00FF000000000000#64, paths := [], pendFaults := [(0, { code := 0x1B, async := true, replay := 0, pc := 0, word0 := 0, word1 := 0, lit := false, addr := 0, done := 0 })] }
    mem := { spad := [(0, [(0x10DA, 1)])] }
    tabs := { parts := [(0, { st := .active })], ctxs := [(0, { st := 1, tvec := 0x00FF000000001000#64 })] }
    work := { blocks := [{ id := 0, gidx := 0, stage := 0, part := 0, ctx := 0, inst := 0, number := 0, cores := [0], slots := [0], spad := [0], hdr := { (headerOf []) with spad := 0x10000 }, hdrAddr := 0, groups := [1], resv := [], tent := [], heldRecs := [], join := none, fails := 0 }] } }

/-- The quarters of its record. -/
def quarter (q : Nat) : Loc := ⟨.spad 0, 64 * q⟩

def quarters : List Loc := [0, 1, 2, 3].map quarter

/-- Places in the aperture are the scratchpad's, and reading them changes nothing (R176). -/
theorem recordPlaces_aperture {s : State} {f : Nat → Loc} (qs : List Nat) (ls : List Loc)
    (h : ∀ q ∈ qs, inAperture (s.g.frec.toNat + 64 * q) = true ∧ s.aperture s.g (s.g.frec.toNat + 64 * q) = .ok (f q) none) : s.recordPlaces qs ls = (some (ls ++ qs.map f), s) := by
  induction qs generalizing ls with
  | nil => simp [State.recordPlaces]
  | cons q qs ih =>
    obtain ⟨hin, hplace⟩ := h q List.mem_cons_self
    unfold State.recordPlaces State.translate
    rw [if_pos hin, hplace]
    dsimp only
    rw [ih _ fun k hk => h k (List.mem_cons_of_mem q hk)]
    simp

/-- The first bytes of the aperture are those of the block's one core (R176). -/
theorem aperture_base {s : State} {g : Group} {b : Block} {o : Nat} (hb : s.block? g.blk = some b) (hc : b.cores = [0]) (hs : b.spad = [0]) (hn : b.hdr.spad = 0x10000) (ho : o < 0x10000) :
    inAperture (Config.apertureBase + o) = true ∧ s.aperture g (Config.apertureBase + o) = .ok ⟨.spad 0, o⟩ none := by
  have hdiv : o / 0x100000 = 0 := by omega
  have hmod : o % 0x100000 = o := by omega
  constructor
  · exact Bool.and_eq_true_iff.mpr ⟨decide_eq_true (Nat.le_add_right ..), decide_eq_true (by unfold Config.apertureBase Config.apertureEnd; omega)⟩
  · simp [State.aperture, hb, hc, hs, hn, hdiv, hmod, ho]

theorem vector_aperture {s : State} {code core a : Nat} {v : W64} (hin : inAperture ((s.ctx s.g.part s.g.ctx).tvec.toNat + 8 * code) = true)
    (hplace : s.aperture s.g ((s.ctx s.g.part s.g.ctx).tvec.toNat + 8 * code) = .ok ⟨.spad core, a⟩ none) (hv : BitVec.ofNat 64 (leNat (s.peek ⟨.spad core, a⟩ 8)) = v) (hok : (v = 0 || pcBits v != v) = false) :
    s.vector code = (some v, s) := by
  unfold State.vector State.translate
  rw [if_pos hin, hplace]
  dsimp only
  rw [show s.loadVerified s.g.who ⟨.spad core, a⟩ 8 = (s.peek ⟨.spad core, a⟩ 8, s) from rfl, hv, hok]
  rfl

/-- A state whose issuing group finds its record and its vector as this one does. -/
structure Finds (c : State) (r : FaultRec) : Prop where
  block  : c.block? c.g.blk = pathless.block? 0
  frec   : c.g.frec.toNat = Config.apertureBase
  tvec   : (c.ctx c.g.part c.g.ctx).tvec.toNat = Config.apertureBase + 0x1000
  code   : r.code = 0x1B
  vector : BitVec.ofNat 64 (leNat (c.peek ⟨.spad 0, 0x10D8⟩ 8)) = 0x10000
  user   : c.g.sup = false
  core   : c.g.ccc = false
  plain  : c.mem.hqs = []
  alone  : (c.allGroups.all fun h => (brokenBy c.g h).isNone) = true
  sound  : c.mem.bad = none

theorem Finds.entry {c : State} {r : FaultRec} (f : Finds c r) : State.Entry c r quarters 0x10000 c where
  user := f.user
  core := f.core
  reach := by
    refine ⟨c, recordPlaces_aperture (f := quarter) _ _ fun q hq => ?_, ?_⟩
    · rw [f.frec]
      exact aperture_base f.block rfl rfl rfl (by simp at hq; omega)
    · have hplace := aperture_base (o := 0x10D8) f.block rfl rfl rfl (by decide)
      have haddr : (c.ctx c.g.part c.g.ctx).tvec.toNat + 8 * r.code = Config.apertureBase + 0x10D8 := by rw [f.tvec, f.code]
      exact vector_aperture (core := 0) (a := 0x10D8) (by rw [haddr]; exact hplace.1) (by rw [haddr]; exact hplace.2) f.vector (by decide)
  places := by decide
  apart := by decide
  plain := .inl f.plain
  alone := f.alone
  sound := f.sound

/-- A record of a group without paths ends before its third quarter. -/
theorem not_recorded {t u : State} {r : FaultRec} (hp : u.g.paths = []) : ¬ t.Recorded u r quarters := by
  intro h
  have h2 := congrArg List.length (h 2 (by decide))
  rw [peek_length t _ 64 rfl] at h2
  have hlen : (recordBytes u.g r (u.part u.g.part).time).length = 128 := by
    unfold recordBytes
    rw [hp]
    simp [leBytes_length]
  rw [List.length_take, List.length_drop, hlen] at h2
  omega

/-- Refutes O23: with no path entry the record is 128 bytes, and its third quarter no bytes instead of the 64 that the statement reads back. -/
theorem not_trapsEnterTheHandler : ¬ Obligations.TrapsEnterTheHandler := by
  unfold Obligations.TrapsEnterTheHandler
  intro h
  obtain ⟨t, -, -, -, hrec, -⟩ := h.1 (.trap {}) (mkWord shapeTrap {}) pathless 0x1B quarters 0x10000 _ (.inl ⟨⟨{}, rfl⟩, rfl⟩) rfl (by decide) (by decide)
    (Finds.entry ⟨by rfl, by rfl, by rfl, by rfl, by decide, by rfl, by rfl, by rfl, by decide, by rfl⟩)
  exact not_recorded rfl hrec

/-- Refutes O28 with the same group, whose pending fault has that code. -/
theorem not_asyncFaultsAreTaken : ¬ Obligations.AsyncFaultsAreTaken := by
  unfold Obligations.AsyncFaultsAreTaken
  intro h
  obtain ⟨t, x, -, -, -, -, hrec⟩ := h 1 pathless _ pathless.g 0 _ [] quarters 0x10000 (by decide) rfl (by decide) rfl
    (Finds.entry ⟨by rfl, by rfl, by rfl, by rfl, by decide, by rfl, by rfl, by rfl, by decide, by rfl⟩)
  exact not_recorded rfl hrec

end Sys2Proof.Machine
end

section
/-! SUPPORT for O51: the words of page tables, pools and invalidations. -/

namespace Sys2Proof.Machine

open Sys2Proof

/-! ### Pools (R369) -/

/-- A group that is woken leaves the issuing one as it is. -/
theorem wake_g {s : State} {uid : Nat} (h : s.g.uid ≠ uid) : (s.wake uid).g = s.g := by
  cases hg : s.group? uid with
  | none => rw [wake_lost hg]
  | some x =>
    have hput : (s.putGroup x.rouse).g = s.g := by
      unfold State.putGroup
      rw [if_neg (by rw [rouse_uid, group?_uid hg]; exact h)]
    rw [wake_eq hg]
    split
    · exact hput
    · exact hput

theorem servePool_g {s : State} {p : Nat} (h : s.g.uid ∉ (s.part p).poolWait) : (s.servePool p).g = s.g := by
  have hfold : ∀ (l : List Nat) (t : State), (∀ u ∈ l, t.g.uid ≠ u) → (l.foldl (fun s u => match (s.group? u).map Group.wait with
      | some .pool => s.wake u
      | _ => s) t).g = t.g := by
    intro l
    induction l with
    | nil => exact fun _ _ => rfl
    | cons u l ih =>
      intro t hl
      have hone : (match (t.group? u).map Group.wait with
          | some .pool => t.wake u
          | _ => t).g = t.g := by
        split
        · exact wake_g (hl u List.mem_cons_self)
        · rfl
      rw [List.foldl_cons, ih _ (by rw [hone]; exact fun v hv => hl v (List.mem_cons_of_mem u hv)), hone]
  exact hfold _ s fun u hu e => h (e ▸ List.mem_of_mem_take hu)

theorem leavePool_g (s : State) : s.leavePool.g = s.g := by
  unfold State.leavePool
  dsimp only
  split
  · rw [servePool_g (by rw [part_setPart]; simp [List.mem_filter])]
    rfl
  · rfl

/-! ### `pcommit` and `pfree` -/

theorem begun_table (s : State) (w : Word) (ex : Extra) :
    (s.begun w ex).g.part = s.g.part ∧ (s.begun w ex).g.ctx = s.g.ctx ∧ (s.begun w ex).g.uid = s.g.uid ∧ (s.begun w ex).g.pc = s.g.pc ∧ (s.begun w ex).g.k = s.g.k ∧ (s.begun w ex).g.tableHeld = s.g.tableHeld := by
  obtain ⟨v, r, u, h, -⟩ := begin_fields s.g w ex
  rw [begun_g, h]
  exact ⟨rfl, rfl, rfl, rfl, rfl, rfl⟩

theorem drift_pc {s t : State} (h : s.Drift t) : t.g.pc = s.g.pc := by
  obtain ⟨lp, r, pt, hg⟩ := h.g
  rw [hg]

theorem setK_pc (g : Group) (lat n : Nat) (x : W64) : (g.setK lat n x).pc = g.pc := by
  obtain ⟨k, r, h, -⟩ := setK_fields g lat n x
  rw [h]

theorem poolEmpty_drift (s : State) (va : Nat) : s.Drift (s.poolEmpty va).1 := Drift.trans (drift_part s _ _) (docket_drift _ _ _ _ _ _ _)

/-- A word that waits for a frame is issued again. -/
theorem pool_waits {i : Instr} {w : Word} {ex : Extra} {body : State → State × Flow} {s c : State} {va : Nat} (he : exec i s = runWord w ex body s) (hx : s.executes w ex = true) (hc : c.g.pc = s.g.pc)
    (hb : body (s.begun w ex) = c.poolEmpty va) (hm : (c.poolEmpty va).1.mem.bad = none) : s.WaitsAt i .waitExt .pool := by
  have hpc := (drift_pc (poolEmpty_drift c va)).trans hc
  have hflow : c.poolEmpty va = ((c.poolEmpty va).1, .retry .waitExt .pool) := rfl
  rw [hflow] at hb
  generalize (c.poolEmpty va).1 = u at hb hm hpc
  obtain ⟨t, ht, -, hg⟩ := body_retries hx hb hm
  refine ⟨t, he.trans ht, ?_⟩
  rw [hg]
  exact ⟨rfl, rfl, hpc⟩

/-- What `pcommit` does once its leaf is found. -/
theorem pcommit_body (f : FForm) {b c : State} {e : LeafEnt} (hheld : b.g.tableHeld = false) (hva : pageCheck (b.g.readK f.a.toNat).toNat = none)
    (hq : b.findLeaf b.g.who (b.g.readK f.a.toNat).toNat = (some e, c)) :
    let perms := f.rnd.toNat * 16
    let u := (c.setEntry (partWho b.g.part) e.at_ ((e.val &&& (2 ^ 64 - 1 - 0x70)) ||| perms)).leavePool
    ∃ body, (∀ s, exec (.pcommit f) s = runWord (mkWord shapePcommit f) {} body s) ∧
      (((e.val.testBit 0 || e.val.testBit 1) = false ∨ e.large = true ∨ e.target ≠ 0) → body b = ({ c.leavePool with g := c.leavePool.g.setK 0 f.d.toNat 2 }, .done)) ∧
      (e.large = false → e.target = 0 → e.val.testBit 0 = true →
        ((e.val &&& 0x70) &&& (0x70 - perms) = 0 → body b = ({ u with g := u.g.setK 0 f.d.toNat 1 }, .done)) ∧
        ((e.val &&& 0x70) &&& (0x70 - perms) ≠ 0 →
          body b = (({ u with g := u.g.setK 0 f.d.toNat 1 } : State).announce b.g.part b.g.ctx (vpnOf (b.g.readK f.a.toNat).toNat) (vpnOf (b.g.readK f.a.toNat).toNat + 1) [] |>.2, .wait .waitStall (.inval u.mem.nextInval)))) ∧
      (e.large = false → e.target = 0 → e.val.testBit 0 = false → e.val.testBit 1 = true →
        (∀ frame rest, (c.part b.g.part).pool = frame :: rest → (c.part b.g.part).poolFor b.g.uid ≠ 0 →
          let v := (((c.setPart b.g.part { c.part b.g.part with pool := rest }).cleared frame).setEntry (partWho b.g.part) e.at_ (3 + perms + 65536 * frame)).leavePool
          body b = ({ v with g := v.g.setK 0 f.d.toNat 0 }, .done)) ∧
        ((c.part b.g.part).pool = [] ∨ (c.part b.g.part).poolFor b.g.uid = 0 → body b = c.poolEmpty (b.g.readK f.a.toNat).toNat)) := by
  intro perms u
  refine ⟨_, fun _ => rfl, ?_, ?_, ?_⟩ <;> dsimp only <;> rw [hva, hheld, hq] <;> dsimp only
  · intro h
    rw [if_neg (by simp), if_pos]
    simp only [Bool.or_eq_false_iff] at h
    simpa [or_assoc] using h
  · intro hl ht h0
    rw [if_neg (by simp), if_neg (by simp [hl, ht, h0]), if_pos h0]
    refine ⟨fun h => ?_, fun h => ?_⟩
    · rw [if_neg (by simpa using h)]
    · rw [if_pos (by simpa using h)]
      rfl
  · intro hl ht h0 h1
    rw [if_neg (by simp), if_neg (by simp [hl, ht, h1]), if_neg (by simp [h0])]
    refine ⟨fun frame rest hp hn => ?_, fun h => ?_⟩
    · rw [hp]
      dsimp only
      rw [if_neg hn]
    · cases hp : (c.part b.g.part).pool with
      | nil => rfl
      | cons frame rest =>
        dsimp only
        rw [if_pos (h.resolve_left (by rw [hp]; simp))]

/-- `pcommit` as the statement of O51 has it. -/
theorem pcommit_settles {f : FForm} {s c : State} {e : LeafEnt} (hx : s.executes (mkWord shapePcommit f) {} = true) (hheld : s.g.tableHeld = false) (hva : pageCheck (s.g.readK f.a.toNat).toNat = none)
    (hq : (s.begun (mkWord shapePcommit f) {}).findLeaf (s.begun (mkWord shapePcommit f) {}).g.who (s.g.readK f.a.toNat).toNat = (some e, c)) :
    let w := mkWord shapePcommit f
    let va := (s.g.readK f.a.toNat).toNat
    let perms := f.rnd.toNat * 16
    let p := s.g.part
    (((e.val.testBit 0 || e.val.testBit 1) = false ∨ e.large = true ∨ e.target ≠ 0) → s.Answers c.leavePool (.pcommit f) w f.d.toNat 2) ∧
    (e.large = false → e.target = 0 → e.val.testBit 0 = true →
      let u := (c.setEntry (partWho p) e.at_ ((e.val &&& (2 ^ 64 - 1 - 0x70)) ||| perms)).leavePool
      ((e.val &&& 0x70) &&& (0x70 - perms) = 0 → s.Answers u (.pcommit f) w f.d.toNat 1) ∧
      ((e.val &&& 0x70) &&& (0x70 - perms) ≠ 0 → u.mem.bad = none → s.WaitsAt (.pcommit f) .waitStall (.inval u.mem.nextInval))) ∧
    (e.large = false → e.target = 0 → e.val.testBit 0 = false → e.val.testBit 1 = true →
      (∀ frame rest, (c.part p).pool = frame :: rest → (c.part p).poolFor s.g.uid ≠ 0 →
        s.Answers ((((c.setPart p { c.part p with pool := rest }).cleared frame).setEntry (partWho p) e.at_ (3 + perms + 65536 * frame)).leavePool) (.pcommit f) w f.d.toNat 0) ∧
      ((c.part p).pool = [] ∨ (c.part p).poolFor s.g.uid = 0 → (c.poolEmpty va).1.mem.bad = none → s.WaitsAt (.pcommit f) .waitExt .pool)) := by
  intro w va perms p
  obtain ⟨hpart, hctx, huid, hpc, hk, hheld'⟩ := begun_table s w {}
  have hread : (s.begun w {}).g.readK f.a.toNat = s.g.readK f.a.toNat := begin_readK s.g w {} _
  have hleaf : (s.begun w {}).Drift c := by
    have h := findLeaf_drift (s.begun w {}) (s.begun w {}).g.who va
    rwa [hq] at h
  have hcpc : c.g.pc = s.g.pc := (drift_pc hleaf).trans hpc
  obtain ⟨body, he, h2, h1, h0⟩ := pcommit_body f (b := s.begun w {}) (hheld'.trans hheld) (by rw [hread]; exact hva) (by rw [hread]; exact hq)
  rw [hread, hpart, hctx, huid] at *
  refine ⟨fun h => answers_of_body (he s) hx (h2 h), fun hl ht hv => ⟨fun h => answers_of_body (he s) hx ((h1 hl ht hv).1 h), fun h hm => ?_⟩, fun hl ht hv hr => ⟨fun frame rest hp hn => answers_of_body (he s) hx ((h0 hl ht hv hr).1 frame rest hp hn), fun h hm => ?_⟩⟩
  · obtain ⟨t, ht', -, hst, hwt, hpc'⟩ := body_waits hx ((h1 hl ht hv).2 h) hm
    refine ⟨t, (he s).trans ht', hst, hwt, hpc'.trans ?_⟩
    show (Group.setK _ _ _ _).pc = _
    rw [setK_pc, leavePool_g, drift_pc (setEntry_drift _ _ _ _), hcpc]
  · exact pool_waits (he s) hx hcpc ((h0 hl ht hv hr).2 h) hm

/-- What `pfree` does once its leaf is found. -/
theorem pfree_body (f : FForm) {b c : State} {e : LeafEnt} (hheld : b.g.tableHeld = false) (hva : pageCheck (b.g.readK f.a.toNat).toNat = none)
    (hq : b.findLeaf b.g.who (b.g.readK f.a.toNat).toNat = (some e, c)) :
    let u := c.setEntry (partWho b.g.part) e.at_ 2
    let a := (u.announce b.g.part b.g.ctx (vpnOf (b.g.readK f.a.toNat).toNat) (vpnOf (b.g.readK f.a.toNat).toNat + 1) [bitsAt e.val 51 16]).2
    ∃ body, (∀ s, exec (.pfree f) s = runWord (mkWord shapePfree f) {} body s) ∧
      ((e.val.testBit 0 = false ∨ e.target ≠ 0 ∨ e.val.testBit 10 = true ∨ e.large = true) → body b = ({ c with g := c.g.setK 0 f.d.toNat 1 }, .done)) ∧
      (e.val.testBit 0 = true → e.target = 0 → e.val.testBit 10 = false → e.large = false →
        body b = ({ a with g := a.g.setK 0 f.d.toNat 0 }, .wait .waitStall (.inval u.mem.nextInval))) := by
  intro u a
  refine ⟨_, fun _ => rfl, ?_, ?_⟩ <;> dsimp only <;> rw [hva, hheld, hq] <;> dsimp only
  · intro h
    rw [if_neg (by simp), if_pos]
    simpa [or_assoc] using h
  · intro h0 ht hc hl
    rw [if_neg (by simp), if_neg (by simp [h0, ht, hc, hl])]
    rfl

theorem pfree_settles {f : FForm} {s c : State} {e : LeafEnt} (hx : s.executes (mkWord shapePfree f) {} = true) (hheld : s.g.tableHeld = false) (hva : pageCheck (s.g.readK f.a.toNat).toNat = none)
    (hq : (s.begun (mkWord shapePfree f) {}).findLeaf (s.begun (mkWord shapePfree f) {}).g.who (s.g.readK f.a.toNat).toNat = (some e, c)) :
    let w := mkWord shapePfree f
    let va := (s.g.readK f.a.toNat).toNat
    ((e.val.testBit 0 = false ∨ e.target ≠ 0 ∨ e.val.testBit 10 = true ∨ e.large = true) → s.Answers c (.pfree f) w f.d.toNat 1) ∧
    (e.val.testBit 0 = true → e.target = 0 → e.val.testBit 10 = false → e.large = false →
      let u := c.setEntry (partWho s.g.part) e.at_ 2
      u.mem.bad = none → ∃ t, exec (.pfree f) s = .next t ∧ t.g.st = .waitStall ∧ t.g.wait = .inval u.mem.nextInval ∧ t.g.pc = s.g.pc ∧
        t.mem.invals = u.mem.invals ++ [{ id := u.mem.nextInval, part := s.g.part, ctx := s.g.ctx, lo := vpnOf va, hi := vpnOf va + 1, free := [bitsAt e.val 51 16] }] ∧
        (f.d ≠ 0 → ∀ d, s.g.dist ≤ d → t.g.kAt d f.d.toNat = 0)) := by
  intro w va
  obtain ⟨hpart, hctx, -, hpc, -, hheld'⟩ := begun_table s w {}
  have hread : (s.begun w {}).g.readK f.a.toNat = s.g.readK f.a.toNat := begin_readK s.g w {} _
  have hleaf : (s.begun w {}).Drift c := by
    have h := findLeaf_drift (s.begun w {}) (s.begun w {}).g.who va
    rwa [hq] at h
  obtain ⟨body, he, h1, h0⟩ := pfree_body f (b := s.begun w {}) (hheld'.trans hheld) (by rw [hread]; exact hva) (by rw [hread]; exact hq)
  rw [hread, hpart, hctx] at h0
  refine ⟨fun h => answers_of_body (he s) hx (h1 h), fun hv ht hc hl => ?_⟩
  intro u hm
  have hupc : u.g.pc = s.g.pc := (drift_pc (setEntry_drift c _ _ _)).trans ((drift_pc hleaf).trans hpc)
  replace h0 := h0 hv ht hc hl
  change body _ = ({ (u.announce s.g.part s.g.ctx (vpnOf va) (vpnOf va + 1) [bitsAt e.val 51 16]).2 with g := u.g.setK 0 f.d.toNat 0 }, .wait .waitStall (.inval u.mem.nextInval)) at h0
  clear_value u
  obtain ⟨t, ht', hsame, hg⟩ := body_waits_as hx h0 hm
  refine ⟨t, (he s).trans ht', by rw [hg]; rfl, by rw [hg]; rfl, ?_, by rw [hsame.mem]; rfl, fun hd d _ => ?_⟩
  · rw [hg]
    exact (setK_pc u.g 0 _ _).trans hupc
  · exact kAt_setK_now (g := u.g) (by bv_omega) (by rw [hg]; rfl)

/-! ### `preserve` and `preserve.rel` -/

/-- What `preserve` does with a range that passes its checks. -/
theorem preserve_body (f : FForm) {b : State} (hheld : b.g.tableHeld = false) (hr : rangeCheck (b.g.readK f.a.toNat).toNat (b.g.readK f.b.toNat).toNat = none) :
    let a := (b.g.readK f.a.toNat).toNat
    let cs := chunks a (b.g.readK f.b.toNat).toNat
    let used := cs.any fun c => (b.chunkEntries b.g.who c).any fun es => es.any fun e => e.2 % 4 != 0
    ∃ body, (∀ s, exec (.preserve f) s = runWord (mkWord shapePreserve f) {} body s) ∧
      (used = true → body b = ({ b.leavePool with g := b.leavePool.g.setK 0 f.d.toNat 1 }, .done)) ∧
      ∀ built c, used = false → cs.foldl (fun (acc : Bool × State) va => if acc.1 then acc.2.buildTables b.g va [1, 2, 3] (acc.2.root b.g.who) else acc) (true, b) = (built, c) →
        let v := (cs.foldl (fun (t : State) va => ((t.chunkEntries b.g.who va).getD []).foldl (fun (t : State) e => t.setEntry (partWho b.g.part) e.1 (e.2 ||| 2)) t) c).leavePool
        (built = true → body b = ({ v with g := v.g.setK 0 f.d.toNat 0 }, .done)) ∧ (built = false → body b = c.poolEmpty a) := by
  intro a cs used
  refine ⟨_, fun _ => rfl, fun h => ?_, fun built c h hb => ?_⟩ <;> dsimp only <;> rw [hr, hheld]
  · exact (if_neg (by simp)).trans (if_pos h)
  · refine ⟨fun ht => ?_, fun ht => ?_⟩ <;> subst ht <;> refine (if_neg (by simp)).trans ((if_neg (by rw [show (cs.any _) = false from h]; simp)).trans ?_) <;> rw [hb]
    · exact if_neg (by simp)
    · exact if_pos (by simp)

/-- What `preserve.rel` does with a range that passes its checks. -/
theorem preserveRel_body (f : FForm) {b : State} (hheld : b.g.tableHeld = false) (hr : rangeCheck (b.g.readK f.a.toNat).toNat (b.g.readK f.b.toNat).toNat = none) :
    let cs := chunks (b.g.readK f.a.toNat).toNat (b.g.readK f.b.toNat).toNat
    let held := cs.all fun c => (b.chunkEntries b.g.who c).any fun es => es.all fun e => e.2 % 4 == 2
    let v := cs.foldl (fun (t : State) va => ((t.chunkEntries b.g.who va).getD []).foldl (fun (t : State) e => t.setEntry (partWho b.g.part) e.1 (e.2 - 2)) t) b
    ∃ body, (∀ s, exec (.preserveRel f) s = runWord (mkWord shapePreserveRel f) {} body s) ∧
      (held = false → body b = ({ b with g := b.g.setK 0 f.d.toNat 1 }, .done)) ∧ (held = true → body b = ({ v with g := v.g.setK 0 f.d.toNat 0 }, .done)) := by
  intro cs held v
  refine ⟨_, fun _ => rfl, fun h => ?_, fun h => ?_⟩ <;> dsimp only <;> rw [hr, hheld] <;> refine (if_neg (by simp)).trans ?_
  · exact if_neg (by rw [show (cs.all _) = false from h]; simp)
  · exact if_pos h

/-! ### `tlbinv` -/

/-- What an invalidating word does with its range. -/
theorem tlbinv_announces {range : Group → Except Flow (Option (Nat × Nat))} {w : Word} {s : State} {p x lo hi : Nat} (hx : s.executes w { illegal := !s.g.ccc && w.f.d != 0 } = true) (hheld : s.g.tableHeld = false)
    (hr : range (s.begun w { illegal := !s.g.ccc && w.f.d != 0 }).g = .ok (some (lo, hi))) (hc : (s.begun w { illegal := !s.g.ccc && w.f.d != 0 }).tlbContext w = .ok (p, x)) :
    ∃ t, runTlbinv range w s = .next t ∧ t.g.st = .waitStall ∧ t.g.wait = .inval s.mem.nextInval ∧ t.g.pc = s.g.pc ∧
      t.mem.invals = s.mem.invals ++ [{ id := s.mem.nextInval, part := p, ctx := x, lo := lo, hi := hi, free := [] }] := by
  obtain ⟨-, -, -, hpc, -, hheld'⟩ := begun_table s w { illegal := !s.g.ccc && w.f.d != 0 }
  have hm : s.mem.bad = none := executes_sound hx
  obtain ⟨body, he, hb⟩ : ∃ body, runTlbinv range w s = runWord w { illegal := !s.g.ccc && w.f.d != 0 } body s ∧
      body (s.begun w { illegal := !s.g.ccc && w.f.d != 0 }) = (((s.begun w { illegal := !s.g.ccc && w.f.d != 0 }).announce p x lo hi []).2, .wait .waitStall (.inval s.mem.nextInval)) := by
    refine ⟨_, rfl, ?_⟩
    dsimp only
    rw [hr, hc]
    dsimp only
    rw [hheld', hheld]
    rfl
  obtain ⟨t, ht, hsame, hst, hwt, hpc'⟩ := body_waits hx hb hm
  rw [he]
  exact ⟨t, ht, hst, hwt, hpc'.trans hpc, by rw [hsame.mem]; rfl⟩

theorem tlbinv_nothing {f : FForm} {s : State} (hx : s.executes (mkWord shapeTlbinv f) { illegal := !s.g.ccc && f.d != 0 } = true) (ha : (s.g.readK f.a.toNat).toNat % 65536 = 0) (hn : s.g.readK f.b.toNat = 0)
    (hc : ∃ x, (s.begun (mkWord shapeTlbinv f) { illegal := !s.g.ccc && f.d != 0 }).tlbContext (mkWord shapeTlbinv f) = .ok x) :
    s.Completes (s.begun (mkWord shapeTlbinv f) { illegal := !s.g.ccc && f.d != 0 }) (.tlbinv f) (mkWord shapeTlbinv f) { illegal := !s.g.ccc && f.d != 0 } := by
  obtain ⟨x, hc⟩ := hc
  refine completes_of_body (show exec (.tlbinv f) s = runWord _ _ _ s from rfl) hx ?_
  dsimp only
  rw [begun_g, begin_readK, begin_readK, hn, hc, if_neg (by simp [ha])]
  rfl

end Sys2Proof.Machine
end

section
/-! The settlement of O51: homes, the end of an invalidation, and the page words together. -/

namespace Sys2Proof.Machine

open Sys2Proof

/-! ### Homes (R373, R374) -/

theorem cleanTile_home (s : State) (tile : Nat) : (s.cleanTile tile).mem.home = s.mem.home := by
  have h : s.Accesses (s.cleanTile tile) := by
    unfold State.cleanTile
    split
    · exact .of_lines (writeback_lines s tile)
    · exact .refl s
  rw [h.eq]

/-- A frame whose home moves has it there, and every other frame keeps its own. -/
theorem moveHome_homeDie (s : State) (frame die y : Nat) : (s.moveHome frame die).homeDie y = if frame = y then die else s.homeDie y := by
  have hfold : ∀ (l : List Nat) (t : State), (l.foldl (fun s i => s.cleanTile (16 * frame + i)) t).mem.home = t.mem.home := fun l => by
    induction l with
    | nil => exact fun _ => rfl
    | cons i l ih => exact fun t => (ih _).trans (cleanTile_home t _)
  have hset : ∀ t : Tbl Nat, tget (frameDie y) (tset (frameDie frame) t frame die) y = if frame = y then die else tget (frameDie y) t y := fun t => by
    by_cases hy : frame = y
    · subst hy
      exact tget_tset _ t _ _ _
    · rw [if_neg hy]
      unfold tset
      split
      · rw [tget_tdel, if_neg hy]
      · rw [tget_tput, if_neg hy]
  unfold State.homeDie State.moveHome
  dsimp only
  rw [hset]
  by_cases hy : frame = y
  · rw [if_pos hy, if_pos hy]
  · have hclean := hfold (List.range 16) s
    generalize (List.range 16).foldl (fun s i => s.cleanTile (16 * frame + i)) s = t at hclean ⊢
    rw [if_neg hy, if_neg hy]
    split
    · exact congrArg (tget (frameDie y) · y) hclean
    · rfl

theorem moveHomes_homeDie (die y : Nat) (frames : List Nat) (s : State) : (frames.foldl (fun (t : State) x => t.moveHome x die) s).homeDie y = if y ∈ frames then die else s.homeDie y := by
  induction frames generalizing s with
  | nil => simp
  | cons x xs ih =>
    rw [List.foldl_cons, ih, moveHome_homeDie]
    by_cases hx : y ∈ xs
    · simp [hx]
    · simp [hx, eq_comm]

/-- What `hmove` does once its leaf is found. -/
theorem hmove_body (f : FForm) {b c : State} {e : LeafEnt} (hheld : b.g.tableHeld = false) (ha : (b.g.readK f.a.toNat).toNat % 65536 = 0) (hv : (b.g.readK f.a.toNat).toNat < Config.vaBytes)
    (hd : (b.g.readK f.b.toNat).toNat ≤ 1) (hq : b.findLeaf b.g.who (b.g.readK f.a.toNat).toNat = (some e, c)) :
    let die := (b.g.readK f.b.toNat).toNat
    let frames := if e.large then (List.range 512).map fun i => bitsAt e.val 51 25 * 512 + i else [bitsAt e.val 51 16]
    let u := frames.foldl (fun (t : State) x => t.moveHome x die) c
    ∃ body, (∀ s, exec (.hmove f) s = runWord (mkWord shapeHmove f) {} body s) ∧
      (e.val.testBit 0 = false ∨ e.target ≠ 0 → body b = ({ c with g := c.g.setK 0 f.d.toNat 2 }, .done)) ∧
      (e.val.testBit 0 = true → e.target = 0 → (frames.all fun x => c.homeDie x == die) = true → body b = ({ c with g := c.g.setK 0 f.d.toNat 1 }, .done)) ∧
      (e.val.testBit 0 = true → e.target = 0 → (frames.all fun x => c.homeDie x == die) = false → body b = ({ u with g := u.g.setK 0 f.d.toNat 0 }, .done)) := by
  intro die frames u
  refine ⟨_, fun _ => rfl, ?_, ?_, ?_⟩ <;> dsimp only <;>
    rw [ha, if_neg (by simp), if_neg (by omega), hheld, if_neg (by simp), if_neg (by omega), hq] <;> dsimp only
  · exact fun h => if_pos (by simpa using h)
  · exact fun h0 ht hf => (if_neg (by simp [h0, ht])).trans (if_pos hf)
  · exact fun h0 ht hf => (if_neg (by simp [h0, ht])).trans (if_neg (by rw [show (frames.all _) = false from hf]; simp))

/-! ### The end of an invalidation (R187) -/

theorem mapGroups_none {s : State} {p : Group → Bool} {f : Group → Group} (h : ∀ x ∈ s.allGroups, p x = false) : s.mapGroups p f = s := by
  have hg : (if s.g.st != .free && p s.g then f s.g else s.g) = s.g := by
    split
    · rename_i hc
      simp only [Bool.and_eq_true, bne_iff_ne] at hc
      rw [h s.g (by unfold State.allGroups; rw [if_neg hc.1]; exact List.mem_cons_self)] at hc
      exact absurd hc.2 (by simp)
    · rfl
  have hgs : (s.groups.map fun x => if p x then f x else x) = s.groups := by
    refine (List.map_congr_left fun x hx => ?_).trans (List.map_id _)
    rw [h x (by unfold State.allGroups; split <;> simp [hx])]
    rfl
  unfold State.mapGroups
  rw [hg, hgs]

theorem mapGroups_all (s : State) (p : Group → Bool) {f : Group → Group} (hf : ∀ h, (f h).st = h.st) : (s.mapGroups p f).allGroups = s.allGroups.map fun h => if p h then f h else h := by
  have hst : (if s.g.st != .free && p s.g then f s.g else s.g).st = s.g.st := by
    split
    · exact hf _
    · rfl
  unfold State.allGroups State.mapGroups
  dsimp only
  rw [hst]
  split
  · rfl
  · rename_i hfree
    simp [hfree]

/-- A group that has lost pages of a context from its last-page registers. -/
def Group.Swept (h x : Group) : Prop := ∃ lp, x = { h with lastPage := lp }

/-- Sending a page changes no group. -/
theorem sendPage_groups (s : State) (dev src dst : Nat) : (s.sendPage dev src dst).g = s.g ∧ (s.sendPage dev src dst).groups = s.groups := by
  have hfold : ∀ (l : List Nat) (t : State), t.Backs (l.foldl (fun s i => (s.checkTile (16 * src + i)).2) t) := fun l => by
    induction l with
    | nil => exact .refl
    | cons i l ih => exact fun t => (checkTile_backs t _).trans (ih _)
  have h := hfold (List.range 16) s
  unfold State.sendPage
  dsimp only
  generalize (List.range 16).foldl (fun s i => (s.checkTile (16 * src + i)).2) s = t at h ⊢
  split
  · exact ⟨h.g, h.groups⟩
  · exact ⟨h.g, h.groups⟩

/-- The invalidation i is taken from the list, its pages swept, and a page that moves sent. -/
def State.invalidated (s : State) (inv : Nat) (i : Inval) : State :=
  let v := ({ s with mem := { s.mem with invals := s.mem.invals.filter fun x => x.id != inv } } : State).sweep i.part i.ctx i.lo i.hi i.free
  match i.send with
  | some x => v.sendPage x.1 x.2.1 x.2.2
  | none => v

theorem invalidated_all (s : State) (inv : Nat) (i : Inval) : ∃ f : Group → Group, (∀ h : Group, h.Swept (f h)) ∧ (s.invalidated inv i).allGroups = s.allGroups.map f := by
  obtain ⟨f, hf, hv⟩ : ∃ f : Group → Group, (∀ h : Group, h.Swept (f h)) ∧
      (({ s with mem := { s.mem with invals := s.mem.invals.filter fun x => x.id != inv } } : State).sweep i.part i.ctx i.lo i.hi i.free).allGroups = s.allGroups.map f := by
    refine ⟨_, fun h => ?_, mapGroups_all _ _ fun _ => rfl⟩
    split
    · exact ⟨_, rfl⟩
    · exact ⟨h.lastPage, rfl⟩
  refine ⟨f, hf, ?_⟩
  unfold State.invalidated
  dsimp only
  split
  · obtain ⟨hg, hgs⟩ := sendPage_groups (({ s with mem := { s.mem with invals := s.mem.invals.filter fun x => x.id != inv } } : State).sweep i.part i.ctx i.lo i.hi i.free) _ _ _
    rw [State.allGroups, hg, hgs]
    exact hv
  · exact hv

/-- The open regions whose word set holds a page of the invalidation abort (R276). -/
def State.pagesAborted (s : State) (i : Inval) : State :=
  let hit := fun (h : Group) => h.part == i.part && h.ctx == i.ctx && !h.ccc && h.region.any fun r => r.pages.any fun p => i.lo ≤ p && p < i.hi
  let quads := ((s.allGroups.filter hit).map Group.quad).eraseDups
  quads.foldl State.grant (s.mapGroups hit fun h => Group.stayParked { h.abortNow 14 with wait := .none, st := h.awake } h.st)

theorem pagesAborted_none {s : State} {i : Inval} (h : ∀ x ∈ s.allGroups, x.region = none) : s.pagesAborted i = s := by
  have hno : ∀ x ∈ s.allGroups, (x.part == i.part && x.ctx == i.ctx && !x.ccc && x.region.any fun r => r.pages.any fun p => decide (i.lo ≤ p) && decide (p < i.hi)) = false := fun x hx => by
    rw [h x hx]
    simp
  unfold State.pagesAborted
  dsimp only
  rw [mapGroups_none hno, List.filter_eq_nil_iff.mpr fun x hx => by rw [hno x hx]; simp]
  rfl

/-- The frames of the invalidation wait for their reuse. -/
def State.framesFreed (b : State) (i : Inval) : State := b.setPart i.part { b.part i.part with freeing := (b.part i.part).freeing ++ i.free }

theorem invalidation_eq (inv : Nat) (s : State) : exec (.invalidationComplete inv) s = answer (match s.mem.invals.find? fun i => i.id == inv with
    | none => s
    | some i =>
      if !(i.seen && s.mem.invals.head?.any fun x => x.id == inv) || !(s.ctxGroups i.part i.ctx).all fun h => h.st == .preempted || h.allPerformed then s
      else
        let u := ((s.invalidated inv i).pagesAborted i).framesFreed i
        (u.allGroups.filter fun h => h.wait == .inval inv).foldl (fun s h => s.completeWait h.uid) u) := rfl

/-- The step that completes an invalidation which may complete. -/
theorem invalidation_exec {inv : Nat} {s : State} {i : Inval} (hi : s.mem.invals.head? = some i) (hid : i.id = inv) (hseen : i.seen = true) (hdone : ∀ h ∈ s.ctxGroups i.part i.ctx, h.st = .preempted ∨ h.allPerformed = true)
    (hreg : ∀ x ∈ (s.invalidated inv i).allGroups, x.region = none) :
    exec (.invalidationComplete inv) s = answer ((((s.invalidated inv i).framesFreed i).allGroups.filter fun h => h.wait == .inval inv).foldl (fun s h => s.completeWait h.uid) ((s.invalidated inv i).framesFreed i)) := by
  have hfind : s.mem.invals.find? (fun i => i.id == inv) = some i := by
    cases hl : s.mem.invals with
    | nil => rw [hl] at hi; cases hi
    | cons j js =>
      rw [hl] at hi
      cases hi
      exact List.find?_cons_of_pos (by simp [hid])
  have hall : ((s.ctxGroups i.part i.ctx).all fun h => h.st == .preempted || h.allPerformed) = true := by
    rw [List.all_eq_true]
    intro h hh
    simpa using hdone h hh
  rw [invalidation_eq, hfind]
  dsimp only
  rw [hseen, hi, hall, pagesAborted_none hreg, if_neg (by simp [hid])]

/-- A group that waits alone for the invalidation goes past its word. -/
theorem invalidation_resumes {inv : Nat} {s : State} {i : Inval} {h x : Group} {r : Resume} (hi : s.mem.invals.head? = some i) (hid : i.id = inv) (hseen : i.seen = true)
    (hdone : ∀ h ∈ s.ctxGroups i.part i.ctx, h.st = .preempted ∨ h.allPerformed = true) (hreg : ∀ x ∈ s.allGroups, x.region = none) (hone : (s.allGroups.filter fun x => x.wait == .inval inv) = [h]) (hw : s.Waits h.uid h r)
    (hx : ((s.invalidated inv i).framesFreed i).group? h.uid = some x) (hm : ((s.invalidated inv i).framesFreed i).mem.bad = none) :
    ∃ t, exec (.invalidationComplete inv) s = .next t ∧ ((s.invalidated inv i).framesFreed i).Resumes t h.uid x r := by
  obtain ⟨f, hf, hall⟩ := invalidated_all s inv i
  have hfields : ∀ h, (f h).uid = h.uid ∧ (f h).region = h.region ∧ (f h).wait = h.wait ∧ (f h).st = h.st ∧ (f h).resume = h.resume ∧ (f h).replay = h.replay := fun h => by
    obtain ⟨lp, hlp⟩ := hf h
    rw [hlp]
    exact ⟨rfl, rfl, rfl, rfl, rfl, rfl⟩
  have hreg' : ∀ y ∈ (s.invalidated inv i).allGroups, y.region = none := fun y hy => by
    rw [hall, List.mem_map] at hy
    obtain ⟨z, hz, rfl⟩ := hy
    exact (hfields z).2.1.trans (hreg z hz)
  have hwaiters : ((s.invalidated inv i).framesFreed i).allGroups.filter (fun h => h.wait == .inval inv) = [f h] := by
    show (s.invalidated inv i).allGroups.filter _ = _
    rw [hall, List.filter_map]
    have : (fun h => h.wait == Wait.inval inv) ∘ f = fun h => h.wait == Wait.inval inv := funext fun z => by
      show ((f z).wait == _) = _
      rw [(hfields z).2.2.1]
    rw [this, hone]
    rfl
  have hxf : x = f h := by
    have hmap : ((s.invalidated inv i).framesFreed i).group? h.uid = (s.group? h.uid).map f := by
      show ((s.invalidated inv i).allGroups.find? _) = _
      rw [hall]
      exact find?_map_congr _ fun z _ => by rw [(hfields z).1]
    rw [hmap, hw.group] at hx
    exact (Option.some.inj hx).symm
  obtain ⟨huid, -, -, hst, hresume, hreplay⟩ := hfields h
  rw [invalidation_exec hi hid hseen hdone hreg', hwaiters]
  generalize (s.invalidated inv i).framesFreed i = u at hx hm ⊢
  have hres : u.Resumes (u.completeWait h.uid) h.uid x r := completeWait_resumes
    { group := hx, resume := by rw [hxf, hresume]; exact hw.resume, replay := by rw [hxf, hreplay]; exact hw.replay, parked := by rw [hxf, hst]; exact hw.parked, saved := by rw [hxf, hst]; exact hw.saved, sound := hm }
  refine ⟨u.completeWait h.uid, ?_, hres⟩
  rw [List.foldl_cons, List.foldl_nil, huid]
  exact answer_next _ (by rw [hres.rest.mem]; exact hm)

/-! ### The range words -/

theorem cleared_drift (s : State) (frame : Nat) : s.Drift (s.cleared frame) := by
  unfold State.cleared
  split
  · exact zeroFrame_drift s frame
  · exact Drift.refl s

theorem buildTables_drift (g : Group) (va : Nat) (ks : List Nat) (s : State) (t : Nat) : s.Drift (s.buildTables g va ks t).2 := by
  induction ks generalizing s t with
  | nil => exact Drift.refl s
  | cons k ks ih =>
    unfold State.buildTables
    dsimp only
    split
    · exact ih s _
    · split
      · exact Drift.trans (Drift.trans (drift_part s _ _) (setEntry_drift _ _ _ _)) (ih _ _)
      · split
        · exact Drift.refl s
        · exact Drift.trans (Drift.trans (Drift.trans (drift_part s _ _) (cleared_drift _ _)) (setEntry_drift _ _ _ _)) (ih _ _)
      · exact Drift.refl s

theorem buildRange_drift (g : Group) (cs : List Nat) (acc : Bool × State) :
    acc.2.Drift (cs.foldl (fun (acc : Bool × State) va => if acc.1 then acc.2.buildTables g va [1, 2, 3] (acc.2.root g.who) else acc) acc).2 := by
  induction cs generalizing acc with
  | nil => exact Drift.refl _
  | cons c cs ih =>
    refine Drift.trans ?_ (ih _)
    dsimp only
    split
    · exact buildTables_drift g c _ _ _
    · exact Drift.refl _

theorem preserve_settles {f : FForm} {s : State} (hx : s.executes (mkWord shapePreserve f) {} = true) (hheld : s.g.tableHeld = false) (hr : rangeCheck (s.g.readK f.a.toNat).toNat (s.g.readK f.b.toNat).toNat = none) :
    let w := mkWord shapePreserve f
    let b := s.begun w {}
    let a := (s.g.readK f.a.toNat).toNat
    let cs := chunks a (s.g.readK f.b.toNat).toNat
    let used := cs.any fun c => (b.chunkEntries b.g.who c).any fun es => es.any fun e => e.2 % 4 != 0
    (used = true → s.Answers b.leavePool (.preserve f) w f.d.toNat 1) ∧
    (∀ built c, used = false → cs.foldl (fun (acc : Bool × State) va => if acc.1 then acc.2.buildTables b.g va [1, 2, 3] (acc.2.root b.g.who) else acc) (true, b) = (built, c) →
      (built = true → s.Answers (cs.foldl (fun (t : State) va => ((t.chunkEntries b.g.who va).getD []).foldl (fun (t : State) e => t.setEntry (partWho s.g.part) e.1 (e.2 ||| 2)) t) c).leavePool (.preserve f) w f.d.toNat 0) ∧
      (built = false → (c.poolEmpty a).1.mem.bad = none → s.WaitsAt (.preserve f) .waitExt .pool)) := by
  intro w b a cs used
  obtain ⟨hpart, -, -, hpc, -, hheld'⟩ := begun_table s w {}
  have hread : ∀ n, (s.begun w {}).g.readK n = s.g.readK n := begin_readK s.g w {}
  obtain ⟨body, he, h1, h0⟩ := preserve_body f (b := s.begun w {}) (hheld'.trans hheld) (by rw [hread, hread]; exact hr)
  rw [hread, hread] at h1 h0
  refine ⟨fun h => answers_of_body (he s) hx (h1 h), fun built c hu hb => ⟨fun ht => ?_, fun ht hm => ?_⟩⟩
  · have h := (h0 built c hu hb).1 ht
    rw [hpart] at h
    exact answers_of_body (he s) hx h
  · have hc : b.Drift c := by
      have h := buildRange_drift b.g cs (true, b)
      rwa [hb] at h
    exact pool_waits (he s) hx ((drift_pc hc).trans hpc) ((h0 built c hu hb).2 ht) hm

theorem preserveRel_settles {f : FForm} {s : State} (hx : s.executes (mkWord shapePreserveRel f) {} = true) (hheld : s.g.tableHeld = false) (hr : rangeCheck (s.g.readK f.a.toNat).toNat (s.g.readK f.b.toNat).toNat = none) :
    let w := mkWord shapePreserveRel f
    let b := s.begun w {}
    let cs := chunks (s.g.readK f.a.toNat).toNat (s.g.readK f.b.toNat).toNat
    let held := cs.all fun c => (b.chunkEntries b.g.who c).any fun es => es.all fun e => e.2 % 4 == 2
    (held = false → s.Answers b (.preserveRel f) w f.d.toNat 1) ∧
    (held = true → s.Answers (cs.foldl (fun (t : State) va => ((t.chunkEntries b.g.who va).getD []).foldl (fun (t : State) e => t.setEntry (partWho s.g.part) e.1 (e.2 - 2)) t) b) (.preserveRel f) w f.d.toNat 0) := by
  intro w b cs held
  obtain ⟨hpart, -, -, -, -, hheld'⟩ := begun_table s w {}
  have hread : ∀ n, (s.begun w {}).g.readK n = s.g.readK n := begin_readK s.g w {}
  obtain ⟨body, he, h1, h0⟩ := preserveRel_body f (b := s.begun w {}) (hheld'.trans hheld) (by rw [hread, hread]; exact hr)
  rw [hread, hread] at h1 h0
  rw [hpart] at h0
  exact ⟨fun h => answers_of_body (he s) hx (h1 h), fun h => answers_of_body (he s) hx (h0 h)⟩

theorem hmove_settles {f : FForm} {s c : State} {e : LeafEnt} (hx : s.executes (mkWord shapeHmove f) {} = true) (hheld : s.g.tableHeld = false) (ha : (s.g.readK f.a.toNat).toNat % 65536 = 0)
    (hv : (s.g.readK f.a.toNat).toNat < Config.vaBytes) (hd : (s.g.readK f.b.toNat).toNat ≤ 1)
    (hq : (s.begun (mkWord shapeHmove f) {}).findLeaf (s.begun (mkWord shapeHmove f) {}).g.who (s.g.readK f.a.toNat).toNat = (some e, c)) :
    let w := mkWord shapeHmove f
    let die := (s.g.readK f.b.toNat).toNat
    let frames := if e.large then (List.range 512).map fun i => bitsAt e.val 51 25 * 512 + i else [bitsAt e.val 51 16]
    (e.val.testBit 0 = false ∨ e.target ≠ 0 → s.Answers c (.hmove f) w f.d.toNat 2) ∧
    (e.val.testBit 0 = true → e.target = 0 → (frames.all fun x => c.homeDie x == die) = true → s.Answers c (.hmove f) w f.d.toNat 1) ∧
    (e.val.testBit 0 = true → e.target = 0 → (frames.all fun x => c.homeDie x == die) = false →
      let u := frames.foldl (fun (t : State) x => t.moveHome x die) c
      s.Answers u (.hmove f) w f.d.toNat 0 ∧ ∀ x ∈ frames, u.homeDie x = die) := by
  intro w die frames
  obtain ⟨-, -, -, -, -, hheld'⟩ := begun_table s w {}
  have hread : ∀ n, (s.begun w {}).g.readK n = s.g.readK n := begin_readK s.g w {}
  obtain ⟨body, he, h2, h1, h0⟩ := hmove_body f (b := s.begun w {}) (hheld'.trans hheld) (by rw [hread]; exact ha) (by rw [hread]; exact hv) (by rw [hread]; exact hd) (by rw [hread]; exact hq)
  rw [hread] at h1 h0
  refine ⟨fun h => answers_of_body (he s) hx (h2 h), fun hv ht hf => answers_of_body (he s) hx (h1 hv ht hf), fun hv ht hf => ⟨answers_of_body (he s) hx (h0 hv ht hf), fun x hx => ?_⟩⟩
  rw [moveHomes_homeDie, if_pos hx]

/-- The pages that `tlbinv` names. -/
def tlbinvPages (f : FForm) (g : Group) : Except Flow (Option (Nat × Nat)) :=
  let a := (g.readK f.a.toNat).toNat
  let n := (g.readK f.b.toNat).toNat
  if a % 65536 != 0 then .error (.trap 0x08 (BitVec.ofNat 64 a))
  else if n % 65536 != 0 then .error (.trap 0x08 (BitVec.ofNat 64 n))
  else if n = 0 then .ok none
  else .ok (some (a / 65536, (a + n) / 65536))

theorem tlbinv_exec (f : FForm) (s : State) : exec (.tlbinv f) s = runTlbinv (tlbinvPages f) (mkWord shapeTlbinv f) s := rfl

theorem tlbinvPages_range {f : FForm} {g : Group} (ha : (g.readK f.a.toNat).toNat % 65536 = 0) (hb : (g.readK f.b.toNat).toNat % 65536 = 0) (hn : g.readK f.b.toNat ≠ 0) :
    tlbinvPages f g = .ok (some ((g.readK f.a.toNat).toNat / 65536, ((g.readK f.a.toNat).toNat + (g.readK f.b.toNat).toNat) / 65536)) := by
  unfold tlbinvPages
  dsimp only
  rw [ha, hb, if_neg (by simp), if_neg (by simp), if_neg (by bv_omega)]

/-- Settles O51: each word's body, once its checks pass, is the state that the statement names; the waits end as any wait does. -/
theorem pageWords : Obligations.PageWords := by
  unfold Obligations.PageWords
  refine ⟨?_, ?_, ?_, ?_, ?_, ?_, ?_, ?_⟩
  · intro f w s c e hw hx hheld va perms p hva hq
    cases hw
    exact pcommit_settles hx hheld hva hq
  · intro f w s c e hw hx hheld va hva hq
    cases hw
    exact pfree_settles hx hheld hva hq
  · intro f w s hw hx hheld b a cs used hr
    cases hw
    exact preserve_settles hx hheld hr
  · intro f w s hw hx hheld b a cs held hr
    cases hw
    exact preserveRel_settles hx hheld hr
  · rintro i f w s p x lo hi (⟨rfl, rfl, rfl⟩ | ⟨rfl, ha, hb, hn, rfl, rfl⟩) hw ex hx hheld hc
    · cases hw
      have he : exec (.tlbinvAll f) s = runTlbinv (fun _ => .ok (some (0, 2 ^ 40))) (mkWord shapeTlbinvAll f) s := rfl
      rw [he]
      exact tlbinv_announces hx hheld rfl hc
    · cases hw
      have hread : ∀ n, (s.begun (mkWord shapeTlbinv f) ex).g.readK n = s.g.readK n := begin_readK s.g _ ex
      have hpages := tlbinvPages_range (g := (s.begun (mkWord shapeTlbinv f) ex).g) (f := f) (by rw [hread]; exact ha) (by rw [hread]; exact hb) (by rw [hread]; exact hn)
      rw [hread, hread] at hpages
      rw [tlbinv_exec]
      exact tlbinv_announces hx hheld hpages hc
  · intro f w s hw ex hx ha hn hc
    cases hw
    exact tlbinv_nothing hx ha hn hc
  · intro inv s i h r hi hid hseen hdone hreg hone hw v b u x hx hm
    exact invalidation_resumes hi hid hseen hdone hreg hone hw hx hm
  · intro f w s c e hw hx hheld va die frames ha hv hd hq
    cases hw
    exact hmove_settles hx hheld ha hv hd hq

end Sys2Proof.Machine
end

section
/-! SUPPORT for O54: what leaves the windows, the clocks of partitions and the operating points as they are. -/

namespace Sys2Proof.Machine

open Sys2Proof

/-- No clock, no window and no operating point has moved. -/
structure State.Clocks (s t : State) : Prop where
  sched : (t.sched.window, t.sched.closed, t.sched.cycle) = (s.sched.window, s.sched.closed, s.sched.cycle)
  plat  : (t.plat.overBudget, t.plat.clusters) = (s.plat.overBudget, s.plat.clusters)
  parts : ∀ p, (t.part p).st = (s.part p).st ∧ (t.part p).time = (s.part p).time ∧ ((s.part p).resuming = [] → (t.part p).resuming = [])

theorem State.Clocks.of_parts {s t : State} (h1 : (t.sched.window, t.sched.closed, t.sched.cycle) = (s.sched.window, s.sched.closed, s.sched.cycle))
    (h2 : (t.plat.overBudget, t.plat.clusters) = (s.plat.overBudget, s.plat.clusters)) (h3 : t.tabs.parts = s.tabs.parts) : s.Clocks t :=
  ⟨h1, h2, fun p => by unfold State.part; rw [h3]; exact ⟨rfl, rfl, id⟩⟩

theorem State.Clocks.refl (s : State) : s.Clocks s := .of_parts rfl rfl rfl

theorem State.Clocks.trans {s t u : State} (h : s.Clocks t) (k : t.Clocks u) : s.Clocks u :=
  ⟨k.sched.trans h.sched, k.plat.trans h.plat, fun p => by
    obtain ⟨h1, h2, h3⟩ := h.parts p
    obtain ⟨k1, k2, k3⟩ := k.parts p
    exact ⟨k1.trans h1, k2.trans h2, fun e => k3 (h3 e)⟩⟩

theorem State.Clocks.fold {α : Type} {f : State → α → State} (h : ∀ (s : State) (a : α), s.Clocks (f s a)) (l : List α) (s : State) : s.Clocks (l.foldl f s) := by
  induction l generalizing s with
  | nil => exact .refl s
  | cons a l ih => exact (h s a).trans (ih _)

theorem State.Clocks.of_enters {s t : State} (h : s.Enters t) : s.Clocks t := by
  refine ⟨by rw [h.eq], by rw [h.eq], fun p => ?_⟩
  have hc := h.clocks p
  simp only [Prod.mk.injEq] at hc
  exact ⟨hc.1, hc.2.1, fun e => hc.2.2.trans e⟩

theorem State.Clocks.of_accesses {s t : State} (h : s.Accesses t) : s.Clocks t := .of_enters (.of_accesses h)

theorem State.Clocks.of_same {s t : State} (h : s.SameUnits t) : s.Clocks t := .of_parts (by rw [h.sched]) (by rw [h.plat]) h.parts

/-- What a table holds after a change of every entry is related to what it held. -/
theorem tget_map {α : Type} {R : α → α → Prop} {f : α → α} (d : α) (hd : R d d) (hf : ∀ x, R x (f x)) (t : Tbl α) (k : Nat) : R (tget d t k) (tget d (t.map fun e => (e.1, f e.2)) k) := by
  induction t with
  | nil => exact hd
  | cons e t ih =>
    simp only [List.map_cons, tget]
    split
    · exact hf _
    · exact ih

/-- Two values of a partition's entry with one state, one time, and no group more to be restored. -/
def Partition.Keeps (x y : Partition) : Prop := y.st = x.st ∧ y.time = x.time ∧ (x.resuming = [] → y.resuming = [])

theorem Partition.Keeps.refl (x : Partition) : x.Keeps x := ⟨rfl, rfl, id⟩

theorem setPart_clocks (s : State) (p : Nat) {x : Partition} (h : (s.part p).Keeps x) : s.Clocks (s.setPart p x) := by
  refine ⟨rfl, rfl, fun q => ?_⟩
  by_cases hq : q = p
  · rw [hq, part_setPart]
    exact h
  · rw [part_setPart_other s p q x hq]
    exact Partition.Keeps.refl _

theorem mapParts_clocks {s t : State} {f : Partition → Partition} (hf : ∀ x : Partition, x.Keeps (f x)) (h1 : (t.sched.window, t.sched.closed, t.sched.cycle) = (s.sched.window, s.sched.closed, s.sched.cycle))
    (h2 : (t.plat.overBudget, t.plat.clusters) = (s.plat.overBudget, s.plat.clusters)) (h3 : t.tabs.parts = s.tabs.parts.map fun e => (e.1, f e.2)) : s.Clocks t :=
  ⟨h1, h2, fun p => by
    unfold State.part
    rw [h3]
    exact tget_map (R := Partition.Keeps) _ (.refl _) hf _ p⟩

/-! ### Groups that wake and faults that are taken -/

theorem mapGroups_clocks (s : State) (p : Group → Bool) (f : Group → Group) : s.Clocks (s.mapGroups p f) := .of_parts rfl rfl rfl

theorem progress_clocks (s : State) (p c : Nat) : s.Clocks (s.progress p c) := .of_parts rfl rfl rfl

theorem putGroup_clocks (s : State) (h : Group) : s.Clocks (s.putGroup h) := .of_accesses (putGroup_accesses s h)

theorem putWord_clocks (s : State) (p a v : Nat) : s.Clocks (s.putWord p a v) := .of_accesses (storeRun_accesses s _ _ _)

theorem docket_clocks (s : State) (kind code src pn c : Nat) (payload : List Byte) : s.Clocks (s.docket kind code src pn c payload) := .of_enters (docket_enters _ _ _ _ _ _ _)

theorem grant_clocks (s : State) (q : Nat) : s.Clocks (s.grant q) := .of_same (grant_same s q)

theorem wake_clocks (s : State) (uid : Nat) : s.Clocks (s.wake uid) := by
  unfold State.wake
  split
  · exact .refl s
  · dsimp only
    split
    · exact putGroup_clocks s _
    · exact (putGroup_clocks s _).trans (progress_clocks _ _ _)

theorem wakes_clocks {f : Group → Nat} (l : List Group) (s : State) : s.Clocks (l.foldl (fun s h => s.wake (f h)) s) := State.Clocks.fold (fun s h => wake_clocks s (f h)) l s

theorem completeWait_clocks (s : State) (uid : Nat) : s.Clocks (s.completeWait uid) := by
  unfold State.completeWait
  split
  · exact .refl s
  · split
    · exact (putGroup_clocks s _).trans (progress_clocks _ _ _)
    · exact ((putGroup_clocks s _).trans (progress_clocks _ _ _)).trans (grant_clocks _ _)

theorem checkout_clocks (s : State) (uid : Nat) : s.Clocks (s.checkout uid) := by
  unfold State.checkout
  split
  · exact .refl s
  · split
    · exact .of_parts rfl rfl rfl
    · exact .refl s

theorem escalate_clocks (s : State) (r : FaultRec) : s.Clocks (s.escalate r) := by
  unfold State.escalate
  dsimp only
  refine State.Clocks.trans ?_ (docket_clocks _ _ _ _ _ _ _)
  split <;> exact .of_parts rfl rfl rfl

theorem enterHandler_clocks (s : State) (r : FaultRec) : s.Clocks (s.enterHandler r).1 := by
  have hplaces := State.Clocks.of_enters (recordPlaces_enters [0, 1, 2, 3] [] s)
  unfold State.enterHandler
  split
  · exact escalate_clocks s r
  · generalize s.recordPlaces [0, 1, 2, 3] [] = x at hplaces ⊢
    obtain ⟨places, u⟩ := x
    cases places with
    | none => exact hplaces.trans (escalate_clocks u r)
    | some ls =>
      have hvec := State.Clocks.of_enters (vector_enters u r.code)
      dsimp only at hplaces ⊢
      generalize u.vector r.code = y at hvec ⊢
      obtain ⟨entry, v⟩ := y
      cases entry with
      | none => exact hplaces.trans (hvec.trans (escalate_clocks v r))
      | some e =>
        refine hplaces.trans (hvec.trans ?_)
        generalize List.range 4 = qs
        exact (State.Clocks.fold (fun s q => .of_accesses (storeRun_accesses s _ _ _)) qs v).trans (.of_parts rfl rfl rfl)

theorem trapRec_clocks (s : State) (r : FaultRec) (space : Nat) : s.Clocks (s.trapRec r space).1 := by
  have key : ∀ g h : Group, s.Clocks (if g.inreg then ({ s with g := h }, false) else State.enterHandler { s with g := g } r).1 := fun g h => by
    split
    · exact .of_parts rfl rfl rfl
    · exact State.Clocks.trans (t := { s with g := g }) (.of_parts rfl rfl rfl) (enterHandler_clocks _ r)
  exact key _ _

theorem faultWaiter_clocks (s : State) (uid code : Nat) (replay : Mask) : s.Clocks (s.faultWaiter uid code replay).1 := by
  have key : ∀ t : State, s.Clocks t → ∀ g own, s.Clocks (State.checkout { t with g := g } own) := fun t h g own => h.trans (State.Clocks.trans (t := { t with g := g }) (.of_parts rfl rfl rfl) (checkout_clocks _ own))
  exact key _ ((checkout_clocks s uid).trans (trapRec_clocks _ _ _)) _ _

theorem breakOne_clocks (x : Group) (l : List Group) (acc : State × List Group) : acc.1.Clocks (l.foldl (breakOne x) acc).1 := by
  induction l generalizing acc with
  | nil => exact .refl _
  | cons h l ih =>
    refine State.Clocks.trans ?_ (ih _)
    unfold breakOne
    split
    · exact faultWaiter_clocks _ _ _ _
    · exact .refl _

theorem breakWaits_clocks (n : Nat) (xs : List Group) (s : State) : s.Clocks (s.breakWaits n xs) := by
  induction n generalizing xs s with
  | zero => exact .refl s
  | succ n ih =>
    cases xs with
    | nil => exact .refl s
    | cons x xs => exact (breakOne_clocks x s.allGroups (s, [])).trans (ih _ _)

theorem withdraw_clocks (s : State) (uid : Nat) : s.Clocks (s.withdraw uid) := by
  unfold State.withdraw
  dsimp only
  generalize hu : State.mapGroups (State.mapGroups _ _ _) _ _ = u
  have h : s.Clocks u := mapParts_clocks (f := fun x => { x with poolWait := x.poolWait.filter fun y => y != uid }) (fun x => ⟨rfl, rfl, id⟩) (by rw [← hu]; rfl) (by rw [← hu]; rfl) (by rw [← hu]; rfl)
  split
  · exact h
  · split
    · exact h.trans (putWord_clocks u _ _ _)
    · exact h

theorem takeAsync_clocks (s : State) (uid : Nat) (r : FaultRec) : s.Clocks (s.takeAsync uid r) := by
  have key : ∀ (q : State × Bool), s.Clocks q.1 → ∀ (g : Group) (own : Nat), s.Clocks ((if q.2 then State.broken { q.1 with g := g } g else { q.1 with g := g }).checkout own) := fun q hq g own => by
    have hg : s.Clocks { q.1 with g := g } := hq.trans (.of_parts rfl rfl rfl)
    refine State.Clocks.trans ?_ (checkout_clocks _ own)
    split
    · exact hg.trans (breakWaits_clocks _ _ _)
    · exact hg
  exact key _ (((withdraw_clocks s uid).trans (checkout_clocks _ uid)).trans (trapRec_clocks _ _ _)) _ _

/-! ### Records that are popped -/

theorem onQueue_clocks (s : State) (gidx qid : Nat) (f : Queue → Queue) : s.Clocks (s.onQueue gidx qid f) := by
  unfold State.onQueue
  split <;> exact .of_parts rfl rfl rfl

theorem readElem_clocks (s : State) (wait : Bool) (tokens : Tbl Nat) (h : Group) (r : Req) (i : Nat) (e : Elem) : s.Clocks (s.readElem wait tokens h r i e) := by
  unfold State.readElem
  dsimp only
  split
  · exact mapGroups_clocks s _ _
  · split
    · split
      · exact .of_accesses (loadVerified_accesses s _ _ _)
      · exact (State.Clocks.of_accesses (loadVerified_accesses s _ _ _)).trans (.of_parts rfl rfl rfl)
    · exact (State.Clocks.of_accesses (loadAt_accesses s _ _ _ _ _)).trans (.of_parts rfl rfl rfl)

theorem raiseVersion_clocks (s : State) (w : Who) (scope : Nat) : s.Clocks (s.raiseVersion w scope) := by
  have hland : s.Clocks (s.landFills w) := by
    refine State.Clocks.fold (fun s _ => State.Clocks.fold (fun s _ => State.Clocks.fold (fun s _ => ?_) _ s) _ s) _ s
    split
    · split
      · exact readElem_clocks s _ _ _ _ _ _
      · exact .refl s
    · exact .refl s
  have hbump : ∀ u : State, u.Clocks (u.bumpVersion w scope) := fun u => by
    unfold State.bumpVersion
    dsimp only
    split <;> exact .of_parts rfl rfl rfl
  unfold State.raiseVersion
  split
  · exact .refl s
  · refine State.Clocks.trans ?_ (hbump _)
    split
    · exact hland
    · exact .refl s

theorem popRecs_clocks (s : State) (gidx qid n : Nat) : s.Clocks (s.popRecs gidx qid n).2 := by
  unfold State.popRecs
  split
  · dsimp only
    refine State.Clocks.trans ?_ (State.Clocks.trans (.of_accesses (ringEntries_accesses _ _ _ _ _)) (.of_parts rfl rfl rfl))
    split
    · exact .refl s
    · exact .of_accesses (readShelf_accesses _ _ _ _)
  · exact .refl s

theorem holdRecs_clocks (s : State) (blk qid : Nat) (rs : List Rec) : s.Clocks (s.holdRecs blk qid rs) := by
  unfold State.holdRecs
  split
  · exact .of_parts rfl rfl rfl
  · exact .refl s

theorem correct_clocks (s : State) (core gidx key : Nat) (db df : Int) : s.Clocks (s.correct core gidx key db df) := by
  unfold State.correct State.correctAt
  split <;> exact .of_parts rfl rfl rfl

theorem popInto_clocks (s : State) (uid gidx qid : Nat) (act : Mask) (d m : Nat) : s.Clocks (s.popInto uid gidx qid act d m) := by
  unfold State.popInto
  split
  · dsimp only
    refine State.Clocks.trans ?_ (mapGroups_clocks _ _ _)
    have h := fun b q rs => (popRecs_clocks s gidx qid (popcount act)).trans (holdRecs_clocks _ b q rs)
    split
    · exact (((h _ _ _).trans (correct_clocks _ _ _ _ _ _)).trans (raiseVersion_clocks _ _ _)).trans (raiseVersion_clocks _ _ _)
    · exact ((h _ _ _).trans (correct_clocks _ _ _ _ _ _)).trans (raiseVersion_clocks _ _ _)
  · exact .refl s

/-- One waiting pop is served. -/
theorem serveOne_clocks (s : State) (u : Nat) (w : Option Wait) : s.Clocks (match w with
    | some (.pop g k act d m) => (s.popInto u g k act d m).completeWait u
    | _ => s) := by
  split
  · exact (popInto_clocks _ _ _ _ _ _ _).trans (completeWait_clocks _ _)
  · exact .refl s

theorem served_clocks (s : State) (gidx qid : Nat) : s.Clocks (s.served gidx qid) := by
  have hpops : ∀ (n : Nat) (s : State), s.Clocks (State.servePops n gidx qid s) := by
    intro n
    induction n with
    | zero => exact .refl
    | succ n ih =>
      intro s
      unfold State.servePops
      cases s.queue? gidx qid with
      | none => exact .refl s
      | some q =>
        cases s.queueEnt gidx qid with
        | none => exact .refl s
        | some e =>
          dsimp only
          cases q.popWait with
          | nil => exact .refl s
          | cons u rest =>
            dsimp only
            split
            · exact .refl s
            · exact State.Clocks.trans (t := s.putQueue { q with popWait := rest }) (.of_parts rfl rfl rfl) ((serveOne_clocks _ u _).trans (ih _))
  exact hpops _ s

/-! ### The close of a window -/

theorem putQueue_clocks (s : State) (q : Queue) : s.Clocks (s.putQueue q) := .of_parts rfl rfl rfl

theorem ringStore_clocks (s : State) (p a : Nat) (bs : List Byte) : s.Clocks (s.ringStore p a bs) := .of_accesses (ringStore_accesses s p a bs)

theorem postDocket_clocks (s : State) (pn : Nat) (d : List Byte) : s.Clocks (s.postDocket pn d) := .of_enters (postDocket_enters s pn d)

theorem ringBell_clocks (s : State) (pn gidx qid : Nat) (x : W64) : s.Clocks (s.ringBell pn gidx qid x) := by
  unfold State.ringBell
  split
  · unfold State.eventRingIndex
    dsimp only
    have hset : s.Clocks (s.setPart pn { s.part pn with evr := x }) := setPart_clocks s pn ⟨rfl, rfl, id⟩
    have hhalt : ∀ u : State, u.Clocks (u.setPart pn { u.part pn with evhalt := true }) := fun u => setPart_clocks u pn ⟨rfl, rfl, id⟩
    split
    · exact .refl s
    · split
      · exact (hset.trans (.of_enters (evDrain_enters _ _ pn))).trans (wakes_clocks _ _)
      · exact (((hset.trans (hhalt _)).trans (ringStore_clocks _ _ _ _)).trans (postDocket_clocks _ _ _)).trans (wakes_clocks _ _)
  · have hcheck : ∀ u : State, u.Clocks (u.ringCheck gidx qid) := fun u => by
      unfold State.ringCheck
      split
      · split
        · exact .refl u
        · split
          · exact .refl u
          · exact ((putQueue_clocks u _).trans (ringStore_clocks _ _ _ _)).trans (postDocket_clocks _ _ _)
      · exact .refl u
    unfold State.ringIndex
    split
    · split
      · exact .refl s
      · exact ((putQueue_clocks s _).trans (hcheck _)).trans (served_clocks _ _ _)
    · exact .refl s

theorem setRemote_clocks (s : State) (peer rqid b f : Nat) : s.Clocks (s.setRemote peer rqid b f) := by
  unfold State.setRemote
  refine State.Clocks.fold (fun s gr => ?_) _ s
  refine State.Clocks.fold (fun s e => ?_) _ s
  exact onQueue_clocks s gr.gidx e.qid _

theorem applyMsg_clocks (s : State) (m : Msg) : s.Clocks (s.applyMsg m) := by
  unfold State.applyMsg
  split
  · split
    · exact .of_parts rfl rfl rfl
    · exact .refl s
  · split
    · exact .of_parts rfl rfl rfl
    · exact .refl s
  · exact .of_parts rfl rfl rfl
  · split
    · exact .refl s
    · dsimp only
      have hfold : ∀ (f : State → Nat → List (Nat × Nat)) (p : Nat) (cs : List Nat) (u : State), u.Clocks (cs.foldl (fun s c => (f s c).foldl (fun s e => (s.announce p c e.1 (e.1 + 1) []).2) s) u) := fun f p cs u => by
        refine State.Clocks.fold (fun s c => ?_) cs u
        refine State.Clocks.fold (fun s e => ?_) _ s
        exact .of_parts rfl rfl rfl
      refine State.Clocks.trans ?_ (hfold _ _ _ _)
      exact .of_parts rfl rfl rfl
  · exact .of_parts rfl rfl rfl
  · exact .of_parts rfl rfl rfl
  · exact ringBell_clocks s _ _ _ _
  · exact setRemote_clocks s _ _ _ _

theorem settleResuming_clocks (s : State) : s.Clocks s.settleResuming :=
  mapParts_clocks (f := fun x => { x with resuming := x.resuming.filter fun u => (s.group? u).any fun h => h.st == .preempted }) (fun x => ⟨rfl, rfl, fun h => by dsimp only; rw [h]; rfl⟩) rfl rfl rfl

theorem fireWatchdog_clocks (s : State) (part ctx : Nat) : s.Clocks (s.fireWatchdog part ctx) := by
  have hone : ∀ (s : State) (h : Group) (r : FaultRec), s.Clocks (if h.st = .launching then s
      else if h.st = .parked ∨ h.st = .preempted then (s.withdraw h.uid).mapGroups (fun y => y.uid == h.uid && h.left != .launching) fun y => { y with left := y.awake, pendFaults := insertFault (0, r) y.pendFaults }
      else s.takeAsync h.uid r) := fun s h r => by
    split
    · exact .refl s
    · split
      · exact (withdraw_clocks s _).trans (mapGroups_clocks _ _ _)
      · exact takeAsync_clocks s _ _
  unfold State.fireWatchdog
  dsimp only
  refine State.Clocks.trans ?_ (docket_clocks _ _ _ _ _ _ _)
  refine State.Clocks.trans ?_ (State.Clocks.fold (fun s h => ?_) _ _)
  · exact State.Clocks.trans (t := s.setCtx part ctx { s.ctx part ctx with wdogCnt := 0 }) (.of_parts rfl rfl rfl) (State.Clocks.fold (fun s (h : Group) => withdraw_clocks s h.uid) _ _)
  · simpa only [Bool.or_eq_true, decide_eq_true_eq] using hone s h _

theorem watchdogs_clocks (s : State) (keys : List Nat) : s.Clocks (s.watchdogs keys) := by
  unfold State.watchdogs
  dsimp only
  have hwatch : s.Clocks (keys.foldl State.watch s) := by
    refine State.Clocks.fold (fun s k => ?_) keys s
    exact .of_parts rfl rfl rfl
  refine hwatch.trans ?_
  refine State.Clocks.fold (fun s k => ?_) keys _
  split
  · exact fireWatchdog_clocks s _ _
  · exact .refl s

theorem serveQuota_clocks (n p c : Nat) (s : State) : s.Clocks (State.serveQuota n p c s) := by
  induction n generalizing s with
  | zero => exact .refl s
  | succ n ih =>
    have hadd : ∀ (u : State) (gidx stage range l : Nat), u.Clocks (u.addInstance gidx stage range l none) := fun u gidx stage range l => by
      unfold State.addInstance
      split <;> exact .of_parts rfl rfl rfl
    unfold State.serveQuota
    split
    · next gidx stage range l rest _ =>
      cases ht : s.takeQuota p c ((range + 2 ^ l - 1) / 2 ^ l) with
      | none => exact .refl s
      | some u =>
        have hu : s.Clocks u := by
          unfold State.takeQuota at ht
          dsimp only at ht
          split at ht
          · cases ht
          · cases ht
            exact .of_parts rfl rfl rfl
        have hset : u.Clocks (u.setCtx p c { u.ctx p c with quotaWait := rest }) := .of_parts rfl rfl rfl
        exact hu.trans ((hset.trans (hadd _ gidx stage range l)).trans (ih _))
    · exact .refl s

theorem applySettings_clocks (s : State) (key : Nat) : s.Clocks (s.applySettings key) := by
  have hctx : ∀ (c : Context) (n p x : Nat), s.Clocks (State.serveQuota n p x { s with tabs := { s.tabs with ctxs := tput s.tabs.ctxs key c } }) := fun c n p x =>
    State.Clocks.trans (t := { s with tabs := { s.tabs with ctxs := tput s.tabs.ctxs key c } }) (.of_parts rfl rfl rfl) (serveQuota_clocks n p x _)
  exact hctx _ _ _ _

theorem cleanTile_clocks (s : State) (tile : Nat) : s.Clocks (s.cleanTile tile) := by
  unfold State.cleanTile
  split
  · exact .of_accesses (.of_lines (writeback_lines s tile))
  · exact .refl s

theorem takeWays_clocks (s : State) (part : Nat) : s.Clocks (s.takeWays part) := by
  unfold State.takeWays
  split
  · exact .refl s
  · dsimp only
    have hset : ∀ (u : State) (w : BitVec 16) (r : BitVec 4), u.Clocks (u.setPart part { u.part part with l2ways := w, resq := r, waysSet := none }) := fun u w r => setPart_clocks u part ⟨rfl, rfl, id⟩
    have hl2 : ∀ (u : State) (l : Tbl L2Line), u.Clocks { u with mem := { u.mem with l2 := l } } := fun u l => .of_parts rfl rfl rfl
    exact ((State.Clocks.fold cleanTile_clocks _ s).trans (hl2 _ _)).trans (hset _ _ _)

theorem refill_clocks (s : State) (key : Nat) : s.Clocks (s.refill key) := by
  unfold State.refill
  dsimp only
  split
  · exact .of_parts rfl rfl rfl
  · split
    · exact .of_parts rfl rfl rfl
    · have hfold : ∀ (d r : Nat) (l : List (Nat × Nat)) (u : State), u.Clocks (l.foldl (fun s b => s.setBucket b.1 key (min d (b.2 + r))) u) := fun d r l u => by
        refine State.Clocks.fold (fun s b => ?_) l u
        exact .of_parts rfl rfl rfl
      refine State.Clocks.trans ?_ (hfold _ _ _ _)
      exact .of_parts rfl rfl rfl

theorem takeToken_clocks {s u : State} {slice p c : Nat} (h : s.takeToken slice p c = some u) : s.Clocks u := by
  unfold State.takeToken at h
  dsimp only at h
  split at h
  · cases h
    exact .refl s
  · split at h
    · cases h
      exact .of_parts rfl rfl rfl
    · obtain ⟨k, -, rfl⟩ := Option.map_eq_some_iff.mp h
      exact .of_parts rfl rfl rfl

theorem serveMetered_clocks (ms kept : List (Nat × Nat × Nat)) (s : State) : s.Clocks (State.serveMetered ms kept s).2 := by
  induction ms generalizing kept s with
  | nil => exact .refl s
  | cons m ms ih =>
    unfold State.serveMetered
    split
    · exact ih _ s
    · split
      · next u hu => exact (takeToken_clocks hu).trans (ih _ u)
      · exact ih _ s

/-- The clocks of the partitions have moved by a window. -/
theorem tick_time (x : Partition) (h : x.resuming = []) : x.tick.time = if x.st = .active then BitVec.ofNat 64 (min (x.time.toNat + Config.windowNs) (2 ^ 64 - 1)) else x.time := by
  have hkey : ∀ y : Partition, y.resuming = [] → (if !y.stands then { y with time := BitVec.ofNat 64 (min (y.time.toNat + Config.windowNs) (2 ^ 64 - 1)) } else y).time =
      if y.st = .active then BitVec.ofNat 64 (min (y.time.toNat + Config.windowNs) (2 ^ 64 - 1)) else y.time := fun y hy => by
    by_cases hs : y.st = .active
    · rw [if_pos hs, if_pos (by simp [Partition.stands, hs, hy])]
    · rw [if_neg hs, if_neg (by simp [Partition.stands, hs])]
  unfold Partition.tick
  split
  · exact hkey { x with lend := _, lendSet := none } h
  · exact hkey x h

end Sys2Proof.Machine
end

section
/-! SUPPORT for O54: the close of a window. -/

namespace Sys2Proof.Machine

open Sys2Proof

theorem closeWakes_clocks (s : State) : s.Clocks s.closeWakes := by
  unfold State.closeWakes
  refine State.Clocks.fold (fun s h => ?_) _ s
  split
  · split
    · exact completeWait_clocks s _
    · exact .refl s
  · exact wake_clocks s _
  · exact .refl s

theorem evaluateAll_clocks (s : State) : s.Clocks s.evaluateAll := by
  have hone : ∀ (u : State) (core slot : Nat), u.Clocks (u.evaluate core slot) := fun u core slot => by
    unfold State.evaluate
    dsimp only
    split
    · exact .refl u
    · split
      · exact .of_parts rfl rfl rfl
      · exact .refl u
  have hturn : ∀ (core n : Nat) (u : State), u.Clocks (State.evalTurn core n u) := fun core n => by
    induction n with
    | zero => exact .refl
    | succ n ih =>
      intro u
      have hwait : ∀ l, u.Clocks { u with work := { u.work with evalWait := l } } := fun l => .of_parts rfl rfl rfl
      unfold State.evalTurn
      split
      · exact .refl u
      · split
        · exact ((hwait _).trans (hone _ core _)).trans (ih _)
        · exact .refl u
  unfold State.evaluateAll
  dsimp only
  split
  · exact .refl s
  · have hslots : ∀ es, s.Clocks (s.evalSlots es) := fun es => by
      have hwait : s.Clocks { s with work := { s.work with evalWait := s.work.evalWait ++ es.filter fun e => !s.work.evalWait.contains e } } := .of_parts rfl rfl rfl
      refine hwait.trans ?_
      unfold State.evalSlots
      dsimp only
      refine State.Clocks.fold (fun s c => ?_) _ _
      exact hturn c _ s
    exact hslots _

/-- The tables of partitions and contexts at the close of a window: the windows and points stand, and every clock has moved. -/
theorem closeTables_clocks (s : State) : (s.closeTables.sched.window, s.closeTables.sched.closed, s.closeTables.sched.cycle) = (s.sched.window, s.sched.closed, s.sched.cycle) ∧
    (s.closeTables.plat.overBudget, s.closeTables.plat.clusters) = (s.plat.overBudget, s.plat.clusters) ∧
    ∀ p, (s.part p).resuming = [] → (s.closeTables.part p).time = if (s.part p).st = .active then BitVec.ofNat 64 (min ((s.part p).time.toNat + Config.windowNs) (2 ^ 64 - 1)) else (s.part p).time := by
  generalize hkeys : s.tabs.ctxs.map Prod.fst = keys
  have hdogs := (settleResuming_clocks s).trans (watchdogs_clocks s.settleResuming keys)
  generalize hu : s.settleResuming.watchdogs keys = u at hdogs
  have htick : ∀ p, (u.part p).resuming = [] → (tget ({} : Partition) (u.tabs.parts.map fun e => (e.1, e.2.tick)) p).time =
      if (u.part p).st = .active then BitVec.ofNat 64 (min ((u.part p).time.toNat + Config.windowNs) (2 ^ 64 - 1)) else (u.part p).time := fun p =>
    tget_map (R := fun (x y : Partition) => x.resuming = [] → y.time = if x.st = .active then BitVec.ofNat 64 (min (x.time.toNat + Config.windowNs) (2 ^ 64 - 1)) else x.time) _ (fun _ => rfl) tick_time _ p
  generalize hv : ({ u with tabs := { u.tabs with parts := u.tabs.parts.map fun (e : Nat × Partition) => (e.1, e.2.tick) } } : State) = v
  have hrest : v.Clocks s.closeTables := by
    unfold State.closeTables
    dsimp only
    rw [hkeys, hu, hv]
    generalize hw : keys.foldl State.refill _ = w
    have h : v.Clocks w := by
      rw [← hw]
      exact ((State.Clocks.fold applySettings_clocks keys v).trans (State.Clocks.fold takeWays_clocks _ _)).trans (State.Clocks.fold refill_clocks keys _)
    exact (h.trans (serveMetered_clocks _ _ w)).trans (.of_parts rfl rfl rfl)
  refine ⟨?_, ?_, fun p hp => ?_⟩
  · rw [hrest.sched, ← hv]
    exact hdogs.sched
  · rw [hrest.plat, ← hv]
    exact hdogs.plat
  · obtain ⟨hst, htime, hres⟩ := hdogs.parts p
    obtain ⟨-, ht, -⟩ := hrest.parts p
    rw [ht, ← hst, ← htime, ← hv]
    exact htick p (hres hp)

/-! ### Power (R411) -/

theorem setPoint_point (s : State) (c n cl : Nat) : ((s.setPoint c n).cluster cl).point = if c = cl then n else (s.cluster cl).point := by
  show (tget ({} : Cluster) (tset {} s.plat.clusters c { s.cluster c with point := n }) cl).point = _
  rw [tget_tset]
  split <;> rfl

/-- Clusters that shed power go down by one point at most, those of the list alone. -/
theorem shedPower_points (cls : List Nat) (h : cls.Nodup) (s : State) :
    (∀ cl, ((s.shedPower cls).cluster cl).point = (s.cluster cl).point ∨ cl ∈ cls ∧ ((s.shedPower cls).cluster cl).point + 1 = (s.cluster cl).point) ∧
    ((s.shedPower cls).sched.window, (s.shedPower cls).sched.closed, (s.shedPower cls).sched.cycle) = (s.sched.window, s.sched.closed, s.sched.cycle) ∧ (s.shedPower cls).tabs = s.tabs := by
  induction cls generalizing s with
  | nil => exact ⟨fun _ => .inl rfl, rfl, rfl⟩
  | cons c cls ih =>
    obtain ⟨hc, hcls⟩ := List.nodup_cons.mp h
    unfold State.shedPower
    split
    · obtain ⟨h1, h2⟩ := ih hcls s
      exact ⟨fun cl => (h1 cl).imp_right fun x => ⟨List.mem_cons_of_mem c x.1, x.2⟩, h2⟩
    · next hp =>
      dsimp only
      generalize hx : ((s.setPoint c ((s.cluster c).point - 1)).freeValue).2 = x
      have hpoint : ∀ cl, (x.cluster cl).point = if c = cl then (s.cluster c).point - 1 else (s.cluster cl).point := fun cl => by
        rw [← hx]
        exact setPoint_point s c _ cl
      have hrest : (x.sched.window, x.sched.closed, x.sched.cycle) = (s.sched.window, s.sched.closed, s.sched.cycle) ∧ x.tabs = s.tabs := by
        rw [← hx]
        exact ⟨rfl, rfl⟩
      have hone : ∀ cl, (x.cluster cl).point = (s.cluster cl).point ∨ cl = c ∧ (x.cluster cl).point + 1 = (s.cluster cl).point := fun cl => by
        rw [hpoint]
        split
        · next e => exact .inr ⟨e.symm, by rw [← e]; omega⟩
        · exact .inl rfl
      split
      · exact ⟨fun cl => (hone cl).imp_right fun y => ⟨by rw [y.1]; exact List.mem_cons_self, y.2⟩, hrest.1, hrest.2⟩
      · obtain ⟨h1, h2, h3⟩ := ih hcls x
        refine ⟨fun cl => ?_, h2.trans hrest.1, h3.trans hrest.2⟩
        rcases h1 cl with h1 | ⟨hmem, h1⟩
        · rw [h1]
          exact (hone cl).imp_right fun y => ⟨by rw [y.1]; exact List.mem_cons_self, y.2⟩
        · have hne : c ≠ cl := fun e => hc (e ▸ hmem)
          rw [hpoint, if_neg hne] at h1
          exact .inr ⟨List.mem_cons_of_mem c hmem, h1⟩

/-! ### The stages of a close -/

/-- From the messages that are due on. -/
def State.closing (u : State) (due : List Msg) (high : Bool) : State :=
  let v := (due.foldl State.applyMsg u).closeTables.closeWakes
  (if high then v.shedPower (List.range 16).reverse else v).evaluateAll

/-- A close begins from a state that differs in nothing but the window, its messages and marks. -/
theorem windowClose_begins {through : Nat} {high : Bool} {s : State} (hst : s.plat.stuck = false) : ∃ (u : State) (due : List Msg), exec (.summaryWindowClose through high) s = answer (u.closing due high) ∧
    (u.sched.window, u.sched.closed, u.sched.cycle) = (s.sched.window + 1, max s.sched.closed (min (s.sched.window + 1) (max (through + 1) (s.sched.window - 1))), 0) ∧
    (u.plat.overBudget, u.plat.clusters) = (high, s.plat.clusters) ∧ (u.g, u.groups, u.mem, u.tabs, u.units) = (s.g, s.groups, s.mem, s.tabs, s.units) ∧
    (s.work.msgs = [] → s.work.queues = [] → s.work.ranges = [] → due = []) := by
  have hdecay : (s.decayed.g, s.decayed.groups, s.decayed.mem, s.decayed.tabs, s.decayed.units) = (s.g, s.groups, s.mem, s.tabs, s.units) ∧ s.decayed.plat.clusters = s.plat.clusters := by
    unfold State.decayed
    dsimp only
    split <;> exact ⟨rfl, rfl⟩
  show ∃ (u : State) (due : List Msg), execSummaryWindowClose through high s = answer (u.closing due high) ∧ _
  unfold execSummaryWindowClose
  dsimp only
  rw [if_neg (by rw [hst]; simp)]
  refine ⟨_, _, rfl, ?_, ?_, ?_, fun hm hq hr => ?_⟩
  · split <;> rfl
  · split <;> exact congrArg (Prod.mk high) hdecay.2
  · split <;> exact hdecay.1
  · rw [hm]
    unfold State.homeMsgs
    rw [hq, hr]
    rfl

/-- What a close leaves of windows, points and clocks. -/
theorem closing_clocks (u : State) (due : List Msg) (high : Bool) :
    ((u.closing due high).sched.window, (u.closing due high).sched.closed, (u.closing due high).sched.cycle) = (u.sched.window, u.sched.closed, u.sched.cycle) ∧
    (high = false → (u.closing due high).plat.overBudget = u.plat.overBudget) ∧
    (∀ cl, ((u.closing due high).cluster cl).point = (u.cluster cl).point ∨ high = true ∧ ((u.closing due high).cluster cl).point + 1 = (u.cluster cl).point) ∧
    ∀ p, (u.part p).resuming = [] → ((u.closing due high).part p).time = if (u.part p).st = .active then BitVec.ofNat 64 (min ((u.part p).time.toNat + Config.windowNs) (2 ^ 64 - 1)) else (u.part p).time := by
  have happly := State.Clocks.fold applyMsg_clocks due u
  unfold State.closing
  dsimp only
  generalize due.foldl State.applyMsg u = a at happly
  obtain ⟨hs, hp, ht⟩ := closeTables_clocks a
  have hwakes := closeWakes_clocks a.closeTables
  generalize a.closeTables.closeWakes = v at hwakes
  have hvs := (hwakes.sched.trans hs).trans happly.sched
  have hvp := (hwakes.plat.trans hp).trans happly.plat
  have hvt : ∀ p, (u.part p).resuming = [] → (v.part p).time = if (u.part p).st = .active then BitVec.ofNat 64 (min ((u.part p).time.toNat + Config.windowNs) (2 ^ 64 - 1)) else (u.part p).time := fun p hr => by
    obtain ⟨hst, htime, hres⟩ := happly.parts p
    rw [(hwakes.parts p).2.1, ht p (hres hr), hst, htime]
  have hcl : ∀ cl, v.cluster cl = u.cluster cl := fun cl => congrArg (fun c => tget ({} : Cluster) c cl) (Prod.mk.inj hvp).2
  cases high with
  | false =>
    have hev := evaluateAll_clocks v
    refine ⟨hev.sched.trans hvs, fun _ => (Prod.mk.inj (hev.plat.trans hvp)).1, fun cl => .inl ?_, fun p hr => (hev.parts p).2.1.trans (hvt p hr)⟩
    rw [← hcl cl]
    exact congrArg (fun c => (tget ({} : Cluster) c cl).point) (Prod.mk.inj hev.plat).2
  | true =>
    obtain ⟨h1, h2, h3⟩ := shedPower_points (List.range 16).reverse (by decide) v
    have hev := evaluateAll_clocks (v.shedPower (List.range 16).reverse)
    refine ⟨(hev.sched.trans h2).trans hvs, nofun, fun cl => ?_, fun p hr => ?_⟩
    · have hpt : (((v.shedPower (List.range 16).reverse).evaluateAll).cluster cl).point = ((v.shedPower (List.range 16).reverse).cluster cl).point := congrArg (fun c => (tget ({} : Cluster) c cl).point) (Prod.mk.inj hev.plat).2
      rw [← hcl cl]
      exact (h1 cl).imp (fun h => hpt.trans h) fun h => ⟨rfl, (congrArg (· + 1) hpt).trans h.2⟩
    · refine (hev.parts p).2.1.trans (Eq.trans ?_ (hvt p hr))
      unfold State.part
      rw [h3]

theorem takeWays_same (s : State) (part : Nat) : s.SameBytes (s.takeWays part) := by
  unfold State.takeWays
  split
  · exact SameBytes.refl s
  · have hfold : ∀ (l : List Nat) (t : State), t.SameBytes (l.foldl State.cleanTile t) := fun l => by
      induction l with
      | nil => exact SameBytes.refl
      | cons i l ih => exact fun t => SameBytes.trans (cleanTile_same t i) (ih _)
    have hl2 : ∀ (u : State) (l : Tbl L2Line) (x : Partition), u.SameBytes (State.setPart { u with mem := { u.mem with l2 := l } } part x) := fun u l x => ⟨rfl, rfl, rfl, rfl, rfl, rfl⟩
    exact SameBytes.trans (hfold _ s) (hl2 _ _ _)

theorem takeWays_rest (s : State) (part : Nat) : ((s.takeWays part).g, (s.takeWays part).groups, (s.takeWays part).tabs.graphs, (s.takeWays part).units) = (s.g, s.groups, s.tabs.graphs, s.units) := by
  have hclean : ∀ (t : State) (i : Nat), t.Backs (t.cleanTile i) := fun t i => by
    unfold State.cleanTile
    split
    · exact writeback_backs t i
    · exact .refl t
  have hfold : ∀ (l : List Nat) (t : State), t.Backs (l.foldl State.cleanTile t) := fun l => by
    induction l with
    | nil => exact .refl
    | cons i l ih => exact fun t => (hclean t i).trans (ih _)
  unfold State.takeWays
  split
  · rfl
  · dsimp only
    generalize hx : List.foldl State.cleanTile s _ = x
    have h : s.Backs x := hx ▸ hfold _ s
    show (x.g, x.groups, x.tabs.graphs, x.units) = _
    rw [h.g, h.groups, h.units, h.tabs]

theorem evaluateAll_idle {s : State} (h : s.tabs.graphs = []) : s.evaluateAll = s := by
  unfold State.evaluateAll
  dsimp only
  rw [if_pos (by rw [h]; rfl)]

/-- A close on a machine without work changes no byte. -/
theorem closing_idle {u : State} (hg : u.tabs.graphs = []) (hc : u.tabs.ctxs = []) (hm : u.units.metered = []) (hgs : u.groups = []) (hfree : u.g.st = .free) : u.SameBytes (u.closing [] false) := by
  have hways : ∀ (l : List Nat) (t : State), t.SameBytes (l.foldl State.takeWays t) ∧
      ((l.foldl State.takeWays t).g, (l.foldl State.takeWays t).groups, (l.foldl State.takeWays t).tabs.graphs, (l.foldl State.takeWays t).units) = (t.g, t.groups, t.tabs.graphs, t.units) := fun l => by
    induction l with
    | nil => exact fun t => ⟨SameBytes.refl t, rfl⟩
    | cons i l ih => exact fun t => ⟨SameBytes.trans (takeWays_same t i) (ih _).1, (ih _).2.trans (takeWays_rest t i)⟩
  obtain ⟨w, l, hw, heq⟩ : ∃ (w : State) (l : List Nat), (w.mem, w.g, w.groups, w.tabs.graphs, w.units) = (u.mem, u.g, u.groups, u.tabs.graphs, u.units) ∧
      u.closeTables = (let x := l.foldl State.takeWays w; let m := State.serveMetered x.units.metered [] x; { m.2 with units := { m.2.units with metered := m.1 } }) := by
    unfold State.closeTables
    dsimp only
    rw [hc]
    exact ⟨_, _, by rfl, rfl⟩
  obtain ⟨hbytes, hrest⟩ := hways l w
  generalize l.foldl State.takeWays w = x at hbytes hrest heq
  simp only [Prod.mk.injEq] at hw hrest
  obtain ⟨hwm, hwg, hwgs, hwgr, hwu⟩ := hw
  obtain ⟨hxg, hxgs, hxgr, hxu⟩ := hrest
  have htables : u.closeTables = { x with units := { x.units with metered := [] } } := by
    have hxm : x.units.metered = [] := by rw [hxu, hwu, hm]
    rw [heq]
    dsimp only
    rw [hxm]
    rfl
  have hclosing : u.closing [] false = { x with units := { x.units with metered := [] } } := by
    unfold State.closing
    rw [List.foldl_nil, htables]
    have hall : ({ x with units := { x.units with metered := [] } } : State).allGroups = [] := by
      unfold State.allGroups
      rw [show x.g = u.g from hxg.trans hwg, if_pos hfree]
      exact hxgs.trans (hwgs.trans hgs)
    have hwakes : ({ x with units := { x.units with metered := [] } } : State).closeWakes = { x with units := { x.units with metered := [] } } := by
      unfold State.closeWakes
      rw [hall]
      rfl
    rw [hwakes]
    exact evaluateAll_idle (s := { x with units := { x.units with metered := [] } }) (hxgr.trans (hwgr.trans hg))
  rw [hclosing]
  exact SameBytes.trans (SameBytes.trans (SameBytes.of_mem (s := u) (t := w) hwm) hbytes) (SameBytes.of_mem rfl)

/-! ### The settled windows -/

theorem answer_inv {s t : State} (h : answer s = .next t) : t = s := by
  unfold answer at h
  split at h
  · cases h
  · cases h
    rfl

theorem window_closes {through : Nat} {high : Bool} {s t : State} (hst : s.plat.stuck = false) (h : exec (.summaryWindowClose through high) s = .next t) :
    t.sched.window = s.sched.window + 1 ∧ t.sched.closed = max s.sched.closed (min (s.sched.window + 1) (max (through + 1) (s.sched.window - 1))) ∧ t.sched.cycle = 0 ∧ (high = false → t.plat.overBudget = false) ∧
    (∀ cl, (t.cluster cl).point = (s.cluster cl).point ∨ high = true ∧ (t.cluster cl).point + 1 = (s.cluster cl).point) ∧
    ∀ p, (s.part p).resuming = [] → (t.part p).time = if (s.part p).st = .active then BitVec.ofNat 64 (min ((s.part p).time.toNat + Config.windowNs) (2 ^ 64 - 1)) else (s.part p).time := by
  obtain ⟨u, due, he, hs, hp, hu, -⟩ := windowClose_begins (through := through) (high := high) hst
  rw [he] at h
  obtain ⟨h1, h2, h3, h4⟩ := closing_clocks u due high
  rw [← answer_inv h] at h1 h2 h3 h4
  rw [hs] at h1
  simp only [Prod.mk.injEq] at h1 hp hu
  have hcl : ∀ cl, u.cluster cl = s.cluster cl := fun cl => congrArg (fun c => tget ({} : Cluster) c cl) hp.2
  have hpart : ∀ p, u.part p = s.part p := fun p => congrArg (fun x => tget ({} : Partition) (TableState.parts x) p) hu.2.2.2.1
  refine ⟨h1.1, h1.2.1, h1.2.2, fun hh => (h2 hh).trans (hp.1.trans hh), fun cl => ?_, fun p hr => ?_⟩
  · rw [← hcl]
    exact h3 cl
  · rw [← hpart] at hr ⊢
    exact h4 p hr

theorem window_idle {through : Nat} {s : State} (hm : s.work.msgs = []) (hq : s.work.queues = []) (hr : s.work.ranges = []) (hg : s.tabs.graphs = []) (hc : s.tabs.ctxs = []) (hmet : s.units.metered = [])
    (hgs : s.groups = []) (hfree : s.g.st = .free) (hbad : s.mem.bad = none) : ∃ t, exec (.summaryWindowClose through false) s = .next t ∧ s.SameMemory t := by
  by_cases hst : s.plat.stuck = true
  · refine ⟨s, ?_, fun l _ => rfl⟩
    show execSummaryWindowClose through false s = _
    unfold execSummaryWindowClose
    rw [if_pos hst]
    exact answer_of hbad
  · obtain ⟨u, due, he, -, -, hu, hdue⟩ := windowClose_begins (through := through) (high := false) (by simpa using hst)
    simp only [Prod.mk.injEq] at hu
    obtain ⟨hug, hugs, hum, hut, huu⟩ := hu
    rw [hdue hm hq hr] at he
    have hsame : s.SameBytes (u.closing [] false) := SameBytes.trans (SameBytes.of_mem hum) (closing_idle (by rw [hut]; exact hg) (by rw [hut]; exact hc) (by rw [huu]; exact hmet) (by rw [hugs]; exact hgs) (by rw [hug]; exact hfree))
    exact ⟨_, he.trans (answer_of (hsame.bad.trans hbad)), fun l hl => SameBytes.peek hsame l 1 hl⟩

end Sys2Proof.Machine
end

section
/-! The settlement of O54: selection, stalls, metered requests, watchdogs and summaries of peers. -/

namespace Sys2Proof.Machine

open Sys2Proof

/-! ### Selection (R18, R19) -/

/-- A fold that keeps a best candidate ends with one of the list, or with the one it began with. -/
theorem best_found {α : Type} {f : Option α → α → Option α} (hf : ∀ b a, f b a = some a ∨ f b a = b ∧ b.isSome = true) (l : List α) (best : Option α) (h : l ≠ [] ∨ best.isSome = true) :
    ∃ a, l.foldl f best = some a ∧ (a ∈ l ∨ best = some a) := by
  induction l generalizing best with
  | nil =>
    obtain ⟨a, ha⟩ := Option.isSome_iff_exists.mp (h.resolve_left (by simp))
    exact ⟨a, ha, .inr ha⟩
  | cons x l ih =>
    rw [List.foldl_cons]
    rcases hf best x with hx | ⟨hx, hs⟩ <;> rw [hx]
    · obtain ⟨a, ha, hm⟩ := ih (some x) (.inr rfl)
      refine ⟨a, ha, .inl ?_⟩
      rcases hm with hm | hm
      · exact List.mem_cons_of_mem x hm
      · rw [Option.some.inj hm]
        exact List.mem_cons_self
    · obtain ⟨a, ha, hm⟩ := ih best (.inr hs)
      exact ⟨a, ha, hm.imp (List.mem_cons_of_mem x) id⟩

theorem oldestGroup_found {gs : List Group} (h : gs ≠ []) : ∃ g ∈ gs, oldestGroup gs = some g := by
  obtain ⟨g, hg, hm⟩ := best_found (f := fun (best : Option Group) h => match best with
    | none => some h
    | some b => if b.gage < h.gage || (h.gage == b.gage && h.slot < b.slot) then some h else some b) (fun b a => by
      cases b with
      | none => exact .inl rfl
      | some b =>
        dsimp only
        split
        · exact .inl rfl
        · exact .inr ⟨rfl, rfl⟩) gs none (.inl h)
  exact ⟨g, hm.resolve_right nofun, hg⟩

/-- Of two contexts the one with the greater deficit counter, ties to the lower number. -/
def heavier (d : Tbl Int) (best : Option Nat) (k : Nat) : Option Nat :=
  match best with
  | none => some k
  | some b => if tget 0 d b < tget 0 d k || (tget 0 d k == tget 0 d b && k < b) then some k else some b

theorem heavier_keeps (d : Tbl Int) (b : Option Nat) (k : Nat) : heavier d b k = some k ∨ heavier d b k = b ∧ b.isSome = true := by
  cases b with
  | none => exact .inl rfl
  | some b =>
    unfold heavier
    dsimp only
    split
    · exact .inl rfl
    · exact .inr ⟨rfl, rfl⟩

theorem chooseCtx_none (s : State) (quad : Nat) : s.chooseCtx quad [] = (none, s) := rfl

theorem chooseCtx_found (s : State) (quad : Nat) {es : List Nat} (h : es ≠ []) : ∃ x ∈ es, ∃ us, s.chooseCtx quad es = (some x, { s with units := us }) := by
  unfold State.chooseCtx
  dsimp only
  generalize List.foldl _ (s.quad quad).def_ es = d
  obtain ⟨x, hx, hm⟩ := best_found (heavier_keeps d) es none (.inl h)
  generalize ho : List.foldl _ none es = o
  obtain rfl : o = some x := ho.symm.trans hx
  exact ⟨x, hm.resolve_right nofun, _, rfl⟩

/-- A choice among groups that may issue finds one of them, if there is any, and changes nothing but deficit counters. -/
theorem choice_found (s : State) (quad : Nat) {gs : List Group} (h : gs ≠ []) :
    ∃ g ∈ gs, ∃ us, (s.chooseCtx quad (gs.map Group.key).eraseDups).2 = { s with units := us } ∧ ((s.chooseCtx quad (gs.map Group.key).eraseDups).1.bind fun x => oldestGroup (gs.filter fun h => h.key == x)) = some g := by
  obtain ⟨x, hx, us, hc⟩ := chooseCtx_found s quad (es := (gs.map Group.key).eraseDups) (by
    obtain ⟨g, gs', rfl⟩ := List.exists_cons_of_ne_nil h
    rw [List.map_cons, List.eraseDups_cons]
    simp)
  rw [List.mem_eraseDups, List.mem_map] at hx
  obtain ⟨g, hg, hk⟩ := hx
  obtain ⟨y, hy, ho⟩ := oldestGroup_found (gs := gs.filter fun h => h.key == x) (List.ne_nil_of_mem (List.mem_filter.mpr ⟨hg, by simp [hk]⟩))
  rw [hc]
  exact ⟨y, List.mem_of_mem_filter hy, us, rfl, ho⟩

theorem choice_none (s : State) (quad : Nat) : (s.chooseCtx quad (([] : List Group).map Group.key).eraseDups).2 = s ∧
    ((s.chooseCtx quad (([] : List Group).map Group.key).eraseDups).1.bind fun x => oldestGroup (([] : List Group).filter fun h => h.key == x)) = none := ⟨rfl, rfl⟩

/-- The groups us are selected to issue, and only what a selection counts has changed. -/
structure State.Selects (s t : State) (us : List Nat) : Prop where
  sel  : t.sched.sel = s.sched.sel ++ us
  mem  : t.mem = s.mem
  tabs : t.tabs = s.tabs
  work : t.work = s.work
  plat : t.plat = s.plat

/-- The second choice of a cycle. -/
def State.second (s : State) (quad : Nat) (rest : List Group) : State :=
  let c2 := s.chooseCtx quad (rest.map Group.key).eraseDups
  match c2.1.bind fun x => oldestGroup (rest.filter fun h => h.key == x) with
  | some g2 => { c2.2 with sched := { c2.2.sched with sel := c2.2.sched.sel ++ [g2.uid] } }
  | none => c2.2

theorem second_selects (s : State) (quad : Nat) (rest : List Group) : s.Selects (s.second quad rest) [] ∨ ∃ g ∈ rest, s.Selects (s.second quad rest) [g.uid] := by
  cases rest with
  | nil => exact .inl ⟨(List.append_nil _).symm, rfl, rfl, rfl, rfl⟩
  | cons x xs =>
    obtain ⟨g, hg, us, h2, h1⟩ := choice_found s quad (gs := x :: xs) (by simp)
    refine .inr ⟨g, hg, ?_⟩
    unfold State.second
    dsimp only
    rw [h1, h2]
    exact ⟨rfl, rfl, rfl, rfl, rfl⟩

/-- The first choice of a cycle, and the second where the word of the first leaves room. -/
def State.first (s : State) (quad : Nat) (ready : List Group) : State :=
  let c := s.chooseCtx quad (ready.map Group.key).eraseDups
  match c.1.bind fun x => oldestGroup (ready.filter fun h => h.key == x) with
  | none => c.2
  | some g =>
    let s := { c.2 with sched := { c.2.sched with sel := c.2.sched.sel ++ [g.uid] } }
    match s.nextUnit g with
    | none => s
    | some u => s.second quad (ready.filter fun h => h.uid != g.uid && (match s.nextUnit h with
        | some v => v = 0 || v != u
        | none => false))

theorem State.Selects.trans {s t u : State} {us vs : List Nat} (h : s.Selects t us) (k : t.Selects u vs) : s.Selects u (us ++ vs) :=
  ⟨by rw [k.sel, h.sel, List.append_assoc], k.mem.trans h.mem, k.tabs.trans h.tabs, k.work.trans h.work, k.plat.trans h.plat⟩

theorem first_selects (s : State) (quad : Nat) (ready : List Group) : ∃ us, s.Selects (s.first quad ready) us ∧ us.length ≤ 2 ∧ (∀ u ∈ us, ∃ h ∈ ready, h.uid = u) ∧ (us = [] ↔ ready = []) := by
  cases ready with
  | nil => exact ⟨[], ⟨(List.append_nil _).symm, rfl, rfl, rfl, rfl⟩, by simp, by simp, by simp⟩
  | cons x xs =>
    obtain ⟨g, hg, us, h2, h1⟩ := choice_found s quad (gs := x :: xs) (by simp)
    generalize x :: xs = ready at hg h1 h2
    unfold State.first
    dsimp only
    rw [h1, h2]
    dsimp only
    have hone : s.Selects { s with units := us, sched := { s.sched with sel := s.sched.sel ++ [g.uid] } } [g.uid] := ⟨rfl, rfl, rfl, rfl, rfl⟩
    generalize ({ s with units := us, sched := { s.sched with sel := s.sched.sel ++ [g.uid] } } : State) = t at hone
    have hne : ready ≠ [] := List.ne_nil_of_mem hg
    split
    · exact ⟨[g.uid], hone, by simp, by simpa using ⟨g, hg, rfl⟩, by simp [hne]⟩
    · rcases second_selects t quad (ready.filter _) with h | ⟨y, hy, h⟩
      · exact ⟨[g.uid], hone.trans h, by simp, by simpa using ⟨g, hg, rfl⟩, by simp [hne]⟩
      · refine ⟨[g.uid] ++ [y.uid], hone.trans h, by simp, fun u hu => ?_, by simp [hne]⟩
        rcases List.mem_append.mp hu with hu | hu <;> rw [List.mem_singleton] at hu
        · exact ⟨g, hg, hu.symm⟩
        · exact ⟨y, List.mem_of_mem_filter hy, hu.symm⟩

theorem selection_exec {quad : Nat} {s : State} (hs : s.plat.stuck = false) : ∃ t, exec (.issueSelection quad) s = answer (t.first quad ((s.quadGroups quad).filter s.mayIssue)) ∧ s.Selects t [] := by
  show ∃ t, execIssueSelection quad s = _ ∧ _
  unfold execIssueSelection
  dsimp only
  rw [if_neg (by rw [hs]; simp)]
  exact ⟨_, rfl, ⟨(List.append_nil _).symm, rfl, rfl, rfl, rfl⟩⟩

/-! ### Stalls -/

/-- A group that waits for nothing more is ready again. -/
theorem stall_ends {uid : Nat} {s : State} {h : Group} (hg : s.group? uid = some h) (hw : h.wait = .stall ∨ h.wait = .hold ∨ ∃ c, h.wait = .until_ c ∧ s.heldBy h c = false) (hp : h.st ≠ .parked) (hq : h.st ≠ .preempted)
    (hbad : s.mem.bad = none) : ∃ t, exec (.stallElapsed uid) s = .next t ∧ t.group? uid = some { h with st := if h.sup then .handler else .ready, wait := .none } ∧ s.OnlyGroup t uid := by
  have he : exec (.stallElapsed uid) s = answer (s.wake uid) := by
    show execStallElapsed uid s = _
    unfold execStallElapsed
    rw [hg]
    rcases hw with hw | hw | ⟨c, hw, hc⟩
    · dsimp only
      rw [hw]
    · dsimp only
      rw [hw]
    · dsimp only
      rw [hw]
      dsimp only
      rw [hc, if_neg (by simp)]
  refine ⟨s.wake uid, he.trans (answer_of (by rw [wake_units.1]; exact hbad)), ?_, wake_only⟩
  rw [wake_found hg, rouse_placed hp hq]
  rfl

theorem stall_holds {uid : Nat} {s : State} {h : Group} {c : HeldBy} (hg : s.group? uid = some h) (hw : h.wait = .until_ c) (hc : s.heldBy h c = true) (hbad : s.mem.bad = none) : exec (.stallElapsed uid) s = .next s := by
  show execStallElapsed uid s = _
  unfold execStallElapsed
  rw [hg]
  dsimp only
  rw [hw]
  dsimp only
  rw [if_pos hc]
  exact answer_of hbad

/-! ### Metered requests (R381, R382) -/

theorem bucket_setBucket (s : State) (slice key n : Nat) : (s.setBucket slice key n).bucket slice key = n := by
  show tget ((tget ({} : Context) s.tabs.ctxs key).depth) (State.setBucket s slice key n).units.tokens (bucketKey slice key) = n
  unfold State.setBucket
  dsimp only
  split
  · next hn => rw [tget_tdel, if_pos rfl, hn]
  · rw [tget_tput, if_pos rfl]

/-- A request of a context that no earlier one waits for takes a token or waits. -/
theorem metered_exec {slice part ctx : Nat} {s : State} (hs : slice < 128) (hc : (s.ctx part ctx).st ≠ 0) (hm : (slice, part, ctx) ∉ s.units.metered) :
    exec (.meteredRequestAdmit slice part ctx) s = answer ((s.takeToken slice part ctx).getD { s with units := { s.units with metered := s.units.metered ++ [(slice, part, ctx)] } }) := by
  show execMeteredRequestAdmit slice part ctx s = _
  unfold execMeteredRequestAdmit
  dsimp only
  rw [if_neg (by simp [hc]; omega), if_neg (by simpa using hm)]

theorem metered_admits {slice part ctx : Nat} {s : State} (hs : slice < 128) (hc : (s.ctx part ctx).st ≠ 0) (hm : (slice, part, ctx) ∉ s.units.metered) (hbad : s.mem.bad = none) :
    ((s.ctx part ctx).rate = 0 → exec (.meteredRequestAdmit slice part ctx) s = .next s) ∧
    ((s.ctx part ctx).rate ≠ 0 → 0 < s.bucket slice (ctxKey part ctx) →
      ∃ t, exec (.meteredRequestAdmit slice part ctx) s = .next t ∧ t.bucket slice (ctxKey part ctx) = s.bucket slice (ctxKey part ctx) - 1 ∧ { t with units := { t.units with tokens := s.units.tokens } } = s) ∧
    ((s.ctx part ctx).rate ≠ 0 → s.bucket slice (ctxKey part ctx) = 0 → s.lender slice part ctx = none →
      ∃ t, exec (.meteredRequestAdmit slice part ctx) s = .next t ∧ t.units = { s.units with metered := s.units.metered ++ [(slice, part, ctx)] } ∧ { t with units := s.units } = s) := by
  rw [metered_exec hs hc hm]
  unfold State.takeToken
  dsimp only
  refine ⟨fun hr => ?_, fun hr hb => ?_, fun hr hb hl => ?_⟩
  · rw [if_pos hr]
    exact answer_of hbad
  · rw [if_neg hr, if_pos hb]
    exact ⟨_, answer_of hbad, bucket_setBucket s _ _ _, rfl⟩
  · rw [if_neg hr, if_neg (by omega), hl]
    exact ⟨_, answer_of hbad, rfl, rfl⟩

/-! ### Watchdogs (R315) -/

theorem watchdog_fires {part ctx : Nat} {s : State} {h : Group} (h0 : (s.ctx part ctx).wdog ≠ 0) (h1 : (s.ctx part ctx).wdog ≤ (s.ctx part ctx).wdogCnt) (h2 : (s.ctx part ctx).progress = false) (h3 : s.idle part ctx = true)
    (hone : s.ctxGroups part ctx = [h]) (hl : h.st ≠ .launching) (hl' : h.left ≠ .launching) (hp : h.st ≠ .parked) (hq : h.st ≠ .preempted) :
    let r : FaultRec := { code := 0x18, async := true, replay := 0, pc := h.pc, word0 := h.word0, word1 := h.word1.getD 0, lit := h.word1.isSome, addr := 0, done := 0 }
    s.Steps ((((s.setCtx part ctx { s.ctx part ctx with wdogCnt := 0 }).withdraw h.uid).takeAsync h.uid r).docket 6 0x18 h.core part ctx (leBytes 8 1)) (.watchdogFire part ctx) := by
  intro r hbad
  have hdue : s.watchdogDue part ctx = true := by
    unfold State.watchdogDue
    simp [h1, h2, h3]
    exact h0
  have hfire : s.fireWatchdog part ctx = (((s.setCtx part ctx { s.ctx part ctx with wdogCnt := 0 }).withdraw h.uid).takeAsync h.uid r).docket 6 0x18 h.core part ctx (leBytes 8 1) := by
    unfold State.fireWatchdog
    dsimp only
    rw [hone, List.filter_cons_of_pos (by simp [hl, hl']), List.filter_nil]
    rw [List.foldl_cons, List.foldl_nil, List.foldl_cons, List.foldl_nil, if_neg hl, if_neg (by simp [hp, hq])]
    generalize State.takeAsync _ h.uid r = y
    rfl
  show execWatchdogFire part ctx s = _
  unfold execWatchdogFire
  rw [if_pos hdue, hfire]
  exact answer_of hbad

theorem watchdog_rests {part ctx : Nat} {s : State} (h : (s.ctx part ctx).wdog = 0 ∨ (s.ctx part ctx).wdogCnt < (s.ctx part ctx).wdog ∨ (s.ctx part ctx).progress = true ∨ s.idle part ctx = false) (hbad : s.mem.bad = none) :
    exec (.watchdogFire part ctx) s = .next s := by
  have hdue : s.watchdogDue part ctx = false := by
    unfold State.watchdogDue
    rcases h with h | h | h | h
    · simp [h]
    · simp [BitVec.not_le.mpr h]
    · simp [h]
    · simp [h]
  show execWatchdogFire part ctx s = _
  unfold execWatchdogFire
  rw [hdue, if_neg (by simp)]
  exact answer_of hbad

/-! ### Summaries of peers (R323, R331) -/

/-- What a summary of a peer makes of a pair's queue; a second time it changes nothing. -/
def Queue.told (q : Queue) (b f : Nat) : Queue := { q with remoteB := b, remoteF := f, remoteSent := 0, changed := true }

theorem onQueue_told {s : State} {q : Queue} {x y : Nat} (b f : Nat) (h : s.queue? x y = some q) (gidx qid : Nat) :
    (s.onQueue gidx qid fun q => { q with remoteB := b, remoteF := f, remoteSent := 0 }).queue? x y = some (if x = gidx ∧ y = qid then q.told b f else q) := by
  unfold State.onQueue
  cases hq : s.queue? gidx qid with
  | none =>
    dsimp only
    rw [h, if_neg]
    rintro ⟨rfl, rfl⟩
    rw [h] at hq
    cases hq
  | some p =>
    obtain ⟨hg, hi⟩ := queue?_key hq
    by_cases hk : x = gidx ∧ y = qid
    · obtain ⟨rfl, rfl⟩ := hk
      obtain rfl : q = p := Option.some.inj (h.symm.trans hq)
      rw [if_pos ⟨rfl, rfl⟩]
      exact putQueue_queue hq rfl rfl
    · rw [if_neg hk]
      exact (putQueue_others s _ x y (by rw [hg, hi]; exact hk)).trans h

/-- A fold reaches what one of its steps establishes and none undoes. -/
theorem fold_reaches {α β : Type} {f : β → α → β} {P D : β → Prop} (hD : ∀ s a, D s → D (f s a)) (hP : ∀ s a, P s → P (f s a)) {a : α} (ha : ∀ s, P s → D (f s a)) {l : List α} (hm : a ∈ l) {s : β} (hs : P s) : D (l.foldl f s) := by
  have hkeep : ∀ (l : List α) (s : β), D s → D (l.foldl f s) := fun l => by
    induction l with
    | nil => exact fun _ h => h
    | cons x l ih => exact fun s h => ih _ (hD s x h)
  induction l generalizing s with
  | nil => cases hm
  | cons x l ih =>
    rcases List.mem_cons.mp hm with rfl | hm
    · exact hkeep l _ (ha s hs)
    · exact ih hm (hP s x hs)

theorem fold_keeps {α β : Type} {f : β → α → β} {P : β → Prop} (hP : ∀ s a, P s → P (f s a)) (l : List α) {s : β} (hs : P s) : P (l.foldl f s) := by
  induction l generalizing s with
  | nil => exact hs
  | cons x l ih => exact ih (hP s x hs)

/-- The queue of a pair holds what its peer has sent. -/
theorem setRemote_told {s : State} {peer rqid : Nat} (b f : Nat) {gr : Graph} {e : QueueEnt} {q : Queue} (hgr : gr ∈ s.tabs.graphs) (he : e ∈ gr.queues) (hk : e.kind = 3) (hp : e.peer = peer) (hr : e.rqid = rqid)
    (hq : s.queue? gr.gidx e.qid = some q) : (s.setRemote peer rqid b f).queue? gr.gidx e.qid = some (q.told b f) := by
  let D := fun t : State => t.queue? gr.gidx e.qid = some (q.told b f)
  let P := fun t : State => t.queue? gr.gidx e.qid = some q ∨ D t
  have hDone : ∀ (t : State) (g i : Nat), D t → D (t.onQueue g i fun q => { q with remoteB := b, remoteF := f, remoteSent := 0 }) := fun t g i ht => by
    refine (onQueue_told b f ht g i).trans ?_
    split <;> rfl
  have hPone : ∀ (t : State) (g i : Nat), P t → P (t.onQueue g i fun q => { q with remoteB := b, remoteF := f, remoteSent := 0 }) := fun t g i ht => by
    rcases ht with ht | ht
    · by_cases hgi : gr.gidx = g ∧ e.qid = i
      · exact .inr ((onQueue_told b f ht g i).trans (by rw [if_pos hgi]))
      · exact .inl ((onQueue_told b f ht g i).trans (by rw [if_neg hgi]))
    · exact .inr (hDone t g i ht)
  have hme : ∀ t, P t → D (t.onQueue gr.gidx e.qid fun q => { q with remoteB := b, remoteF := f, remoteSent := 0 }) := fun t ht => by
    rcases ht with ht | ht
    · exact (onQueue_told b f ht _ _).trans (by rw [if_pos ⟨rfl, rfl⟩])
    · exact hDone t _ _ ht
  unfold State.setRemote
  refine fold_reaches (P := P) (D := D) (a := gr) (fun t g ht => fold_keeps (fun t (x : QueueEnt) => hDone t g.gidx x.qid) _ ht) (fun t g ht => fold_keeps (fun t (x : QueueEnt) => hPone t g.gidx x.qid) _ ht) (fun t ht => ?_) hgr (.inl hq)
  refine fold_reaches (P := P) (D := D) (a := e) (fun t x => hDone t gr.gidx x.qid) (fun t x => hPone t gr.gidx x.qid) hme ?_ ht
  exact List.mem_filter.mpr ⟨he, by simp [hk, hp, hr]⟩

/-- A summary of a peer goes out to the homes as a message of the port. -/
theorem summary_exec {port peer n b f : Nat} {s : State} (hp : port < Config.ports) (hd : (s.port port).down = false) (hst : s.plat.stuck = false) :
    exec (.summaryExchange port peer [(n, b, f)]) s = answer { s with work := { s.work with msgs := s.work.msgs ++
      [⟨s.sched.window, 272 + port, if n < 65536 then .remote peer n b f else .doorbell (s.graphPart (n - 65536)) (n - 65536) b (BitVec.ofNat 64 f)⟩] } } := by
  show execSummaryExchange port peer _ s = _
  unfold execSummaryExchange
  rw [if_neg (by simp [hd, hst]; omega)]
  rfl

/-- Settles O54: the selection finds a group where one may issue, the close of a window moves its clocks and nothing that it does on the way touches them, and the other steps are their equations. -/
theorem issueAndTime : Obligations.IssueAndTime := by
  unfold Obligations.IssueAndTime
  refine ⟨?_, ?_, ?_, ?_, ?_, ?_, ?_, ?_, ?_⟩
  · intro quad s hst hbad
    obtain ⟨t, he, ht⟩ := selection_exec (quad := quad) hst
    obtain ⟨us, hsel, hlen, hmem, hnil⟩ := first_selects t quad ((s.quadGroups quad).filter s.mayIssue)
    have h := ht.trans hsel
    refine ⟨_, us, he.trans (answer_of (by rw [h.mem]; exact hbad)), h.sel, hlen, h.mem, h.tabs, h.work, h.plat, fun u hu => ?_, ?_⟩
    · obtain ⟨x, hx, hxu⟩ := hmem u hu
      obtain ⟨hx, hi⟩ := List.mem_filter.mp hx
      exact ⟨x, hx, hxu, hi⟩
    · rw [hnil, List.filter_eq_nil_iff]
      simp
  · exact fun uid s h hg hw hp hq hbad => stall_ends hg hw hp hq hbad
  · exact fun uid s h c hg hw hc hbad => stall_holds hg hw hc hbad
  · exact fun through high s t hst h => window_closes hst h
  · exact fun through s hm hq hr hg hc hmet hgs hfree hbad => window_idle hm hq hr hg hc hmet hgs hfree hbad
  · exact fun slice part ctx s hs hc hm hbad => metered_admits hs hc hm hbad
  · exact fun part ctx s h h0 h1 h2 h3 hone hl hl' hp hq => watchdog_fires h0 h1 h2 h3 hone hl hl' hp hq
  · exact fun part ctx s h hbad => watchdog_rests h hbad
  · intro port peer rqid b f s hp hd hst hr hbad
    refine ⟨fun gidx => ⟨_, (summary_exec hp hd hst).trans (answer_of hbad), ?_, rfl⟩, ⟨_, (summary_exec hp hd hst).trans (answer_of hbad), ?_, rfl⟩, fun n m gr e q hgr he hk hpe hrq hq => setRemote_told b f hgr he hk hpe hrq hq⟩
    · dsimp only
      rw [if_neg (by omega), show 65536 + gidx - 65536 = gidx by omega]
    · dsimp only
      rw [if_pos hr]

end Sys2Proof.Machine
end

section
/-! SUPPORT for O9: what the bodies of loads and stores do (R238 to R244, R267 to R271). -/

namespace Sys2Proof.Machine

open Sys2Proof

/-! ### The four accesses -/

/-- The accesses of vector and control loads and stores. -/
def loadVector (w : Word) (g : Group) : Access :=
  ⟨.read, false, codeBytes w.f.rnd.toNat, w.addresses g (g.active w.f.pred.toNat), fun q => w.request .load (if w.f.d = 255 then .none else .vec w.f.d.toNat (w.f.rnd.toNat == 6)) (q.elems (codeBytes w.f.rnd.toNat) (fun _ => 0) fun _ => 0)⟩

def storeVector (w : Word) (g : Group) : Access :=
  ⟨.write, false, codeBytes w.f.rnd.toNat, w.addresses g (g.active w.f.pred.toNat), fun q => w.request .store .none (q.elems (codeBytes w.f.rnd.toNat) (fun l => (w.operandD g).getD l 0) fun _ => 0)⟩

def loadControl (w : Word) (g : Group) : Access :=
  ⟨.read, true, codeBytes w.f.rnd.toNat, [(0, w.kAddress g)], fun q => w.request .load (if w.f.d = 0 then .none else .ctl w.f.d.toNat) (q.elems (codeBytes w.f.rnd.toNat) (fun _ => 0) fun _ => 0)⟩

def storeControl (w : Word) (g : Group) : Access :=
  ⟨.write, true, codeBytes w.f.rnd.toNat, [(0, w.kAddress g)], fun q => w.request .store .none (q.elems (codeBytes w.f.rnd.toNat) (fun _ => (g.readK w.f.d.toNat).toNat) fun _ => 0)⟩

/-- The lanes over which a store looks for tags. -/
def Access.tagLanes (a : Access) (w : Word) (g : Group) : Mask := if a.control then 0 else g.active w.f.pred.toNat

/-- A store whose base or index carries a tag. -/
def Access.tagged (a : Access) (w : Word) (g : Group) : Prop := a.kind = .write ∧ g.storeTagged w a.control (a.tagLanes w g) = true

/-- The group with the values of a region load in its destination. -/
def Access.written (a : Access) (w : Word) (act : Mask) (g : Group) (vals : List (Nat × Nat)) : Group :=
  if a.control then g.writeK 0 w.f.d.toNat (BitVec.ofNat 64 ((vals.head?.map Prod.snd).getD 0))
  else g.writeOp 0 w.f.d.toNat (w.f.rnd.toNat == 6) act (laneNumbers.map fun l => ((vals.find? fun v => v.1 == l).map Prod.snd).getD 0)

/-- The region after a load: a destination that discards its value carries no tag. -/
def Access.cleaned (a : Access) (w : Word) (y : Region) : Region :=
  if a.control then (if w.f.d = 0 then y.untagK 0 else y)
  else if w.f.d.toNat = 255 then { y with tags := y.tags.filter fun t => match t.1 with
    | .lane m _ => m != 255
    | .pair m _ => m != 255
    | .ctl _ => true } else y

/-- What the body of an aligned access does in the state b, once nothing in its translation waits. -/
structure Access.Does (a : Access) (w : Word) (body : State → State × Flow) (b : State) : Prop where
  tagged : a.tagged w b.g → body b = (b, .abort 4)
  free   : ¬a.tagged w b.g → (a.reach b).1.stop = none → b.g.region = none → body b = issueRequest b (a.reach b).2 (a.reach b).1 (a.req (a.reach b).1)
  target : ¬a.tagged w b.g → (a.reach b).1.stop = none → ∀ r0, b.g.region = some r0 → (a.reach b).1.bad = [] → ((a.reach b).1.ok.any fun o => o.2.2 != 0) = true → body b = ((a.reach b).2, .abort 12)
  store  : a.kind = .write → ¬a.tagged w b.g → (a.reach b).1.stop = none → ∀ r0, b.g.region = some r0 → (a.reach b).1.bad = [] → ((a.reach b).1.ok.any fun o => o.2.2 != 0) = false → ∀ x, (a.reach b).2.g.region = some x →
    (∀ y, a.stores w b.g (a.reach b).1.ok x = .ok y → body b = ({ (a.reach b).2 with g := { (a.reach b).2.g with region := some y } }, .done)) ∧
    ∀ c, a.stores w b.g (a.reach b).1.ok x = .error c → body b = ((a.reach b).2, .abort c)
  load   : a.kind = .read → (a.reach b).1.stop = none → ∀ r0, b.g.region = some r0 → (a.reach b).1.bad = [] → ((a.reach b).1.ok.any fun o => o.2.2 != 0) = false → b.regionHold w r0 a.size (a.reach b).1.ok = none →
    ∀ z, (a.loader w (a.reach b).2.g).region = some z →
    (a.reads w (a.reach b).1.ok z { (a.reach b).2 with g := a.loader w (a.reach b).2.g } = none → body b = ((a.reach b).2, .abort 5)) ∧
    ∀ vals y c, a.reads w (a.reach b).1.ok z { (a.reach b).2 with g := a.loader w (a.reach b).2.g } = some (vals, y, c) →
      body b = ({ c with g := { a.written w (b.g.active w.f.pred.toNat) c.g vals with region := some (a.cleaned w y) } }, .done)

theorem regionStop_target {q : Reach} (hb : q.bad = []) (ho : (q.ok.any fun o => o.2.2 != 0) = true) : q.regionStop = some (.abort 12) := by
  unfold Reach.regionStop
  rw [hb, ho]
  rfl

theorem regionStop_none {q : Reach} (hb : q.bad = []) (ho : (q.ok.any fun o => o.2.2 != 0) = false) : q.regionStop = none := by
  unfold Reach.regionStop
  rw [hb, ho]
  rfl

/-- What translation changes leaves the masks. -/
theorem drift_active {s t : State} (h : s.Drift t) (n : Nat) : t.g.active n = s.g.active n := by
  obtain ⟨lp, r, pt, hg⟩ := h.g
  rw [hg]
  rfl

theorem vst_does {w : Word} {b : State} (hal : misaligned (storeVector w b.g).size (storeVector w b.g).at_ = none) :
    ∃ body, (∀ s, runVst w s = runWord w {} body s) ∧ (storeVector w b.g).Does w body b := by
  have htag : (storeVector w b.g).tagged w b.g ↔ b.g.storeTagged w false (b.g.active w.f.pred.toNat) = true := ⟨fun h => h.2, fun h => ⟨rfl, h⟩⟩
  change misaligned (codeBytes w.f.rnd.toNat) (w.addresses b.g (b.g.active w.f.pred.toNat)) = none at hal
  have hreach : (storeVector w b.g).reach b = b.reach .write (w.addresses b.g (b.g.active w.f.pred.toNat)) := rfl
  refine ⟨_, fun _ => rfl, ⟨fun ht => ?_, fun ht hs hr => ?_, fun ht hs r0 hr hb ho => ?_, fun _ ht hs r0 hr hb ho x hx => ?_, nofun⟩⟩
  · exact if_pos (htag.mp ht)
  all_goals
    rw [htag, Bool.not_eq_true] at ht
    rw [hreach] at *
    dsimp only
    rw [ht, if_neg (by simp), hal]
    dsimp only
    rw [hs, hr]
  · rfl
  · dsimp only
    rw [regionStop_target hb ho]
  · dsimp only
    rw [regionStop_none hb ho, hx]
    dsimp only [Option.getD_some]
    generalize ho : regionStores _ _ _ = o
    refine ⟨fun y hy => ?_, fun c hc => ?_⟩
    · obtain rfl : o = .ok y := ho.symm.trans hy
      rfl
    · obtain rfl : o = .error c := ho.symm.trans hc
      rfl

theorem misaligned_one (size a : Nat) : misaligned size [(0, a)] = none ↔ (a % size != 0) = false := by
  simp [misaligned]

theorem kst_does {w : Word} {b : State} (hal : misaligned (storeControl w b.g).size (storeControl w b.g).at_ = none) :
    ∃ body, (∀ s, runKst w s = runWord w {} body s) ∧ (storeControl w b.g).Does w body b := by
  have htag : (storeControl w b.g).tagged w b.g ↔ b.g.storeTagged w true 0 = true := ⟨fun h => h.2, fun h => ⟨rfl, h⟩⟩
  replace hal := (misaligned_one (codeBytes w.f.rnd.toNat) (w.kAddress b.g)).mp hal
  have hreach : (storeControl w b.g).reach b = b.reachK .write (w.kAddress b.g) := rfl
  refine ⟨_, fun _ => rfl, ⟨fun ht => ?_, fun ht hs hr => ?_, fun ht hs r0 hr hb ho => ?_, fun _ ht hs r0 hr hb ho x hx => ?_, nofun⟩⟩
  · exact if_pos (htag.mp ht)
  all_goals
    rw [htag, Bool.not_eq_true] at ht
    rw [hreach] at *
    dsimp only
    rw [ht, if_neg (by simp), hal, if_neg (by simp), hs, hr]
  · rfl
  · dsimp only
    rw [regionStop_target hb ho]
  · dsimp only
    rw [regionStop_none hb ho, hx]
    dsimp only [Option.getD_some]
    generalize ho : regionStores _ _ _ = o
    refine ⟨fun y hy => ?_, fun c hc => ?_⟩
    · obtain rfl : o = .ok y := ho.symm.trans hy
      rfl
    · obtain rfl : o = .error c := ho.symm.trans hc
      rfl

theorem kld_does {w : Word} {b : State} (hal : misaligned (loadControl w b.g).size (loadControl w b.g).at_ = none) :
    ∃ body, (∀ s, runKld w s = runWord w {} body s) ∧ (loadControl w b.g).Does w body b := by
  replace hal := (misaligned_one (codeBytes w.f.rnd.toNat) (w.kAddress b.g)).mp hal
  have hreach : (loadControl w b.g).reach b = b.reachK .read (w.kAddress b.g) := rfl
  refine ⟨_, fun _ => rfl, ⟨nofun, fun ht hs hr => ?_, fun ht hs r0 hr hb ho => ?_, nofun, fun _ hs r0 hr hb ho hhold z hz => ?_⟩⟩
  all_goals
    rw [hreach] at *
    dsimp only
    rw [hal, if_neg (by simp), hs, hr]
  · rfl
  · dsimp only
    rw [regionStop_target hb ho]
  · dsimp only
    rw [regionStop_none hb ho]
    dsimp only
    rw [show b.regionHold w r0 (codeBytes w.f.rnd.toNat) _ = none from hhold]
    dsimp only
    rw [show ((b.reachK .read (w.kAddress b.g)).2.g.concreteKs w).region = some z from hz]
    dsimp only
    generalize ho : regionLoads _ _ _ _ _ _ _ = o
    refine ⟨fun h => ?_, fun vals y c h => ?_⟩
    · obtain rfl : o = none := ho.symm.trans h
      rfl
    · obtain rfl : o = some (vals, y, c) := ho.symm.trans h
      rfl

theorem vld_does {w : Word} {b : State} (hal : misaligned (loadVector w b.g).size (loadVector w b.g).at_ = none) :
    ∃ body, (∀ s, runVld w s = runWord w {} body s) ∧ (loadVector w b.g).Does w body b := by
  change misaligned (codeBytes w.f.rnd.toNat) (w.addresses b.g (b.g.active w.f.pred.toNat)) = none at hal
  have hreach : (loadVector w b.g).reach b = b.reach .read (w.addresses b.g (b.g.active w.f.pred.toNat)) := rfl
  have hact := drift_active (reach_drift b .read (w.addresses b.g (b.g.active w.f.pred.toNat))) w.f.pred.toNat
  refine ⟨_, fun _ => rfl, ⟨nofun, fun ht hs hr => ?_, fun ht hs r0 hr hb ho => ?_, nofun, fun _ hs r0 hr hb ho hhold z hz => ?_⟩⟩
  all_goals
    rw [hreach] at *
    dsimp only
    rw [hal]
    dsimp only
    rw [hs, hr]
  · rfl
  · dsimp only
    rw [regionStop_target hb ho]
  · dsimp only
    rw [regionStop_none hb ho]
    dsimp only
    rw [show b.regionHold w r0 (codeBytes w.f.rnd.toNat) _ = none from hhold]
    dsimp only
    have hload : ∀ g : Group, g.active w.f.pred.toNat = b.g.active w.f.pred.toNat →
        ((g.concreteKs w).concreteLanes (vecNames w.f.b.toNat false) (lanesOf (b.g.active w.f.pred.toNat))).untagV w.writes.v (b.g.active w.f.pred.toNat) = (loadVector w b.g).loader w g := fun g hg => by
      rw [← hg]
      rfl
    rw [hload _ hact, hz]
    dsimp only
    have hreads : regionLoads (if (w.f.rnd.toNat == 6) = true then 64 else 32) w.f.rnd.toNat (codeBytes w.f.rnd.toNat) (fun l => if (w.f.rnd.toNat == 6) = true then TagKey.pair w.f.d.toNat l else TagKey.lane w.f.d.toNat l)
        (b.reach .read (w.addresses b.g (b.g.active w.f.pred.toNat))).1.ok (z.touchPages (w.addresses b.g (b.g.active w.f.pred.toNat)))
        { (b.reach .read (w.addresses b.g (b.g.active w.f.pred.toNat))).2 with g := (loadVector w b.g).loader w (b.reach .read (w.addresses b.g (b.g.active w.f.pred.toNat))).2.g } =
        (loadVector w b.g).reads w (b.reach .read (w.addresses b.g (b.g.active w.f.pred.toNat))).1.ok z { (b.reach .read (w.addresses b.g (b.g.active w.f.pred.toNat))).2 with g := (loadVector w b.g).loader w (b.reach .read (w.addresses b.g (b.g.active w.f.pred.toNat))).2.g } := by
      unfold Access.reads
      dsimp only
      rw [if_neg (show ¬(loadVector w b.g).control = true by simp [loadVector])]
      cases w.f.rnd.toNat == 6 <;> rfl
    rw [hreads]
    refine ⟨fun h => ?_, fun vals y c h => ?_⟩
    · rw [h]
    · rw [h]
      rfl

end Sys2Proof.Machine
end

section
/-! SUPPORT for O9: how words end in a region, and what region loads leave (R268, R275, R277). -/

namespace Sys2Proof.Machine

open Sys2Proof

/-! ### Aborts -/

/-- An abort that leaves no path due: the group is at the fallback, and what the body did to the machine stands (R277). -/
theorem abort_from {w : Word} {ex : Extra} {body : State → State × Flow} {s c : State} {r : Region} {cause : Nat} (hx : s.executes w ex = true)
    (hb : body (s.begun w ex) = (c, .abort cause)) (hm : c.mem.bad = none) (hr : s.g.region = some r) (hs : s.g.abortStays r = true) :
    ∃ t, runWord w ex body s = .next t ∧ s.g.Aborted r (BitVec.ofNat 4 cause) w t.g ∧ c.SameUnits t := by
  have hc := conclude_abort s c w ex cause
  rw [endReplay_aged (executes_replay hx), fallenTo_stays cause w hr hs] at hc
  have hu : c.SameUnits (s.conclude w ex (c, .abort cause)) := by
    rw [hc]
    exact SameUnits.trans (SameUnits.trans (SameUnits.of_g c _) (grant_same _ _)) (issued_same _)
  refine ⟨_, ?_, ?_, hu⟩
  · rw [runWord_executes w ex body s hx, hb]
    exact answer_next _ (by rw [hu.mem]; exact hm)
  · rw [hc, issued_g, grant_awake _ _ (awake_holds s.g), Group.fallen, abortRegion_some cause (show s.g.aged.region = some r from hr)]
    exact ⟨rfl, rfl, rfl, rfl, rfl, rfl, rfl, rfl, rfl, rfl, rfl, rfl, rfl, rfl⟩

theorem sameUnits_memory {s t : State} (h : s.SameUnits t) : s.SameMemory t := fun l hl => SameBytes.peek (SameBytes.of_mem h.mem) l 1 hl

/-! ### Releases in a region -/

/-- The buffer, the words and the pages of a region are as before. -/
def Region.Holds (y z : Region) : Prop := (z.stores, z.words, z.pages) = (y.stores, y.words, y.pages)

theorem noting_fields (r : Region) (lat : Nat) (was : List (TagKey × Option Tag)) : ∃ o, r.noting lat was = { r with older := o } := by
  unfold Region.noting
  dsimp only
  generalize (if (r.older.any fun o => decide (r.now < o.ready)) = true then r.older else []) = old
  split
  · exact ⟨[], rfl⟩
  · exact ⟨_, rfl⟩

theorem concreteTags_fields (r : Region) (ts : List (TagKey × Tag)) : ∃ rs, r.concreteTags ts = { r with reads := rs } := by
  unfold Region.concreteTags
  induction ts generalizing r with
  | nil => exact ⟨r.reads, rfl⟩
  | cons t ts ih =>
    obtain ⟨rs, h⟩ := ih (r.concrete t.2.j)
    exact ⟨rs, h⟩

theorem untag_holds (r : Region) (ns : List Nat) (mask : Mask) (lat : Nat) : r.Holds (r.untag ns mask lat) := by
  unfold Region.untag
  dsimp only
  obtain ⟨rs, h⟩ := concreteTags_fields r (r.tags.filter _)
  rw [h]
  obtain ⟨o, ho⟩ := noting_fields { r with reads := rs } lat _
  rw [ho]
  rfl

theorem untagK_fields (r : Region) (n lat : Nat) : ∃ o ts, r.untagK n lat = { r with older := o, tags := ts } := by
  unfold Region.untagK
  obtain ⟨o, ho⟩ := noting_fields r lat _
  rw [ho]
  exact ⟨o, _, rfl⟩

theorem releaseAll_region (g : Group) (ns : List Nat) : (g.releaseAll ns).region = g.region.map fun r => r.untag ns 0xFFFFFFFF := by
  have fold : ∀ (l : List Nat) (h : Group), (l.foldl Group.releaseV h).region = h.region := by
    intro l
    induction l with
    | nil => exact fun _ => rfl
    | cons a as ih =>
      intro h
      rw [List.foldl_cons, ih]
      unfold Group.releaseV
      split <;> rfl
  unfold Group.releaseAll
  exact fold ns _

/-- The group after a word that left it x, with the registers v and the region z. -/
def Group.ended (x : Group) (w : Word) (v : Tbl VReg) (z : Region) (pc : W64) (space : Nat) : Group :=
  { x with v := v, region := some z, pc := pc, dist := x.dist + space, lastSpace := space, gage := 0, wait := if w.stall = 0 then .none else .stall, resume := none, refused := []
           stall := w.stall, st := if w.stall = 0 then (if x.sup then .handler else .ready) else .waitStall, word0 := w.w0, word1 := w.w1 }

/-- A word of an open region that completes: what it releases loses its tags, and the rest of the region stands. -/
theorem region_ends {w : Word} {body : State → State × Flow} {s b : State} {x : Group} {y : Region} (hx : s.executes w {} = true)
    (hb : body (s.begun w {}) = ({ b with g := { x with region := some y } }, .done)) (hm : b.mem.bad = none) (hrep : x.replay = none) :
    ∃ t v z, runWord w {} body s = .next t ∧ b.SameUnits t ∧ t.g = x.ended w v z (w.next s.g.pc) (w.stall + 1) ∧ (∀ n, n ∉ w.releases {} → tget ({} : VReg) v n = tget {} x.v n) ∧
      y.Holds z ∧ (w.releases {} = [] → z = y) := by
  let c : State := { b with g := { x with region := some y } }
  obtain ⟨-, v, r, hv, hnil, hg⟩ := finish_past c w (w.releases {}) (w.next s.g.pc) (w.stall + 1) hrep
  obtain ⟨st, hf⟩ := finish_g c w (w.releases {}) (w.next s.g.pc) (w.stall + 1)
  have hreg : ∃ z, r = some z ∧ y.Holds z ∧ (w.releases {} = [] → z = y) := by
    have hrf : r = (if (w.releases {}).isEmpty then c.g else c.g.releaseAll (w.releases {})).region := by
      have h := congrArg Group.region (hg.symm.trans hf)
      rw [show ∀ (g : Group) (p : W64) (n : Nat), (g.advance w p n).region = g.region from fun _ _ _ => rfl] at h
      refine h.trans ?_
      unfold Group.endReplay
      split <;> rfl
    by_cases hrel : w.releases {} = []
    · exact ⟨y, (hnil hrel).2, rfl, fun _ => rfl⟩
    · rw [if_neg (by simpa using hrel), releaseAll_region] at hrf
      exact ⟨_, hrf, untag_holds y _ _ _, fun h => absurd h hrel⟩
  obtain ⟨z, rfl, hz, hzy⟩ := hreg
  exact ⟨_, v, z, runWord_done w {} body s _ hx hb hm, SameUnits.trans (SameUnits.of_g b _) (finish_same c _ _ _ _ _), hg, hv, hz, hzy⟩

/-! ### Region loads -/

/-- The issuing group has read, and no byte of memory has changed. -/
structure State.Fetches (s t : State) : Prop where
  g   : ∃ lp r pt se, t.g = { s.g with lastPage := lp, region := r, pendTiles := pt, seen := se }
  mem : s.SameMemory t

theorem State.Fetches.refl (s : State) : s.Fetches s := ⟨⟨_, _, _, _, rfl⟩, fun _ _ => rfl⟩

theorem State.Fetches.trans {s t u : State} (h : s.Fetches t) (k : t.Fetches u) : s.Fetches u := by
  obtain ⟨lp', r', pt', se', hg⟩ := h.g
  obtain ⟨lp, r, pt, se, kg⟩ := k.g
  exact ⟨⟨lp, r, pt, se, by rw [kg, hg]⟩, sameMemory_trans h.mem k.mem⟩

/-- A group that takes note of what a load has read. -/
theorem State.Fetches.noted {s t : State} (h : s.Drift t) (hm : s.SameMemory t) (tile : Option Nat) (moment : Nat) :
    s.Fetches { t with g := (t.g.consume tile).sees moment } := by
  obtain ⟨lp, r, pt, hg⟩ := h.g
  refine ⟨?_, sameMemory_trans hm (sameUnits_memory (SameUnits.of_g t _))⟩
  dsimp only
  rw [hg]
  unfold Group.consume Group.sees
  split
  · split <;> exact ⟨_, _, _, _, rfl⟩
  · exact ⟨_, _, _, _, rfl⟩

theorem loadHome_reads (s : State) (who : Who) (l : Loc) (n : Nat) : s.Drift (s.loadHome who l n).2.2 ∧ s.SameMemory (s.loadHome who l n).2.2 := by
  unfold State.loadHome
  split
  · split
    · exact ⟨Drift.of_g rfl, fun x hx => SameBytes.peek (s := s) (t := { s with mem := { s.mem with bad := s.mem.bad } }) ⟨rfl, rfl, rfl, rfl, rfl, rfl⟩ x 1 hx⟩
    · refine ⟨Drift.trans (touch_drift s _ _) (Drift.of_g rfl), fun x hx => ?_⟩
      exact SameBytes.peek (SameBytes.trans (touch_same s who (l.addr / 128)) ⟨rfl, rfl, rfl, rfl, rfl, rfl⟩) x 1 hx
  · exact ⟨Drift.refl s, fun _ _ => rfl⟩

theorem regionRead_fetches (s : State) (r : Region) (l : Loc) (n : Nat) : s.Fetches (s.regionRead r l n).2 := by
  unfold State.regionRead
  split
  · exact .refl s
  · dsimp only
    split
    · exact .noted (loadVerified_drift s s.g.who l n) (loadVerified_memory s s.g.who l n) none _
    · exact .noted (loadHome_reads s s.g.who l n).1 (loadHome_reads s s.g.who l n).2 _ _

/-- A region load reads one value for each lane that translated. -/
theorem regionLoads_fetches {width code size : Nat} {key : Nat → TagKey} {ok : List (Nat × Loc × Nat)} {r y : Region} {s c : State} {vals : List (Nat × Nat)}
    (h : regionLoads width code size key ok r s = some (vals, y, c)) : s.Fetches c ∧ vals.map Prod.fst = ok.map Prod.fst := by
  induction ok generalizing r s vals with
  | nil =>
    cases h
    exact ⟨.refl _, rfl⟩
  | cons o ok ih =>
    simp only [regionLoads, bind, Option.bind_eq_some_iff, pure] at h
    obtain ⟨x, -, z, hz, he⟩ := h
    obtain ⟨vs, y', c'⟩ := z
    cases he
    obtain ⟨hf, hl⟩ := ih hz
    exact ⟨(regionRead_fetches s r o.2.1 size).trans hf, by simp [hl]⟩

theorem reads_fetches {a : Access} {w : Word} {ok : List (Nat × Loc × Nat)} {r y : Region} {s c : State} {vals : List (Nat × Nat)} (h : a.reads w ok r s = some (vals, y, c)) :
    s.Fetches c ∧ vals.map Prod.fst = ok.map Prod.fst := by
  unfold Access.reads at h
  dsimp only at h
  split at h
  · exact regionLoads_fetches h
  · split at h <;> exact regionLoads_fetches h

/-! ### The lanes of an access -/

theorem add_lanes (q : Reach) (lane va : Nat) (t : Trans) : ∃ l, (q.add lane va t).ok.map Prod.fst = q.ok.map Prod.fst ++ l ∧ l.Sublist [lane] := by
  unfold Reach.add
  split
  · exact ⟨[lane], by simp, List.Sublist.refl _⟩
  · exact ⟨[], by simp, List.nil_sublist _⟩
  · exact ⟨[], by simp, List.nil_sublist _⟩

/-- The lanes that translate are among those addressed, in their order. -/
theorem reach_lanes (s : State) (kind : AccessKind) (as : List (Nat × Nat)) : ((s.reach kind as).1.ok.map Prod.fst).Sublist (as.map Prod.fst) := by
  have fold : ∀ (l : List (Nat × Nat)) (acc : Reach × State), ∃ m,
      (l.foldl (fun (acc : Reach × State) x => let q := acc.2.translateLane kind x.1 x.2; (acc.1.add x.1 x.2 q.1, q.2)) acc).1.ok.map Prod.fst = acc.1.ok.map Prod.fst ++ m ∧ m.Sublist (l.map Prod.fst) := by
    intro l
    induction l with
    | nil => exact fun acc => ⟨[], by simp, List.nil_sublist _⟩
    | cons a as ih =>
      intro acc
      obtain ⟨m', hm', hs'⟩ := add_lanes acc.1 a.1 a.2 (acc.2.translateLane kind a.1 a.2).1
      obtain ⟨m, hm, hs⟩ := ih (acc.1.add a.1 a.2 (acc.2.translateLane kind a.1 a.2).1, (acc.2.translateLane kind a.1 a.2).2)
      rw [hm', List.append_assoc] at hm
      exact ⟨m' ++ m, hm, hs'.append hs⟩
  obtain ⟨m, hm, hs⟩ := fold as ({ vas := as }, s)
  exact hm ▸ hs

theorem reachK_lane (s : State) (kind : AccessKind) (va : Nat) : ((s.reachK kind va).1.ok.map Prod.fst).Sublist [0] := by
  obtain ⟨m, hm, hs⟩ := add_lanes { vas := [(0, va)] } 0 va (s.translate s.g kind va).1
  exact hm ▸ hs

/-! ### Registers written by a region load -/

theorem writeOp_fields (g : Group) (lat n : Nat) (pair : Bool) (mask : Mask) (vals : List Nat) : ∃ v, g.writeOp lat n pair mask vals = { g with v := v } := by
  unfold Group.writeOp
  split
  · exact ⟨g.v, rfl⟩
  · obtain ⟨v, hv⟩ := writeV_fields g lat n mask 0xFFFFFFFF (vals.map (BitVec.ofNat 32))
    dsimp only
    rw [hv]
    split
    · obtain ⟨v', hv'⟩ := writeV_fields { g with v := v } lat (n + 1) mask 0xFFFFFFFF (vals.map fun x => BitVec.ofNat 32 (x / 2 ^ 32))
      exact ⟨v', hv'⟩
    · exact ⟨v, rfl⟩

theorem writeOp_other (g : Group) (lat n : Nat) (pair : Bool) (mask : Mask) (vals : List Nat) {m : Nat} (h : m ∉ vecNames n pair) : (g.writeOp lat n pair mask vals).vreg m = g.vreg m := by
  unfold Group.writeOp
  unfold vecNames at h
  split
  · rfl
  · next hn =>
    rw [if_neg hn] at h
    dsimp only
    cases pair with
    | true =>
      simp only [if_true, List.mem_cons, List.not_mem_nil, or_false, not_or] at h
      rw [if_pos rfl, writeV_other _ _ _ _ _ _ _ (Ne.symm h.2), writeV_other _ _ _ _ _ _ _ (Ne.symm h.1)]
    | false =>
      simp only [Bool.false_eq_true, if_false, List.mem_cons, List.not_mem_nil, or_false] at h
      rw [if_neg (by simp), writeV_other _ _ _ _ _ _ _ (Ne.symm h)]

/-- Of values with distinct keys, a key finds its own. -/
theorem find?_own {vals : List (Nat × Nat)} (h : (vals.map Prod.fst).Nodup) {v : Nat × Nat} (hv : v ∈ vals) : vals.find? (fun x => x.1 == v.1) = some v := by
  induction vals with
  | nil => cases hv
  | cons x xs ih =>
    obtain ⟨hnot, hnd⟩ := List.nodup_cons.mp h
    rcases List.mem_cons.mp hv with rfl | hv'
    · simp
    · have hne : x.1 ≠ v.1 := fun e => hnot (e ▸ List.mem_map_of_mem hv')
      rw [List.find?_cons_of_neg (by simpa using hne)]
      exact ih hnd hv'

end Sys2Proof.Machine
end

section
/-! O9: loads and stores issue (R217, R238 to R244, R267, R268, R271). -/

namespace Sys2Proof.Machine

open Sys2Proof

/-! ### What the accesses of the eight words have in common -/

/-- The lanes that an access may address. -/
def Access.mayReach (a : Access) (w : Word) (g : Group) : List Nat := if a.control then [0] else lanesOf (g.active w.f.pred.toNat)

/-- The request, the lanes and the names of an access. -/
structure Access.Fits (a : Access) (w : Word) (g : Group) : Prop where
  load  : ∀ q, ((a.req q).kind == .load) = (a.kind == .read)
  store : a.kind = .write → ∀ q, (a.req q).kind = .store
  acq   : ∀ q, (a.req q).acq = w.acq
  elems : ∀ q, (a.req q).elems = [] ↔ q.ok = []
  lanes : ∀ s : State, ((a.reach s).1.ok.map Prod.fst).Sublist (a.mayReach w g)
  names : a.kind = .read → a.control = false → w.writes.v = vecNames w.f.d.toNat (w.f.rnd.toNat == 6)

theorem vector_lanes {a : Access} {w : Word} {g : Group} (hc : a.control = false) (hat : a.at_ = w.addresses g (g.active w.f.pred.toNat)) (s : State) :
    ((a.reach s).1.ok.map Prod.fst).Sublist (a.mayReach w g) := by
  unfold Access.reach Access.mayReach
  rw [hc, if_neg (by simp), if_neg (by simp), hat]
  have hl : (w.addresses g (g.active w.f.pred.toNat)).map Prod.fst = lanesOf (g.active w.f.pred.toNat) := by
    unfold Word.addresses
    simp [Function.comp_def]
  exact hl ▸ reach_lanes s a.kind _

theorem control_lanes {a : Access} {w : Word} {g : Group} (hc : a.control = true) (s : State) : ((a.reach s).1.ok.map Prod.fst).Sublist (a.mayReach w g) := by
  unfold Access.reach Access.mayReach
  rw [hc, if_pos rfl, if_pos rfl]
  exact reachK_lane s a.kind _

theorem storeVector_fits (w : Word) (g : Group) : (storeVector w g).Fits w g :=
  ⟨fun _ => rfl, fun _ _ => rfl, fun _ => rfl, fun _ => List.map_eq_nil_iff, vector_lanes rfl rfl, nofun⟩

theorem storeControl_fits (w : Word) (g : Group) : (storeControl w g).Fits w g :=
  ⟨fun _ => rfl, fun _ _ => rfl, fun _ => rfl, fun _ => List.map_eq_nil_iff, control_lanes rfl, nofun⟩

theorem loadControl_fits (w : Word) (g : Group) : (loadControl w g).Fits w g :=
  ⟨fun _ => rfl, nofun, fun _ => rfl, fun _ => List.map_eq_nil_iff, control_lanes rfl, nofun⟩

theorem loadVector_fits (w : Word) (g : Group) (h : w.writes.v = vecNames w.f.d.toNat (w.f.rnd.toNat == 6)) : (loadVector w g).Fits w g :=
  ⟨fun _ => rfl, nofun, fun _ => rfl, fun _ => List.map_eq_nil_iff, vector_lanes rfl rfl, fun _ _ => h⟩

/-- A vector load writes its destination, a pair where its elements have 64 bits. -/
theorem loaded_names {w : Word} (hn : w.writes.v = vecNames w.f.d.toNat (w.f.rnd == 6) ++ []) : w.writes.v = vecNames w.f.d.toNat (w.f.rnd.toNat == 6) := by
  have hsix : ∀ x : BitVec 3, (x == 6) = (x.toNat == 6) := by decide
  rw [hn, List.append_nil, hsix]

/-- Each load and store is one of the four accesses. -/
theorem access_runs {i : Instr} {w : Word} {s : State} {a : Access} (hw : wordOf i = some w) (ha : accessOf i w (s.begun w {}).g = some a) (hal : misaligned a.size a.at_ = none) :
    ∃ body, exec i s = runWord w {} body s ∧ a.Does w body (s.begun w {}) ∧ a.Fits w (s.begun w {}).g := by
  have vld : a = loadVector w (s.begun w {}).g → exec i s = runVld w s → w.writes.v = vecNames w.f.d.toNat (w.f.rnd.toNat == 6) →
      ∃ body, exec i s = runWord w {} body s ∧ a.Does w body (s.begun w {}) ∧ a.Fits w (s.begun w {}).g := by
    rintro rfl he hn
    obtain ⟨body, hb, hd⟩ := vld_does hal
    exact ⟨body, he.trans (hb s), hd, loadVector_fits w _ hn⟩
  have kld : a = loadControl w (s.begun w {}).g → exec i s = runKld w s → ∃ body, exec i s = runWord w {} body s ∧ a.Does w body (s.begun w {}) ∧ a.Fits w (s.begun w {}).g := by
    rintro rfl he
    obtain ⟨body, hb, hd⟩ := kld_does hal
    exact ⟨body, he.trans (hb s), hd, loadControl_fits w _⟩
  have vst : a = storeVector w (s.begun w {}).g → exec i s = runVst w s → ∃ body, exec i s = runWord w {} body s ∧ a.Does w body (s.begun w {}) ∧ a.Fits w (s.begun w {}).g := by
    rintro rfl he
    obtain ⟨body, hb, hd⟩ := vst_does hal
    exact ⟨body, he.trans (hb s), hd, storeVector_fits w _⟩
  have kst : a = storeControl w (s.begun w {}).g → exec i s = runKst w s → ∃ body, exec i s = runWord w {} body s ∧ a.Does w body (s.begun w {}) ∧ a.Fits w (s.begun w {}).g := by
    rintro rfl he
    obtain ⟨body, hb, hd⟩ := kst_does hal
    exact ⟨body, he.trans (hb s), hd, storeControl_fits w _⟩
  unfold accessOf at ha
  split at ha
  · cases hw
    exact vld (Option.some.inj ha).symm rfl (loaded_names rfl)
  · cases hw
    exact vld (Option.some.inj ha).symm rfl (loaded_names rfl)
  · cases hw
    exact vst (Option.some.inj ha).symm rfl
  · cases hw
    exact vst (Option.some.inj ha).symm rfl
  · cases hw
    exact kld (Option.some.inj ha).symm rfl
  · cases hw
    exact kld (Option.some.inj ha).symm rfl
  · cases hw
    exact kst (Option.some.inj ha).symm rfl
  · cases hw
    exact kst (Option.some.inj ha).symm rfl
  · cases ha

theorem access_drift (a : Access) (s : State) : s.Drift (a.reach s).2 := by
  unfold Access.reach
  split
  · exact reachK_drift s _ _
  · exact reach_drift s _ _

theorem access_replay (a : Access) {w : Word} {s : State} (hx : s.executes w {} = true) : (a.reach (s.begun w {})).2.g.replay = none :=
  (Drift.replay (access_drift a (s.begun w {}))).trans ((begin_replay s.g w {}).trans (executes_replay hx))

/-! ### Outside a region -/

theorem free_untagged {a : Access} {w : Word} {g : Group} (hr : g.region = none) : ¬a.tagged w g := fun h => by
  have h2 := h.2
  unfold Group.storeTagged at h2
  rw [hr] at h2
  cases h2

/-- The request of an access as it joins its group. -/
def Access.joins (a : Access) (w : Word) (q : Reach × State) : Req :=
  let r : Req := { a.req q.1 with id := q.2.g.nextReq, gen := q.2.g.gen, epoch := q.2.g.epoch }
  { r with stamp := if (a.kind == .read && !w.acq && r.elems.all fun e => q.2.g.canPerform r e) = true then some (q.2.vers q.2.g.who) else none }

theorem joining_eq {a : Access} {w : Word} {g : Group} (hf : a.Fits w g) (q : Reach × State) : (a.req q.1).joining q.2 = a.joins w q := by
  unfold Req.joining Access.joins
  dsimp only
  rw [hf.load, hf.acq]

section
variable {a : Access} {w : Word} {body : State → State × Flow} {s : State}

/-- The request joins the group, and the lanes that failed follow. -/
theorem access_joins (hdo : a.Does w body s) (hf : a.Fits w s.g) (hr : s.g.region = none) (hstop : (a.reach s).1.stop = none) (hok : (a.reach s).1.ok ≠ []) (hmap : ((a.reach s).1.ok.all fun o => o.2.2 != 3) = true)
    (hroom : (a.reach s).2.g.packets < 16 ∨ a.kind = .write ∧ (a.reach s).2.g.unver = false) :
    body s = ({ (a.reach s).2 with g := (a.reach s).2.g.asked (a.joins w (a.reach s)) }, (a.reach s).1.flow (some (a.reach s).2.g.nextReq)) := by
  rw [hdo.free (free_untagged hr) hstop hr, issueRequest_joins, joining_eq hf]
  · exact fun h => hok ((hf.elems _).mp h)
  · exact fun o ho => by simpa using List.all_eq_true.mp hmap o ho
  · exact hroom.imp_right fun h => ⟨hf.store h.1 _, h.2⟩

/-- With no lane translated, nothing is asked for. -/
theorem access_fails (hdo : a.Does w body s) (hf : a.Fits w s.g) (hr : s.g.region = none) (hstop : (a.reach s).1.stop = none) (hok : (a.reach s).1.ok = []) :
    body s = ((a.reach s).2, (a.reach s).1.flow none) := by
  rw [hdo.free (free_untagged hr) hstop hr]
  unfold issueRequest
  dsimp only
  rw [(hf.elems _).mpr hok]
  exact if_pos rfl
end

theorem begun_free {s : State} (w : Word) (h : s.g.inreg = false) : (s.begun w {}).g.region = none := by
  have hin := begin_inreg s.g w {}
  rw [h] at hin
  rw [begun_g]
  simpa [Group.inreg] using hin

section
variable {a : Access} {w : Word} {body : State → State × Flow} {s : State} (hx : s.executes w {} = true) (hdo : a.Does w body (s.begun w {})) (hf : a.Fits w (s.begun w {}).g) (hin : s.g.inreg = false)
  (hstop : (a.reach (s.begun w {})).1.stop = none)
include hx hdo hf hin hstop

/-- No lane translated: the word faults at once. -/
theorem access_faults (hok : (a.reach (s.begun w {})).1.ok = []) {b : Nat × Nat × Nat} {bs : List (Nat × Nat × Nat)} (hb : (a.reach (s.begun w {})).1.bad = b :: bs) :
    let q := a.reach (s.begun w {})
    runWord w {} body s = answer (State.trap { q.2 with g := { q.2.g.giveBack s.g (w.allWrites {}).v with paths := s.g.paths } } w b.2.2 (maskOf fun l => q.1.bad.any fun x => x.1 == l) (BitVec.ofNat 64 b.2.1)) := by
  intro q
  have hflow : q.1.flow none = .lanes none b.2.2 (maskOf fun l => q.1.bad.any fun x => x.1 == l) (BitVec.ofNat 64 b.2.1) := by
    rw [Reach.flow, hb]
  rw [runWord_executes w {} body s hx, access_fails hdo hf (begun_free w hin) hstop hok, hflow]
  rfl

section
variable (hm : (a.reach (s.begun w {})).2.mem.bad = none) (hok : (a.reach (s.begun w {})).1.ok ≠ []) (hmap : ((a.reach (s.begun w {})).1.ok.all fun o => o.2.2 != 3) = true)
  (hroom : (a.reach (s.begun w {})).2.g.packets < 16 ∨ a.kind = .write ∧ (a.reach (s.begun w {})).2.g.unver = false)
include hm hok hmap hroom

/-- All lanes translated: the word goes on with its request made. -/
theorem access_issued (hb : (a.reach (s.begun w {})).1.bad = []) :
    let q := a.reach (s.begun w {})
    ∃ t, runWord w {} body s = .next t ∧ WordDone q.2 t w {} (q.2.g.asked (a.joins w q)) (w.next s.g.pc) (w.stall + 1) := by
  have hj := access_joins hdo hf (begun_free w hin) hstop hok hmap hroom
  rw [Reach.flow, hb] at hj
  obtain ⟨t, ht, hd⟩ := body_done w {} body s _ hx hj hm (access_replay a hx)
  exact ⟨t, ht, hd.regroup⟩

/-- Some lanes failed: the group waits for the others, the fault to follow (log 11). -/
theorem access_partly {b : Nat × Nat × Nat} {bs : List (Nat × Nat × Nat)} (hb : (a.reach (s.begun w {})).1.bad = b :: bs) :
    let q := a.reach (s.begun w {})
    ∃ t, runWord w {} body s = .next t ∧ q.2.SameUnits t ∧ t.g.reqs = q.2.g.reqs ++ [a.joins w q] ∧ t.g.pc = s.g.pc ∧ t.g.st = .waitStall ∧
      t.g.wait = .faultAfter q.2.g.nextReq b.2.2 (maskOf fun l => q.1.bad.any fun x => x.1 == l) (BitVec.ofNat 64 b.2.1) := by
  intro q
  have hj := access_joins hdo hf (begun_free w hin) hstop hok hmap hroom
  have hflow : q.1.flow (some q.2.g.nextReq) = .lanes (some q.2.g.nextReq) b.2.2 (maskOf fun l => q.1.bad.any fun x => x.1 == l) (BitVec.ofNat 64 b.2.1) := by
    rw [Reach.flow, hb]
  have hnone : q.2.g.inreg = false := (access_drift a (s.begun w {})).inreg.trans ((begin_inreg s.g w {}).trans hin)
  have hbusy : (((q.2.g.asked (a.joins w q)).reqs.any fun r => r.id == q.2.g.nextReq) && !(q.2.g.asked (a.joins w q)).inreg) = true := by
    rw [show (q.2.g.asked (a.joins w q)).inreg = q.2.g.inreg from rfl, hnone]
    simp [Group.asked, Access.joins]
  rw [runWord_executes w {} body s hx, hj, hflow]
  unfold State.conclude
  dsimp only
  rw [if_pos hbusy]
  refine ⟨_, answer_next _ hm, SameUnits.of_g _ _, rfl, ?_, rfl, rfl⟩
  exact (drift_pc (access_drift a (s.begun w {}))).trans (begun_place s.g w {}).2.2.2.2
end
end

end Sys2Proof.Machine
end

section
/-! O9: loads and stores of an open region (R267, R268, R271). -/

namespace Sys2Proof.Machine

open Sys2Proof

section
variable {a : Access} {w : Word} {body : State → State × Flow} {s : State} {r0 : Region} (hx : s.executes w {} = true) (hr : s.g.region = some r0)
include hx

/-- A store of a region that has added its entries goes on (R271). -/
theorem store_lands {b : State} {x y : Region} (hb : body (s.begun w {}) = ({ b with g := { b.g with region := some y } }, .done)) (hm : b.mem.bad = none) (hrep : b.g.replay = none) (hxr : b.g.region = some x) :
    ∃ t, runWord w {} body s = .next t ∧ WordDone b t w {} b.g (w.next s.g.pc) (w.stall + 1) ∧
      t.g.region.map (fun z => (z.stores, z.words, z.pages)) = some (y.stores, y.words, y.pages) ∧ (w.releases {} = [] → t.g.region = some y) := by
  obtain ⟨t, v, z, ht, hu, hg, hv, hz, hzy⟩ := region_ends hx hb hm hrep
  refine ⟨t, ht, ⟨hu, ?_, ?_⟩, ?_, fun h => ?_⟩
  · rw [hg]
    exact ⟨rfl, rfl, rfl, rfl⟩
  · exact kept_of b.g t.g _ v (some z) _ _ _ _ _ _ _ _ _ b.g.uninit _ _ hv (by rw [Group.inreg, hxr]; rfl) hg
  · rw [hg]
    exact congrArg some hz
  · rw [hg, ← hzy h]
    rfl

include hr

/-- An abort of an access leaves every byte of memory as its translation did. -/
theorem access_aborts {c : State} {cause : Nat} (hb : body (s.begun w {}) = (c, .abort cause)) (hm : c.mem.bad = none) (hs : s.g.abortStays r0 = true) :
    ∃ t, runWord w {} body s = .next t ∧ s.g.Aborted r0 (BitVec.ofNat 4 cause) w t.g ∧ c.SameMemory t := by
  obtain ⟨t, ht, ha, hu⟩ := abort_from hx hb hm hr hs
  exact ⟨t, ht, ha, sameUnits_memory hu⟩
end

theorem begun_region {s : State} (w : Word) {r0 : Region} (h : s.g.region = some r0) : ∃ r1, (s.begun w {}).g.region = some r1 := by
  have hin := begin_inreg s.g w {}
  rw [Group.inreg, Group.inreg, h] at hin
  exact Option.isSome_iff_exists.mp hin

/-! ### What a region load leaves -/

theorem loader_region (a : Access) (w : Word) (g : Group) : ∃ r, a.loader w g = { g with region := r } := by
  obtain ⟨r, h⟩ := concreteKs_region g w
  unfold Access.loader
  rw [h]
  dsimp only
  split <;> exact ⟨_, rfl⟩

/-- Translation, and a region load after it, change nothing of the group but what it has read and holds pending. -/
theorem fetched_group {a : Access} {w : Word} {s c : State} (hf : ({ (a.reach (s.begun w {})).2 with g := a.loader w (a.reach (s.begun w {})).2.g } : State).Fetches c) :
    ∃ v lp r pt se u, c.g = { s.g with v := v, region := r, paths := agePaths s.g.paths, uninit := u, wait := .none, lastPage := lp, pendTiles := pt, seen := se } ∧ v = (s.g.begin w {}).v := by
  obtain ⟨lp, r, pt, se, hg⟩ := hf.g
  obtain ⟨lp', r', pt', hq⟩ := (access_drift a (s.begun w {})).g
  obtain ⟨v, r'', u, hb, -⟩ := begin_fields s.g w {}
  obtain ⟨r3, hload⟩ := loader_region a w (a.reach (s.begun w {})).2.g
  refine ⟨v, lp, r, pt, se, u, ?_, by rw [hb]⟩
  rw [hg]
  dsimp only
  rw [hload, hq, begun_g, hb]

theorem written_fields (a : Access) (w : Word) (act : Mask) (g : Group) (vals : List (Nat × Nat)) : ∃ k v, a.written w act g vals = { g with k := k, v := v } := by
  unfold Access.written
  split
  · unfold Group.writeK
    split
    · exact ⟨g.k, g.v, rfl⟩
    · exact ⟨_, g.v, rfl⟩
  · obtain ⟨v, hv⟩ := writeOp_fields g 0 w.f.d.toNat (w.f.rnd.toNat == 6) act (laneNumbers.map fun l => ((vals.find? fun v => v.1 == l).map Prod.snd).getD 0)
    exact ⟨g.k, v, hv⟩

/-- The destination of a control load. -/
theorem written_k {a : Access} {w : Word} {act : Mask} {g : Group} {vals : List (Nat × Nat)} (n : Nat) (h : a.control = true → n ≠ w.f.d.toNat) :
    tget ({} : KReg) (a.written w act g vals).k n = tget {} g.k n := by
  unfold Access.written
  split
  · next hc => exact writeK_other _ _ _ _ _ (Ne.symm (h hc))
  · obtain ⟨v, hv⟩ := writeOp_fields g 0 w.f.d.toNat (w.f.rnd.toNat == 6) act (laneNumbers.map fun l => ((vals.find? fun v => v.1 == l).map Prod.snd).getD 0)
    rw [hv]

/-- The destination of a vector load. -/
theorem written_v {a : Access} {w : Word} {g0 : Group} (hf : a.Fits w g0) (hk : a.kind = .read) {act : Mask} {g : Group} {vals : List (Nat × Nat)} {n : Nat} (h : n ∉ w.writes.v) :
    (a.written w act g vals).vreg n = g.vreg n := by
  unfold Access.written
  split
  · unfold Group.writeK
    split <;> rfl
  · next hc => exact writeOp_other _ _ _ _ _ _ (hf.names hk (Bool.not_eq_true _ ▸ hc) ▸ h)

theorem cleaned_holds (a : Access) (w : Word) (y : Region) : y.Holds (a.cleaned w y) ∧ (a.cleaned w y).reads = y.reads := by
  unfold Access.cleaned
  split
  · split
    · obtain ⟨o, ts, h⟩ := untagK_fields y 0 0
      rw [h]
      exact ⟨rfl, rfl⟩
    · exact ⟨rfl, rfl⟩
  · split <;> exact ⟨rfl, rfl⟩

theorem cleaned_kept {a : Access} {w : Word} (y : Region) (hd : w.f.d ≠ 255) (hc : a.control = true → w.f.d ≠ 0) : a.cleaned w y = y := by
  unfold Access.cleaned
  split
  · next h => exact if_neg (hc h)
  · exact if_neg (by bv_omega)

/-- The values of a load have the lanes that translated. -/
theorem vals_lanes {a : Access} {w : Word} {g : Group} (hf : a.Fits w g) {s : State} {vals : List (Nat × Nat)} (h : vals.map Prod.fst = (a.reach s).1.ok.map Prod.fst) : (vals.map Prod.fst).Sublist (a.mayReach w g) :=
  h ▸ hf.lanes s

/-- The control thread's register reads the one value at once. -/
theorem written_control {a : Access} {w : Word} {act : Mask} {g h : Group} {vals : List (Nat × Nat)} (hc : a.control = true) (hs : (vals.map Prod.fst).Sublist [0]) (hd : w.f.d ≠ 0) (hk : h.k = (a.written w act g vals).k)
    {v : Nat × Nat} (hv : v ∈ vals) (d : Nat) : h.kAt d w.f.d.toNat = BitVec.ofNat 64 v.2 := by
  have hone : vals = [v] := by
    have hlen : vals.length ≤ 1 := by simpa using hs.length_le
    match vals, hv with
    | [x], hv => rw [List.mem_singleton.mp hv]
    | x :: y :: l, _ => simp at hlen
  unfold Access.written at hk
  rw [if_pos hc, hone] at hk
  exact kAt_writeK_now (by bv_omega) hk d

/-- A lane of a vector load's register reads its value at once. -/
theorem written_vector {a : Access} {w : Word} {act : Mask} {g h : Group} {vals : List (Nat × Nat)} (hc : a.control = false) (hs : (vals.map Prod.fst).Sublist (lanesOf act)) (hd : w.f.d ≠ 255) (h6 : w.f.rnd ≠ 6)
    (ha : (g.vreg w.f.d.toNat).alloc = true) (hh : h.vreg w.f.d.toNat = (a.written w act g vals).vreg w.f.d.toNat) {v : Nat × Nat} (hv : v ∈ vals) {d : Nat} (hdd : g.dist ≤ d) :
    laneAt (h.readAt d w.f.d.toNat) v.1 = BitVec.ofNat 32 v.2 := by
  have hin : v.1 ∈ lanesOf act := hs.subset (List.mem_map_of_mem hv)
  have hlt := lanesOf_lt hin
  have hact : act.getLsbD v.1 = true := (List.mem_filter.mp hin).2
  have hd' : w.f.d.toNat ≠ 255 := by bv_omega
  have hpair : (w.f.rnd.toNat == 6) = false := by
    rw [beq_eq_false_iff_ne]
    bv_omega
  have hw : a.written w act g vals = g.writeV 0 w.f.d.toNat act 0xFFFFFFFF ((laneNumbers.map fun l => ((vals.find? fun v => v.1 == l).map Prod.snd).getD 0).map (BitVec.ofNat 32)) := by
    unfold Access.written Group.writeOp
    rw [if_neg (by simp [hc]), if_neg hd', hpair]
    rfl
  rw [readAt_congr (hh.trans (congrArg (Group.vreg · w.f.d.toNat) hw)) d, readAt_writeV_now g _ act _ hd' ha hdd hlt hact]
  simp [laneAt, laneNumbers, List.getElem?_range hlt, find?_own (hs.nodup (lanesOf_nodup act)) hv]

theorem allWrites_plain (w : Word) : (w.allWrites {}).v = w.writes.v := List.append_nil _

/-- The beginning of a word leaves the names that it does not write. -/
theorem begin_other {g : Group} {w : Word} {n : Nat} (h : n ∉ w.writes.v) : (g.begin w {}).vreg n = g.vreg n := by
  obtain ⟨v, r, u, hb, hv, -⟩ := begin_fields g w {}
  rw [hb]
  exact hv n (allWrites_plain w ▸ h)

/-- The register of a vector load has been taken when the word begins. -/
theorem loaded_alloc {g : Group} {w : Word} (hn : w.writes.v = vecNames w.f.d.toNat (w.f.rnd.toNat == 6)) (hd : w.f.d ≠ 255) : ((g.begin w {}).vreg w.f.d.toNat).alloc = true := by
  have hd' : w.f.d.toNat ≠ 255 := by bv_omega
  have hmem : w.f.d.toNat ∈ vecNames w.f.d.toNat (w.f.rnd.toNat == 6) := by
    unfold vecNames
    rw [if_neg hd']
    split <;> simp
  rw [begin_vreg, (allocAll_vreg _ _ _).1, allWrites_plain, hn]
  simp [hmem, hd']

/-- A load of a region whose reads are made goes on: each value stands in its register, and the read set has its elements (R268). -/
theorem load_lands {a : Access} {w : Word} {body : State → State × Flow} {s c : State} {r y : Region} {vals : List (Nat × Nat)} (hx : s.executes w {} = true) (hf : a.Fits w (s.begun w {}).g) (hk : a.kind = .read)
    (hreads : a.reads w (a.reach (s.begun w {})).1.ok r { (a.reach (s.begun w {})).2 with g := a.loader w (a.reach (s.begun w {})).2.g } = some (vals, y, c))
    (hb : body (s.begun w {}) = ({ c with g := { a.written w ((s.begun w {}).g.active w.f.pred.toNat) c.g vals with region := some (a.cleaned w y) } }, .done)) (hm : c.mem.bad = none) :
    ∃ t, runWord w {} body s = .next t ∧ c.SameUnits t ∧ (a.reach (s.begun w {})).2.SameMemory t ∧ s.g.Past w t.g (w.next s.g.pc) (w.stall + 1) ∧ t.g.reqs = s.g.reqs ∧ t.g.mode = s.g.mode ∧ t.g.m = s.g.m ∧ t.g.m0 = s.g.m0 ∧
      t.g.region.map (fun z => (z.stores, z.words, z.pages)) = some (y.stores, y.words, y.pages) ∧ (w.releases {} = [] → t.g.region.map Region.reads = some y.reads) ∧
      (w.releases {} = [] → w.f.d ≠ 255 → (a.control = true → w.f.d ≠ 0) → t.g.region = some y) ∧
      (∀ n, n ∉ w.writes.v → n ∉ w.releases {} → t.g.vreg n = s.g.vreg n) ∧
      (∀ n, (a.control = true → n ≠ w.f.d.toNat) → tget ({} : KReg) t.g.k n = tget {} s.g.k n) ∧
      (a.control = true → w.f.d ≠ 0 → ∀ d, s.g.dist ≤ d → ∀ v ∈ vals, t.g.kAt d w.f.d.toNat = BitVec.ofNat 64 v.2) ∧
      (a.control = false → w.f.d ≠ 255 → w.f.rnd ≠ 6 → w.f.d.toNat ∉ w.releases {} → ∀ d, s.g.dist ≤ d → ∀ v ∈ vals, laneAt (t.g.readAt d w.f.d.toNat) v.1 = BitVec.ofNat 32 v.2) := by
  obtain ⟨hfetch, hlanes⟩ := reads_fetches hreads
  have hsub := vals_lanes hf hlanes
  obtain ⟨bv, lp, rg, pt, se, u, hcg, hbv⟩ := fetched_group hfetch
  obtain ⟨xk, xv, hxf⟩ := written_fields a w ((s.begun w {}).g.active w.f.pred.toNat) c.g vals
  have hcv : ∀ n, c.g.vreg n = (s.g.begin w {}).vreg n := fun n => by
    unfold Group.vreg
    rw [hcg, ← hbv]
  have hwk := written_k (a := a) (w := w) (act := (s.begun w {}).g.active w.f.pred.toNat) (g := c.g) (vals := vals)
  obtain ⟨hch, hcr⟩ := cleaned_holds a w y
  have hrep : (a.written w ((s.begun w {}).g.active w.f.pred.toNat) c.g vals).replay = none := by
    rw [hxf, hcg]
    exact executes_replay hx
  obtain ⟨t, v, z, ht, hu, hg, hv, hz, hzy⟩ := region_ends hx hb hm hrep
  have htv : ∀ n, n ∉ w.releases {} → t.g.vreg n = (a.written w ((s.begun w {}).g.active w.f.pred.toNat) c.g vals).vreg n := fun n hn => by
    rw [hg]
    exact hv n hn
  have htk : t.g.k = (a.written w ((s.begun w {}).g.active w.f.pred.toNat) c.g vals).k := by rw [hg]; rfl
  have hdist : c.g.dist = s.g.dist := by rw [hcg]
  refine ⟨t, ht, hu, sameMemory_trans (sameUnits_memory (SameUnits.of_g _ _)) (sameMemory_trans hfetch.mem (sameUnits_memory hu)), ?_, ?_, ?_, ?_, ?_, ?_, fun h => ?_, fun h hd hc => ?_, fun n hn hrel => ?_, fun n hn => ?_, fun hc hd d _ v' hv' => ?_, fun hc hd h6 hrel d hdd v' hv' => ?_⟩
  · rw [hg, hxf, hcg]
    exact ⟨rfl, rfl, rfl, rfl⟩
  · rw [hg, hxf, hcg]
    rfl
  · rw [hg, hxf, hcg]
    rfl
  · rw [hg, hxf, hcg]
    rfl
  · rw [hg, hxf, hcg]
    rfl
  · rw [hg]
    exact congrArg some (Eq.trans hz hch)
  · rw [hg, ← hcr, ← hzy h]
    rfl
  · rw [hg, hzy h, cleaned_kept y hd hc]
    rfl
  · rw [htv n hrel, written_v hf hk hn, hcv, begin_other hn]
  · rw [htk, hwk n hn, hcg]
  · rw [Access.mayReach, if_pos hc] at hsub
    exact written_control hc hsub hd htk hv' d
  · rw [Access.mayReach, if_neg (by simp [hc])] at hsub
    refine written_vector hc hsub hd h6 ?_ (htv _ hrel) hv' (hdist ▸ hdd)
    rw [hcv]
    exact loaded_alloc (hf.names hk hc) hd

theorem untagged_of {a : Access} {w : Word} {g : Group} (h : a.kind = .write → g.storeTagged w a.control (a.tagLanes w g) = false) : ¬a.tagged w g := fun ht => by
  have hno := h ht.1
  rw [ht.2] at hno
  cases hno

/-- Settles O9: outside a region the lanes that translated make one request; in a region loads read at once, stores join the buffer, and what a region cannot hold aborts it. -/
theorem accessesIssue : Obligations.AccessesIssue := by
  unfold Obligations.AccessesIssue
  intro i w s a hw ha hx hal
  obtain ⟨body, he, hdo, hf⟩ := access_runs hw ha hal
  dsimp only
  intro hstop hm
  rw [he]
  refine ⟨fun hin hok hmap hroom => ⟨fun hb => ?_, fun b bs hb => ?_⟩, fun hin hok b bs hb => ?_, fun r0 hr hb => ?_⟩
  · exact access_issued hx hdo hf hin hstop hm hok hmap hroom hb
  · exact access_partly hx hdo hf hin hstop hm hok hmap hroom hb
  · exact access_faults hx hdo hf hin hstop hok hb
  · obtain ⟨r1, hr1⟩ := begun_region w hr
    refine ⟨fun hk htag hs => ?_, fun htag => ⟨fun htarget hs => ?_, fun hall x hxr => ⟨fun hk => ?_, fun hk hhold z hz => ?_⟩⟩⟩
    · obtain ⟨t, ht, hab, hu⟩ := abort_from hx (hdo.tagged ⟨hk, htag⟩) (executes_sound (s := s) hx) hr hs
      exact ⟨t, ht, hab, hu.mem⟩
    · exact access_aborts hx hr (hdo.target (untagged_of htag) hstop r1 hr1 hb htarget) hm hs
    · have hnone : ((a.reach (s.begun w {})).1.ok.any fun o => o.2.2 != 0) = false := by simpa using hall
      obtain ⟨hdone, hover⟩ := hdo.store hk (untagged_of htag) hstop r1 hr1 hb hnone x hxr
      split
      · next y hy => exact store_lands hx (hdone y hy) hm (access_replay a hx) hxr
      · next c hc => exact access_aborts hx hr (hover c hc) hm
    · have hnone : ((a.reach (s.begun w {})).1.ok.any fun o => o.2.2 != 0) = false := by simpa using hall
      rw [hr1, Option.bind_some] at hhold
      obtain ⟨hover, hdone⟩ := hdo.load hk hstop r1 hr1 hb hnone hhold z hz
      split
      · next h => exact access_aborts hx hr (hover h) hm
      · next vals y c h => exact load_lands hx hf hk h (hdone vals y c h)

end Sys2Proof.Machine
end
